-- ==== Sys2Proof/Word.lean ====
section
/-!
DEFINITION. The word types of the HLF-9600 model: bytes, 4,096-byte blocks, 128-bit metadata, and the
little-endian reading of numbers as byte lists (R5).
-/

namespace Sys2Proof

/-- One byte. -/
abbrev Byte := BitVec 8

/-- One 4,096-byte block; byte `j` of the block is bits `8j+7 .. 8j` (R5: little-endian). -/
abbrev Block := BitVec 32768

/-- The first 16 bytes of a block's metadata (R80): a block tag, or CHECK, COURSE, FIELD and ROLE. -/
abbrev Meta := BitVec 128

/-- A 128-bit identity: FIELD_UUID, MEMBER_UID (R55, R76). -/
abbrev Uid := BitVec 128

/-- A SHA-384 digest (R371, R387). -/
abbrev Digest := BitVec 384

end Sys2Proof
end

