-- ==== Sys2Proof/Types.lean ====
section
/-!
DEFINITION. The types of the commands' operands: submission entries, host data, labels, frames, and the
other structures that parties outside the chip hand to it. Each docstring names the rule of spec/.
-/

namespace Sys2Proof

/-- The two mailboxes that carry one command set (R343, R365). -/
inductive MbxPath where
  | host | mgmt
  deriving DecidableEq, Repr

/-- A mailbox request (R354): SEQ, PAYLOAD_LEN and the payload's bytes; the command is the constructor. -/
structure MbxReq where
  seq : BitVec 32
  len : Nat
  payload : List Byte
  deriving DecidableEq, Repr

/-- The tick-bound tasks of R36. -/
inductive TaskId where
  | quota | slots | leases | share | checkpoint | faults
  deriving DecidableEq, Repr

/-- A submission entry of an I/O queue without its OWN bit and opcode (R317). -/
structure SqEntry where
  batchEnd : Bool
  tag : BitVec 16
  fieldId : BitVec 8
  dkind : BitVec 2
  lba : BitVec 48
  nlb : BitVec 32
  daddr : BitVec 64
  dcount : BitVec 32
  deriving DecidableEq, Repr

/-- What the reads of a frame meet (R205 to R208, R232): symbols in error, each by its codeword, 0 to 31, and its place in it, 0 to
159, of the first read and of the second one, which a failed check causes. -/
inductive FrameFault where
  | symbols (first again : List (Nat × Nat))
  | moved                       -- replaced, moved, or copied from another boot: its MACs fail in every decode (R207)
  | directory                   -- the line directory frame itself is unrecoverable
  deriving DecidableEq, Repr

/-- A frame that patrol scrub visits (R203, R232). -/
inductive PatrolAt where
  | line (frame : Nat)          -- a frame of the line pool
  | window (page : Nat)
  | other                       -- system area, mirror pool, line directory, MAC region
  deriving DecidableEq, Repr

/-- A submission ring slot as a burst reads it (R313), with the DRAM errors that its blocks meet in the cache when it is taken in
(R208), by LBA. -/
structure SqSlot where
  own : Bool
  opcode : BitVec 8
  entry : SqEntry
  faults : List (Nat × FrameFault) := []
  deriving DecidableEq, Repr

/-- An SGL descriptor (R320). -/
structure SglDesc where
  addr : BitVec 64
  length : BitVec 32
  typ : BitVec 4
  deriving DecidableEq, Repr

/-- A DEALLOCATE range entry (R319). -/
structure RangeEntry where
  lba : BitVec 48
  nlb : BitVec 32
  deriving DecidableEq, Repr

/-- What a host memory read brings back, by the purpose of the read (R313, R319, R320, R329). -/
inductive HostData where
  | entries (l : List SqSlot)
  | cqOwn (l : List Bool)
  | data (bytes : Nat)          -- the bytes read, as one little-endian number (R5)
  | sgl (l : List SglDesc)
  | ranges (l : List RangeEntry)
  deriving DecidableEq, Repr

/-- How a host memory read fails (R294). -/
inductive HostReadErr where
  | unsupportedRequest | completerAbort | poisoned
  deriving DecidableEq, Repr

/-- The causes of a port hold that the endpoint detects (R296, HIF_HOLD_CAUSE 1 to 3). -/
inductive HoldCause where
  | malformed | poisoned | datapath
  deriving DecidableEq, Repr

/-- The three shadowed window registers (R301). -/
inductive WinReg where
  | base | size | ctrl
  deriving DecidableEq, Repr

/-- Where a register lies: BAR0 (R279), or configuration space (R273, R274). -/
inductive RegSpace where
  | bar0 | config
  deriving DecidableEq, Repr

/-- What an MSI-X mask command changes (R288). -/
inductive MaskTarget where
  | vector (v : Nat) (masked : Bool)
  | functionMask (on : Bool)
  | enable (on : Bool)
  deriving DecidableEq, Repr

/-- A member-table entry of a label (R77). -/
structure MTabEntry where
  uid : Uid
  state : BitVec 8
  tagCapable : Bool
  joinGen : BitVec 64
  deriving DecidableEq, Repr

/-- A label block (R76) without its MAC. -/
structure Label where
  kind : BitVec 8
  tagged : Bool
  readOnly : Bool
  width : Nat
  brickShift : Nat
  position : Nat
  ownerPos : Bool
  paired : Bool
  seq : Nat
  gen : Nat
  uuid : Uid
  fieldId : Nat
  nextWidth : Nat
  fieldState : Nat
  lostCount : Nat
  courses : Nat
  memberUid : Uid
  members : List MTabEntry
  nextMembers : List MTabEntry
  deriving DecidableEq, Repr

/-- A block of a label ring that is not zero, as a read brings it (R73): its slot and place, its FORMAT, what it says, and the MAC found
in it. The block of a torn write has a MAC that does not fit. -/
structure LabelBlk where
  slot : Bool
  place : Nat
  format : Nat
  label : Label
  mac : BitVec 256
  deriving DecidableEq, Repr

/-- An entry of the lost-course list (R78). -/
structure LostEntry where
  course : Nat
  mask : BitVec 32
  reason : Nat
  deriving DecidableEq, Repr

/-- A rebuild target entry of a progress block (R154). -/
structure TargetEntry where
  uid : Uid
  position : Nat
  side : Bool
  startCourse : Nat
  nextCourse : Nat
  deriving DecidableEq, Repr

/-- A reshape record (R172). `kind` 0 free, 1 GROW, 2 SHRINK, 3 COPY. -/
structure RsRecord where
  kind : Nat
  fieldId : Nat
  bandValid : Bool
  paused : Bool
  stepCourses : Nat
  ckptSeq : Nat
  headland : Nat
  bandLba : Nat
  bandBlocks : Nat
  uuid : Uid
  oldWidth : Nat
  newWidth : Nat
  copyPos : Nat
  oldCourses : Nat
  newCourses : Nat
  startGen : Nat
  deriving DecidableEq, Repr

/-- A copy of the furrow-map replica that a member holds (R133): its header and its fine bits. -/
structure Replica where
  refreshSeq : Nat
  gen : Nat
  uuid : Uid
  tick : Nat
  coarseShift : Nat
  fineShift : Nat
  fineBlocks : Nat
  coarse : BitVec 16
  fine : List Nat
  deriving DecidableEq, Repr

/-- What a read of a member's label region brings: the blocks of both label rings, both copies of the replica with the MACs that were
found, and the current progress, checkpoint and lost-course blocks (R59, R72, R133). -/
structure RegionRead where
  labels : List LabelBlk
  replicas : List (Nat × Replica × BitVec 256)   -- by copy; one that is empty is not listed
  progress : Option (Nat × List TargetEntry)
  checkpoint : Option RsRecord
  lost : List LostEntry
  deriving DecidableEq, Repr

/-- What a member write carries, or a member read brings back: blocks with their first 16 bytes of metadata
(R80), or a label-region structure (R72). -/
inductive MPayload where
  | none
  | blocks (l : List (Block × Meta))
  | label (format : Nat) (l : Label) (mac : BitVec 256)
  | labels (l : List LabelBlk)
  | replica (r : Replica) (mac : BitVec 256)
  | progress (seq gen : Nat) (uuid : Uid) (targets : List TargetEntry) (mac : BitVec 256)
  | checkpoint (r : RsRecord) (mac : BitVec 256)
  | lostList (gen : Nat) (l : List LostEntry) (mac : BitVec 256)
  | zeros
  | region (r : RegionRead)
  deriving DecidableEq, Repr

/-- The NVMe completion of a member command (R63, R94): success with its data, or an error status. -/
inductive MemberResult where
  | ok (p : MPayload)
  | mediaError
  deriving DecidableEq, Repr

/-- A namespace that enumeration or hot-plug finds, with the label-region structures that the device reads
from it (R55, R59, R61, R147): the blocks of both label rings and both copies of the replica, valid or not, and the current
progress, checkpoint and lost-course blocks of a field member. -/
structure NsFound where
  port : Nat
  bdf : Nat                     -- bus, device and function
  nsid : Nat                    -- namespace ID
  nguid : Uid
  eui64 : BitVec 64
  lbaBytes : Nat
  metaBytes : Nat
  dpsOff : Bool
  vwc : Bool
  mdtsKib : Nat
  qpairs : Nat
  blocks : Nat
  subsystem : Nat
  labels : List LabelBlk
  replicas : List (Nat × Replica × BitVec 256)   -- by copy; one that is empty is not listed
  progress : Option (Nat × List TargetEntry)
  checkpoint : Option RsRecord
  lost : List LostEntry
  deriving DecidableEq, Repr

/-- A SMART critical warning (R144 rows 4 and 5). -/
inductive SmartWarning where
  | spareLow | reliability | readOnlyMedia | cleared
  deriving DecidableEq, Repr

/-- The faults that the Mortar Store meets in one Commit phase (R140, R141): lines that fail program verify,
lines with a correctable error and lines with an uncorrectable error. -/
structure MstFaults where
  verifyFail : List Nat
  correctable : List Nat
  uncorrectable : List Nat
  deriving DecidableEq, Repr

/-- What a hod lookup or engine operation finds wrong (R199). -/
inductive HodError where
  | correctable (entry row : Nat)
  | uncorrectable (entry row : Nat)
  | tagParity (entry : Nat)
  | multiple (entries : List Nat)  -- a lookup matches more than one entry
  deriving DecidableEq, Repr

/-- The grant of a course lock to a job, with what its hod lookups find wrong (R14, R199). -/
structure LockGrant where
  job : Nat
  hod : List HodError
  deriving DecidableEq, Repr

/-- What the start of a destage meets: frame faults of its lines by LBA, and what its hod lookups find wrong (R199, R208). -/
structure DestageMeets where
  frames : List (Nat × FrameFault)
  hod : List HodError
  deriving DecidableEq, Repr

/-- What the restore of a dump meets: pages that cannot be corrected, with their channels, and frames that fail otherwise (R229, R233). -/
structure DumpDamage where
  pages : List (Nat × Nat)
  frames : List Nat
  deriving DecidableEq, Repr

/-- How far the background erase of a slot has come, in pages (R230). -/
structure EraseReach where
  slot : Nat
  pages : Nat
  deriving DecidableEq, Repr

/-- A fault decision of task 0x06 (R144): member, new state FAILED or MISSING, event row 1 to 7. -/
structure FaultDecision where
  member : Nat
  missing : Bool
  row : Nat
  deriving DecidableEq, Repr

/-- A fine-map decision of task 0x03 (R129): grant `k` blocks, or release. -/
inductive LeaseDecision where
  | grant (field k : Nat)
  | release (field : Nat)
  deriving DecidableEq, Repr

/-- The results that the tick-bound tasks post (R36, R346). -/
inductive TaskResult where
  | quota (n : Nat)
  | slots (grants : List (Nat × Nat))
  | leases (l : List LeaseDecision)
  | share (tenths : Nat)
  | checkpoint
  | faults (l : List FaultDecision)
  deriving DecidableEq, Repr

/-- A heartbeat (R243). -/
structure Heartbeat where
  tick : BitVec 48
  pairState : BitVec 8
  dump : Bool
  hold : Bool
  stale : Bool
  fencing : Bool
  ckptSeq : BitVec 64
  ckptAck : BitVec 64
  mirrorAck : BitVec 32
  ownerEpoch : BitVec 64
  deriving DecidableEq, Repr

/-- A LINE or BULK_LINE frame (R242). -/
structure LineFrame where
  field : Nat
  lba : Nat
  first : Bool
  last : Bool
  band : Bool
  slot : BitVec 14
  reuse : BitVec 18
  mirrorSeq : BitVec 32
  version : BitVec 64
  tag : Meta
  data : Block
  deriving DecidableEq, Repr

/-- An OFFER of the key agreement (R378). -/
structure Offer where
  serial : BitVec 64
  twinPos : Bool
  nonce : BitVec 256
  ephPub : BitVec 776           -- ephemeral ECDH public key
  ownerDigest : Digest          -- OWNER_KEY_DIGEST
  chains : List Byte            -- both certificate chains
  deriving DecidableEq, Repr

/-- What authenticates an OFFER: the ephemeral key, both certificate chains, and whether the chains verify (R378). -/
structure OfferCreds where
  ephPub : BitVec 776
  chains : List Byte
  chainsOk : Bool
  deriving DecidableEq, Repr

/-- A PAIR_HELLO body (R366). -/
structure PairHello where
  twnVersion : Nat
  twinPos : Bool
  serial : BitVec 64
  bootCount : Nat
  dirtyCap : Nat
  winDumpLimit : Nat
  poolBytes : Nat
  fieldsOwned : Nat
  ticks : BitVec 64            -- the partner's TCK_COUNT of the aligned tick (TCK_PAIR_OFFSET)
  gapCycles : Nat              -- cycles of the pairing gap that TWIN_TICK shows (R39)
  deriving DecidableEq, Repr

/-- One entry of an AGREE frame (R366). -/
structure AgreeEntry where
  uuid : Uid
  gen : Nat
  fieldId : Nat
  ownerPos : Bool
  dumpLines : Bool
  deriving DecidableEq, Repr

/-- A Mortar Store line that a checkpoint carries (R135, R242). -/
inductive CkptLine where
  | fieldEntry (id : Nat) (uuid : Uid) (valid : Bool) (coarseShift fineShift fineBlocks : Nat)
  | coarse (id : Nat) (map : BitVec 16)
  | fine (id part : Nat) (bits : List Nat)   -- the set fine bits of one line: bits 512 × part to 512 × part + 511
  | reshape (r : RsRecord)
  deriving DecidableEq, Repr

/-- The phases of FIELD_RESERVE and PARAM_SYNC (R366). -/
inductive ReservePhase where
  | request | granted | refused
  deriving DecidableEq, Repr

inductive SyncPhase where
  | propose | accept | refuse | commit
  deriving DecidableEq, Repr

/-- The reasons of a REFUSE message (R378). -/
inductive RefuseReason where
  | chain | signature | ownerMismatch | timeout
  deriving DecidableEq, Repr

/-- A 32-byte Field Book record (R424). -/
structure FbRec where
  code : BitVec 16
  src : BitVec 16
  seq : BitVec 32
  tick : BitVec 48
  rep : BitVec 16
  sev : BitVec 8
  flags : BitVec 8
  p1 : BitVec 32
  p2 : BitVec 32
  p3 : BitVec 32
  deriving DecidableEq, Repr

/-- An update package's component entry (R404), its format fields included. -/
structure Component where
  number : Nat
  ifVersion : Nat
  svn : Nat
  major : Nat
  minor : Nat
  build : Nat
  accept : List (Nat × Nat)
  twnVersion : Nat
  formatSet : Nat
  configFormat : Nat
  configFormatOld : Nat
  labelFormat : Nat
  labelFormatOld : Nat
  imageBytes : Nat
  offset : Nat
  sigOffset : Nat
  sigBytes : Nat
  deriving DecidableEq, Repr

/-- What chunk 0 of a package says (R403) when its MAGIC, FORMAT and layout hold. -/
structure Manifest where
  chunkCount : Nat
  packageBytes : Nat
  hashes : List Digest
  components : List Component
  deriving DecidableEq, Repr

/-- The causes of a Keystone reset (R370). -/
inductive KstCause where
  | glitch | sramEcc | keyBus | entropy
  deriving DecidableEq, Repr

/-- What a run of the boot ROM and a start-up meet outside the chip's own state (R368, R236, R470): the straps,
the checks of ROM and OTP, lines of the Mortar Store that fail their CHECK, signatures that fail
(`badVendor`/`badOwner` list pairs of place, 0 slot 0, 1 slot 1, 2 seedbed, and component number), chunks of
the seedbed that fail their hash, and writes to boot flash that fail. -/
structure BootEnv where
  romOk : Bool
  twinPos : Bool
  gpio2 : Bool
  gpio3 : Bool
  badCounterLines : List Nat
  badMarkerLines : List Nat
  badSessionLines : List Nat
  badVendor : List (Nat × Nat)
  badOwner : List (Nat × Nat)
  badChunks : List Nat
  readBackFails : Bool
  copyCut : Bool                -- power fails while the activation copy runs (R420)
  ledgerFails : Bool
  deriving DecidableEq, Repr

/-- What step S2 of a start-up finds (R140, R203, R221, R450, R466). -/
structure DramEnv where
  dramGib : Nat
  failedChannels : List Nat
  slotBytes : Nat
  correctable : List Nat
  badFurrowLines : List Nat
  badSlots : List Nat
  badEntries : List Nat
  badReshapes : List Nat        -- reshape records with a line that fails
  badDescriptor : Bool
  deriving DecidableEq, Repr

end Sys2Proof
end

