-- ==== Sys2Proof/Syntax.lean ====
section
/-!
DEFINITION. The commands of the block: one constructor for each row of spec/opcode_table.json, in the table's
order, with the operands that the row's rule gives the event. A Bool operand `ok` of a Twin Link frame is the
verdict of its authentication tag (R241).
-/

namespace Sys2Proof

/-- A command: one row of the table of operations and events. -/
inductive Instr where
  | tickBoundary
  | admitPhase
  | mirrorPhase
  | commitPhase (faults : MstFaults)
  | issuePhase
  | retirePhase
  | tckOverrun (task : TaskId)
  | tckOverrunStorm
  | taskResultPosted (r : TaskResult)
  | writeQuota
  | intentSlotLeases
  | furrowMapRegionLeases
  | rebuildShare
  | twinCheckpoint
  | memberFaultDecisions
  | read (q : Nat) (e : SqEntry) (faults : List (Nat × FrameFault))
  | write (q : Nat) (e : SqEntry)
  | flush (q : Nat) (e : SqEntry)
  | writeZeroes (q : Nat) (e : SqEntry)
  | deallocate (q : Nat) (e : SqEntry)
  | verify (q : Nat) (e : SqEntry)
  | stallPoll
  | periodicScan
  | hostReadCompletion (id : Nat) (d : HostData)
  | hostReadTimeout (id : Nat)
  | hostReadError (id : Nat) (e : HostReadErr)
  | hifLateCompletion (id : Nat)
  | lineRefetchDone (field lba : Nat) (data : Option Block)
  | doorbellWrite (offset size : Nat)
  | forbiddenTargetRead (bar offset size : Nat)
  | forbiddenTargetWrite (bar offset size : Nat)
  | registerWrite (space : RegSpace) (offset size value : Nat)
  | tckCountLowRead (offset requester : Nat)
  | tckCountHighRead (offset requester : Nat)
  | holdReq
  | portHoldEnter (c : HoldCause)
  | holdReleaseArm
  | holdReleaseComplete
  | holdReleaseDisarm (value : BitVec 32)
  | holdHandoverTimeout
  | winShadowWrite (r : WinReg) (value : BitVec 64)
  | windowWrite (offset len data : Nat)
  | windowRead (offset len : Nat)
  | linkTrained (speed width : Nat) (flit : Bool)
  | busMasterEnableChange (on : Bool)
  | memorySpaceEnableChange (on : Bool)
  | msixMaskChange (t : MaskTarget)
  | ltrLevelChange
  | aspmL1Entry
  | aspmL1Exit
  | d3hotEntry
  | d0Return
  | identify (p : MbxPath) (r : MbxReq)
  | commandObjectsGranted (p : MbxPath)
  | deviceStatus (p : MbxPath) (r : MbxReq)
  | deviceReset (p : MbxPath) (r : MbxReq)
  | softResetRestart (b : BootEnv)
  | adminQueueCreate (p : MbxPath) (r : MbxReq)
  | adminQueueDelete (p : MbxPath) (r : MbxReq)
  | fieldCreate (p : MbxPath) (r : MbxReq)
  | fieldDelete (p : MbxPath) (r : MbxReq)
  | fieldOffline (p : MbxPath) (r : MbxReq)
  | fieldOfflineDone (field : Nat)
  | fieldOnline (p : MbxPath) (r : MbxReq)
  | fieldStatus (p : MbxPath) (r : MbxReq)
  | fieldSetReadOnly (p : MbxPath) (r : MbxReq)
  | fieldReshape (p : MbxPath) (r : MbxReq)
  | fieldLostList (p : MbxPath) (r : MbxReq)
  | memberList (p : MbxPath) (r : MbxReq)
  | memberAddSpare (p : MbxPath) (r : MbxReq)
  | memberRemoveSpare (p : MbxPath) (r : MbxReq)
  | memberFail (p : MbxPath) (r : MbxReq)
  | memberRelease (p : MbxPath) (r : MbxReq)
  | memberRebuild (p : MbxPath) (r : MbxReq)
  | memberFormat (p : MbxPath) (r : MbxReq)
  | ledgerRead (p : MbxPath) (r : MbxReq)
  | ledgerInfo (p : MbxPath) (r : MbxReq)
  | certRead (p : MbxPath) (r : MbxReq)
  | ownerEnrol (p : MbxPath) (r : MbxReq) (sigsOk : Bool)
  | ownerPolicy (p : MbxPath) (r : MbxReq)
  | updOpen (p : MbxPath) (r : MbxReq)
  | updChunk (p : MbxPath) (r : MbxReq)
  | chunkLanded (p : MbxPath)
  | updStatus (p : MbxPath) (r : MbxReq)
  | updClose (p : MbxPath) (r : MbxReq)
  | updAbort (p : MbxPath) (r : MbxReq)
  | updConfirm (p : MbxPath) (r : MbxReq)
  | updSessionExpired
  | idleSCommit
  | fbkRead (p : MbxPath) (r : MbxReq) (ecc : List (Nat × Bool))
  | fbkInfo (p : MbxPath) (r : MbxReq)
  | paramGet (p : MbxPath) (r : MbxReq)
  | paramSet (p : MbxPath) (r : MbxReq)
  | paramInfo (p : MbxPath) (r : MbxReq)
  | twnStatus (p : MbxPath) (r : MbxReq)
  | twnHandover (p : MbxPath) (r : MbxReq)
  | twnReturn (p : MbxPath) (r : MbxReq)
  | twnAdopt (p : MbxPath) (r : MbxReq)
  | setEndpointId (eid : BitVec 8)
  | getEndpointId
  | getMctpVersionSupport (msgType : BitVec 8)
  | getMessageTypeSupport
  | getVendorDefinedMessageSupport (selector : BitVec 8)
  | i3cDynamicAddress (addr : BitVec 7)
  | createIoQueuePair (tag qid : BitVec 16) (batching : Bool) (coalCount coalTicks : BitVec 16)
      (sqEntries cqEntries : BitVec 32) (sqBase cqBase : BitVec 64)
  | deleteIoQueuePair (tag qid : BitVec 16)
  | setFieldSet (tag qid : BitVec 16) (set : BitVec 256)
  | memberCompletion (id : Nat) (r : MemberResult)
  | memberTransportError (id : Nat)
  | memberReadHedged (id : Nat)
  | courseLockGrant (grant : LockGrant)
  | mortarOperationDone (job : Nat) (mismatch : Bool) (hod : List HodError)
  | destageStart (field course : Nat) (geom : Bool) (meets : DestageMeets)
  | destageGuardReady (job : Nat)
  | mstReplicaTick (field : Nat)
  | resyncCourseStart (field course : Nat) (geom : Bool)
  | scrubCourseStart (field : Nat)
  | fieldScrubLate (field : Nat)
  | scrubPositionSave
  | memberControllerFatal (member : Nat)
  | memberReadyTimeout (member : Nat)
  | memberAsyncEvent (member : Nat) (w : SmartWarning)
  | memberPathLost (member : Nat)
  | memberPathReturned (member : Nat)
  | memberPathGraceExpired (member : Nat)
  | namespaceDiscovered (ns : NsFound)
  | rebuildStart (field position : Nat)
  | rebuildCourseStart (field : Nat)
  | rebuildTargetJoined (field position : Nat)
  | reshapeStepStart (field : Nat)
  | fieldRecovered (field : Nat)
  | hodAgeTick
  | hodMoveDone (reg : Nat)
  | hodInvalidated
  | holdupOkChange (high : Bool)
  | holdupSettleExpired
  | drmChannelFailed (channel : Nat)
  | drmDirectoryRebuilt
  | drmPatrol (faults : List (PatrolAt × FrameFault))
  | dumpStart
  | dumpEnd (retries : List Nat) (b : BootEnv)
  | vaultRestoreStart (damage : DumpDamage) (badFbkBlocks : List Nat)
  | vltRestoreDone
  | vaultEraseDone (reach : EraseReach)
  | vltHealthTest (failed : List Nat) (channel : Option Nat)
  | vaultNandFault (channel : Nat)
  | twinLinkTrained (width : Nat)
  | twinLinkLost
  | offer (serial : BitVec 64) (twinPos : Bool) (nonce : BitVec 256) (ownerDigest : Digest) (creds : OfferCreds)
  | proof (sigsOk : Bool)
  | refuse (r : RefuseReason)
  | keyAgreementTimeout
  | flitReceived (seq : BitVec 12) (kind : BitVec 4) (credit : BitVec 16) (crcOk : Bool)
  | replayRequest (seq : BitVec 12)
  | alignmentMarker (offsetNs : Int)
  | heartbeat (ok : Bool) (h : Heartbeat)
  | ckptLine (ok : Bool) (l : CkptLine) (last : Bool)
  | line (ok : Bool) (l : LineFrame)
  | release (ok : Bool) (field lba blocks : Nat) (version : BitVec 64)
  | windowPage (ok : Bool) (page : Nat) (data : Block)
  | fbkRecord (ok : Bool) (r : FbRec)
  | bulkLine (ok : Bool) (l : LineFrame)
  | pairHello (ok : Bool) (h : PairHello)
  | agree (ok final : Bool) (l : List AgreeEntry)
  | fieldReserve (ok : Bool) (field : Nat) (phase : ReservePhase)
  | handoverOffer (ok : Bool) (field : Nat) (ckptSeq mirrorSeq gen : Nat)
  | handoverAccept (ok : Bool) (field : Nat) (accepted : Bool)
  | handoverDrained (field : Nat)
  | bulkDone (ok : Bool) (lines pages : Nat)
  | paramSync (ok : Bool) (phase : SyncPhase) (paramId index value effectTick : Nat)
  | fieldKeys (ok : Bool) (uuid : Uid) (field : Nat) (blob : Option (BitVec 448))
  | twinAlivePulse
  | twnAliveFault
  | twoPathRule
  | takeoverLabelDeadline
  | takeoverFenceCheck
  | twnTakeoverDone
  | pairWaitExpired
  | keystoneReset (c : KstCause) (b : BootEnv)
  | trwLockstepFault (pair : Bool)
  | getVersion (t : MbxPath)
  | getCapabilities (t : MbxPath)
  | negotiateAlgorithms (t : MbxPath)
  | getDigests (t : MbxPath)
  | getCertificate (t : MbxPath) (slot offset length : Nat)
  | challenge (t : MbxPath) (slot nonce : Nat)
  | getMeasurements (t : MbxPath) (index nonce : Nat) (signed : Bool)
  | spdmUnsupportedRequest (t : MbxPath) (code : BitVec 8)
  | updConfirmSent
  | updConfirmTimeout
  | fallbackRestart (b : BootEnv)
  | seedbedEraseDone
  | fbkWriteSlot (logicFault : Bool)
  | coldReset (b : BootEnv)
  | warmReset
  | hotReset
  | functionLevelReset
  | powerLoss (framesWritten : Option Nat)
  | dramTrainingDone (d : DramEnv)
  | mptPerstRelease (port : Nat)
  | memberEnumerationDone (found : List NsFound)
  | freeze
  | extest
  | idcode
  | samplePreload
  | clamp
  | highz
  | frzStatus
  | harvestSel (value : BitVec 32)
  | harvest (bits : Nat)
  | bypass
  | sysThermalWarn (celsius sensor : Nat)
  | sysThermalClear (celsius sensor : Nat)
  | sysThermalTrip (celsius sensor : Nat)
  | pwrfailNReturn (b : BootEnv)
  | invalidOpcode (q : Nat) (opcode : BitVec 8) (e : SqEntry)
  | badOpcode (p : MbxPath) (opcode : BitVec 16) (r : MbxReq)
  deriving DecidableEq, Repr

end Sys2Proof
end

