-- ==== Sys2Proof/Machine/Bits.lean ====
section
/-!
DEFINITION. Bytes, check words (R5, R486), the field GF(2⁸) of R84 over whole blocks, and small list helpers.
-/

namespace Sys2Proof.Machine

/-- The `n` bytes of `v`, least significant first (R5). -/
def bytesLE : Nat → Nat → List Byte
  | 0, _ => []
  | n + 1, v => BitVec.ofNat 8 v :: bytesLE n (v / 256)

/-- The number that bytes spell, least significant first (R5). -/
def fromLE : List Byte → Nat
  | [] => 0
  | b :: l => b.toNat + 256 * fromLE l

/-- `n` zero bytes. -/
def zeroBytes (n : Nat) : List Byte := List.replicate n 0

/-- The number in `n` bytes of `l` from offset `off`; bytes past the end count as 0. -/
def le (l : List Byte) (off n : Nat) : Nat := fromLE ((l.drop off).take n)

/-- The ASCII bytes of a text, padded with zeros to `n` (R363). -/
def ascii (n : Nat) (t : String) : List Byte :=
  let l := t.toList.map fun c => BitVec.ofNat 8 c.toNat
  (l ++ zeroBytes n).take n

/-- One bit step of a reflected CRC with the reflected polynomial `p`. -/
def crcStep (p c : Nat) : Nat := if c % 2 = 1 then Nat.xor (c / 2) p else c / 2

/-- One byte of a reflected CRC. -/
def crcByte (p c : Nat) (b : Byte) : Nat :=
  let s := crcStep p
  s (s (s (s (s (s (s (s (Nat.xor c b.toNat))))))))

/-- CRC-32C of R486: reflected polynomial 0x82F63B78 of 0x1EDC_6F41. -/
def crc32c (l : List Byte) : BitVec 32 :=
  BitVec.ofNat 32 (Nat.xor (l.foldl (crcByte 0x82F63B78) 0xFFFFFFFF) 0xFFFFFFFF)

/-- The 64-bit CRC of R486: reflected polynomial 0xC96C_5795_D787_0F42 of 0x42F0_E1EB_A9EA_3693. -/
def crc64 (l : List Byte) : BitVec 64 :=
  BitVec.ofNat 64 (Nat.xor (l.foldl (crcByte 0xC96C5795D7870F42) 0xFFFFFFFFFFFFFFFF) 0xFFFFFFFFFFFFFFFF)

/-- The bytes of a block. -/
def blockBytes (b : Block) : List Byte := bytesLE 4096 b.toNat

/-- A block from the `i`-th 4,096 bytes of a transfer given as a little-endian number. -/
def blockAt (v i : Nat) : Block := BitVec.ofNat 32768 (v >>> (32768 * i))

/-- The transfer whose blocks are `l`, in order, as a little-endian number. -/
def joinBlocks : List Block → Nat
  | [] => 0
  | b :: l => b.toNat + (joinBlocks l) <<< 32768

/-! ## GF(2⁸) with the polynomial 0x11D and generator 2 (R84) -/

/-- Multiplication of one byte by the generator 2. -/
def gfDouble (b : Byte) : Byte := (b <<< 1) ^^^ (if b.msb then 0x1D#8 else 0#8)

/-- Multiplication of two bytes, by the `n` low bits of the first. -/
def gfMulN : Nat → Byte → Byte → Byte
  | 0, _, _ => 0
  | n + 1, a, b => (if a.getLsbD 0 then b else 0) ^^^ gfMulN n (a >>> 1) (gfDouble b)

/-- The product of two bytes. -/
def gfMul (a b : Byte) : Byte := gfMulN 8 a b

/-- 2 to the power `n`. -/
def gfPow2 : Nat → Byte
  | 0 => 1
  | n + 1 => gfDouble (gfPow2 n)

/-- The inverse of a byte: its power 254; 0 for 0. -/
def gfInv (a : Byte) : Byte :=
  let a2 := gfMul a a
  let a4 := gfMul a2 a2
  let a8 := gfMul a4 a4
  let a16 := gfMul a8 a8
  let a32 := gfMul a16 a16
  let a64 := gfMul a32 a32
  let a128 := gfMul a64 a64
  gfMul a2 (gfMul a4 (gfMul a8 (gfMul a16 (gfMul a32 (gfMul a64 a128)))))

/-- A block whose every byte is 0x01. -/
def onesBlock : Block := BitVec.ofNat 32768 ((2 ^ 32768 - 1) / 255)

/-- Each byte of a block times the generator 2. -/
def gfDoubleBlock (b : Block) : Block :=
  let hi := (b >>> 7) &&& onesBlock
  ((b <<< 1) &&& (onesBlock * 0xFE#32768)) ^^^ (hi * 0x1D#32768)

/-- Each byte of a block times a constant, by the constant's `n` low bits. -/
def gfScaleN : Nat → Byte → Block → Block
  | 0, _, _ => 0
  | n + 1, a, b => (if a.getLsbD 0 then b else 0) ^^^ gfScaleN n (a >>> 1) (gfDoubleBlock b)

/-- Each byte of a block times a constant. -/
def gfScale (a : Byte) (b : Block) : Block := gfScaleN 8 a b

/-! ## List helpers -/

/-- The first element with a property, changed; the list as it is when none has it. -/
def modFirst {α : Type} (p : α → Bool) (f : α → α) : List α → List α
  | [] => []
  | a :: l => if p a then f a :: l else a :: modFirst p f l

/-- Every element with a property, changed. -/
def modAll {α : Type} (p : α → Bool) (f : α → α) (l : List α) : List α :=
  l.map fun a => if p a then f a else a

/-- The list without elements that have the property. -/
def dropAll {α : Type} (p : α → Bool) (l : List α) : List α := l.filter fun a => !p a

/-- The list with `a` added unless it is there. -/
def addNew {α : Type} [BEq α] (a : α) (l : List α) : List α := if l.contains a then l else l ++ [a]

/-- The entry of an association list. -/
def look {α β : Type} [BEq α] (a : α) : List (α × β) → Option β
  | [] => none
  | (k, v) :: l => if k == a then some v else look a l

/-- An association list with one entry set. -/
def put {α β : Type} [BEq α] (a : α) (b : β) : List (α × β) → List (α × β)
  | [] => [(a, b)]
  | (k, v) :: l => if k == a then (a, b) :: l else (k, v) :: put a b l

/-- The least number not below `n` that is not in `l`, looked for over `fuel` steps. -/
def firstFree (l : List Nat) : Nat → Nat → Option Nat
  | 0, _ => none
  | fuel + 1, n => if l.contains n then firstFree l fuel (n + 1) else some n

/-- The number of set bits among the `n` low bits of `v`. -/
def popCount : Nat → Nat → Nat
  | 0, _ => 0
  | n + 1, v => v % 2 + popCount n (v / 2)

/-- The positions of the set bits among the `n` low bits. -/
def bitsOf (n v : Nat) : List Nat := (List.range n).filter fun i => v.testBit i

/-- The number with the listed bits set. -/
def bitSet (l : List Nat) : Nat := l.foldl (fun v i => Nat.lor v (2 ^ i)) 0

/-- A Bool as a number. -/
def b2n (b : Bool) : Nat := if b then 1 else 0

/-- Division rounded up; 0 for a divisor of 0. -/
def ceilDiv (a b : Nat) : Nat := if b = 0 then 0 else (a + b - 1) / b

/-- The sum of a list. -/
def total (l : List Nat) : Nat := l.foldl (· + ·) 0

/-- Insertion into a list sorted by a key, after equal keys. -/
def insertBy {α : Type} (key : α → Nat) (a : α) : List α → List α
  | [] => [a]
  | b :: l => if key a < key b then a :: b :: l else b :: insertBy key a l

/-- A list sorted by a key; elements of equal key keep their order. -/
def sortBy {α : Type} (key : α → Nat) (l : List α) : List α := l.foldl (fun acc a => insertBy key a acc) []

/-- A list without repeats, the first of each kept. -/
def dedup (l : List Nat) : List Nat := l.foldl (fun acc x => addNew x acc) []

end Sys2Proof.Machine
end

