-- ==== Sys2Proof/Config.lean ====
section
/-!
DEFINITION. What the spec fixes by naming a published standard, and the values it leaves open.
Every constant here is opaque and has no body: no proof can see a value of it.
-/

namespace Sys2Proof.Config

/-- The `n`-th value that the device draws where the spec lets it choose (a FIELD_UUID, a nonce, a field
secret, a SESSION_ID, an undefined result): read through the counter `State.freeCtr`. -/
opaque free : Nat → Nat

/-- HKDF-SHA-384 (R371, R373, R378): input key material, salt, info, length of the key in bytes. -/
opaque hkdf : List Byte → List Byte → List Byte → Nat → Nat

/-- The PUF response as corrected with the helper data, and the 32-byte OTP seed after it (R371). -/
opaque pufResponse : List Byte
opaque otpSeed : BitVec 256

/-- AES-256-XTS encryption of one block (R374): the field's XTS key, field LBA, plaintext. -/
opaque xtsEncrypt : Nat → Nat → Block → Block

/-- AES-256-XTS decryption of one block (R374): the field's XTS key, field LBA, ciphertext. -/
opaque xtsDecrypt : Nat → Nat → Block → Block

/-- AES-CMAC (R375): key, message as a little-endian number, its bytes. -/
opaque aesCmac : Nat → Nat → Nat → Meta

/-- HMAC-SHA-384 truncated to 32 bytes (R76, R223): key, message as a little-endian number, its bytes. -/
opaque hmac32 : Nat → Nat → Nat → BitVec 256

/-- SHA-384 of a message given as a little-endian number and its length in bytes (R387, R402). -/
opaque sha384 : Nat → Nat → Digest

/-- An ECDSA P-384 signature (R372, R378, R392, R395): seed of the private key, message, its bytes. -/
opaque signEcdsa : Nat → Nat → Nat → BitVec 768

/-- An ML-DSA-65 signature (R378, R392): seed, message, its bytes. -/
opaque signMldsa : Nat → Nat → Nat → BitVec 26472

/-- Ephemeral ECDH P-384 (R378): the public key of a private one, and the shared secret of a private and a public key. -/
opaque ecdhPublic : Nat → BitVec 776
opaque ecdhShared : Nat → BitVec 776 → BitVec 384

/-- AES key wrap of a 48-byte secret (R376, R377): wrapping key, secret. -/
opaque wrapKey : Nat → Nat → BitVec 448

/-- AES key unwrap of a 48-byte secret: wrapping key, wrapped secret. -/
opaque unwrapKey : Nat → BitVec 448 → Nat

/-- AES-256-XTS encryption of a frame's line under the per-boot key (R206): key, physical address, line. -/
opaque xtsFrame : Nat → Nat → Block → Block

/-- The 56-bit MAC of 256 bytes of a frame (R206): per-boot key, ciphertext, its physical address, the epoch of its page. -/
opaque frameMac : Nat → BitVec 2048 → Nat → BitVec 32 → BitVec 56

/-- The physical address of frame `n` of the line pool (R203, R206): where each region lies in the DRAM is not stated. -/
opaque frameAddress : Nat → Nat

/-- What a window page reads after its frame is lost (R208), which no rule states: the free counter. -/
opaque lostPage : Nat → Block

/-- AES-256-GCM of a vault frame (R224): dump key, DUMP_SEQ, frame index, DESCRIPTOR as additional data, DATA and TAG. -/
opaque gcmEncrypt : Nat → BitVec 64 → Nat → BitVec 64 → BitVec 32896 → BitVec 32896
opaque gcmTag : Nat → BitVec 64 → Nat → BitVec 64 → BitVec 32896 → BitVec 128

/-- The BCH code in the 704 spare bytes of a NAND page (R220). -/
opaque bch : BitVec 131072 → BitVec 5632

/-- AES key wrap of a 32-byte dump key (R223): wrapping key, dump key; and its unwrap. -/
opaque wrapDumpKey : Nat → Nat → BitVec 320
opaque unwrapDumpKey : Nat → BitVec 320 → Nat

/-- The Device Serial Number from OTP (R274). -/
opaque serial : BitVec 64

/-- Subsystem Vendor ID and Subsystem ID, written by the board maker (R273). -/
opaque subsystem : BitVec 32

/-- The version of an extended capability at an offset of configuration space (R274). -/
opaque capVersion : Nat → BitVec 4

/-- A word of configuration space that R273 to R275 leave to the PCI Express base specification: offset, free counter. -/
opaque configWord : Nat → Nat → BitVec 32

/-- The bytes of certificate chain 0 or 1 (R372) and the total length: chain number, offset. -/
opaque certByte : Nat → Nat → Byte

/-- The length in bytes of certificate chain 0 or 1 (R372). -/
opaque certLength : Nat → Nat

/-- A harvest bit of a segment whose layout the spec does not give (R459): segment, bit, free counter. -/
opaque harvestBit : Nat → Nat → Nat → Bool

/-- The stop cycle count of a clock domain (R456): domain, free counter. -/
opaque stopCycles : Nat → Nat → BitVec 48

/-- The boundary scan sample of the pins (R458): bit, free counter. -/
opaque boundaryBit : Nat → Nat → Bool

/-- The length of the boundary scan register (R458). -/
opaque boundaryLength : Nat

/-- A diagnostic parameter's value (R360): identifier, free counter. -/
opaque diagParam : Nat → Nat → Nat

/-- The blocks of the vault's pool that may be retired before R221 is no longer met. -/
opaque vaultSpares : Nat

/-- The image digest of a component of the images as delivered (R391). -/
opaque deliveredDigest : Nat → Digest

/-- A digest of the ROM content (R391). -/
opaque romDigest : Digest

/-- The offsets of the descriptor table and of the PCI Data Structure in the expansion ROM's image 0, and whether image 1 is
there (R282, R283). -/
opaque hdtOffset : BitVec 16
opaque pcirOffset : BitVec 16
opaque uefiDriver : Bool

/-- A byte of the expansion ROM whose content the spec leaves to the XROM image (R282): its offset. -/
opaque romByte : Nat → Byte

/-- The undefined outcome of a malformed entry (R326): what the free counter draws. -/
opaque malformed : Nat → Nat

end Sys2Proof.Config
end

