-- ==== Sys2Proof/Machine/Params.lean ====
section
/-!
DEFINITION. The parameters (R360 to R362): their classes, identifiers, names, ranges and defaults.
-/

namespace Sys2Proof.Machine

/-- The parameters of class CONFIG with one element, in ascending PARAM_ID order within a group (R360, R361). -/
inductive CfgP where
  | hifWinBarGib | dblScanTicks | dblStallPollTicks | tckStormTicks | winDumpLimit | morScrubIntervalH
  | morScrubMaxShare | morRebuildShare | morAutoRebuild | morRebuildCkptCourses | morBandMax
  | mstDestageReserve | mstQuotaMin | mstQuotaWindow | mstSlotLow | mstFineMaxBlocks
  | mstFineCommitCeiling | mstReplicaTicks | hodEnable | hodAgeTicks | hodStreamFill | hodErrLimit
  | drmDirtyCap | drmDestageDelayTicks | drmPatrolHours | vltHoldupMs | vltHoldupSettleTicks
  | vltTestHours | twnMode | twnFenceTicks | twnPairWaitS | twnHoldHandoverS | twnRejoinShare
  | twnAutoReturn | mptHedgeTicks | mptQpairsPerMember | mptQueueDepth | mptFailErasures
  | mptFailWindowTicks | mptPathGraceTicks | mptAutoCopy | kstSpdmEnable | fbkEventSeverity
  | fbkErrLimit | fbkDiag | updSessionIdleS | updHostConfirm | updHandoverWaitS
  deriving DecidableEq, Repr

/-- The number of single-element CONFIG parameters. -/
abbrev cfgCount : Nat := 48

/-- The parameters of class COUNTER (R108, R360). -/
inductive Ctr where
  | sysCtxWaitTicks | mbxCmds | mbxOverruns | mbxMgmtDropped | dblConsumed | dblRejected
  | dblEmptyScans | dblCqStalls | dblBatchesClosed | morLaneRetries | morFullCourse | morRcw | morRmw
  | morErasures | morRowsSolved | morSearches | morRowsUnsolved | morScrubCourses | morScrubFixes
  | morRebuildCourses | morReshapeCourses | morReshapeRedos | morLostCourses | morLostCleared
  | mstCommits | mstFullPhases | mstSlotHolds | mstGuardWaitTicks | mstOverflowSets | mstReplicaWrites
  | mstReplicaUrgent | mstResyncCourses | mstEccCorrected | mstEccUncorrected | hodLookups | hodRowHits
  | hodRowMisses | hodMergedMisses | hodBypasses | hodEvictions | hodRecalls | hodStreamFills
  | hodFillsDropped | hodSupersededRows | hodEccCorrected | hodEccUncorrected | hodTagErrors
  | drmCapWaitTicks | drmEccCorrected | drmLinesLost | vltDumps | vltProgramRetries
  | twnHeartbeatsMissed | twnFlitReplays | twnMirrorWaitTicks | twnTakeovers | twnHandovers
  | twnBulkBytes | kstAuthFailures | kstResets | fbkRecords | fbkFolds | fbkDropped | fbkEccCorrected
  | fbkEccUncorrected | updChunksAccepted | updChunksRefused | updFallbacks | frzIgnored
  deriving DecidableEq, Repr

/-- The number of counters. -/
abbrev ctrCount : Nat := 69

/-- The parameters of class STATUS (R361). -/
inductive StP where
  | sysCtxInUse | sysStateEpoch | dblQpairs | morLaneStatus | mstThrottleLevel | mstSlotsFree
  | hodStatus | hodLinesValid | drmProtected | drmDumpLoad | drmChannelStatus | vltSlotBytes | vltArmed
  | twnState | twnAliveFault | twnLinkWidth | twnMirrorPoolBytes | kstOwnerState | kstBootCount
  | kstLedgerOldest | kstFieldKeys | updSeedbedState | updActiveState | frzArmed | frzFuse
  deriving DecidableEq, Repr

/-- A parameter: CONFIG, MPT_DOMAIN_MAP, the two ACTION parameters, STATUS, COUNTER (R361). -/
inductive Par where
  | cfg (p : CfgP) | domain | drain | hodInv | st (p : StP) | ctr (c : Ctr)
  deriving DecidableEq, Repr

/-- 2¹⁰ bytes (R3). -/
def kib : Nat := 1024
/-- 2²⁰ bytes (R3). -/
def mib : Nat := 1048576
/-- 2³⁰ bytes (R3). -/
def gib : Nat := 1073741824

/-- The place of a CONFIG parameter in the vectors of the state. -/
def cfgIx (p : CfgP) : Fin cfgCount := Fin.ofNat cfgCount p.ctorIdx

/-- The place of a counter in the vector of the state. -/
def ctrIx (c : Ctr) : Fin ctrCount := Fin.ofNat ctrCount c.ctorIdx

/-- The default of a CONFIG parameter, in the units of R361. -/
def cfgDefault : CfgP → Nat
  | .hifWinBarGib => 1  -- R278
  | .dblScanTicks => 0  -- R341
  | .dblStallPollTicks => 64  -- R341
  | .tckStormTicks => 256  -- R37
  | .winDumpLimit => 0  -- R234
  | .morScrubIntervalH => 336  -- R108
  | .morScrubMaxShare => 50  -- R108
  | .morRebuildShare => 250  -- R180
  | .morAutoRebuild => 1  -- R180
  | .morRebuildCkptCourses => 1024  -- R180
  | .morBandMax => 1024 * mib  -- R180
  | .mstDestageReserve => 16  -- R142
  | .mstQuotaMin => 4  -- R142
  | .mstQuotaWindow => 64  -- R142
  | .mstSlotLow => 64  -- R142
  | .mstFineMaxBlocks => 4  -- R142
  | .mstFineCommitCeiling => 40  -- R142
  | .mstReplicaTicks => 4096  -- R142
  | .hodEnable => 1  -- R201
  | .hodAgeTicks => 32  -- R201
  | .hodStreamFill => 1  -- R201
  | .hodErrLimit => 8  -- R201
  | .drmDirtyCap => 16 * gib  -- R234
  | .drmDestageDelayTicks => 2048  -- R234
  | .drmPatrolHours => 24  -- R234
  | .vltHoldupMs => 1100  -- R234
  | .vltHoldupSettleTicks => 65536  -- R234
  | .vltTestHours => 24  -- R234
  | .twnMode => 0  -- R269
  | .twnFenceTicks => 384  -- R269
  | .twnPairWaitS => 60  -- R269
  | .twnHoldHandoverS => 30  -- R269
  | .twnRejoinShare => 250  -- R269
  | .twnAutoReturn => 0  -- R269
  | .mptHedgeTicks => 400  -- R65
  | .mptQpairsPerMember => 4  -- R65
  | .mptQueueDepth => 64  -- R65
  | .mptFailErasures => 64  -- R180
  | .mptFailWindowTicks => 16777216  -- R180
  | .mptPathGraceTicks => 2048  -- R180
  | .mptAutoCopy => 1  -- R180
  | .kstSpdmEnable => 1  -- R396
  | .fbkEventSeverity => 4  -- R439
  | .fbkErrLimit => 16  -- R439
  | .fbkDiag => 0  -- R439
  | .updSessionIdleS => 1209600  -- R422
  | .updHostConfirm => 0  -- R422
  | .updHandoverWaitS => 10  -- R422

/-- The lowest and highest value of a CONFIG parameter. -/
def cfgRange : CfgP → Nat × Nat
  | .hifWinBarGib => (1, 64)
  | .dblScanTicks => (0, 65535)
  | .dblStallPollTicks => (1, 65535)
  | .tckStormTicks => (16, 65535)
  | .winDumpLimit => (0, 16 * gib)
  | .morScrubIntervalH => (0, 8760)
  | .morScrubMaxShare => (0, 500)
  | .morRebuildShare => (0, 1000)
  | .morAutoRebuild => (0, 1)
  | .morRebuildCkptCourses => (256, 65536)
  | .morBandMax => (64 * mib, 4096 * mib)
  | .mstDestageReserve => (0, 48)
  | .mstQuotaMin => (1, 64)
  | .mstQuotaWindow => (16, 1024)
  | .mstSlotLow => (0, 512)
  | .mstFineMaxBlocks => (1, 16)
  | .mstFineCommitCeiling => (8, 56)
  | .mstReplicaTicks => (1024, 65536)
  | .hodEnable => (0, 1)
  | .hodAgeTicks => (1, 65535)
  | .hodStreamFill => (0, 1)
  | .hodErrLimit => (1, 255)
  | .drmDirtyCap => (gib, 32 * gib)
  | .drmDestageDelayTicks => (0, 65535)
  | .drmPatrolHours => (1, 168)
  | .vltHoldupMs => (150, 2050)
  | .vltHoldupSettleTicks => (1024, 16777216)
  | .vltTestHours => (1, 720)
  | .twnMode => (0, 1)
  | .twnFenceTicks => (128, 400)
  | .twnPairWaitS => (5, 3600)
  | .twnHoldHandoverS => (1, 3600)
  | .twnRejoinShare => (50, 1000)
  | .twnAutoReturn => (0, 1)
  | .mptHedgeTicks => (64, 1024)
  | .mptQpairsPerMember => (1, 16)
  | .mptQueueDepth => (16, 1024)
  | .mptFailErasures => (1, 65535)
  | .mptFailWindowTicks => (65536, 4294967295)
  | .mptPathGraceTicks => (256, 65536)
  | .mptAutoCopy => (0, 1)
  | .kstSpdmEnable => (0, 1)
  | .fbkEventSeverity => (0, 5)
  | .fbkErrLimit => (1, 255)
  | .fbkDiag => (0, 1)
  | .updSessionIdleS => (3600, 7776000)
  | .updHostConfirm => (0, 1)
  | .updHandoverWaitS => (1, 600)

/-- Whether a value lies within a CONFIG parameter's range (R278: powers of 2; R234: steps of 1 GiB; R219: multiples of 4 KiB). -/
def cfgInRange (p : CfgP) (v : Nat) : Bool :=
  (cfgRange p).1 ≤ v && v ≤ (cfgRange p).2 &&
  (p ≠ .hifWinBarGib || [1, 2, 4, 8, 16, 32, 64].contains v) &&
  (p ≠ .drmDirtyCap || v % gib = 0) &&
  (p ≠ .winDumpLimit || v % 4096 = 0)

/-- The lowest, highest and default value of a STATUS parameter, as far as the spec states them. -/
def stRange : StP → Option Nat × Option Nat × Option Nat
  | .sysCtxInUse => (none, none, none)
  | .sysStateEpoch => (none, none, none)
  | .dblQpairs => (some 0, some 1024, some 0)
  | .morLaneStatus => (some 0, some 15, some 0)
  | .mstThrottleLevel => (some 0, some 3, some 0)
  | .mstSlotsFree => (none, none, some 2048)
  | .hodStatus => (some 0, some 2, some 0)
  | .hodLinesValid => (some 0, some 48, some 0)
  | .drmProtected => (none, none, some 0)
  | .drmDumpLoad => (none, none, some 0)
  | .drmChannelStatus => (some 0, some 255, some 0)
  | .vltSlotBytes => (none, none, none)
  | .vltArmed => (some 0, some 1, some 0)
  | .twnState => (none, none, some 0)
  | .twnAliveFault => (some 0, some 1, some 0)
  | .twnLinkWidth => (some 0, some 16, some 0)
  | .twnMirrorPoolBytes => (none, none, some 0)
  | .kstOwnerState => (some 0, some 2, some 0)
  | .kstBootCount => (none, none, none)
  | .kstLedgerOldest => (none, none, none)
  | .kstFieldKeys => (some 0, some 256, some 0)
  | .updSeedbedState => (none, none, some 0)
  | .updActiveState => (none, none, some 3)
  | .frzArmed => (some 0, some 1, some 0)
  | .frzFuse => (some 0, some 1, some 1)

/-- The groups of R360: base identifier, and the group's parameters in index order with their names. -/
def parGroups : List (Nat × List (String × Par)) :=
  [(0x0400, [
    ("SYS_CTX_WAIT_TICKS", .ctr .sysCtxWaitTicks), ("SYS_CTX_IN_USE", .st .sysCtxInUse),
    ("SYS_STATE_EPOCH", .st .sysStateEpoch)])] ++
  [(0x0800, [
    ("HIF_WIN_BAR_GIB", .cfg .hifWinBarGib)])] ++
  [(0x0C00, [
    ("MBX_CMDS", .ctr .mbxCmds), ("MBX_OVERRUNS", .ctr .mbxOverruns),
    ("MBX_MGMT_DROPPED", .ctr .mbxMgmtDropped)])] ++
  [(0x1000, [
    ("DBL_SCAN_TICKS", .cfg .dblScanTicks), ("DBL_STALL_POLL_TICKS", .cfg .dblStallPollTicks),
    ("DBL_QPAIRS", .st .dblQpairs), ("DBL_CONSUMED", .ctr .dblConsumed),
    ("DBL_REJECTED", .ctr .dblRejected), ("DBL_EMPTY_SCANS", .ctr .dblEmptyScans),
    ("DBL_CQ_STALLS", .ctr .dblCqStalls), ("DBL_BATCHES_CLOSED", .ctr .dblBatchesClosed)])] ++
  [(0x1800, [
    ("TCK_STORM_TICKS", .cfg .tckStormTicks)])] ++
  [(0x1C00, [
    ("WIN_DUMP_LIMIT", .cfg .winDumpLimit)])] ++
  [(0x2000, [
    ("MOR_SCRUB_INTERVAL_H", .cfg .morScrubIntervalH), ("MOR_SCRUB_MAX_SHARE", .cfg .morScrubMaxShare),
    ("MOR_REBUILD_SHARE", .cfg .morRebuildShare), ("MOR_AUTO_REBUILD", .cfg .morAutoRebuild),
    ("MOR_REBUILD_CKPT_COURSES", .cfg .morRebuildCkptCourses), ("MOR_BAND_MAX", .cfg .morBandMax),
    ("MOR_LANE_STATUS", .st .morLaneStatus), ("MOR_LANE_RETRIES", .ctr .morLaneRetries),
    ("MOR_FULL_COURSE_COUNT", .ctr .morFullCourse), ("MOR_RCW_COUNT", .ctr .morRcw),
    ("MOR_RMW_COUNT", .ctr .morRmw), ("MOR_ERASURE_COUNT", .ctr .morErasures),
    ("MOR_ROWS_SOLVED", .ctr .morRowsSolved), ("MOR_SEARCHES", .ctr .morSearches),
    ("MOR_ROWS_UNSOLVED", .ctr .morRowsUnsolved), ("MOR_SCRUB_COURSES", .ctr .morScrubCourses),
    ("MOR_SCRUB_FIXES", .ctr .morScrubFixes), ("MOR_REBUILD_COURSES", .ctr .morRebuildCourses),
    ("MOR_RESHAPE_COURSES", .ctr .morReshapeCourses), ("MOR_RESHAPE_REDOS", .ctr .morReshapeRedos),
    ("MOR_LOST_COURSES", .ctr .morLostCourses), ("MOR_LOST_CLEARED", .ctr .morLostCleared)])] ++
  [(0x2400, [
    ("MST_DESTAGE_RESERVE", .cfg .mstDestageReserve), ("MST_QUOTA_MIN", .cfg .mstQuotaMin),
    ("MST_QUOTA_WINDOW", .cfg .mstQuotaWindow), ("MST_SLOT_LOW", .cfg .mstSlotLow),
    ("MST_FINE_MAX_BLOCKS", .cfg .mstFineMaxBlocks),
    ("MST_FINE_COMMIT_CEILING", .cfg .mstFineCommitCeiling), ("MST_REPLICA_TICKS", .cfg .mstReplicaTicks),
    ("MST_THROTTLE_LEVEL", .st .mstThrottleLevel), ("MST_SLOTS_FREE", .st .mstSlotsFree),
    ("MST_COMMITS", .ctr .mstCommits), ("MST_FULL_PHASES", .ctr .mstFullPhases),
    ("MST_SLOT_HOLDS", .ctr .mstSlotHolds), ("MST_GUARD_WAIT_TICKS", .ctr .mstGuardWaitTicks),
    ("MST_OVERFLOW_SETS", .ctr .mstOverflowSets), ("MST_REPLICA_WRITES", .ctr .mstReplicaWrites),
    ("MST_REPLICA_URGENT", .ctr .mstReplicaUrgent), ("MST_RESYNC_COURSES", .ctr .mstResyncCourses),
    ("MST_ECC_CORRECTED", .ctr .mstEccCorrected), ("MST_ECC_UNCORRECTED", .ctr .mstEccUncorrected)])] ++
  [(0x2800, [
    ("HOD_ENABLE", .cfg .hodEnable), ("HOD_AGE_TICKS", .cfg .hodAgeTicks),
    ("HOD_STREAM_FILL", .cfg .hodStreamFill), ("HOD_ERR_LIMIT", .cfg .hodErrLimit),
    ("HOD_INVALIDATE", .hodInv), ("HOD_STATUS", .st .hodStatus), ("HOD_LINES_VALID", .st .hodLinesValid),
    ("HOD_LOOKUPS", .ctr .hodLookups), ("HOD_ROW_HITS", .ctr .hodRowHits),
    ("HOD_ROW_MISSES", .ctr .hodRowMisses), ("HOD_MERGED_MISSES", .ctr .hodMergedMisses),
    ("HOD_BYPASSES", .ctr .hodBypasses), ("HOD_EVICTIONS", .ctr .hodEvictions),
    ("HOD_RECALLS", .ctr .hodRecalls), ("HOD_STREAM_FILLS", .ctr .hodStreamFills),
    ("HOD_FILLS_DROPPED", .ctr .hodFillsDropped), ("HOD_SUPERSEDED_ROWS", .ctr .hodSupersededRows),
    ("HOD_ECC_CORRECTED", .ctr .hodEccCorrected), ("HOD_ECC_UNCORRECTED", .ctr .hodEccUncorrected),
    ("HOD_TAG_ERRORS", .ctr .hodTagErrors)])] ++
  [(0x2C00, [
    ("DRM_DIRTY_CAP", .cfg .drmDirtyCap), ("DRM_DESTAGE_DELAY_TICKS", .cfg .drmDestageDelayTicks),
    ("DRM_DRAIN", .drain), ("DRM_PATROL_HOURS", .cfg .drmPatrolHours),
    ("DRM_PROTECTED", .st .drmProtected), ("DRM_DUMP_LOAD", .st .drmDumpLoad),
    ("DRM_CHANNEL_STATUS", .st .drmChannelStatus), ("DRM_CAP_WAIT_TICKS", .ctr .drmCapWaitTicks),
    ("DRM_ECC_CORRECTED", .ctr .drmEccCorrected), ("DRM_LINES_LOST", .ctr .drmLinesLost)])] ++
  [(0x3000, [
    ("VLT_HOLDUP_MS", .cfg .vltHoldupMs), ("VLT_HOLDUP_SETTLE_TICKS", .cfg .vltHoldupSettleTicks),
    ("VLT_TEST_HOURS", .cfg .vltTestHours), ("VLT_SLOT_BYTES", .st .vltSlotBytes),
    ("VLT_ARMED", .st .vltArmed), ("VLT_DUMPS", .ctr .vltDumps),
    ("VLT_PROGRAM_RETRIES", .ctr .vltProgramRetries)])] ++
  [(0x3400, [
    ("TWN_MODE", .cfg .twnMode), ("TWN_FENCE_TICKS", .cfg .twnFenceTicks),
    ("TWN_PAIR_WAIT_S", .cfg .twnPairWaitS), ("TWN_HOLD_HANDOVER_S", .cfg .twnHoldHandoverS),
    ("TWN_REJOIN_SHARE", .cfg .twnRejoinShare), ("TWN_AUTO_RETURN", .cfg .twnAutoReturn),
    ("TWN_STATE", .st .twnState), ("TWN_ALIVE_FAULT", .st .twnAliveFault),
    ("TWN_LINK_WIDTH", .st .twnLinkWidth), ("TWN_MIRROR_POOL_BYTES", .st .twnMirrorPoolBytes),
    ("TWN_HEARTBEATS_MISSED", .ctr .twnHeartbeatsMissed), ("TWN_FLIT_REPLAYS", .ctr .twnFlitReplays),
    ("TWN_MIRROR_WAIT_TICKS", .ctr .twnMirrorWaitTicks), ("TWN_TAKEOVERS", .ctr .twnTakeovers),
    ("TWN_HANDOVERS", .ctr .twnHandovers), ("TWN_BULK_BYTES", .ctr .twnBulkBytes)])] ++
  [(0x3800, [
    ("MPT_HEDGE_TICKS", .cfg .mptHedgeTicks), ("MPT_QPAIRS_PER_MEMBER", .cfg .mptQpairsPerMember),
    ("MPT_QUEUE_DEPTH", .cfg .mptQueueDepth), ("MPT_DOMAIN_MAP", .domain),
    ("MPT_FAIL_ERASURES", .cfg .mptFailErasures), ("MPT_FAIL_WINDOW_TICKS", .cfg .mptFailWindowTicks),
    ("MPT_PATH_GRACE_TICKS", .cfg .mptPathGraceTicks), ("MPT_AUTO_COPY", .cfg .mptAutoCopy)])] ++
  [(0x3C00, [
    ("KST_SPDM_ENABLE", .cfg .kstSpdmEnable), ("KST_OWNER_STATE", .st .kstOwnerState),
    ("KST_BOOT_COUNT", .st .kstBootCount), ("KST_LEDGER_OLDEST", .st .kstLedgerOldest),
    ("KST_FIELD_KEYS", .st .kstFieldKeys), ("KST_AUTH_FAILURES", .ctr .kstAuthFailures),
    ("KST_RESETS", .ctr .kstResets)])] ++
  [(0x4000, [
    ("FBK_EVENT_SEVERITY", .cfg .fbkEventSeverity), ("FBK_ERR_LIMIT", .cfg .fbkErrLimit),
    ("FBK_DIAG", .cfg .fbkDiag), ("FBK_RECORDS", .ctr .fbkRecords), ("FBK_FOLDS", .ctr .fbkFolds),
    ("FBK_DROPPED", .ctr .fbkDropped), ("FBK_ECC_CORRECTED", .ctr .fbkEccCorrected),
    ("FBK_ECC_UNCORRECTED", .ctr .fbkEccUncorrected)])] ++
  [(0x4400, [
    ("UPD_SESSION_IDLE_S", .cfg .updSessionIdleS), ("UPD_HOST_CONFIRM", .cfg .updHostConfirm),
    ("UPD_HANDOVER_WAIT_S", .cfg .updHandoverWaitS), ("UPD_SEEDBED_STATE", .st .updSeedbedState),
    ("UPD_ACTIVE_STATE", .st .updActiveState), ("UPD_CHUNKS_ACCEPTED", .ctr .updChunksAccepted),
    ("UPD_CHUNKS_REFUSED", .ctr .updChunksRefused), ("UPD_FALLBACKS", .ctr .updFallbacks)])] ++
  [(0x4800, [
    ("FRZ_ARMED", .st .frzArmed), ("FRZ_FUSE", .st .frzFuse), ("FRZ_IGNORED", .ctr .frzIgnored)])]

/-- The parameter that a PARAM_ID names, with its name (R360). -/
def parOf (id : Nat) : Option (String × Par) :=
  match parGroups.find? fun g => g.1 = id / 1024 * 1024 with
  | some (base, l) => l[id - base]?
  | none => none

/-- Whether a PARAM_ID lies among the diagnostic parameters of a used group (R360). -/
def parDiag (id : Nat) : Bool := id % 1024 ≥ 0x200 && 1 ≤ id / 1024 && id / 1024 ≤ 0x12

/-- Every CONFIG parameter with its PARAM_ID, in ascending order; MPT_DOMAIN_MAP is not among them. -/
def cfgIds : List (Nat × CfgP) :=
  parGroups.flatMap fun g => g.2.zipIdx.filterMap fun e =>
    match e.1.2 with
    | .cfg p => some (g.1 + e.2, p)
    | _ => none

/-- The number of elements of a parameter (R361). -/
def parElements : Par → Nat
  | .domain => 256
  | _ => 1

/-- The class code of PARAM_INFO (R362). -/
def parClass : Par → Nat
  | .cfg _ | .domain => 0
  | .drain | .hodInv => 1
  | .st _ => 2
  | .ctr _ => 3

end Sys2Proof.Machine
end

