-- ==== Sys2Proof/Machine/State.lean ====
section
/-!
DEFINITION. The state of one HLF-9600: every register, queue, buffer, counter, mode and pin that the spec
gives the block, and the queue of commands that wait. Plain data throughout. Each field's docstring cites
the rule that names it; a model field that the spec does not name says so and names its log entry.
-/

namespace Sys2Proof.Machine

/-- Why the machine stops with a fault. No command of this block faults: every event of the spec either has
an effect or leaves the device as it is. -/
inductive Fault where
  /-- Raised by nothing. Safe: it adds no behaviour. -/
  | none
  deriving DecidableEq, Repr

/-- Why a command has no meaning. -/
inductive Refusal where
  /-- Raised by an arm of `exec` for a row without a meaning yet. Safe: the machine stops. -/
  | notModelled (mnemonic : String)
  deriving DecidableEq, Repr

/-! ## The tick (R29 to R46) -/

/-- The phases of a tick and the gap (TCK_PHASE.PHASE). -/
inductive Phase where
  | admission | mirror | commit | issue | retire | gap
  deriving DecidableEq, Repr

/-- The kinds of gap (R39). -/
inductive GapKind where
  | pairing | realign | reset
  deriving DecidableEq, Repr

/-- The tick sequencer and the TCK registers. -/
structure Tck where
  /-- TCK_COUNT, 64 bits (R41). -/
  count : BitVec 64
  /-- TCK_PHASE.PHASE: the phase that runs (R29). -/
  phase : Phase
  /-- The model's own: how many of the five phases of this tick have begun, 0 to 5 (R29). -/
  phaseIdx : Nat
  /-- TCK_PHASE.CYCLE (10 bits). -/
  cycle : BitVec 10
  /-- TCK_STATUS.RUNNING: the sequencer runs (R450, R344, R370, R226, R456). -/
  running : Bool
  paired : Bool                 -- TCK_STATUS.PAIRED
  follower : Bool               -- TCK_STATUS.ROLE
  alignWarn : Bool              -- TCK_STATUS.ALIGN_WARN (R40)
  alignFault : Bool             -- TCK_STATUS.ALIGN_FAULT (RW1C)
  storm : Bool                  -- TCK_STATUS.OVERRUN_STORM (RW1C, R37)
  throttled : Bool              -- TCK_STATUS.WRITE_THROTTLED
  saturated : Bool              -- TCK_STATUS.ADMIT_SATURATED (R30)
  overrunCount : BitVec 64      -- TCK_OVERRUN_COUNT (R35)
  overrunTick : BitVec 48       -- TCK_OVERRUN_LAST.TICK
  overrunTask : BitVec 8        -- TCK_OVERRUN_LAST.TASK
  admitHandled : Nat            -- TCK_ADMIT_LAST.HANDLED
  admitHeld : Nat               -- TCK_ADMIT_LAST.HELD
  alignOffset : BitVec 16       -- TCK_ALIGN_OFFSET
  pairOffset : BitVec 64        -- TCK_PAIR_OFFSET
  realignCount : BitVec 32      -- TCK_REALIGN_COUNT
  /-- The shadows of R41 and R281: requester, offset of the register, upper half. -/
  shadows : List (Nat × Nat × BitVec 32)
  /-- Ticks in a row with an overrun, before this one (R37). -/
  stormRun : Nat
  overrunNow : List TaskId      -- tasks that have overrun in this tick (R35)
  stormFired : Bool             -- the running storm has been reported (R37)
  stormSeen : Bool              -- OVERRUN_STORM has been set in this boot (R415)
  /-- The gaps that start at the next tick boundary, one after the other, with their lengths in cycles (R39, R40, R443). That two
  gaps due at one boundary both run is the model's choice (log entry 100). -/
  gapNext : List (GapKind × Nat)
  gapNow : Option (GapKind × Nat)
  deriving DecidableEq, Repr

/-- The input snapshot latched at cycle 512 (R345). -/
structure Snapshot where
  hdrPending : Nat
  guardPending : Nat
  clearPending : Nat
  writeBacklog : Nat
  writeCommits : Nat
  admittedWrites : Nat
  freeLoose : Nat
  /-- Commits of all classes over the last 1,024 ticks, which R129 divides by 1,024. -/
  commitSum : Nat
  slotHeldFields : List Nat
  deriving DecidableEq, Repr

/-- The decision registers of the tick-bound tasks (R36, R346): `some` is VALID set; and the results in force. -/
structure Tasks where
  quotaReg : Option Nat
  quota : Nat
  slotsReg : Option (List (Nat × Nat))
  slots : List (Nat × Nat)
  leasesReg : Option (List LeaseDecision)
  shareReg : Option Nat
  share : Nat
  ckptReg : Bool
  ckptStale : Bool
  faultsReg : Option (List FaultDecision)
  /-- Fault decisions that wait for task 0x06 (R144): the events noted since its last result. -/
  faultEvents : List FaultDecision
  snap : Snapshot
  /-- Model's own history for R127 and R129: per tick, newest first, commits of classes 2 and 3, admitted
  writes and all commits. -/
  history : List (Nat × Nat × Nat)
  /-- Writes admitted per field with their tick (R129). -/
  fieldWrites : List (Nat × Nat × Nat)
  deriving DecidableEq, Repr

/-! ## The host endpoint (R271 to R304) -/

/-- HIF registers, configuration space and power state. -/
structure Hif where
  ready : Bool                  -- HIF_STATUS.READY
  hold : Bool                   -- HIF_STATUS.HOLD (R296)
  recovery : Bool               -- HIF_STATUS.RECOVERY (R418)
  linkDegraded : Bool           -- HIF_STATUS.LINK_DEGRADED (R271)
  kstFault : Bool               -- HIF_STATUS.KST_FAULT (R370)
  holdCause : BitVec 4          -- HIF_HOLD_CAUSE.CAUSE
  armed : Bool                  -- HIF_HOLD_CAUSE.ARMED (R298)
  releasing : Bool              -- the release takes effect at the next tick boundary (R298)
  holdSince : BitVec 64         -- TCK_COUNT at the entry (R300)
  holdCount : BitVec 32         -- HIF_HOLD_COUNT
  events : BitVec 14            -- HIF_EVENT_STATUS
  eventMask : BitVec 14         -- HIF_EVENT_MASK
  speed : BitVec 3              -- HIF_LINK.SPEED
  width : BitVec 5              -- HIF_LINK.WIDTH
  flit : Bool                   -- HIF_LINK.FLIT
  ltr : BitVec 2                -- HIF_LINK.LTR_LEVEL (R289)
  ltrCond : BitVec 2            -- the level whose condition held at the last tick boundary (R289)
  ltrSince : BitVec 64          -- since when it has held
  bar0 : Option Nat             -- the BARs' base addresses: none until software assigns one (R277)
  bar2 : Option Nat
  bar4 : Option Nat
  rom : Option Nat
  lastDoorbell : Option (BitVec 64)  -- the tick of the last doorbell (R289)
  urCount : BitVec 64           -- HIF_UR_COUNT
  dropped : BitVec 64           -- HIF_DROPPED_WRITES
  holdDoorbells : BitVec 64     -- HIF_HOLD_DOORBELLS
  lateCpl : BitVec 64           -- HIF_LATE_COMPLETIONS
  cplTimeouts : BitVec 64       -- HIF_CPL_TIMEOUTS
  bme : Bool                    -- Bus Master Enable (R276)
  mse : Bool                    -- Memory Space Enable (R276)
  msixEnable : Bool             -- MSI-X Enable (R288)
  functionMask : Bool           -- MSI-X Function Mask (R288)
  msixTable : List (Nat × BitVec 96)  -- MSI-X table: message address and data by vector, entries not 0
  vectorMask : List Nat         -- vectors whose Mask Bit is 1 (MSI-X table)
  pba : List Nat                -- the Pending Bit Array: vectors whose pending bit is 1
  kept : List Nat               -- messages kept while upstream requests stop (R288)
  relaxed : Bool                -- Enable Relaxed Ordering (R285)
  ltrEnable : Bool              -- LTR Mechanism Enable (R289)
  maxSnoop : BitVec 16          -- Max Snoop Latency (R289)
  maxNoSnoop : BitVec 16        -- Max No-Snoop Latency (R289)
  pmeEn : Bool                  -- PME_En (R291)
  d3hot : Bool                  -- power state D3hot (R291)
  l1 : Bool                     -- the link is in ASPM L1 (R290)
  barGib : Nat                  -- the BAR4/5 size in force (WIN_BAR_BYTES, R278)
  eid : BitVec 8                -- MCTP endpoint ID (R364)
  smbAddr : BitVec 7            -- SMBus and I3C static address (R470)
  i3cAddr : Option (BitVec 7)   -- I3C dynamic address (R470)
  deriving DecidableEq, Repr

/-- The landing window and its registers (R217, R301 to R303). -/
structure Win where
  shBase : BitVec 64            -- WIN_BASE (shadow)
  shSize : BitVec 64            -- WIN_SIZE (shadow)
  shCtrl : BitVec 64            -- WIN_CTRL (shadow)
  base : Nat                    -- live values
  size : Nat
  enable : Bool
  writeEn : Bool
  readEn : Bool
  pending : Bool                -- WIN_STATUS.PENDING
  rejected : Bool               -- WIN_STATUS.REJECTED (RW1C)
  rejects : BitVec 64           -- WIN_REJECTS
  mem : List Host.Cell          -- the window's bytes in canonical form; an unlisted byte is 0 (R219)
  unmirrored : List Nat         -- pages below WIN_DUMP_LIMIT written since the last Mirror phase (R249)
  unacked : List (Nat × Nat)    -- pages mirrored and not yet acknowledged, with their checkpoint (R249)
  reads : List (Nat × Nat × Nat)  -- window reads that wait (R249): offset, length, and the checkpoint they need
  deriving DecidableEq, Repr

/-! ## Queues and host commands (R305 to R342) -/

/-- The I/O opcodes (R318). -/
inductive HostOp where
  | read | write | flush | writeZeroes | deallocate | verify
  deriving DecidableEq, Repr

/-- A completion entry (R328) without its OWN bit, which the device writes 0. -/
structure Cqe where
  batched : Bool
  closed : Bool
  status : BitVec 16
  tag : BitVec 16
  sqIndex : BitVec 16
  count : BitVec 32
  detail : BitVec 16
  deriving DecidableEq, Repr

/-- A batch of a batching pair (R332 to R334). -/
structure Batch where
  no : Nat
  count : Nat
  left : Nat                    -- covered commands not finished
  ended : Bool
  closed : Bool
  tag : BitVec 16
  worst : BitVec 16
  worstOrder : Nat              -- consumption order of the first entry with the worst status
  worstIndex : Nat
  worstDetail : BitVec 16       -- DETAIL of that entry (R328)
  deriving DecidableEq, Repr

/-- A queue pair; number 1,024 is the admin pair (R305). -/
structure QPair where
  qid : Nat
  sqBase : BitVec 64
  cqBase : BitVec 64
  sqN : Nat
  cqN : Nat
  batching : Bool
  coalCount : Nat
  coalTicks : Nat
  fieldSet : BitVec 256
  fieldSetNext : Option (BitVec 256)   -- takes effect at the next tick boundary (R307)
  live : Bool                   -- exists: from the tick boundary after its creation (R337)
  deleting : Option (BitVec 16) -- the DELETE command's tag while it runs (R338)
  orphan : Bool                 -- the admin pair that asked for the deletion is gone (R336)
  deleted : Nat × Nat           -- R338 step 4: commands ended, completions not posted
  endedLeft : List Cqe          -- R338 step 3: completions still to post
  pendingFlag : Bool            -- R312
  scanPos : Nat                 -- R313
  postPos : Nat                 -- R329
  prefetch : List SqSlot        -- queue prefetch SRAM (R314)
  burst : Option Nat            -- the outstanding read of submission entries
  cqKnown : Nat                 -- entries from the post position known device-owned (R329)
  cqRead : Option Nat           -- the outstanding read of completion entries
  stalled : Bool                -- R330
  reread : Bool                 -- a doorbell asks for a re-read (R331)
  waiting : List (List Nat × Cqe)  -- finished commands and their completion, waiting for posting (R330)
  unsig : Nat                   -- entries posted since the last message (R287)
  unsigTick : Option (BitVec 64)
  batches : List Batch
  orders : Nat                  -- entries consumed since creation (R332)
  sawEmpty : Bool               -- this turn's first burst is outstanding (DBL_EMPTY_SCANS)
  deriving DecidableEq, Repr

/-- Where a host command stands. -/
inductive CmdStage where
  | held | fetching | running | finished
  deriving DecidableEq, Repr

/-- One block of a READ or VERIFY (R24, R99). -/
inductive BlkSt where
  | waiting                     -- a member read or a solution is under way
  | ready (b : Block) (t : Meta)   -- ciphertext with its tag
  | failed (status : BitVec 16)
  deriving DecidableEq, Repr

/-- A data segment of a command's pointer: host memory, or the landing window (R218, R320). -/
structure Seg where
  window : Bool
  addr : Nat
  len : Nat
  deriving DecidableEq, Repr

/-- A host command in flight (R34); `id mod 2^14` is its command slot, `id / 2^14` its reuse count (R242). -/
structure Cmd where
  id : Nat
  qid : Nat
  sqIndex : Nat
  order : Nat
  batchNo : Nat
  op : HostOp
  e : SqEntry
  stage : CmdStage
  ranges : List (Nat × Nat)     -- LBA and count of each range it covers
  segs : List Seg               -- data descriptors gathered so far
  descs : Nat                   -- descriptors read (R321)
  covered : Nat                 -- bytes covered by `segs` (R321)
  blks : List (Nat × BlkSt)     -- READ and VERIFY: each block by LBA
  arrived : Bool                -- a write's blocks and tags are in the cache (R18)
  mirrorSeq : Option Nat        -- assigned at the final line frame (R245)
  acked : Bool                  -- the partner acknowledged it (R18)
  courses : List (Nat × Bool)   -- courses it touches, with their geometry (R122)
  slots : List Nat              -- slots that it is attributed to (R122)
  r22 : Bool                    -- durable only once landed (R22, R214)
  durable : Bool
  after : List Nat              -- FLUSH: the writes it waits for (R215)
  status : BitVec 16
  detail : BitVec 16
  cause : Option (BitVec 16 × BitVec 32 × Nat × Nat)  -- R101: source, seq, erasures, course
  admitTick : BitVec 64
  parkedData : Bool             -- finished while upstream requests stop (R297)
  malformed : Bool              -- its entry or its chain is malformed: its status is a free value (R326)
  quotaTaken : Bool             -- a DEALLOCATE whose range list is being read has been admitted under the quota (R33)
  deriving DecidableEq, Repr

/-- What an outstanding host memory read serves (R294). -/
inductive ReadFor where
  | sqBurst (qid pos n : Nat)
  | cqBurst (qid pos n : Nat)
  | cqDelete (qid pos n : Nat)
  | data (cmd : Nat)
  | sgl (cmd : Nat)
  | ranges (cmd : Nat)
  | adminBurst (pos n : Nat)
  | refetch (field lba : Nat)
  deriving DecidableEq, Repr

/-- An outstanding host memory read. -/
structure HRead where
  id : Nat
  purpose : ReadFor
  addr : Nat
  len : Nat
  waiting : Bool                -- not issued yet: no upstream request goes out (R276, R297, R339)
  deriving DecidableEq, Repr

/-- The queue engine. -/
structure Queues where
  pairs : List QPair
  cmds : List Cmd               -- host commands in flight, oldest first; the held list is those with stage held
  hreads : List HRead
  nextCmd : Nat
  nextRead : Nat
  lastServed : Nat              -- R32: the last queue served in the previous tick
  handled : Nat                 -- commands handled in this tick's Admit phase
  admitted : Nat                -- writes admitted in this tick
  capHeld : Nat                 -- writes held for the dirty cap in this Admit phase (R210)
  capWaitRun : Bool             -- such waiting held in the previous tick
  ctxHeld : Bool                -- a write waits for a course context (R13)
  slotHeldNow : List Nat        -- fields whose writes were held for a slot in this Admit phase
  timedOut : List Nat           -- reads whose timeout has been handled (R295)
  posted : Nat                  -- completion entries posted in this Retire phase (R29)
  round : List (Nat × Nat)      -- the queues of the Admit phase's rounds in order, the one whose turn it is first, each with the
                                -- entries left to its turn (R32)
  adminWait : List Instr        -- admin commands handed over and not yet served, in ring order (R337, R339)
  deriving DecidableEq, Repr

/-! ## Mailboxes (R343 to R367) -/

/-- What a running mailbox command still waits for. -/
inductive MbxWait where
  | running                     -- nothing: it runs
  | objects                     -- its objects (R352)
  | label (field : Nat)         -- a label change (R75)
  | spareLabel (member : Nat)
  | offline (field : Nat)       -- R53
  | handover (fields : List Nat) (count : Nat)
  | reserve (field : Nat)       -- R265
  | sync                        -- PARAM_SYNC (R366)
  | reset                       -- R445
  | chunk                       -- R409
  | update (payload : List Byte)  -- a batch of update lines (R407, R409, R410)
  | owner                       -- a batch of boot counter lines (R385)
  | reshape (field : Nat)       -- R164
  | format (member : Nat)
  | fail (member : Nat)         -- R144 row 7
  | adminDelete                 -- R336
  deriving DecidableEq, Repr

/-- The objects of R352. -/
inductive Obj where
  | field (f : Nat) | member (m : Nat) | sparePool | seedbed | params | pair
  deriving DecidableEq, Repr

/-- A mailbox command that runs. -/
structure MbxRun where
  instr : Instr
  opcode : BitVec 16
  seq : BitVec 32
  objs : List Obj
  wait : MbxWait
  deriving DecidableEq, Repr

/-- A mailbox response (R354). -/
structure MbxResp where
  opcode : BitVec 16
  status : BitVec 16
  seq : BitVec 32
  payload : List Byte
  epoch : BitVec 32
  deriving DecidableEq, Repr

/-- The MBX registers and both mailboxes. -/
structure Mbx where
  done : Bool                   -- MBX_STATUS.DONE (RW1C)
  busy : Bool                   -- MBX_STATUS.BUSY
  overrun : Bool                -- MBX_STATUS.OVERRUN (RW1C)
  failed : Bool                 -- MBX_STATUS.FAILED
  irqEn : Bool                  -- MBX_CONTROL.IRQ_EN
  reqBuf : List Host.Cell       -- the request buffer's bytes (R279), canonical; an unlisted byte is 0
  version : BitVec 16           -- MBX_VERSION
  lastSeq : BitVec 32           -- MBX_LAST_SEQ
  resp : Option MbxResp         -- the response buffer
  hostRun : Option MbxRun
  mgmtRun : Option MbxRun
  mgmtNext : Option Instr       -- the one further request kept waiting (R365)
  hostDiscard : Bool            -- the running host command's response is discarded (R351)
  deriving DecidableEq, Repr

/-! ## Fields and members (R47 to R83, R144 to R181) -/

/-- A position of a field's member table (R77): member ID when the namespace is known to this chip. -/
structure MPos where
  uid : Uid
  state : BitVec 8              -- R58 code
  tagCapable : Bool
  joinGen : Nat
  member : Option Nat
  deriving DecidableEq, Repr

/-- A rebuild target (R151, R154). -/
structure Target where
  position : Nat
  side : Bool
  start : Nat
  next : Nat                    -- NEXT_COURSE
  issued : Nat                  -- courses started and not yet passed: the next course to start
  landed : List Nat             -- courses above `next` whose writes have landed
  covered : Nat                 -- courses in the rebuilt range
  joined : Bool                 -- a second target that waits for the first course boundary (R155)
  sinceCkpt : Nat
  deriving DecidableEq, Repr

/-- What follows when a label change is done (R75). -/
inductive LabelThen where
  | nothing
  | create
  | command (p : MbxPath)
  | rebuild (p : Option MbxPath) (position : Nat)
  | reshapeStart (p : Option MbxPath)
  | reshapeEnd (gone : List Nat)   -- the members that leave get released labels with it (R175)
  | release (member : Nat)         -- a FAILED member then gets its released label (R489)
  | takeover
  | handover
  deriving DecidableEq, Repr

/-- What a chip does with a field once its labels have been read anew: a takeover, a handover, or TWN_ADOPT (R59, R254, R260,
R264). -/
inductive RereadFor where
  | takeover | handover
  | adopt (p : Option MbxPath)     -- the command that asked, until it is ended (R344)
  deriving DecidableEq, Repr

/-- The labels of a field are being read anew, since a tick. -/
structure Reread where
  since : BitVec 64
  what : RereadFor
  deriving DecidableEq, Repr

/-- What a label change writes to a member (R75, R79): the field's label, the lost-course list, or a released label. -/
inductive LabelPart where
  | label | lost | bare
  deriving DecidableEq, Repr

/-- A label change that runs (R75): the writes that have not landed, by member. -/
structure LabelChange where
  gen : Nat
  left : List (LabelPart × Nat)
  andThen : LabelThen
  deriving DecidableEq, Repr

/-- The band of a reshape step and the step's stage (R168, R169). -/
inductive StepStage where
  | idle | locks | band | bandCommit | moving | stepCommit | checkpoint
  deriving DecidableEq, Repr

/-- A replica write in flight (R134): the bits that it carries, the members whose part is open, and all that it goes to. -/
structure RepFlight where
  coarse : BitVec 16
  fine : List Nat
  left : List Nat
  all : List Nat
  deriving DecidableEq, Repr

/-- A field (R47 to R54, R178). -/
structure Field where
  id : Nat
  uuid : Uid
  width : Nat
  brickShift : Nat
  courses : Nat
  tagged : Bool
  readOnly : Bool
  gen : Nat                     -- FIELD_GEN
  ownerPos : Bool               -- R258
  homePos : Bool                -- R268
  owned : Bool                  -- OWNED of the field entry (R115)
  members : List MPos
  nextWidth : Nat
  nextMembers : List MPos
  recovering : Bool             -- conditions of R178 that are set and cleared by events
  failedLost : Bool             -- FAILED by a full lost-course list (R79)
  failedEngine : Bool           -- FAILED by the engine's loss (R89)
  offline : Bool
  resyncing : Bool
  offlineReq : Bool             -- a request of R53 is open
  wasFailed : Bool              -- FAILED at the last tick boundary (R178)
  reported : BitVec 8           -- the reported state of the last boundary (R179)
  flags : BitVec 9              -- its condition flags (R51)
  exposed : Bool                -- DOMAIN_EXPOSED (R60)
  lost : List LostEntry         -- R78
  unsealed : List (Nat × Bool)  -- lost courses, with their geometry, that a failed store leaves unsealed (R141)
  targets : List Target
  noSpare : List Nat            -- positions whose 0x5004 has been written (R150)
  progressSeq : Nat             -- PROGRESS_SEQ (R154)
  scrubPos : Nat                -- R104
  scrubSaved : Nat              -- the position in the configuration store
  scrubStart : BitVec 64
  scrubLate : Bool
  homeIndex : Option Nat        -- R121
  coarseShift : Nat             -- R118
  fineShift : Nat               -- R119
  fineBlocks : Nat
  fineUse : Bool                -- fine marking is in use (R130)
  fineRelease : Bool            -- the fine map is in release
  refreshSeq : Nat              -- R133
  repCoarse : BitVec 16         -- the newest landed replica (R123)
  repFine : List Nat
  repOn : List Nat              -- the members that hold it (R123)
  repFlight : Option RepFlight
  repUrgent : Bool
  resyncSet : List (Nat × Bool) -- courses of R136 still to resync, with their geometry
  lineSet : List (Nat × Bool)   -- courses with mirrored lines that a takeover has still to resync (R23)
  marked : List (Bool × Nat)    -- regions for whole-region resync (R138): fine?, number
  resynced : List Nat           -- courses of marked regions already resynced
  labelChanges : List LabelChange  -- the label changes that run, oldest first (R75)
  lostChanged : Bool            -- the lost-course list changed in this tick (R161)
  ckptAckedCoarse : BitVec 16   -- bits in a checkpoint that the partner acknowledged (R123)
  ckptAckedFine : List Nat
  cap : Nat                     -- the capacity in force, in blocks (R48, R166, R175)
  rs : Option RsRecord          -- the reshape record (R172)
  rsPend : Option (RsRecord × List MPos × Option MbxPath)  -- a reshape accepted, its record not yet landed (R164)
  rsEnding : Bool               -- the last label change or the freeing of the record is under way (R175)
  rsSlot : Nat
  rsStage : StepStage
  rsRedo : Bool                 -- R176
  reread : Option Reread        -- its labels are being read anew (R59)
  rsMembers : List Nat          -- members whose checkpoint block has not landed (R169 step 5)
  ownerWait : Bool              -- the owner has not been settled (R263)
  restoreWait : Bool            -- its restore or lost lines are not handled (R452)
  fenceWait : Bool              -- the fence of R254 has not passed
  assembled : Bool              -- R59
  seen : Bool                   -- false until the creation labels have landed (R178)
  takenOver : Bool              -- R213 row 4
  capUnprot : Bool              -- its cache is unprotected by row 4 of R213 since the last boundary
  admitStop : Bool              -- admission stopped by a handover (R260)
  labelHeld : List LabelThen    -- label changes that a fence holds back, oldest first (R254)
  deriving DecidableEq, Repr

/-- A member: a namespace with a member ID (R55, R58). -/
structure Member where
  id : Nat
  uid : Uid
  state : BitVec 8              -- R58 code
  blocks : Nat
  subsystem : Nat
  vwc : Bool
  mdtsKib : Nat
  slots : Nat                   -- command slots: queue pairs granted times entries of each (R65)
  tagCapable : Bool
  field : Option Nat
  position : Nat
  metaBytes : Nat               -- metadata bytes per block (R61, R80)
  labelSeq : Nat                -- LABEL_SEQ of its current label (R73)
  labelSlot : Bool              -- the label slot of the running format (R74)
  labelPlace : Option Nat       -- the ring place of its current label there (R73)
  otherFormat : Option Nat      -- the label format of its other slot, when that holds one (R74)
  otherPlace : Option Nat       -- and the ring place of the newest block there (R73)
  repCur : Option Nat           -- the copy that is its current replica (R133)
  pathLost : Option (BitVec 64) -- the tick at which its path was lost (R145)
  warning : Bool                -- a SMART warning of R144 row 5 holds
  erasures : List (BitVec 64)   -- ticks of its records 0x4020 to 0x4025 (R144 row 3)
  deriving DecidableEq, Repr

/-- What a member command serves. -/
inductive Purpose where
  | hostRead (cmd : Nat)
  | job (job : Nat)
  | heal (job : Nat)
  | label (field : Nat)
  | spareLabel
  | replica (field : Nat)
  | progress (field : Nat)
  | checkpoint (field : Nat)
  | lostList (field : Nat)
  | fence (field : Nat)
  | adopt
  | region
  | format
  | fill (reg : Nat)
  deriving DecidableEq, Repr

/-- The NVMe commands that the device sends (R62). -/
inductive MOp where
  | read | write | flush | format
  deriving DecidableEq, Repr

/-- The admin commands that the device sends to the controller of a member, but for Format NVM (R62). -/
inductive AdminCmd where
  | identify (cns : Nat)
  | createCq (queue entries : Nat)
  | createSq (queue entries : Nat)
  | deleteSq (queue : Nat)
  | deleteCq (queue : Nat)
  | setFeatures (feature value : Nat)
  | getFeatures (feature : Nat)
  | getLogPage (page : Nat)
  | asyncEventRequest
  | abort (cmd : Nat)
  deriving DecidableEq, Repr

/-- A member command: waiting for an Issue phase, or issued. -/
structure MCmd where
  id : Nat
  member : Nat
  op : MOp
  lba : Nat
  nlb : Nat
  payload : MPayload
  tail : Nat                    -- bytes of metadata of each block of a write after the first 16: all 0 (R80)
  fua : Bool
  purpose : Purpose
  share : Bool                  -- charged to the rebuild share (R153)
  scrub : Bool                  -- charged to the scrub share (R104)
  issued : Option (BitVec 64)
  held : Bool                   -- waits for a lost path (R145)
  failed : Bool                 -- it failed and waits for its member's state change (R144)
  deriving DecidableEq, Repr

/-- The member ports. -/
structure Mpt where
  members : List Member
  cmds : List MCmd              -- waiting and outstanding commands, oldest first
  nextCmd : Nat
  slots : List (Uid × Nat)      -- slots kept in the configuration store (R55)
  perst : BitVec 4              -- MPT_PERST_N[3:0], 1 is released (R465)
  domainMap : List Nat          -- MPT_DOMAIN_MAP in force, 256 elements
  domainNext : List Nat
  issuedNow : Nat               -- member commands issued in this tick
  arrived : List (Nat × MemberResult)  -- completions that wait for a Retire phase: command, result (R29, R30)
  retiredNow : Nat              -- member completions retired in this tick's Retire phase (R29)
  shareUsed : Nat               -- charged to the rebuild share in this tick (R153)
  bytesUsed : Nat               -- engine bytes charged, with the excess carried (R153)
  scrubUsed : Nat
  enumerated : Bool
  found : List NsFound          -- what the last enumeration read of the namespaces (R59)
  cleared : List Uid            -- namespaces whose label region MEMBER_RELEASE has cleared, in the configuration store (R58)
  deriving DecidableEq, Repr

/-! ## Courses, cache lines and drills (R12 to R15, R84 to R107) -/

/-- The state of a cache line. -/
inductive LineSt where
  | uncommitted | committed | clean | band
  deriving DecidableEq, Repr

/-- A cache line (R203 to R207): one block of a field in ciphertext with its tag, one version. -/
structure Line where
  field : Nat
  lba : Nat
  version : Nat
  st : LineSt
  cmd : Nat                     -- the write that brought it
  data : Block
  tag : Meta
  pinned : Bool                 -- R52
  lostWait : Bool               -- lost, a refetch is under way (R231)
  slot : Option Nat             -- the intent slot it is attributed to (R122)
  frame : Nat                   -- the frame it lies in (R207)
  epoch : BitVec 32             -- the epoch of its page that its MACs cover (R206)
  mirrored : Bool               -- the partner holds it (R254)
  deriving DecidableEq, Repr

/-- A course context (R13 to R15). -/
structure Ctx where
  field : Nat
  course : Nat
  geom : Bool
  gen : Nat                     -- the course generation
  dirtySince : Option (BitVec 64)
  holder : Option Nat           -- the job that holds the exclusive lock
  queue : List Nat              -- jobs that wait for it, in order of request
  deriving DecidableEq, Repr

/-- Why a block is an erasure (R94). -/
inductive Cause where
  | tag | check | media | transport | hedged | absent | stale
  deriving DecidableEq, Repr

/-- One source block of a job: position and row of a course, with its geometry (R167). -/
inductive CellSt where
  | want                        -- to be read
  | reading (mcmd : Nat)
  | good (b : Block) (m : Meta) -- read and checked, or taken from cache or hod
  | erased (c : Cause) (ref : Option Meta)
  deriving DecidableEq, Repr

structure Cell where
  geom : Bool
  course : Nat
  pos : Nat
  row : Nat
  st : CellSt
  fromHod : Option Nat          -- the hod entry that served it (R187)
  ref : Option Meta             -- the TAG that its member returned in this solution (R488)
  deriving DecidableEq, Repr

/-- The exclusive holders of R14 and R13. -/
inductive JobKind where
  | destage | solve | rebuild | resync | scrub | reshape | seal | lostLine
  deriving DecidableEq, Repr

/-- The destage methods (R90). -/
inductive Method where
  | full | rcw | rmw
  deriving DecidableEq, Repr

inductive JobStage where
  | waitLock | reading | engine | guarding | writing
  deriving DecidableEq, Repr

/-- A block that a job will write to a member. -/
structure WBlk where
  geom : Bool
  course : Nat
  pos : Nat
  row : Nat
  data : Block
  tag : Meta
  heal : Bool
  deriving DecidableEq, Repr

/-- A row of a course that a job works on, and where its solution stands (R96 to R99). -/
inductive RowSt where
  | open                        -- not yet solved
  | solved
  | lost                        -- unsolved with the outcome DATA_LOST
  | mismatch                    -- unsolved with the outcome TAG_MISMATCH
  deriving DecidableEq, Repr

structure JRow where
  geom : Bool
  course : Nat
  row : Nat
  st : RowSt
  reread : Bool                 -- its re-read pass has been made (R97)
  full : Bool                   -- every position of the row is a source (a search, a solution in a destage)
  deriving DecidableEq, Repr

/-- The member record of an erasure that a row's solution may name as its cause (R101). -/
structure RowCause where
  geom : Bool
  course : Nat
  row : Nat
  tick : BitVec 64              -- when the erasure was declared
  pos : Nat
  src : BitVec 16
  seq : BitVec 32
  deriving DecidableEq, Repr

/-- A job of a drill: one exclusive holder of R13 and R14. -/
structure Job where
  id : Nat
  kind : JobKind
  field : Nat
  course : Nat
  geom : Bool
  stage : JobStage
  method : Method
  gen : Nat                     -- the generation a destage covers (R15)
  locks : List (Nat × Bool)     -- courses whose locks it still waits for, in order
  held : List (Nat × Bool)      -- courses whose locks it holds
  lines : List (Nat × Nat × Block × Meta)  -- LBA, version, data and tag of the lines it takes (R15)
  cells : List Cell
  rows : List JRow
  need : List Nat               -- field LBAs that host commands wait for
  writes : List WBlk
  queued : Bool                 -- its writes have been handed to the member ports
  writesLeft : Nat
  cmd : Option Nat              -- the host command that waits for a solution
  causes : List RowCause        -- the member record that caused the solution of each row (R101)
  erasures : Nat                -- the largest count of erasures among its solved rows (R101)
  slot : Option Nat             -- its guard's slot
  overflow : Bool               -- the guard is an OVERFLOW bit
  guardQueued : Bool
  guardLanded : Bool
  mask : BitVec 32              -- LOST_MASK found so far (R100)
  reason : Nat                  -- REASON found so far
  pins : List Nat               -- hod entries it pins (R189)
  targets : List Nat            -- positions it rebuilds
  waitsFill : List Nat          -- miss registers it waits on (R194)
  served : List Nat             -- rows that the hod serves, of a destage (R187, R189)
  fixes : Nat                   -- rows that scrub wrote
  lane : Option Nat             -- the lane on which its operation runs again after a mismatch (R89)
  staged : List (Nat × Block × Meta)  -- solved rows in member staging SRAM, by field LBA, until their heals have landed (R103)
  others : List Nat             -- further commands that wait for a row that it solves (R103)
  deriving DecidableEq, Repr

/-- Course contexts, lines and jobs. -/
structure Cache where
  lines : List Line
  nextVersion : Nat             -- VERSION of the next write; band lines have VERSION 0
  ctxs : List Ctx
  jobs : List Job
  nextJob : Nat
  ctxWait : List Nat            -- exclusive holders that wait for a context, in order (R13)
  frameNext : Nat               -- next frame of the open page; frame n lies in page n div 512 (R207)
  epochs : List (Nat × BitVec 32)  -- page epochs (R207)
  deriving DecidableEq, Repr

/-- The mortar engine (R87 to R89). -/
structure Mor where
  lanesOut : BitVec 4           -- MOR_LANE_STATUS
  mismatch : List (Nat × BitVec 64)  -- last mismatch of each lane
  lost : Bool                   -- MOR_ENGINE_LOST
  deriving DecidableEq, Repr

/-! ## The Mortar Store (R110 to R143) -/

/-- A valid intent slot (R117). -/
structure Slot where
  idx : Nat
  fine : Bool
  field : Nat
  region : Nat
  segShift : Nat
  list : List (Nat × Bool)      -- LIST: course and GEOM
  overflow : BitVec 64
  deriving DecidableEq, Repr

/-- What the boot counter lines hold (R388). -/
structure CounterLine where
  bootCount : BitVec 64         -- BOOT_COUNT
  ownerGen : BitVec 32          -- OWNER_GEN
  ownerDigest : Digest          -- OWNER_DIGEST
  deriving DecidableEq, Repr

/-- What the update marker holds (R399). -/
structure UpdMarker where
  activeSlot : Bool
  copyArmed : Bool
  slot0 : Nat
  slot1 : Nat
  unconfBoots : Nat
  seedState : Nat
  rejectReason : Nat
  updateSeq : BitVec 64
  deriving DecidableEq, Repr

/-- What the session record holds (R401). -/
structure UpdSession where
  sessionId : BitVec 32
  hostJoined : Bool
  mgmtJoined : Bool
  openerMgmt : Bool
  idleS : Nat
  chunkCount : Nat
  digest : Digest
  received : BitVec 256
  provisional : BitVec 256
  deriving DecidableEq, Repr

/-- A change of one store line (R110). -/
inductive Change where
  | slotMake (s : Slot)
  | coarseSet (field region : Nat)
  | fineSet (field region : Nat)
  | listAdd (slot course : Nat) (geom : Bool)
  | overflowSet (slot seg : Nat)
  | listRemove (slot course : Nat) (geom : Bool)
  | overflowClear (slot seg : Nat)
  | slotFree (slot : Nat)
  | coarseClear (field region : Nat)
  | fineClear (field region : Nat)
  | fieldEntry (field : Nat)
  | lease (field : Nat) (blocks : List (Nat × Nat))  -- fine blocks with their ordinals, and the field entry
  | leaseDrop (field : Nat)
  | fineZero (block line : Nat)
  | reshapeRec (slot : Nat) (r : RsRecord)
  | reshapeFree (slot : Nat)
  | update (m : Option UpdMarker) (x : Option UpdSession) (p : Option MbxPath)  -- lines 8 to 13, with the command that waits (R399, R401)
  | counter (c : CounterLine) (p : Option MbxPath)   -- lines 4 to 7 (R388)
  | rewrite
  deriving DecidableEq, Repr

/-- A pending commit: its class of R126, the line, the change, and the command or job it serves. -/
structure Commit where
  cls : Nat
  lineNo : Nat
  change : Change
  cmd : Option Nat
  job : Option Nat
  deriving DecidableEq, Repr

/-- A valid entry of the field table as it has landed (R115). -/
structure FieldEntry where
  uuid : Uid                    -- FIELD_UUID
  owned : Bool                  -- OWNED
  home : Option Nat             -- HOME and HOME_INDEX
  coarseShift : Nat             -- COARSE_SHIFT
  fineShift : Nat               -- FINE_SHIFT
  fineBlocks : Nat              -- FINE_BLOCKS
  deriving DecidableEq, Repr

/-- The Mortar Store. -/
structure Mst where
  storeGen : BitVec 64          -- STORE_GEN (R115)
  storeTwinPos : Bool           -- TWIN_POS of the descriptor
  entries : List (Nat × FieldEntry)  -- valid field entries by field ID (R115)
  coarse : List (Nat × BitVec 16)  -- coarse maps (R116)
  fine : List (Nat × Nat)       -- set fine bits: field and region (R116)
  leases : List (Nat × Nat × Nat)  -- leased fine blocks: block, field, ordinal (R115)
  slots : List Slot             -- valid intent slots (R117)
  reshapes : List (Nat × RsRecord)   -- reshape records by number (R114)
  bootCount : BitVec 64         -- BOOT_COUNT of this run (R388)
  ownerGen : BitVec 32          -- the owner in force (R380, R385)
  ownerDigest : Digest
  counterKept : CounterLine     -- the boot counter lines as landed (R388)
  queue : List Commit           -- pending commits in order of queueing
  retry : List Commit           -- a batch that failed verify (R141)
  fails : List (Nat × Nat)      -- consecutive program failures by line (R141)
  failed : Bool                 -- the store is failed (R141)
  level : Nat                   -- MST_THROTTLE_LEVEL (R131)
  slotsFree : Nat               -- MST_SLOTS_FREE
  partnerLines : List CkptLine  -- the partner's replica kept in DRAM (R135, R250)
  homeReserved : List Nat       -- home indices whose slots take no new references (R121)
  wholeFields : List Nat        -- fields whose set regions a start-up fault has left to whole-region resync (R140)
  deriving DecidableEq, Repr

/-! ## The hod (R182 to R202) -/

/-- The key of a hod line (R183). -/
structure HodKey where
  field : Nat
  course : Nat
  geom : Bool
  seg : Nat
  deriving DecidableEq, Repr

/-- A tag entry and its line (R184). -/
structure HodLine where
  valid : Bool
  key : HodKey
  age : Nat
  rowValid : BitVec 16
  pins : Nat
  missReg : Nat
  pending : Bool
  p : List (Nat × Block)        -- held P rows
  q : List (Nat × Block)        -- held Q rows
  deriving DecidableEq, Repr

inductive MissKind where
  | fill | evict | recall
  deriving DecidableEq, Repr

/-- A busy miss register (R194). -/
structure MissReg where
  reg : Nat
  kind : MissKind
  key : HodKey
  entry : Nat
  rows : BitVec 16
  superseded : BitVec 16
  waiters : List Nat            -- waiting jobs
  dead : Bool                   -- it lands invalid (R198)
  owner : Nat                   -- the job whose reads are the fill
  next : Option HodLine         -- the line that takes the entry when an eviction ends (R192)
  victim : Nat                  -- the victim buffer entry of a move (R192, R193)
  deriving DecidableEq, Repr

structure Hod where
  lines : List HodLine          -- 48 array entries
  victims : List HodLine        -- 8 victim buffer entries
  victimNext : Nat              -- the FIFO's oldest entry (R192)
  regs : List MissReg           -- busy registers, at most 16
  invalidating : Bool           -- HOD_INVALIDATE reads 1
  startNext : Bool              -- a write of 1 to HOD_INVALIDATE, in force from the next tick boundary (R201)
  droppedNow : Nat              -- fills that landed invalid in the running invalidate all
  disabled : Bool               -- HOD_STATUS 2 (R200)
  errTicks : List (BitVec 64)   -- uncorrectable and tag errors (R200)
  linesValid : Nat              -- HOD_LINES_VALID
  aged : Option (BitVec 64)     -- the tick boundary of the last ageing (R190)
  deriving DecidableEq, Repr

/-! ## DRAM and vault (R203 to R235) -/

structure Drm where
  dramGib : Nat                 -- R203
  channels : BitVec 8           -- DRM_CHANNEL_STATUS
  cacheLost : Bool              -- R232
  rebuildingDir : Bool          -- the line directory is rebuilt (R232)
  drain : Nat                   -- DRM_DRAIN: 0, 1, or 2 when drained (R216)
  drainNext : Option Nat        -- a write of DRM_DRAIN, in force from the next tick boundary (R234)
  protCauses : BitVec 6         -- DRM_PROTECTED: bits 1 to 5 (R214)
  dumpLoad : Nat                -- DRM_DUMP_LOAD at the last tick boundary
  holdupOk : Bool               -- pin HOLDUP_OK (R213)
  holdupSince : Option (BitVec 64)  -- since when it is high
  settled : Bool                -- it has been high for VLT_HOLDUP_SETTLE_TICKS
  selfRefresh : Bool            -- R449
  bootKey : Nat                 -- the per-boot key (R206)
  patrolFrom : BitVec 64        -- the tick in which the running patrol pass began (R232)
  patrolled : List PatrolAt     -- frames in which this pass met something
  deriving DecidableEq, Repr

/-- One frame of a dump with its manifest entry (R224). KIND 0 committed line, 1 band line, 2 window page. -/
structure VFrame where
  kind : Nat
  field : Nat
  address : Nat
  data : Block
  tag : Meta
  deriving DecidableEq, Repr

/-- A vault slot (R223). -/
structure VSlot where
  header : Bool                 -- a header page that verifies under this chip's key
  foreign : Bool                -- a header page that does not
  twinPos : Bool
  bootCount : BitVec 64
  storeGen : BitVec 64
  dumpSeq : BitVec 64
  manifest : List VFrame        -- the manifest's entries with their frames
  manifestOk : Bool             -- the manifest is complete
  written : Nat                 -- frames written
  fbk : List FbRec              -- the Field Book blocks (R434)
  footer : Bool
  consumed : Bool
  erased : Bool                 -- fully erased
  erasing : Bool                -- background erase runs (R230)
  erasedPages : Nat             -- pages that it has erased, in slot order (R221, R230)
  wrapped : BitVec 320          -- WRAPPED_KEY (R223)
  consumedBoot : BitVec 64      -- BOOT_COUNT of the consumed page (R223)
  fbkWritten : Nat              -- FBK_WRITTEN at the dump (R434)
  deriving DecidableEq, Repr

structure Vlt where
  slots : List VSlot            -- slots 0 and 1 (R221)
  slotBytes : Nat               -- VLT_SLOT_BYTES
  armed : Bool                  -- VLT_ARMED (R230)
  dumpSeq : BitVec 64           -- the last DUMP_SEQ
  pwrfailLatched : Bool         -- R225, R447
  dumping : Option Nat          -- the slot that a dump writes
  dumpTick : Bool               -- the dump's first tick is over: no phase runs any more (R225)
  thermal : Bool                -- the dump was started by a thermal trip (R483)
  softDump : Bool               -- the dump was started by DEVICE_RESET (R445)
  restoring : Option Nat        -- the slot being restored
  restored : Nat                -- frames that the last restore brought back
  restoreLost : List (Nat × Nat)  -- lines declared lost whose field is not taken up yet: field, LBA
  retired : Nat                 -- blocks retired (R233)
  failedCh : List Nat           -- failed vault channels (R233)
  testAt : BitVec 64            -- the tick of the last health test (R233)
  dumpKey : Option Nat          -- the dump key of a running dump or restore (R223, R229)
  dumpRoom : Option Nat         -- the erased pages that a running dump finds; none: the whole slot (R221)
  deriving DecidableEq, Repr

/-! ## The twin pair (R236 to R270) -/

/-- A field's running handover (R260). -/
structure Handover where
  field : Nat
  toPartner : Bool
  offered : Bool                -- HANDOVER_OFFER sent, or HANDOVER_ACCEPT due
  swapped : Bool                -- the two chips have changed roles
  deriving DecidableEq, Repr

/-- What the chip sends on the Twin Link: frames (R242), the messages of the key agreement (R378), and replay requests, replays,
markers and retrains of the link itself (R239, R240). -/
inductive TwinTx where
  | hello (h : PairHello)
  | agree (l : List AgreeEntry) (final : Bool)
  | heartbeat (h : Heartbeat)
  | ckpt (line : Nat) (l : CkptLine) (last : Bool)
  | line (l : LineFrame)
  | bulk (l : LineFrame)
  | release (field lba blocks version : Nat)
  | windowPage (page : Nat) (data : Block)
  | record (r : FbRec)
  | reserve (field : Nat) (p : ReservePhase)
  | offer (field ckptSeq mirrorSeq gen : Nat)
  | accept (field : Nat) (ok : Bool)
  | bulkDone (lines pages : Nat)
  | paramSync (p : SyncPhase) (paramId value tick : Nat)
  | fieldKeys (uuid : Uid) (field : Nat) (blob : Option (BitVec 448))
  | keyOffer (o : Offer) | keyProof (ecdsa : BitVec 768) (mldsa : BitVec 26472) | keyRefuse (r : RefuseReason)
  | replay (seq : BitVec 12)
  | resend (seq : BitVec 12)
  | marker
  | retrain
  deriving DecidableEq, Repr

/-- The transmitting and receiving sides of the Twin Link (R238, R239, R241). -/
structure Lnk where
  txSeq : BitVec 12             -- FLIT_SEQ of the next flit
  kept : List (BitVec 12 × TwinTx)  -- the last 1,024 flits sent, each with what it carries (R239)
  credit : Int                  -- frame-buffer credits in 256-byte units: those returned less those spent (R238)
  txFrames : BitVec 64          -- frames sent in the session: the counter of the nonce (R241)
  rxFrames : BitVec 64          -- frames received in the session
  lastWidth : Nat               -- the width of the last training (R239)
  ephKey : Nat                  -- the ephemeral private key of the running agreement (R378)
  ownOffer : Option Offer       -- the OFFER sent
  theirOffer : Option Offer     -- the OFFER received
  transfer : Nat                -- the transfer key of the session (R377)
  deriving DecidableEq, Repr

/-- A PARAM_SET that waits for PARAM_SYNC (R362, R366). -/
structure SyncReq where
  tick : Nat                    -- EFFECT_TICK in the chip's own count
  entries : List (Nat × Nat × Nat)  -- the entries of the PARAM_SET: PARAM_ID, INDEX, VALUE
  left : List (Nat × Nat)       -- proposals not yet accepted: PARAM_ID, VALUE
  deriving DecidableEq, Repr

structure Twn where
  mode : Bool                   -- TWN_MODE in force
  position : Bool               -- twin position strap (R236)
  state : BitVec 8              -- TWN_STATE (R251)
  linkUp : Bool
  width : Nat                   -- TWN_LINK_WIDTH
  offerSent : Bool              -- key agreement (R378)
  offerGot : Bool
  agreeSince : BitVec 64
  session : Option Nat          -- the session key (R241, R378)
  sessions : Nat
  rxSeq : BitVec 12             -- FLIT_SEQ expected next
  replayTries : Nat             -- replays of the flit that the partner last asked for (R239)
  rxTries : Nat                 -- replays of the awaited flit that this chip has asked for (R239)
  hbThis : Bool                 -- a heartbeat arrived in this tick
  hbMissed : Nat                -- consecutive missed heartbeats (R252)
  pulseThis : Bool
  pulseMissed : Nat             -- consecutive missed pulses
  aliveFault : Bool             -- TWN_ALIVE_FAULT (R253)
  partnerDump : Bool            -- the last heartbeat carried DUMP
  partnerHold : Bool            -- and HOLD
  ownerEpoch : BitVec 64        -- OWNER_EPOCH (R243)
  ckptSeq : BitVec 64           -- CKPT_SEQ sent
  ckptAcked : BitVec 64         -- CKPT_ACK received
  ckptGot : BitVec 64           -- partner CKPT_SEQ whose lines have all arrived
  ckptSent : List (Nat × Nat × BitVec 16 × List Nat)  -- unacknowledged: seq, field, coarse, fine
  mirrorSeq : BitVec 32         -- the last MIRROR_SEQ given (R245)
  mirrorAcked : BitVec 32       -- MIRROR_ACK received
  mirrorGot : BitVec 32         -- the partner's commands mirrored complete
  ckptDirty : List Nat          -- fields whose checkpoint lines changed (R135)
  releases : List (Nat × Nat × Nat × Nat × Bool)  -- destaged lines whose guard is not yet removed (R246):
                                -- field, LBA, version, course, geometry
  pool : List Line              -- the mirror pool (R246)
  poolOpen : List (Nat × LineFrame)  -- lines of partner commands without LAST (R245): CMD_REF
  poolBytes : Nat               -- TWN_MIRROR_POOL_BYTES
  poolHeld : List (Nat × Nat)   -- complete commands whose room is lacking (R248): MIRROR_SEQ, CMD_REF
  partnerWindow : List (Nat × Block)   -- the partner's window pages (R249)
  partnerOwned : List Nat       -- field IDs that the partner owns (R250, PARTNER_OWNED)
  partnerVersion : Option Nat   -- the partner's TWN_VERSION, in the configuration store (R419)
  declared : Option (BitVec 64) -- the tick of the declaration (R254)
  taken : List Nat              -- fields taken over
  fenced : List Nat             -- own fields whose commits wait for the fence
  fenceAsked : Bool             -- the reads of the fence have been issued
  fenceGood : List Nat          -- own fields of which a read of the fence has landed
  handovers : List Handover
  bulkSent : Bool               -- BULK_DONE sent (R266)
  bulkGot : Bool
  bulkLeft : List (Nat × Nat)   -- lines still to copy: field, LBA
  agreed : Bool                 -- AGREE has ended (R263)
  agreeGot : List AgreeEntry
  reserved : List Nat           -- field IDs reserved (R265)
  syncing : Option SyncReq      -- a change of the pair's parameters that this chip has proposed (R366)
  syncAgreed : List (Nat × Nat × Nat)  -- proposals of the partner accepted here: PARAM_ID, VALUE, EFFECT_TICK
  syncApply : List (Nat × Nat × Nat × Nat)  -- what applies at a later tick: the tick in the own count, PARAM_ID, INDEX, VALUE
  replaySeq : Option (BitVec 12)  -- the flit of the last replay request (R239)
  ckptOpen : Bool               -- lines of a partner checkpoint have come without its last one (R242)
  hbCounted : Bool              -- this tick's heartbeat has been counted as arrived or missed (R243)
  agreeSent : Bool              -- AGREE has been sent
  bandSent : List (Nat × Nat)   -- bands sent as line frames: field, MIRROR_SEQ (R169, R244)
  bulkPages : List Nat          -- window pages still to copy (R266)
  bulkRecs : List FbRec         -- ring records still to send (R433)
  bulkCount : Nat × Nat         -- lines and pages copied (R366)
  returnLeft : List Nat         -- fields still to hand back, one at a time (R268)
  returnCount : Nat             -- fields handed back by the running TWN_RETURN
  helloOk : Bool                -- the partner's PAIR_HELLO has been accepted
  agreeFinal : Bool             -- the partner's AGREE is complete
  everPaired : Bool             -- an agreement has ended since start-up
  epochsSent : List (BitVec 64 × BitVec 64 × Nat)  -- the last two heartbeats sent: tick, OWNER_EPOCH, changes of the partner counted
  theirChanges : Nat            -- ownership changes of the partner counted in OWNER_EPOCH
  helloGot : Option PairHello   -- the partner's PAIR_HELLO, come before S3 has ended here (R450)
  deriving DecidableEq, Repr

/-! ## The Keystone (R368 to R397) -/

/-- A Seed Ledger record (R390, R391) as the model keeps it. -/
structure Ledger where
  bootCount : BitVec 64
  fallow : Bool
  recovery : Bool
  counterRestored : Bool
  owned : Bool
  locked : Bool
  kstReset : Bool
  missed : BitVec 32
  ownerGen : BitVec 32
  prev : Digest
  measures : List (Nat × Nat × Nat × Nat × Digest)  -- COMPONENT, SLOT, SVN, VERSION, DIGEST
  deriving DecidableEq, Repr

/-- An owner policy (R384). -/
structure Policy where
  cosign : Bool
  freezeEnable : Bool
  mgmtOnly : Bool
  minSvn : List Nat             -- KST, TRW, DRL, PHY, XROM
  deriving DecidableEq, Repr

/-- An owner record of the configuration store (R385): OWNER_GEN, the two public keys as one little-endian number of 2,049
bytes, and the policy. -/
structure OwnerRec where
  gen : Nat
  keys : Nat
  policy : Policy
  deriving DecidableEq, Repr

/-- The keys derived from a field secret, as a key slot of the inline crypto holds them (R373, R376). -/
structure FieldKeys where
  xts : Nat
  tag : Nat
  label : Nat
  deriving DecidableEq, Repr

structure Kst where
  ownerState : BitVec 2         -- 0 UNOWNED, 1 OWNED, 2 LOCKED (R380)
  ownerKeys : Digest            -- SHA-384 of the owner's keys, 0 when unowned
  policy : Policy               -- in force
  policyNext : Policy           -- at the next boot
  records : List OwnerRec       -- stored owner records (R385)
  secrets : List (Uid × Nat × Nat)   -- the configuration store's wrapped secrets: FIELD_UUID, field, secret (R376)
  keySlots : List (Nat × FieldKeys)  -- loaded key slots: field, its keys (R376)
  nonceHost : Option Nat        -- owner nonces (R382)
  nonceMgmt : Option Nat
  enrolHost : List Byte         -- bundle parts received (R382)
  enrolMgmt : List Byte
  ledger : List Ledger          -- the Seed Ledger ring, oldest first (R393)
  ledgerRam : Option Ledger     -- this boot's record, when it could not be programmed (R393)
  resetTicks : List (BitVec 64) -- Keystone resets (R370)
  halted : Bool
  running : Bool                -- the boot ROM has run
  runningSlot : Nat             -- RUNNING of the identity page: 0, 1, 2 (R363)
  bootedSlot : Bool             -- the image slot that was booted (R412)
  earlyRecs : List (BitVec 16 × BitVec 16 × BitVec 32 × BitVec 32 × BitVec 32)  -- R430
  deriving DecidableEq, Repr

/-! ## Firmware update (R398 to R423) -/

/-- A slot directory (R398): components with their image digests. -/
structure Image where
  comps : List Component
  digests : List (Nat × Digest)
  deriving DecidableEq, Repr

structure Upd where
  activeSlot : Bool             -- ACTIVE_SLOT (R399)
  copyArmed : Bool              -- COPY_ARMED
  slot0 : Nat                   -- slot states (R400)
  slot1 : Nat
  unconfBoots : Nat
  seedState : Nat               -- SEEDBED_STATE
  rejectReason : Nat
  updateSeq : BitVec 64
  sessionId : BitVec 32         -- the session record (R401)
  hostJoined : Bool
  mgmtJoined : Bool
  openerMgmt : Bool
  idleS : Nat                   -- IDLE_S as committed
  chunkCount : Nat
  digest : Digest
  received : BitVec 256
  provisional : BitVec 256
  chunks : List (Nat × Nat × Nat)    -- the seedbed's chunks: number, bytes as a number, length
  manifest : Option Manifest
  partHost : Option (Nat × Nat × Nat × Bool)  -- partial chunk by path (R408): chunk, bytes, length, complete
  partMgmt : Option (Nat × Nat × Nat × Bool)
  erasing : Bool                -- the seedbed is being erased (R407)
  image0 : Image                -- image slots 0 and 1
  image1 : Image
  confirmGot : Bool             -- UPD_CONFIRM received in this boot (R415)
  falling : Bool                -- a fall-back waits for its restart (R416)
  idleSince : BitVec 64         -- since when the idle time counts that IDLE_S does not hold yet (R410)
  fallSince : BitVec 64         -- since when a fall-back hands over and drains (R416)
  markerKept : UpdMarker        -- lines 8 and 9 as landed (R399)
  sessionKept : UpdSession      -- lines 10 to 13 as landed (R401)
  oldConfig : Bool              -- configuration records of the fallow image's older format are kept too (R417)
  deriving DecidableEq, Repr

/-! ## The Field Book (R424 to R440) -/

/-- Where a source's newest record is (R429). -/
inductive FbPlace where
  | fifo | ring (n : Nat) | gone
  deriving DecidableEq, Repr

/-- A source's last-record register with its PENDING count (R429). -/
structure FbLast where
  src : BitVec 16
  code : BitVec 16
  p1 : BitVec 32
  p2 : BitVec 32
  p3 : BitVec 32
  seq : BitVec 32
  rep : Nat                     -- REPEAT with pending folds
  place : FbPlace
  pending : Nat
  deriving DecidableEq, Repr

structure Fbk where
  started : Bool                -- the store has started (R430)
  ring : List FbRec             -- the newest records, oldest first, at most 16,384
  written : Nat                 -- FBK_WRITTEN
  fifo : List FbRec             -- the staging FIFO, at most 64
  last : List FbLast
  seqs : List (BitVec 16 × BitVec 32)   -- the next SEQ of each source (R43)
  dropping : Bool               -- FBK_STATUS.DROPPING
  drops : Nat                   -- dropped since the last FBK_DROPPED
  dropFirst : BitVec 16 × BitVec 32
  dropSrcs : List (BitVec 16)
  lastWord : List FbRec         -- the Last Word, newest 8, oldest first
  lwWritten : Nat               -- FBK_LW_WRITTEN
  degraded : Bool               -- FBK_STATUS.DEGRADED (R432)
  restored : Bool               -- FBK_STATUS.RESTORED
  restoredCount : Nat
  page : BitVec 8               -- FBK_PAGE.PAGE
  mirror : List FbRec           -- the mirror ring (R433)
  mirrorWritten : Nat
  errTicks : List (BitVec 64)
  changed : List (BitVec 16 × BitVec 32)   -- records to send to the partner (R433): source, seq
  critical : Bool               -- a CRITICAL record since cold reset (R473)
  deriving DecidableEq, Repr

/-! ## Resets, freeze, board (R441 to R485) -/

/-- What drives the chip's output pins: its own logic, or the JTAG instructions EXTEST, CLAMP and HIGHZ (R458). -/
inductive PinDrive where
  | system | boundary | clamped | floating
  deriving DecidableEq, Repr

/-- Resets, power, freeze and pins. -/
structure Sys where
  epoch : Nat                   -- SYS_STATE_EPOCH (R354, R453)
  ctxInUse : Nat                -- SYS_CTX_IN_USE
  pwrGood : Bool                -- pin PWR_GOOD
  pwrfailLow : Bool             -- pin PWRFAIL_N is low (R225)
  bootKind : Nat                -- reset kind of the last start-up (R441)
  softReset : Bool              -- a soft reset is due at the next tick boundary (R445)
  softDrain : Bool              -- a soft reset or a fall-back drains the chip (R416, R445)
  warmGap : Bool                -- a warm reset's gap is due or runs (R447)
  frozen : Bool                 -- FRZ_STATUS.FROZEN
  freezeArmed : Bool            -- FRZ_STATUS.ARMED
  fuse : Bool                   -- FRZ_STATUS.FUSE
  pwrfailSeen : Bool            -- FRZ_STATUS.PWRFAIL_SEEN
  frzCycle : BitVec 10
  frzTick : BitVec 48
  stops : List (BitVec 48)      -- the domains' stop records (R456)
  jtagIr : BitVec 8             -- the JTAG instruction register (R458)
  harvestSel : BitVec 8         -- HARVEST_SEL.SEGMENT
  pins : PinDrive               -- what drives the output pins (R458)
  thermTrip : Bool              -- GPIO1 THERMTRIP_N is low (R483)
  thermWarn : Bool              -- the limits of R483 are in force
  gpio2 : Bool
  gpio3 : Bool
  trwHalted : List Bool         -- halted Trowel pairs (R344)
  trwTakeNext : Bool            -- the roles of halted pair 0 pass at the next tick boundary (R344)
  dramReady : Bool              -- S2 has ended
  restoreChosen : Bool          -- the restore has chosen its action (R228)
  scrubHour : BitVec 64         -- the last scrub position save (R104)
  deriving DecidableEq, Repr

/-! ## What the chip emits -/

/-- SPDM responses (R395). -/
inductive Spdm where
  | version | capabilities | algorithms
  | digests (d : Digest)
  | certificate (offset length remainder : Nat)
  | challengeAuth (measureHash : Digest) (sig : BitVec 768)
  | measurements (blocks : List (Nat × Nat × Nat)) (sig : Option (BitVec 768))
  | unsupported
  deriving DecidableEq, Repr

/-- MCTP control responses (R364). -/
inductive Mctp where
  | setEid (eid : BitVec 8)
  | getEid (eid : BitVec 8)
  | versions (type : BitVec 8)
  | types (l : List (BitVec 8))
  | vendor (selector : BitVec 8) (vendorId : BitVec 16)
  deriving DecidableEq, Repr

/-- Everything that the chip sends out, in order. The model's own record of the pins and links (log entry 3). -/
inductive Out where
  | consume (qid idx : Nat)                 -- R310
  | dataWrite (cmd : Nat) (segs : List Seg) (data : Nat) (relaxed : Bool)
  | completion (qid idx : Nat) (c : Cqe)    -- R329
  | msix (vector : Nat)
  | hostRead (r : HRead)
  | mmio (value : Option Nat)               -- a read's answer; none is Unsupported Request
  | member (c : MCmd)
  | memberAdmin (member : Nat) (c : AdminCmd)
  | mgmt (r : MbxResp)
  | mctp (m : Mctp)
  | spdm (t : MbxPath) (m : Spdm)
  | twin (t : TwinTx)
  | frame (position : Bool) (count : BitVec 64) (t : TwinTx)  -- a frame with its nonce (R241)
  | ltr (level : BitVec 2) (ns : Nat)
  | l1Enter | l1Exit
  | pme
  | jtag (bits : List Bool)
  deriving DecidableEq, Repr

/-- Everything the spec gives the block: what a command's effect reads and changes. -/
structure Dev where
  cfg : Vector Nat cfgCount             -- CONFIG parameters in force
  cfgNext : Vector Nat cfgCount         -- CONFIG parameters from the next tick boundary on
  ctr : Vector Nat ctrCount             -- COUNTER parameters
  tck : Tck
  tasks : Tasks
  hif : Hif
  win : Win
  qs : Queues
  mbx : Mbx
  fields : List Field
  mpt : Mpt
  cache : Cache
  mor : Mor
  mst : Mst
  hod : Hod
  drm : Drm
  vlt : Vlt
  twn : Twn
  lnk : Lnk
  kst : Kst
  upd : Upd
  fbk : Fbk
  sys : Sys
  freeCtr : Nat                         -- the model's own: how many free values have been drawn
  out : List Out                        -- the model's own: what the chip has emitted
  deriving DecidableEq, Repr

/-- The whole state: the block, and the commands that wait, first in first out. -/
structure State extends Dev where
  pending : List Instr
  deriving DecidableEq, Repr

/-! ## The state before PWR_GOOD first rises (R7, log entry 1) -/

/-- The TCK block at cold reset (R7). -/
def Tck.reset : Tck where
  count := 0
  phase := .admission
  phaseIdx := 0
  cycle := 0
  running := false
  paired := false
  follower := false
  alignWarn := false
  alignFault := false
  storm := false
  throttled := false
  saturated := false
  overrunCount := 0
  overrunTick := 0
  overrunTask := 0
  admitHandled := 0
  admitHeld := 0
  alignOffset := 0
  pairOffset := 0
  realignCount := 0
  shadows := []
  stormRun := 0
  overrunNow := []
  stormFired := false
  stormSeen := false
  gapNext := []
  gapNow := none

def Snapshot.reset : Snapshot where
  hdrPending := 0
  guardPending := 0
  clearPending := 0
  writeBacklog := 0
  writeCommits := 0
  admittedWrites := 0
  freeLoose := 0
  commitSum := 0
  slotHeldFields := []

/-- The results in force before any task has posted: the quota that R127 gives an empty store, no leases, share 0
(log entry 8). -/
def Tasks.reset : Tasks where
  quotaReg := none
  quota := 512
  slotsReg := none
  slots := []
  leasesReg := none
  shareReg := none
  share := 0
  ckptReg := false
  ckptStale := false
  faultsReg := none
  faultEvents := []
  snap := .reset
  history := []
  fieldWrites := []

def Hif.reset : Hif where
  ready := false
  hold := false
  recovery := false
  linkDegraded := false
  kstFault := false
  holdCause := 0
  armed := false
  releasing := false
  holdSince := 0
  holdCount := 0
  events := 0
  eventMask := 0
  speed := 0
  width := 0
  flit := false
  ltr := 3
  ltrCond := 2
  ltrSince := 0
  bar0 := none
  bar2 := none
  bar4 := none
  rom := none
  lastDoorbell := none
  urCount := 0
  dropped := 0
  holdDoorbells := 0
  lateCpl := 0
  cplTimeouts := 0
  bme := false
  mse := false
  msixEnable := false
  functionMask := false
  msixTable := []
  vectorMask := List.range 1040
  pba := []
  kept := []
  relaxed := true
  ltrEnable := false
  maxSnoop := 0
  maxNoSnoop := 0
  pmeEn := false
  d3hot := false
  l1 := false
  barGib := 1
  eid := 0
  smbAddr := 0x34
  i3cAddr := none

def Win.reset : Win where
  shBase := 0
  shSize := 0
  shCtrl := 0
  base := 0
  size := 0
  enable := false
  writeEn := false
  readEn := false
  pending := false
  rejected := false
  rejects := 0
  mem := []
  unmirrored := []
  unacked := []
  reads := []

def Queues.reset : Queues where
  pairs := []
  cmds := []
  hreads := []
  nextCmd := 1
  nextRead := 0
  lastServed := 1023
  handled := 0
  admitted := 0
  capHeld := 0
  capWaitRun := false
  ctxHeld := false
  slotHeldNow := []
  timedOut := []
  posted := 0
  round := []
  adminWait := []

def Mbx.reset : Mbx where
  done := false
  busy := false
  overrun := false
  failed := false
  irqEn := false
  reqBuf := []
  version := 1
  lastSeq := 0
  resp := none
  hostRun := none
  mgmtRun := none
  mgmtNext := none
  hostDiscard := false

/-- The default of MPT_DOMAIN_MAP: element m is m div 64 (R65). -/
def domainDefault : List Nat := (List.range 256).map (· / 64)

def Mpt.reset : Mpt where
  members := []
  cmds := []
  nextCmd := 0
  slots := []
  perst := 0
  domainMap := domainDefault
  domainNext := domainDefault
  issuedNow := 0
  arrived := []
  retiredNow := 0
  shareUsed := 0
  bytesUsed := 0
  scrubUsed := 0
  enumerated := false
  found := []
  cleared := []

def Cache.reset : Cache where
  lines := []
  nextVersion := 1
  ctxs := []
  jobs := []
  nextJob := 0
  ctxWait := []
  frameNext := 0
  epochs := []

def Mor.reset : Mor where
  lanesOut := 0
  mismatch := []
  lost := false

def Mst.reset : Mst where
  storeGen := 1
  storeTwinPos := false
  entries := []
  coarse := []
  fine := []
  leases := []
  slots := []
  reshapes := []
  bootCount := 0
  ownerGen := 0
  ownerDigest := 0
  counterKept := ⟨0, 0, 0⟩
  queue := []
  retry := []
  fails := []
  failed := false
  level := 0
  slotsFree := 2048
  partnerLines := []
  homeReserved := []
  wholeFields := []

/-- An empty tag entry. -/
def HodLine.empty : HodLine where
  valid := false
  key := ⟨0, 0, false, 0⟩
  age := 0
  rowValid := 0
  pins := 0
  missReg := 0
  pending := false
  p := []
  q := []

def Hod.reset : Hod where
  lines := List.replicate 48 .empty
  victims := List.replicate 8 .empty
  victimNext := 0
  regs := []
  invalidating := false
  startNext := false
  droppedNow := 0
  disabled := false
  errTicks := []
  linesValid := 0
  aged := none

def Drm.reset : Drm where
  dramGib := 0
  channels := 0
  cacheLost := false
  rebuildingDir := false
  drain := 0
  drainNext := none
  protCauses := 0
  dumpLoad := 0
  holdupOk := false
  holdupSince := none
  settled := false
  selfRefresh := false
  bootKey := 0
  patrolFrom := 0
  patrolled := []

/-- A vault slot that is fully erased. -/
def VSlot.blank : VSlot where
  header := false
  foreign := false
  twinPos := false
  bootCount := 0
  storeGen := 0
  dumpSeq := 0
  manifest := []
  manifestOk := false
  written := 0
  fbk := []
  footer := false
  consumed := false
  erased := true
  erasing := false
  erasedPages := 0
  wrapped := 0
  consumedBoot := 0
  fbkWritten := 0

def Vlt.reset : Vlt where
  slots := [.blank, .blank]
  slotBytes := 0
  armed := false
  dumpSeq := 0
  pwrfailLatched := false
  dumping := none
  dumpTick := false
  thermal := false
  softDump := false
  restoring := none
  restored := 0
  restoreLost := []
  retired := 0
  failedCh := []
  testAt := 0
  dumpKey := none
  dumpRoom := none

def Twn.reset : Twn where
  mode := false
  position := false
  state := 0
  linkUp := false
  width := 0
  offerSent := false
  offerGot := false
  agreeSince := 0
  session := none
  sessions := 0
  rxSeq := 0
  replayTries := 0
  rxTries := 0
  hbThis := false
  hbMissed := 0
  pulseThis := false
  pulseMissed := 0
  aliveFault := false
  partnerDump := false
  partnerHold := false
  ownerEpoch := 0
  ckptSeq := 0
  ckptAcked := 0
  ckptGot := 0
  ckptSent := []
  mirrorSeq := 0
  mirrorAcked := 0
  mirrorGot := 0
  ckptDirty := []
  releases := []
  pool := []
  poolOpen := []
  poolBytes := 0
  poolHeld := []
  partnerWindow := []
  partnerOwned := []
  partnerVersion := none
  declared := none
  taken := []
  fenced := []
  fenceAsked := false
  fenceGood := []
  handovers := []
  bulkSent := false
  bulkGot := false
  bulkLeft := []
  agreed := false
  agreeGot := []
  reserved := []
  syncing := none
  syncAgreed := []
  syncApply := []
  replaySeq := none
  ckptOpen := false
  hbCounted := false
  agreeSent := false
  bandSent := []
  bulkPages := []
  bulkRecs := []
  bulkCount := (0, 0)
  returnLeft := []
  returnCount := 0
  helloOk := false
  agreeFinal := false
  everPaired := false
  epochsSent := []
  theirChanges := 0
  helloGot := none

def Lnk.reset : Lnk where
  txSeq := 0
  kept := []
  credit := 0
  txFrames := 0
  rxFrames := 0
  lastWidth := 0
  ephKey := 0
  ownOffer := none
  theirOffer := none
  transfer := 0

/-- The policy of an UNOWNED chip (R384). -/
def Policy.unowned : Policy := ⟨false, false, false, [0, 0, 0, 0, 0]⟩

def Kst.reset : Kst where
  ownerState := 0
  ownerKeys := 0
  policy := .unowned
  policyNext := .unowned
  records := []
  secrets := []
  keySlots := []
  nonceHost := none
  nonceMgmt := none
  enrolHost := []
  enrolMgmt := []
  ledger := []
  ledgerRam := none
  resetTicks := []
  halted := false
  running := false
  runningSlot := 0
  bootedSlot := false
  earlyRecs := []

/-- The component images of a chip as delivered: version 1.0.0 of the components 1 to 5 (log entry 1). -/
def Image.delivered : Image where
  comps := [1, 2, 3, 4, 5].map fun n => ⟨n, 1, 0, 1, 0, 0, List.replicate 5 (0, 65535), 1, 1, 1, 1, 1, 1, 65536, 0, 0, 0⟩
  digests := []

def Upd.reset : Upd where
  activeSlot := false
  copyArmed := false
  slot0 := 3
  slot1 := 0
  unconfBoots := 0
  seedState := 0
  rejectReason := 0
  updateSeq := 0
  sessionId := 0
  hostJoined := false
  mgmtJoined := false
  openerMgmt := false
  idleS := 0
  chunkCount := 0
  digest := 0
  received := 0
  provisional := 0
  chunks := []
  manifest := none
  partHost := none
  partMgmt := none
  erasing := false
  image0 := .delivered
  image1 := ⟨[], []⟩
  confirmGot := false
  falling := false
  idleSince := 0
  fallSince := 0
  markerKept := ⟨false, false, 3, 0, 0, 0, 0, 0⟩
  sessionKept := ⟨0, false, false, false, 0, 0, 0, 0, 0⟩
  oldConfig := false

def Fbk.reset : Fbk where
  started := false
  ring := []
  written := 0
  fifo := []
  last := []
  seqs := []
  dropping := false
  drops := 0
  dropFirst := (0, 0)
  dropSrcs := []
  lastWord := []
  lwWritten := 0
  degraded := false
  restored := false
  restoredCount := 0
  page := 0
  mirror := []
  mirrorWritten := 0
  errTicks := []
  changed := []
  critical := false

def Sys.reset : Sys where
  epoch := 0
  ctxInUse := 0
  pwrGood := false
  pwrfailLow := false
  bootKind := 0
  softReset := false
  softDrain := false
  warmGap := false
  frozen := false
  freezeArmed := false
  fuse := true
  pwrfailSeen := false
  frzCycle := 0
  frzTick := 0
  stops := []
  jtagIr := 0xFF
  harvestSel := 0
  pins := .system
  thermTrip := false
  thermWarn := false
  gpio2 := false
  gpio3 := false
  trwHalted := [false, false]
  trwTakeNext := false
  dramReady := false
  restoreChosen := false
  scrubHour := 0

/-- The CONFIG parameters at their defaults. -/
def cfgDefaults : Vector Nat cfgCount :=
  (cfgIds.foldl (fun v e => v.set (cfgIx e.2) (cfgDefault e.2)) (Vector.replicate cfgCount 0))

def Dev.reset : Dev where
  cfg := cfgDefaults
  cfgNext := cfgDefaults
  ctr := Vector.replicate ctrCount 0
  tck := .reset
  tasks := .reset
  hif := .reset
  win := .reset
  qs := .reset
  mbx := .reset
  fields := []
  mpt := .reset
  cache := .reset
  mor := .reset
  mst := .reset
  hod := .reset
  drm := .reset
  vlt := .reset
  twn := .reset
  lnk := .reset
  kst := .reset
  upd := .reset
  fbk := .reset
  sys := .reset
  freeCtr := 0
  out := []

/-- The block with every register at its cold-reset value (R7), PWR_GOOD still low, and nothing waiting. -/
def State.reset : State := { toDev := Dev.reset, pending := [] }

end Sys2Proof.Machine
end

