-- ==== Sys2Proof/Machine/Keys.lean ====
section
/-!
DEFINITION. The keys that the Keystone derives with HKDF-SHA-384: device keys (R371), field keys (R373) and the keys of a Twin
Link session (R378).
-/

namespace Sys2Proof.Machine

/-- An ASCII info string. -/
def infoText (t : String) : List Byte := ascii t.length t

/-- The device root key: from the PUF response and the OTP seed, with the Device Serial Number as salt (R371). -/
def rootKey : Nat := Config.hkdf (Config.pufResponse ++ bytesLE 32 Config.otpSeed.toNat) (bytesLE 8 Config.serial.toNat) (infoText "HLF root") 48

/-- A device key of `n` bytes, derived from the root key with an empty salt (R371). -/
def deviceKey (t : String) (n : Nat) : Nat := Config.hkdf (bytesLE 48 rootKey) [] (infoText t) n

/-- The wrap key: AES key wrap of field secrets and dump keys. -/
def wrapKey : Nat := deviceKey "HLF wrap" 32

/-- The vault MAC key. -/
def vaultKey : Nat := deviceKey "HLF vault mac" 48

/-- The chip label key: LABEL_MAC of spare and released labels. -/
def chipLabelKey : Nat := deviceKey "HLF chip label" 48

/-- The configuration key. No rule gives the layout of a configuration store record, so that nothing here is encrypted under it. -/
def configKey : Nat := deviceKey "HLF config" 32

/-- The seeds of the identity keys. -/
def ecdsaSeed : Nat := deviceKey "HLF id ecdsa" 48
def mldsaSeed : Nat := deviceKey "HLF id mldsa" 32

/-- The identity signatures over a message of `n` bytes given as a number. -/
def signEcdsa (m n : Nat) : BitVec 768 := Config.signEcdsa ecdsaSeed m n
def signMldsa (m n : Nat) : BitVec 26472 := Config.signMldsa mldsaSeed m n

/-- A key of a field of `n` bytes: its secret, with FIELD_UUID as salt (R373). -/
def fieldKey (uuid : Uid) (secret : Nat) (t : String) (n : Nat) : Nat :=
  Config.hkdf (bytesLE 48 secret) (bytesLE 16 uuid.toNat) (infoText t) n

/-- The label key of a field. -/
def labelKey (uuid : Uid) (secret : Nat) : Nat := fieldKey uuid secret "HLF label" 48

/-- The keys that a key slot holds (R373, R376). -/
def fieldKeys (uuid : Uid) (secret : Nat) : FieldKeys :=
  ⟨fieldKey uuid secret "HLF xts" 64, fieldKey uuid secret "HLF tag" 32, labelKey uuid secret⟩

/-- A field secret as the configuration store holds it: 56 bytes of AES key wrap under the wrap key (R376). -/
def wrappedSecret (secret : Nat) : BitVec 448 := Config.wrapKey wrapKey secret

/-- A dump key as the header page of its slot holds it (R223). -/
def wrapDumpKey (key : Nat) : BitVec 320 := Config.wrapDumpKey wrapKey key
def unwrapDumpKey (w : BitVec 320) : Nat := Config.unwrapDumpKey wrapKey w

/-! ## The key agreement of the Twin Link (R378) -/

/-- The header of an agreement message of `n` bytes. -/
def agreeHeader (kind n : Nat) : List Byte := ascii 8 "HLFKEYAG" ++ bytesLE 1 kind ++ zeroBytes 3 ++ bytesLE 4 n

/-- The bytes of an OFFER. -/
def offerBytes (o : Offer) : List Byte :=
  agreeHeader 1 (0xD8 + o.chains.length) ++ bytesLE 8 o.serial.toNat ++ bytesLE 1 (b2n o.twinPos) ++ zeroBytes 7 ++ bytesLE 32 o.nonce.toNat ++
    bytesLE 97 o.ephPub.toNat ++ zeroBytes 3 ++ bytesLE 48 o.ownerDigest.toNat ++ bytesLE 4 o.chains.length ++ o.chains

/-- The bytes of a PROOF. -/
def proofBytes (ecdsa : BitVec 768) (mldsa : BitVec 26472) : List Byte :=
  agreeHeader 2 3424 ++ bytesLE 96 ecdsa.toNat ++ bytesLE 3309 mldsa.toNat ++ zeroBytes 3

/-- The REASON of a REFUSE. -/
def refuseCode : RefuseReason → Nat
  | .chain => 1
  | .signature => 2
  | .ownerMismatch => 3
  | .timeout => 4

/-- The bytes of a REFUSE. -/
def refuseBytes (r : RefuseReason) : List Byte := agreeHeader 3 17 ++ bytesLE 1 (refuseCode r)

/-- The certificate chains of the chip: chain 0, then chain 1 (R372). -/
def ownChains : List Byte := [0, 1].flatMap fun c => (List.range (Config.certLength c)).map (Config.certByte c)

/-- The transcript: SHA-384 of the OFFER of position 0 followed by that of position 1. -/
def transcript (mine theirs : Offer) : Digest :=
  let l := if mine.twinPos then offerBytes theirs ++ offerBytes mine else offerBytes mine ++ offerBytes theirs
  Config.sha384 (fromLE l) l.length

/-- The session key (R241) and the transfer key (R377) of an agreement: the private key, and both OFFERs. -/
def sessionKeys (priv : Nat) (mine theirs : Offer) : Nat × Nat :=
  let shared := bytesLE 48 (Config.ecdhShared priv theirs.ephPub).toNat
  let salt := bytesLE 48 (transcript mine theirs).toNat
  (Config.hkdf shared salt (infoText "HLF twin session") 32, Config.hkdf shared salt (infoText "HLF twin keys") 32)

end Sys2Proof.Machine
end

