-- ==== Sys2Proof/Machine/Ops.lean ====
section
/-!
DEFINITION. The named operations over the state: one change for each part of it, byte memory in canonical
form, parameters and counters (R108, R361), free values, Field Book records (R424 to R432), device events and
MSI-X messages (R286 to R288), and what the chip emits.
-/

namespace Sys2Proof.Machine

/-! ## One change for each part of the state -/

/-- Changes the part `tck` of the state. -/
def Dev.onTck (s : Dev) (f : Tck → Tck) : Dev := { s with tck := f s.tck }

/-- Changes the part `tasks` of the state. -/
def Dev.onTasks (s : Dev) (f : Tasks → Tasks) : Dev := { s with tasks := f s.tasks }

/-- Changes the part `hif` of the state. -/
def Dev.onHif (s : Dev) (f : Hif → Hif) : Dev := { s with hif := f s.hif }

/-- Changes the part `win` of the state. -/
def Dev.onWin (s : Dev) (f : Win → Win) : Dev := { s with win := f s.win }

/-- Changes the part `qs` of the state. -/
def Dev.onQs (s : Dev) (f : Queues → Queues) : Dev := { s with qs := f s.qs }

/-- Changes the part `mbx` of the state. -/
def Dev.onMbx (s : Dev) (f : Mbx → Mbx) : Dev := { s with mbx := f s.mbx }

/-- Changes the part `mpt` of the state. -/
def Dev.onMpt (s : Dev) (f : Mpt → Mpt) : Dev := { s with mpt := f s.mpt }

/-- Changes the part `cache` of the state. -/
def Dev.onCache (s : Dev) (f : Cache → Cache) : Dev := { s with cache := f s.cache }

/-- Changes the part `mor` of the state. -/
def Dev.onMor (s : Dev) (f : Mor → Mor) : Dev := { s with mor := f s.mor }

/-- Changes the part `mst` of the state. -/
def Dev.onMst (s : Dev) (f : Mst → Mst) : Dev := { s with mst := f s.mst }

/-- Changes the part `hod` of the state. -/
def Dev.onHod (s : Dev) (f : Hod → Hod) : Dev := { s with hod := f s.hod }

/-- Changes the part `drm` of the state. -/
def Dev.onDrm (s : Dev) (f : Drm → Drm) : Dev := { s with drm := f s.drm }

/-- Changes the part `vlt` of the state. -/
def Dev.onVlt (s : Dev) (f : Vlt → Vlt) : Dev := { s with vlt := f s.vlt }

/-- Changes the part `twn` of the state. -/
def Dev.onTwn (s : Dev) (f : Twn → Twn) : Dev := { s with twn := f s.twn }

/-- Changes the part `kst` of the state. -/
def Dev.onKst (s : Dev) (f : Kst → Kst) : Dev := { s with kst := f s.kst }

/-- Changes the part `upd` of the state. -/
def Dev.onUpd (s : Dev) (f : Upd → Upd) : Dev := { s with upd := f s.upd }

/-- Changes the part `fbk` of the state. -/
def Dev.onFbk (s : Dev) (f : Fbk → Fbk) : Dev := { s with fbk := f s.fbk }

/-- Changes the part `sys` of the state. -/
def Dev.onSys (s : Dev) (f : Sys → Sys) : Dev := { s with sys := f s.sys }

/-- Changes the fields. -/
def Dev.onFields (s : Dev) (f : List Field → List Field) : Dev := { s with fields := f s.fields }

/-- Adds to what the chip has emitted. -/
def Dev.emit (s : Dev) (o : Out) : Dev := { s with out := s.out ++ [o] }

/-- `f` when `c` holds, else nothing. -/
def Dev.when (s : Dev) (c : Bool) (f : Dev → Dev) : Dev := if c then f s else s

/-- `f` for each element of a list, in order. -/
def Dev.each {α : Type} (s : Dev) (l : List α) (f : Dev → α → Dev) : Dev := l.foldl f s

/-! ## Parameters, counters, free values, time -/

/-- The value of a CONFIG parameter in force (R361). -/
def Dev.param (s : Dev) (p : CfgP) : Nat := s.cfg[cfgIx p]

/-- The largest value of a 64-bit counter (R108). -/
def maxCount : Nat := 2 ^ 64 - 1

/-- A counter raised by `n`; it stops at its maximum (R108). -/
def Dev.countN (s : Dev) (c : Ctr) (n : Nat) : Dev :=
  { s with ctr := s.ctr.set (ctrIx c) (min (s.ctr[ctrIx c] + n) maxCount) }

/-- A counter raised by 1. -/
def Dev.count (s : Dev) (c : Ctr) : Dev := s.countN c 1

/-- A free value: nothing constrains it. -/
def Dev.free (s : Dev) : Nat := Config.free s.freeCtr

/-- The state after one more free value has been drawn. -/
def Dev.drew (s : Dev) : Dev := { s with freeCtr := s.freeCtr + 1 }

/-- TCK_COUNT as a number. -/
def Dev.now (s : Dev) : Nat := s.tck.count.toNat

/-- A saturating 64-bit counter register raised by 1 (HIF and WIN counters). -/
def bump64 (v : BitVec 64) : BitVec 64 := if v = BitVec.allOnes 64 then v else v + 1

/-- A saturating 32-bit counter register raised by 1. -/
def bump32 (v : BitVec 32) : BitVec 32 := if v = BitVec.allOnes 32 then v else v + 1

/-- Ticks in `n` seconds, by R4: 2.048 µs each, rounded up. -/
def ticksOfSeconds (n : Nat) : Nat := ceilDiv (n * 1000000000) 2048

/-! ## Byte memory: addresses strictly rising, no listed byte equal to 0 -/

/-- The byte at an address; an unlisted byte is 0 (R219). -/
def memGet (a : Nat) : List Host.Cell → Byte
  | [] => 0
  | (k, v) :: l => if a = k then v else if a < k then 0 else memGet a l

/-- The memory with one byte written. -/
def memSet (a : Nat) (b : Byte) : List Host.Cell → List Host.Cell
  | [] => if b = 0 then [] else [(a, b)]
  | (k, v) :: l =>
    if a < k then (if b = 0 then (k, v) :: l else (a, b) :: (k, v) :: l)
    else if a = k then (if b = 0 then l else (k, b) :: l)
    else (k, v) :: memSet a b l

/-- The memory with bytes written from an address upward. -/
def memWrite : Nat → List Byte → List Host.Cell → List Host.Cell
  | _, [], m => m
  | a, b :: l, m => memWrite (a + 1) l (memSet a b m)

/-- `n` bytes from an address upward. -/
def memRead : Nat → Nat → List Host.Cell → List Byte
  | _, 0, _ => []
  | a, n + 1, m => memGet a m :: memRead (a + 1) n m

/-- The canonical form above an address bound: every listed address at least `lo`, rising, no byte 0. -/
def memWfFrom : Nat → List Host.Cell → Bool
  | _, [] => true
  | lo, (k, v) :: l => lo ≤ k && v ≠ 0 && memWfFrom (k + 1) l

/-- The canonical form of a byte memory. -/
def memWf (m : List Host.Cell) : Bool := memWfFrom 0 m

/-! ## Source IDs (R42) -/

/-- The twin position bit of a source ID: 0 on a single chip. -/
def Dev.posBit (s : Dev) : Nat := b2n (s.twn.mode && s.twn.position)

/-- A source ID: kind in bits [15:12], twin position in bit [11], instance in bits [10:0]. -/
def Dev.src (s : Dev) (kind inst : Nat) : BitVec 16 :=
  BitVec.ofNat 16 (kind * 0x1000 + s.posBit * 0x800 + inst % 0x800)

/-- Queue pair `q`; 0x400 is the admin pair. -/
def Dev.srcQueue (s : Dev) (q : Nat) : BitVec 16 := s.src 1 q
/-- Member `m`. -/
def Dev.srcMember (s : Dev) (m : Nat) : BitVec 16 := s.src 2 m
/-- Field `f`. -/
def Dev.srcField (s : Dev) (f : Nat) : BitVec 16 := s.src 3 f
/-- Engine instance `n`. -/
def Dev.srcEngine (s : Dev) (n : Nat) : BitVec 16 := s.src 4 n
/-- Processor `n`: the two Trowel pairs and the Keystone. -/
def Dev.srcProc (s : Dev) (n : Nat) : BitVec 16 := s.src 5 n
/-- The mailbox of a path: the host mailbox or the management path. -/
def Dev.srcPath (s : Dev) : MbxPath → BitVec 16
  | .host => s.src 6 0
  | .mgmt => s.src 7 0

/-! ## Field Book records -/

/-- The severity of a code (R425, R428). -/
def severity (code : Nat) : Nat :=
  if [0x0112, 0x0123, 0x0141, 0x6005, 0x6028, 0x8002, 0xA002].contains code then 4
  else if [0x0102, 0x1001, 0x3022, 0x3040, 0x4030, 0x7010, 0x8011, 0x9021].contains code then 3
  else if [0x3021, 0xA001].contains code then 2
  else if [0x3020, 0x3042].contains code then 1
  else if [0x0120, 0x0130, 0x6001, 0xA003].contains code || code ≥ 0xF000 then 0
  else if [0x0111, 0x0124, 0x0133, 0x0170, 0x1002, 0x1006, 0x2001, 0x4031, 0x4032, 0x4033, 0x6004, 0x6010,
      0x6011, 0x7001, 0x7011, 0x7020].contains code then 2
  else if 0x8000 ≤ code && code ≤ 0x8FFF && code ≠ 0x8031 && code ≠ 0x8032 then 2
  else if 0x9005 ≤ code && code ≤ 0x9FFF then 2
  else 1

/-- The codes whose records carry LINK (R428). -/
def linkCode (code : Nat) : Bool := [0x3020, 0x3021, 0x3022].contains code

/-- The codes that are written into the Last Word at all times (R432). -/
def lastWordCode (code : Nat) : Bool := [0x0141, 0x8001, 0x8002, 0xA002].contains code

/-- The last-record register of a source (R429). -/
def Dev.lastRec (s : Dev) (src : BitVec 16) : Option FbLast := s.fbk.last.find? (·.src = src)

/-- Whether the newest record of a source is still in the FIFO, or in the ring and not overwritten (R429). -/
def Dev.placeLive (s : Dev) : FbPlace → Bool
  | .fifo => true
  | .ring n => if s.fbk.degraded then s.fbk.lwWritten < n + 8 else s.fbk.written < n + 16384
  | .gone => false

/-- Whether a new record folds into the register `r` (R429). -/
def Dev.folds (s : Dev) (r : FbLast) (code : Nat) (p1 p2 p3 : BitVec 32) : Bool :=
  r.code = BitVec.ofNat 16 code && r.p1 = p1 && r.p2 = p2 && r.p3 = p3 && s.placeLive r.place && r.rep < 0xFFFF

/-- Replaces or adds the last-record register of a source. -/
def setLast (r : FbLast) (l : List FbLast) : List FbLast :=
  if l.any (·.src = r.src) then modAll (·.src = r.src) (fun _ => r) l else l ++ [r]

/-- A folded occurrence: in the FIFO REPEAT rises at once, else PENDING rises (R429). -/
def Dev.fold (s : Dev) (r : FbLast) : Dev :=
  let s := s.count .fbkFolds
  match r.place with
  | .fifo => s.onFbk fun k => { k with
      fifo := modAll (fun e => e.src = r.src && e.seq = r.seq) (fun e => { e with rep := e.rep + 1 }) k.fifo
      last := setLast { r with rep := r.rep + 1 } k.last }
  | _ => s.onFbk fun k => { k with last := setLast { r with rep := r.rep + 1, pending := r.pending + 1 } k.last }

/-- The next sequence number of a source (R43). -/
def Dev.nextSeq (s : Dev) (src : BitVec 16) : BitVec 32 := (look src s.fbk.seqs).getD 0

/-- The next sequence number of a source is used up. -/
def Dev.useSeq (s : Dev) (src : BitVec 16) : Dev :=
  s.onFbk fun k => { k with seqs := put src (s.nextSeq src + 1) k.seqs }

/-- Writes a record into the Last Word, which keeps its 8 newest (R432). -/
def Dev.toLastWord (s : Dev) (r : FbRec) : Dev :=
  s.onFbk fun k =>
    let l := k.lastWord ++ [r]
    { k with lastWord := l.drop (l.length - 8), lwWritten := k.lwWritten + 1
             changed := k.changed ++ [(r.src, r.seq)] }

/-- A record as a source produces it (R424), with the tick stamp of this tick. -/
def Dev.mkRec (s : Dev) (code : Nat) (src : BitVec 16) (seq : BitVec 32) (flags : Nat)
    (p1 p2 p3 : BitVec 32) : FbRec where
  code := BitVec.ofNat 16 code
  src := src
  seq := seq
  tick := s.tck.count.setWidth 48
  rep := 1
  sev := BitVec.ofNat 8 (severity code)
  flags := BitVec.ofNat 8 (flags + 2 * b2n (linkCode code))
  p1 := p1
  p2 := p2
  p3 := p3

/-- A record that finds the FIFO full: its SEQ stays used, and R431 counts it. -/
def Dev.dropRec (s : Dev) (src : BitVec 16) (seq : BitVec 32) : Dev :=
  (s.count .fbkDropped).onFbk fun k => { k with
    dropping := true
    drops := k.drops + 1
    dropFirst := if k.drops = 0 then (src, seq) else k.dropFirst
    dropSrcs := addNew src k.dropSrcs }

/-- A source produces a record: it folds, enters the FIFO, or is dropped (R429 to R432). -/
def Dev.recordF (s : Dev) (flags code : Nat) (src : BitVec 16) (p1 p2 p3 : Nat) : Dev :=
  let p1 := BitVec.ofNat 32 p1
  let p2 := BitVec.ofNat 32 p2
  let p3 := BitVec.ofNat 32 p3
  let s := s.onFbk fun k => { k with critical := k.critical || severity code = 4 }
  match (s.lastRec src).filter fun r => s.folds r code p1 p2 p3 with
  | some r => s.fold r
  | none =>
    let seq := s.nextSeq src
    let r := s.mkRec code src seq flags p1 p2 p3
    let s := s.useSeq src
    let s := s.when (lastWordCode code && !s.fbk.degraded) fun s => s.toLastWord r
    let full := 64 ≤ s.fbk.fifo.length
    let reg : FbLast := ⟨src, r.code, p1, p2, p3, seq, 1, if full then .gone else .fifo, 0⟩
    let s := s.onFbk fun k => { k with last := setLast reg k.last }
    if full then s.dropRec src seq else s.onFbk fun k => { k with fifo := k.fifo ++ [r] }

/-- A record of any source but the Keystone. -/
def Dev.record (s : Dev) (code : Nat) (src : BitVec 16) (p1 p2 p3 : Nat) : Dev := s.recordF 0 code src p1 p2 p3

/-- A record of the Keystone about a source: before the store starts it waits in Keystone SRAM (R430). -/
def Dev.recordEarly (s : Dev) (code : Nat) (src : BitVec 16) (p1 p2 : Nat) : Dev :=
  if s.fbk.started then s.record code src p1 p2 0
  else s.onKst fun k => { k with earlyRecs := k.earlyRecs ++ [(BitVec.ofNat 16 code, src, BitVec.ofNat 32 p1, BitVec.ofNat 32 p2, 0)] }

/-- A record of the Keystone itself. -/
def Dev.recordKst (s : Dev) (code p1 p2 : Nat) : Dev := s.recordEarly code (s.srcProc 2) p1 p2

/-! ## MSI-X messages and device events -/

/-- Whether the host link takes upstream requests: not with Bus Master Enable at 0, in port hold or in D3hot (R276, R291, R297). -/
def Dev.portOpen (s : Dev) : Bool := s.hif.bme && !s.hif.hold && !s.hif.d3hot

/-- Whether the device issues upstream requests: a dump makes none after its first tick (R225). -/
def Dev.upstream (s : Dev) : Bool := s.portOpen && !s.vlt.dumpTick

/-- An upstream request goes out; a link in ASPM L1 starts its exit for it (R290). -/
def Dev.sendUp (s : Dev) (o : Out) : Dev :=
  if s.hif.l1 then ((s.onHif fun h => { h with l1 := false }).emit .l1Exit).emit o else s.emit o

/-- Whether a vector is masked (R288). -/
def Dev.masked (s : Dev) (v : Nat) : Bool := s.hif.functionMask || s.hif.vectorMask.contains v

/-- A message of a vector is raised: masked, it sets the pending bit; while no upstream request goes out it is
kept, merged with others of its vector; else it is sent. With MSI-X Enable at 0 there is none (R288). -/
def Dev.msix (s : Dev) (v : Nat) : Dev :=
  if !s.hif.msixEnable then s
  else if s.masked v then s.onHif fun h => { h with pba := addNew v h.pba }
  else if s.upstream then s.sendUp (.msix v)
  else s.onHif fun h => { h with kept := addNew v h.kept }

/-- A device event (R286): its bit is set, and its vector is raised when the bit rises unmasked. In D3hot a
rise sends PM_PME when PME_En is set (R291). -/
def Dev.event (s : Dev) (n : Nat) : Dev :=
  let rises := !s.hif.events.getLsbD n
  let masked := s.hif.eventMask.getLsbD n
  let s := s.onHif fun h => { h with events := h.events ||| (1#14 <<< n) }
  let s := s.when (rises && s.hif.d3hot && s.hif.pmeEn) fun s => s.emit .pme
  s.when (rises && !masked) fun s => s.msix (1026 + n)

/-- Upstream requests resume: the kept messages are sent (R288). -/
def Dev.sendKept (s : Dev) : Dev :=
  let l := s.hif.kept
  (s.onHif fun h => { h with kept := [] }).each l fun s v => s.msix v

/-- A record, then a device event. -/
def Dev.recordEvent (s : Dev) (code : Nat) (src : BitVec 16) (p1 p2 p3 n : Nat) : Dev :=
  (s.record code src p1 p2 p3).event n

/-- A record of the Keystone of chapter Keys, with the security event (R397), or of chapter Firmware Update,
with the update event (R423). -/
def Dev.recordKstEvent (s : Dev) (code p1 p2 n : Nat) : Dev := (s.recordKst code p1 p2).event n

/-- An MMIO read is answered with a value; `none` is Unsupported Request. -/
def Dev.answer (s : Dev) (v : Option Nat) : Dev := s.emit (.mmio v)

/-! ## The running image -/

/-- The image that was booted (R412). -/
def Dev.runningImage (s : Dev) : Image := if s.kst.bootedSlot then s.upd.image1 else s.upd.image0

/-- The entry of a component in an image (R404). -/
def Image.comp? (im : Image) (n : Nat) : Option Component := im.comps.find? (·.number = n)

/-! ## Fields and members -/

/-- The field with an ID. -/
def Dev.field? (s : Dev) (f : Nat) : Option Field := s.fields.find? (·.id = f)

/-- Changes the field with an ID. -/
def Dev.onField (s : Dev) (f : Nat) (g : Field → Field) : Dev := s.onFields (modAll (·.id = f) g)

/-- The member with an ID. -/
def Dev.member? (s : Dev) (m : Nat) : Option Member := s.mpt.members.find? (·.id = m)

/-- Changes the member with an ID. -/
def Dev.onMember (s : Dev) (m : Nat) (g : Member → Member) : Dev :=
  s.onMpt fun p => { p with members := modAll (·.id = m) g p.members }

/-- The next tick boundary changes the state table: SYS_STATE_EPOCH rises (R453). -/
def Dev.bumpEpoch (s : Dev) : Dev := s.onSys fun y => { y with epoch := y.epoch + 1 }

end Sys2Proof.Machine
end

