-- ==== Sys2Proof/Machine/Link.lean ====
section
/-!
DEFINITION. The sending side of the Twin Link: how long a frame is (R241, R242, R366), the flits that carry it, the flits kept
for replay and the credits they spend (R238, R239), and the frame counter of the nonce (R241).
-/

namespace Sys2Proof.Machine

/-- Changes the part `lnk` of the state. -/
def Dev.onLnk (s : Dev) (f : Lnk → Lnk) : Dev := { s with lnk := f s.lnk }

/-- LENGTH of a frame: the bytes of its body (R242, R366); what is no frame has none. -/
def TwinTx.bodyLen : TwinTx → Nat
  | .hello _ => 64
  | .agree l _ => 8 + 32 * l.length
  | .heartbeat _ => 64
  | .ckpt _ _ _ => 64
  | .line _ => 4128
  | .bulk _ => 4128
  | .release _ _ _ _ => 16
  | .windowPage _ _ => 4096
  | .record _ => 32
  | .reserve _ _ => 8
  | .offer _ _ _ _ => 24
  | .accept _ _ => 8
  | .bulkDone _ _ => 16
  | .paramSync _ _ _ _ => 32
  | .fieldKeys _ _ b => 24 + (if b.isSome then 56 else 0)
  | .keyOffer _ => 0
  | .keyProof _ _ => 0
  | .keyRefuse _ => 0
  | .replay _ => 0
  | .resend _ => 0
  | .marker => 0
  | .retrain => 0

/-- A frame on the link: a 16-byte header, the body and a 16-byte tag (R241). -/
def TwinTx.frameLen (t : TwinTx) : Nat := 32 + t.bodyLen

/-- The flits of a frame, 240 bytes of frame data each. DESIGN CHOICE: a frame begins a flit of its own (log entry 106). -/
def TwinTx.flits (t : TwinTx) : Nat := ceilDiv t.frameLen 240

/-- `n` flits are sent: their numbers follow on, the last 1,024 of all flits are kept, and each spends one credit (R238, R239). -/
def Dev.sendFlits (s : Dev) (t : TwinTx) (n : Nat) : Dev :=
  s.onLnk fun k =>
    let l := k.kept ++ (List.range n).map fun i => (k.txSeq + BitVec.ofNat 12 i, t)
    { k with txSeq := k.txSeq + BitVec.ofNat 12 n, kept := l.drop (l.length - 1024), credit := k.credit - n }

/-- A frame goes out, encrypted and authenticated under the session key with the sender's position and the frame counter as the
nonce, while a session lasts (R241). -/
def Dev.sendFrame (s : Dev) (t : TwinTx) : Dev :=
  if s.twn.session.isSome && !s.vlt.dumpTick then
    let n := s.lnk.txFrames
    ((s.sendFlits t t.flits).onLnk fun k => { k with txFrames := k.txFrames + 1 }).emit (.frame s.twn.position n t)
  else s

/-- The bytes of a message of the key agreement (R378). -/
def TwinTx.agreement : TwinTx → List Byte
  | .keyOffer o => offerBytes o
  | .keyProof a b => proofBytes a b
  | .keyRefuse r => refuseBytes r
  | _ => []

/-- A message of the key agreement goes out in frame-data flits, without encryption (R378). -/
def Dev.sendAgreement (s : Dev) (t : TwinTx) : Dev := (s.sendFlits t (ceilDiv t.agreement.length 240)).emit (.twin t)

/-- A flit that is no frame data: a replay request or an alignment marker (R239, R240). -/
def Dev.sendFlit (s : Dev) (t : TwinTx) : Dev :=
  if s.vlt.dumpTick then s else (s.sendFlits t 1).emit (.twin t)

end Sys2Proof.Machine
end

