-- ==== Sys2Proof/Machine/Layout.lean ====
section
/-!
DEFINITION. Where every block of a field lies (R66 to R70), the row arithmetic of P and Q (R84 to R96), and the
checks of a member read (R80, R93, R488).
-/

namespace Sys2Proof.Machine

/-! ## Placement -/

/-- The first member LBA of the data area (R68). -/
def dataStart : Nat := 16384

/-- Blocks per brick, b = B ÷ 4,096 (R48). -/
def bricksBlocks (shift : Nat) : Nat := 2 ^ (shift - 12)

/-- The position of P in course `c` of a field of width `w` (R66). -/
def pPos (w c : Nat) : Nat := w - 1 - c % w

/-- The position of Q (R66). -/
def qPos (w c : Nat) : Nat := (pPos w c + 1) % w

/-- The position of data brick `i` (R66). -/
def dPos (w c i : Nat) : Nat := (pPos w c + 2 + i) % w

/-- The course of a field LBA (R68). -/
def courseOf (w b lba : Nat) : Nat := lba / ((w - 2) * b)

/-- The data brick index of a field LBA in its course (R68). -/
def brickOf (w b lba : Nat) : Nat := lba % ((w - 2) * b) / b

/-- The row, or block within the brick, of a field LBA (R68). -/
def rowOf (w b lba : Nat) : Nat := lba % ((w - 2) * b) % b

/-- The member position of a field LBA (R68). -/
def posOf (w b lba : Nat) : Nat := dPos w (courseOf w b lba) (brickOf w b lba)

/-- The member LBA of row `o` of course `c` (R68). -/
def memberLba (b c o : Nat) : Nat := dataStart + c * b + o

/-- What a position holds in a course (R69). -/
inductive Role where
  | p | q | data (i : Nat)
  deriving DecidableEq, Repr

/-- The role of a position in a course (R69). -/
def roleAt (w c pos : Nat) : Role :=
  let k := (pos + w - pPos w c) % w
  if k = 0 then .p else if k = 1 then .q else .data (k - 2)

/-- The field LBA of row `o` of data brick `i` of course `c` (R69). -/
def lbaAt (w b c i o : Nat) : Nat := c * (w - 2) * b + i * b + o

/-- The largest course count for members of the given sizes (R70). -/
def maxCourses (b : Nat) (sizes : List Nat) : Nat :=
  (sizes.foldl min (sizes.headD 0) - dataStart) / b

/-! ## Rows -/

/-- The sum of blocks over GF(2⁸). -/
def xorAll (l : List Block) : Block := l.foldl (· ^^^ ·) 0

/-- P of a row: the XOR of its data blocks (R84). -/
def rowP (l : List Block) : Block := xorAll l

/-- The sum of gⁱ·Dᵢ with `i` counted from `n`. -/
def rowQFrom : Nat → List Block → Block
  | _, [] => 0
  | n, d :: l => gfScale (gfPow2 n) d ^^^ rowQFrom (n + 1) l

/-- Q of a row (R84). -/
def rowQ (l : List Block) : Block := rowQFrom 0 l

/-- A row by role: its data blocks, P and Q, as far as they are known. -/
structure Row where
  data : List (Option Block)
  p : Option Block
  q : Option Block
  deriving DecidableEq, Repr

/-- The indices of the erased data blocks of a row. -/
def Row.holes (r : Row) : List Nat := (List.range r.data.length).filter fun i => (r.data[i]?.getD none).isNone

/-- The data blocks of a row, a hole counted as 0. -/
def Row.known (r : Row) : List Block := r.data.map fun d => d.getD 0

/-- The solution of a row with at most two erasures, by the cases of R96: its data blocks, P and Q. -/
def Row.solve (r : Row) : Option (List Block × Block × Block) :=
  let k := r.known
  let done (d : List Block) : List Block × Block × Block := (d, r.p.getD (rowP d), r.q.getD (rowQ d))
  match r.holes, r.p, r.q with
  | [], _, _ => some (done k)
  | [x], some p, _ => some (done (k.set x (p ^^^ rowP k)))
  | [x], none, some q => some (done (k.set x (gfScale (gfInv (gfPow2 x)) (q ^^^ rowQ k))))
  | [x, y], some p, some q =>
    let pxy := p ^^^ rowP k
    let qxy := q ^^^ rowQ k
    let dx := gfScale (gfInv (gfPow2 x ^^^ gfPow2 y)) (qxy ^^^ gfScale (gfPow2 y) pxy)
    some (done ((k.set x dx).set y (pxy ^^^ dx)))
  | _, _, _ => none

/-- Whether the row with the reconstructed data satisfies a parity block that the solution of the single data
erasure did not use (R488): `none` when no such parity remains. -/
def Row.spareParity (r : Row) (d : List Block) : Option Bool :=
  match r.holes, r.p, r.q with
  | [_], some _, some q => some (q = rowQ d)
  | _, _, _ => none

/-- The syndromes of CHK: Sp and Sq (R87, R105). -/
def syndromes (d : List Block) (p q : Block) : Block × Block := (p ^^^ rowP d, q ^^^ rowQ d)

/-- The data brick that the syndromes locate: the z with Sq = g^z · Sp, looked for over D bricks (R105). -/
def locate (d : Nat) (sp sq : Block) : Option Nat :=
  (List.range d).find? fun z => gfScale (gfPow2 z) sp = sq

/-- New P of a read-modify-write row: old P with each change ΔD added (UPD of R87). -/
def updP (old : Block) (deltas : List (Nat × Block)) : Block := deltas.foldl (fun p e => p ^^^ e.2) old

/-- New Q of a read-modify-write row: old Q with each gⁱ·ΔD added (UPD of R87). -/
def updQ (old : Block) (deltas : List (Nat × Block)) : Block :=
  deltas.foldl (fun q e => q ^^^ gfScale (gfPow2 e.1) e.2) old

/-! ## Metadata and checks -/

/-- The first 16 metadata bytes of a P or Q block of a tagged field (R80). -/
def parityMeta (b : Block) (field course mlba : Nat) (isQ : Bool) : Meta :=
  let hi := course % 2 ^ 48 + field % 256 * 2 ^ 48 + (if isQ then 2 else 1) * 2 ^ 56
  let check := crc64 (blockBytes b ++ bytesLE 8 hi ++ bytesLE 8 mlba)
  BitVec.ofNat 128 (check.toNat + hi * 2 ^ 64)

/-- The block tag: AES-CMAC under the tag key over the field LBA with bits [63:48] zero, FIELD_ID, 7 zero bytes and the ciphertext
(R375). -/
def blockTag (key lba field : Nat) (b : Block) : Meta :=
  Config.aesCmac key (fromLE (bytesLE 8 (lba % 2 ^ 48) ++ bytesLE 1 field ++ zeroBytes 7 ++ blockBytes b)) 4112

/-- Whether a data block passes its tag check (R93, R375). -/
def tagOk (key lba field : Nat) (b : Block) (t : Meta) : Bool := blockTag key lba field b = t

/-- Whether a P or Q block passes its check (R93). -/
def parityOk (b : Block) (m : Meta) (field course mlba : Nat) (isQ : Bool) : Bool :=
  parityMeta b field course mlba isQ = m

end Sys2Proof.Machine
end

