-- ==== Sys2Proof/Machine/Fields.lean ====
section
/-!
DEFINITION. Fields: geometry on both sides of a headland (R166 to R171), which members serve a position (R58,
R94, R151), lost masks (R160), marking regions (R118 to R122), and the lookups over cache lines, course contexts
and the dump load (R13 to R15, R24, R209).
-/

namespace Sys2Proof.Machine

/-! ## Geometry -/

/-- Blocks per brick (R48). -/
def Field.b (f : Field) : Nat := bricksBlocks f.brickShift

/-- The width of a geometry: `true` is the new one of a reshape (R167). -/
def Field.w (f : Field) (g : Bool) : Nat := if g then f.nextWidth else f.width

/-- Data bricks per course of a geometry. -/
def Field.d (f : Field) (g : Bool) : Nat := f.w g - 2

/-- The member table of a geometry. -/
def Field.table (f : Field) (g : Bool) : List MPos := if g then f.nextMembers else f.members

/-- The courses of a geometry. -/
def Field.coursesOf (f : Field) (g : Bool) : Nat :=
  if g then (f.rs.map (·.newCourses)).getD f.courses else f.courses

/-- C × D × b of the current geometry (R48). -/
def Field.fullCap (f : Field) : Nat := f.courses * (f.width - 2) * f.b

/-- The capacity in blocks: that of the old geometry while a reshape runs (R48, R166). -/
def Field.capacity (f : Field) : Nat := f.cap

/-- Whether a reshape of the given record is a COPY. -/
def isCopy (r : RsRecord) : Bool := r.kind = 3

/-- Whether a reshape is ascending: GROW and COPY (R166). -/
def ascending (r : RsRecord) : Bool := r.kind ≠ 2

/-- Whether a field LBA lies on the moved side (R166). -/
def Field.moved (f : Field) (lba : Nat) : Bool :=
  match f.rs with
  | none => false
  | some r =>
    let edge := r.headland * (r.newWidth - 2) * f.b
    if ascending r then lba < edge else edge ≤ lba

/-- Where a block lies: its geometry, course, data brick, row, position and member LBA (R68, R166). -/
structure Place where
  geom : Bool
  course : Nat
  brick : Nat
  row : Nat
  pos : Nat
  mlba : Nat
  deriving DecidableEq, Repr

/-- The place of a field LBA in a geometry (R68). -/
def Field.placeIn (f : Field) (g : Bool) (lba : Nat) : Place :=
  let c := courseOf (f.w g) f.b lba
  let o := rowOf (f.w g) f.b lba
  ⟨g, c, brickOf (f.w g) f.b lba, o, posOf (f.w g) f.b lba, memberLba f.b c o⟩

/-- The place of a field LBA, on the side of the headland that it lies on. -/
def Field.place (f : Field) (lba : Nat) : Place := f.placeIn (f.moved lba) lba

/-- The field LBA of a row of a data brick, in a geometry (R69). -/
def Field.lba (f : Field) (g : Bool) (c i o : Nat) : Nat := lbaAt (f.w g) f.b c i o

/-- Data blocks per course of a geometry. -/
def Field.courseBlocks (f : Field) (g : Bool) : Nat := f.d g * f.b

/-- The first data LBA of a course. -/
def Field.firstLba (f : Field) (g : Bool) (c : Nat) : Nat := c * f.courseBlocks g

/-- Whether a course of a geometry holds blocks of its side of the headland: a course that the edge cuts is still one of the
unmoved side (R166, R167). -/
def Field.holds (f : Field) (g : Bool) (c : Nat) : Bool :=
  match f.rs with
  | none => !g
  | some r =>
    if g then f.moved (f.firstLba true c)
    else
      let edge := r.headland * (r.newWidth - 2) * f.b
      if ascending r then edge < f.firstLba false (c + 1) else f.firstLba false c < edge

/-- The courses that a range of LBAs touches, each with its geometry. -/
def Field.touched (f : Field) (lba n : Nat) : List (Nat × Bool) :=
  (List.range n).foldl (fun l i => let p := f.place (lba + i); addNew (p.course, p.geom) l) []

/-! ## Members of a position -/

/-- The table entry at a position. -/
def Field.entry? (f : Field) (g : Bool) (pos : Nat) : Option MPos := (f.table g)[pos]?

/-- The member table entry that reads of a position use: in a COPY, the source stays at its position (R171). -/
def Field.readEntry? (f : Field) (g : Bool) (pos : Nat) : Option MPos :=
  match f.rs with
  | some r => if isCopy r && pos = r.copyPos then f.entry? false pos else f.entry? g pos
  | none => f.entry? g pos

/-- The position in one geometry of the member at a rebuild position. A rebuild names a position of MEMBERS, or, for a member
that a GROW adds, one of NEXT_MEMBERS beyond them (R174). -/
def Field.posIn (f : Field) (g : Bool) (pos : Nat) : Option Nat :=
  if g then
    match f.members[pos]? with
    | some e => f.nextMembers.findIdx? (·.uid = e.uid)
    | none => if pos < f.nextMembers.length then some pos else none
  else if pos < f.members.length then some pos else none

/-- The table entry at a rebuild position. -/
def Field.rebuildEntry? (f : Field) (pos : Nat) : Option MPos := f.members[pos]?.or f.nextMembers[pos]?

/-- The positions that a rebuild may name. -/
def Field.rebuildPositions (f : Field) : List Nat := List.range (max f.members.length f.nextMembers.length)

/-- The positions that are REBUILDING and have no target yet. The target of a COPY is none of them. -/
def Field.waitingTargets (f : Field) : List Nat :=
  f.rebuildPositions.filter fun p => (f.rebuildEntry? p).any (·.state = 3) && !f.targets.any (·.position = p)

/-- Whether a course lies in a target's rebuilt range (R151), on the side that SIDE names (R174). -/
def Field.rebuilt (f : Field) (g : Bool) (pos c : Nat) : Bool :=
  f.targets.any fun t => f.posIn g t.position = some pos && !t.joined &&
    (if f.rs.isSome && g ≠ t.side then g && !t.side
     else
       let n := f.coursesOf g
       n ≠ 0 && (c + n - t.start % n) % n < t.covered)

/-- The member ID that serves reads of a brick: ACTIVE, or REBUILDING inside the rebuilt range (R58, R94). -/
def Field.reader? (f : Field) (g : Bool) (pos c : Nat) : Option Nat :=
  match f.readEntry? g pos with
  | some e =>
    if e.state = 1 then e.member
    else if e.state = 3 && f.rebuilt g pos c then e.member
    else none
  | none => none

/-- The members that a write of a brick goes to: ACTIVE and REBUILDING; in a COPY the moved side's destages write
both the target and the member at the position (R91, R171). -/
def Field.writers (f : Field) (g : Bool) (pos : Nat) : List Nat :=
  let one (e : Option MPos) : List Nat :=
    match e with
    | some e => if e.state = 1 || e.state = 3 then e.member.toList else []
    | none => []
  match f.rs with
  | some r => if g && isCopy r && pos = r.copyPos then one (f.entry? false pos) ++ one (f.entry? true pos)
    else one (f.entry? g pos)
  | none => one (f.entry? g pos)

/-- The state codes of the positions of MEMBERS. -/
def Field.states (f : Field) : List Nat := (f.members.map fun m => m.state.toNat)

/-- Members of MEMBERS that are FAILED or MISSING. -/
def Field.downCount (f : Field) : Nat := (f.states.filter fun s => s = 4 || s = 5).length

/-- Members of MEMBERS that are REBUILDING. -/
def Field.rebuildCount (f : Field) : Nat := (f.states.filter fun s => s = 3).length

/-- The members, by ID, of either table that are ACTIVE or REBUILDING (R75, R154, R169). -/
def Field.liveMembers (f : Field) : List Nat :=
  (f.members ++ f.nextMembers).foldl
    (fun l e => if e.state = 1 || e.state = 3 then (match e.member with | some m => addNew m l | none => l) else l) []

/-- The ACTIVE and REBUILDING members at positions 0, 1 and 2 (R134). -/
def Field.replicaMembers (f : Field) : List Nat :=
  (f.members.take 3).filterMap fun e => if e.state = 1 || e.state = 3 then e.member else none

/-- The lost-course entry of a course: it belongs to the geometry of the side that holds its number (R167). -/
def Field.lost? (f : Field) (c : Nat) : Option LostEntry := f.lost.find? (·.course = c)

/-- LOST_MASK of a course; 0 when it is not in the list. -/
def Field.lostMask (f : Field) (c : Nat) : BitVec 32 := ((f.lost? c).map (·.mask)).getD 0

/-- Whether a position is masked in a course. -/
def Field.masked (f : Field) (c pos : Nat) : Bool := (f.lostMask c).getLsbD pos

/-! ## Marking regions -/

/-- ⌈log₂ n⌉ for n from 1 to 2⁶⁴, looked for from `k` upward. -/
def log2UpFrom (n : Nat) : Nat → Nat → Nat
  | 0, k => k
  | fuel + 1, k => if n ≤ 2 ^ k then k else log2UpFrom n fuel (k + 1)

/-- ⌈log₂ n⌉. -/
def log2Up (n : Nat) : Nat := log2UpFrom n 64 0

/-- COARSE_SHIFT of a field of capacity `k` blocks (R118). -/
def coarseShiftOf (k : Nat) : Nat := max 8 (log2Up (ceilDiv k 16))

/-- FINE_SHIFT of a fine map of `n` blocks (R119). -/
def fineShiftOf (k n : Nat) : Nat := max 8 (log2Up (ceilDiv k (4096 * n)))

/-- The coarse region of an LBA (R118). -/
def Field.coarseRegion (f : Field) (lba : Nat) : Nat := min 15 (lba / 2 ^ f.coarseShift)

/-- The fine region of an LBA (R119). -/
def Field.fineRegion (f : Field) (lba : Nat) : Nat := lba / 2 ^ f.fineShift

/-- The marking region of a course: whether it is fine, and its number (R118, R122). -/
def Field.region (f : Field) (g : Bool) (c : Nat) : Bool × Nat :=
  let l := f.firstLba g c
  if f.fineUse then (true, f.fineRegion l) else (false, f.coarseRegion l)

/-- The first LBA of a region. -/
def Field.regionStart (f : Field) (fine : Bool) (r : Nat) : Nat :=
  r * 2 ^ (if fine then f.fineShift else f.coarseShift)

/-- SEG_SHIFT of a slot of a region (R120). -/
def Field.segShift (f : Field) (fine : Bool) (r : Nat) : Nat :=
  let sc := 2 ^ f.coarseShift
  let e := if fine then 2 ^ f.fineShift else if r = 15 then max sc (f.capacity - 15 * sc) else sc
  log2Up (ceilDiv e 64)

/-- The overflow segment of a course in a slot (R120). -/
def Field.segment (f : Field) (sl : Slot) (g : Bool) (c : Nat) : Nat :=
  min 63 ((f.firstLba g c - f.regionStart sl.fine sl.region) / 2 ^ sl.segShift)

/-- The home slot of a coarse region (R121). -/
def Field.homeSlot? (f : Field) (r : Nat) : Option Nat := f.homeIndex.map fun h => 16 * h + r

/-- The coarse regions that a field's capacity reaches. -/
def Field.coarseCount (f : Field) : Nat := min 16 (ceilDiv f.capacity (2 ^ f.coarseShift))

/-! ## The Mortar Store seen by field -/

/-- The coarse map of a field ID (R116). -/
def Dev.coarseMap (s : Dev) (f : Nat) : BitVec 16 := (look f s.mst.coarse).getD 0

/-- Whether a region's furrow bit is set. -/
def Dev.furrow (s : Dev) (f : Nat) (fine : Bool) (r : Nat) : Bool :=
  if fine then s.mst.fine.contains (f, r) else (s.coarseMap f).getLsbD r

/-- The valid slot that names a region. -/
def Dev.slotOf? (s : Dev) (f : Nat) (fine : Bool) (r : Nat) : Option Slot :=
  s.mst.slots.find? fun x => x.field = f && x.fine = fine && x.region = r

/-- The slots that fields hold as home slots (R121). -/
def Dev.homeSlots (s : Dev) : List Nat :=
  s.fields.flatMap fun f => match f.homeIndex with
    | some h => (List.range f.coarseCount).map fun r => 16 * h + r
    | none => []

/-- The slots named by queued commits that make one. -/
def Dev.slotsMaking (s : Dev) : List Slot :=
  s.mst.queue.filterMap fun c => match c.change with
    | .slotMake x => some x
    | _ => none

/-- Free loose slots: neither valid nor about to be, no home slot, not reserved (R121). -/
def Dev.freeLoose (s : Dev) : List Nat :=
  let used := s.mst.slots.map (·.idx) ++ s.slotsMaking.map (·.idx) ++ s.homeSlots
  (List.range 2048).filter fun i => !used.contains i && !s.mst.homeReserved.contains (i / 16)

/-! ## Cache lines -/

/-- A line that a restart or a dump must keep: not clean. -/
def Line.dirty (l : Line) : Bool := l.st ≠ .clean

/-- The versions of a block in the cache. -/
def Dev.versions (s : Dev) (f lba : Nat) : List Line :=
  s.cache.lines.filter fun l => l.field = f && l.lba = lba

/-- The line of highest version in a list. -/
def newestOf : List Line → Option Line
  | [] => none
  | l :: r => match newestOf r with
    | none => some l
    | some m => if m.version ≤ l.version then some l else some m

/-- The newest version of a block that the cache holds (R24). -/
def Dev.newest (s : Dev) (f lba : Nat) : Option Line := newestOf (s.versions f lba)

/-- The command with an ID. -/
def Dev.cmd? (s : Dev) (id : Nat) : Option Cmd := s.qs.cmds.find? (·.id = id)

/-- Changes a command. -/
def Dev.onCmd (s : Dev) (id : Nat) (f : Cmd → Cmd) : Dev :=
  s.onQs fun q => { q with cmds := modAll (·.id = id) f q.cmds }

/-- Whether an opcode counts as a write (R33, R318). -/
def HostOp.isWrite : HostOp → Bool
  | .write | .writeZeroes | .deallocate => true
  | .read | .flush | .verify => false

/-- The blocks of a command's ranges. -/
def Cmd.blockCount (c : Cmd) : Nat := total (c.ranges.map (·.2))

/-- The LBAs of a command's ranges, in order. -/
def Cmd.lbas (c : Cmd) : List Nat := c.ranges.flatMap fun r => (List.range r.2).map (r.1 + ·)

/-- An admitted write whose lines are not in the cache yet. -/
def Cmd.coming (c : Cmd) : Bool :=
  c.op.isWrite && !c.arrived && (c.stage = .fetching || c.stage = .running) && c.courses ≠ []

/-- The lines counted in L: dirty lines and those that admitted writes will bring (R209). -/
def Dev.loadBlocks (s : Dev) : Nat :=
  (s.cache.lines.filter Line.dirty).length + total ((s.qs.cmds.filter Cmd.coming).map Cmd.blockCount)

/-- The dump load L in bytes (R209). -/
def Dev.load (s : Dev) : Nat := s.loadBlocks * 4096 + s.param .winDumpLimit

/-- The dirty cap that admission meets: 0 while a drain runs (R210, R216). -/
def Dev.cap (s : Dev) : Nat := if s.drm.drain ≠ 0 || s.sys.softDrain then 0 else s.param .drmDirtyCap

/-- Whether the cache of a field is unprotected since the last tick boundary (R213, R214). -/
def Dev.unprotected (s : Dev) (f : Field) : Bool :=
  s.drm.protCauses.getLsbD 1 || s.drm.protCauses.getLsbD 2 || s.drm.protCauses.getLsbD 3 ||
  s.drm.protCauses.getLsbD 5 || f.capUnprot

/-! ## Course contexts and locks -/

/-- The context of a course. -/
def Dev.ctx? (s : Dev) (f c : Nat) (g : Bool) : Option Ctx :=
  s.cache.ctxs.find? fun x => x.field = f && x.course = c && x.geom = g

/-- Changes the context of a course. -/
def Dev.onCtx (s : Dev) (f c : Nat) (g : Bool) (h : Ctx → Ctx) : Dev :=
  s.onCache fun k => { k with ctxs := modAll (fun x => x.field = f && x.course = c && x.geom = g) h k.ctxs }

/-- The number of course contexts (R16). -/
def maxCtxs : Nat := 262144

/-- A context for a course that has none, when one is free (R13). -/
def Dev.makeCtx (s : Dev) (f c : Nat) (g : Bool) : Dev :=
  if (s.ctx? f c g).isSome || maxCtxs ≤ s.cache.ctxs.length then s
  else s.onCache fun k => { k with ctxs := k.ctxs ++ [⟨f, c, g, 0, none, none, []⟩] }

/-- The dirty lines of a course: those whose LBA maps to it (R167). -/
def Dev.courseLines (s : Dev) (f : Field) (c : Nat) (g : Bool) : List Line :=
  s.cache.lines.filter fun l => l.field = f.id && l.dirty &&
    (let p := f.place l.lba; p.course = c && p.geom = g)

/-- Whether a write in flight touches a course. -/
def Dev.courseInFlight (s : Dev) (f c : Nat) (g : Bool) : Bool :=
  s.qs.cmds.any fun x => x.e.fieldId.toNat = f && x.courses.contains (c, g)

/-- The job with an ID. -/
def Dev.job? (s : Dev) (j : Nat) : Option Job := s.cache.jobs.find? (·.id = j)

/-- Changes a job. -/
def Dev.onJob (s : Dev) (j : Nat) (f : Job → Job) : Dev :=
  s.onCache fun k => { k with jobs := modAll (·.id = j) f k.jobs }

/-- The keys of a field in its loaded key slot (R376). -/
def Dev.keys (s : Dev) (f : Nat) : FieldKeys := (look f s.kst.keySlots).getD ⟨0, 0, 0⟩

/-- Whether a live partner exists: the pair state is SYNCING or SYNCED, and the link is up (R19, R251). -/
def Dev.partner (s : Dev) : Bool := s.twn.mode && (s.twn.state = 2 || s.twn.state = 3)

end Sys2Proof.Machine
end

