-- ==== Sys2Proof/Machine/Flags.lean ====
section
/-!
DEFINITION. Computed status: field conditions and states (R50, R51, R178), the protection of the cache (R213),
the hod's state, and the values of the status registers (TCK, HIF, MBX, WIN, FBK).
-/

namespace Sys2Proof.Machine

/-! ## Field conditions -/

/-- DEGRADED_1: exactly one member FAILED or MISSING and none REBUILDING (R178). -/
def Field.degraded1 (f : Field) : Bool := f.downCount = 1 && f.rebuildCount = 0

/-- DEGRADED_2: at least two members FAILED, MISSING or REBUILDING, at most two of them down (R178). -/
def Field.degraded2 (f : Field) : Bool := 2 ≤ f.downCount + f.rebuildCount && f.downCount ≤ 2

/-- REBUILDING: exactly one member REBUILDING and every other ACTIVE (R178). -/
def Field.rebuilding (f : Field) : Bool := f.rebuildCount = 1 && f.downCount = 0

/-- RESHAPING: the reshape record's first batch has landed and the record is not freed (R178). -/
def Field.reshaping (f : Field) : Bool := f.rs.isSome || f.rsEnding

/-- FAILED: more than two members down, the lost-course list full, or the mortar engine lost (R178). -/
def Field.failed (f : Field) : Bool := 3 ≤ f.downCount || f.failedLost || f.failedEngine

/-- The condition flags of R51: bit n − 1 for the state of code n; bit 0 exactly when no other is set. -/
def Field.condFlags (f : Field) : BitVec 9 :=
  let v := 2 * b2n f.degraded1 + 4 * b2n f.degraded2 + 8 * b2n f.rebuilding + 16 * b2n f.reshaping +
    32 * b2n f.resyncing + 64 * b2n f.recovering + 128 * b2n f.failed + 256 * b2n f.offline
  BitVec.ofNat 9 (if v = 0 then 1 else v)

/-- The state that a set of condition flags reports, in the order of R51. -/
def stateOfFlags (v : BitVec 9) : Nat :=
  if v.getLsbD 6 then 7 else if v.getLsbD 7 then 8 else if v.getLsbD 8 then 9 else if v.getLsbD 2 then 3
  else if v.getLsbD 3 then 4 else if v.getLsbD 1 then 2 else if v.getLsbD 4 then 5 else if v.getLsbD 5 then 6 else 1

/-- Whether a reported state serves I/O: codes 1 to 6 (R50). -/
def servesIo (code : Nat) : Bool := 1 ≤ code && code ≤ 6

/-- Whether more than two ACTIVE or REBUILDING members of the field, those of the next geometry among them, share a fault domain (R60). -/
def Field.domainExposed (f : Field) (map : List Nat) : Bool :=
  let doms := f.liveMembers.filterMap fun m => map[m]?
  doms.any fun d => 3 ≤ (doms.filter (· = d)).length

/-! ## Protection of the cache -/

/-- The causes that hold for every field of the chip, as bits [5:1] of DRM_PROTECTED (R213). -/
def Dev.causes (s : Dev) : BitVec 6 :=
  BitVec.ofNat 6 (2 * b2n (!s.drm.settled) + 4 * b2n (!s.vlt.armed) + 8 * b2n s.vlt.dumping.isSome +
    16 * b2n (s.fields.any fun f => f.takenOver && s.param .drmDirtyCap < s.load) + 32 * b2n s.drm.cacheLost)

/-! ## Register values -/

/-- A Bool at a bit place. -/
def bitAt (b : Bool) (n : Nat) : Nat := if b then 2 ^ n else 0

/-- TCK_PHASE.PHASE code (TCK registers). -/
def phaseCode : Phase → Nat
  | .admission => 0 | .mirror => 1 | .commit => 2 | .issue => 3 | .retire => 4 | .gap => 7

/-- TCK_PHASE. -/
def Dev.tckPhase (s : Dev) : Nat := phaseCode s.tck.phase + s.tck.cycle.toNat * 2 ^ 16

/-- TCK_STATUS. -/
def Dev.tckStatus (s : Dev) : Nat :=
  bitAt s.tck.running 0 + bitAt s.tck.paired 1 + bitAt s.tck.follower 2 + bitAt s.tck.alignWarn 3 +
  bitAt s.tck.alignFault 4 + bitAt s.tck.storm 5 + bitAt s.tck.throttled 6 + bitAt s.tck.saturated 7

/-- TCK_OVERRUN_LAST. -/
def Dev.tckOverrunLast (s : Dev) : Nat := s.tck.overrunTick.toNat + s.tck.overrunTask.toNat * 2 ^ 48

/-- TCK_ADMIT_LAST. -/
def Dev.tckAdmitLast (s : Dev) : Nat := s.tck.admitHandled % 1024 + s.tck.admitHeld % 1024 * 2 ^ 16

/-- Parked completions: finished commands while upstream requests stop (R276, R297). -/
def Dev.parked (s : Dev) : Nat :=
  if s.portOpen then 0 else (s.qs.cmds.filter fun c => c.stage = .finished).length

/-- HIF_STATUS. -/
def Dev.hifStatus (s : Dev) : Nat :=
  bitAt s.hif.ready 0 + bitAt s.hif.hold 1 + bitAt s.fbk.degraded 2 + bitAt s.hif.recovery 3 +
  bitAt s.hif.linkDegraded 4 + bitAt (!s.hif.bme && 0 < s.parked) 5 + bitAt s.hif.kstFault 6 +
  bitAt s.twn.mode 7

/-- HIF_HOLD_CAUSE. -/
def Dev.hifHoldCause (s : Dev) : Nat := s.hif.holdCause.toNat + bitAt s.hif.armed 8

/-- HIF_LINK. -/
def Dev.hifLink (s : Dev) : Nat :=
  s.hif.speed.toNat + s.hif.width.toNat * 8 + bitAt s.hif.flit 8 + s.hif.ltr.toNat * 2 ^ 9

/-- HIF_ID: device 0x9600, stepping 0x10, HIF_VERSION 0x01. -/
def hifId : Nat := 0x01109600

/-- MBX_STATUS. -/
def Dev.mbxStatus (s : Dev) : Nat :=
  bitAt s.mbx.done 0 + bitAt s.mbx.busy 1 + bitAt s.mbx.overrun 2 + bitAt s.mbx.failed 3

/-- WIN_STATUS. -/
def Dev.winStatus (s : Dev) : Nat := bitAt s.win.pending 0 + bitAt s.win.rejected 1 + bitAt s.win.enable 2

/-- The BAR4/5 size in force (WIN_BAR_BYTES). -/
def Dev.winBarBytes (s : Dev) : Nat := s.hif.barGib * gib

/-- FBK_STATUS. -/
def Dev.fbkStatus (s : Dev) : Nat :=
  bitAt s.fbk.degraded 0 + bitAt s.fbk.dropping 1 + bitAt s.fbk.restored 2 +
  min 255 (s.fbk.last.filter fun r => 0 < r.pending).length * 2 ^ 8

/-- HOD_STATUS (R201). -/
def Dev.hodStatus (s : Dev) : Nat := if s.hod.disabled then 2 else if s.param .hodEnable = 0 then 1 else 0

/-! ## Output pins (R473) -/

/-- GPIO1 THERMTRIP_N, an open drain: low after a thermal trip. -/
def Dev.thermtripPin (s : Dev) : Bool := !s.sys.thermTrip

/-- GPIO4 ATTN_N: low while an owned field reports FAILED or DEGRADED_2, and after a CRITICAL record since cold reset. -/
def Dev.attnPin (s : Dev) : Bool := !s.fbk.critical && !s.fields.any fun f => f.owned && (f.reported = 8 || f.reported = 3)

/-- GPIO5 VAULT_ARMED: high while VLT_ARMED is 1. -/
def Dev.vaultPin (s : Dev) : Bool := s.vlt.armed

/-- Whether the tick sequencer runs a tick now: it stands still in a gap, under a freeze, and without power. DEDUCED: a reset
stops it for the reset gap, after which it starts again (log entry 107). -/
def Dev.sequencing (s : Dev) : Bool := s.tck.running && s.tck.gapNow.isNone && !s.sys.frozen && s.sys.pwrGood

/-- TWIN_ALIVE_OUT: high for cycles 0 to 255 of every tick of a chip of a pair, low from the tick in which a dump sends its flag, and
low for a single chip (R236, R237). -/
def Dev.twinAlivePin (s : Dev) : Bool := s.twn.mode && s.sequencing && s.vlt.dumping.isNone && s.tck.cycle < 256

/-- TWIN_TICK: the chip at position 0 drives it high for cycles 0 to 63 of every tick (R474). -/
def Dev.twinTickPin (s : Dev) : Bool := !s.twn.position && s.sequencing && s.tck.cycle < 64

/-- The vector numbers with a pending bit among 64 from `64 * q`, as a quad word of the PBA. -/
def Dev.pbaWord (s : Dev) (q : Nat) : Nat :=
  bitSet ((s.hif.pba.filter fun v => v / 64 = q).map fun v => v % 64)

end Sys2Proof.Machine
end

