-- ==== Sys2Proof/Machine/Operands.lean ====
section
/-!
DEFINITION. Operand forms: submission entries and their checks (R317 to R325), data pointers and SGL chains
(R218, R320 to R322), the landing window as an operand (R302), and the payloads of mailbox requests (R350, R354).
-/

namespace Sys2Proof.Machine

/-! ## Status codes of completions (R335) -/

/-- The ranks of the status codes; a status not listed ranks as INTERNAL_ERROR. -/
def statusRank (st : BitVec 16) : Nat :=
  match st.toNat with
  | 0x0 => 0 | 0x1 => 1 | 0x2 => 2 | 0x4 => 3 | 0xB => 4 | 0x3 => 5 | 0x6 => 6 | 0x7 => 7 | 0xF => 8
  | 0x5 => 9 | 0xA => 10 | 0x9 => 11 | 0x8 => 12 | _ => 13

def stSuccess : BitVec 16 := 0x0000
def stInvalidOpcode : BitVec 16 := 0x0001
def stInvalidField : BitVec 16 := 0x0002
def stNotReady : BitVec 16 := 0x0003
def stLbaRange : BitVec 16 := 0x0004
def stHostMemory : BitVec 16 := 0x0005
def stQueueDeleted : BitVec 16 := 0x0006
def stReset : BitVec 16 := 0x0007
def stDataLost : BitVec 16 := 0x0008
def stTagMismatch : BitVec 16 := 0x0009
def stWriteFault : BitVec 16 := 0x000A
def stReadOnly : BitVec 16 := 0x000B
def stInternal : BitVec 16 := 0x000D
def stSglLimit : BitVec 16 := 0x000F

/-! ## Submission entries -/

/-- The I/O opcodes (R318). -/
def opOf (n : Nat) : Option HostOp :=
  match n with
  | 1 => some .read | 2 => some .write | 3 => some .flush | 4 => some .writeZeroes | 5 => some .deallocate
  | 6 => some .verify | _ => none

/-- The code of an I/O opcode. -/
def opCode : HostOp → BitVec 8
  | .read => 1 | .write => 2 | .flush => 3 | .writeZeroes => 4 | .deallocate => 5 | .verify => 6

/-- Whether an opcode names a range in LBA and NLB (R318). -/
def namesRange : HostOp → Bool
  | .read | .write | .writeZeroes | .verify => true
  | .flush | .deallocate => false

/-- MAX_TRANSFER_BLOCKS (R318). -/
def maxBlocks : Nat := 8192

/-- Checks 2 and 3 of R324: the status and DETAIL of the first that fails. `fs` is the queue's field set and
`cap` the capacity of the named field, if it exists. -/
def checkEntry (fs : BitVec 256) (cap : Option Nat) (op : HostOp) (e : SqEntry) : Option (BitVec 16 × BitVec 16) :=
  if !fs.getLsbD e.fieldId.toNat then some (stInvalidField, 0x04)
  else if namesRange op && (e.nlb = 0 || maxBlocks < e.nlb.toNat) then some (stInvalidField, 0x10)
  else if namesRange op && (match cap with | some k => k < e.lba.toNat + e.nlb.toNat | none => false) then
    some (stLbaRange, 0)
  else if op = .deallocate && 256 < e.nlb.toNat then some (stInvalidField, 0x10)
  else none

/-- Whether the pointer kind is one that the opcode defines; any other makes the entry malformed (R326). -/
def pointerDefined (op : HostOp) (e : SqEntry) : Bool :=
  match op with
  | .read | .write => e.dkind = 1 || e.dkind = 2
  | .deallocate => e.nlb = 0 || e.dkind = 1
  | _ => true

/-! ## Data pointers -/

/-- Whether two byte ranges overlap. -/
def overlaps (a n b m : Nat) : Bool := a < b + m && b < a + n

/-- Whether a range touches a BAR of the given base and size. -/
def touchesBar (base : Option Nat) (size a n : Nat) : Bool :=
  match base with
  | some b => overlaps a n b size
  | none => false

/-- Whether a range touches BAR0/1, BAR2/3 or the expansion ROM of the device itself (R322). -/
def Dev.ownRegister (s : Dev) (a n : Nat) : Bool :=
  touchesBar s.hif.bar0 1048576 a n || touchesBar s.hif.bar2 16384 a n || touchesBar s.hif.rom 262144 a n

/-- Whether a range addresses the device's own BAR4/5 (R218). -/
def Dev.ownWindow (s : Dev) (a n : Nat) : Bool := touchesBar s.hif.bar4 s.winBarBytes a n

/-- The segment of a data descriptor. -/
def Dev.seg (s : Dev) (a n : Nat) : Seg := ⟨s.ownWindow a n, a, n⟩

/-- The window offset that `n` bytes at BAR4/5 offset `a` address with the live values (R302). -/
def Win.offset? (w : Win) (a n : Nat) : Option Nat :=
  if w.enable && w.base ≤ a && a + n ≤ w.base + w.size then some (a - w.base) else none

/-- The window offset of a segment, when it lies wholly in the open window (R218). -/
def Dev.segOffset? (s : Dev) (g : Seg) : Option Nat :=
  match s.hif.bar4 with
  | some b => if b ≤ g.addr then s.win.offset? (g.addr - b) g.len else none
  | none => none

/-- Whether every segment can be transferred: host memory that is not the device's own, or the open window. -/
def Dev.segsOk (s : Dev) (l : List Seg) : Bool :=
  l.all fun g => if g.window then (s.segOffset? g).isSome else !s.ownRegister g.addr g.len

/-- What the walk of one SGL segment comes to (R321). -/
inductive SglEnd where
  | done                        -- the data descriptors cover the length
  | next (addr count : Nat)     -- a link to a further segment
  | limit                       -- SGL_LIMIT_EXCEEDED
  | malformed                   -- a TYPE that the spec does not define (R326)
  deriving DecidableEq, Repr

/-- The walk: segments gathered, descriptors read, bytes covered, and how the segment ended. -/
structure SglWalk where
  segs : List Seg
  descs : Nat
  covered : Nat
  fin : SglEnd
  deriving DecidableEq, Repr

/-- Walks the descriptors of one segment until they cover `want` bytes (R321). -/
def Dev.walkSgl (s : Dev) (want : Nat) : List SglDesc → SglWalk → SglWalk
  | [], w => { w with fin := .limit }
  | d :: l, w =>
    let w := { w with descs := w.descs + 1 }
    if d.typ = 1 then
      if d.length = 0 || 4096 ≤ w.descs then { w with fin := .limit }
      else { w with fin := .next d.addr.toNat (min d.length.toNat (4096 - w.descs)) }
    else if d.typ = 0 then
      let n := min d.length.toNat (want - w.covered)
      let w := if n = 0 then w else { w with segs := w.segs ++ [s.seg d.addr.toNat n], covered := w.covered + n }
      if want ≤ w.covered then { w with fin := .done }
      else if 4096 ≤ w.descs then { w with fin := .limit }
      else s.walkSgl want l w
    else { w with fin := .malformed }

/-- The parts of a segment list that hold bytes `off` to `off + n - 1` of the transfer. -/
def segSlice : List Seg → Nat → Nat → List Seg
  | [], _, _ => []
  | g :: l, off, n =>
    if n = 0 then []
    else if g.len ≤ off then segSlice l (off - g.len) n
    else
      let k := min n (g.len - off)
      { g with addr := g.addr + off, len := k } :: segSlice l 0 (n - k)

/-- The bytes of a WRITE's transfer: window segments from the window, host segments from the bytes read, in
order, as a little-endian number (R218, R320). -/
def Dev.gather (s : Dev) : List Seg → List Byte → Nat → Nat
  | [], _, _ => 0
  | g :: l, host, sh =>
    if g.window then
      let v := fromLE (memRead ((s.segOffset? g).getD 0) g.len s.win.mem)
      v * 2 ^ sh + s.gather l host (sh + 8 * g.len)
    else fromLE (host.take g.len) * 2 ^ sh + s.gather l (host.drop g.len) (sh + 8 * g.len)

/-- The host memory bytes that a segment list names. -/
def hostBytes (l : List Seg) : Nat := total (l.map fun g => if g.window then 0 else g.len)

/-! ## Mailbox payloads -/

/-- `n` bytes of a request's payload from an offset, as a number. -/
def reqAt (r : MbxReq) (off n : Nat) : Nat := le r.payload off n

/-- The FIELD_ID, MEMBER_ID or other first byte of a payload. -/
def reqId (r : MbxReq) : Nat := reqAt r 0 1

/-- The 16-byte entries of a PARAM_GET or PARAM_SET payload: PARAM_ID, INDEX, VALUE (R362). -/
def paramEntries (r : MbxReq) : List (Nat × Nat × Nat) :=
  (List.range (reqAt r 0 2)).map fun e => (reqAt r (8 + 16 * e) 2, reqAt r (12 + 16 * e) 4, reqAt r (16 + 16 * e) 8)

end Sys2Proof.Machine
end

