-- ==== Sys2Proof/Machine/Frames.lean ====
section
/-!
DEFINITION. The cache DRAM: its regions (R203, R204), the channel-spanning code and the MACs of a frame (R205, R206, R208), and the
pages of the line pool (R207).
-/

namespace Sys2Proof.Machine

/-! ## The regions (R203, R204) -/

/-- The bytes of the system area, the landing window, the mirror pool, the line directory and the line pool together: all but the MAC
region, which is 7/256 of them. -/
def dataRegions (dram : Nat) : Nat := dram * 256 / 263

/-- The bytes of the MAC region (R203, R206). -/
def macRegion (dram : Nat) : Nat := dram - dataRegions dram

/-- The bytes of the line pool for a DRAM capacity, a window and a mirror pool. -/
def linePool (dram win mirror : Nat) : Nat := (dataRegions dram - 256 * mib - win - mirror) * 256 / 257

/-- The bytes of the line directory. -/
def directoryBytes (dram win mirror : Nat) : Nat := linePool dram win mirror / 256

/-- Whether the line pool holds a dirty cap and 4 GiB more (R204). -/
def poolFits (dram win mirror cap : Nat) : Bool := cap + 4 * gib ≤ linePool dram win mirror

/-- The mirror pool that a dirty cap asks for (R247). -/
def mirrorPool (cap : Nat) : Nat := cap + 2 * gib

/-- The mirror pool of the chip at a dirty cap: none on a chip that has not paired. -/
def Dev.mirrorAt (s : Dev) (cap : Nat) : Nat := if s.twn.poolBytes = 0 then 0 else mirrorPool cap

/-- Whether R204 holds at a dirty cap and a window size in GiB. Before start-up has found the DRAM nothing is refused. -/
def Dev.configFits (s : Dev) (cap winGib : Nat) : Bool :=
  s.drm.dramGib = 0 || poolFits (s.drm.dramGib * gib) (winGib * gib) (s.mirrorAt cap) cap

/-- The 2 MiB pages of the line pool (R207). -/
def Dev.linePages (s : Dev) : Nat := linePool (s.drm.dramGib * gib) (s.hif.barGib * gib) s.twn.poolBytes / (2 * mib)

/-! ## Pages and frames (R207) -/

/-- The epoch of a frame's page. -/
def Cache.epochOf (k : Cache) (frame : Nat) : BitVec 32 := (look (frame / 512) k.epochs).getD 0

/-- A page opens for new frames; the epoch of a page that is used again rises. -/
def Cache.openPage (k : Cache) (p : Nat) : Cache :=
  { k with
    frameNext := 512 * p
    epochs := put p (match look p k.epochs with | some e => e + 1 | none => 0) k.epochs }

/-- The next frame of the open page. After its last frame a page opens in which every frame is free; with none left among the pool's
`pages`, the clean lines of a page that holds only such lines are reclaimed (R24, R204); log entry 123 says what is left. -/
def Cache.stepFrame (pages : Nat) (k : Cache) : Cache :=
  let n := k.frameNext + 1
  if n % 512 ≠ 0 then { k with frameNext := n }
  else
    let used := k.lines.map (·.frame / 512)
    match firstFree used pages 0 with
    | some p => k.openPage p
    | none =>
      match used.find? fun p => p < pages && k.lines.all fun l => l.frame / 512 ≠ p || l.st = .clean with
      | some p => { k with lines := dropAll (fun l => l.frame / 512 = p) k.lines }.openPage p
      | none => k.openPage ((firstFree used (used.length + 1) 0).getD 0)

/-- A line enters the pool in the next frame. -/
def Cache.place (pages : Nat) (l : Line) (k : Cache) : Cache :=
  Cache.stepFrame pages { k with lines := k.lines ++ [{ l with frame := k.frameNext, epoch := k.epochOf k.frameNext }] }

/-- A line is written again, to a new frame; the old one is free. -/
def Cache.rewrite (pages : Nat) (l : Line) (f : Line → Line) (k : Cache) : Cache :=
  let this (x : Line) : Bool := x.field = l.field && x.lba = l.lba && x.version = l.version && x.st = l.st
  let new (x : Line) : Line := { f x with frame := k.frameNext, epoch := k.epochOf k.frameNext }
  Cache.stepFrame pages { k with lines := modAll this new k.lines }

/-- A line enters the cache (R207). -/
def Dev.placeLine (s : Dev) (l : Line) : Dev := s.onCache (Cache.place s.linePages l)

/-- A line takes a new frame (R207, R208). -/
def Dev.rewriteLine (s : Dev) (l : Line) (f : Line → Line) : Dev := s.onCache (Cache.rewrite s.linePages l f)

/-! ## The code and the MACs (R205, R206, R208) -/

/-- The channel on which a codeword places a symbol: 20 symbols on each of the eight. -/
def symbolChannel (place : Nat) : Nat := place / 20

/-- The symbols of a codeword that are in error, but for those of an erased channel. -/
def wrongSymbols (errs : List (Nat × Nat)) (erased : Option Nat) (word : Nat) : Nat :=
  (dedup ((errs.filter fun e => e.1 = word && e.2 < 160 && erased ≠ some (symbolChannel e.2)).map (·.2))).length

/-- Whether each of the 32 codewords decodes: 15 symbol errors, or an erased channel and 5 further ones. -/
def codeDecodes (errs : List (Nat × Nat)) (erased : Option Nat) : Bool :=
  (List.range 32).all fun w => wrongSymbols errs erased w ≤ (if erased.isSome then 5 else 15)

/-- What the reads of a frame come to, with the channel concerned. -/
inductive FrameEnd where
  | clean
  | corrected (ch : Nat)
  | recovered (ch : Nat)
  | lost
  deriving DecidableEq, Repr

/-- A read that decodes: the channel of the first symbol that it corrects. -/
def decodedEnd (errs : List (Nat × Nat)) (erased : Option Nat) : FrameEnd :=
  match errs.find? fun e => e.1 < 32 && e.2 < 160 && erased ≠ some (symbolChannel e.2) with
  | some e => .corrected (symbolChannel e.2)
  | none => .clean

/-- The reads of a frame (R208): a failed check causes a second read, and that one eight decodes, each with one channel treated as
erased. A failed channel is erased in every decode, so that another one beside it is beyond the code (R205, R232). `macs` says
whether the content's MACs pass; content that was replaced or moved fails them however it is decoded. -/
def frameOutcome (f : FrameFault) (failed : BitVec 8) (macs : Bool) : FrameEnd :=
  match f with
  | .symbols first again =>
    let erased := (List.range 8).find? fun c => failed.getLsbD c
    if !macs then .lost
    else if codeDecodes first erased then decodedEnd first erased
    else if codeDecodes again erased then decodedEnd again erased
    else match (List.range 8).find? fun c => erased.all (· = c) && codeDecodes again (some c) with
      | some c => .recovered c
      | none => .lost
  | .moved | .directory => .lost

/-- Whether a line's MACs pass: they cover the epoch of its page as it was when the line was written (R206, R207). -/
def Dev.macsPass (s : Dev) (l : Line) : Bool := l.epoch = s.cache.epochOf l.frame

/-- The ciphertext of a line's frame in the DRAM (R206). -/
def Dev.frameCipher (s : Dev) (l : Line) : Block := Config.xtsFrame s.drm.bootKey (Config.frameAddress l.frame) l.data

/-- The MACs of a line's frame in the MAC region, one for each 256 bytes (R206). -/
def Dev.frameMacs (s : Dev) (l : Line) : List (BitVec 56) :=
  (List.range 16).map fun i =>
    Config.frameMac s.drm.bootKey ((s.frameCipher l).extractLsb' (2048 * i) 2048) (Config.frameAddress l.frame + 256 * i) l.epoch

/-- The line directory: the frame of each line by field, LBA and version (R203). -/
def Dev.lineDirectory (s : Dev) : List ((Nat × Nat × Nat) × Nat) := s.cache.lines.map fun l => ((l.field, l.lba, l.version), l.frame)

end Sys2Proof.Machine
end

