-- ==== Sys2Proof/Machine/Queue.lean ====
section
/-!
DEFINITION. Queue pairs: finishing commands, batches (R332 to R334), posting completions (R329, R330), coalesced
messages (R287), parked data (R297) and reads of the rings (R313, R329).
-/

namespace Sys2Proof.Machine

/-- The queue pair with a number. -/
def Dev.pair? (s : Dev) (q : Nat) : Option QPair := s.qs.pairs.find? (·.qid = q)

/-- Changes a queue pair. -/
def Dev.onPair (s : Dev) (q : Nat) (f : QPair → QPair) : Dev :=
  s.onQs fun k => { k with pairs := modAll (·.qid = q) f k.pairs }

/-- Whether a doorbell of the pair is that of an existing queue (R280, R337, R338). -/
def QPair.exists (p : QPair) : Bool := p.live

/-- The requests of a read: each asks for 4,096 bytes at most (R272). -/
def HRead.requests (r : HRead) : Nat := max 1 (ceilDiv r.len 4096)

/-- Whether a further read may begin: at most 2,048 non-posted requests are outstanding (R272). A longer read sends the rest of its
requests as completions of earlier ones arrive. -/
def Dev.readRoom (s : Dev) : Bool := total ((s.qs.hreads.filter fun r => !r.waiting).map HRead.requests) < 2048

/-- A host memory read is issued, or waits until upstream requests go out again (R276, R297, R339) and one more may be outstanding
(R272). -/
def Dev.hostRead (s : Dev) (w : ReadFor) (addr len : Nat) : Dev :=
  let r : HRead := ⟨s.qs.nextRead, w, addr, len, !s.upstream || !s.readRoom⟩
  let s := s.onQs fun q => { q with hreads := q.hreads ++ [r], nextRead := q.nextRead + 1 }
  if r.waiting then s else s.sendUp (.hostRead r)

/-- The reads that wait are issued, in order, as far as R272 lets them. -/
def Dev.issueReads (s : Dev) : Dev :=
  s.each (s.qs.hreads.filter (·.waiting)) fun s r =>
    if s.readRoom then
      (s.onQs fun q => { q with hreads := modAll (·.id = r.id) (fun r => { r with waiting := false }) q.hreads }).sendUp
        (.hostRead { r with waiting := false })
    else s

/-- The length of a burst from a position of a ring: at most 8 entries, not across the end (R313, R329). -/
def burstLen (pos n : Nat) : Nat := min 8 (n - pos)

/-- Reads completion entries ahead from the post position (R329). -/
def Dev.readCq (s : Dev) (q : Nat) : Dev :=
  match s.pair? q with
  | some p =>
    if p.cqRead.isSome || !s.upstream then s
    else
      let n := burstLen p.postPos p.cqN
      let id := s.qs.nextRead
      (s.hostRead (.cqBurst q p.postPos n) (p.cqBase.toNat + 16 * p.postPos) (16 * n)).onPair q
        fun p => { p with cqRead := some id }
  | none => s

/-- Reads submission entries from the scan position, and clears the pending flag (R313). -/
def Dev.readSq (s : Dev) (q : Nat) : Dev :=
  match s.pair? q with
  | some p =>
    if p.burst.isSome || !s.upstream then s
    else
      let n := burstLen p.scanPos p.sqN
      let id := s.qs.nextRead
      let w := if q = 1024 then ReadFor.adminBurst p.scanPos n else .sqBurst q p.scanPos n
      (s.hostRead w (p.sqBase.toNat + 64 * p.scanPos) (64 * n)).onPair q
        fun p => { p with burst := some id, pendingFlag := false }
  | none => s

/-! ## Finishing commands -/

/-- The completion entry of one command (R328). -/
def Cmd.cqe (c : Cmd) : Cqe where
  batched := false
  closed := false
  status := c.status
  tag := c.e.tag
  sqIndex := BitVec.ofNat 16 c.sqIndex
  count := 1
  detail := c.detail

/-- A finished command counted into its batch: the highest rank, and its first entry in consumption order. -/
def Batch.add (b : Batch) (c : Cmd) : Batch :=
  let first := b.left = b.count
  let up := first || statusRank b.worst < statusRank c.status ||
    (statusRank b.worst = statusRank c.status && c.order < b.worstOrder)
  { b with
    left := b.left - 1
    worst := if up then c.status else b.worst
    worstOrder := if up then c.order else b.worstOrder
    worstIndex := if up then c.sqIndex else b.worstIndex
    worstDetail := if up then c.detail else b.worstDetail }

/-- The completion entry of a batch; DETAIL is that of the entry that SQ_INDEX names (R328, R333). -/
def Batch.cqe (b : Batch) : Cqe where
  batched := true
  closed := b.closed
  status := b.worst
  tag := b.tag
  sqIndex := BitVec.ofNat 16 b.worstIndex
  count := BitVec.ofNat 32 b.count
  detail := b.worstDetail

/-- A batch that has ended and whose commands have all finished waits for posting. -/
def Dev.closeBatch (s : Dev) (q no : Nat) : Dev :=
  match s.pair? q with
  | some p =>
    match p.batches.find? fun b => b.no = no && b.ended && b.left = 0 with
    | some b =>
      let ids := (s.qs.cmds.filter fun c => c.qid = q && c.batchNo = no).map (·.id)
      s.onPair q fun p => { p with
        batches := dropAll (·.no = no) p.batches
        waiting := p.waiting ++ [(ids, b.cqe)] }
    | none => s
  | none => s

/-- A command finishes with a status: it waits for its completion to be posted, alone or with its batch. The status of a
malformed one is a free value (R326). -/
def Dev.finish (s : Dev) (id : Nat) (st detail : BitVec 16) : Dev :=
  match s.cmd? id with
  | none => s
  | some c =>
    if c.stage = .finished then s
    else
      let st := if c.malformed then BitVec.ofNat 16 (Config.malformed s.freeCtr) else st
      let c := { c with stage := .finished, status := st, detail := detail }
      let s := if c.malformed then s.drew else s
      let s := s.onCmd id fun _ => c
      match s.pair? c.qid with
      | none => s
      | some p =>
        if p.batching then
          (s.onPair c.qid fun p => { p with
            batches := modAll (·.no = c.batchNo) (fun b => b.add c) p.batches }).closeBatch c.qid c.batchNo
        else s.onPair c.qid fun p => { p with waiting := p.waiting ++ [([id], c.cqe)] }

/-- The uncommitted lines of a command are discarded. -/
def Dev.dropLines (s : Dev) (id : Nat) : Dev :=
  s.onCache fun k => { k with lines := dropAll (fun l => l.cmd = id && l.st = .uncommitted) k.lines }

/-- A write ends before it is durable: its references and uncommitted lines go (R122). -/
def Dev.endWrite (s : Dev) (id : Nat) (st detail : BitVec 16) : Dev :=
  ((s.dropLines id).onCmd id fun c => { c with courses := [], slots := [] }).finish id st detail

/-- A command ends with a status, whatever its kind. -/
def Dev.endCmd (s : Dev) (id : Nat) (st detail : BitVec 16) : Dev :=
  match s.cmd? id with
  | some c => if c.op.isWrite && !c.durable then s.endWrite id st detail else s.finish id st detail
  | none => s

/-- A completion of the admin pair waits for posting. -/
def Dev.adminDone (s : Dev) (tag : BitVec 16) (st detail : BitVec 16) (count : Nat) : Dev :=
  s.onPair 1024 fun p => { p with waiting := p.waiting ++ [([], {
    batched := false, closed := false, status := st, tag := tag,
    sqIndex := BitVec.ofNat 16 ((p.scanPos + p.sqN - 1) % p.sqN), count := BitVec.ofNat 32 count, detail := detail })] }

/-! ## Data toward the host -/

/-- The data segments of one block of a READ: bytes `4096 i` upward of its transfer. -/
def blockSegs (c : Cmd) (i : Nat) : List Seg := segSlice c.segs (4096 * i) 4096

/-- Bytes go into the window, page by page (R218, R249). -/
def Dev.winStore (s : Dev) (off : Nat) (l : List Byte) : Dev :=
  let pages := (List.range (ceilDiv (off % 4096 + l.length) 4096)).map (off / 4096 + ·)
  let own := pages.filter fun p => p * 4096 < s.param .winDumpLimit
  s.onWin fun w => { w with mem := memWrite off l w.mem, unmirrored := own.foldl (fun u p => addNew p u) w.unmirrored }

/-- One block of a READ's data is written to its segments: host memory, or the window. -/
def Dev.sendBlock (s : Dev) (c : Cmd) (i : Nat) (b : Block) : Dev :=
  let parts := blockSegs c i
  let s := s.each ((parts.foldl (fun (acc : List (Seg × Nat) × Nat) g => (acc.1 ++ [(g, acc.2)], acc.2 + g.len))
    ([], 0)).1.filter (·.1.window)) fun s g =>
      match s.segOffset? g.1 with
      | some off => s.winStore off (((blockBytes b).drop g.2).take g.1.len)
      | none => s
  if hostBytes parts = 0 then s else s.sendUp (.dataWrite c.id parts b.toNat s.hif.relaxed)

/-- A finished READ's data goes out: every block that was read cleanly or solved (R99). -/
def Dev.sendData (s : Dev) (c : Cmd) : Dev :=
  let s := s.each c.blks.zipIdx fun s e =>
    match e.1.2 with
    | .ready b _ => s.sendBlock c e.2 (Config.xtsDecrypt (s.keys c.e.fieldId.toNat).xts e.1.1 b)
    | _ => s
  s.onCmd c.id fun c => { c with parkedData := false }

/-- Data of finished commands that was parked while upstream requests stopped (R297, R298). -/
def Dev.sendParked (s : Dev) : Dev := s.each (s.qs.cmds.filter (·.parkedData)) fun s c => s.sendData c

/-! ## Posting -/

/-- Posts the front completion of a pair into the entry at its post position (R329). -/
def Dev.postFront (s : Dev) (q : Nat) : Dev :=
  match s.pair? q with
  | some p =>
    match p.waiting with
    | e :: rest =>
      let now := s.tck.count
      let s := (s.onPair q fun p => { p with
        waiting := rest
        cqKnown := p.cqKnown - 1
        postPos := (p.postPos + 1) % p.cqN
        unsig := p.unsig + 1
        unsigTick := p.unsigTick.or (some now) }).sendUp (.completion q p.postPos e.2)
      let s := s.onQs fun k => { k with cmds := dropAll (fun c => e.1.contains c.id) k.cmds, posted := k.posted + 1 }
      if p.cqKnown ≤ 1 then s.readCq q else s
    | [] => s
  | none => s

/-- Whether the front completion of a pair can be posted now. -/
def Dev.canPost (s : Dev) (q : Nat) : Bool :=
  match s.pair? q with
  | some p => p.waiting ≠ [] && 0 < p.cqKnown && !p.stalled && s.upstream
  | none => false

/-- Posts up to `n` completions of a pair; answers how many are left of the budget. -/
def Dev.postPair : Nat → Nat → Dev → Dev × Nat
  | 0, _, s => (s, 0)
  | n + 1, q, s => if s.canPost q then Dev.postPair n q (s.postFront q) else (s, n + 1)

end Sys2Proof.Machine
end

