-- ==== Sys2Proof/Machine/Store.lean ====
section
/-!
DEFINITION. The Mortar Store: queueing commits, marking writes (R122), destage guards (R123, R255), freeing slots
(R124), filling and landing a batch (R110, R126, R141), fine maps (R130) and the throttle level (R131).
-/

namespace Sys2Proof.Machine

/-- The Mortar Store as a record source. -/
def Dev.srcMst (s : Dev) : BitVec 16 := s.srcEngine 0x90

/-! ## Line numbers (R113, R114, R116) -/

/-- The line of an intent slot. -/
def slotLine (i : Nat) : Nat := 256 + i

/-- The line of a field's coarse map. -/
def coarseLine (f : Nat) : Nat := 2304 + f / 16

/-- The line of a field's entry in the field table: two entries of 32 bytes to a line. -/
def entryLine (f : Nat) : Nat := 16 + f / 2

/-- The line of a lease entry: 16 entries of 4 bytes to a line. -/
def leaseLine (n : Nat) : Nat := 144 + n / 16

/-- The first line of a reshape record. -/
def reshapeLine (r : Nat) : Nat := 174 + 4 * r

/-- The fine block of a field with an ordinal. -/
def Dev.fineBlock? (s : Dev) (f ordinal : Nat) : Option Nat :=
  (s.mst.leases.find? fun e => e.2.1 = f && e.2.2 = ordinal).map (·.1)

/-- The line that holds a fine bit. -/
def Dev.fineLine (s : Dev) (f r : Nat) : Nat :=
  2320 + 8 * (s.fineBlock? f (r / 4096)).getD 0 + r % 4096 / 512

/-- The line that holds the furrow bit of a region. -/
def Dev.furrowLine (s : Dev) (f : Nat) (fine : Bool) (r : Nat) : Nat := if fine then s.fineLine f r else coarseLine f

/-! ## Queueing -/

/-- A commit waits for a Commit phase. -/
def Dev.pushCommit (s : Dev) (c : Commit) : Dev := s.onMst fun m => { m with queue := m.queue ++ [c] }

/-- A header commit of class 1 without a command. -/
def Dev.header (s : Dev) (line : Nat) (ch : Change) : Dev := s.pushCommit ⟨1, line, ch, none, none⟩

/-- The field table entry of a field is committed anew. -/
def Dev.commitEntry (s : Dev) (f : Nat) : Dev := s.header (entryLine f) (.fieldEntry f)

/-- The landed field entry of a field ID (R115). -/
def Dev.entry? (s : Dev) (f : Nat) : Option FieldEntry := look f s.mst.entries

/-- Whether the landed entry of a field ID says that this chip owns the field. -/
def Dev.ownsEntry (s : Dev) (f : Nat) : Bool := (s.entry? f).any (·.owned)

/-- Whether a commit that sets a furrow bit waits: one of its own, or that of a slot for the region. -/
def Dev.bitQueued (s : Dev) (f : Nat) (fine : Bool) (r : Nat) : Bool :=
  (s.mst.queue ++ s.mst.retry).any fun c => match c.change with
    | .slotMake x => x.field = f && x.fine = fine && x.region = r
    | .fineSet g n => fine && g = f && n = r
    | .coarseSet g n => !fine && g = f && n = r
    | _ => false

/-- Sets a furrow bit by a commit, unless it is set or on its way. -/
def Dev.setBit (s : Dev) (cls : Nat) (f : Nat) (fine : Bool) (r : Nat) (cmd job : Option Nat) : Dev :=
  if s.furrow f fine r || s.bitQueued f fine r then s
  else s.pushCommit ⟨cls, s.furrowLine f fine r, if fine then .fineSet f r else .coarseSet f r, cmd, job⟩

/-- The slot of a region, valid or about to be made. -/
def Dev.slotFor? (s : Dev) (f : Nat) (fine : Bool) (r : Nat) : Option Nat :=
  match s.slotOf? f fine r with
  | some x => some x.idx
  | none => ((s.slotsMaking.find? fun x => x.field = f && x.fine = fine && x.region = r).map (·.idx))

/-- A slot as it is validated for a region (R117, R120). -/
def Field.newSlot (f : Field) (i : Nat) (fine : Bool) (r : Nat) : Slot :=
  ⟨i, fine, f.id, r, f.segShift fine r, [], 0⟩

/-- Validates a slot for a region by a commit, which sets the region's furrow bit too when that is clear (R122). -/
def Dev.makeSlot (s : Dev) (cls : Nat) (f : Field) (i : Nat) (fine : Bool) (r : Nat) (cmd job : Option Nat) : Dev :=
  s.pushCommit ⟨cls, slotLine i, .slotMake (f.newSlot i fine r), cmd, job⟩

/-! ## Marking a write (R122) -/

/-- The loose slots that task 0x02 leaves a field for this tick. -/
def Dev.leaseLeft (s : Dev) (f : Nat) : Nat := (look f s.tasks.slots).getD 0

/-- The regions of a list of courses, each once. -/
def Field.regions (f : Field) (l : List (Nat × Bool)) : List (Bool × Nat) :=
  l.foldl (fun acc c => addNew (f.region c.2 c.1) acc) []

/-- Whether a slot takes no new reference: it is lent to a fine region and wanted as a home slot (R121). -/
def Dev.slotClosed (s : Dev) (i : Nat) : Bool :=
  (s.mst.homeReserved.contains (i / 16) || s.homeSlots.contains i) && s.mst.slots.any fun x => x.idx = i && x.fine

/-- Whether the home slot of a coarse region is still lent to a fine region, as after a reshape that has added capacity. -/
def Dev.homeLent (s : Dev) (f : Field) (r : Bool × Nat) : Bool :=
  !r.1 && s.mst.slots.any fun x => some x.idx = f.homeSlot? r.2 && x.fine

/-- Whether the slots that a write needs are at hand: home slots always, fine regions from the lease budget. -/
def Dev.slotsAtHand (s : Dev) (f : Field) (rs : List (Bool × Nat)) : Bool :=
  f.homeIndex.isNone ||
  (let fresh := rs.filter fun r => r.1 && (s.slotFor? f.id r.1 r.2).isNone
   fresh.length ≤ min (s.leaseLeft f.id) s.freeLoose.length && !rs.any (s.homeLent f) &&
   rs.all fun r => match s.slotFor? f.id r.1 r.2 with
     | some i => !s.slotClosed i
     | none => true)

/-- Marks one region for a write: its slot and its furrow bit by class 3 commits; answers the slot. -/
def Dev.markRegion (s : Dev) (f : Field) (cmd : Nat) (r : Bool × Nat) : Dev × List Nat :=
  if f.homeIndex.isNone then (s.setBit 3 f.id r.1 r.2 (some cmd) none, [])
  else match s.slotFor? f.id r.1 r.2 with
    | some i => (s.setBit 3 f.id r.1 r.2 (some cmd) none, [i])
    | none =>
      let i := if r.1 then s.freeLoose.headD 0 else (f.homeSlot? r.2).getD 0
      let s := s.makeSlot 3 f i r.1 r.2 (some cmd) none
      let s := if r.1 then s.onTasks fun t => { t with slots := put f.id (s.leaseLeft f.id - 1) t.slots } else s
      (s, [i])

/-- Marks the regions of a write; answers the slots that it is attributed to. -/
def Dev.markWrite (s : Dev) (f : Field) (cmd : Nat) (rs : List (Bool × Nat)) : Dev × List Nat :=
  rs.foldl (fun acc r => let x := acc.1.markRegion f cmd r; (x.1, acc.2 ++ x.2)) (s, [])

/-- The third condition of R18: every slot and furrow bit of a write is committed. -/
def Dev.marksLanded (s : Dev) (c : Cmd) : Bool :=
  let queued := (s.mst.queue ++ s.mst.retry).any fun k => k.cmd = some c.id
  !queued && (c.slots.all fun i => s.mst.slots.any fun x => x.idx = i && s.furrow x.field x.fine x.region) &&
  (match s.field? c.e.fieldId.toNat with
   | some f => f.homeIndex.isSome || (f.regions c.courses).all fun r => s.furrow f.id r.1 r.2
   | none => true)

/-- Whether an LBA's course lies in the region of a slot. -/
def Field.inSlot (f : Field) (x : Slot) (lba : Nat) : Bool :=
  let p := f.place lba
  let l := f.firstLba p.geom p.course
  x.field = f.id && (if x.fine then f.fineRegion l else f.coarseRegion l) = x.region

/-- The slot that a restored line is attributed to: a valid one whose region holds its course, a fine one first (R229). -/
def Dev.lineSlot (s : Dev) (f : Field) (lba : Nat) : Option Nat :=
  let l := s.mst.slots.filter fun x => f.inSlot x lba
  ((l.find? (·.fine)).or l.head?).map (·.idx)

/-- The slot that a line of a write is attributed to: that of its command's slots whose region holds its course. -/
def Dev.cmdSlot (s : Dev) (f : Field) (c : Cmd) (lba : Nat) : Option Nat :=
  c.slots.find? fun i => ((s.mst.slots ++ s.slotsMaking).find? (·.idx = i)).any fun x => f.inSlot x lba

/-! ## Guards (R123, R255) -/

/-- The slot of a course's newest reference: that of its newest dirty line, else that of its region. -/
def Dev.guardSlot? (s : Dev) (f : Field) (c : Nat) (g : Bool) : Option Nat :=
  match newestOf ((s.courseLines f c g).filter fun l => l.slot.isSome) with
  | some l => l.slot
  | none => let r := f.region g c; s.slotFor? f.id r.1 r.2

/-- LIST entries of a slot, those on their way included. -/
def Dev.listCount (s : Dev) (i : Nat) : Nat :=
  ((s.mst.slots.find? (·.idx = i)).map (·.list.length)).getD 0 +
  ((s.mst.queue ++ s.mst.retry).filter fun c => match c.change with
    | .listAdd k _ _ => k = i
    | _ => false).length

/-- Whether a job's writes are guarded (R112, R123). -/
def JobKind.guards : JobKind → Bool
  | .destage | .seal | .lostLine => true
  | .solve | .rebuild | .resync | .scrub | .reshape => false

/-- Queues the guard of a job for a course as a class 4 commit: a LIST entry, or the OVERFLOW bit when the LIST is
full; a slot is validated first where the region has none. A field without home index takes its coarse bit. -/
def Dev.queueGuard (s : Dev) (j : Nat) (f : Field) (c : Nat) (g : Bool) : Dev :=
  if f.homeIndex.isNone then
    let r := f.coarseRegion (f.firstLba g c)
    (s.setBit 4 f.id false r none (some j)).onJob j fun b => { b with guardQueued := true }
  else
    let r := f.region g c
    let old := s.guardSlot? f c g
    let i := old.getD (if r.1 then s.freeLoose.headD 0 else (f.homeSlot? r.2).getD 0)
    let sl := ((s.mst.slots ++ s.slotsMaking).find? (·.idx = i)).getD (f.newSlot i r.1 r.2)
    let s := if old.isNone then s.makeSlot 4 f i r.1 r.2 none (some j) else s.setBit 4 f.id sl.fine sl.region none (some j)
    let full := 6 ≤ s.listCount i
    let ch := if full then Change.overflowSet i (f.segment sl g c) else .listAdd i c g
    (s.pushCommit ⟨4, slotLine i, ch, none, some j⟩).onJob j fun b =>
      { b with guardQueued := true, slot := some i, overflow := full }

/-- Condition 1 of R123 for a job whose guard has been queued. -/
def Dev.guarded (s : Dev) (j : Job) (f : Field) : Bool :=
  if f.homeIndex.isNone then s.furrow f.id false (f.coarseRegion (f.firstLba j.geom j.course)) else j.guardLanded

/-- Condition 2 of R123: the newest landed replica, which every ACTIVE and REBUILDING member at positions 0 to 2 holds, carries the
course's furrow bit; none is needed when those positions have no such member. -/
def Dev.inReplica (f : Field) (fine : Bool) (r : Nat) : Bool :=
  f.replicaMembers = [] ||
  (f.replicaMembers.all f.repOn.contains && (if fine then f.repFine.contains r else f.repCoarse.getLsbD r))

/-- Condition 3 of R123: with a live partner, an acknowledged checkpoint carries the bit. -/
def Dev.inCkpt (s : Dev) (f : Field) (fine : Bool) (r : Nat) : Bool :=
  !s.partner || (if fine then f.ckptAckedFine.contains r else f.ckptAckedCoarse.getLsbD r)

/-- The region under whose mark a job writes. -/
def Dev.jobRegion (s : Dev) (j : Job) (f : Field) : Bool × Nat :=
  match (s.mst.slots.find? fun x => some x.idx = j.slot) with
  | some x => (x.fine, x.region)
  | none => f.region j.geom j.course

/-- The three conditions of R123 together. -/
def Dev.mayWrite (s : Dev) (j : Job) (f : Field) : Bool :=
  let r := s.jobRegion j f
  s.guarded j f && s.furrow f.id r.1 r.2 && Dev.inReplica f r.1 r.2 && s.inCkpt f r.1 r.2

/-- The guard of a job that ends is removed: by a class 5 commit once it has landed, or is about to be repeated; a guard that still waits
leaves the queue. The guard of a job whose writes have not all landed, in a field that has FAILED among them, stays, since its course may be
mixed (R123, R125, R141). -/
def Dev.dropGuard (s : Dev) (j : Job) : Dev :=
  match j.slot, s.field? j.field with
  | some i, some f =>
    let guards (c : Commit) : Bool := c.job = some j.id && (match c.change with
      | .listAdd _ _ _ => true
      | .overflowSet _ _ => true
      | _ => false)
    let again := s.mst.retry.any guards
    let s := s.onMst fun m => { m with queue := dropAll guards m.queue }
    if s.mst.failed || !(j.guardLanded || again) || (j.queued && (0 < j.writesLeft || f.failed)) then s
    else if j.overflow then
      match s.mst.slots.find? (·.idx = i) with
      | some sl =>
        let seg := f.segment sl j.geom j.course
        let busy := s.cache.jobs.any fun k => k.id ≠ j.id && k.slot = some i && k.overflow &&
          f.segment sl k.geom k.course = seg
        if busy then s else s.pushCommit ⟨5, slotLine i, .overflowClear i seg, none, none⟩
      | none => s
    else s.pushCommit ⟨5, slotLine i, .listRemove i j.course j.geom, none, none⟩
  | _, _ => s

/-- Whether a running job has its guard in a slot: in a LIST entry of its course, or in an OVERFLOW bit. -/
def Dev.guardHeld (s : Dev) (i : Nat) (course : Option (Nat × Bool)) : Bool :=
  s.cache.jobs.any fun j => j.slot = some i && (match course with
    | some c => !j.overflow && c = (j.course, j.geom)
    | none => j.overflow)

/-- The references that the slots of a field hold and no running job guards are removed: the field has left this chip, or the courses
that they name have been resynced or are marked with their region (R124, R136, R138, log entry 113). -/
def Dev.dropSlots (s : Dev) (fid : Nat) : Dev :=
  s.each (s.mst.slots.filter (·.field = fid)) fun s x =>
    let s := s.each x.list fun s e =>
      if s.guardHeld x.idx (some e) then s else s.pushCommit ⟨5, slotLine x.idx, .listRemove x.idx e.1 e.2, none, none⟩
    if s.guardHeld x.idx none then s
    else s.each (bitsOf 64 x.overflow.toNat) fun s g => s.pushCommit ⟨5, slotLine x.idx, .overflowClear x.idx g, none, none⟩

/-! ## Freeing slots and bits (R124, R138, R255) -/

/-- Whether a slot has a reference (R122). -/
def Dev.slotRefs (s : Dev) (i : Nat) : Bool :=
  (s.cache.lines.any fun l => l.slot = some i && l.dirty) || (s.qs.cmds.any fun c => c.slots.contains i) ||
  (s.cache.jobs.any fun j => j.slot = some i)

/-- Whether a region is marked for whole-region resync. -/
def Dev.regionMarked (s : Dev) (f : Nat) (fine : Bool) (r : Nat) : Bool :=
  match s.field? f with
  | some x => x.marked.contains (fine, r)
  | none => false

/-- Whether a region has dirty lines or a job that writes in it. -/
def Dev.regionBusy (s : Dev) (f : Field) (fine : Bool) (r : Nat) : Bool :=
  let inside (lba : Nat) : Bool := if fine then f.fineRegion lba = r else f.coarseRegion lba = r
  (s.cache.lines.any fun l => l.field = f.id && l.dirty && (let p := f.place l.lba; inside (f.firstLba p.geom p.course))) ||
  (s.qs.cmds.any fun c => c.e.fieldId.toNat = f.id && c.courses.any fun x => inside (f.firstLba x.2 x.1)) ||
  (s.cache.jobs.any fun j => j.field = f.id && (j.kind = .destage || j.kind = .seal || j.kind = .lostLine) &&
    inside (f.firstLba j.geom j.course))

/-- Whether the references of a field's slots are known: after a start, its assembly, its owner and its restored lines are
settled (R229, R452). -/
def Dev.refsKnown (s : Dev) (f : Nat) : Bool :=
  match s.field? f with
  | some x => x.assembled && !x.ownerWait && (!x.restoreWait || !x.owned)
  | none => s.sys.restoreChosen && s.vlt.restoring.isNone

/-- A slot after the removals that wait for a Commit phase: they come before any free in a batch. -/
def Dev.slotAfter (s : Dev) (x : Slot) : Slot :=
  (s.mst.retry ++ s.mst.queue).foldl (fun x c => match c.change with
    | .listRemove i k g => if i = x.idx then { x with list := dropAll (· = (k, g)) x.list } else x
    | .overflowClear i g => if i = x.idx then { x with overflow := x.overflow &&& ~~~(1#64 <<< g) } else x
    | _ => x) x

/-- The slots that may be freed in this phase: no reference counts, and LIST and OVERFLOW are empty, or become so in the same batch. -/
def Dev.freeSlots (s : Dev) : List Slot :=
  s.mst.slots.filter fun x => (s.slotAfter x).list = [] && (s.slotAfter x).overflow = 0 && s.refsKnown x.field && !s.slotRefs x.idx &&
    !(s.mst.queue ++ s.mst.retry).any fun c => match c.change with
      | .listAdd i _ _ => i = x.idx
      | .overflowSet i _ => i = x.idx
      | _ => false

/-- Whether R138 and R255 hold a coarse bit that no slot names. -/
def Dev.bitKept (s : Dev) (f r : Nat) : Bool :=
  match s.field? f with
  | some x => x.owned && (x.marked.contains (false, r) || s.regionBusy x false r)
  | none => false

/-- The coarse bits that no slot names and that R138 and R255 let clear; those of a field that this chip no longer has among them. -/
def Dev.looseBits (s : Dev) : List (Nat × Nat) :=
  s.mst.coarse.flatMap fun e => if !s.refsKnown e.1 then [] else
    ((List.range 16).filter fun r => e.2.getLsbD r && !s.bitKept e.1 r && (s.slotFor? e.1 false r).isNone &&
      !s.bitQueued e.1 false r).map (e.1, ·)

/-- Class 5 commits that the phase itself finds: slot frees and bit clears. -/
def Dev.foundClears (s : Dev) : List Commit :=
  (s.freeSlots.map fun x => ⟨5, slotLine x.idx, .slotFree x.idx, none, none⟩) ++
  (s.looseBits.map fun b => ⟨5, coarseLine b.1, .coarseClear b.1 b.2, none, none⟩)

/-! ## Filling a batch (R126) -/

/-- The store lines that a commit programs. -/
def Dev.linesOf (s : Dev) (c : Commit) : List Nat :=
  match c.change with
  | .slotMake x => if s.furrow x.field x.fine x.region then [slotLine x.idx] else [slotLine x.idx, s.furrowLine x.field x.fine x.region]
  | .slotFree i =>
    match s.mst.slots.find? (·.idx = i) with
    | some x => [slotLine i, s.furrowLine x.field x.fine x.region]
    | none => [slotLine i]
  | .reshapeRec r x => if (look r s.mst.reshapes).any (·.startGen = x.startGen) then [reshapeLine r] else (List.range 4).map (reshapeLine r + ·)
  | .reshapeFree r => (List.range 4).map (reshapeLine r + ·)
  | .lease f l => l.foldl (fun acc e => addNew (leaseLine e.1) acc) [entryLine f]
  | .update m x _ => (if m.isSome then [8, 9] else []) ++ (if x.isSome then [10, 11, 12, 13] else [])
  | .counter _ _ => [4, 5, 6, 7]
  | .leaseDrop f => entryLine f :: ((s.mst.leases.filter fun e => e.2.1 = f).map fun e => leaseLine e.1)
  | _ => [c.lineNo]

/-- Adds the lines of a commit to a set of lines. -/
def addLines (l : List Nat) (new : List Nat) : List Nat := new.foldl (fun acc x => addNew x acc) l

/-- Takes commits in order while the lines of the batch stay within `cap`; answers those taken, those left and the
lines of the batch. -/
def Dev.takeFit (s : Dev) (cap : Nat) : List Commit → List Nat → List Commit × List Commit × List Nat
  | [], u => ([], [], u)
  | c :: l, u =>
    let u2 := addLines u (s.linesOf c)
    if u2.length ≤ cap then
      let r := s.takeFit cap l u2
      (c :: r.1, r.2.1, r.2.2)
    else ([], c :: l, u)

/-- Whether a write commit takes part: from the tick after its command's admission (R122), and not while its field waits for
the fence (R254). -/
def Dev.ripe (s : Dev) (c : Commit) : Bool :=
  match c.cmd.bind s.cmd? with
  | some x => x.admitTick ≠ s.tck.count && !s.twn.fenced.contains x.e.fieldId.toNat
  | none => true

/-- A batch: what it holds, the queue that stays, and its lines. -/
structure Batch64 where
  taken : List Commit
  left : List Commit
  lines : List Nat
  deriving DecidableEq, Repr

/-- Fills the batch of a Commit phase by class (R126): repeated lines and rewrites first, at most four header
lines or the one header change that needs more (R130), write commits up to what classes 4 and 5 keep in reserve, then classes 4 and 5. -/
def Dev.fillBatch (s : Dev) : Batch64 :=
  let q := s.mst.queue
  let again := s.takeFit 64 (s.mst.retry ++ q.filter (·.cls = 0)) []
  let u0 := again.2.2
  let q1 := q.filter (·.cls = 1)
  let first := ((q1.head?).map fun c => (addLines [] (s.linesOf c)).length).getD 0
  let hdr := s.takeFit (min 64 (u0.length + max 4 first)) q1 u0
  let g := q.filter (·.cls = 4)
  let e := q.filter (·.cls = 5) ++ s.foundClears
  let pend := (addLines [] ((g ++ e).flatMap s.linesOf)).length
  let keep := min (s.param .mstDestageReserve) pend
  let wr := q.filter fun c => c.cls = 2 || c.cls = 3
  let w := s.takeFit (64 - keep) (wr.filter s.ripe) hdr.2.2
  let gd := s.takeFit 64 g w.2.2
  let ed := s.takeFit 64 e gd.2.2
  { taken := again.1 ++ hdr.1 ++ w.1 ++ gd.1 ++ ed.1
    left := again.2.1 ++ hdr.2.1 ++ w.2.1 ++ wr.filter (fun c => !s.ripe c) ++ gd.2.1 ++
      ed.2.1.filter (fun c => q.contains c)
    lines := ed.2.2 }

/-! ## Landing (R110) -/

/-- The field's checkpoint lines have changed (R135). -/
def Dev.ckptChanged (s : Dev) (f : Nat) : Dev := s.onTwn fun t => { t with ckptDirty := addNew f t.ckptDirty }

/-- A coarse bit changes. -/
def Dev.putCoarse (s : Dev) (f r : Nat) (b : Bool) : Dev :=
  let v := s.coarseMap f
  let bit := 1#16 <<< r
  (s.onMst fun m => { m with coarse := put f (if b then v ||| bit else v &&& ~~~bit) m.coarse }).ckptChanged f

/-- A fine bit changes. -/
def Dev.putFine (s : Dev) (f r : Nat) (b : Bool) : Dev :=
  (s.onMst fun m => { m with fine := if b then addNew (f, r) m.fine else dropAll (· = (f, r)) m.fine }).ckptChanged f

/-- Changes a valid slot. -/
def Dev.onSlot (s : Dev) (i : Nat) (f : Slot → Slot) : Dev :=
  s.onMst fun m => { m with slots := modAll (·.idx = i) f m.slots }

/-- The guard of a job has landed. -/
def Dev.guardDone (s : Dev) (j : Option Nat) : Dev :=
  match j with
  | some j => s.onJob j fun b => { b with guardLanded := true }
  | none => s

/-- A slot leaves, and its furrow bit clears unless another valid slot names the region or the region is marked for
whole-region resync (R124, R138). -/
def Dev.freeSlot (s : Dev) (i : Nat) : Dev :=
  match s.mst.slots.find? (·.idx = i) with
  | none => s
  | some x =>
    let s := s.onMst fun m => { m with slots := dropAll (·.idx = i) m.slots }
    if (s.slotOf? x.field x.fine x.region).isSome || s.regionMarked x.field x.fine x.region then s
    else if x.fine then s.putFine x.field x.region false else s.putCoarse x.field x.region false

/-- The fine blocks that a field leases, as landed. -/
def Dev.leasedBlocks (s : Dev) (f : Nat) : Nat := (s.mst.leases.filter (·.2.1 = f)).length

/-- What the entry of a field ID is to hold: the field as the chip has it, with the fine map whose leases have landed; or the partner's
entry as its checkpoint brought it, with OWNED 0 and no home index (R115, R135, R250). -/
def Dev.entryNow? (s : Dev) (f : Nat) : Option FieldEntry :=
  match s.field? f with
  | some x =>
    let n := s.leasedBlocks f
    some ⟨x.uuid, x.owned, x.homeIndex, x.coarseShift, if n = 0 then 0 else x.fineShift, n⟩
  | none => s.mst.partnerLines.findSome? fun l => match l with
    | .fieldEntry i u v cs fs n => if i = f && v then some ⟨u, false, none, cs, fs, n⟩ else none
    | _ => none

/-- The entry of a field lands, or its deletion. -/
def Dev.landEntry (s : Dev) (f : Nat) : Dev :=
  (match s.entryNow? f with
   | some e => s.onMst fun m => { m with entries := put f e m.entries }
   | none => s.onMst fun m => { m with entries := dropAll (·.1 = f) m.entries }).ckptChanged f

/-- The update marker as the chip has it now (R399). -/
def Upd.markerNow (u : Upd) : UpdMarker :=
  ⟨u.activeSlot, u.copyArmed, u.slot0, u.slot1, u.unconfBoots, u.seedState, u.rejectReason, u.updateSeq⟩

/-- The session record as the chip has it now (R401). -/
def Upd.sessionNow (u : Upd) : UpdSession :=
  ⟨u.sessionId, u.hostJoined, u.mgmtJoined, u.openerMgmt, u.idleS, u.chunkCount, u.digest, u.received, u.provisional⟩

/-- Update lines land. With a session that ends or a new one the seedbed is erased in the background (R407, R410). -/
def Upd.keep (u : Upd) (m : Option UpdMarker) (x : Option UpdSession) : Upd :=
  let newId : Bool := match x with
    | some x => x.sessionId ≠ u.sessionKept.sessionId
    | none => false
  let clear : Bool := match m with
    | some m => m.seedState = 0 || (m.seedState = 1 && newId)
    | none => false
  let u := { u with markerKept := m.getD u.markerKept, sessionKept := x.getD u.sessionKept }
  if clear then { u with chunks := [], manifest := none, erasing := true } else u

/-- One change of the store lands. -/
def Dev.land (s : Dev) (c : Commit) : Dev :=
  match c.change with
  | .slotMake x =>
    let s := s.onMst fun m => { m with slots := dropAll (·.idx = x.idx) m.slots ++ [x] }
    if x.fine then s.putFine x.field x.region true else s.putCoarse x.field x.region true
  | .coarseSet f r => s.putCoarse f r true
  | .fineSet f r => s.putFine f r true
  | .listAdd i k g => (s.onSlot i fun x => { x with list := x.list ++ [(k, g)] }).guardDone c.job
  | .overflowSet i g =>
    ((s.onSlot i fun x => { x with overflow := x.overflow ||| (1#64 <<< g) }).count .mstOverflowSets).guardDone c.job
  | .listRemove i k g => s.onSlot i fun x => { x with list := dropAll (· = (k, g)) x.list }
  | .overflowClear i g => s.onSlot i fun x => { x with overflow := x.overflow &&& ~~~(1#64 <<< g) }
  | .slotFree i => s.freeSlot i
  | .coarseClear f r => s.putCoarse f r false
  | .fineClear f r => s.putFine f r false
  | .fieldEntry f => s.landEntry f
  | .lease f l => (s.onMst fun m => { m with leases := m.leases ++ l.map fun e => (e.1, f, e.2) }).landEntry f
  | .leaseDrop f => ((s.onMst fun m => { m with leases := dropAll (fun e => e.2.1 = f) m.leases }).onField f fun x =>
      { x with fineRelease := false, fineShift := 0, fineBlocks := 0 }).landEntry f
  | .fineZero n k =>
    (match s.mst.leases.find? (·.1 = n) with
     | some e => (s.onMst fun m => { m with fine := dropAll (fun b => b.1 = e.2.1 && b.2 / 512 = e.2.2 * 8 + k) m.fine }).ckptChanged e.2.1
     | none => s)
  | .reshapeRec r x => (s.onMst fun m => { m with reshapes := put r x m.reshapes }).ckptChanged x.fieldId
  | .reshapeFree r =>
    match look r s.mst.reshapes with
    | some x => (s.onMst fun m => { m with reshapes := dropAll (·.1 = r) m.reshapes }).ckptChanged x.fieldId
    | none => s
  | .update m x _ => s.onUpd fun u => u.keep m x
  | .counter c _ => s.onMst fun m => { m with counterKept := c }
  | .rewrite => s

/-- The update lines are committed as they stand: the marker, the session record, or both in one batch (R399, R407). While no ticks run
the Keystone programs them itself. -/
def Dev.commitUpd (s : Dev) (marker session : Bool) (p : Option MbxPath) : Dev :=
  let m := if marker then some s.upd.markerNow else none
  let x := if session then some s.upd.sessionNow else none
  if s.tck.running then s.header (if marker then 8 else 10) (.update m x p) else s.onUpd fun u => u.keep m x

/-- The boot counter lines are committed as they stand, all four in one batch (R388). -/
def Dev.commitCounter (s : Dev) (p : Option MbxPath) : Dev :=
  let c : CounterLine := ⟨s.mst.bootCount, s.mst.ownerGen, s.mst.ownerDigest⟩
  if s.tck.running then s.header 4 (.counter c p) else s.onMst fun m => { m with counterKept := c }

/-! ## Faults of the store (R140, R141) -/

/-- Counts a program failure of a line. -/
def failCount (l : List (Nat × Nat)) (n : Nat) : List (Nat × Nat) := put n ((look n l).getD 0 + 1) l

/-- Lines of the batch with errors: corrected lines, and lines rewritten from the image, join the next batch. -/
def Dev.storeErrors (s : Dev) (ok bad : List Nat) : Dev :=
  let s := s.each ok fun s n => ((s.count .mstEccCorrected).record 0x0120 s.srcMst n 0 0).pushCommit ⟨0, n, .rewrite, none, none⟩
  s.each bad fun s n => ((s.count .mstEccUncorrected).record 0x0121 s.srcMst n 0 0).pushCommit ⟨0, n, .rewrite, none, none⟩

/-! ## Fine maps (R130) -/

/-- The free fine blocks. -/
def Dev.freeFineBlocks (s : Dev) : List Nat :=
  let used := s.mst.leases.map (·.1) ++ (s.mst.queue ++ s.mst.retry).flatMap fun c => match c.change with
    | .lease _ l => l.map (·.1)
    | _ => []
  (List.range 478).filter fun n => !used.contains n

/-- A grant of `k` fine blocks: one batch of the lease entries and the field entry. -/
def Dev.grantFine (s : Dev) (f : Field) (k : Nat) : Dev :=
  let blocks := s.freeFineBlocks.take k
  if k = 0 || blocks.length < k || f.fineBlocks ≠ 0 || f.fineRelease then s
  else
    (s.header (entryLine f.id) (.lease f.id blocks.zipIdx)).onField f.id fun x => { x with fineShift := fineShiftOf f.capacity k, fineBlocks := k }

/-- A release begins: the field returns to coarse marking. -/
def Dev.releaseFine (s : Dev) (f : Nat) : Dev :=
  s.onField f fun x => if x.fineBlocks = 0 then x else { x with fineUse := false, fineRelease := true }

/-- At a tick boundary: a granted map whose batch has landed comes into marking use; a map in release whose slots
have drained has its set lines zeroed, and then its leases cleared (R130). -/
def Dev.stepFine (s : Dev) (f : Field) : Dev :=
  let pend := (s.mst.queue ++ s.mst.retry).any fun c => match c.change with
    | .lease g _ => g = f.id
    | .leaseDrop g => g = f.id
    | .fieldEntry g => g = f.id
    | .fineZero n _ => s.mst.leases.any fun e => e.1 = n && e.2.1 = f.id
    | _ => false
  if f.fineBlocks = 0 || pend then s
  else if !f.fineRelease then
    if f.fineUse then s
    else (s.record 0x3032 (s.srcField f.id) 0 0 0).onField f.id fun x => { x with fineUse := true }
  else if (s.mst.slots.any fun x => x.fine && x.field = f.id) || (f.marked.any (·.1)) then s
  else
    let set := s.mst.fine.filter fun b => b.1 = f.id
    if set = [] then (s.record 0x3033 (s.srcField f.id) 0 0 0).header (entryLine f.id) (.leaseDrop f.id)
    else s.each (addLines [] (set.map fun b => s.fineLine f.id b.2)) fun s n =>
      s.pushCommit ⟨5, n, .fineZero ((n - 2320) / 8) ((n - 2320) % 8), none, none⟩

/-- At a tick boundary: leases of a field that has no fine map any more, because it has left this chip, go the same way (R116, R130, log
entry 113). -/
def Dev.stepLeases (s : Dev) : Dev :=
  let mapless (f : Nat) : Bool := match s.field? f with
    | some x => x.fineBlocks = 0
    | none => true
  s.each ((dedup (s.mst.leases.map (·.2.1))).filter mapless) fun s f =>
    let pend := (s.mst.queue ++ s.mst.retry).any fun c => match c.change with
      | .lease g _ => g = f
      | .leaseDrop g => g = f
      | .fineZero n _ => s.mst.leases.any fun e => e.1 = n && e.2.1 = f
      | _ => false
    if pend || s.mst.slots.any fun x => x.fine && x.field = f then s
    else
      let set := s.mst.fine.filter fun b => b.1 = f
      if set = [] then s.header (entryLine f) (.leaseDrop f)
      else s.each (addLines [] (set.map fun b => s.fineLine f b.2)) fun s n =>
        s.pushCommit ⟨5, n, .fineZero ((n - 2320) / 8) ((n - 2320) % 8), none, none⟩

/-! ## Throttle level (R131) -/

/-- The level of this Admit phase, and its record and event when it rises to 2 or 3 or returns to 0. -/
def Dev.throttle (s : Dev) : Dev :=
  let q := s.tasks.quota
  let new := if s.qs.slotHeldNow ≠ [] then 3 else if q ≥ 512 then 0 else if s.param .mstQuotaMin < q then 1 else 2
  let old := s.mst.level
  let s := s.onMst fun m => { m with level := new }
  let s := s.when ((old < new && 2 ≤ new) || (0 < old && new = 0)) fun s => s.record 0x0124 s.srcMst new 0 0
  s.when (old < new && 2 ≤ new) fun s => s.event 6

end Sys2Proof.Machine
end

