-- ==== Sys2Proof/Machine/Labels.lean ====
section
/-!
DEFINITION. Member commands and the structures of the label region: labels (R72 to R77, R490), the lost-course list
(R78, R79), furrow-map replicas (R133, R134), rebuild progress blocks (R154) and reshape checkpoint blocks (R173).
-/

namespace Sys2Proof.Machine

/-! ## Member commands -/

/-- A member command waits for an Issue phase. A write carries FUA when the member has a volatile write cache, and
a replica write always does (R63, R133). -/
def Dev.memberCmd (s : Dev) (m : Nat) (op : MOp) (lba nlb : Nat) (pl : MPayload) (fua share scrub : Bool)
    (why : Purpose) : Dev :=
  let vwc := ((s.member? m).map (·.vwc)).getD false
  let tail := if op = .write then ((s.member? m).map (·.metaBytes)).getD 0 - 16 else 0
  s.onMpt fun p => { p with
    cmds := p.cmds ++ [⟨p.nextCmd, m, op, lba, nlb, pl, tail, op = .write && (fua || vwc), why, share, scrub, none, false, false⟩]
    nextCmd := p.nextCmd + 1 }

/-- An admin command goes to the controller of a member (R62). -/
def Dev.memberAdmin (s : Dev) (m : Nat) (c : AdminCmd) : Dev := s.emit (.memberAdmin m c)

/-- A write of one structure of the label region. -/
def Dev.labelWrite (s : Dev) (m lba nlb : Nat) (pl : MPayload) (fua : Bool) (why : Purpose) : Dev :=
  s.memberCmd m .write lba nlb pl fua false false why

/-! ## Label blocks (R76, R77, R490) -/

/-- The bytes of a member-table entry. -/
def mtabBytes (e : MTabEntry) : List Byte :=
  bytesLE 16 e.uid.toNat ++ [e.state] ++ bytesLE 1 (b2n e.tagCapable) ++ zeroBytes 6 ++ bytesLE 8 e.joinGen.toNat

/-- A member table of 32 entries; those at and above the listed ones are empty. -/
def mtableBytes (l : List MTabEntry) : List Byte := (l.flatMap mtabBytes ++ zeroBytes 1024).take 1024

/-- Bytes 0x000 to 0xFDF of a label block. The manual describes format 0x0001; a block of another format carries the same content with its
own FORMAT (log entry 110). -/
def labelBytes (format : Nat) (l : Label) : List Byte :=
  ascii 8 "HLFLABEL" ++ bytesLE 2 format ++ [l.kind] ++ bytesLE 1 (b2n l.tagged + 2 * b2n l.readOnly) ++
  bytesLE 1 l.width ++ bytesLE 1 l.brickShift ++ bytesLE 1 l.position ++
  bytesLE 1 (b2n l.ownerPos + 2 * b2n l.paired) ++ bytesLE 8 l.seq ++ bytesLE 8 l.gen ++
  bytesLE 16 l.uuid.toNat ++ bytesLE 2 l.fieldId ++ bytesLE 1 l.nextWidth ++ bytesLE 1 l.fieldState ++
  bytesLE 4 l.lostCount ++ bytesLE 8 l.courses ++ bytesLE 8 0x4000 ++ bytesLE 16 l.memberUid.toNat ++
  zeroBytes 168 ++ mtableBytes l.members ++ mtableBytes l.nextMembers ++ zeroBytes 1760

/-- A MAC over bytes, under a label key. -/
def macOf (key : Nat) (l : List Byte) : BitVec 256 := Config.hmac32 key (fromLE l) l.length

/-- The label key of a field (R373). -/
def Dev.fieldKey (s : Dev) (f : Nat) : Nat := (s.keys f).label

/-- LABEL_MAC of a label under the field's label key, or the chip's for a spare or released label. -/
def Dev.labelMac (s : Dev) (format : Nat) (l : Label) : BitVec 256 :=
  macOf (if l.kind = 1 then s.fieldKey l.fieldId else chipLabelKey) (labelBytes format l)

/-- The secret that the chip keeps for a field, by FIELD_UUID (R376). -/
def Dev.secretOf (s : Dev) (u : Uid) : Option Nat := (s.kst.secrets.find? (·.1 = u)).map (·.2.2)

/-- Whether a label block that was read verifies under the key that its KIND names (R76, R490). -/
def Dev.labelVerifies (s : Dev) (x : LabelBlk) : Bool :=
  if x.label.kind = 1 then
    match s.secretOf x.label.uuid with
    | some k => x.mac = macOf (labelKey x.label.uuid k) (labelBytes x.format x.label)
    | none => false
  else (x.label.kind = 2 || x.label.kind = 3) && x.mac = macOf chipLabelKey (labelBytes x.format x.label)

/-- Whether a namespace's controller meets R61: a queue pair was granted, and MDTS is 0 or at least 16 KiB. -/
def Member.joins (m : Member) : Bool := m.slots ≠ 0 && (m.mdtsKib = 0 || 16 ≤ m.mdtsKib)

/-! ## Label slots (R73, R74, R417) -/

/-- The Trowel component of the image in a slot. -/
def Upd.trowel? (u : Upd) (slot : Bool) : Option Component := (if slot then u.image1 else u.image0).comps.find? (·.number = 2)

/-- The running label format; the manual describes format 1. -/
def Dev.labelFormat (s : Dev) : Nat := ((s.upd.trowel? s.kst.bootedSlot).map (·.labelFormat)).getD 1

/-- The older label format that the running firmware also writes, and so can convert. -/
def Dev.labelOld (s : Dev) : Nat := ((s.upd.trowel? s.kst.bootedSlot).map (·.labelFormatOld)).getD 1

/-- Whether the slot that runs is UNCONFIRMED: then the slots of both label formats are kept (R74). -/
def Dev.bothFormats (s : Dev) : Bool := (if s.kst.bootedSlot then s.upd.slot1 else s.upd.slot0) = 2

/-- The label format of the fallow firmware, when it is another one and labels are written both ways (R417). -/
def Dev.secondFormat (s : Dev) : Option Nat :=
  if s.bothFormats then ((s.upd.trowel? !s.kst.bootedSlot).map (·.labelFormat)).filter (· ≠ s.labelFormat) else none

/-- Of label blocks of one format that verify, the one with the highest LABEL_SEQ: what a torn write leaves fails its MAC, so that the
block before it stays current (R73). -/
def Dev.newestLabel (s : Dev) (format : Nat) (l : List LabelBlk) : Option LabelBlk :=
  l.foldl (fun best x =>
    if x.format ≠ format || !s.labelVerifies x then best
    else match best with
      | none => some x
      | some y => if y.label.seq < x.label.seq then some x else some y) none

/-- The current label of a namespace: that of the running format, or else, when the running firmware can convert it, that of the other
slot (R73, R74). -/
def Dev.currentLabel (s : Dev) (l : List LabelBlk) : Option LabelBlk :=
  (s.newestLabel s.labelFormat l).or (s.newestLabel s.labelOld l)

/-- The newest block of the other format than the running one. -/
def Dev.otherLabel (s : Dev) (l : List LabelBlk) : Option LabelBlk :=
  l.foldl (fun best x =>
    if x.format = s.labelFormat then best
    else match best with
      | none => some x
      | some y => if y.label.seq < x.label.seq then some x else some y) none

/-- The slot that the running format owns on a namespace: that of its blocks, else the one that the other format leaves free, and slot 0
when both are empty (R74). -/
def Dev.ownSlot (s : Dev) (l : List LabelBlk) : Bool :=
  match s.newestLabel s.labelFormat l with
  | some x => x.slot
  | none => match s.otherLabel l with
    | some x => !x.slot
    | none => false

/-- What the label rings of a namespace tell its member (R73, R74). -/
def Dev.takeLabels (s : Dev) (l : List LabelBlk) (m : Member) : Member :=
  { m with
    labelSeq := ((s.currentLabel l).map (·.label.seq)).getD 0
    labelSlot := s.ownSlot l
    labelPlace := (s.newestLabel s.labelFormat l).map (·.place)
    otherFormat := (s.otherLabel l).map (·.format)
    otherPlace := (s.otherLabel l).map (·.place) }

/-- A table position as a label entry. -/
def MPos.entry (e : MPos) : MTabEntry := ⟨e.uid, e.state, e.tagCapable, BitVec.ofNat 64 e.joinGen⟩

/-- Whether the chip is paired now (PAIRED of a label). -/
def Dev.paired (s : Dev) : Bool := s.partner

/-- A field member's label as the field stands (R76). -/
def Dev.fieldLabel (s : Dev) (f : Field) (pos : Nat) (m : Member) : Label where
  kind := 1
  tagged := f.tagged
  readOnly := f.readOnly
  width := f.width
  brickShift := f.brickShift
  position := pos
  ownerPos := f.ownerPos
  paired := s.paired
  seq := m.labelSeq + 1
  gen := f.gen
  uuid := f.uuid
  fieldId := f.id
  nextWidth := f.nextWidth
  fieldState := f.reported.toNat
  lostCount := f.lost.length
  courses := f.courses
  memberUid := m.uid
  members := f.members.map MPos.entry
  nextMembers := f.nextMembers.map MPos.entry

/-- A spare or released label (R490): kind 2 or 3. -/
def Dev.bareLabel (s : Dev) (kind : BitVec 8) (m : Member) : Label where
  kind := kind
  tagged := false
  readOnly := false
  width := 0
  brickShift := 0
  position := 0xFF
  ownerPos := s.twn.mode && s.twn.position
  paired := s.paired
  seq := m.labelSeq + 1
  gen := 0
  uuid := 0
  fieldId := 0xFFFF
  nextWidth := 0
  fieldState := 0
  lostCount := 0
  courses := 0
  memberUid := m.uid
  members := []
  nextMembers := []

/-- The place of a ring after another: the first label of an empty ring takes block 0, with LABEL_SEQ 1 on a member that has no label
(log entry 105). -/
def nextPlace (p : Option Nat) : Nat :=
  match p with
  | some p => (p + 1) % 256
  | none => 0

/-- Writes a label into the next block of a ring of a member, in a given format. -/
def Dev.ringWrite (s : Dev) (m : Nat) (slot : Bool) (place format : Nat) (l : Label) (why : Purpose) : Dev :=
  s.labelWrite m (256 * b2n slot + place) 1 (.label format l (s.labelMac format l)) false why

/-- Writes a label into the next block of the member's ring (R73). While the firmware is UNCONFIRMED and the fallow one has another label
format, the label goes into the other slot too; after the confirmation a slot of the old format is written with zeros (R74, R417). -/
def Dev.putLabel (s : Dev) (m : Member) (l : Label) (why : Purpose) : Dev :=
  let s := match s.secondFormat with
    | some k => (s.ringWrite m.id (!m.labelSlot) (nextPlace m.otherPlace) k l .region).onMember m.id fun m =>
        { m with otherFormat := some k, otherPlace := some (nextPlace m.otherPlace) }
    | none =>
      if s.bothFormats || m.otherFormat.isNone then s
      else (s.labelWrite m.id (256 * b2n (!m.labelSlot)) 256 .zeros false .region).onMember m.id fun m =>
        { m with otherFormat := none, otherPlace := none }
  (s.ringWrite m.id m.labelSlot (nextPlace m.labelPlace) s.labelFormat l why).onMember m.id fun m =>
    { m with labelSeq := l.seq, labelPlace := some (nextPlace m.labelPlace) }

/-- The position of a member in either table of a field. -/
def Field.positionOf (f : Field) (m : Nat) : Nat :=
  match f.members.findIdx? (·.member = some m) with
  | some i => i
  | none => (f.nextMembers.findIdx? (·.member = some m)).getD 0

/-- Writes the field's label to one of its members. -/
def Dev.writeLabel (s : Dev) (f : Field) (m : Nat) : Dev :=
  match s.member? m with
  | some x => s.putLabel x (s.fieldLabel f (f.positionOf m) x) (.label f.id)
  | none => s

/-- Writes a spare or released label to a member. -/
def Dev.writeBare (s : Dev) (kind : BitVec 8) (m : Nat) : Dev :=
  match s.member? m with
  | some x => (s.putLabel x (s.bareLabel kind x) .spareLabel).onMpt fun p => { p with cleared := dropAll (· = x.uid) p.cleared }
  | none => s

/-! ## The lost-course list (R78, R79) -/

/-- Header and entries of the lost-course list: the bytes under its MAC are the header's. -/
def lostHeader (gen n : Nat) : List Byte :=
  ascii 8 "HLFLOSTC" ++ bytesLE 8 gen ++ bytesLE 4 n ++ zeroBytes 4044

/-- Writes the lost-course list to a member: the header block and its entry blocks. -/
def Dev.writeLost (s : Dev) (f : Field) (m : Nat) : Dev :=
  s.labelWrite m 0x300 (1 + ceilDiv f.lost.length 256)
    (.lostList f.gen f.lost (macOf (s.fieldKey f.id) (lostHeader f.gen f.lost.length))) false (.lostList f.id)

/-! ## Label changes (R75) -/

/-- The members that leave the field with a label change and get a released label (R75, R175). -/
def LabelThen.gone : LabelThen → List Nat
  | .reshapeEnd l => l
  | _ => []

/-- A label change of a field: FIELD_GEN rises by 1 and every ACTIVE and REBUILDING member of either table gets the
new label, with the lost-course list when it has changed; a member that leaves gets a released label. While a fence of R254 holds the field, or its labels are being read
anew, the change waits. -/
def Dev.changeLabel (s : Dev) (f : Nat) (next : LabelThen) : Dev :=
  match s.field? f with
  | none => s
  | some x =>
   if s.twn.fenced.contains f || x.reread.isSome then s.onField f fun x => { x with labelHeld := x.labelHeld ++ [next] }
   else
    let y := { x with gen := x.gen + 1 }
    let l := y.liveMembers
    let s := s.onField f fun _ => { y with
      lostChanged := false
      labelChanges := y.labelChanges ++
        [⟨y.gen, l.map (fun m => (.label, m)) ++ (if x.lostChanged then l.map (fun m => (.lost, m)) else []) ++
          next.gone.map (fun m => (.bare, m)), next⟩] }
    let s := s.each l fun s m => s.writeLabel y m
    let s := if x.lostChanged then s.each l fun s m => s.writeLost y m else s
    s.each next.gone fun s m => s.writeBare 3 m

/-- A write of a change has landed on a member, or is needed no more: it leaves the change. A newer label, or list, stands for the older
ones. -/
def LabelChange.without (c : LabelChange) (gen : Nat) (k : LabelPart) (m : Nat) : LabelChange :=
  if c.gen ≤ gen then { c with left := dropAll (· = (k, m)) c.left } else c

/-- Writes of a kind of a field's label changes have landed on a member, or the member receives none any more (`gen` large): answers what
follows each change that is now done (R75). -/
def Dev.labelLanded (s : Dev) (f gen : Nat) (k : LabelPart) (m : Nat) : Dev × List LabelThen :=
  match s.field? f with
  | none => (s, [])
  | some x =>
    let l := x.labelChanges.map fun c => c.without gen k m
    (s.onField f fun x => { x with labelChanges := l.filter fun c => c.left ≠ [] },
     (l.filter fun c => c.left = []).map (·.andThen))

/-! ## Replicas (R133, R134) -/

/-- The header block of a replica, less its MAC. -/
def replicaBytes (r : Replica) (copy : Nat) : List Byte :=
  ascii 8 "HLFFURRW" ++ bytesLE 2 1 ++ bytesLE 1 copy ++ zeroBytes 5 ++ bytesLE 8 r.refreshSeq ++ bytesLE 8 r.gen ++
  bytesLE 16 r.uuid.toNat ++ bytesLE 8 r.tick ++ bytesLE 1 r.coarseShift ++ bytesLE 1 r.fineShift ++
  bytesLE 1 r.fineBlocks ++ zeroBytes 1 ++ bytesLE 2 r.coarse.toNat ++ zeroBytes 4002

/-- The set fine regions of a field. -/
def Dev.fineSetOf (s : Dev) (f : Nat) : List Nat := (s.mst.fine.filter (·.1 = f)).map (·.2)

/-- The copy that a member's next replica goes to: the one that is not current, and copy 0 when both are empty (R133, log entry 111). -/
def Dev.nextCopy (s : Dev) (m : Nat) : Nat :=
  match (s.member? m).bind (·.repCur) with
  | some k => 1 - k
  | none => 0

/-- A replica write has succeeded on a member: the copy that it wrote is the current one (R133). -/
def Dev.copyLanded (s : Dev) (m lba : Nat) : Dev := s.onMember m fun x => { x with repCur := some ((lba - 0x1000) / 8) }

/-- Starts the field's replica write to every ACTIVE and REBUILDING member at positions 0 to 2, with every bit set
now; at most one is in flight (R134). -/
def Dev.startReplica (s : Dev) (f : Nat) : Dev :=
  match s.field? f with
  | none => s
  | some x =>
    let l := x.replicaMembers
    if x.repFlight.isSome || l = [] then s
    else
      let r : Replica := ⟨x.refreshSeq + 1, x.gen, x.uuid, s.now % 2 ^ 48, x.coarseShift, x.fineShift, x.fineBlocks,
        s.coarseMap f, s.fineSetOf f⟩
      let s := s.onField f fun x => { x with refreshSeq := r.refreshSeq, repFlight := some ⟨r.coarse, r.fine, l, l⟩, repUrgent := false }
      s.each l fun s m =>
        let copy := s.nextCopy m
        (s.count .mstReplicaWrites).labelWrite m (0x1000 + 8 * copy) 3 (.replica r (macOf (s.fieldKey f) (replicaBytes r copy))) true (.replica f)

/-- A member's part of the replica write is over; when every part is, the replica has landed. -/
def Dev.replicaLanded (s : Dev) (f m : Nat) : Dev :=
  let s := s.onField f fun x =>
    match x.repFlight with
    | some r =>
      let l := dropAll (· = m) r.left
      if l = [] then { x with repFlight := none, repCoarse := r.coarse, repFine := r.fine, repOn := r.all }
      else { x with repFlight := some { r with left := l } }
    | none => x
  match s.field? f with
  | some x => if x.repUrgent && x.repFlight.isNone then s.startReplica f else s
  | none => s

/-- A destage needs a bit that the newest replica lacks: an urgent replica write starts, or follows the one in
flight when that lacks the bit too (R123, R134). -/
def Dev.urgentReplica (s : Dev) (f : Field) (fine : Bool) (r : Nat) : Dev :=
  if Dev.inReplica f fine r then s
  else match f.repFlight with
    | some x =>
      if (if fine then x.fine.contains r else x.coarse.getLsbD r) then s
      else if f.repUrgent then s
      else (s.count .mstReplicaUrgent).onField f.id fun x => { x with repUrgent := true }
    | none => (s.count .mstReplicaUrgent).startReplica f.id

/-! ## Rebuild progress blocks (R154) -/

/-- A target as a progress entry. -/
def Field.targetEntry (f : Field) (t : Target) : TargetEntry :=
  ⟨((f.rebuildEntry? t.position).map (·.uid)).getD 0, t.position, t.side, t.start, t.next⟩

/-- The bytes of a target entry. -/
def targetBytes (t : TargetEntry) : List Byte :=
  bytesLE 16 t.uid.toNat ++ bytesLE 1 t.position ++ bytesLE 1 (b2n t.side) ++ zeroBytes 6 ++ bytesLE 8 t.startCourse ++
  bytesLE 8 t.nextCourse

/-- The bytes of a progress block, less its MAC. -/
def progressBytes (seq gen : Nat) (uuid : Uid) (l : List TargetEntry) : List Byte :=
  ascii 8 "HLFRBLDP" ++ bytesLE 2 1 ++ bytesLE 1 l.length ++ zeroBytes 5 ++ bytesLE 8 seq ++ bytesLE 8 gen ++
  bytesLE 16 uuid.toNat ++ ((l.flatMap targetBytes) ++ zeroBytes 80).take 80 ++ zeroBytes 3936

/-- Writes a progress block to every ACTIVE and REBUILDING member of the field. -/
def Dev.writeProgress (s : Dev) (f : Nat) : Dev :=
  match s.field? f with
  | none => s
  | some x =>
    let seq := x.progressSeq + 1
    let l := x.targets.map x.targetEntry
    let mac := macOf (s.fieldKey f) (progressBytes seq x.gen x.uuid l)
    let s := s.onField f fun x => { x with progressSeq := seq, targets := x.targets.map fun t => { t with sinceCkpt := 0 } }
    s.each x.liveMembers fun s m => s.labelWrite m (0x280 + seq % 128) 1 (.progress seq x.gen x.uuid l mac) false (.progress f)

/-! ## Reshape checkpoint blocks (R172, R173) -/

/-- Line 0 of a reshape record, less its check word. -/
def rsLine0 (r : RsRecord) : List Byte :=
  bytesLE 1 r.kind ++ bytesLE 1 r.fieldId ++ bytesLE 1 (b2n r.bandValid + 2 * b2n r.paused) ++ zeroBytes 1 ++
  bytesLE 2 r.stepCourses ++ zeroBytes 2 ++ bytesLE 8 r.ckptSeq ++ bytesLE 8 r.headland ++ bytesLE 8 r.bandLba ++
  bytesLE 4 r.bandBlocks ++ zeroBytes 20

/-- Lines 1 to 3 of a reshape record, less their check word. -/
def rsStatic (r : RsRecord) : List Byte :=
  bytesLE 16 r.uuid.toNat ++ bytesLE 1 r.oldWidth ++ bytesLE 1 r.newWidth ++ bytesLE 1 r.copyPos ++ zeroBytes 5 ++
  bytesLE 8 r.oldCourses ++ bytesLE 8 r.newCourses ++ bytesLE 8 r.startGen ++ zeroBytes 136

/-- The 256 bytes of a reshape record. -/
def rsBytes (r : RsRecord) : List Byte :=
  rsLine0 r ++ bytesLE 8 (crc64 (rsLine0 r)).toNat ++ rsStatic r ++ bytesLE 8 (crc64 (rsStatic r)).toNat

/-- The bytes of a reshape checkpoint block, less its MAC. -/
def checkpointBytes (r : RsRecord) : List Byte :=
  ascii 8 "HLFRSHCK" ++ bytesLE 2 1 ++ zeroBytes 6 ++ rsBytes r ++ zeroBytes 3792

/-- Writes a reshape checkpoint block to every ACTIVE and REBUILDING member of either table. -/
def Dev.writeCheckpoint (s : Dev) (f : Nat) : Dev :=
  match s.field? f with
  | none => s
  | some x =>
    match x.rs with
    | none => s
    | some r =>
      let l := x.liveMembers
      let mac := macOf (s.fieldKey f) (checkpointBytes r)
      let s := s.onField f fun x => { x with rsMembers := l }
      s.each l fun s m => s.labelWrite m (0x200 + r.ckptSeq % 128) 1 (.checkpoint r mac) false (.checkpoint f)

/-- Initialises the label region of a member that joins: what no other structure of it fills is written 0 (R72). -/
def Dev.clearRegion (s : Dev) (m : Nat) : Dev :=
  (s.labelWrite m 0 16384 .zeros false .region).onMember m fun x => { x with
    labelPlace := none, labelSlot := false, otherFormat := none, otherPlace := none, repCur := none }

end Sys2Proof.Machine
end

