-- ==== Sys2Proof/Machine/Hod.lean ====
section
/-!
DEFINITION. The hod, the cache of P and Q lines (R182 to R202): lookups, fills, evictions and recalls, writes under
R188, invalidate all, errors; and the commands HOD_AGE_TICK, HOD_MOVE_DONE and HOD_INVALIDATED.
-/

namespace Sys2Proof.Machine

/-- The hod as a record source. -/
def Dev.srcHod (s : Dev) : BitVec 16 := s.srcEngine 0x60

/-- Whether a field's operations use the hod (R186, R198, R200, R201). -/
def Dev.hodOn (s : Dev) (f : Field) : Bool :=
  s.param .hodEnable = 1 && !s.hod.disabled && !s.hod.invalidating && !f.reshaping

/-- The key of a row's line (R183). -/
def hodKey (f c : Nat) (g : Bool) (o : Nat) : HodKey := ⟨f, c, g, o / 16⟩

/-- The array entry that holds a key. -/
def Dev.hodEntry? (s : Dev) (k : HodKey) : Option Nat := s.hod.lines.findIdx? fun l => l.valid && l.key = k

/-- The victim buffer entry that holds a key. -/
def Dev.hodVictim? (s : Dev) (k : HodKey) : Option Nat := s.hod.victims.findIdx? fun l => l.valid && l.key = k

/-- A row of a line: its P and Q. -/
def HodLine.row? (l : HodLine) (o : Nat) : Option (Block × Block) :=
  if l.rowValid.getLsbD (o % 16) then
    match look (o % 16) l.p, look (o % 16) l.q with
    | some p, some q => some (p, q)
    | _, _ => none
  else none

/-- P and Q of a row, when an array line holds it: with the entry. -/
def Dev.hodRow? (s : Dev) (f c : Nat) (g : Bool) (o : Nat) : Option (Nat × Block × Block) :=
  match s.hodEntry? (hodKey f c g o) with
  | some i => match s.hod.lines[i]? with
    | some l => if l.pending && l.rowValid = 0 then none else (l.row? o).map fun x => (i, x)
    | none => none
  | none => none

/-- Changes an array entry. -/
def Dev.onLine (s : Dev) (i : Nat) (f : HodLine → HodLine) : Dev :=
  s.onHod fun h => { h with lines := h.lines.zipIdx.map fun e => if e.2 = i then f e.1 else e.1 }

/-- Changes a victim buffer entry. -/
def Dev.onVictim (s : Dev) (i : Nat) (f : HodLine → HodLine) : Dev :=
  s.onHod fun h => { h with victims := h.victims.zipIdx.map fun e => if e.2 = i then f e.1 else e.1 }

/-- A line with P and Q of a row put in. -/
def HodLine.put (l : HodLine) (o : Nat) (p q : Block) : HodLine :=
  { l with rowValid := l.rowValid ||| (1#16 <<< (o % 16)), p := Machine.put (o % 16) p l.p, q := Machine.put (o % 16) q l.q }

/-! ## Pins (R189) -/

/-- Changes the pins of an array entry: those of the line that an eviction brings to it, while one runs. -/
def Dev.onPins (s : Dev) (i : Nat) (f : Nat → Nat) : Dev :=
  let mine (r : MissReg) : Bool := r.kind = .evict && r.entry = i
  let pins (r : MissReg) : MissReg := { r with next := r.next.map fun l => { l with pins := f l.pins } }
  if s.hod.regs.any mine then s.onHod fun h => { h with regs := modAll mine pins h.regs }
  else s.onLine i fun l => { l with pins := f l.pins }

/-- A job pins an array entry. -/
def Dev.pin (s : Dev) (j i : Nat) : Dev :=
  match s.job? j with
  | some b => if b.pins.contains i then s
    else (s.onPins i fun n => min 31 (n + 1)).onJob j fun b => { b with pins := b.pins ++ [i] }
  | none => s

/-- A job's pins go. -/
def Dev.unpin (s : Dev) (j : Nat) : Dev :=
  match s.job? j with
  | some b => (s.each b.pins fun s i => s.onPins i fun n => n - 1).onJob j fun b => { b with pins := [] }
  | none => s

/-! ## Allocation (R191, R192) -/

/-- The entry that an allocation takes: an invalid line, else the unpinned line of highest AGE, the lowest entry
among equals; a line that a register moves or fills is left alone. -/
def Dev.hodVictim (s : Dev) : Option Nat :=
  let e := s.hod.lines.zipIdx.filter fun e => !e.1.pending && e.1.pins = 0
  match e.find? fun e => !e.1.valid with
  | some x => some x.2
  | none =>
    let of (a : Nat) : Option Nat := (e.find? fun e => e.1.age = a).map (·.2)
    (of 3).or ((of 2).or ((of 1).or (of 0)))

/-- A free miss register. -/
def Dev.hodReg? (s : Dev) : Option Nat := firstFree (s.hod.regs.map (·.reg)) 16 0

/-- Whether a register moves or fills the line of a key, or brings it into the array. -/
def MissReg.names (r : MissReg) (k : HodKey) : Bool := r.key = k || r.next.any fun l => l.key = k

/-- A miss register becomes busy. -/
def Dev.useReg (s : Dev) (r : MissReg) : Dev := s.onHod fun h => { h with regs := h.regs ++ [r] }

/-- The victim buffer entry that an eviction takes: the oldest one that no recall or other eviction holds (R192, log entry 119). -/
def Dev.hodSpace? (s : Dev) : Option Nat :=
  ((List.range 8).map fun i => (s.hod.victimNext + i) % 8).find? fun v => !((s.hod.victims[v]?).getD .empty).pending

/-- Puts a new line into the array: at once into an invalid entry; else its victim's move to the victim buffer
starts, where the oldest entry is dropped, and the line follows when the move ends. Without a victim or a register the operation goes
without the hod (R191, R192, R194). Answers the entry. -/
def Dev.hodInsert (s : Dev) (l : HodLine) : Dev × Option Nat :=
  match s.hodVictim with
  | none => (s.count .hodBypasses, none)
  | some i =>
    let old := s.hod.lines[i]?.getD .empty
    if !old.valid then (s.onLine i fun _ => l, some i)
    else match s.hodReg?, s.hodSpace? with
      | some r, some v =>
        let s := (s.onLine i fun x => { x with pending := true, missReg := r }).onVictim v fun _ => { HodLine.empty with pending := true, missReg := r }
        ((s.onHod fun h => { h with victimNext := (v + 1) % 8 }).useReg ⟨r, .evict, old.key, i, 0, 0, [], false, 0, some l, v⟩, some i)
      | _, _ => (s.count .hodBypasses, none)

/-- A line holding rows with their P and Q. -/
def newLine (k : HodKey) (age : Nat) (rows : List (Nat × Block × Block)) : HodLine :=
  rows.foldl (fun l r => l.put r.1 r.2.1 r.2.2) { HodLine.empty with valid := true, key := k, age := age }

/-! ## Writes under R188 and fills from GEN (R186) -/

/-- P or Q of a row in a line replaced. -/
def HodLine.rewrite (l : HodLine) (o : Nat) (p q : Option Block) : HodLine :=
  if l.rowValid.getLsbD (o % 16) then
    { l with
      p := match p with | some b => Machine.put (o % 16) b l.p | none => l.p
      q := match q with | some b => Machine.put (o % 16) b l.q | none => l.q }
  else l

/-- A member write of P or Q of a row writes the same block into every valid line that holds the row, in the array,
the victim buffer, or on its way; a row whose fill is outstanding is superseded (R188, R195). -/
def Dev.hodWrite (s : Dev) (f c : Nat) (g : Bool) (o : Nat) (p q : Option Block) : Dev :=
  let k := hodKey f c g o
  let fill := s.hod.regs.any fun r => r.kind = .fill && r.key = k && r.rows.getLsbD (o % 16) && !r.dead
  let on (l : HodLine) : HodLine :=
    if !(l.valid && l.key = k) then l
    else if fill then
      match p, q with
      | some p, some q => l.put o p q
      | _, _ => l.rewrite o p q
    else l.rewrite o p q
  s.onHod fun h => { h with
    lines := h.lines.map on
    victims := h.victims.map on
    regs := h.regs.map fun r =>
      let r := { r with next := r.next.map on }
      if r.kind = .fill && r.key = k && r.rows.getLsbD (o % 16) then
        { r with superseded := r.superseded ||| (1#16 <<< (o % 16)) } else r }

/-- A reconstruct-write or full-course destage enters the P and Q that GEN wrote, at AGE 0 or 3 (R186); a line in the array takes
the rows too, and no second line of the key is made while one is in the victim buffer or on its way. -/
def Dev.hodFillGen (s : Dev) (f : Field) (c : Nat) (g : Bool) (stream : Bool) (rows : List (Nat × Block × Block)) : Dev :=
  if !s.hodOn f || (stream && s.param .hodStreamFill = 0) then s
  else
    let segs := rows.foldl (fun l r => addNew (r.1 / 16) l) []
    s.each segs fun s sg =>
      let k : HodKey := ⟨f.id, c, g, sg⟩
      let mine := rows.filter fun r => r.1 / 16 = sg
      match s.hodEntry? k with
      | some i => s.onLine i fun l => mine.foldl (fun l r => l.put r.1 r.2.1 r.2.2) { l with age := if stream then l.age else 0 }
      | none =>
        if (s.hodVictim? k).isSome || s.hod.regs.any (fun r => r.names k) then s
        else
          let x := s.hodInsert (newLine k (if stream then 3 else 0) mine)
          x.1.when (x.2.isSome && stream) fun s => s.count .hodStreamFills

/-! ## Lookups (R187, R193, R194) -/

/-- What a lookup of a row comes to. -/
inductive Look where
  | hit (entry : Nat)
  | wait (reg : Nat)
  | miss
  deriving DecidableEq, Repr

/-- A job waits on a miss register, when it holds fewer than 15 waiting requests. -/
def Dev.waitOn (s : Dev) (j : Nat) (r : MissReg) : Dev × Look :=
  if r.waiters.contains j then (s, .wait r.reg)
  else if 15 ≤ r.waiters.length then (s.count .hodBypasses, .miss)
  else
    let s := s.onHod fun h => { h with regs := modAll (·.reg = r.reg) (fun r => { r with waiters := r.waiters ++ [j] }) h.regs }
    let s := s.onJob j fun b => { b with waitsFill := addNew r.reg b.waitsFill }
    (s.when (r.kind = .fill) fun s => s.count .hodMergedMisses, .wait r.reg)

/-- Looks up one row for a job: an array line, a register that moves or fills the line, or a victim buffer entry,
which is recalled. `again` marks a lookup made again after a move, which counts no new lookup. On a RESHAPING field nothing is
looked up (R186). -/
def Dev.hodLook (s : Dev) (j : Nat) (f : Field) (c : Nat) (g : Bool) (o : Nat) (again : Bool) : Dev × Look :=
  if f.reshaping then (s, .miss)
  else if !s.hodOn f then
    ((s.when (!again) fun s => s.count .hodLookups).count .hodRowMisses, .miss)
  else
    let s := s.when (!again) fun s => s.count .hodLookups
    let k := hodKey f.id c g o
    match s.hod.regs.find? fun r => r.names k && (r.kind ≠ .fill || r.rows.getLsbD (o % 16)) with
    | some r =>
      let x := s.waitOn j r
      (if x.2 = .miss then x.1.count .hodRowMisses else x.1, x.2)
    | none =>
      match s.hodRow? f.id c g o with
      | some (i, _) => (((s.onLine i fun l => { l with age := 0 }).pin j i).count .hodRowHits, .hit i)
      | none =>
        match s.hodVictim? k with
        | none => (s.count .hodRowMisses, .miss)
        | some v =>
          match s.hodVictim, s.hodReg? with
          | some i, some r =>
            let s := (s.onLine i fun x => { x with pending := true, missReg := r }).onVictim v fun x => { x with pending := true, missReg := r }
            let s := s.useReg ⟨r, .recall, k, i, 0, 0, [j], false, 0, none, v⟩
            (s.onJob j fun b => { b with waitsFill := addNew r b.waitsFill }, .wait r)
          | _, _ => ((s.count .hodBypasses).count .hodRowMisses, .miss)

/-- Starts the fill of missed rows of one line, which the job reads from members, and pins the line (R189, R194). No fill starts
while a register or the victim buffer names the line. -/
def Dev.hodStartFill (s : Dev) (j : Nat) (f : Field) (c : Nat) (g : Bool) (sg : Nat) (rows : List Nat) : Dev :=
  let k : HodKey := ⟨f.id, c, g, sg⟩
  let mask := BitVec.ofNat 16 (bitSet (rows.map (· % 16)))
  if !s.hodOn f || rows = [] || (s.hodVictim? k).isSome || s.hod.regs.any (fun r => r.names k) then s
  else match s.hodReg? with
    | none => s.count .hodBypasses
    | some r =>
      let reg : MissReg := ⟨r, .fill, k, 0, mask, 0, [], false, j, none, 0⟩
      match s.hodEntry? k with
      | some i => (((s.onLine i fun l => { l with pending := true, missReg := r }).pin j i).useReg { reg with entry := i })
      | none =>
        let x := (s.useReg reg).hodInsert { newLine k 0 [] with pending := true, missReg := r }
        match x.2 with
        | some i => x.1.pin j i
        | none => x.1.onHod fun h => { h with regs := dropAll (·.reg = r) h.regs }

/-- The fill of a register has landed: `rows` lists each row with its P and Q, or none for a row that became an
erasure. Rows enter the line unless they are superseded or the fill is dead (R195, R196, R198). -/
def Dev.hodLandFill (s : Dev) (r : MissReg) (rows : List (Nat × Option (Block × Block))) : Dev :=
  let kept := rows.filter fun e => !r.superseded.getLsbD (e.1 % 16)
  let fill (l : HodLine) : HodLine :=
    if !(l.pending && l.missReg = r.reg) then l
    else if l.valid && l.key = r.key && !r.dead then
      kept.foldl (fun l e => match e.2 with | some x => l.put e.1 x.1 x.2 | none => l) { l with pending := false, missReg := 0 }
    else { l with pending := false, missReg := 0 }
  let s := s.onHod fun h => { h with
    droppedNow := h.droppedNow + b2n r.dead
    lines := h.lines.map fill
    regs := (dropAll (·.reg = r.reg) h.regs).map fun x => { x with next := x.next.map fill } }
  if r.dead then s.count .hodFillsDropped else s.countN .hodSupersededRows (rows.length - kept.length)

/-! ## Invalidate all (R197, R198) -/

/-- Invalidate all starts, or the request joins the one that runs. -/
def Dev.hodInvalidate (s : Dev) : Dev :=
  if s.hod.invalidating then s
  else s.onHod fun h => { h with
    invalidating := true
    droppedNow := 0
    lines := h.lines.map fun l => { l with valid := false }
    victims := h.victims.map fun l => { l with valid := false }
    regs := h.regs.map fun r => { r with dead := true } }

/-- The hod is empty after a reset and on entry to D3hot: no line, no move, no fill and no pin is left (R185). -/
def Dev.hodEmpty (s : Dev) : Dev :=
  (s.onHod fun h => { h with
    lines := List.replicate 48 .empty
    victims := List.replicate 8 .empty
    victimNext := 0
    regs := []
    linesValid := 0 }).onCache fun k => { k with jobs := k.jobs.map fun j => { j with pins := [] } }

/-! ## Errors (R199, R200) -/

/-- An uncorrectable or tag error counts toward HOD_ERR_LIMIT; at the limit the hod is disabled (R200). -/
def Dev.hodErr (s : Dev) : Dev :=
  let l := (s.hod.errTicks.filter fun t => s.now < t.toNat + 2 ^ 20) ++ [s.tck.count]
  let s := s.onHod fun h => { h with errTicks := l }
  if s.hod.disabled || l.length < s.param .hodErrLimit then s
  else (((s.hodInvalidate).onHod fun h => { h with disabled := true }).record 0x0133 s.srcHod 0 0 0).event 13

/-- Clears the VALID bit of an entry, 0 to 47 for the array and 48 to 55 for the victim buffer. -/
def Dev.hodClear (s : Dev) (e : Nat) : Dev :=
  if e < 48 then s.onLine e fun l => { l with valid := false } else s.onVictim (e - 48) fun l => { l with valid := false }

/-- One error that a lookup or an engine operation finds; of a lookup that matches several entries, each is cleared and recorded, and the
error counts once (log entry 121). -/
def Dev.hodError (s : Dev) (e : HodError) : Dev :=
  match e with
  | .correctable n r => (s.count .hodEccCorrected).record 0x0130 s.srcHod n (r % 16) 0
  | .uncorrectable n r => (((s.hodClear n).count .hodEccUncorrected).record 0x0131 s.srcHod n (r % 16) 0).hodErr
  | .tagParity n => (((s.hodClear n).count .hodTagErrors).record 0x0132 s.srcHod n 0 0).hodErr
  | .multiple l => ((s.each l fun s n => (s.hodClear n).record 0x0132 s.srcHod n 0 0).count .hodTagErrors).hodErr

/-! ## Moves (R192, R193) -/

/-- The move of a register ends: the line of an eviction lies in the victim buffer and its entry takes the new line;
the line of a recall has changed places with its victim. A dead move lands invalid. -/
def Dev.hodMoved (s : Dev) (r : MissReg) : Dev :=
  let s := s.onHod fun h => { h with regs := dropAll (·.reg = r.reg) h.regs }
  let old := s.hod.lines[r.entry]?.getD .empty
  let clean (l : HodLine) : HodLine := { l with pending := false, missReg := 0, pins := 0 }
  match r.kind with
  | .fill => s.useReg r
  | .evict =>
    let new := match r.next with
      | some l => if r.dead then { l with valid := false } else l
      | none => .empty
    let s := s.count .hodEvictions
    (s.onVictim r.victim fun _ => { clean old with valid := old.valid && !r.dead }).onHod fun h => { h with
      lines := h.lines.zipIdx.map fun e => if e.2 = r.entry then new else e.1 }
  | .recall =>
    let back := s.hod.victims[r.victim]?.getD .empty
    let s := s.count .hodRecalls
    let s := s.when old.valid fun s => s.count .hodEvictions
    (s.onVictim r.victim fun _ => clean old).onLine r.entry fun _ => { clean back with age := 0, valid := back.valid && !r.dead }

/-! ## Commands -/

/-- HOD_AGE_TICK (R190): at a tick boundary every HOD_AGE_TICKS ticks, every valid unpinned line ages by one, up to 3. -/
def Dev.hodAge (s : Dev) : Dev :=
  let now := s.tck.count
  if !s.tck.running || s.tck.phaseIdx ≠ 0 || s.hod.aged = some now || s.param .hodAgeTicks = 0 || s.now % s.param .hodAgeTicks ≠ 0 then s
  else s.onHod fun h => { h with
    aged := some now
    lines := modAll (fun l => l.valid && l.pins = 0) (fun l => { l with age := min 3 (l.age + 1) }) h.lines }

/-- HOD_INVALIDATED (R198): no miss register is busy, so invalidate all ends. -/
def Dev.hodInvalidated (s : Dev) : Dev :=
  if s.hod.invalidating && s.hod.regs = [] then
    (s.record 0x0134 s.srcHod s.hod.droppedNow 0 0).onHod fun h => { h with invalidating := false, droppedNow := 0 }
  else s

end Sys2Proof.Machine
end

