-- ==== Sys2Proof/Machine/Drill.lean ====
section
/-!
DEFINITION. Drills: course locks and contexts (R13, R14), jobs and the blocks they read (R92 to R97), erasure records
(R94, R95), the solution of a row (R96 to R98, R488), and the lost-course list (R78, R100, R159 to R161).
-/

namespace Sys2Proof.Machine

/-! ## Contexts and locks -/

/-- A job that has asked for nothing yet. -/
def Job.fresh (kind : JobKind) (field course : Nat) (geom : Bool) : Job where
  id := 0
  kind := kind
  field := field
  course := course
  geom := geom
  stage := .waitLock
  method := .full
  gen := 0
  locks := [(course, geom)]
  held := []
  lines := []
  cells := []
  rows := []
  need := []
  writes := []
  queued := false
  writesLeft := 0
  cmd := none
  causes := []
  erasures := 0
  slot := none
  overflow := false
  guardQueued := false
  guardLanded := false
  mask := 0
  reason := 0
  pins := []
  targets := []
  waitsFill := []
  served := []
  fixes := 0
  lane := none
  staged := []
  others := []

/-- A job joins the queue of each course that it locks; a course without context gets one when one is free (R13). -/
def Dev.queueLocks (s : Dev) (j : Job) : Dev :=
  s.each j.locks fun s l =>
    let s := s.makeCtx j.field l.1 l.2
    if (s.ctx? j.field l.1 l.2).isSome then
      s.onCtx j.field l.1 l.2 fun x => { x with queue := addNew j.id x.queue }
    else s.onCache fun k => { k with ctxWait := addNew j.id k.ctxWait }

/-- A job starts: it requests its locks. -/
def Dev.startJob (s : Dev) (j : Job) : Dev :=
  let j := { j with id := s.cache.nextJob }
  (s.onCache fun k => { k with jobs := k.jobs ++ [j], nextJob := k.nextJob + 1 }).queueLocks j

/-- Whether every lock of a job can be granted now: it is the first in each queue and nobody holds the course. -/
def Dev.locksFree (s : Dev) (j : Job) : Bool :=
  j.locks.all fun l => match s.ctx? j.field l.1 l.2 with
    | some x => x.holder.isNone && x.queue.head? = some j.id
    | none => false

/-- A job holds its locks. -/
def Dev.takeLocks (s : Dev) (j : Job) : Dev :=
  let s := s.each j.locks fun s l => s.onCtx j.field l.1 l.2 fun x =>
    { x with holder := some j.id, queue := dropAll (· = j.id) x.queue }
  s.onJob j.id fun b => { b with held := j.locks, locks := [] }

/-- Whether a context is in use: a lock, a request, a dirty line or a write in flight. -/
def Dev.ctxBusy (s : Dev) (x : Ctx) : Bool :=
  x.holder.isSome || x.queue ≠ [] || s.courseInFlight x.field x.course x.geom ||
  (match s.field? x.field with
   | some f => s.courseLines f x.course x.geom ≠ []
   | none => false)

/-- Contexts that are no longer in use are freed and go to the waiting holders, in order of request (R13). -/
def Dev.freeCtxs (s : Dev) : Dev :=
  let s := s.onCache fun k => { k with ctxs := k.ctxs.filter s.ctxBusy }
  let wait := s.cache.ctxWait
  (s.onCache fun k => { k with ctxWait := [] }).each wait fun s id =>
    match s.job? id with
    | some j => s.queueLocks j
    | none => s

/-- A job leaves: its guard goes, its locks are released, its pins go, and its contexts are freed when idle. -/
def Dev.endJob (s : Dev) (id : Nat) : Dev :=
  match s.job? id with
  | none => s
  | some j =>
    let s := (s.unpin id).dropGuard j
    let s := s.onCache fun k => { k with
      jobs := dropAll (·.id = id) k.jobs
      ctxWait := dropAll (· = id) k.ctxWait
      ctxs := k.ctxs.map fun x => { x with
        holder := if x.holder = some id then none else x.holder
        queue := dropAll (· = id) x.queue } }
    (s.onHod fun h => { h with regs := h.regs.map fun r => { r with waiters := dropAll (· = id) r.waiters } }).when
      (j.held ≠ [] || j.locks ≠ []) fun s => s.freeCtxs

/-! ## Erasures (R94, R95) -/

/-- The record code of an erasure. -/
def Cause.code : Cause → Nat
  | .tag => 0x4020 | .check => 0x4023 | .media => 0x4021 | .transport => 0x4025 | .hedged => 0x4022
  | .absent => 0x4027 | .stale => 0x4026

/-- The REASON of an erasure in the lost-course list. -/
def Cause.reason : Cause → Nat
  | .tag => 1 | .check => 1 | .stale => 1 | .media => 2 | .transport => 2 | .hedged => 3 | .absent => 3

/-- Whether an erasure's block is healed in place. -/
def Cause.heals : Cause → Bool
  | .absent => false
  | _ => true

/-- The REASON of two reasons together (R100); 0 is none yet. -/
def joinReason (a b : Nat) : Nat := if a = 0 || a = b then b else if b = 0 then a else 4

/-- The member at a position of a geometry. -/
def Field.memberAt (f : Field) (g : Bool) (pos : Nat) : Option Nat := (f.readEntry? g pos).bind (·.member)

/-- An erasure is declared: it is counted and recorded with the member as source, the field where the position's
namespace is unknown to the chip (log entry 21); it counts toward MPT_FAIL_ERASURES. Answers the record's source
and sequence number. -/
def Dev.erasure (s : Dev) (f : Field) (g : Bool) (c pos row n : Nat) (why : Cause) : Dev × (BitVec 16 × BitVec 32) :=
  let m := f.memberAt g pos
  let src := match m with
    | some m => s.srcMember m
    | none => s.srcField f.id
  let absent := why = .absent
  let p1 := f.id + pos * 2 ^ 8 + (if absent then 0 else n * 2 ^ 16)
  let p2 := if absent then 0 else c % 2 ^ 32
  let p3 := if absent then 0 else c / 2 ^ 32 + row * 2 ^ 8
  let s := (s.count .morErasures).record why.code src p1 p2 p3
  let s := match m with
    | some m => if absent || why = .stale then s else
        s.onMember m fun x => { x with erasures := (x.erasures.filter fun t => s.now < t.toNat + s.param .mptFailWindowTicks) ++ [s.tck.count] }
    | none => s
  (s, src, ((s.lastRec src).map (·.seq)).getD 0)

/-! ## Cells -/

/-- The cell of a job at a place. -/
def Job.cell? (j : Job) (g : Bool) (c pos row : Nat) : Option Cell :=
  j.cells.find? fun x => x.geom = g && x.course = c && x.pos = pos && x.row = row

/-- Sets the state of one cell. -/
def Job.setCell (j : Job) (g : Bool) (c pos row : Nat) (st : CellSt) (hod : Option Nat) : Job :=
  let at' (x : Cell) : Bool := x.geom = g && x.course = c && x.pos = pos && x.row = row
  { j with cells := modAll at' (fun x => { x with st := st, fromHod := hod }) j.cells }

/-- The reference tag of a cell. -/
def Job.setRef (j : Job) (x : Cell) (tag : Option Meta) : Job :=
  let same (y : Cell) : Bool := y.geom = x.geom && y.course = x.course && y.pos = x.pos && y.row = x.row
  { j with cells := modAll same (fun y => { y with ref := tag.or y.ref }) j.cells }

/-- The causes of a job with one more erasure: a row keeps the first erasure declared in it; among those of one tick, the one
at the lowest member position (R101). -/
def Job.because (j : Job) (x : RowCause) : Job :=
  let same (y : RowCause) : Bool := y.geom = x.geom && y.course = x.course && y.row = x.row
  match j.causes.find? same with
  | none => { j with causes := j.causes ++ [x] }
  | some y => if y.tick = x.tick && x.pos < y.pos then { j with causes := modAll same (fun _ => x) j.causes } else j

/-- The record that caused the solution of a row: its source and sequence number. -/
def Job.causeOf (j : Job) (r : JRow) : BitVec 16 × BitVec 32 :=
  ((j.causes.find? fun y => y.geom = r.geom && y.course = r.course && y.row = r.row).map fun y => (y.src, y.seq)).getD (0, 0)

/-- The record that caused the solution of a job's course: the first erasure declared in any of its rows. -/
def Job.firstCause (j : Job) : BitVec 16 × BitVec 32 :=
  ((j.causes.foldl (fun (best : Option RowCause) x => match best with
    | none => some x
    | some y => if x.tick < y.tick || (x.tick = y.tick && x.pos < y.pos) then some x else some y) none).map fun y => (y.src, y.seq)).getD (0, 0)

/-- Adds a source block to a job, unless it is there: to be read, or an erasure by absence. An erasure by absence is counted and recorded
once for each block met; the blocks of a rebuild's own targets are erasures without record and count (log entry 101). -/
def Dev.addCell (s : Dev) (id : Nat) (f : Field) (g : Bool) (c pos row : Nat) : Dev :=
  match s.job? id with
  | none => s
  | some j =>
    if (j.cell? g c pos row).isSome then s
    else
      let present := (f.reader? g pos c).isSome && !(j.targets.contains pos)
      let cell : Cell := ⟨g, c, pos, row, if present then .want else .erased .absent none, none, none⟩
      let s := s.onJob id fun j => { j with cells := j.cells ++ [cell] }
      if present || j.targets.contains pos then s
      else
        let r := s.erasure f g c pos row 1 .absent
        r.1.onJob id fun j => j.because ⟨g, c, row, s.tck.count, pos, r.2.1, r.2.2⟩

/-- Adds several source blocks of one row. -/
def Dev.addCells (s : Dev) (id : Nat) (f : Field) (g : Bool) (c row : Nat) (l : List Nat) : Dev :=
  s.each l fun s pos => s.addCell id f g c pos row

/-- The cells of a job that wait to be read, grouped into runs of adjacent rows of one brick, no longer than `cap`. -/
def cellRuns (cap : Nat) : List Cell → List (List Cell)
  | [] => []
  | c :: l =>
    match cellRuns cap l with
    | (d :: r) :: rest =>
      if d.geom = c.geom && d.course = c.course && d.pos = c.pos && d.row = c.row + 1 && r.length + 1 < cap then
        (c :: d :: r) :: rest
      else [c] :: (d :: r) :: rest
    | rest => [c] :: rest

/-- Brick by brick, and row by row within a brick. -/
def Cell.key (c : Cell) : Nat := (((c.course * 2 + b2n c.geom) * 32) + c.pos) * 256 + c.row

/-- The largest member command, in blocks (R64): MDTS, where 0 sets no limit. -/
def Dev.mdts (s : Dev) (m : Nat) : Nat :=
  match s.member? m with
  | some x => if x.mdtsKib = 0 then 1048576 else max 1 (x.mdtsKib / 4)
  | none => 1

/-- Whether a job's commands are charged to the rebuild share (R153). -/
def Dev.charged (s : Dev) (j : Job) : Bool :=
  j.kind = .rebuild || j.kind = .reshape ||
  (j.kind = .resync && (match s.field? j.field with | some f => !f.recovering | none => false))

/-- Whether a cell is a P or Q block whose row waits on the hod. -/
def waitsHod (f : Field) (j : Job) (x : Cell) : Bool :=
  j.waitsFill ≠ [] && (match roleAt (f.w x.geom) x.course x.pos with
    | .data _ => false
    | _ => true)

/-- Issues the member reads of a job's wanted cells (R64, R92). -/
def Dev.readCells (s : Dev) (id : Nat) : Dev :=
  match s.job? id with
  | none => s
  | some j =>
    match s.field? j.field with
    | none => s
    | some f =>
      let want := sortBy Cell.key (j.cells.filter fun x => x.st = .want && !waitsHod f j x)
      let caps := (want.filterMap fun x => f.reader? x.geom x.pos x.course).map s.mdts
      let runs := cellRuns (caps.foldl min 1048576) want
      let s := s.each runs fun s r =>
        match r with
        | [] => s
        | x :: _ =>
          match f.reader? x.geom x.pos x.course with
          | none => s
          | some m =>
            let mid := s.mpt.nextCmd
            let s := s.memberCmd m .read (memberLba f.b x.course x.row) r.length .none false (s.charged j) (j.kind = .scrub) (.job id)
            s.onJob id fun j => r.foldl (fun j y => j.setCell y.geom y.course y.pos y.row (.reading mid) none) j
      s.onJob id fun j => { j with stage := .reading }

/-- Whether a job still waits for source blocks. -/
def Job.reads (j : Job) : Bool :=
  j.cells.any fun x => match x.st with
    | .want => true
    | .reading _ => true
    | _ => false

/-- A job whose source blocks are all there goes to the mortar engine; one whose writes are guarded queues its guard now (R123). A failed
store gives none (R141). -/
def Dev.toEngine (s : Dev) (id : Nat) : Dev :=
  match s.job? id with
  | none => s
  | some j =>
    if j.stage ≠ .reading || j.reads then s
    else
      let s := s.onJob id fun j => { j with stage := .engine }
      match s.field? j.field with
      | some f => if j.kind.guards && !j.guardQueued && !s.mst.failed then s.queueGuard id f j.course j.geom else s
      | none => s

/-! ## Checks of member reads (R93, R160) -/

/-- Whether a block read at a place passes its check. In an untagged field every block passes. -/
def Dev.blockOk (s : Dev) (f : Field) (g : Bool) (c pos row : Nat) (b : Block) (m : Meta) : Bool :=
  !f.tagged || (match roleAt (f.w g) c pos with
    | .data i => tagOk (s.keys f.id).tag (f.lba g c i row) f.id b m
    | .p => parityOk b m f.id c (memberLba f.b c row) false
    | .q => parityOk b m f.id c (memberLba f.b c row) true)

/-- Whether a position holds data. -/
def Field.isData (f : Field) (g : Bool) (c pos : Nat) : Bool :=
  match roleAt (f.w g) c pos with
  | .data _ => true
  | _ => false

/-- One block of a job's member read has landed: a block that passes is a source; at a masked data position of a lost
course it counts as known whatever its check says (R160); any other is an erasure with its TAG as reference. -/
def Dev.cellLanded (s : Dev) (id : Nat) (f : Field) (x : Cell) (b : Block) (m : Meta) : Dev :=
  let data := f.isData x.geom x.course x.pos
  if s.blockOk f x.geom x.course x.pos x.row b m || (data && f.masked x.course x.pos) then
    s.onJob id fun j => j.setCell x.geom x.course x.pos x.row (.good b m) none
  else
    let why := if data then Cause.tag else .check
    let r := s.erasure f x.geom x.course x.pos x.row 1 why
    let tag := if data then some m else none
    r.1.onJob id fun j => ((j.setCell x.geom x.course x.pos x.row (.erased why tag) none).setRef x tag).because
      ⟨x.geom, x.course, x.row, s.tck.count, x.pos, r.2.1, r.2.2⟩

/-- The cells that a member read serves, in order of rows. -/
def Job.cellsOf (j : Job) (mid : Nat) : List Cell := j.cells.filter fun x => x.st = .reading mid

/-- A job's member read has failed: every block of it is an erasure, recorded once (R94). -/
def Dev.cellsFailed (s : Dev) (id mid : Nat) (why : Cause) : Dev :=
  match s.job? id with
  | none => s
  | some j =>
    match s.field? j.field, j.cellsOf mid with
    | some f, x :: rest =>
      let r := s.erasure f x.geom x.course x.pos x.row (rest.length + 1) why
      r.1.onJob id fun j => (x :: rest).foldl (fun j y => (j.setCell y.geom y.course y.pos y.row (.erased why y.ref) none).because
        ⟨y.geom, y.course, y.row, s.tck.count, y.pos, r.2.1, r.2.2⟩) j
    | _, _ => s

/-- A job's member read has landed with its blocks. -/
def Dev.cellsLanded (s : Dev) (id mid lba : Nat) (l : List (Block × Meta)) : Dev :=
  match s.job? id with
  | none => s
  | some j =>
    match s.field? j.field with
    | none => s
    | some f => s.each (j.cellsOf mid) fun s x =>
        let e := (l[memberLba f.b x.course x.row - lba]?).getD (0, 0)
        s.cellLanded id f x e.1 e.2

/-! ## Rows -/

/-- The block of a cell that is a source. -/
def Job.good? (j : Job) (g : Bool) (c pos row : Nat) : Option (Block × Meta) :=
  match j.cell? g c pos row with
  | some ⟨_, _, _, _, .good b m, _, _⟩ => some (b, m)
  | _ => none

/-- The erased positions of a row, with cause and reference tag, in order of position. -/
def Job.erasedAt (j : Job) (w : Nat) (r : JRow) : List (Nat × Cause × Option Meta) :=
  (List.range w).filterMap fun pos => match j.cell? r.geom r.course pos r.row with
    | some ⟨_, _, _, _, .erased c t, _, _⟩ => some (pos, c, t)
    | _ => none

/-- A row by role, as far as its blocks are known. -/
def Job.view (j : Job) (w : Nat) (r : JRow) : Row where
  data := (List.range (w - 2)).map fun i => (j.good? r.geom r.course (dPos w r.course i) r.row).map (·.1)
  p := (j.good? r.geom r.course (pPos w r.course) r.row).map (·.1)
  q := (j.good? r.geom r.course (qPos w r.course) r.row).map (·.1)

/-- What the solution of a row comes to. -/
inductive RowOut where
  | full                        -- more of the row must be read
  | reread                      -- the re-read pass of R97
  | solved (data : List Block) (p q : Block) (stale : Option Nat)
  | lost                        -- DATA_LOST
  | mismatch (bad : List Nat)   -- TAG_MISMATCH, with the data positions whose reconstruction failed its check
  deriving DecidableEq, Repr

/-- The block at a position of a solved row. -/
def solvedAt (w c pos : Nat) (d : List Block) (p q : Block) : Block :=
  match roleAt w c pos with
  | .p => p
  | .q => q
  | .data i => d[i]?.getD 0

/-- The erased data positions whose reconstructed block fails its check under R488: against the reference tag, or
against the parity that the solution did not use. A masked position is accepted unchecked (R162). -/
def Dev.badAt (s : Dev) (f : Field) (w : Nat) (r : JRow) (row : Row) (d : List Block)
    (e : List (Nat × Cause × Option Meta)) : List Nat :=
  (e.filter fun x =>
    match roleAt w r.course x.1 with
    | .data i =>
      if f.masked r.course x.1 then false
      else match x.2.2 with
        | some t => !tagOk (s.keys f.id).tag (f.lba r.geom r.course i r.row) f.id (d[i]?.getD 0) t
        | none => row.spareParity d = some false
    | _ => false).map (·.1)

/-- A row with one more position counted as an erasure. -/
def Row.without (row : Row) (w c pos : Nat) : Row :=
  match roleAt w c pos with
  | .p => { row with p := none }
  | .q => { row with q := none }
  | .data i => { row with data := row.data.set i none }

/-- The tag search of R98: the positions other than `x` whose erasure gives at `x` a block that passes against its
reference tag, each with the solution. -/
def Dev.searchRow (s : Dev) (f : Field) (w : Nat) (r : JRow) (row : Row) (x : Nat) (t : Meta) :
    List (Nat × List Block × Block × Block) :=
  ((List.range w).filter (· ≠ x)).filterMap fun j =>
    match (row.without w r.course j).solve with
    | some (d, p, q) =>
      match roleAt w r.course x with
      | .data i => if tagOk (s.keys f.id).tag (f.lba r.geom r.course i r.row) f.id (d[i]?.getD 0) t then some (j, d, p, q) else none
      | _ => none
    | none => none

/-- Whether the tag search applies to a row: one erasure, a data block with a reference tag (R98). -/
def searches (f : Field) (w : Nat) (r : JRow) (e : List (Nat × Cause × Option Meta)) : Bool :=
  match e with
  | [(x, _, some _)] => f.tagged && (match roleAt w r.course x with | .data _ => true | _ => false)
  | _ => false

/-- The solution of a row (the pseudocode of R96). -/
def Dev.solveRow (s : Dev) (f : Field) (j : Job) (r : JRow) : RowOut :=
  let w := f.w r.geom
  let e := j.erasedAt w r
  let row := j.view w r
  if 2 < e.length then (if r.reread then .lost else .reread)
  else match row.solve with
    | none => if r.full then .lost else .full
    | some (d, p, q) =>
      if !f.tagged then .solved d p q none
      else
        let bad := s.badAt f w r row d e
        if bad = [] then .solved d p q none
        else if !r.reread then .reread
        else if searches f w r e then
          match e with
          | [(x, _, some t)] =>
            match s.searchRow f w r row x t with
            | [(k, d, p, q)] => .solved d p q (some k)
            | _ => .mismatch bad
          | _ => .mismatch bad
        else .mismatch bad

/-- Changes a row of a job. -/
def Job.setRow (j : Job) (r : JRow) (f : JRow → JRow) : Job :=
  { j with rows := modAll (fun x => x.geom = r.geom && x.course = r.course && x.row = r.row) f j.rows }

/-- The tag that travels with a block inside the device, in an untagged field too (R82, R375). -/
def Dev.tagOf (s : Dev) (f : Field) (lba : Nat) (b : Block) : Meta := blockTag (s.keys f.id).tag lba f.id b

/-- The metadata of a data block that is written to a member: its tag; 16 zero bytes in an untagged field. -/
def Dev.dataMeta (s : Dev) (f : Field) (lba : Nat) (b : Block) : Meta := if f.tagged then s.tagOf f lba b else 0

/-- The metadata of a block written to a position. -/
def Dev.metaAt (s : Dev) (f : Field) (g : Bool) (c pos row : Nat) (b : Block) : Meta :=
  match roleAt (f.w g) c pos with
  | .data i => s.dataMeta f (f.lba g c i row) b
  | .p => if f.tagged then parityMeta b f.id c (memberLba f.b c row) false else 0
  | .q => if f.tagged then parityMeta b f.id c (memberLba f.b c row) true else 0

/-- A block that a job writes to a position. -/
def Dev.wblk (s : Dev) (f : Field) (g : Bool) (c pos row : Nat) (b : Block) (heal : Bool) : WBlk :=
  ⟨g, c, pos, row, b, s.metaAt f g c pos row b, heal⟩

/-- A filler block at a data position (R158). -/
def filler (g : Bool) (c pos row : Nat) : WBlk := ⟨g, c, pos, row, 0, 0, false⟩

/-- Adds blocks to what a job writes; a later block replaces an earlier one at its place. -/
def Job.addWrites (j : Job) (l : List WBlk) : Job :=
  { j with writes := l.foldl (fun acc x =>
      dropAll (fun y => y.geom = x.geom && y.course = x.course && y.pos = x.pos && y.row = x.row) acc ++ [x]) j.writes }

/-! ## Member writes of a job -/

/-- Runs of adjacent blocks that one member command can carry. -/
def writeRuns (cap : Nat) : List WBlk → List (List WBlk)
  | [] => []
  | c :: l =>
    match writeRuns cap l with
    | (d :: r) :: rest =>
      if d.geom = c.geom && d.course = c.course && d.pos = c.pos && d.heal = c.heal && d.row = c.row + 1 && r.length + 1 < cap then
        (c :: d :: r) :: rest
      else [c] :: (d :: r) :: rest
    | rest => [c] :: rest

/-- P and Q blocks that a job writes go into the hod at the same time (R188), those of one row together; except on a RESHAPING
field (R186). -/
def Dev.hodFollow (s : Dev) (f : Field) (l : List WBlk) : Dev :=
  let at' (x : WBlk) (pos : Nat) : Option Block :=
    (l.find? fun y => y.geom = x.geom && y.course = x.course && y.row = x.row && y.pos = pos).map (·.data)
  if f.reshaping then s
  else s.each l fun s x =>
    let w := f.w x.geom
    match roleAt w x.course x.pos with
    | .p => s.hodWrite f.id x.course x.geom x.row (some x.data) (at' x (qPos w x.course))
    | .q => if (at' x (pPos w x.course)).isSome then s else s.hodWrite f.id x.course x.geom x.row none (some x.data)
    | .data _ => s

/-- A reconstruct-write or full-course destage fills the hod with the P and Q that GEN wrote, as it writes them (R186). -/
def Dev.hodGen (s : Dev) (j : Job) (f : Field) : Dev :=
  if j.kind = .destage && j.method ≠ .rmw then
    s.hodFillGen f j.course j.geom (j.method = .full) ((List.range f.b).filterMap fun o =>
      let at' (pos : Nat) : Option Block := (j.writes.find? fun x => x.pos = pos && x.row = o).map (·.data)
      match at' (pPos (f.w j.geom) j.course), at' (qPos (f.w j.geom) j.course) with
      | some p, some q => some (o, p, q)
      | _, _ => none)
  else s

/-- Hands a job's writes to the member ports: each block to the members that take writes of its position (R91). -/
def Dev.sendWrites (s : Dev) (id : Nat) : Dev :=
  match s.job? id with
  | none => s
  | some j =>
    match s.field? j.field with
    | none => s
    | some f =>
      let l := sortBy (fun x => (x.pos * 2 + b2n x.geom) * 2 ^ 60 + x.course * f.b + x.row) j.writes
      let s := (s.hodGen j f).hodFollow f l
      let caps := (l.flatMap fun x => f.writers x.geom x.pos).map s.mdts
      let runs := writeRuns (caps.foldl min 1048576) l
      let go (s : Dev) (r : List WBlk) : Dev :=
        match r with
        | [] => s
        | x :: _ => s.each (f.writers x.geom x.pos) fun s m =>
            (s.memberCmd m .write (memberLba f.b x.course x.row) r.length (.blocks (r.map fun y => (y.data, y.tag)))
              false (s.charged j) (j.kind = .scrub) (if x.heal then .heal id else .job id)).onJob id
              fun j => { j with writesLeft := j.writesLeft + 1 }
      ((s.each runs go).unpin id).onJob id fun j => { j with queued := true, stage := .writing }

/-! ## The lost-course list -/

/-- The most courses that the list holds (R78). -/
def maxLost : Nat := 851712

/-- With a failed store a course that the list takes up stays unsealed until the next cold reset (R141). The list names it by its number: it
belongs to the geometry of the side that holds it (R167). -/
def Dev.leaveUnsealed (s : Dev) (fid c : Nat) : Dev :=
  if !s.mst.failed then s
  else s.onField fid fun f => { f with unsealed := addNew (c, f.holds true c) f.unsealed }

/-- A course enters the list, or its mask grows (R79, R100, R159): record 0x3040. -/
def Dev.addLost (s : Dev) (fid c : Nat) (mask : BitVec 32) (reason : Nat) : Dev :=
  match s.field? fid with
  | none => s
  | some f =>
    let s := s.leaveUnsealed fid c
    match f.lost? c with
    | some e =>
      let e := { e with mask := e.mask ||| mask, reason := joinReason e.reason reason }
      let s := s.onField fid fun f => { f with lost := modAll (·.course = c) (fun _ => e) f.lost, lostChanged := true }
      s.record 0x3040 (s.srcField fid) e.mask.toNat (c % 2 ^ 32) (c / 2 ^ 32)
    | none =>
      if maxLost ≤ f.lost.length then s.onField fid fun f => { f with failedLost := true }
      else
        let s := s.onField fid fun f => { f with lost := insertBy (·.course) ⟨c, mask, reason⟩ f.lost, lostChanged := true }
        (s.count .morLostCourses).record 0x3040 (s.srcField fid) mask.toNat (c % 2 ^ 32) (c / 2 ^ 32)

/-- Positions leave a course's mask; a course whose mask is empty leaves the list (R161): record 0x3041. -/
def Dev.dropMask (s : Dev) (fid c : Nat) (mask : BitVec 32) : Dev :=
  match (s.field? fid).bind (·.lost? c) with
  | none => s
  | some e =>
    let m := e.mask &&& ~~~mask
    if m = e.mask then s
    else if m = 0 then
      let s := s.onField fid fun f => { f with lost := dropAll (·.course = c) f.lost, lostChanged := true }
      (s.count .morLostCleared).record 0x3041 (s.srcField fid) 0 (c % 2 ^ 32) (c / 2 ^ 32)
    else s.onField fid fun f => { f with lost := modAll (·.course = c) (fun e => { e with mask := m }) f.lost, lostChanged := true }

/-- The mask with one position. -/
def maskBit (pos : Nat) : BitVec 32 := 1#32 <<< pos

/-- An unsolved row: its erased positions, and the data positions that failed their reconstruction, join the job's
mask with their reasons (R100); record 0x3022 (R101). -/
def Dev.rowUnsolved (s : Dev) (id : Nat) (f : Field) (r : JRow) (bad : List Nat) (st : RowSt) : Dev :=
  match s.job? id with
  | none => s
  | some j =>
    let e := j.erasedAt (f.w r.geom) r
    let only := bad.filter fun x => !(e.any fun y => y.1 = x)
    let mask := (e.map (·.1) ++ bad).foldl (fun m x => m ||| maskBit x) (0 : BitVec 32)
    let why := ((e.map fun (y : Nat × Cause × Option Meta) => y.2.1.reason) ++ only.map fun _ => 1).foldl joinReason 0
    let cause := j.causeOf r
    let s := (s.count .morRowsUnsolved).record 0x3022 (s.srcField f.id) (cause.1.toNat + e.length * 2 ^ 16) cause.2.toNat
      (r.course % 2 ^ 32)
    s.onJob id fun j => { (j.setRow r fun x => { x with st := st }) with
      mask := j.mask ||| mask, reason := joinReason j.reason why, erasures := max j.erasures e.length }

/-- The heals of a solved row: every erased block that heals in place, and the stale block that a search found. -/
def Dev.healsOf (s : Dev) (f : Field) (j : Job) (r : JRow) (d : List Block) (p q : Block) (stale : Option Nat) : List WBlk :=
  let w := f.w r.geom
  let e := (j.erasedAt w r).filter fun x => x.2.1.heals
  let pos := e.map (·.1) ++ stale.toList
  pos.map fun x => s.wblk f r.geom r.course x r.row (solvedAt w r.course x d p q) true

/-- The heals that a job may write: a job that works under the lock of a destage waiting for a lost path writes none to the lost member
(R145). -/
def Dev.healsAllowed (s : Dev) (f : Field) (j : Job) (l : List WBlk) : List WBlk :=
  if j.held ≠ [] then l
  else l.filter fun x => match f.memberAt x.geom x.pos with
    | some m => ((s.member? m).bind (·.pathLost)).isNone
    | none => true

/-- A solved row: counted, its heals join the job's writes, and a search that succeeded records the stale block (R98), which counts among
the row's erasures (R101). -/
def Dev.rowSolved (s : Dev) (id : Nat) (f : Field) (r : JRow) (d : List Block) (p q : Block) (stale : Option Nat)
    (heal : Bool) : Dev :=
  match s.job? id with
  | none => s
  | some j =>
    let e := j.erasedAt (f.w r.geom) r
    let s := match stale with
      | some k =>
        let x := s.erasure f r.geom r.course k r.row 1 .stale
        x.1.record 0x3021 (s.srcField f.id) ((j.causeOf r).1.toNat + (e.length + 1) * 2 ^ 16 + k * 2 ^ 24)
          (j.causeOf r).2.toNat (r.course % 2 ^ 32)
      | none => s
    let s := if e = [] then s else s.count .morRowsSolved
    let w := if heal then s.healsAllowed f j (s.healsOf f j r d p q stale) else []
    s.onJob id fun j => { ((j.setRow r fun x => { x with st := .solved }).addWrites w) with
      erasures := max j.erasures (e.length + stale.toList.length) }

/-- Whether the tag search of R98 runs on a row: after its re-read pass the reconstructed block still fails its check. -/
def Dev.searchRuns (s : Dev) (f : Field) (j : Job) (r : JRow) : Bool :=
  let w := f.w r.geom
  let e := j.erasedAt w r
  let row := j.view w r
  r.reread && searches f w r e && (match row.solve with
    | some (d, _, _) => s.badAt f w r row d e ≠ []
    | none => false)

/-- A search that runs is counted (R98). -/
def Dev.countSearch (s : Dev) (f : Field) (j : Job) (r : JRow) : Dev := if s.searchRuns f j r then s.count .morSearches else s

end Sys2Proof.Machine
end

