-- ==== Sys2Proof/Machine/Work.lean ====
section
/-!
DEFINITION. The work of the exclusive holders but reshape: solutions for reads (R96 to R101), destage (R90 to R92),
rebuild (R152, R162), resync (R137), scrub (R105), seals and lost-line writes (R159, R231), and what follows when their
writes have landed (R15, R123, R161).
-/

namespace Sys2Proof.Machine

/-! ## Delivering blocks to reads -/

/-- Sets the state of a waiting block of a command. -/
def Cmd.setBlk (c : Cmd) (lba : Nat) (b : BlkSt) : Cmd :=
  { c with blks := modAll (fun e => e.1 = lba && e.2 = .waiting) (fun e => (e.1, b)) c.blks }

/-- A solved or re-read block goes to every READ and VERIFY that waits for it (R103). -/
def Dev.deliver (s : Dev) (fid lba : Nat) (b : Block) (t : Meta) : Dev :=
  s.onQs fun q => { q with cmds := q.cmds.map fun c =>
    if c.stage = .running && c.e.fieldId.toNat = fid then c.setBlk lba (.ready b t) else c }

/-- A block that could not be solved ends the part of one command that needs it. -/
def Dev.failBlk (s : Dev) (cmd : Option Nat) (lba : Nat) (st : BitVec 16) : Dev :=
  match cmd with
  | some c => s.onCmd c fun c => c.setBlk lba (.failed st)
  | none => s

/-- The cause that record 0x3020 of a read names (R101): that of the first course solved, in field LBA order, with the
largest count of erasures. -/
def Cmd.solvedBy (c : Cmd) (cause : BitVec 16 × BitVec 32) (n course : Nat) : Cmd :=
  match c.cause with
  | none => { c with cause := some (cause.1, cause.2, n, course) }
  | some (a, b, m, k) => { c with cause := some (if course < k then (cause.1, cause.2, max n m, course) else (a, b, max n m, k)) }

/-! ## Hod sources -/

/-- Puts P and Q of a row that the hod holds among a job's sources. -/
def Dev.hodCells (s : Dev) (id : Nat) (f : Field) (g : Bool) (c o : Nat) : Dev :=
  match s.hodRow? f.id c g o with
  | none => s
  | some (i, p, q) =>
    s.onJob id fun j =>
      let put (j : Job) (pos : Nat) (b : Block) : Job :=
        if (j.cell? g c pos o).isSome then j.setCell g c pos o (.good b 0) (some i)
        else { j with cells := j.cells ++ [⟨g, c, pos, o, .good b 0, some i, none⟩] }
      put (put j (pPos (f.w g) c) p) (qPos (f.w g) c) q

/-- Looks up one row in the hod and takes a hit as source; answers whether it missed. -/
def Dev.lookRow (s : Dev) (id : Nat) (f : Field) (g : Bool) (c o : Nat) (again : Bool) : Dev × Bool :=
  let x := s.hodLook id f c g o again
  match x.2 with
  | .hit _ => ((x.1.hodCells id f g c o).onJob id fun j => { j with served := addNew o j.served }, false)
  | .wait _ => (x.1, false)
  | .miss => (x.1, true)

/-- Every position of a row becomes a source of the job; P and Q come from the hod where it holds them (R103, R186). -/
def Dev.readWhole (s : Dev) (id : Nat) (f : Field) (r : JRow) : Dev :=
  let w := f.w r.geom
  let known : Bool := match s.job? id with
    | some j => (j.cell? r.geom r.course (pPos w r.course) r.row).isSome && (j.cell? r.geom r.course (qPos w r.course) r.row).isSome
    | none => true
  let s := if known then s else (s.lookRow id f r.geom r.course r.row false).1
  (s.addCells id f r.geom r.course r.row (List.range w)).onJob id fun j => j.setRow r fun x => { x with full := true }

/-- A re-read pass (R97): every block of the row is read again that is not an erasure by absence and was not hedged in
this solution. An erased block keeps its reference tag until its new read returns one. P and Q are read from their members even where the hod
served the first pass, and a block that fails again is recorded and counted as a further erasure (log entry 102). -/
def Dev.rereadRow (s : Dev) (id : Nat) (f : Field) (r : JRow) : Dev :=
  let s := (s.addCells id f r.geom r.course r.row (List.range (f.w r.geom))).onJob id fun j => j.setRow r fun x => { x with full := true }
  s.onJob id fun j => { (j.setRow r fun x => { x with reread := true }) with
    cells := j.cells.map fun x =>
      if x.geom = r.geom && x.course = r.course && x.row = r.row then
        match x.st with
        | .erased .absent _ => x
        | .erased .hedged _ => x
        | _ => { x with st := .want, fromHod := none }
      else x }

/-! ## Solutions (R96) -/

/-- The positions whose blocks a row's solution reads: all data, P, and Q when a data erasure has no reference tag,
more than one block is erased, or P is not at hand. -/
def solveSources (f : Field) (j : Job) (r : JRow) : List Nat :=
  let w := f.w r.geom
  let e := j.erasedAt w r
  let gone := (List.range w).filter fun pos => (f.reader? r.geom pos r.course).isNone && !(e.any fun x => x.1 = pos)
  let noRef := e.any fun x => x.2.2.isNone && f.isData r.geom r.course x.1
  let dgone := gone.any fun pos => f.isData r.geom r.course pos
  let needQ := noRef || dgone || 2 ≤ e.length + gone.length || (f.reader? r.geom (pPos w r.course) r.course).isNone
  (List.range w).filter fun pos => pos ≠ qPos w r.course || needQ

/-- The writes that a destage holds back for members whose path is lost serve a solution under its lock (R145): each
such block is known, and every other block of the lost member is an erasure by absence. -/
def Dev.lostPathCells (s : Dev) (id : Nat) (f : Field) (d : Job) : Dev :=
  let lost (pos : Nat) : Bool := match f.memberAt d.geom pos with
    | some m => ((s.member? m).bind (·.pathLost)).isSome
    | none => false
  let put (x : Cell) : Cell :=
    if lost x.pos then
      match d.writes.find? fun y => y.geom = x.geom && y.course = x.course && y.pos = x.pos && y.row = x.row with
      | some y => { x with st := .good y.data y.tag }
      | none => { x with st := .erased .absent none }
    else x
  s.onJob id fun j => { j with cells := j.cells.map put }

/-- A solution begins under its lock: sources that passed before the grant are read again, erasures stay (R96); held P
and Q rows come from the hod (R103, R186). -/
def Dev.beginSolve (s : Dev) (id : Nat) (f : Field) (holder : Option Job) : Dev :=
  match s.job? id with
  | none => s
  | some j =>
    let s := s.onJob id fun j => { j with cells := j.cells.filter fun x => match x.st with
      | .erased _ _ => true
      | _ => false }
    let s := s.each j.rows fun s r =>
      let s := match s.job? id with
        | some j => s.addCells id f r.geom r.course r.row (solveSources f j r)
        | none => s
      (s.lookRow id f r.geom r.course r.row false).1
    let s := match holder with
      | some d => s.lostPathCells id f d
      | none => s
    (s.readCells id).toEngine id

/-- A row that could not be solved ends the parts of commands that need it: of the command that the solution serves, the blocks that it
needs; of a further command that waits for the row, a block that was read well is served and any other ends (R99, R103). -/
def Dev.failRow (s : Dev) (j : Job) (f : Field) (r : JRow) (st : BitVec 16) : Dev :=
  s.each (List.range (f.d r.geom)) fun s i =>
    let lba := f.lba r.geom r.course i r.row
    let s := if j.need.contains lba then s.failBlk j.cmd lba st else s
    s.each j.others fun s c => match j.good? r.geom r.course (dPos (f.w r.geom) r.course i) r.row with
      | some x => s.onCmd c fun c => c.setBlk lba (.ready x.1 x.2)
      | none => s.failBlk (some c) lba st

/-- One row of a solution at the engine. -/
def Dev.solveStep (s : Dev) (id : Nat) (f : Field) (r : JRow) : Dev :=
  match s.job? id with
  | none => s
  | some j =>
    let s := s.countSearch f j r
    let lbas := (List.range (f.d r.geom)).map fun i => f.lba r.geom r.course i r.row
    match (if f.unsealed.contains (r.course, r.geom) then .lost else s.solveRow f j r) with
    | .full => s.readWhole id f r
    | .reread => s.rereadRow id f r
    | .solved d p q st =>
      let s := s.each (lbas.zip d) fun s e => s.deliver f.id e.1 e.2 (s.dataMeta f e.1 e.2)
      let n := max 1 (j.erasedAt (f.w r.geom) r).length + st.toList.length
      let s := if (j.erasedAt (f.w r.geom) r) = [] then s else
        s.each (j.cmd.toList ++ j.others) fun s c => s.onCmd c fun c => c.solvedBy j.firstCause n r.course
      (s.rowSolved id f r d p q st true).onJob id fun j => { j with
        staged := j.staged ++ (lbas.zip d).map fun e => (e.1, e.2, s.dataMeta f e.1 e.2) }
    | .lost => ((s.failRow j f r stDataLost)).rowUnsolved id f r [] .lost
    | .mismatch bad => (s.failRow j f r stTagMismatch).rowUnsolved id f r bad .mismatch

/-- The rows of a job that are still open. -/
def Job.openRows (j : Job) : List JRow := j.rows.filter fun r => r.st = .open

/-- The rows of a job without solution. -/
def Job.badRows (j : Job) : List JRow := j.rows.filter fun r => r.st = .lost || r.st = .mismatch

/-- An engine pass over the open rows: `step` works on one row; blocks that it wants are read next, and the job stays
at the engine's end when no row is open. -/
def Dev.enginePass (s : Dev) (id : Nat) (step : Dev → JRow → Dev) : Dev :=
  match s.job? id with
  | none => s
  | some j =>
    let s := s.each j.openRows step
    match s.job? id with
    | none => s
    | some j => if j.reads then (s.readCells id).toEngine id else s

/-- Whether a job at the engine has finished its rows. -/
def Dev.rowsDone (s : Dev) (id : Nat) : Bool :=
  match s.job? id with
  | some j => j.stage = .engine && j.openRows = []
  | none => false

/-- The courses of a job's unsolved rows enter the list, with the job's mask and reason. -/
def Dev.listLost (s : Dev) (id : Nat) (reason : Option Nat) : Dev :=
  match s.job? id with
  | none => s
  | some j => if j.badRows = [] then s else s.addLost j.field j.course j.mask (reason.getD j.reason)

/-- The end of a solution's engine work: its heals wait for the Retire phase that posts the read (R25). -/
def Dev.solveDone (s : Dev) (id : Nat) : Dev :=
  (s.listLost id none).onJob id fun j => { j with stage := .writing, queued := false }

/-! ## Seals (R159) -/

/-- The data of a row as its seal computes P and Q from it: masked positions and positions whose content is not known
count as filler. -/
def sealData (f : Field) (j : Job) (r : JRow) (mask : BitVec 32) : List Block :=
  (List.range (f.d r.geom)).map fun i =>
    let pos := dPos (f.w r.geom) r.course i
    if mask.getLsbD pos then 0 else ((j.good? r.geom r.course pos r.row).map (·.1)).getD 0

/-- The writes of a seal: filler at each masked data position and the P and Q that GEN computes. -/
def Dev.sealWrites (s : Dev) (f : Field) (j : Job) (mask : BitVec 32) : List WBlk :=
  j.badRows.flatMap fun r =>
    let w := f.w r.geom
    let d := sealData f j r mask
    let fill := (List.range w).filter fun pos => f.isData r.geom r.course pos && mask.getLsbD pos
    (fill.map fun pos => filler r.geom r.course pos r.row) ++
      [s.wblk f r.geom r.course (pPos w r.course) r.row (rowP d) false,
       s.wblk f r.geom r.course (qPos w r.course) r.row (rowQ d) false]

/-- The unmasked data positions of a row whose content a seal does not know (R159). -/
def sealUnknown (f : Field) (j : Job) (mask : BitVec 32) (r : JRow) : List Nat :=
  ((List.range (f.d r.geom)).map (dPos (f.w r.geom) r.course)).filter fun pos =>
    !mask.getLsbD pos && (j.good? r.geom r.course pos r.row).isNone

/-- A row of which a seal does not know every unmasked data position is read: the positions that have not been read, and the masked ones
again, which count as known by their member contents (R159, R160). -/
def Dev.sealRead (s : Dev) (id : Nat) (f : Field) (r : JRow) : Dev :=
  let w := f.w r.geom
  let again (x : Cell) : Cell :=
    if x.geom = r.geom && x.course = r.course && x.row = r.row && f.masked r.course x.pos && f.isData r.geom r.course x.pos &&
        (f.reader? r.geom x.pos r.course).isSome then
      match x.st with
      | .erased _ _ => { x with st := .want }
      | _ => x
    else x
  (s.addCells id f r.geom r.course r.row (List.range w)).onJob id fun j => { j with cells := j.cells.map again }

/-- A seal's writes are made, and it waits for its guard. -/
def Dev.sealGo (s : Dev) (id : Nat) : Dev :=
  match s.job? id with
  | none => s
  | some j =>
    match s.field? j.field with
    | none => s.endJob id
    | some f =>
      let w := s.sealWrites f j (f.lostMask j.course)
      let s := s.onJob id fun j => { j with writes := w, queued := false, stage := .guarding }
      if j.guardQueued then s else s.queueGuard id f j.course j.geom

/-- A job with unsolved rows seals its course under the lock that it holds: it waits for its guard, or first reads what it does not know. A
solution under another's lock waits for its own (R145, R159). A failed store starts no seal (R141). -/
def Dev.startSeal (s : Dev) (id : Nat) : Dev :=
  match s.job? id with
  | none => s
  | some j =>
    match s.field? j.field with
    | none => s.endJob id
    | some f =>
      if s.mst.failed then s.endJob id
      else if j.held = [] then
        let locks := [(j.course, j.geom)]
        let s := s.onJob id fun j => { j with kind := .seal, stage := .waitLock, cells := [], writes := [], queued := false, locks := locks }
        s.queueLocks { j with locks := locks }
      else
        let rows := j.badRows.filter fun r => sealUnknown f j (f.lostMask j.course) r ≠ []
        let s := s.onJob id fun j => { j with kind := .seal, writes := [], queued := false }
        if rows = [] then s.sealGo id
        else ((s.each rows fun s r => s.sealRead id f r).readCells id).toEngine id

/-- One row of a seal at the engine: an unmasked position that is not known is solved from the row; when the row does not allow that, it joins
LOST_MASK with the reason of its erasure (R159). -/
def Dev.sealRow (s : Dev) (id : Nat) (f : Field) (r : JRow) : Dev :=
  match s.job? id with
  | none => s
  | some j =>
    let w := f.w r.geom
    let gone := sealUnknown f j (f.lostMask j.course) r
    if gone = [] then s
    else match (j.view w r).solve with
      | some (d, p, q) => s.onJob id fun j => gone.foldl (fun j pos =>
          j.setCell r.geom r.course pos r.row (.good (solvedAt w r.course pos d p q) 0) none) j
      | none =>
        let why := gone.foldl (fun n pos => joinReason n
          ((((j.erasedAt w r).find? (·.1 = pos)).map fun (e : Nat × Cause × Option Meta) => e.2.1.reason).getD 3)) 0
        s.addLost f.id j.course (gone.foldl (fun m pos => m ||| maskBit pos) 0) why

/-- What a seal has read is there: its rows are completed and its writes made. -/
def Dev.sealSolve (s : Dev) (id : Nat) (f : Field) : Dev :=
  match s.job? id with
  | none => s
  | some j => (s.each j.badRows fun s r => s.sealRow id f r).sealGo id

/-- What a seal's landing means: masked P and Q positions leave LOST_MASK when it has rewritten every row (R161). -/
def Dev.sealLanded (s : Dev) (id : Nat) : Dev :=
  match s.job? id with
  | none => s
  | some j =>
    match s.field? j.field with
    | none => s.endJob id
    | some f =>
      let w := f.w j.geom
      let s := if (List.range f.b).all fun o => j.badRows.any fun r => r.row = o then
          s.dropMask f.id j.course (maskBit (pPos w j.course) ||| maskBit (qPos w j.course))
        else s
      s.endJob id

/-! ## Destage (R90 to R92) -/

/-- Whether a destage may take a line: committed, or of a command that becomes durable only by landing (R22), once its
marks are committed. -/
def Dev.destageable (s : Dev) (l : Line) : Bool :=
  !l.lostWait && (!s.twn.fenced.contains l.field || l.mirrored) && (l.st = .committed ||
    (l.st = .uncommitted && (match s.cmd? l.cmd with
      | some c => c.r22 && c.arrived && s.marksLanded c
      | none => false)))

/-- The newest destageable version of each block of a course. -/
def Dev.destageLines (s : Dev) (f : Field) (c : Nat) (g : Bool) : List Line :=
  let l := (s.courseLines f c g).filter s.destageable
  let lbas := l.foldl (fun acc x => addNew x.lba acc) []
  lbas.filterMap fun b => newestOf (l.filter (·.lba = b))

/-- The method for `m` of the course's blocks (R90). -/
def methodOf (m all : Nat) : Method := if m = all then .full else if all ≤ 2 * m then .rcw else .rmw

/-- The dirty block that a destage writes at a place. -/
def Job.dirty? (j : Job) (lba : Nat) : Option (Block × Meta) :=
  (j.lines.find? (·.1 = lba)).map fun e => (e.2.2.1, e.2.2.2)

/-- The rows that hold one of the blocks. -/
def Field.rowsOf (f : Field) (lbas : List Nat) : List Nat :=
  sortBy (fun o => o) (lbas.foldl (fun l b => addNew (f.place b).row l) [])

/-- Looks up the old P and Q of rows for a read-modify-write (R186): answers the rows missed. -/
def Dev.lookRows (s : Dev) (id : Nat) (f : Field) (g : Bool) (c : Nat) (rows : List Nat) : Dev × List Nat :=
  rows.foldl (fun acc o =>
    let x := acc.1.lookRow id f g c o false
    (x.1, if x.2 then acc.2 ++ [o] else acc.2)) (s, [])

/-- A destage begins under its lock: it takes every destageable dirty block, records the generation, chooses its method
(R90), and reads what the method needs; a missing bit in the newest replica starts the urgent replica (R123). P and Q of a row that was
looked up in the queue come from the hod only where that was a hit, and the line holds them still; erasures of a fill that it waited on
stay erasures (R187, R196). -/
def Dev.beginDestage (s : Dev) (id : Nat) (f : Field) : Dev :=
  match s.job? id with
  | none => s
  | some j =>
    let l := s.destageLines f j.course j.geom
    let m := methodOf l.length (f.courseBlocks j.geom)
    let o := f.rowsOf (l.map (·.lba))
    let rows := if m = .rmw then o else List.range f.b
    let known := j.rows.map (·.row)
    let kept := j.cells.filter fun x => m = .rmw && o.contains x.row && (match x.st with | .erased _ _ => true | _ => false)
    let gen := ((s.ctx? f.id j.course j.geom).map (·.gen)).getD 0
    let s := s.onJob id fun j => { j with
      method := m, gen := gen, cells := kept
      lines := l.map fun x => (x.lba, x.version, x.data, x.tag)
      rows := rows.map fun o => ⟨j.geom, j.course, o, .open, false, false⟩ }
    let s := if l = [] then s else s.count (match m with | .full => .morFullCourse | .rcw => .morRcw | .rmw => .morRmw)
    let w := f.w j.geom
    let r := f.region j.geom j.course
    let s := s.urgentReplica f r.1 r.2
    let s := match m with
      | .full => s
      | .rcw => s.each rows fun s o => s.addCells id f j.geom j.course o
          (((List.range (f.d j.geom)).filter fun i => !(l.any fun x => x.lba = f.lba j.geom j.course i o)).map (dPos w j.course))
      | .rmw =>
        let s := s.each rows fun s o => s.addCells id f j.geom j.course o
          (((List.range (f.d j.geom)).filter fun i => l.any fun x => x.lba = f.lba j.geom j.course i o).map (dPos w j.course))
        let old := rows.filter fun o => known.contains o && !kept.any fun x => x.row = o
        let s := s.each (old.filter j.served.contains) fun s o => s.hodCells id f j.geom j.course o
        let lost := old.filter fun o => !j.served.contains o || (s.hodRow? f.id j.course j.geom o).isNone
        let look := s.lookRows id f j.geom j.course (rows.filter fun o => !known.contains o)
        let s := look.1
        let miss := lost ++ look.2
        let segs := miss.foldl (fun l o => addNew (o / 16) l) []
        let s := s.each segs fun s sg => s.hodStartFill id f j.course j.geom sg (miss.filter fun o => o / 16 = sg)
        s.each rows fun s o => s.addCells id f j.geom j.course o [pPos w j.course, qPos w j.course]
    if l = [] then s.endJob id else (s.readCells id).toEngine id

/-- The data blocks of a row with the destage's new versions put in. -/
def Job.fresh? (f : Field) (j : Job) (r : JRow) (i : Nat) : Option Block :=
  match j.dirty? (f.lba r.geom r.course i r.row) with
  | some (b, _) => some b
  | none => (j.good? r.geom r.course (dPos (f.w r.geom) r.course i) r.row).map (·.1)

/-- The writes of one destaged row: its dirty blocks with the tags that travelled with them, and P and Q. -/
def Dev.destageRow (s : Dev) (id : Nat) (f : Field) (r : JRow) (p q : Block) (heals : List WBlk) : Dev :=
  s.onJob id fun j =>
    let w := f.w r.geom
    let data := (List.range (f.d r.geom)).filterMap fun i =>
      (j.dirty? (f.lba r.geom r.course i r.row)).map fun x =>
        (⟨r.geom, r.course, dPos w r.course i, r.row, x.1, if f.tagged then x.2 else 0, false⟩ : WBlk)
    (j.setRow r fun x => { x with st := .solved }).addWrites
      (heals ++ data ++ [s.wblk f r.geom r.course (pPos w r.course) r.row p false,
        s.wblk f r.geom r.course (qPos w r.course) r.row q false])

/-- One row of a destage at the engine: UPD when old data, old P and old Q are at hand; GEN when every clean block is;
otherwise more of the row is read, and at last it is solved (R92). -/
def Dev.destageStep (s : Dev) (id : Nat) (f : Field) (r : JRow) : Dev :=
  match s.job? id with
  | none => s
  | some j =>
    let w := f.w r.geom
    let ix := List.range (f.d r.geom)
    let isDirty (i : Nat) : Bool := (j.dirty? (f.lba r.geom r.course i r.row)).isSome
    let dirty := ix.filter isDirty
    let clean := ix.filter fun i => !isDirty i
    let at' (pos : Nat) : Option Block := (j.good? r.geom r.course pos r.row).map (·.1)
    let oldP := at' (pPos w r.course)
    let oldQ := at' (qPos w r.course)
    let upd := j.method = .rmw && dirty.all (fun i => (at' (dPos w r.course i)).isSome)
    match upd, oldP, oldQ with
    | true, some p, some q =>
      let delta := dirty.map fun i =>
        (i, (at' (dPos w r.course i)).getD 0 ^^^ ((j.dirty? (f.lba r.geom r.course i r.row)).map (·.1)).getD 0)
      s.destageRow id f r (updP p delta) (updQ q delta) []
    | _, _, _ =>
      let row := ix.map (Job.fresh? f j r)
      if row.all (·.isSome) then
        let d := row.map (·.getD 0)
        s.destageRow id f r (rowP d) (rowQ d) []
      else if clean.any fun i => (j.cell? r.geom r.course (dPos w r.course i) r.row).isNone then
        s.addCells id f r.geom r.course r.row (clean.map (dPos w r.course))
      else if !r.full then s.readWhole id f r
      else
        let s := s.countSearch f j r
        match s.solveRow f j r with
        | .full => s.rowUnsolved id f r [] .lost
        | .reread => s.rereadRow id f r
        | .solved d p q st =>
          let heals := (s.healsOf f j r d p q st).filter fun x => match roleAt w r.course x.pos with
            | .data i => !isDirty i
            | _ => false
          let s := s.rowSolved id f r d p q st false
          let new := ix.map fun i => ((j.dirty? (f.lba r.geom r.course i r.row)).map (·.1)).getD (d[i]?.getD 0)
          s.destageRow id f r (rowP new) (rowQ new) heals
        | .lost => s.rowUnsolved id f r [] .lost
        | .mismatch bad => s.rowUnsolved id f r bad .mismatch

/-- The end of a destage's engine work: it queues its guard and waits for R123. A failed store gives none (R141). -/
def Dev.destageDone (s : Dev) (id : Nat) : Dev :=
  let s := s.listLost id none
  match s.job? id with
  | none => s
  | some j =>
    match s.field? j.field with
    | none => s.endJob id
    | some f =>
      if s.mst.failed then s.endJob id
      else
        let s := s.onJob id fun j => { j with stage := .guarding }
        if j.guardQueued then s else s.queueGuard id f j.course j.geom

/-- Lines that a destage has written become clean; older versions of their blocks leave the cache; with a live partner
their mirrored versions wait for the guard's removal (R15, R246). -/
def Dev.cleanLines (s : Dev) (f : Nat) (l : List (Nat × Nat × Block × Meta)) : Dev :=
  let old (x : Line) : Bool := x.field = f && l.any fun e => e.1 = x.lba && x.version < e.2.1
  let written (x : Line) : Bool := x.field = f && l.any fun e => e.1 = x.lba && e.2.1 = x.version
  let s := s.onCache fun k => { k with
    lines := modAll written (fun x => { x with st := .clean, slot := none, pinned := false }) (dropAll old k.lines) }
  match s.partner, s.field? f with
  | true, some x => s.onTwn fun t => { t with
      releases := t.releases ++ l.map fun e => let p := x.place e.1; (f, e.1, e.2.1, p.course, p.geom) }
  | _, _ => s

/-- The positions that a destage has rewritten whole: data bricks whose every block it wrote, and P and Q when it
wrote every row (R161). -/
def wholeMask (f : Field) (j : Job) : BitVec 32 :=
  (List.range (f.w j.geom)).foldl (fun m pos =>
    if (List.range f.b).all fun o => j.writes.any fun x => x.pos = pos && x.row = o && !x.heal then m ||| maskBit pos else m) 0

/-- Every write of a destage has landed: its lines are clean, its guard goes, masked bricks that it wrote whole leave
the list; rows that could not be solved are sealed under the same lock. -/
def Dev.destageLanded (s : Dev) (id : Nat) : Dev :=
  match s.job? id with
  | none => s
  | some j =>
    match s.field? j.field with
    | none => s.endJob id
    | some f =>
      let bad := j.badRows.map (·.row)
      let done := j.lines.filter fun e => !bad.contains (f.placeIn j.geom e.1).row
      let s := if f.failed then s else s.cleanLines f.id done
      let s := s.dropMask f.id j.course (wholeMask f j)
      if bad ≠ [] && !f.failed then s.startSeal id else s.endJob id

/-! ## Rebuild (R152, R162) -/

/-- A course of a rebuild begins under its lock: the targets are erasures by absence. P and Q are looked up in the hod, and a row of which
the hod holds every target needs nothing else (R186). -/
def Dev.beginRebuild (s : Dev) (id : Nat) (f : Field) : Dev :=
  match s.job? id with
  | none => s
  | some j =>
    let w := f.w j.geom
    let only := j.targets.all fun t => !f.isData j.geom j.course t
    let s := s.onJob id fun j => { j with rows := (List.range f.b).map fun o => ⟨j.geom, j.course, o, .open, false, false⟩ }
    let s := s.each (List.range f.b) fun s o =>
      let s := (s.lookRow id f j.geom j.course o false).1
      let held := only && (s.job? id).any fun j => j.targets.all fun t => (j.good? j.geom j.course t o).isSome
      if held then s
      else s.addCells id f j.geom j.course o ((List.range w).filter fun pos => j.targets.contains pos || !only || f.isData j.geom j.course pos)
    (s.readCells id).toEngine id

/-- What a rebuild writes at a target: at a masked data position a block of zeros becomes filler again (R162). -/
def Dev.targetBlk (s : Dev) (f : Field) (r : JRow) (pos : Nat) (b : Block) : WBlk :=
  if f.masked r.course pos && f.isData r.geom r.course pos && b = 0 then filler r.geom r.course pos r.row
  else s.wblk f r.geom r.course pos r.row b false

/-- The engine input of a row of a job that the rebuild share bounds: its source blocks (R153). -/
def Dev.chargeRow (s : Dev) (j : Job) (r : JRow) : Dev :=
  if !s.charged j then s
  else s.onMpt fun p => { p with bytesUsed := p.bytesUsed + 4096 * (j.cells.filter fun x => x.geom = r.geom && x.course = r.course && x.row = r.row &&
    (match x.st with | .good _ _ => true | _ => false)).length }

/-- One row of a rebuild at the engine: the targets' blocks, from the hod where it holds them all, and the heals of other erasures. -/
def Dev.rebuildStep (s : Dev) (id : Nat) (f : Field) (r : JRow) : Dev :=
  match s.job? id with
  | none => s
  | some j =>
    let s := (s.chargeRow j r).countSearch f j r
    let held := j.targets.filterMap fun pos => (j.good? r.geom r.course pos r.row).map fun x => s.targetBlk f r pos x.1
    if held.length = j.targets.length then s.onJob id fun j => (j.setRow r fun x => { x with st := .solved }).addWrites held
    else match s.solveRow f j r with
    | .full => s.readWhole id f r
    | .reread => s.rereadRow id f r
    | .solved d p q st =>
      let w := f.w r.geom
      let t := j.targets.map fun pos => s.targetBlk f r pos (solvedAt w r.course pos d p q)
      (s.rowSolved id f r d p q st true).onJob id fun j => j.addWrites t
    | .lost => s.rowUnsolved id f r [] .lost
    | .mismatch bad => s.rowUnsolved id f r bad .mismatch

/-- The end of the engine work of a rebuild, scrub or resync: the writes go out at once. -/
def Dev.workDone (s : Dev) (id : Nat) (reason : Option Nat) : Dev := (s.listLost id reason).sendWrites id

/-- The courses that a target covers: all of its geometry; in a reshaping field those of its side (R151, R174). -/
def Field.sideCourses (f : Field) (side : Bool) : Nat × Nat :=
  match f.rs with
  | none => (0, f.courses)
  | some r =>
    if side then (if ascending r then (0, r.headland) else (r.headland, r.newCourses - r.headland))
    else
      let d := r.newWidth - 2
      if ascending r then
        let c := r.headland * d / (max 1 (f.width - 2))
        (c, f.courses - c)
      else (0, ceilDiv (r.headland * d) (f.width - 2))

/-- The courses that a target must cover before it ends. -/
def Field.targetCount (f : Field) (t : Target) : Nat := (f.sideCourses t.side).2

/-- Advances a target's NEXT_COURSE, taken modulo `n`, over courses whose writes have landed, until it has covered
`cnt` of them (R152). -/
def Target.advance (n cnt : Nat) : Nat → Target → Target
  | 0, t => t
  | fuel + 1, t =>
    if t.landed.contains t.next && t.covered < cnt then
      Target.advance n cnt fuel { t with
        next := (t.next + 1) % (max 1 n), covered := t.covered + 1, landed := dropAll (· = t.next) t.landed, sinceCkpt := t.sinceCkpt + 1 }
    else t

/-- Whether a course of a target is under way: started, and not passed. A course of a pass that was stopped is not (R156). -/
def Target.awaits (t : Target) (n c : Nat) : Bool := (c + n - t.next) % (max 1 n) < (t.issued + n - t.next) % (max 1 n)

/-- A target that waits to join a pass that has ended meanwhile runs a pass of its own (R155). -/
def Field.loneTarget (f : Field) : Field :=
  if f.targets.all (·.joined) then { f with targets := f.targets.map fun t => { t with joined := false } } else f

/-- A target goes back by the courses of which no progress block tells yet, and resumes there (R154, R156). -/
def Target.resume (t : Target) (n back : Nat) : Target :=
  let k := (t.next + n - back % (max 1 n)) % (max 1 n)
  { t with next := k, issued := k, landed := [], covered := t.covered - back, sinceCkpt := t.sinceCkpt - back }

/-- A course has landed on the targets of a job: NEXT_COURSE advances, and a progress block is written after every
MOR_REBUILD_CKPT_COURSES courses (R152, R154). -/
def Dev.rebuildLanded (s : Dev) (id : Nat) : Dev :=
  match s.job? id with
  | none => s
  | some j =>
    let step (f : Field) (t : Target) : Target :=
      if t.side = j.geom && ((f.posIn t.side t.position).any j.targets.contains) && t.awaits (f.coursesOf j.geom) j.course then
        Target.advance (f.coursesOf j.geom) (f.targetCount t) 257 { t with landed := addNew j.course t.landed }
      else t
    let s := s.onField j.field fun f => { f with targets := f.targets.map (step f) }
    let s := s.countN .morRebuildCourses j.targets.length
    let s := match s.field? j.field with
      | some f => if f.targets.any fun t => s.param .morRebuildCkptCourses ≤ t.sinceCkpt then s.writeProgress f.id else s
      | none => s
    if j.badRows ≠ [] then s.startSeal id else s.endJob id

/-! ## Resync (R137) -/

/-- A resync of a course begins under its lock: every block of the course is a source. -/
def Dev.beginResync (s : Dev) (id : Nat) (f : Field) : Dev :=
  match s.job? id with
  | none => s
  | some j =>
    let s := s.onJob id fun j => { j with rows := (List.range f.b).map fun o => ⟨j.geom, j.course, o, .open, false, false⟩ }
    let s := s.each (List.range f.b) fun s o =>
      let s := s.addCells id f j.geom j.course o (List.range (f.w j.geom))
      (s.lookRow id f j.geom j.course o false).1
    (s.readCells id).toEngine id

/-- The version of a block that the restored cache holds. -/
def Dev.cached? (s : Dev) (fid lba : Nat) : Option Block :=
  (newestOf ((s.versions fid lba).filter Line.dirty)).map (·.data)

/-- Whether the cache holds every block of a brick. -/
def Dev.brickCached (s : Dev) (f : Field) (g : Bool) (c i : Nat) : Bool :=
  (List.range f.b).all fun o => (s.cached? f.id (f.lba g c i o)).isSome

/-- One row of a resync, by the first case of R137 that applies: the row's data when it can be made consistent, with
the data position that was accepted as stale. -/
inductive SyncOut where
  | full                        -- more of the row must be read
  | reread                      -- a re-read pass
  | ok (d : List Block) (stale : Option Nat) (heal : Bool)
  | lost
  deriving DecidableEq, Repr

/-- The row of one absent data position `x` of a tagged field, solved from P and from Q; when the two differ, the one
stale position whose solved block is the block that the restored cache holds (R137). -/
def Dev.syncOne (s : Dev) (f : Field) (r : JRow) (row : Row) (x : Nat) : SyncOut :=
  let fromP := ({ row with q := none } : Row).solve
  let fromQ := ({ row with p := none } : Row).solve
  match row.p, row.q, fromP, fromQ with
  | some _, some _, some a, some b =>
    if a.1 = b.1 then .ok a.1 none false
    else
      let found := ((List.range row.data.length).filter (· ≠ x)).filterMap fun k =>
        match s.cached? f.id (f.lba r.geom r.course k r.row) with
        | some blk => match ({ row with data := row.data.set k none } : Row).solve with
          | some (d, _, _) => if d[k]?.getD 0 = blk then some (k, d) else none
          | none => none
        | none => none
      match found with
      | [(k, d)] => .ok d (some k) false
      | _ => .lost
  | _, _, _, _ => .lost

/-- A job whose row has the positions that count as known with the cached ciphertext: those whose brick the restored cache holds in full,
on a member that is FAILED or MISSING (R137). -/
def Dev.knowCached (s : Dev) (f : Field) (j : Job) (r : JRow) : Job :=
  let w := f.w r.geom
  (List.range (w - 2)).foldl (fun j i =>
    let pos := dPos w r.course i
    let down := match f.entry? r.geom pos with
      | some e => e.state = 4 || e.state = 5
      | none => true
    match s.cached? f.id (f.lba r.geom r.course i r.row) with
    | some b => if down && s.brickCached f r.geom r.course i then j.setCell r.geom r.course pos r.row (.good b 0) none else j
    | none => j) j

/-- The case of R137 that a row falls under; the job has the cached positions among its sources. -/
def Dev.syncRow (s : Dev) (f : Field) (j : Job) (r : JRow) : SyncOut :=
  let w := f.w r.geom
  let row := j.view w r
  let e := (j.erasedAt w r).filter fun x => f.isData r.geom r.course x.1
  if e = [] then .ok row.known none false
  else if e.any fun x => x.2.1 ≠ .absent then
    match s.solveRow f j r with
    | .full => .full
    | .reread => .reread
    | .solved d _ _ st => .ok d (st.bind fun k => match roleAt w r.course k with | .data i => some i | _ => none) true
    | _ => .lost
  else if !f.tagged then .lost
  else match row.holes with
    | [x] => s.syncOne f r row x
    | [_, _] =>
      let touched := (List.range (w - 2)).any fun i => (s.cached? f.id (f.lba r.geom r.course i r.row)).isSome
      match row.solve with
      | some (d, _, _) => if touched then .lost else .ok d none false
      | none => .lost
    | _ => .lost

/-- One row of a resync at the engine. -/
def Dev.resyncStep (s : Dev) (id : Nat) (f : Field) (r : JRow) : Dev :=
  match s.job? id with
  | none => s
  | some j =>
    let w := f.w r.geom
    let j := s.knowCached f j r
    let s := (s.chargeRow j r).countSearch f j r
    match s.syncRow f j r with
    | .full => s.readWhole id f r
    | .reread => s.rereadRow id f r
    | .ok d st heal =>
      let e := j.erasedAt w r
      let fix := (List.range (w - 2)).filter fun i =>
        st = some i || (heal && e.any fun x => x.1 = dPos w r.course i && x.2.1.heals)
      let l := (fix.map fun i => s.wblk f r.geom r.course (dPos w r.course i) r.row (d[i]?.getD 0) (st ≠ some i)) ++
        [s.wblk f r.geom r.course (pPos w r.course) r.row (rowP d) false,
         s.wblk f r.geom r.course (qPos w r.course) r.row (rowQ d) false]
      let s := if heal then s.count .morRowsSolved else s
      s.onJob id fun j => (j.setRow r fun x => { x with st := .solved }).addWrites l
    | .lost => s.rowUnsolved id f r [] .lost

/-- The first course of a marked region and the count of its courses, in the geometry of each side. -/
def Field.regionSpan (f : Field) (fine : Bool) (r : Nat) (g : Bool) : Nat × Nat :=
  let span := 2 ^ (if fine then f.fineShift else f.coarseShift)
  let last := if !fine && r = 15 then f.capacity else min f.capacity ((r + 1) * span)
  let d := max 1 (f.courseBlocks g)
  let c0 := ceilDiv (r * span) d
  (c0, ceilDiv last d - c0)

/-- The courses of a marked region, from the first LBA of the region. -/
def Field.regionCourses (f : Field) (fine : Bool) (r : Nat) (g : Bool) : List Nat :=
  let x := f.regionSpan fine r g
  (List.range x.2).map (x.1 + ·)

/-- The courses of a marked region on both sides of a headland, each with its geometry. -/
def Field.regionAll (f : Field) (m : Bool × Nat) : List (Nat × Bool) :=
  ((f.regionCourses m.1 m.2 false).map fun c => (c, false)) ++
    (if f.rs.isSome then (f.regionCourses m.1 m.2 true).map fun c => (c, true) else []) |>.filter fun x => f.holds x.2 x.1

/-- A record about courses: their count, and the first of them or 0 (R143). -/
def Dev.courseRecord (s : Dev) (code fid count first : Nat) : Dev :=
  s.record code (s.srcField fid) count (first % 2 ^ 32) (first / 2 ^ 32 % 2 ^ 8)

/-- A record about the courses of some regions of a field (R143). -/
def Dev.regionRecord (s : Dev) (code fid : Nat) (rs : List (Bool × Nat)) : Dev :=
  let spans : List (Nat × Nat) := match s.field? fid with
    | none => []
    | some f => (rs.map fun r => f.regionSpan r.1 r.2 false).filter fun x => 0 < x.2
  let first := spans.foldl (fun m x => min m x.1) ((spans.head?.map (·.1)).getD 0)
  s.courseRecord code fid (spans.foldl (fun n x => n + x.2) 0) first

/-- The end of a resync's engine work: a row that could not be made consistent loses its course, record 0x3035. -/
def Dev.resyncDone (s : Dev) (id : Nat) : Dev :=
  match s.job? id with
  | none => s
  | some j =>
    let s := if j.badRows = [] then s else
      s.courseRecord 0x3035 j.field 1 j.course
    s.workDone id (some 3)

/-- Whether a course lies in a region marked for whole-region resync and has not been resynced (R138), or holds mirrored lines of a
takeover (R23). -/
def Field.needsResync (f : Field) (g : Bool) (c : Nat) : Bool :=
  let l := f.firstLba g c
  f.lineSet.contains (c, g) || f.holds g c && f.marked.any (fun m => m.2 = (if m.1 then f.fineRegion l else f.coarseRegion l)) && !f.resynced.contains (2 * c + b2n g)

/-- Whether it is a course's turn in the whole-region resync, which runs in ascending LBA order: every course below it has been
resynced or has its resync under way (R138). -/
def Dev.resyncTurn (s : Dev) (f : Field) (g : Bool) (c : Nat) : Bool :=
  (f.marked.flatMap f.regionAll ++ f.lineSet).all fun x =>
    f.firstLba g c ≤ f.firstLba x.2 x.1 || !f.needsResync x.2 x.1 ||
    s.cache.jobs.any fun j => j.kind = .resync && j.field = f.id && j.course = x.1 && j.geom = x.2

/-- The marked regions all of whose courses have been resynced. -/
def Field.regionsDone (f : Field) : List (Bool × Nat) :=
  f.marked.filter fun m => (f.regionAll m).all fun x => f.resynced.contains (2 * x.1 + b2n x.2)

/-- A resynced course leaves the resync set; a marked region whose last course is done is no longer marked, and the
last one ends RESYNCING with record 0x3031 (R138). -/
def Dev.courseSynced (s : Dev) (fid c : Nat) (g : Bool) : Dev :=
  match s.field? fid with
  | none => s
  | some f =>
    let f := { f with
      resyncSet := dropAll (· = (c, g)) f.resyncSet, lineSet := dropAll (· = (c, g)) f.lineSet
      resynced := if f.marked = [] then [] else addNew (2 * c + b2n g) f.resynced }
    let done := f.regionsDone
    let left := f.marked.filter fun m => !done.contains m
    let ends := f.resyncing && left = [] && f.lineSet = []
    let s := s.onField fid fun _ => { f with
      marked := left, resynced := if left = [] then [] else f.resynced, resyncing := f.resyncing && !ends }
    let s := (s.count .mstResyncCourses).when (f.recovering && f.resyncSet = []) fun s => s.dropSlots fid
    if ends then s.courseRecord 0x3031 fid f.resynced.length (f.resynced.foldl min ((f.resynced.head?).getD 0) / 2) else s

/-- Every write of a resync has landed. -/
def Dev.resyncLanded (s : Dev) (id : Nat) : Dev :=
  match s.job? id with
  | none => s
  | some j =>
    let s := s.courseSynced j.field j.course j.geom
    if j.badRows ≠ [] then s.startSeal id else s.endJob id

/-! ## Scrub (R105) -/

/-- A scrub of a course begins under its lock, or under that of a destage that waits for a lost path (R145): every block comes from the
members. -/
def Dev.beginScrub (s : Dev) (id : Nat) (f : Field) (holder : Option Job) : Dev :=
  match s.job? id with
  | none => s
  | some j =>
    let s := s.onJob id fun j => { j with rows := (List.range f.b).map fun o => ⟨j.geom, j.course, o, .open, false, false⟩ }
    let s := s.each (List.range f.b) fun s o => s.addCells id f j.geom j.course o (List.range (f.w j.geom))
    let s := match holder with
      | some d => s.lostPathCells id f d
      | none => s
    (s.readCells id).toEngine id

/-- A scrub record: the member position, 0xFF for P and Q both, the row and the course. -/
def Dev.scrubRecord (s : Dev) (code : Nat) (f : Field) (pos : Nat) (r : JRow) : Dev :=
  (s.record code (s.srcField f.id) (pos + r.row * 2 ^ 8) (r.course % 2 ^ 32) (r.course / 2 ^ 32)).count .morScrubFixes

/-- What scrub does with the syndromes of a row. -/
def Dev.syndromeAction (s : Dev) (id : Nat) (f : Field) (r : JRow) (d : List Block) (p q : Block) : Dev :=
  let w := f.w r.geom
  let fix (s : Dev) (l : List WBlk) : Dev :=
    s.onJob id fun j => { (j.addWrites (s.healsAllowed f j l)) with fixes := j.fixes + 1 }
  let sp := (syndromes d p q).1
  let sq := (syndromes d p q).2
  let wp := s.wblk f r.geom r.course (pPos w r.course) r.row (rowP d) true
  let wq := s.wblk f r.geom r.course (qPos w r.course) r.row (rowQ d) true
  if sp = 0 && sq = 0 then s
  else if sq = 0 then
    fix (s.scrubRecord 0x3023 f (pPos w r.course) r) [wp]
  else if sp = 0 then
    fix (s.scrubRecord 0x3023 f (qPos w r.course) r) [wq]
  else match locate (w - 2) sp sq with
    | some z =>
      let pos := dPos w r.course z
      let x := s.wblk f r.geom r.course pos r.row ((d[z]?.getD 0) ^^^ sp) true
      fix (s.scrubRecord 0x3024 f pos r) [x]
    | none => fix (s.scrubRecord 0x3025 f 0xFF r) [wp, wq]

/-- One row of a scrub at the engine: erasures are solved first, then CHK runs. -/
def Dev.scrubStep (s : Dev) (id : Nat) (f : Field) (r : JRow) : Dev :=
  match s.job? id with
  | none => s
  | some j =>
    let s := s.countSearch f j r
    match s.solveRow f j r with
    | .full => s.rowUnsolved id f r [] .lost
    | .reread => s.rereadRow id f r
    | .solved d p q st =>
      let s := s.rowSolved id f r d p q st true
      if st.isSome then s else s.syndromeAction id f r d p q
    | .lost => s.rowUnsolved id f r [] .lost
    | .mismatch bad => s.rowUnsolved id f r bad .mismatch

/-- Every write of a scrubbed course has landed: the position moves on, unless a reset has taken it back meanwhile; a pass that is complete
starts anew. -/
def Dev.scrubLanded (s : Dev) (id : Nat) : Dev :=
  match s.job? id with
  | none => s
  | some j =>
    let s := s.count .morScrubCourses
    let now := s.tck.count
    let s := s.onField j.field fun f =>
      let n := j.course + 1
      if f.scrubPos ≠ j.course then f
      else if f.courses ≤ n then { f with scrubPos := 0, scrubStart := now, scrubLate := false } else { f with scrubPos := n }
    if j.badRows ≠ [] then s.startSeal id else s.endJob id

/-! ## Lost-line writes (R231) -/

/-- A lost-line write begins under its lock: it reads the rest of its rows. -/
def Dev.beginLostLine (s : Dev) (id : Nat) (f : Field) : Dev :=
  match s.job? id with
  | none => s
  | some j =>
    let s := s.each j.rows fun s r =>
      (s.lookRow id f r.geom r.course r.row false).1.addCells id f r.geom r.course r.row (List.range (f.w r.geom))
    (s.readCells id).toEngine id

/-- One row of a lost-line write: filler at the lost positions, P and Q by GEN. A position that cannot be solved counts
as filler. -/
def Dev.lostLineStep (s : Dev) (id : Nat) (f : Field) (r : JRow) : Dev :=
  match s.job? id with
  | none => s
  | some j =>
    let w := f.w r.geom
    let put (s : Dev) (d : List Block) : Dev :=
      let d := d.zipIdx.map fun e => if j.need.contains (f.lba r.geom r.course e.2 r.row) then 0 else e.1
      let fill := (List.range (w - 2)).filter fun i => j.need.contains (f.lba r.geom r.course i r.row)
      s.onJob id fun j => (j.setRow r fun x => { x with st := .solved }).addWrites
        ((fill.map fun i => filler r.geom r.course (dPos w r.course i) r.row) ++
          [s.wblk f r.geom r.course (pPos w r.course) r.row (rowP d) false,
           s.wblk f r.geom r.course (qPos w r.course) r.row (rowQ d) false])
    match s.solveRow f j r with
    | .full => s.readWhole id f r
    | .reread => s.rereadRow id f r
    | .solved d _ _ _ => put s d
    | .lost => put s (sealData f j r 0)
    | .mismatch _ => put s (sealData f j r 0)

/-- The end of a lost-line write's engine work: it queues its guard. -/
def Dev.lostLineDone (s : Dev) (id : Nat) : Dev :=
  match s.job? id with
  | none => s
  | some j =>
    match s.field? j.field with
    | none => s.endJob id
    | some f =>
      if s.mst.failed then s.endJob id
      else
        let s := s.onJob id fun j => { j with stage := .guarding }
        if j.guardQueued then s else s.queueGuard id f j.course j.geom

/-- Every write of a lost-line write has landed. -/
def Dev.lostLineLanded (s : Dev) (id : Nat) : Dev := s.endJob id

/-- A committed line is lost (step 4 of R231): record 0x6003, its position joins LOST_MASK with REASON 3, and in a
tagged field a lost-line write starts; the line leaves the cache. -/
def Dev.loseLine (s : Dev) (fid lba : Nat) : Dev :=
  match s.field? fid with
  | none => s
  | some f =>
    let p := f.place lba
    let s := (s.count .drmLinesLost).record 0x6003 (s.srcField fid) 1 (lba % 2 ^ 32) (lba / 2 ^ 32)
    let s := s.onCache fun k => { k with lines := dropAll (fun l => l.field = fid && l.lba = lba && l.st = .committed) k.lines }
    let s := s.addLost fid p.course (maskBit p.pos) 3
    if !f.tagged || s.mst.failed then s
    else s.startJob { Job.fresh .lostLine fid p.course p.geom with
      need := [lba], rows := [⟨p.geom, p.course, p.row, .open, false, false⟩] }

end Sys2Proof.Machine
end

