-- ==== Sys2Proof/Machine/Reshape.lean ====
section
/-!
DEFINITION. On-line reshape (R163 to R177): the step's courses and its band, its sources and writes, the commits of
the reshape record, lost courses carried over the headland, pauses, and the end.
-/

namespace Sys2Proof.Machine

/-! ## The courses and the band of a step (R168) -/

/-- The first course of a step of `n` courses, and whether it covers courses upward from it. -/
def stepFirst (r : RsRecord) (n : Nat) : Nat := if ascending r then r.headland else r.headland - n

/-- The most courses that the next step can cover. -/
def stepRoom (r : RsRecord) : Nat := min 256 (if ascending r then r.newCourses - r.headland else r.headland)

/-- The new courses of a step. -/
def stepCourses (r : RsRecord) (n : Nat) : List Nat := (List.range n).map (stepFirst r n + ·)

/-- The field LBAs of a step that lie within the old capacity. -/
def Field.stepLbas (f : Field) (r : RsRecord) (n : Nat) : List Nat :=
  let d := (r.newWidth - 2) * f.b
  let lo := stepFirst r n * d
  let hi := min f.capacity ((stepFirst r n + n) * d)
  (List.range (hi - lo)).map (lo + ·)

/-- Whether a step of `n` courses overwrites the unmoved copy of an LBA: its old course is one of the step's, on a member
of both tables. A COPY has no band. -/
def Field.inBand (f : Field) (r : RsRecord) (n lba : Nat) : Bool :=
  if isCopy r then false
  else
    let p := f.placeIn false lba
    let k := stepFirst r n
    k ≤ p.course && p.course < k + n &&
    (match f.members[p.pos]? with
     | some e => f.nextMembers.any fun x => x.uid = e.uid
     | none => false)

/-- The band of a step. -/
def Field.band (f : Field) (r : RsRecord) (n : Nat) : List Nat := (f.stepLbas r n).filter (f.inBand r n)

/-- The largest step whose band fits MOR_BAND_MAX, at least one course (R168): looked for downward. -/
def Field.stepSize (f : Field) (r : RsRecord) (most : Nat) : Nat → Nat
  | 0 => 1
  | n + 1 => if (f.band r (n + 1)).length * 4096 ≤ most then n + 1 else f.stepSize r most n

/-- Whether the headland has reached its end. -/
def rsAtEnd (r : RsRecord) : Bool := if ascending r then r.headland = r.newCourses else r.headland = 0

/-! ## The reshape record (R164, R172) -/

/-- Commits line 0 of a field's reshape record with new values, which stand in the field at once. -/
def Dev.putRecord (s : Dev) (fid : Nat) (g : RsRecord → RsRecord) : Dev :=
  match s.field? fid with
  | none => s
  | some f =>
    match f.rs with
    | none => s
    | some r =>
      let r := g r
      (s.onField fid fun f => { f with rs := some r }).header (reshapeLine f.rsSlot) (.reshapeRec f.rsSlot r)

/-- The lowest free record. -/
def Dev.freeRecord? (s : Dev) : Option Nat := firstFree (s.mst.reshapes.map (·.1) ++ s.fields.filterMap fun f =>
  if f.rs.isSome || f.rsPend.isSome || f.rsEnding then some f.rsSlot else none) 16 0

/-- Reshapes that run on the chip. -/
def Dev.reshapeCount (s : Dev) : Nat := (s.fields.filter fun f => f.owned && (f.reshaping || f.rsPend.isSome)).length

/-- A reshape that found no free record slot takes one as soon as one is free, and its band is no longer pinned (R254). -/
def Dev.stepSlot (s : Dev) (f : Field) : Dev :=
  match f.rs, s.freeRecord? with
  | some r, some n =>
    if !f.owned || f.rsSlot < 16 then s
    else
      let s := (s.onField f.id fun f => { f with rsSlot := n }).header (reshapeLine n) (.reshapeRec n r)
      s.onCache fun k => { k with lines := modAll (fun l => l.field = f.id && l.st = .band) (fun l => { l with pinned := false }) k.lines }
  | _, _ => s

/-- A reshape record of the start: its labels carry the FIELD_GEN that the start writes. -/
def Field.startRecord (f : Field) (kind w' c' pos : Nat) : RsRecord where
  kind := kind
  fieldId := f.id
  bandValid := false
  paused := false
  stepCourses := 0
  ckptSeq := 0
  headland := if kind = 2 then c' else 0
  bandLba := 0
  bandBlocks := 0
  uuid := f.uuid
  oldWidth := f.width
  newWidth := w'
  copyPos := if kind = 3 then pos else 0xFF
  oldCourses := f.courses
  newCourses := c'
  startGen := f.gen + 1

/-- A reshape is accepted: the fine map is released first, then the record is committed (R164). -/
def Dev.acceptReshape (s : Dev) (fid : Nat) (r : RsRecord) (next : List MPos) (p : Option MbxPath) : Dev :=
  match s.freeRecord? with
  | none => s
  | some n => (s.releaseFine fid).onField fid fun f => { f with rsPend := some (r, next, p), rsSlot := n }

/-- The record of an accepted reshape is committed once no fine map of the field is left. -/
def Dev.stepPend (s : Dev) (f : Field) : Dev :=
  match f.rsPend with
  | none => s
  | some (r, _, _) =>
    if f.fineBlocks ≠ 0 || (s.mst.queue ++ s.mst.retry).any (fun c => match c.change with
      | .reshapeRec n _ => n = f.rsSlot
      | _ => false) then s
    else s.header (reshapeLine f.rsSlot) (.reshapeRec f.rsSlot { r with startGen := f.gen + 1 })

/-- The final label change is done: one batch frees the record (R175). -/
def Dev.freeReshape (s : Dev) (fid : Nat) : Dev :=
  match s.field? fid with
  | none => s
  | some f => s.header (reshapeLine f.rsSlot) (.reshapeFree f.rsSlot)

/-- The COPY source fails: the copy becomes a rebuild of its position onto the target; the COPY target fails: the copy
ends (R174). -/
def Dev.copyFails (s : Dev) (f : Field) (target : Bool) : Dev :=
  match f.rs with
  | none => s
  | some r =>
    let e := f.nextMembers[r.copyPos]?
    let s := s.each (s.cache.jobs.filter fun j => j.field = f.id && j.kind = .reshape) fun s j => s.endJob j.id
    let base := { f with rs := none, rsStage := .idle, rsEnding := true, nextWidth := 0, nextMembers := [], rsMembers := [] }
    let new := if target then base else match e with
      | some e => { base with
          members := base.members.set r.copyPos { e with state := 3 }
          targets := base.targets ++ [⟨r.copyPos, false, 0, r.headland, r.headland, [], r.headland, false, 0⟩] }
      | none => base
    let s := s.onField f.id fun _ => new
    let s := if target then s else
      (s.record 0x5001 (s.srcField f.id) r.copyPos (r.headland % 2 ^ 32) (r.headland / 2 ^ 32)).writeProgress f.id
    (s.changeLabel f.id .nothing).freeReshape f.id

/-- Whether a COPY has lost its target (`true`) or its source. -/
def Field.copyLost (f : Field) : Option Bool :=
  match f.rs.filter isCopy with
  | none => none
  | some r =>
    let down (e : Option MPos) : Bool := e.any fun e => e.state = 4 || e.state = 5
    if down f.nextMembers[r.copyPos]? then some true else if down f.members[r.copyPos]? then some false else none

/-- A COPY that has lost its source or its target ends; the member that failed leaves the field (R174). -/
def Dev.endCopy (s : Dev) (fid : Nat) : Dev :=
  match s.field? fid with
  | none => s
  | some f =>
    match f.copyLost, f.rs with
    | some target, some r =>
      let gone := ((if target then f.nextMembers else f.members)[r.copyPos]?).bind (·.member)
      let s := match gone with
        | some m => s.onMember m fun x => { x with field := none, position := 0 }
        | none => s
      s.copyFails f target
    | _, _ => s

/-- The first batch of a reshape record has landed: the field is RESHAPING, the hod is invalidated, and the label change
of R164 starts, whose FIELD_GEN is START_GEN; record 0x5010. A COPY whose source or target has failed meanwhile ends at once (R174). -/
def Dev.reshapeStarted (s : Dev) (fid : Nat) : Dev :=
  match s.field? fid with
  | none => s
  | some f =>
    match f.rsPend with
    | none => s
    | some (r, next, p) =>
      let late := r.startGen ≠ f.gen + 1
      let r := { r with startGen := f.gen + 1 }
      let next := next.map fun e => if f.members.any fun x => x.uid = e.uid then e else { e with joinGen := f.gen + 1 }
      let s := s.onField fid fun f => { f with
        rs := some r, rsPend := none, rsStage := .idle, nextWidth := r.newWidth, nextMembers := next }
      let s := s.when late fun s => s.header (reshapeLine f.rsSlot) (.reshapeRec f.rsSlot r)
      let s := s.each (next.filterMap fun e => if f.members.any fun x => x.uid = e.uid then none else e.member) fun s m =>
        let s := s.clearRegion m
        if f.lost = [] then s else s.onField fid fun f => { f with lostChanged := true }
      (((s.hodInvalidate).record 0x5010 (s.srcField fid) r.kind (r.headland % 2 ^ 32) (r.headland / 2 ^ 32)).changeLabel fid (.reshapeStart p)).endCopy fid

/-! ## A step (R169) -/

/-- Whether a reshape must stand still between steps. -/
def Field.mustPause (f : Field) : Bool :=
  f.targets ≠ [] || f.waitingTargets ≠ [] || f.degraded2 || f.failed || f.offline

/-- Whether a step may start now: labels are settled, the last checkpoint block has landed, and nothing pauses the
reshape; a band needs a protected cache and room under the cap (R174, R210). A step that is redone comes before any pause, and
while the field is RECOVERING only such a step runs (R176, R452); whole-region resync goes before any other (R153). -/
def Dev.mayStep (s : Dev) (f : Field) (r : RsRecord) : Bool :=
  let band := f.band r (f.stepSize r (s.param .morBandMax) (stepRoom r))
  let fresh := band.filter fun l => !(s.versions f.id l).any fun x => x.st = .band
  f.rsStage = .idle && !r.paused && f.owned && f.reread.isNone && !f.admitStop && !f.fenceWait && !f.restoreWait && f.rsSlot < 16 && f.labelChanges = [] &&
  !f.rsEnding && 0 < stepRoom r && (f.rsRedo || (!f.mustPause && !f.recovering && f.marked = [] && f.lineSet = [])) && !f.failed && !f.offline && 0 < s.tasks.share && !s.mst.failed &&
  (band = [] || (!s.unprotected f && s.load + 4096 * fresh.length ≤ s.cap))

/-- RESHAPE_STEP_START (R169 step 1): the step asks for the locks of its new courses and of the old courses that supply
them. A step after a restart is a redo (R176). -/
def Dev.reshapeStep (s : Dev) (fid : Nat) : Dev :=
  match s.field? fid with
  | none => s
  | some f =>
    match f.rs with
    | none => s
    | some r =>
      if !s.mayStep f r then s
      else
        let n := if r.bandValid then r.stepCourses else f.stepSize r (s.param .morBandMax) (stepRoom r)
        let old := (f.stepLbas r n).foldl (fun l b => addNew (f.placeIn false b).course l) []
        let locks := (stepCourses r n).map (fun c => (c, true)) ++ old.map fun c => (c, false)
        let s := if f.rsRedo then
            (s.count .morReshapeRedos).record 0x5015 (s.srcField fid) r.kind (r.headland % 2 ^ 32) (r.headland / 2 ^ 32)
          else s
        let s := s.onField fid fun f => { f with rsStage := .locks, rsRedo := false, rs := some { r with stepCourses := n } }
        s.startJob { Job.fresh .reshape fid (stepFirst r n) true with locks := locks }

/-- The band blocks of a redone step that neither the cache nor a mirror holds any more: the data positions that would hold them
are lost with REASON 3, and their blocks move as filler; record 0x5016 (R177). -/
def Dev.loseBand (s : Dev) (f : Field) (r : RsRecord) (gone : List Nat) : Dev :=
  if gone = [] then s
  else
    let bricks := gone.foldl (fun l b => let p := f.placeIn false b; addNew (p.course, p.pos) l) []
    let s := s.each bricks fun s e => s.addLost f.id e.1 (maskBit e.2) 3
    s.record 0x5016 (s.srcField f.id) r.kind (r.headland % 2 ^ 32) (r.headland / 2 ^ 32)

/-- A step begins under its locks: every source block of the unmoved side is read, those of a band that is already in the
cache are at hand (R169, R176), and those of a band that is lost are filler (R177). -/
def Dev.beginReshape (s : Dev) (id : Nat) (f : Field) : Dev :=
  match f.rs with
  | none => s.endJob id
  | some r =>
    let lbas := f.stepLbas r r.stepCourses
    let s := s.onField f.id fun f => { f with rsStage := .band }
    let gone := if r.bandValid then (f.band r r.stepCourses).filter fun l => !(s.versions f.id l).any fun x => x.st = .band else []
    let s := s.loseBand f r gone
    let s := s.each lbas fun s l =>
      let p := f.placeIn false l
      if gone.contains l then
        s.onJob id fun j => { j with cells := j.cells ++ [⟨false, p.course, p.pos, p.row, .good 0 0, none, none⟩] }
      else match (s.versions f.id l).find? fun x => x.st = .band with
      | some x => s.onJob id fun j => { j with cells := j.cells ++ [⟨false, p.course, p.pos, p.row, .good x.data x.tag, none, none⟩] }
      | none => s.addCell id f false p.course p.pos p.row
    let rows := lbas.foldl (fun l b => let p := f.placeIn false b; addNew (p.course, p.row) l) []
    let s := s.onJob id fun j => { j with rows := rows.map fun x => ⟨false, x.1, x.2, .open, false, false⟩ }
    (s.readCells id).toEngine id

/-- One old row of a step at the engine: nothing to do when the blocks that the step moves are at hand, else it is
solved; blocks that cannot be solved are masked and moved as filler. -/
def Dev.reshapeRow (s : Dev) (id : Nat) (f : Field) (r : JRow) : Dev :=
  match s.job? id with
  | none => s
  | some j =>
    let mine := j.cells.filter fun x => x.course = r.course && x.row = r.row
    let erased := mine.any fun x => match x.st with
      | .erased _ _ => true
      | _ => false
    if !erased && !r.full then s.onJob id fun j => j.setRow r fun x => { x with st := .solved }
    else if !r.full then s.readWhole id f r
    else
      let s := (s.chargeRow j r).countSearch f j r
      let keep (s : Dev) (d : List Block) : Dev := s.onJob id fun j => d.zipIdx.foldl (fun j e =>
        let pos := dPos (f.w false) r.course e.2
        match j.good? false r.course pos r.row with
        | some _ => j
        | none => j.setCell false r.course pos r.row (.good e.1 (s.dataMeta f (f.lba false r.course e.2 r.row) e.1)) none) j
      let lose (s : Dev) (bad : List Nat) (st : RowSt) : Dev :=
        let e := (j.erasedAt (f.w false) r).filter fun x => f.isData false r.course x.1
        let mask := (e.map (·.1) ++ bad).foldl (fun m x => m ||| maskBit x) (0 : BitVec 32)
        let why := e.foldl (fun a x => joinReason a x.2.1.reason) 0
        let s := s.rowUnsolved id f r bad st
        let s := s.addLost f.id r.course mask (if bad = [] then why else joinReason why 1)
        s.onJob id fun j => e.foldl (fun j x => j.setCell false r.course x.1 r.row (.good 0 0) none)
          (j.setRow r fun x => { x with st := .solved })
      match s.solveRow f j r with
      | .full => lose s [] .lost
      | .reread => s.rereadRow id f r
      | .solved d p q st =>
        let s := s.rowSolved id f r d p q st false
        let s := match st with
          | some k => s.onJob id fun j => j.setCell false r.course k r.row (.erased .stale none) none
          | none => s
        keep s d
      | .lost => lose s [] .lost
      | .mismatch bad => lose s bad .mismatch

/-- The sources of a step are at hand: its band, if any, is placed in the cache, mirrored, and BAND_VALID is committed;
then the step waits for its writes' turn (R169 step 2). -/
def Dev.reshapeFilled (s : Dev) (id : Nat) : Dev :=
  match s.job? id with
  | none => s
  | some j =>
    match s.field? j.field with
    | none => s.endJob id
    | some f =>
      match f.rs with
      | none => s.endJob id
      | some r =>
        let s := s.onJob id fun j => { j with stage := .guarding }
        let band := f.band r r.stepCourses
        if band = [] || r.bandValid then s.onField f.id fun f => { f with rsStage := .moving }
        else
          let s := s.each band fun s l =>
            let p := f.placeIn false l
            let b := (j.good? false p.course p.pos p.row).getD (0, 0)
            s.placeLine ⟨f.id, l, 0, .band, 0, b.1, if f.tagged then b.2 else s.tagOf f l b.1, false, false, none, 0, 0, false⟩
          let lo := band.foldl min (band.headD 0)
          let hi := band.foldl max 0
          (s.putRecord f.id fun r => { r with bandValid := true, bandLba := lo, bandBlocks := hi + 1 - lo }).onField f.id
            fun f => { f with rsStage := .bandCommit }

/-- Whether a step may issue its first member write: its record has landed, its band is mirrored, the last checkpoint
block has landed, and a live partner has acknowledged the checkpoint (R169). -/
def Dev.mayMove (s : Dev) (f : Field) (r : RsRecord) : Bool :=
  let band := s.cache.lines.filter fun l => l.field = f.id && l.st = .band
  (band = [] || (match look f.rsSlot s.mst.reshapes with | some x => x.bandValid && x.headland = r.headland | none => false)) &&
  (!s.partner || band.all (·.mirrored)) && f.rsMembers = [] &&
  (!s.partner || (!s.twn.ckptDirty.contains f.id && !s.twn.ckptSent.any fun e => e.2.1 = f.id))

/-- The block of a new course at a data position: moved, or a zero block beyond the old capacity (R169 step 3). -/
def Dev.movedBlk (s : Dev) (f : Field) (j : Job) (c i o : Nat) : Block × Meta :=
  let lba := f.lba true c i o
  if lba < f.capacity then
    let p := f.placeIn false lba
    let x := (j.good? false p.course p.pos p.row).getD (0, 0)
    (x.1, if f.tagged then x.2 else 0)
  else
    let b := Config.xtsEncrypt (s.keys f.id).xts lba 0
    (b, s.dataMeta f lba b)

/-- The writes of a step: all W′ bricks of each new course, with P and Q by GEN. -/
def Dev.moveWrites (s : Dev) (f : Field) (r : RsRecord) (j : Job) : List WBlk :=
  (stepCourses r r.stepCourses).flatMap fun c =>
    (List.range f.b).flatMap fun o =>
      let d := (List.range (r.newWidth - 2)).map fun i => s.movedBlk f j c i o
      let data := d.zipIdx.map fun e => (⟨true, c, dPos r.newWidth c e.2, o, e.1.1, e.1.2, false⟩ : WBlk)
      data ++ [s.wblk f true c (pPos r.newWidth c) o (rowP (d.map (·.1))) false,
        s.wblk f true c (qPos r.newWidth c) o (rowQ (d.map (·.1))) false]

/-- The step's writes are handed to the member ports. -/
def Dev.reshapeMove (s : Dev) (id : Nat) : Dev :=
  match s.job? id with
  | none => s
  | some j =>
    match s.field? j.field with
    | none => s.endJob id
    | some f =>
      match f.rs with
      | none => s.endJob id
      | some r =>
        if !s.mayMove f r then s
        else
          let w := s.moveWrites f r j
          let s := s.onMpt fun p => { p with bytesUsed := p.bytesUsed + 4096 * (r.newWidth - 2) * f.b * r.stepCourses }
          ((s.onJob id fun j => { j with writes := w }).onField f.id fun f => { f with rsStage := .moving }).sendWrites id

/-- Every write of a step has landed: line 0 is committed with the headland past the step (R169 step 4). -/
def Dev.reshapeLanded (s : Dev) (id : Nat) : Dev :=
  match s.job? id with
  | none => s
  | some j =>
    match s.field? j.field with
    | none => s.endJob id
    | some f =>
      match f.rs with
      | none => s.endJob id
      | some r =>
        let h := if ascending r then r.headland + r.stepCourses else r.headland - r.stepCourses
        let new := { r with headland := h, bandValid := false, bandLba := 0, bandBlocks := 0, ckptSeq := r.ckptSeq + 1 }
        ((s.header (reshapeLine f.rsSlot) (.reshapeRec f.rsSlot new)).onField f.id fun f => { f with rsStage := .stepCommit }).onJob id
          fun j => { j with stage := .guarding }

/-! ## Lost courses carried over (R170) -/

/-- Each masked data brick of the step's old courses, as new courses with their masks. -/
def Field.carried (f : Field) (r : RsRecord) (n : Nat) : List (Nat × BitVec 32 × Nat) :=
  let lbas := f.stepLbas r n
  let firsts := lbas.filter fun l => l % f.b = 0
  firsts.foldl (fun acc l =>
    let p := f.placeIn false l
    if f.masked p.course p.pos then
      let q := f.placeIn true l
      let old := (look q.course acc).getD (0, 0)
      put q.course (old.1 ||| maskBit q.pos, joinReason old.2 (((f.lost? p.course).map (·.reason)).getD 0)) acc
    else acc) []

/-- The list after a step: entries of old courses that hold no unmoved data any more leave it, and the carried masks join
it. -/
def Field.carryLost (f : Field) (r : RsRecord) (n : Nat) : List LostEntry :=
  if isCopy r then f.lost
  else
    let add := f.carried r n
    let mine (c : Nat) : Bool := (f.stepLbas r n).any fun l => (f.placeIn false l).course = c
    let live (c : Nat) : Bool := (List.range (f.courseBlocks false)).any fun i =>
      let l := f.firstLba false c + i
      l < f.capacity && !(f.stepLbas r n).contains l && !f.moved l
    let kept := f.lost.filter fun e => !mine e.course || live e.course
    add.foldl (fun l e =>
      if l.any (·.course = e.1) then modAll (·.course = e.1) (fun x => { x with mask := x.mask ||| e.2.1, reason := joinReason x.reason e.2.2 }) l
      else insertBy (·.course) ⟨e.1, e.2.1, e.2.2⟩ l) kept

/-- The commit of step 4 has landed: the headland moves, lost courses are carried, the band and the locks are released,
and a checkpoint block goes to every member of either table (R169, R170). -/
def Dev.stepCommitted (s : Dev) (fid : Nat) (new : RsRecord) : Dev :=
  match s.field? fid with
  | none => s
  | some f =>
    match f.rs with
    | none => s
    | some r =>
      let lost := f.carryLost r r.stepCourses
      let whole := if f.marked = [] then [] else (stepCourses r r.stepCourses).map fun c => 2 * c + 1
      let s := s.onField fid fun f => { f with
        rs := some new, rsStage := .idle, lost := lost, lostChanged := f.lostChanged || lost ≠ f.lost
        resynced := whole.foldl (fun l c => addNew c l) f.resynced }
      let band := (s.cache.lines.filter fun l => l.field = fid && l.st = .band).map (·.lba)
      let s := s.onCache fun k => { k with lines := dropAll (fun l => l.field = fid && l.st = .band) k.lines }
      let s := if s.partner then s.each band fun s l => s.sendFrame (.release fid l 1 0) else s
      let s := s.countN .morReshapeCourses r.stepCourses
      let s := s.each (s.cache.jobs.filter fun j => j.field = fid && j.kind = .reshape) fun s j => s.endJob j.id
      s.writeCheckpoint fid

/-! ## Pauses and the end (R174, R175) -/

/-- Between steps a reshape pauses or resumes: PAUSED is committed and record 0x5012 or 0x5013 written. -/
def Dev.stepPause (s : Dev) (f : Field) : Dev :=
  match f.rs with
  | none => s
  | some r =>
    if f.rsStage ≠ .idle || f.rsRedo || !f.owned || 16 ≤ f.rsSlot || f.mustPause = r.paused then s
    else
      (s.putRecord f.id fun r => { r with paused := f.mustPause }).record (if f.mustPause then 0x5012 else 0x5013) (s.srcField f.id)
        r.kind (r.headland % 2 ^ 32) (r.headland / 2 ^ 32)

/-- The headland is at its end: the final label change, with released labels for the members that leave (R175). -/
def Dev.stepEnd (s : Dev) (f : Field) : Dev :=
  match f.rs with
  | none => s
  | some r =>
    if f.rsStage ≠ .idle || !rsAtEnd r || !f.owned || 16 ≤ f.rsSlot || f.labelChanges ≠ [] || f.rsMembers ≠ [] || f.targets ≠ [] ||
      f.waitingTargets ≠ [] then s
    else
      let gone := f.members.filter fun e => !(f.nextMembers.any fun x => x.uid = e.uid)
      let next := f.nextMembers.map fun e => if isCopy r && e.state = 3 then { e with state := 1 } else e
      let s := s.onField f.id fun f => { f with
        members := next, nextMembers := [], width := r.newWidth, nextWidth := 0, courses := r.newCourses, rs := none, rsEnding := true }
      let s := s.each (next.filterMap (·.member)) fun s m => s.onMember m fun x => { x with
        state := ((next.find? fun e => e.member = some m).map (·.state)).getD x.state
        position := (next.findIdx? fun e => e.member = some m).getD 0 }
      let out := (gone.filter fun e => e.state ≠ 4 && e.state ≠ 5).filterMap (·.member)
      let s := s.each out fun s m => s.onMember m fun x => { x with field := none, position := 0 }
      (s.changeLabel f.id (.reshapeEnd out)).onCache fun k => { k with
        ctxs := k.ctxs.map fun x => if x.field = f.id && x.geom then { x with geom := false } else x }

/-- The record is freed: the field leaves RESHAPING, the hod is invalidated; record 0x5014 when the reshape has reached its end,
and none for a copy that a failure ended (R174, R175). -/
def Dev.reshapeFreed (s : Dev) (slot : Nat) (r : RsRecord) : Dev :=
  match s.fields.find? fun f => f.rsEnding && f.rsSlot = slot with
  | none => s.hodInvalidate
  | some f =>
    ((s.onField f.id fun f => { f with rsEnding := false }).hodInvalidate).when (rsAtEnd r) fun s =>
      s.record 0x5014 (s.srcField f.id) r.kind (r.headland % 2 ^ 32) (r.headland / 2 ^ 32)

/-- A reshape record's commit has landed: the start of a reshape, the end of a step, or a change of line 0. -/
def Dev.recordLanded (s : Dev) (slot : Nat) (new : RsRecord) : Dev :=
  match s.fields.find? fun f => f.rsSlot = slot && (f.rs.isSome || f.rsPend.isSome) with
  | none => s
  | some f =>
    if f.rsPend.isSome then s.reshapeStarted f.id
    else if f.rsStage = .stepCommit && (match f.rs with | some r => r.ckptSeq < new.ckptSeq | none => false) then
      s.stepCommitted f.id new
    else if f.rsStage = .bandCommit then s.onField f.id fun f => { f with rsStage := .moving }
    else s

end Sys2Proof.Machine
end

