-- ==== Sys2Proof/Machine/Reads.lean ====
section
/-!
DEFINITION. The read path of READ and VERIFY (R24, R25, R94, R106, R160): blocks from the cache or from members, the
checks of what members return, solutions that reads wait for, and the end of a read.
-/

namespace Sys2Proof.Machine

/-! ## Solutions for reads -/

/-- A course of a region marked for whole-region resync is resynced before another holder touches it (R138): its
resync is queued ahead. -/
def Dev.resyncFirst (s : Dev) (f : Field) (g : Bool) (c : Nat) : Dev :=
  if !f.needsResync g c || s.cache.jobs.any (fun j => j.kind = .resync && j.field = f.id && j.course = c && j.geom = g) then s
  else s.startJob (Job.fresh .resync f.id c g)

/-- A block of a read needs a solution: a job that waits for the course's lock takes it up, or a new one does. The
erasure that the read found stays one (R96). -/
def Dev.startSolve (s : Dev) (cmd : Nat) (f : Field) (p : Place) (lba : Nat) (st : CellSt)
    (cause : BitVec 16 × BitVec 32) : Dev :=
  let ref := match st with
    | .erased _ t => t
    | _ => none
  let cell : Cell := ⟨p.geom, p.course, p.pos, p.row, st, none, ref⟩
  let row : JRow := ⟨p.geom, p.course, p.row, .open, false, false⟩
  let add (j : Job) : Job := { (j.because ⟨p.geom, p.course, p.row, s.tck.count, p.pos, cause.1, cause.2⟩) with
    need := addNew lba j.need
    rows := if j.rows.any (fun r => r.row = p.row) then j.rows else j.rows ++ [row]
    cells := j.cells ++ [cell] }
  match s.cache.jobs.find? fun j => j.kind = .solve && j.cmd = some cmd && j.field = f.id && j.course = p.course &&
      j.geom = p.geom && j.stage = .waitLock with
  | some j => s.onJob j.id add
  | none => (s.resyncFirst f p.geom p.course).startJob (add { Job.fresh .solve f.id p.course p.geom with cmd := some cmd })

/-! ## Starting a read -/

/-- Whether a block of a read is lost without a member read: a masked position in an untagged field, or one whose member
is absent (R160). -/
def Dev.lostBlock (f : Field) (p : Place) : Bool :=
  f.masked p.course p.pos && (!f.tagged || (f.reader? p.geom p.pos p.course).isNone)

/-- The solution for another read that works, or has worked, on the row of a block (R103). -/
def Dev.solving? (s : Dev) (id : Nat) (f : Field) (p : Place) : Option Job :=
  s.cache.jobs.find? fun j => j.kind = .solve && j.field = f.id && j.course = p.course && j.geom = p.geom && j.cmd ≠ some id &&
    j.rows.any fun r => r.row = p.row && (r.st = .open || r.st = .solved)

/-- A block of a read from the members: lost; from a solution of its row for another read, which serves it or will; to be solved because its
member is absent; or to be read. Answers the blocks to read. -/
def Dev.readBlock (s : Dev) (id : Nat) (f : Field) (lba : Nat) : Dev × List Cell :=
  let p := f.place lba
  if Dev.lostBlock f p then (s.failBlk (some id) lba stDataLost, [])
  else match s.solving? id f p with
  | some j => match j.staged.find? (·.1 = lba) with
    | some x => (s.onCmd id fun c => c.setBlk lba (.ready x.2.1 x.2.2), [])
    | none => (s.onJob j.id fun j => { j with others := addNew id j.others }, [])
  | none =>
  if (f.reader? p.geom p.pos p.course).isNone then
    let r := s.erasure f p.geom p.course p.pos p.row 1 .absent
    (r.1.startSolve id f p lba (.erased .absent none) r.2, [])
  else (s, [⟨p.geom, p.course, p.pos, p.row, .want, none, none⟩])

/-- The member reads of a command for runs of adjacent blocks (R64). -/
def Dev.hostReads (s : Dev) (id : Nat) (f : Field) (cells : List Cell) : Dev :=
  let caps := (cells.filterMap fun x => f.reader? x.geom x.pos x.course).map s.mdts
  s.each (cellRuns (caps.foldl min 1048576) cells) fun s r =>
    match r with
    | [] => s
    | x :: _ =>
      match f.reader? x.geom x.pos x.course with
      | some m => s.memberCmd m .read (memberLba f.b x.course x.row) r.length .none false false false (.hostRead id)
      | none => s

/-- Starts the blocks of a READ or VERIFY: a READ takes the newest version that the cache holds (R24); VERIFY checks the
member copies (R106). -/
def Dev.startRead (s : Dev) (id : Nat) : Dev :=
  match s.cmd? id with
  | none => s
  | some c =>
    match s.field? c.e.fieldId.toNat with
    | none => s
    | some f =>
      let s := s.onCmd id fun c => { c with stage := .running, blks := c.lbas.map fun l => (l, .waiting) }
      let x := c.lbas.foldl (fun (acc : Dev × List Cell) lba =>
        match (if c.op = .read then acc.1.newest f.id lba else none) with
        | some l => if l.lostWait then acc else (acc.1.onCmd id fun c => c.setBlk lba (.ready l.data l.tag), acc.2)
        | none =>
          let y := acc.1.readBlock id f lba
          (y.1, acc.2 ++ y.2)) (s, [])
      x.1.hostReads id f x.2

/-! ## What the members return -/

/-- The blocks of a command that a member read of `n` blocks from a member LBA serves. -/
def Dev.blocksOf (f : Field) (c : Cmd) (m lba n : Nat) : List (Nat × Place) :=
  c.blks.filterMap fun e =>
    if e.2 ≠ .waiting then none
    else
      let at' (g : Bool) : Option (Nat × Place) :=
        let p := f.placeIn g e.1
        if f.memberAt g p.pos = some m && lba ≤ p.mlba && p.mlba < lba + n then some (e.1, p) else none
      (at' (f.moved e.1)).or (at' false)

/-- One block of a READ or VERIFY has come from its member: a block that passes its check is served; at a masked position
a block that fails is lost (R160); any other is an erasure, and its row is solved. -/
def Dev.blockLanded (s : Dev) (id : Nat) (f : Field) (lba : Nat) (p : Place) (b : Block) (m : Meta) : Dev :=
  if s.blockOk f p.geom p.course p.pos p.row b m then s.onCmd id fun c => c.setBlk lba (.ready b m)
  else if f.masked p.course p.pos then s.failBlk (some id) lba stDataLost
  else
    let r := s.erasure f p.geom p.course p.pos p.row 1 .tag
    r.1.startSolve id f p lba (.erased .tag (some m)) r.2

/-- A member read of a READ or VERIFY has landed. -/
def Dev.readLanded (s : Dev) (id m lba n : Nat) (l : List (Block × Meta)) : Dev :=
  match s.cmd? id with
  | none => s
  | some c =>
    match s.field? c.e.fieldId.toNat with
    | none => s
    | some f => s.each (Dev.blocksOf f c m lba n) fun s e =>
        let x := (l[e.2.mlba - lba]?).getD (0, 0)
        s.blockLanded id f e.1 e.2 x.1 x.2

/-- A member read of a READ or VERIFY has failed or was hedged: every block of it is an erasure, recorded once, and its
rows are solved; a masked position is lost. -/
def Dev.readFailed (s : Dev) (id m lba n : Nat) (why : Cause) : Dev :=
  match s.cmd? id with
  | none => s
  | some c =>
    match s.field? c.e.fieldId.toNat with
    | none => s
    | some f =>
      match Dev.blocksOf f c m lba n with
      | [] => s
      | x :: rest =>
        let r := s.erasure f x.2.geom x.2.course x.2.pos x.2.row n why
        r.1.each (x :: rest) fun s e =>
          if f.masked e.2.course e.2.pos then s.failBlk (some id) e.1 stDataLost
          else s.startSolve id f e.2 e.1 (.erased why none) r.2

/-! ## The end of a read -/

/-- The status of a read whose blocks are all settled (R99): DATA_LOST before TAG_MISMATCH, other failures first as they
are, SUCCESS when every block is ready; none while one waits. -/
def Cmd.readStatus (c : Cmd) : Option (BitVec 16) :=
  if c.blks.any (fun e => e.2 = .waiting) then none
  else
    let bad := c.blks.filterMap fun e => match e.2 with
      | .failed st => some st
      | _ => none
    if bad.contains stDataLost then some stDataLost
    else if bad.contains stTagMismatch then some stTagMismatch
    else some (bad.headD stSuccess)

/-- A settled READ or VERIFY finishes: record 0x3020 when a solution served it (R101), its data goes to the host or is
parked (R297), and its completion waits for posting. -/
def Dev.endRead (s : Dev) (c : Cmd) : Dev :=
  match c.readStatus with
  | none => s
  | some st =>
    let s := match c.cause with
      | some (src, seq, n, course) =>
        s.record 0x3020 (s.srcField c.e.fieldId.toNat) (src.toNat + n * 2 ^ 16) seq.toNat (course % 2 ^ 32)
      | none => s
    let s := if c.op = .read then (if s.upstream then s.sendData c else s.onCmd c.id fun c => { c with parkedData := true }) else s
    s.finish c.id st 0

/-- Every settled READ and VERIFY finishes, oldest first. -/
def Dev.endReads (s : Dev) : Dev :=
  s.each (s.qs.cmds.filter fun c => c.stage = .running && (c.op = .read || c.op = .verify) && c.blks ≠ []) fun s c => s.endRead c

end Sys2Proof.Machine
end

