-- ==== Sys2Proof/Machine/Jobs.lean ====
section
/-!
DEFINITION. Running the jobs of the drills: lost frames (R208, R231), grants of course locks (R13, R14, R138, R145), the
mortar engine's operations with their lane and hod faults (R89, R199), guards (R123), the start of destages (R90, R211),
resyncs (R136 to R138), scrubs (R104), rebuilds (R152 to R155) and reshape steps (R169), and their commands.
-/

namespace Sys2Proof.Machine

/-- Whether the chip's logic runs: the tick sequencer runs, no freeze stops it, and no dump has quiesced it (R29, R225,
R456). -/
def Dev.awake (s : Dev) : Bool := s.tck.running && !s.sys.frozen && !s.vlt.dumpTick

/-- Whether a single chip in D3hot has come to rest: its host commands have finished (R449). -/
def Dev.resting (s : Dev) : Bool := s.hif.d3hot && !s.partner && s.qs.cmds.all fun c => c.stage = .finished

/-- Whether destages, rebuilds, reshapes, resyncs and scrubs start (R449). -/
def Dev.works (s : Dev) : Bool := s.awake && !s.resting

/-! ## Frames that fail their code or their MACs (R208, R231) -/

/-- The data pointer parts of a block of a write command. -/
def Cmd.partsOf (c : Cmd) (lba : Nat) : List Seg :=
  match c.lbas.findIdx? (· = lba) with
  | some i => segSlice c.segs (4096 * i) 4096
  | none => []

/-- A lost line's content is there again, as plaintext: it is encrypted anew into a new frame (R207, R231). -/
def Dev.putAgain (s : Dev) (f : Field) (l : Line) (plain : Block) : Dev :=
  let x := Config.xtsEncrypt (s.keys f.id).xts l.lba plain
  let t := s.tagOf f l.lba x
  s.rewriteLine l fun y => { y with data := x, tag := t, lostWait := false }

/-- An uncommitted line is lost: it is fetched again from host memory, for which its command's completion waits, or from the window at
once (R231). The blocks of WRITE_ZEROES and DEALLOCATE are made again at once; a malformed WRITE's content is written again. -/
def Dev.refetch (s : Dev) (l : Line) (f : Field) : Dev :=
  let again (s : Dev) : Dev := s.rewriteLine l fun y => y
  match s.cmd? l.cmd with
  | some c =>
    if c.op ≠ .write || c.segs = [] then again s
    else
      let parts := c.partsOf l.lba
      let host := parts.filter fun g => !g.window
      if host = [] then s.putAgain f l (BitVec.ofNat 32768 (s.gather parts [] 0))
      else
        let s := s.onCache fun k => { k with
          lines := modAll (fun x => x.field = l.field && x.lba = l.lba && x.version = l.version) (fun x => { x with lostWait := true }) k.lines }
        s.each host fun s g => s.hostRead (.refetch l.field l.lba) g.addr g.len
  | none => again s

/-- One line is lost after R208 (R231); what the partner's mirror holds of it is written to a new frame. -/
def Dev.lostLine (s : Dev) (l : Line) : Dev :=
  let this (x : Line) : Bool := x.field = l.field && x.lba = l.lba && x.version = l.version && x.st = l.st
  let dropped (s : Dev) : Dev := s.onCache fun k => { k with lines := dropAll this k.lines }
  let fetched (s : Dev) : Dev := s.rewriteLine l fun y => y
  match l.st with
  | .clean => dropped s
  | .uncommitted =>
    match s.field? l.field with
    | some f => s.refetch l f
    | none => dropped s
  | .committed =>
    let newer := (s.versions l.field l.lba).any fun x => x.st = .committed && l.version < x.version
    if newer then dropped s
    else if s.partner && l.mirrored then fetched s
    else s.loseLine l.field l.lba
  | .band => if s.partner && l.mirrored then fetched s else (dropped s).loseLine l.field l.lba

/-- A DRAM channel as a record source. -/
def Dev.srcDram (s : Dev) (ch : Nat) : BitVec 16 := s.srcEngine (0x70 + ch)

/-- A frame with errors within the code: the counter and record 0x6001; patrol scrub writes a line's content to a new frame (R207,
R232). `lba` is 0 for a frame that holds no line. -/
def Dev.frameCorrected (s : Dev) (ch lba : Nat) : Dev :=
  (s.count .drmEccCorrected).record 0x6001 (s.srcDram ch) 1 (lba % 2 ^ 32) (lba / 2 ^ 32)

/-- A frame that a decode with one channel erased brought back: record 0x6002 (R208). -/
def Dev.frameRecovered (s : Dev) (ch lba : Nat) : Dev := s.record 0x6002 (s.srcDram ch) 1 (lba % 2 ^ 32) (lba / 2 ^ 32)

/-- What the reads of a line's frame meet (R208, R231, R232). -/
def Dev.lineFault (s : Dev) (l : Line) (patrol : Bool) (k : FrameFault) : Dev :=
  match frameOutcome k s.drm.channels (s.macsPass l) with
  | .clean => s
  | .corrected c => (s.frameCorrected c l.lba).when patrol fun s => s.rewriteLine l fun y => y
  | .recovered c => (s.rewriteLine l fun y => y).frameRecovered c l.lba
  | .lost => s.lostLine l

/-- What a read of a line, or of the line directory for it, meets (R208, R232). -/
def Dev.frameFault (s : Dev) (l : Line) (k : FrameFault) : Dev :=
  if k = .directory then s.onDrm fun d => { d with rebuildingDir := true } else s.lineFault l false k

/-- Frame faults that a READ meets: each in the newest line of an LBA (R24). -/
def Dev.frameFaults (s : Dev) (fid : Nat) (l : List (Nat × FrameFault)) : Dev :=
  s.each l fun s x => match s.newest fid x.1 with
    | some y => s.frameFault y x.2
    | none => s

/-! ## Fills -/

/-- A request that waited on a miss register goes on: its rows are looked up again, and a destage's rows that miss now are filled
(R193, R194). -/
def Dev.wake (s : Dev) (r : MissReg) (id : Nat) : Dev :=
  match s.job? id with
  | none => s
  | some j =>
    let s := s.onJob id fun j => { j with waitsFill := dropAll (· = r.reg) j.waitsFill }
    match s.field? j.field with
    | none => s
    | some f =>
      let wait := j.stage = .waitLock
      let mine := j.rows.filter fun x => r.names (hodKey f.id x.course x.geom x.row) &&
        (wait || (j.cell? x.geom x.course (pPos (f.w x.geom) x.course) x.row).any fun y => match y.st with
          | .good _ _ => false
          | .reading _ => false
          | _ => true)
      let x := mine.foldl (fun (acc : Dev × List JRow) x =>
        let y := acc.1.lookRow id f x.geom x.course x.row true
        (y.1, if y.2 then acc.2 ++ [x] else acc.2)) (s, [])
      if wait then x.1
      else
        let fills := j.kind = .destage && j.method = .rmw && r.kind ≠ .fill
        let segs := if fills then x.2.foldl (fun l y => addNew (y.row / 16) l) [] else []
        let s := x.1.each segs fun s sg => s.hodStartFill id f j.course j.geom sg ((x.2.map (·.row)).filter fun o => o / 16 = sg)
        (s.readCells id).toEngine id

/-- The rows of a job's fill with the P and Q that members returned, when none of them is still on its way. -/
def fillRows (f : Field) (j : Job) (r : MissReg) : Option (List (Nat × Option (Block × Block))) :=
  let rows := (bitsOf 16 r.rows.toNat).map (16 * r.key.seg + ·)
  let open' (pos o : Nat) : Bool := match j.cell? r.key.geom r.key.course pos o with
    | some x => (match x.st with | .want => true | .reading _ => true | _ => false)
    | none => false
  let p := pPos (f.w r.key.geom) r.key.course
  let q := qPos (f.w r.key.geom) r.key.course
  if rows.any fun o => open' p o || open' q o then none
  else some (rows.map fun o =>
    match j.good? r.key.geom r.key.course p o, j.good? r.key.geom r.key.course q o with
    | some a, some b => (o, some (a.1, b.1))
    | _, _ => (o, none))

/-- A request that waited on a fill receives the rows that the fill could not bring as erasures (R196). -/
def Dev.giveErasures (s : Dev) (r : MissReg) (owner : Job) (id : Nat) : Dev :=
  let gone (x : Cell) : Bool := x.geom = r.key.geom && x.course = r.key.course && x.row / 16 = r.key.seg && r.rows.getLsbD (x.row % 16) &&
    (match x.st with | .erased _ _ => true | _ => false)
  s.onJob id fun j =>
    let rows := j.rows.map (·.row)
    let new := owner.cells.filter fun x => gone x && rows.contains x.row && (j.cell? x.geom x.course x.pos x.row).isNone
    { j with cells := j.cells ++ new }

/-- Fills of a job that have landed enter the hod and serve their waiters (R195, R196). -/
def Dev.landFills (s : Dev) (id : Nat) : Dev :=
  s.each (s.hod.regs.filter fun r => r.kind = .fill && r.owner = id) fun s r =>
    match s.job? id with
    | none => s
    | some j =>
      match s.field? j.field with
      | none => s
      | some f =>
        match fillRows f j r with
        | none => s
        | some rows => (s.hodLandFill r rows).each r.waiters fun s w => (s.giveErasures r j w).wake r w

/-- After a job's reads have come in: fills land, and the job goes to the engine when every source is there. -/
def Dev.afterReads (s : Dev) (id : Nat) : Dev := (s.landFills id).toEngine id

/-- A job ends without its work: its fills are abandoned and its member commands that are not issued go; the targets of a rebuild start
again at their NEXT_COURSE. -/
def Dev.abortJob (s : Dev) (id : Nat) : Dev :=
  let s := s.each (s.hod.regs.filter fun r => r.kind = .fill && r.owner = id) fun s r =>
    (s.hodLandFill r []).each r.waiters fun s w => s.wake r w
  let s := s.onMpt fun p => { p with cmds := dropAll (fun c => c.issued.isNone && (c.purpose = .job id || c.purpose = .heal id)) p.cmds }
  let s := match (s.job? id).filter (·.kind = .rebuild) with
    | some j => s.onField j.field fun f =>
      let back (t : Target) : Target := if t.side = j.geom then t.resume (f.coursesOf t.side) 0 else t
      { f with targets := f.targets.map back }
    | none => s
  s.endJob id

/-- The fills of a job are abandoned with the hod: their reads are made anew, and what the old ones return is discarded (R185). -/
def Dev.refill (s : Dev) (r : MissReg) : Dev :=
  let mine (x : Cell) : Bool := x.geom = r.key.geom && x.course = r.key.course && x.row / 16 = r.key.seg && r.rows.getLsbD (x.row % 16) &&
    (match x.st with | .reading _ => true | _ => false)
  match (s.job? r.owner).bind fun j => s.field? j.field with
  | none => s
  | some f =>
    let parity (x : Cell) : Bool := x.pos = pPos (f.w x.geom) x.course || x.pos = qPos (f.w x.geom) x.course
    (s.onJob r.owner fun j => { j with cells := modAll (fun x => mine x && parity x) (fun x => { x with st := .want }) j.cells }).readCells r.owner

/-- The hod is emptied by a reset or the entry into D3hot: fills are abandoned, and what waited on a register reads on without it (R185). -/
def Dev.hodReset (s : Dev) : Dev :=
  let regs := s.hod.regs
  let s := s.hodEmpty.each (regs.filter (·.kind = .fill)) Dev.refill
  s.each regs fun s r => s.each r.waiters fun s w => s.wake r w

/-- The blocks that a job has read from a hod entry for rows that are still open are misses, and come from the members instead (R199). -/
def Dev.dropHodCells (s : Dev) (entry id : Nat) : Dev :=
  match s.job? id with
  | none => s
  | some j =>
    match s.field? j.field with
    | none => s
    | some f =>
      let opened (x : Cell) : Bool := j.rows.any fun r => r.st = .open && r.geom = x.geom && r.course = x.course && r.row = x.row
      let bad := j.cells.filter fun x => x.fromHod = some entry && opened x
      if bad = [] then s
      else
        let s := s.onJob id fun j => { j with cells := j.cells.filter fun x => !bad.contains x }
        let s := s.each bad fun s x => s.addCell id f x.geom x.course x.pos x.row
        if j.stage = .reading then (s.readCells id).toEngine id else s

/-- Errors that lookups or engine operations find in the hod, with their outcomes (R199): each request that read a line with an
uncorrectable error treats its rows as misses. -/
def Dev.hodErrors (s : Dev) (l : List HodError) : Dev :=
  s.each l fun s e =>
    let s := s.hodError e
    match e with
    | .uncorrectable n _ => s.each (s.cache.jobs.map (·.id)) fun s i => s.dropHodCells n i
    | _ => s

/-! ## Grants -/

/-- The work of a job begins under its locks. -/
def Dev.beginJob (s : Dev) (j : Job) (f : Field) : Dev :=
  match j.kind with
  | .destage =>
    let rest := s.cache.lines.any fun l => l.field = f.id && l.st = .uncommitted && (let p := f.place l.lba; p.course = j.course && p.geom = j.geom)
    (s.onCtx f.id j.course j.geom fun x => { x with dirtySince := if rest then x.dirtySince else none }).beginDestage j.id f
  | .solve => s.beginSolve j.id f none
  | .rebuild => s.beginRebuild j.id f
  | .resync => s.beginResync j.id f
  | .scrub => s.beginScrub j.id f none
  | .reshape => s.beginReshape j.id f
  | .lostLine => s.beginLostLine j.id f
  | .seal => s.startSeal j.id

/-- Whether a destage holds a course while its only open writes wait for lost member paths (R145). -/
def Dev.lostPathDestage? (s : Dev) (j : Job) : Option Job :=
  s.cache.jobs.find? fun d => d.kind = .destage && d.field = j.field && d.held.contains (j.course, j.geom) &&
    d.stage = .writing && d.queued && 0 < d.writesLeft &&
    (s.mpt.cmds.filter fun c => c.purpose = .job d.id || c.purpose = .heal d.id).all fun c => c.held

/-- COURSE_LOCK_GRANT: a waiting holder gets its locks, in order of request, and begins; a solution or a scrub may run under the lock
of a destage that waits for a lost path (R14, R145). -/
def Dev.grantLock (s : Dev) (id : Nat) (hod : List HodError) : Dev :=
  match s.job? id with
  | none => s
  | some j =>
    match s.field? j.field with
    | none => s.abortJob id
    | some f =>
      if !s.awake || j.stage ≠ .waitLock then s
      else if s.locksFree j && (j.kind ≠ .destage || j.waitsFill = []) then
        let s := ((s.hodErrors hod).takeLocks j).onJob id fun j => { j with stage := .reading }
        s.beginJob j f
      else if j.kind = .solve || j.kind = .scrub then
        match s.lostPathDestage? j with
        | none => s
        | some d =>
          let s := (s.hodErrors hod).onJob id fun j => { j with stage := .reading, locks := [], held := [] }
          let s := s.onCtx f.id j.course j.geom fun x => { x with queue := dropAll (· = id) x.queue }
          if j.kind = .scrub then s.beginScrub id f (some d) else s.beginSolve id f (some d)
      else s

/-! ## The end of a job's writes -/

/-- What follows when every write of a job has landed. -/
def Dev.jobLanded (s : Dev) (j : Job) : Dev :=
  match j.kind with
  | .destage => s.destageLanded j.id
  | .solve => if j.badRows ≠ [] then s.startSeal j.id else s.endJob j.id
  | .rebuild => s.rebuildLanded j.id
  | .resync => s.resyncLanded j.id
  | .scrub => s.scrubLanded j.id
  | .reshape => s.reshapeLanded j.id
  | .seal => s.sealLanded j.id
  | .lostLine => s.lostLineLanded j.id

/-- Jobs whose writes have all landed go on. -/
def Dev.settle (s : Dev) : Dev :=
  s.each (s.cache.jobs.filter fun j => j.stage = .writing && j.queued && j.writesLeft = 0) fun s j =>
    match s.job? j.id with
    | some j => if j.stage = .writing && j.queued && j.writesLeft = 0 then s.jobLanded j else s
    | none => s

/-- Whether the heals of a solution wait for the completion of the command that it served (R25). A finished command of a batching pair has
no completion of its own: its solution waits for that of the batch only while nobody else asks for the course (log entry 103). -/
def Dev.healWaits (s : Dev) (j : Job) : Bool :=
  match j.cmd.bind s.cmd? with
  | none => false
  | some c =>
    let batch := (s.pair? c.qid).any (·.batching) && c.stage = .finished
    !(batch && (s.ctx? j.field j.course j.geom).any (·.queue ≠ []))

/-- The heals of finished solutions go out once the completion of the command that they served has been posted (R25). -/
def Dev.sendHeals (s : Dev) : Dev :=
  (s.each (s.cache.jobs.filter fun j => j.kind = .solve && j.stage = .writing && !j.queued) fun s j =>
    if s.healWaits j then s else s.sendWrites j.id).settle

/-! ## The mortar engine (R87 to R89) -/

/-- The lanes in service. -/
def Dev.lanesIn (s : Dev) : List Nat := (List.range 4).filter fun n => !s.mor.lanesOut.getLsbD n

/-- No lane is in service any more: every field fails (R89); the commands end at the tick boundary that follows. -/
def Dev.engineLost (s : Dev) (lane : Nat) : Dev :=
  (((s.onMor fun m => { m with lost := true }).onFields fun l => l.map fun f => { f with failedEngine := true }).record
    0x0112 (s.srcEngine lane) lane 0 0)

/-- The mortar-engine input in bytes that the rebuild share allows in a tick: s × 1,966.08 at a share of s percent, which task
0x04 posts in tenths (R153). -/
def Dev.byteBudget (s : Dev) : Nat := s.tasks.share * 196608 / 1000

/-- The lane on which the operation of a job runs: lane c mod L of the lanes in service, counted in ascending order (R88), or after a
mismatch the next one in service (R89). -/
def Dev.laneOf (s : Dev) (j : Job) : Nat :=
  let l := s.lanesIn
  match j.lane.filter l.contains with
  | some n => n
  | none => (l[j.course % max 1 l.length]?).getD 0

/-- The next lane in service after a lane, going round. -/
def Dev.laneAfter (s : Dev) (lane : Nat) : Option Nat := (s.lanesIn.find? (lane < ·)).or s.lanesIn.head?

/-- The priority of a job's operations on their lane: solutions and heals of reads, then GEN and UPD, then rebuild and reshape, then
CHK (R88). -/
def JobKind.priority : JobKind → Nat
  | .solve => 0
  | .destage | .seal | .lostLine | .resync => 1
  | .rebuild | .reshape => 2
  | .scrub => 3

/-- Whether an operation of higher priority runs on the lane of a job's operation (R88). One that the rebuild share holds back does not
run (R153). -/
def Dev.laneBusy (s : Dev) (j : Job) : Bool :=
  s.cache.jobs.any fun x => x.stage = .engine && s.laneOf x = s.laneOf j && x.kind.priority < j.kind.priority &&
    !(s.charged x && s.byteBudget ≤ s.mpt.bytesUsed)

/-- A lane's two datapaths differ: the output is discarded and the operation runs again on the next lane in service; a second
mismatch within 2²⁰ ticks takes the lane out of service (R89). -/
def Dev.laneMismatch (s : Dev) (j : Job) : Dev :=
  match s.lanesIn with
  | [] => s
  | _ =>
    let lane := s.laneOf j
    let again := s.mor.mismatch.any fun e => e.1 = lane && s.now < e.2.toNat + 2 ^ 20
    let s := (s.count .morLaneRetries).record 0x0110 (s.srcEngine lane) lane 0 0
    let s := s.onMor fun m => { m with mismatch := put lane s.tck.count m.mismatch }
    if again then
      let s := (s.onMor fun m => { m with lanesOut := m.lanesOut ||| (1#4 <<< lane) }).recordEvent 0x0111 (s.srcEngine lane) lane 0 0 13
      if s.lanesIn = [] then s.engineLost lane else s.onJob j.id fun j => { j with lane := s.laneAfter lane }
    else s.onJob j.id fun j => { j with lane := s.laneAfter lane }

/-- One pass of a job at the engine, by kind. -/
def Dev.engineStep (s : Dev) (j : Job) (f : Field) : Dev :=
  let id := j.id
  match j.kind with
  | .destage => s.enginePass id fun s r => s.destageStep id f r
  | .solve => s.enginePass id fun s r => s.solveStep id f r
  | .rebuild => s.enginePass id fun s r => s.rebuildStep id f r
  | .resync => s.enginePass id fun s r => s.resyncStep id f r
  | .scrub => s.enginePass id fun s r => s.scrubStep id f r
  | .reshape => s.enginePass id fun s r => s.reshapeRow id f r
  | .lostLine => s.enginePass id fun s r => s.lostLineStep id f r
  | .seal => s.sealSolve id f

/-- What follows when a job's rows are all done, by kind. -/
def Dev.engineDone (s : Dev) (j : Job) : Dev :=
  let id := j.id
  match j.kind with
  | .destage => s.destageDone id
  | .solve => s.solveDone id
  | .rebuild => s.workDone id none
  | .resync => s.resyncDone id
  | .scrub => s.workDone id none
  | .reshape => s.reshapeFilled id
  | .lostLine => s.lostLineDone id
  | .seal => s

/-- MORTAR_OPERATION_DONE: the operation of a job at the engine completes, with the lane mismatch and the hod errors that
it met; not while one of higher priority runs on its lane. With the last one, the pins of a job that is no destage go (R189). -/
def Dev.engineOp (s : Dev) (id : Nat) (mismatch : Bool) (hod : List HodError) : Dev :=
  match s.job? id with
  | none => s
  | some j =>
    match s.field? j.field with
    | none => s
    | some f =>
      if !s.awake || j.stage ≠ .engine || s.mor.lost || (s.charged j && s.byteBudget ≤ s.mpt.bytesUsed) || s.laneBusy j then s
      else
        let s := s.hodErrors hod
        match s.job? id with
        | none => s
        | some j =>
          if j.reads then (s.readCells id).toEngine id
          else if mismatch then s.laneMismatch j
          else
            let s := (s.onJob id fun j => { j with lane := none }).engineStep j f
            if s.rowsDone id then ((s.when (j.kind ≠ .destage) fun s => s.unpin id).engineDone j).settle else s

/-! ## Guards -/

/-- DESTAGE_GUARD_READY: a job that waits under R123, or a reshape step that waits for its band, issues its writes. A guard in a
region whose bit has come after the grant starts the urgent replica that the grant could not. -/
def Dev.guardReady (s : Dev) (id : Nat) : Dev :=
  match s.job? id with
  | none => s
  | some j =>
    match s.field? j.field with
    | none => s
    | some f =>
      if !s.awake || j.stage ≠ .guarding then s
      else if j.kind = .reshape then (if f.rsStage = .moving then (s.reshapeMove id).settle else s)
      else if s.mayWrite j f && !s.mst.failed then (s.sendWrites id).settle
      else
        let r := s.jobRegion j f
        if s.guarded j f && s.furrow f.id r.1 r.2 then s.urgentReplica f r.1 r.2 else s

/-! ## Starting destages (R90, R211) -/

/-- Whether the delay of R211 is over or does not apply. -/
def Dev.ripeCourse (s : Dev) (f : Field) (c : Nat) (g : Bool) : Bool :=
  (match (s.ctx? f.id c g).bind (·.dirtySince) with
   | some t => t.toNat + s.param .drmDestageDelayTicks ≤ s.now
   | none => true) ||
  s.param .drmDirtyCap < 2 * s.load || s.unprotected f || f.offlineReq || s.drm.drain ≠ 0 || s.sys.softDrain

/-- Whether a field's dirty courses are destaged now: not while it is FAILED or RECOVERING (R52, R136, R452),
nor with a failed store or a lost cache (R141, R232). -/
def Dev.destages (s : Dev) (f : Field) : Bool :=
  !f.failed && !f.restoreWait && !f.ownerWait && f.reread.isNone && f.owned && !f.fenceWait && !f.admitStop && !f.recovering && !s.mst.failed && !s.drm.cacheLost

/-- Whether a course is being destaged or sealed, or a request for that is open. -/
def Dev.destaging (s : Dev) (fid c : Nat) (g : Bool) : Bool :=
  s.cache.jobs.any fun j => (j.kind = .destage || j.kind = .seal) && j.field = fid && j.course = c && j.geom = g

/-- Whether a destage of a course could start now. -/
def Dev.destageable? (s : Dev) (fid c : Nat) (g : Bool) : Bool :=
  !s.destaging fid c g && (match s.field? fid with
    | some e => s.destages e && s.destageLines e c g ≠ []
    | none => false)

/-- Whether a line's course became dirty before this boot, or on the partner: no age is held for it. -/
def Dev.ageless (s : Dev) (l : Line) : Bool :=
  match s.field? l.field with
  | some f => l.st = .committed && (let p := f.place l.lba; ((s.ctx? f.id p.course p.geom).bind (·.dirtySince)).isNone &&
      s.destageable? f.id p.course p.geom)
  | none => false

/-- Whether an older dirty course could be destaged: above half of the cap it goes first (R211). -/
def Dev.olderWaits (s : Dev) (f : Field) (c : Nat) (g : Bool) : Bool :=
  s.param .drmDirtyCap < 2 * s.load && (match (s.ctx? f.id c g).bind (·.dirtySince) with
    | none => false
    | some t => (s.cache.ctxs.any fun x => (x.dirtySince.any fun u => u < t) && s.destageable? x.field x.course x.geom) ||
        s.cache.lines.any s.ageless)

/-- DESTAGE_START: a destage of a dirty course is requested; for a read-modify-write the hod is looked up at once (R187). -/
def Dev.startDestage (s : Dev) (fid c : Nat) (g : Bool) (faults : List (Nat × FrameFault)) (hod : List HodError) : Dev :=
  match s.field? fid with
  | none => s
  | some f =>
    if !s.works || s.destaging fid c g || !s.destages f || !s.ripeCourse f c g || s.olderWaits f c g || s.destageLines f c g = [] then s
    else
      let s := (s.hodErrors hod).each faults fun s e => match (s.destageLines f c g).find? (·.lba = e.1) with
        | some y => s.frameFault y e.2
        | none => s
      let l := s.destageLines f c g
      let rmw := methodOf l.length (f.courseBlocks g) = .rmw
      let id := (s.when rmw fun s => s.resyncFirst f g c).cache.nextJob
      let s := (s.when rmw fun s => s.resyncFirst f g c).startJob (Job.fresh .destage fid c g)
      let rows := f.rowsOf (l.map (·.lba))
      if !rmw then s
      else
        let s := s.onJob id fun j => { j with rows := rows.map fun o => ⟨g, c, o, .open, false, false⟩ }
        s.each rows fun s o => (s.lookRow id f g c o false).1

/-! ## Starting resyncs, scrubs and rebuilds -/

/-- RESYNC_COURSE_START: a course of the resync set of a RECOVERING field, or of a marked region within the rebuild share
(R136, R138, R153). -/
def Dev.startResync (s : Dev) (fid c : Nat) (g : Bool) : Dev :=
  match s.field? fid with
  | none => s
  | some f =>
    let busy := s.cache.jobs.any fun j => j.kind = .resync && j.field = fid && j.course = c && j.geom = g
    let mine := f.resyncSet.contains (c, g) || (f.needsResync g c && 0 < s.tasks.share && !f.recovering && s.resyncTurn f g c)
    if !s.works || busy || !mine || !f.owned || f.fenceWait || f.failed || s.mor.lost then s else s.startJob (Job.fresh .resync fid c g)

/-- Whether scrub skips a course: it is in the lost-course list or its region's furrow bit is set (R104). -/
def Dev.scrubSkips (s : Dev) (f : Field) (c : Nat) : Bool :=
  (f.lost? c).isSome || (let r := f.region false c; s.furrow f.id r.1 r.2)

/-- The next course that scrub takes, looked for from course `c` upward. -/
def Dev.nextScrub (s : Dev) (f : Field) : Nat → Nat → Option Nat
  | 0, _ => none
  | fuel + 1, c => if f.courses ≤ c then none else if s.scrubSkips f c then s.nextScrub f fuel (c + 1) else some c

/-- SCRUB_COURSE_START: scrub takes the next course of an ONLINE field (R104). When the rest of the pass is skipped, the
next pass begins. -/
def Dev.startScrub (s : Dev) (fid : Nat) : Dev :=
  match s.field? fid with
  | none => s
  | some f =>
    let busy := s.cache.jobs.any fun j => j.kind = .scrub && j.field = fid
    if !s.works || busy || s.sys.thermWarn || s.param .morScrubIntervalH = 0 || f.condFlags ≠ 1 || f.reported ≠ 1 || !f.owned || f.admitStop || s.mor.lost then s
    else match s.nextScrub f f.courses f.scrubPos with
      | some c => (s.onField fid fun f => { f with scrubPos := c }).startJob (Job.fresh .scrub fid c false)
      | none =>
        let now := s.tck.count
        s.onField fid fun f => { f with scrubPos := 0, scrubStart := now, scrubLate := false }

/-- Courses of a target whose rebuild has begun. -/
def Dev.begun (s : Dev) (f : Field) (t : Target) : Nat :=
  t.covered + t.landed.length + (s.cache.jobs.filter fun j => j.kind = .rebuild && j.field = f.id &&
    ((f.posIn t.side t.position).any j.targets.contains) && j.geom = t.side).length

/-- Whether a target may begin a further course: at most 256 are in flight, and some are left (R152). A target that waits to join holds the
pass at the next course boundary (R155). -/
def Dev.mayRebuild (s : Dev) (f : Field) (t : Target) : Bool :=
  !t.joined && !f.targets.any (·.joined) && s.begun f t < f.targetCount t && s.begun f t < t.covered + 256

/-- REBUILD_COURSE_START: the next course of a field's rebuild, for every running target that has reached it (R152, R155). -/
def Dev.startRebuildCourse (s : Dev) (fid : Nat) : Dev :=
  match s.field? fid with
  | none => s
  | some f =>
    if !s.works || s.tasks.share = 0 || f.failed || f.recovering || f.offline || !f.owned || f.admitStop || f.labelChanges ≠ [] || s.mor.lost then s
    else match f.targets.find? fun t => s.mayRebuild f t with
      | none => s
      | some t =>
        let mine := f.targets.filter fun x => x.issued = t.issued && x.side = t.side && s.mayRebuild f x
        let pos := mine.map (·.position)
        let n := f.coursesOf t.side
        let next (x : Target) : Target :=
          if pos.contains x.position && x.side = t.side && x.issued = t.issued then { x with issued := (x.issued + 1) % (max 1 n) } else x
        let s := s.onField fid fun f => { f with targets := f.targets.map next }
        s.startJob { Job.fresh .rebuild fid t.issued t.side with targets := pos.filterMap (f.posIn t.side) }

/-- REBUILD_TARGET_JOINED: a second target joins the running pass at the first target's NEXT_COURSE, at a course boundary: no course of the
first is under way; record 0x5003 (R155). -/
def Dev.joinTarget (s : Dev) (fid pos : Nat) : Dev :=
  match s.field? fid with
  | none => s
  | some f =>
    match f.targets.find? fun t => t.position = pos && t.joined, f.targets.find? fun t => !t.joined with
    | some _, some a =>
      if !s.awake || f.reshaping || f.labelChanges ≠ [] || a.issued ≠ a.next then s
      else
        let s := s.onField fid fun f => { f with targets := f.targets.map fun t =>
          if t.position = pos then { t with joined := false, side := a.side, start := a.next, next := a.next, issued := a.next } else t }
        (s.record 0x5003 (s.srcField fid) pos (a.next % 2 ^ 32) (a.next / 2 ^ 32)).writeProgress fid
    | _, _ => s

/-- FIELD_SCRUB_LATE: the pass has outlived its interval (R104). -/
def Dev.scrubLate (s : Dev) (fid : Nat) : Dev :=
  match s.field? fid with
  | none => s
  | some f =>
    let h := s.param .morScrubIntervalH
    if !s.awake || !f.owned || h = 0 || f.scrubLate || s.now < f.scrubStart.toNat + ticksOfSeconds (3600 * h) then s
    else (s.onField fid fun f => { f with scrubLate := true }).record 0x3026 (s.srcField fid) 0 0 0

/-- SCRUB_POSITION_SAVE: once per hour every scrub position goes into the configuration store (R104). -/
def Dev.saveScrub (s : Dev) : Dev :=
  if !s.awake || s.now < s.sys.scrubHour.toNat + ticksOfSeconds 3600 then s
  else
    let now := s.tck.count
    (s.onSys fun y => { y with scrubHour := now }).onFields fun l => l.map fun f => { f with scrubSaved := f.scrubPos }

/-- RESHAPE_STEP_START under a running tick. -/
def Dev.startStep (s : Dev) (fid : Nat) : Dev := if s.works then s.reshapeStep fid else s

/-- MST_REPLICA_TICK: the field's replica is written at its tick (R134). -/
def Dev.replicaTick (s : Dev) (fid : Nat) : Dev :=
  match s.field? fid with
  | none => s
  | some f =>
    let p := s.param .mstReplicaTicks
    let due : Nat := match f.homeIndex with
      | some h => 32 * h
      | none => 32 * (f.id % 128) + 16
    if s.awake && (s.now % p == due % p) && f.assembled && f.owned && f.reread.isNone then s.startReplica fid else s

/-- HOD_MOVE_DONE: a move ends, and the requests that waited go on. -/
def Dev.moveDone (s : Dev) (reg : Nat) : Dev :=
  match s.hod.regs.find? fun r => r.reg = reg && r.kind ≠ .fill with
  | some r => if s.awake then (s.hodMoved r).each r.waiters fun s w => s.wake r w else s
  | none => s

/-! ## Commands -/

/-- COURSE_LOCK_GRANT. -/
def execCourseLockGrant (grant : LockGrant) (s : State) : Host.Outcome State Fault Refusal :=
  .next { s with toDev := s.toDev.grantLock grant.job grant.hod }

/-- MORTAR_OPERATION_DONE. -/
def execMortarOperationDone (job : Nat) (mismatch : Bool) (hod : List HodError) (s : State) : Host.Outcome State Fault Refusal :=
  .next { s with toDev := s.toDev.engineOp job mismatch hod }

/-- DESTAGE_START. -/
def execDestageStart (field course : Nat) (geom : Bool) (meets : DestageMeets) (s : State) :
    Host.Outcome State Fault Refusal :=
  .next { s with toDev := s.toDev.startDestage field course geom meets.frames meets.hod }

/-- DESTAGE_GUARD_READY. -/
def execDestageGuardReady (job : Nat) (s : State) : Host.Outcome State Fault Refusal :=
  .next { s with toDev := s.toDev.guardReady job }

/-- MST_REPLICA_TICK. -/
def execMstReplicaTick (field : Nat) (s : State) : Host.Outcome State Fault Refusal :=
  .next { s with toDev := s.toDev.replicaTick field }

/-- RESYNC_COURSE_START. -/
def execResyncCourseStart (field course : Nat) (geom : Bool) (s : State) : Host.Outcome State Fault Refusal :=
  .next { s with toDev := s.toDev.startResync field course geom }

/-- SCRUB_COURSE_START. -/
def execScrubCourseStart (field : Nat) (s : State) : Host.Outcome State Fault Refusal :=
  .next { s with toDev := s.toDev.startScrub field }

/-- FIELD_SCRUB_LATE. -/
def execFieldScrubLate (field : Nat) (s : State) : Host.Outcome State Fault Refusal :=
  .next { s with toDev := s.toDev.scrubLate field }

/-- SCRUB_POSITION_SAVE. -/
def execScrubPositionSave (s : State) : Host.Outcome State Fault Refusal :=
  .next { s with toDev := s.toDev.saveScrub }

/-- REBUILD_COURSE_START. -/
def execRebuildCourseStart (field : Nat) (s : State) : Host.Outcome State Fault Refusal :=
  .next { s with toDev := s.toDev.startRebuildCourse field }

/-- REBUILD_TARGET_JOINED. -/
def execRebuildTargetJoined (field position : Nat) (s : State) : Host.Outcome State Fault Refusal :=
  .next { s with toDev := s.toDev.joinTarget field position }

/-- RESHAPE_STEP_START. -/
def execReshapeStepStart (field : Nat) (s : State) : Host.Outcome State Fault Refusal :=
  .next { s with toDev := s.toDev.startStep field }

/-- HOD_AGE_TICK. -/
def execHodAgeTick (s : State) : Host.Outcome State Fault Refusal :=
  .next { s with toDev := s.toDev.hodAge }

/-- HOD_MOVE_DONE. -/
def execHodMoveDone (reg : Nat) (s : State) : Host.Outcome State Fault Refusal :=
  .next { s with toDev := s.toDev.moveDone reg }

/-- HOD_INVALIDATED. -/
def execHodInvalidated (s : State) : Host.Outcome State Fault Refusal :=
  .next { s with toDev := s.toDev.hodInvalidated }

end Sys2Proof.Machine
end

