-- ==== Sys2Proof/Machine/Mbox.lean ====
section
/-!
DEFINITION. The protocol of both mailboxes (R348 to R355, R365): acceptance, objects, completion and records. The
commands themselves stand with their subjects.
-/

namespace Sys2Proof.Machine

/-! ## Status codes (R355) -/

def mbOk : Nat := 0x0
def mbBadOpcode : Nat := 0x1
def mbBadLength : Nat := 0x2
def mbBadArgument : Nat := 0x3
def mbBusy : Nat := 0x4
def mbNotAllowed : Nat := 0x5
def mbNoResource : Nat := 0x6
def mbNotReady : Nat := 0x7
def mbAuthFailed : Nat := 0x8
def mbInterrupted : Nat := 0x9
def mbInternal : Nat := 0xA

/-- DETAIL when no single argument is at fault (R355). -/
def noDetail : Nat := 0xFFFFFFFF

/-- The commands that change state (R352, R356): each of them writes record 0x0152. -/
def stateChanging (op : Nat) : Bool :=
  [0x0103, 0x0201, 0x0202, 0x0301, 0x0302, 0x0303, 0x0304, 0x0306, 0x0307, 0x0402, 0x0403, 0x0404, 0x0405, 0x0406, 0x0407,
    0x0504, 0x0601, 0x0604, 0x0605, 0x0802, 0x0902, 0x0903, 0x0904].contains op

/-- The commands that change a field's or a member's state, whose completion on the management path raises the management
device event (R365). -/
def changesMemberState (op : Nat) : Bool :=
  [0x0301, 0x0302, 0x0303, 0x0304, 0x0307, 0x0402, 0x0403, 0x0404, 0x0405, 0x0406, 0x0902, 0x0903, 0x0904].contains op

/-- The commands that the recovery loader serves (R353). -/
def recoveryServes (op : Nat) : Bool := [0x0101, 0x0102, 0x0103].contains op || op / 256 = 6

/-! ## Running commands -/

/-- The running command of a mailbox. -/
def Mbx.run? (m : Mbx) : MbxPath → Option MbxRun
  | .host => m.hostRun
  | .mgmt => m.mgmtRun

/-- Sets the running command of a mailbox. -/
def Dev.setRun (s : Dev) (p : MbxPath) (r : Option MbxRun) : Dev :=
  match p with
  | .host => s.onMbx fun m => { m with hostRun := r }
  | .mgmt => s.onMbx fun m => { m with mgmtRun := r }

/-- The running command of a mailbox waits for something. -/
def Dev.mbxWait (s : Dev) (p : MbxPath) (w : MbxWait) : Dev :=
  match s.mbx.run? p with
  | some r => s.setRun p (some { r with wait := w })
  | none => s

/-- The mailbox whose running command waits for something, the host's first. -/
def Dev.waiter? (s : Dev) (w : MbxWait) : Option MbxPath :=
  if (s.mbx.hostRun.map (·.wait)) = some w then some .host
  else if (s.mbx.mgmtRun.map (·.wait)) = some w then some .mgmt
  else none

/-- The running command of a mailbox completes with a status and a payload: the response is written, then BUSY clears and
DONE rises (R348); a host response that a reset discards is not written (R351). -/
def Dev.mbxDone (s : Dev) (p : MbxPath) (st : Nat) (payload : List Byte) : Dev :=
  match s.mbx.run? p with
  | none => s
  | some r =>
    let s := (s.setRun p none).count .mbxCmds
    let s := s.when (stateChanging r.opcode.toNat) fun s =>
      s.record 0x0152 (s.srcPath p) (r.opcode.toNat + st * 2 ^ 16) r.seq.toNat 0
    let resp : MbxResp := ⟨r.opcode, BitVec.ofNat 16 st, r.seq, payload, BitVec.ofNat 32 s.sys.epoch⟩
    match p with
    | .host =>
      if s.mbx.hostDiscard then s.onMbx fun m => { m with busy := false, hostDiscard := false }
      else
        let s := s.onMbx fun m => { m with resp := some resp, busy := false, done := true, failed := st ≠ 0, lastSeq := r.seq }
        s.when s.mbx.irqEn fun s => s.msix 1025
    | .mgmt => (s.emit (.mgmt resp)).when (st = 0 && changesMemberState r.opcode.toNat) fun s => s.event 12

/-- A command completes with OK and no payload. -/
def Dev.mbxOk (s : Dev) (p : MbxPath) : Dev := s.mbxDone p mbOk []

/-- A command is refused with BAD_ARGUMENT or NOT_ALLOWED and its DETAIL (R355). -/
def Dev.mbxRefuse (s : Dev) (p : MbxPath) (st detail : Nat) : Dev := s.mbxDone p st (bytesLE 4 detail)

/-- The command that waits for something completes with a status. -/
def Dev.mbxWake (s : Dev) (w : MbxWait) (st : Nat) (payload : List Byte) : Dev :=
  match s.waiter? w with
  | some p => s.mbxDone p st payload
  | none => s

/-! ## Acceptance (R348 to R353, R365) -/

/-- Whether a running command holds one of the objects (R352). -/
def heldBy (l : List Obj) (r : Option MbxRun) : Bool :=
  match r with
  | some r => r.wait ≠ .objects && l.any r.objs.contains
  | none => false

/-- Whether the objects of a command of a mailbox are held by the other one. -/
def Dev.objsHeld (s : Dev) (p : MbxPath) (l : List Obj) : Bool :=
  match p with
  | .host => heldBy l s.mbx.mgmtRun
  | .mgmt => heldBy l s.mbx.hostRun

/-- A GO that is ignored (R349). -/
def Dev.mbxOverrun (s : Dev) (seq : BitVec 32) : Dev :=
  ((s.onMbx fun m => { m with overrun := true }).count .mbxOverruns).record 0x0150 (s.srcPath .host) seq.toNat 0 0

/-- A command runs: its checks in order, then its objects, then `start`. -/
def Dev.mbxRun (s : Dev) (p : MbxPath) (op : Nat) (i : Instr) (r : MbxReq) (lenOk : Bool) (objs : List Obj)
    (start : Dev → Dev) : Dev :=
  let run : MbxRun := ⟨i, BitVec.ofNat 16 op, r.seq, objs, if s.objsHeld p objs then .objects else .running⟩
  let s := s.setRun p (some run)
  if !s.hif.ready then s.mbxDone p mbNotReady []
  else if s.hif.recovery && !recoveryServes op then s.mbxDone p mbNotReady []
  else if p = .mgmt && op / 256 = 2 then s.mbxDone p mbBadOpcode []
  else if 4080 < r.len || !lenOk then s.mbxDone p mbBadLength []
  else if run.wait = .objects then s
  else start s

/-- Whether the firmware answers on the management path: the boot ROM has run and the Trowel is not lost (R344, R450). -/
def Dev.mgmtUp (s : Dev) : Bool := s.kst.running && !s.sys.frozen && s.sys.trwHalted.contains false

/-- A request arrives at a mailbox (R348, R349, R365). -/
def Dev.mbxCommand (s : Dev) (p : MbxPath) (op : Nat) (i : Instr) (r : MbxReq) (lenOk : Bool) (objs : List Obj)
    (start : Dev → Dev) : Dev :=
  match p with
  | .host =>
    if s.sys.frozen then s
    else if !s.hif.ready || s.mbx.busy then s.mbxOverrun r.seq
    else (s.onMbx fun m => { m with busy := true, done := false }).mbxRun p op i r lenOk objs start
  | .mgmt =>
    if !s.mgmtUp then s
    else if s.mbx.mgmtRun.isNone then s.mbxRun p op i r lenOk objs start
    else if s.mbx.mgmtNext.isNone then s.onMbx fun m => { m with mgmtNext := some i }
    else s.count .mbxMgmtDropped

/-- The request that waits on a mailbox, taken out so that it can start: a command whose objects are free now, or the
request that the management mailbox keeps (R352, R365). -/
def Dev.mbxReady? (s : Dev) (p : MbxPath) : Option (Dev × Instr) :=
  match s.mbx.run? p with
  | some r =>
    if r.wait = .objects && !s.objsHeld p r.objs && (p = .mgmt || s.hif.ready) then
      some ((s.setRun p none).onMbx fun m => if p = .host then { m with busy := false } else m, r.instr)
    else none
  | none =>
    match p, s.mbx.mgmtNext with
    | .mgmt, some i => some (s.onMbx fun m => { m with mgmtNext := none }, i)
    | _, _ => none

end Sys2Proof.Machine
end

