-- ==== Sys2Proof/Machine/Members.lean ====
section
/-!
DEFINITION. Members: what follows a label change (R75), spares and rebuild starts (R148 to R151), ends of rebuild targets
(R157, R174), fault decisions (R144, R146, R491), member paths (R145), and namespaces that are found (R55, R61, R147).
-/

namespace Sys2Proof.Machine

/-! ## Spares (R149) -/

/-- The members of a field that count in a fault domain. -/
def Dev.domainCount (s : Dev) (f : Field) (d : Nat) : Nat :=
  (f.liveMembers.filter fun m => s.mpt.domainMap[m]? = some d).length

/-- Whether a namespace may join a field at all: R56, R61, R71 and R81. `courses` is the count that its size must hold. -/
def Dev.fits (s : Dev) (f : Field) (x : Member) (courses : Nat) : Bool :=
  x.joins && dataStart + courses * f.b ≤ x.blocks && (!f.tagged || x.tagCapable) &&
  !(f.members ++ f.nextMembers).any fun e => match e.member.bind s.member? with
    | some y => y.subsystem = x.subsystem && y.id ≠ x.id
    | none => false

/-- The most courses that a member of the field must hold. -/
def Field.mostCourses (f : Field) : Nat := max f.courses (f.coursesOf true)

/-- The spare that the device takes for a field: the fault domain with the fewest members of the field, then the smallest
namespace, then the lowest member ID. -/
def Dev.chooseSpare (s : Dev) (f : Field) : Option Nat :=
  let l := s.mpt.members.filter fun x => x.state = 2 && !x.warning && s.fits f x f.mostCourses
  let key (x : Member) : Nat := (s.domainCount f ((s.mpt.domainMap[x.id]?).getD 0) * 2 ^ 64 + x.blocks) * 256 + x.id
  (l.foldl (fun (best : Option Member) x => match best with
    | none => some x
    | some b => if key x < key b then some x else best) none).map (·.id)

/-! ## Rebuild starts and ends -/

/-- NEXT_MEMBERS with a new entry in the place of a member that leaves a rebuild position: by its identity, by the position of a
member that only the new geometry has, or, for a vacant entry, by its place among the vacant ones (R174, R489). -/
def Field.nextWith (f : Field) (pos : Nat) (old e : MPos) : List MPos :=
  if f.members.length ≤ pos then f.nextMembers.set pos e
  else if old.uid ≠ 0 then f.nextMembers.map fun y => if y.uid = old.uid then e else y
  else
    let k := ((f.members.take pos).filter (·.uid = 0)).length
    match (f.nextMembers.zipIdx.filter (·.1.uid = 0))[k]? with
    | some v => f.nextMembers.set v.2 e
    | none => f.nextMembers

/-- A spare, or a member that has returned, takes a position as rebuild target: the label change of R150. In a reshaping field
it takes the failed member's place in both tables (R174). -/
def Dev.takePosition (s : Dev) (f : Field) (pos m : Nat) (p : Option MbxPath) : Dev :=
  match s.member? m, f.rebuildEntry? pos with
  | some x, some old =>
    let e : MPos := ⟨x.uid, 3, x.tagCapable, f.gen + 1, some m⟩
    let s := match old.member with
      | some o => if o = m then s else s.onMember o fun y => { y with field := none, position := 0 }
      | none => s
    let s := s.onMember m fun y => { y with state := 3, field := some f.id, position := pos }
    let s := s.onField f.id fun g => { g with
      repOn := dropAll (· = m) g.repOn
      repFlight := g.repFlight.map fun r => { r with all := dropAll (· = m) r.all }
      members := g.members.set pos e
      nextMembers := g.nextWith pos old e
      noSpare := dropAll (· = pos) g.noSpare
      lostChanged := g.lostChanged || g.lost ≠ [] }
    ((s.clearRegion m).bumpEpoch).changeLabel f.id (.rebuild p pos)
  | _, _ => s

/-- The most targets of a field: one while it reshapes (R155). -/
def Field.targetLimit (f : Field) : Nat := if f.reshaping then 1 else 2

/-- Targets that run or are about to. -/
def Field.targetCountNow (f : Field) : Nat := f.targets.length + f.waitingTargets.length

/-- Whether a rebuild of a position may start now (R150, R155, R174). -/
def Field.rebuildable (f : Field) (pos : Nat) : Bool :=
  (match f.rebuildEntry? pos with | some e => e.state = 4 || e.state = 5 | none => false) &&
  !f.recovering && !f.failed && !f.offline && !f.offlineReq && f.labelChanges = [] && !f.admitStop && f.owned &&
  f.rsPend.isNone && f.targetCountNow < f.targetLimit

/-- Whether a target may begin or join now: its field is served, its labels are settled, there is room for it, and a reshape
stands still between steps (R150, R155, R174). -/
def Field.mayBegin (f : Field) : Bool :=
  !f.recovering && !f.failed && !f.offline && f.labelChanges = [] && !f.admitStop && f.owned && f.targets.length < f.targetLimit &&
  (match f.rs with
   | some r => f.rsStage = .idle && r.paused && f.rsMembers = []
   | none => true)

/-- REBUILD_START: the device starts the rebuild of a FAILED or MISSING position; without an eligible spare it records so
once (R150). -/
def Dev.startRebuild (s : Dev) (fid pos : Nat) : Dev :=
  match s.field? fid with
  | none => s
  | some f =>
    if !s.awake || s.param .morAutoRebuild = 0 || !f.rebuildable pos then s
    else match s.chooseSpare f with
      | some m => s.takePosition f pos m none
      | none =>
        if f.noSpare.contains pos then s
        else (s.onField fid fun f => { f with noSpare := f.noSpare ++ [pos] }).record 0x5004 (s.srcField fid) pos 0 0

/-- A target starts, or joins the running pass at a course boundary (R151, R155): record 0x5001 and a progress block. In a
reshaping field the moved side comes first, when the member has a place on it (R174). -/
def Dev.beginTarget (s : Dev) (fid pos : Nat) : Dev :=
  match s.field? fid with
  | none => s
  | some f =>
    let side := f.rs.isSome && (f.posIn true pos).isSome
    let c0 := (f.sideCourses side).1
    let t : Target := ⟨pos, side, c0, c0, c0, [], 0, f.targets ≠ [], 0⟩
    let s := s.onField fid fun f => { f with targets := f.targets ++ [t] }
    (s.record 0x5001 (s.srcField fid) pos (c0 % 2 ^ 32) (c0 / 2 ^ 32)).writeProgress fid

/-- A position that waits for its target starts it at a tick boundary, as soon as it may. -/
def Dev.beginWaiting (s : Dev) (fid : Nat) : Dev :=
  match s.field? fid with
  | none => s
  | some f =>
    match f.waitingTargets with
    | pos :: _ => if f.mayBegin then s.beginTarget fid pos else s
    | [] => s

/-- The label change of a rebuild start is done: the command that asked for it completes, and the target starts. -/
def Dev.rebuildLabelled (s : Dev) (fid : Nat) (p : Option MbxPath) : Dev :=
  (match p with
   | some p => s.mbxOk p
   | none => s).beginWaiting fid

/-- The state of a member and of its positions changes, in the table of an accepted reshape too (R164); the state table's epoch rises
(R354). -/
def Dev.setMemberState (s : Dev) (m : Nat) (st : BitVec 8) : Dev :=
  let set (e : MPos) : MPos := if e.member = some m then { e with state := st } else e
  ((s.onMember m fun x => { x with state := st }).onFields fun l => l.map fun f =>
    { f with
      members := f.members.map set
      nextMembers := f.nextMembers.map set
      rsPend := f.rsPend.map fun x => (x.1, x.2.1.map set, x.2.2) }).bumpEpoch

/-- Targets whose rebuilt range is complete: in a reshaping field the unmoved side follows the moved one; then the target
becomes ACTIVE by a label change, with a progress block without it and record 0x5002 (R157, R174). -/
def Dev.endTargets (s : Dev) (f : Field) : Dev :=
  match f.targets.find? fun t => !t.joined && f.targetCount t ≤ t.covered with
  | none => s
  | some t =>
    if f.labelChanges ≠ [] then s
    else if t.side && (f.posIn false t.position).isSome then
      let c0 := (f.sideCourses false).1
      let turn (t : Target) : Target := { t with side := false, start := c0, next := c0, issued := c0, landed := [], covered := 0 }
      s.onField f.id fun f => { f with targets := modAll (·.position = t.position) turn f.targets }
    else
      let s := s.onField f.id fun f => { f with targets := dropAll (·.position = t.position) f.targets }
      let s := match (f.rebuildEntry? t.position).bind (·.member) with
        | some m => s.setMemberState m 1
        | none => s
      let s := (s.changeLabel f.id .nothing).writeProgress f.id
      s.record 0x5002 (s.srcField f.id) t.position (t.next % 2 ^ 32) (t.next / 2 ^ 32)

/-! ## After a label change -/

/-- The home slots of a field that is being created are free, and no slot of an earlier field of its ID is left (R121, log entry 113). -/
def Dev.homeFree (s : Dev) (f : Field) : Bool :=
  !(s.mst.slots ++ s.slotsMaking).any fun x =>
    x.field = f.id || (match f.homeIndex with | some h => x.idx / 16 = h && x.idx % 16 < f.coarseCount | none => false)

/-- A creation whose labels have landed completes once its home slots are free: the field is visible and ONLINE
(R121, R178). -/
def Dev.tryCreate (s : Dev) (fid : Nat) : Dev :=
  match s.field? fid with
  | none => s
  | some f =>
    if f.seen || !f.owned || f.labelChanges ≠ [] || !s.homeFree f then s
    else
      let s := s.onField fid fun f => { f with seen := true }
      let s := s.onMst fun m => { m with homeReserved := dropAll (fun h => some h = f.homeIndex) m.homeReserved }
      (s.bumpEpoch).mbxWake (.label fid) mbOk (bytesLE 16 f.uuid.toNat ++ bytesLE 8 f.capacity)

/-- A record about one field of a pair: the owning position and FIELD_GEN (R270). -/
def Dev.pairRecord (s : Dev) (code fid : Nat) : Dev :=
  match s.field? fid with
  | some f => s.record code (s.srcField fid) (b2n f.ownerPos) (f.gen % 2 ^ 32) 0
  | none => s.record code (s.srcField fid) 0 0 0

/-- Every region of a field whose furrow bit is set is marked for whole-region resync (R138). -/
def Dev.markRegions (s : Dev) (fid : Nat) (rs : List (Bool × Nat)) : Dev :=
  s.onField fid fun f => { f with marked := rs.foldl (fun l r => addNew r l) f.marked, resynced := [] }

/-- The regions of a field whose furrow bits are set. -/
def Dev.setRegions (s : Dev) (fid : Nat) : List (Bool × Nat) :=
  (bitsOf 16 (s.coarseMap fid).toNat).map (fun r => (false, r)) ++ (s.fineSetOf fid).map fun r => (true, r)

/-- A whole-region resync starts when regions are marked: RESYNCING and record 0x3030 (R138, R178). -/
def Dev.startRegionResync (s : Dev) (fid : Nat) : Dev :=
  match s.field? fid with
  | none => s
  | some f =>
    if (f.marked = [] && f.lineSet = []) || f.resyncing then s
    else (s.onField fid fun f => { f with resyncing := true }).regionRecord 0x3030 fid f.marked

/-- What follows a label change that is done. -/
def Dev.afterLabel (s : Dev) (fid : Nat) (t : LabelThen) : Dev :=
  match t with
  | .nothing => s
  | .create => s.tryCreate fid
  | .command p => s.mbxOk p
  | .rebuild p _ => s.rebuildLabelled fid p
  | .reshapeStart p => match p with
    | some p => s.mbxOk p
    | none => s
  | .reshapeEnd _ => s.freeReshape fid
  | .release m => s.writeBare 3 m
  | .takeover => s
  | .handover =>
    let s := s.onField fid fun f => { f with recovering := false, restoreWait := false }
    let s := s.onTwn fun t => { t with ownerEpoch := t.ownerEpoch + 1, handovers := dropAll (·.field = fid) t.handovers }
    (((s.startRegionResync fid).count .twnHandovers).pairRecord 0x7020 fid).event 4

/-- Writes of a kind of a field's label changes have landed on a member, or will never land on it. -/
def Dev.labelDone (s : Dev) (f gen : Nat) (k : LabelPart) (m : Nat) : Dev :=
  let x := s.labelLanded f gen k m
  x.1.each x.2 fun s t => s.afterLabel f t

/-- A member receives no more writes of any label change. -/
def Dev.labelsOver (s : Dev) (m : Nat) : Dev :=
  s.each s.fields fun s f => ((s.labelDone f.id (2 ^ 64) .label m).labelDone f.id (2 ^ 64) .lost m).labelDone f.id (2 ^ 64) .bare m

/-- A spare or released label has landed: the member takes the state that the label gives, the label change that it belongs to goes on, and
the command that waits completes (R75, R148, R489). -/
def Dev.bareLanded (s : Dev) (m : Nat) (kind : BitVec 8) : Dev :=
  let s := if kind = 2 then s.setMemberState m 2 else s.setMemberState m 7
  let s := s.each s.fields fun s f => s.labelDone f.id (2 ^ 64) .bare m
  s.mbxWake (.spareLabel m) mbOk []

/-- A cleared label region has landed on a FOREIGN member, which MEMBER_RELEASE makes AVAILABLE; the configuration store keeps that it has
been cleared (R58, log entry 116). -/
def Dev.regionLanded (s : Dev) (m : Nat) : Dev :=
  match s.member? m with
  | some x =>
    if x.state = 6 then
      ((s.setMemberState m 7).onMpt fun p => { p with cleared := addNew x.uid p.cleared }).mbxWake (.spareLabel m) mbOk []
    else s
  | none => s

/-! ## Faults (R144 to R146) -/

/-- An event of R144 waits for task 0x06. -/
def Dev.faultEvent (s : Dev) (m : Nat) (missing : Bool) (row : Nat) : Dev :=
  s.onTasks fun t => { t with faultEvents := addNew ⟨m, missing, row⟩ t.faultEvents }

/-- A member command will never complete: what it named becomes an erasure by absence, and what it would have written is
dropped (R145, R146). -/
def Dev.cutCommand (s : Dev) (c : MCmd) : Dev :=
  let s := s.onMpt fun p => { p with cmds := dropAll (·.id = c.id) p.cmds }
  match c.purpose with
  | .hostRead k => s.readFailed k c.member c.lba c.nlb .absent
  | .job j =>
    if c.op = .read then (s.cellsFailed j c.id .absent).afterReads j
    else (s.onJob j fun b => { b with writesLeft := b.writesLeft - 1 }).settle
  | .heal j => (s.onJob j fun b => { b with writesLeft := b.writesLeft - 1 }).settle
  | .label f => s.labelDone f (2 ^ 64) .label c.member
  | .lostList f => s.labelDone f (2 ^ 64) .lost c.member
  | .spareLabel => s.mbxWake (.spareLabel c.member) mbInternal []
  | .region => s.mbxWake (.spareLabel c.member) mbInternal []
  | .format => s.mbxWake (.format c.member) mbInternal []
  | .replica f => s.replicaLanded f c.member
  | .checkpoint f => s.onField f fun x => { x with rsMembers := dropAll (· = c.member) x.rsMembers }
  | .progress _ | .fence _ | .adopt | .fill _ => s

/-- A member receives no further command: every command to it is cut (R146). -/
def Dev.cutMember (s : Dev) (m : Nat) : Dev :=
  let s := s.each (s.mpt.cmds.filter (·.member = m)) fun s c => s.cutCommand c
  let s := s.labelsOver m
  s.each s.fields fun s f =>
    (s.replicaLanded f.id m).onField f.id fun x => { x with rsMembers := dropAll (· = m) x.rsMembers }

/-- The record of a member event (R181). -/
def Dev.memberRecord (s : Dev) (code : Nat) (x : Member) (row : Nat) : Dev :=
  let place := match x.field with
    | some f => f + x.position * 2 ^ 8
    | none => 0xFFFF
  s.recordEvent code (s.srcMember x.id) (place + row * 2 ^ 16) 0 0 2

/-- A COPY onto a spare starts for a member whose health warns (R144 row 5, R163). -/
def Dev.autoCopy (s : Dev) (x : Member) : Dev :=
  match x.field.bind s.field? with
  | none => s
  | some f =>
    match s.chooseSpare f with
    | none => s
    | some m =>
      if s.param .mptAutoCopy = 0 || !f.owned || f.condFlags ≠ 1 || f.rsPend.isSome || 16 ≤ s.reshapeCount then s
      else match s.member? m with
        | some y =>
          let e : MPos := ⟨y.uid, 3, y.tagCapable, f.gen + 1, some m⟩
          let s := s.onMember m fun y => { y with state := 3, field := some f.id, position := x.position }
          (s.acceptReshape f.id (f.startRecord 3 f.width f.courses x.position) (f.members.set x.position e) none).bumpEpoch
        | none => s

/-- The rebuild targets of a field without those of a member. -/
def Field.withoutTarget (f : Field) (m : Nat) : List Target :=
  f.targets.filter fun t => ((f.rebuildEntry? t.position).bind (·.member)) ≠ some m

/-- A member of a field has become FAILED or MISSING: a copy that it takes part in ends, a rebuild onto it ends, and a label
change records the new state (R146, R174). Only the owner of the field does so. -/
def Dev.fieldLoses (s : Dev) (fid m : Nat) : Dev :=
  match (s.field? fid).filter (·.owned) with
  | none => s
  | some f =>
    if f.copyLost.isSome then s.endCopy fid
    else (s.onField fid fun f => { f with targets := f.withoutTarget m }).changeLabel fid .nothing

/-- A fault decision takes effect at a tick boundary (R144, R491). -/
def Dev.applyFault (s : Dev) (d : FaultDecision) : Dev :=
  match s.member? d.member with
  | none => s
  | some x =>
    if d.row = 5 then
      ((s.onMember x.id fun x => { x with warning := true }).memberRecord 0x4033 x 5).when (x.state = 1) fun s => s.autoCopy x
    else if x.state = 4 || (x.state = 5 && d.missing) then
      (s.each (s.mpt.cmds.filter fun c => c.member = x.id && c.failed) fun s c => s.cutCommand c).mbxWake (.fail x.id) mbOk []
    else
      let s := s.memberRecord (if d.missing then 0x4031 else 0x4030) x d.row
      let s := s.setMemberState x.id (if d.missing then 5 else 4)
      let s := s.onMember x.id fun y => { y with erasures := [], pathLost := none }
      let s := s.cutMember x.id
      let s := match x.field with
        | some f => s.fieldLoses f x.id
        | none => s
      s.mbxWake (.fail x.id) mbOk []

/-- Members beyond the erasure threshold of row 3 of R144: field members only (R491). -/
def Dev.overThreshold (s : Dev) : List FaultDecision :=
  (s.mpt.members.filter fun x => x.field.isSome && (x.state = 1 || x.state = 3) &&
    s.param .mptFailErasures < (x.erasures.filter fun t => s.now < t.toNat + s.param .mptFailWindowTicks).length).map
    fun x => ⟨x.id, false, 3⟩

/-! ## Events of members -/

/-- MEMBER_CONTROLLER_FATAL and MEMBER_READY_TIMEOUT: row 1 of R144. -/
def Dev.controllerLost (s : Dev) (m : Nat) : Dev :=
  if s.awake && (s.member? m).isSome then s.faultEvent m false 1 else s

/-- MEMBER_ASYNC_EVENT: the health log is read and the next event asked for (R62); rows 4 and 5 of R144. -/
def Dev.asyncEvent (s : Dev) (m : Nat) (w : SmartWarning) : Dev :=
  if !s.awake || (s.member? m).isNone then s
  else
    let s := (s.memberAdmin m (.getLogPage 2)).memberAdmin m .asyncEventRequest
    match w with
    | .readOnlyMedia => s.faultEvent m false 4
    | .spareLow => s.faultEvent m false 5
    | .reliability => s.faultEvent m false 5
    | .cleared => s.onMember m fun x => { x with warning := false }

/-- MEMBER_PATH_LOST: the grace starts; writes to the member wait (R145). -/
def Dev.pathLost (s : Dev) (m : Nat) : Dev :=
  match s.member? m with
  | none => s
  | some x =>
    if !s.awake || x.pathLost.isSome || x.state = 4 || x.state = 5 then s
    else
      let now := s.tck.count
      (s.onMember m fun x => { x with pathLost := some now }).onMpt fun p => { p with
        cmds := modAll (fun c => c.member = m && c.op ≠ .read && !c.failed) (fun c => { c with held := true, issued := none }) p.cmds }

/-- MEMBER_PATH_RETURNED: the waiting writes are issued (R145). -/
def Dev.pathReturned (s : Dev) (m : Nat) : Dev :=
  match s.member? m with
  | none => s
  | some x =>
    if !s.awake || x.pathLost.isNone then s
    else (s.onMember m fun x => { x with pathLost := none }).onMpt fun p => { p with
      cmds := modAll (fun c => c.member = m) (fun c => { c with held := false }) p.cmds }

/-- MEMBER_PATH_GRACE_EXPIRED: row 6 of R144. -/
def Dev.graceExpired (s : Dev) (m : Nat) : Dev :=
  match (s.member? m).bind (·.pathLost) with
  | none => s
  | some t => if s.awake && t.toNat + s.param .mptPathGraceTicks ≤ s.now then s.faultEvent m true 6 else s

/-! ## Namespaces (R55, R61, R147) -/

/-- The identity of a namespace: its NGUID, or its EUI-64 padded with zeros. -/
def NsUid (n : NsFound) : Uid := if n.nguid = 0 then n.eui64.setWidth 128 else n.nguid

/-- Whether a namespace is refused and receives no member ID (R55, R61): its LBA data size is another, or it has no identity. -/
def nsRefused (n : NsFound) : Bool := n.lbaBytes ≠ 4096 || (n.nguid = 0 && n.eui64 = 0) || 4 ≤ n.port

/-- The order in which the namespaces of a port receive their slots: bus, device, function and namespace ID (R55). -/
def NsFound.order (n : NsFound) : Nat := n.bdf * 2 ^ 32 + n.nsid

/-- The member ID of a namespace: its kept slot, or the lowest free slot of its port (R55). -/
def Dev.slotOfNs (s : Dev) (n : NsFound) : Option Nat :=
  match look (NsUid n) s.mpt.slots with
  | some i => if i / 64 = n.port then some i else firstFree (s.mpt.slots.map (·.2)) 64 (64 * n.port)
  | none => (firstFree (s.mpt.slots.map (·.2)) 64 (64 * n.port)).filter fun i => i / 64 = n.port

/-- A found namespace as a member, FOREIGN until its label says otherwise. -/
def Dev.memberOf (s : Dev) (n : NsFound) (id : Nat) : Member := s.takeLabels n.labels {
  id := id
  uid := NsUid n
  state := 6
  blocks := n.blocks
  subsystem := n.subsystem
  vwc := n.vwc
  mdtsKib := n.mdtsKib
  slots := min n.qpairs (s.param .mptQpairsPerMember) * s.param .mptQueueDepth
  tagCapable := 16 ≤ n.metaBytes && n.dpsOff
  field := none
  position := 0
  metaBytes := n.metaBytes
  labelSeq := 0
  labelSlot := false
  labelPlace := none
  otherFormat := none
  otherPlace := none
  repCur := none
  pathLost := none
  warning := false
  erasures := [] }

/-- The admin commands by which the device takes up a namespace: it is identified, its controller's queue pairs are asked for and created,
its write cache is asked about, and an event request stands (R62, R65, log entry 115). -/
def Dev.setUpMember (s : Dev) (n : NsFound) (id : Nat) : Dev :=
  let want := s.param .mptQpairsPerMember
  let depth := s.param .mptQueueDepth
  let s := s.each [0, 1, 2, 3] fun s k => s.memberAdmin id (.identify k)
  let s := ((s.memberAdmin id (.getFeatures 6)).memberAdmin id (.setFeatures 7 want)).memberAdmin id (.setFeatures 8 0)
  let s := s.each (List.range (min n.qpairs want)) fun s q => (s.memberAdmin id (.createCq (q + 1) depth)).memberAdmin id (.createSq (q + 1) depth)
  s.memberAdmin id .asyncEventRequest

/-- A namespace receives its member ID and its place among the members; answers the ID. A port without a free ID gives none:
record 0x4001 (R464). -/
def Dev.addMember (s : Dev) (n : NsFound) : Dev × Option Nat :=
  if nsRefused n then (s, none)
  else match s.slotOfNs n with
    | none => (s.record 0x4001 (s.srcEngine (0xC0 + n.port)) ((NsUid n).toNat % 2 ^ 32) 0 0, none)
    | some id =>
      let x := s.memberOf n id
      ((s.onMpt fun p => { p with
        slots := put (NsUid n) id p.slots
        members := insertBy (·.id) x (dropAll (·.id = id) p.members) }).setUpMember n id, some id)

/-- The rebuild position that a namespace holds in a field. -/
def Field.positionOfUid (f : Field) (u : Uid) : Option Nat :=
  f.rebuildPositions.find? fun p => (f.rebuildEntry? p).any (·.uid = u)

/-- A namespace that carries the label of a field of this chip, found after start-up (R147): the MISSING position becomes
its rebuild target; a FAILED one stays FAILED; any other gets a released label. Only a field's owner acts. -/
def Dev.memberReturned (s : Dev) (f : Field) (x : Member) : Dev :=
  let here (e : MPos) : MPos := if e.uid = x.uid then { e with member := some x.id } else e
  match f.positionOfUid x.uid with
  | some pos =>
    match f.rebuildEntry? pos with
    | some e =>
      if !f.owned then
        (s.onField f.id fun g => { g with members := g.members.map here, nextMembers := g.nextMembers.map here }).onMember x.id
          fun y => { y with state := e.state, field := some f.id, position := pos }
      else if e.state = 5 then
        let s := s.onField f.id fun g => { g with members := g.members.map here, nextMembers := g.nextMembers.map here }
        let s := s.onMember x.id fun y => { y with state := 5, field := some f.id, position := pos }
        let s := s.memberRecord 0x4032 { x with field := some f.id, position := pos } 0
        match s.field? f.id with
        | some g => s.takePosition g pos x.id none
        | none => s
      else if e.state = 4 then s.onMember x.id fun y => { y with state := 4, field := some f.id, position := pos }
      else s.onMember x.id fun y => { y with state := e.state, field := some f.id, position := pos }
    | none => s
  | none => if f.owned then s.writeBare 3 x.id else s

/-- A namespace is classified by its label; without one it is AVAILABLE when MEMBER_RELEASE has cleared its label region, else FOREIGN
(R58, R147). -/
def Dev.classify (s : Dev) (n : NsFound) : Dev :=
  let r := s.addMember n
  match r.2.bind r.1.member? with
  | none => r.1
  | some x =>
    let s := r.1.bumpEpoch
    match s.currentLabel n.labels with
    | none => if n.labels = [] && s.mpt.cleared.contains x.uid then s.setMemberState x.id 7 else s
    | some ⟨_, _, _, l, _⟩ =>
      if l.kind = 2 then s.setMemberState x.id 2
      else if l.kind = 3 then s.setMemberState x.id 7
      else match s.fields.find? (·.uuid = l.uuid) with
        | some f => s.memberReturned f x
        | none => s

/-- NAMESPACE_DISCOVERED: a namespace found after start-up, new or of a MISSING member (R147, R491). -/
def Dev.discover (s : Dev) (n : NsFound) : Dev :=
  if !s.awake || !s.mpt.enumerated || nsRefused n || (s.mpt.members.find? (·.uid = NsUid n)).any (·.state ≠ 5) then s
  else (s.onMpt fun p => { p with found := dropAll (fun x => NsUid x = NsUid n) p.found ++ [n] }).classify n

/-! ## Mailbox commands of members (R356) -/

/-- A MEMBER_LIST entry (R359). -/
def Dev.memberEntry (s : Dev) (x : Member) : List Byte :=
  bytesLE 1 x.id ++ [x.state] ++ bytesLE 1 (x.field.getD 0) ++ bytesLE 1 (if x.field.isSome then x.position else 0xFF) ++
  bytesLE 1 ((s.mpt.domainMap[x.id]?).getD 0) ++ bytesLE 1 (b2n x.tagCapable + 2 * b2n x.vwc + 4 * b2n x.field.isSome) ++
  zeroBytes 2 ++ bytesLE 8 x.blocks ++ bytesLE 16 x.uid.toNat

/-- MEMBER_LIST. -/
def Dev.memberList (s : Dev) (p : MbxPath) (r : MbxReq) : Dev :=
  let l := (s.mpt.members.filter fun x => reqId r ≤ x.id).take 127
  s.mbxDone p mbOk (bytesLE 1 l.length ++ zeroBytes 7 ++ l.flatMap s.memberEntry)

/-- The member that a request names, or its refusal: an ID that names no member is BAD_ARGUMENT. -/
def Dev.withMember (s : Dev) (p : MbxPath) (r : MbxReq) (f : Member → Dev) : Dev :=
  match s.member? (reqId r) with
  | some x => f x
  | none => s.mbxRefuse p mbBadArgument 0

/-- MEMBER_ADD_SPARE: an available namespace gets a spare label (R148). -/
def Dev.memberAddSpare (s : Dev) (p : MbxPath) (r : MbxReq) : Dev :=
  s.withMember p r fun x =>
    if x.state ≠ 7 then s.mbxRefuse p mbNotAllowed 0
    else (s.writeBare 2 x.id).mbxWait p (.spareLabel x.id)

/-- MEMBER_REMOVE_SPARE: a spare gets a released label (R148). -/
def Dev.memberRemoveSpare (s : Dev) (p : MbxPath) (r : MbxReq) : Dev :=
  s.withMember p r fun x =>
    if x.state ≠ 2 then s.mbxRefuse p mbNotAllowed 0
    else (s.writeBare 3 x.id).mbxWait p (.spareLabel x.id)

/-- MEMBER_FAIL: row 7 of R144. -/
def Dev.memberFail (s : Dev) (p : MbxPath) (r : MbxReq) : Dev :=
  s.withMember p r fun x =>
    if x.state = 1 || x.state = 2 || x.state = 3 || x.state = 5 then (s.faultEvent x.id false 7).mbxWait p (.fail x.id)
    else s.mbxRefuse p mbNotAllowed 0

/-- MEMBER_RELEASE: a FOREIGN namespace's label region is cleared (R58); a FAILED member gets a released label, and its
position stays as a vacant FAILED entry (R489). -/
def Dev.memberRelease (s : Dev) (p : MbxPath) (r : MbxReq) : Dev :=
  s.withMember p r fun x =>
    if x.state = 6 then (s.clearRegion x.id).mbxWait p (.spareLabel x.id)
    else if x.state = 4 then
      let s := match x.field with
        | some f =>
          let vacant : MPos := ⟨0, 4, false, 0, none⟩
          let drop (e : MPos) : MPos := if e.member = some x.id then vacant else e
          let s := s.onField f fun g => { g with members := g.members.map drop, nextMembers := g.nextMembers.map drop }
          (s.onMember x.id fun y => { y with field := none, position := 0 }).changeLabel f (.release x.id)
        | none => s.writeBare 3 x.id
      s.mbxWait p (.spareLabel x.id)
    else s.mbxRefuse p mbNotAllowed 0

/-- MEMBER_REBUILD: field, position and spare are named (R150). -/
def Dev.memberRebuild (s : Dev) (p : MbxPath) (r : MbxReq) : Dev :=
  let pos := reqAt r 1 1
  match s.field? (reqId r), s.member? (reqAt r 2 1) with
  | none, _ => s.mbxRefuse p mbBadArgument 0
  | some _, none => s.mbxRefuse p mbBadArgument 2
  | some f, some x =>
    if max f.width f.nextWidth ≤ pos then s.mbxRefuse p mbBadArgument 1
    else if !f.rebuildable pos then s.mbxRefuse p mbNotAllowed 1
    else if (x.state ≠ 2 && x.state ≠ 7) || !s.fits f x f.mostCourses then s.mbxRefuse p mbNotAllowed 2
    else s.takePosition f pos x.id (some p)

/-- MEMBER_FORMAT: an available or FOREIGN namespace is formatted (R62, R356). -/
def Dev.memberFormat (s : Dev) (p : MbxPath) (r : MbxReq) : Dev :=
  s.withMember p r fun x =>
    if 64 ≤ reqAt r 1 1 then s.mbxRefuse p mbBadArgument 1
    else if x.state = 6 || x.state = 7 then
      (s.memberCmd x.id .format 0 (reqAt r 1 1) .none false false false .format).mbxWait p (.format x.id)
    else s.mbxRefuse p mbNotAllowed 0

/-- Whether a request has the 8 bytes of a command that names one object. -/
def len8 (r : MbxReq) : Bool := r.len = 8

/-! ## Commands -/

def Dev.onMemberList (s : Dev) (p : MbxPath) (r : MbxReq) : Dev :=
  s.mbxCommand p 0x0401 (.memberList p r) r (r.len = 4) [] fun s => s.memberList p r
def Dev.onMemberAddSpare (s : Dev) (p : MbxPath) (r : MbxReq) : Dev :=
  s.mbxCommand p 0x0402 (.memberAddSpare p r) r (len8 r) [.member (reqId r), .sparePool] fun s => s.memberAddSpare p r
def Dev.onMemberRemoveSpare (s : Dev) (p : MbxPath) (r : MbxReq) : Dev :=
  s.mbxCommand p 0x0403 (.memberRemoveSpare p r) r (len8 r) [.member (reqId r), .sparePool] fun s => s.memberRemoveSpare p r
def Dev.onMemberFail (s : Dev) (p : MbxPath) (r : MbxReq) : Dev :=
  s.mbxCommand p 0x0404 (.memberFail p r) r (len8 r) [.member (reqId r)] fun s => s.memberFail p r
def Dev.onMemberRelease (s : Dev) (p : MbxPath) (r : MbxReq) : Dev :=
  s.mbxCommand p 0x0405 (.memberRelease p r) r (len8 r) [.member (reqId r)] fun s => s.memberRelease p r
def Dev.onMemberRebuild (s : Dev) (p : MbxPath) (r : MbxReq) : Dev :=
  s.mbxCommand p 0x0406 (.memberRebuild p r) r (len8 r) [.field (reqId r), .member (reqAt r 2 1), .sparePool]
    fun s => s.memberRebuild p r
def Dev.onMemberFormat (s : Dev) (p : MbxPath) (r : MbxReq) : Dev :=
  s.mbxCommand p 0x0407 (.memberFormat p r) r (len8 r) [.member (reqId r)] fun s => s.memberFormat p r

/-- MEMBER_LIST. -/
def execMemberList (p : MbxPath) (r : MbxReq) (s : State) : Host.Outcome State Fault Refusal :=
  .next { s with toDev := s.toDev.onMemberList p r }

/-- MEMBER_ADD_SPARE. -/
def execMemberAddSpare (p : MbxPath) (r : MbxReq) (s : State) : Host.Outcome State Fault Refusal :=
  .next { s with toDev := s.toDev.onMemberAddSpare p r }

/-- MEMBER_REMOVE_SPARE. -/
def execMemberRemoveSpare (p : MbxPath) (r : MbxReq) (s : State) : Host.Outcome State Fault Refusal :=
  .next { s with toDev := s.toDev.onMemberRemoveSpare p r }

/-- MEMBER_FAIL. -/
def execMemberFail (p : MbxPath) (r : MbxReq) (s : State) : Host.Outcome State Fault Refusal :=
  .next { s with toDev := s.toDev.onMemberFail p r }

/-- MEMBER_RELEASE. -/
def execMemberRelease (p : MbxPath) (r : MbxReq) (s : State) : Host.Outcome State Fault Refusal :=
  .next { s with toDev := s.toDev.onMemberRelease p r }

/-- MEMBER_REBUILD. -/
def execMemberRebuild (p : MbxPath) (r : MbxReq) (s : State) : Host.Outcome State Fault Refusal :=
  .next { s with toDev := s.toDev.onMemberRebuild p r }

/-- MEMBER_FORMAT. -/
def execMemberFormat (p : MbxPath) (r : MbxReq) (s : State) : Host.Outcome State Fault Refusal :=
  .next { s with toDev := s.toDev.onMemberFormat p r }

/-- REBUILD_START. -/
def execRebuildStart (field position : Nat) (s : State) : Host.Outcome State Fault Refusal :=
  .next { s with toDev := s.toDev.startRebuild field position }

/-- MEMBER_CONTROLLER_FATAL. -/
def execMemberControllerFatal (member : Nat) (s : State) : Host.Outcome State Fault Refusal :=
  .next { s with toDev := s.toDev.controllerLost member }

/-- MEMBER_READY_TIMEOUT. -/
def execMemberReadyTimeout (member : Nat) (s : State) : Host.Outcome State Fault Refusal :=
  .next { s with toDev := s.toDev.controllerLost member }

/-- MEMBER_ASYNC_EVENT. -/
def execMemberAsyncEvent (member : Nat) (w : SmartWarning) (s : State) : Host.Outcome State Fault Refusal :=
  .next { s with toDev := s.toDev.asyncEvent member w }

/-- MEMBER_PATH_LOST. -/
def execMemberPathLost (member : Nat) (s : State) : Host.Outcome State Fault Refusal :=
  .next { s with toDev := s.toDev.pathLost member }

/-- MEMBER_PATH_RETURNED. -/
def execMemberPathReturned (member : Nat) (s : State) : Host.Outcome State Fault Refusal :=
  .next { s with toDev := s.toDev.pathReturned member }

/-- MEMBER_PATH_GRACE_EXPIRED. -/
def execMemberPathGraceExpired (member : Nat) (s : State) : Host.Outcome State Fault Refusal :=
  .next { s with toDev := s.toDev.graceExpired member }

/-- NAMESPACE_DISCOVERED. -/
def execNamespaceDiscovered (ns : NsFound) (s : State) : Host.Outcome State Fault Refusal :=
  .next { s with toDev := s.toDev.discover ns }

end Sys2Proof.Machine
end

