-- ==== Sys2Proof/Machine/FieldCmds.lean ====
section
/-!
DEFINITION. Fields: creation and deletion (R47 to R49, R70, R121, R373, R376), going offline and on line (R53, R178),
entering and leaving FAILED (R52, R138), reported states (R51, R179), recovery (R452), status and lost lists (R358), and
the acceptance of a reshape (R163 to R165).
-/

namespace Sys2Proof.Machine

/-! ## Reported states -/

/-- The reported state and flags of a field follow its conditions: record 0x3042 and the field event at a change of
state, record 0x3010 when DOMAIN_EXPOSED rises (R51, R60, R179). -/
def Dev.reportField (s : Dev) (fid : Nat) : Dev :=
  match s.field? fid with
  | none => s
  | some f =>
    let v := f.condFlags
    let new := BitVec.ofNat 8 (stateOfFlags v)
    let exp := f.domainExposed s.mpt.domainMap
    if !f.seen || !f.owned then s
    else
      let s := s.when (v ≠ f.flags || new ≠ f.reported || exp ≠ f.exposed) fun s => s.bumpEpoch
      let s := s.onField fid fun f => { f with flags := v, reported := new, exposed := exp }
      let s := s.when (new ≠ f.reported) fun s =>
        s.recordEvent 0x3042 (s.srcField fid) (f.reported.toNat + new.toNat * 2 ^ 8) v.toNat (f.gen % 2 ^ 32) 1
      s.when (exp && !f.exposed) fun s => s.record 0x3010 (s.srcField fid) 0 0 0

/-! ## FAILED (R52, R178) -/

/-- A field has entered FAILED: its commands end, its committed lines are pinned, its jobs that have issued no member
write end without writing, and its rebuilds stop where the current progress block has them (R52, R156). -/
def Dev.enterFailed (s : Dev) (fid : Nat) : Dev :=
  let s := s.each (s.qs.cmds.filter fun c => c.e.fieldId.toNat = fid && c.stage ≠ .finished) fun s c =>
    if c.op.isWrite && c.durable then s.finish c.id stSuccess 0 else s.endCmd c.id stNotReady 0
  let s := s.onCache fun k => { k with lines := modAll (fun l => l.field = fid && l.st = .committed) (fun l => { l with pinned := true }) k.lines }
  let s := s.each (s.cache.jobs.filter fun j => j.field = fid && !(j.stage = .writing && j.queued)) fun s j => s.abortJob j.id
  let gone := !s.cache.jobs.any fun j => j.field = fid && j.kind = .reshape
  let s := s.onField fid fun f => { f with
    targets := f.targets.map fun (t : Target) => t.resume (f.coursesOf t.side) t.sinceCkpt
    wasFailed := true, rsStage := if gone && f.rsStage ≠ .stepCommit then .idle else f.rsStage }
  match s.waiter? (.offline fid) with
  | some p => (s.onField fid fun f => { f with offlineReq := false }).mbxRefuse p mbNotAllowed 0
  | none => s

/-- A field has left FAILED: it passes through RECOVERING, and every region with a set furrow bit is resynced whole. -/
def Dev.leaveFailed (s : Dev) (fid : Nat) : Dev :=
  let s := s.onCache fun k => { k with lines := modAll (fun l => l.field = fid) (fun l => { l with pinned := false }) k.lines }
  ((s.onField fid fun f => { f with wasFailed := false, recovering := true }).markRegions fid (s.setRegions fid)).dropSlots fid

/-- Scrub of a field stands still: a course whose scrub has written nothing yet is left at its position (R104). -/
def Dev.stopScrub (s : Dev) (fid : Nat) : Dev :=
  s.each (s.cache.jobs.filter fun j => j.kind = .scrub && j.field = fid && j.writes = [] && j.writesLeft = 0) fun s j => s.abortJob j.id

/-- Conditions of a field that a tick boundary takes up, that of a full lost-course list among them (R178); scrub pauses when it is not ONLINE (R104). -/
def Dev.fieldBoundary (s : Dev) (fid : Nat) : Dev :=
  match s.field? fid with
  | none => s
  | some f =>
    let s := s.onField fid fun f => { f with failedLost := f.failedLost && maxLost ≤ f.lost.length }
    let f := { f with failedLost := f.failedLost && maxLost ≤ f.lost.length }
    let s := if f.failed && !f.wasFailed then s.enterFailed fid
      else if !f.failed && f.wasFailed then s.leaveFailed fid else s
    let s := s.reportField fid
    s.when ((s.field? fid).any (·.reported ≠ 1)) fun s => s.stopScrub fid

/-! ## Recovery (R452) -/

/-- Whether everything that keeps a field RECOVERING is done. -/
def Dev.recoveryDone (s : Dev) (f : Field) : Bool :=
  f.recovering && f.assembled && f.reread.isNone && f.labelChanges = [] && (look f.id s.kst.keySlots).isSome && f.owned && !f.ownerWait &&
  s.vlt.restoring.isNone && !f.restoreWait && f.resyncSet = [] && !f.fenceWait && (!f.rsRedo || 16 ≤ f.rsSlot) && f.rsStage = .idle && f.rsMembers = [] &&
  !s.cache.jobs.any fun j => j.field = f.id && (j.kind = .resync || j.kind = .lostLine || j.kind = .seal)

/-- FIELD_RECOVERED: the field leaves RECOVERING at this boundary; marked regions are resynced on line. -/
def Dev.fieldRecovered (s : Dev) (fid : Nat) : Dev :=
  match s.field? fid with
  | none => s
  | some f =>
    if !s.awake || !s.recoveryDone f then s
    else ((s.onField fid fun f => { f with recovering := false }).startRegionResync fid).reportField fid

/-! ## Access by commands -/

/-- The field that a request names in its first byte, when it is visible; else BAD_ARGUMENT. -/
def Dev.withField (s : Dev) (p : MbxPath) (r : MbxReq) (g : Field → Dev) : Dev :=
  match (s.field? (reqId r)).filter (·.seen) with
  | some f => g f
  | none => s.mbxRefuse p mbBadArgument 0

/-- The field that a state-changing request names: this chip must own it, and no handover or fence may hold
it. -/
def Dev.withOwn (s : Dev) (p : MbxPath) (r : MbxReq) (g : Field → Dev) : Dev :=
  s.withField p r fun f =>
    if f.owned && !f.admitStop && !f.fenceWait then g f else s.mbxRefuse p mbNotAllowed 0

/-! ## Creation (R47, R48, R56, R61, R70, R81, R121, R265, R357) -/

/-- A refusal of a creation: status and DETAIL. -/
structure Refuse where
  st : Nat
  detail : Nat
  deriving DecidableEq, Repr

/-- The member IDs of a FIELD_CREATE payload. -/
def createIds (r : MbxReq) : List Nat := (List.range (reqAt r 1 1)).map fun i => reqAt r (16 + i) 1

/-- The refusal of one member of a creation, if any. -/
def Dev.createMember (s : Dev) (tagged : Bool) (b : Nat) (ids : List Nat) (i : Nat) : Option Refuse :=
  let id := ids[i]?.getD 0
  match s.member? id with
  | none => some ⟨mbBadArgument, 16 + i⟩
  | some x =>
    let before := ids.take i
    if before.contains id then some ⟨mbBadArgument, 16 + i⟩
    else if x.state ≠ 7 && x.state ≠ 2 then some ⟨mbNotAllowed, 16 + i⟩
    else if !x.joins || (tagged && !x.tagCapable) || x.blocks < dataStart + 1024 * b then some ⟨mbNotAllowed, 16 + i⟩
    else if before.any (fun k => (s.member? k).map (·.subsystem) = some x.subsystem) then some ⟨mbNotAllowed, 16 + i⟩
    else none

/-- The course count that a creation asks for: 0 asks for the most. -/
def createCourses (s : Dev) (r : MbxReq) (b : Nat) : Nat × Nat :=
  let most := maxCourses b ((createIds r).filterMap fun i => (s.member? i).map (·.blocks))
  (if reqAt r 8 8 = 0 then most else reqAt r 8 8, most)

/-- BRICK_SHIFT of a creation: 0 means 16. -/
def createShift (r : MbxReq) : Nat := if reqAt r 2 1 = 0 then 16 else reqAt r 2 1

/-- The home indices that fields hold (R121). -/
def Dev.heldHomes (s : Dev) : List Nat := s.fields.filterMap (·.homeIndex)

/-- The home indices in whose home slots a coarse region of another field still stands, until R124 frees it (log entry 113). -/
def Dev.lingerHomes (s : Dev) : List Nat :=
  ((s.mst.slots ++ s.slotsMaking).filter fun x => !x.fine && (s.field? x.field).bind (·.homeIndex) ≠ some (x.idx / 16)).map fun x => x.idx / 16

/-- The lowest free home index in whose slots no other field's region stands. -/
def Dev.cleanHome? (s : Dev) : Option Nat := firstFree (s.heldHomes ++ s.lingerHomes) 128 0

/-- The lowest free home index; one whose slots are still to be freed only when there is no other (R121). -/
def Dev.freeHome? (s : Dev) : Option Nat := s.cleanHome?.or (firstFree s.heldHomes 128 0)

/-- The fields that the chip owns. -/
def Dev.ownedCount (s : Dev) : Nat := (s.fields.filter (·.owned)).length

/-- Why a creation is refused, if it is. -/
def Dev.createRefused (s : Dev) (r : MbxReq) : Option Refuse :=
  let w := reqAt r 1 1
  let k := createShift r
  let b := bricksBlocks k
  let tagged := (reqAt r 3 1) % 2 = 1
  let c := createCourses s r b
  if w < 4 || 32 < w then some ⟨mbBadArgument, 1⟩
  else if (s.field? (reqId r)).isSome || s.twn.partnerOwned.contains (reqId r) ||
    s.ownsEntry (reqId r) then some ⟨mbNotAllowed, 0⟩
  else if s.twn.mode && s.twn.state ≠ 3 && s.twn.state ≠ 5 && s.twn.state ≠ 6 then some ⟨mbNotAllowed, noDetail⟩
  else if 128 ≤ s.ownedCount || s.freeHome?.isNone then some ⟨mbNoResource, noDetail⟩
  else if k < 14 || 20 < k then some ⟨mbBadArgument, 2⟩
  else match (List.range w).findSome? fun i => s.createMember tagged b (createIds r) i with
    | some x => some x
    | none =>
      if c.1 < 1024 || c.2 < c.1 || 2 ^ 40 ≤ c.1 || 2 ^ 48 < c.1 * (w - 2) * b then
        some ⟨mbBadArgument, if reqAt r 8 8 = 0 then noDetail else 8⟩
      else none

/-- A field as its creation makes it. -/
def Dev.newField (s : Dev) (r : MbxReq) (uuid : Uid) : Field where
  id := reqId r
  uuid := uuid
  width := reqAt r 1 1
  brickShift := createShift r
  courses := (createCourses s r (bricksBlocks (createShift r))).1
  tagged := (reqAt r 3 1) % 2 = 1
  readOnly := (reqAt r 3 1).testBit 1
  gen := 0
  ownerPos := s.twn.mode && s.twn.position
  homePos := s.twn.mode && s.twn.position
  owned := true
  members := (createIds r).map fun i => match s.member? i with
    | some x => ⟨x.uid, 1, x.tagCapable, 1, some i⟩
    | none => ⟨0, 0, false, 0, none⟩
  nextWidth := 0
  nextMembers := []
  recovering := false
  failedLost := false
  failedEngine := s.mor.lost
  offline := false
  resyncing := false
  offlineReq := false
  wasFailed := false
  reported := 1
  flags := 1
  exposed := false
  lost := []
  unsealed := []
  targets := []
  noSpare := []
  progressSeq := 0
  scrubPos := 0
  scrubSaved := 0
  scrubStart := s.tck.count
  scrubLate := false
  homeIndex := s.freeHome?
  coarseShift := coarseShiftOf ((createCourses s r (bricksBlocks (createShift r))).1 * (reqAt r 1 1 - 2) * bricksBlocks (createShift r))
  fineShift := 0
  fineBlocks := 0
  fineUse := false
  fineRelease := false
  refreshSeq := 0
  repCoarse := 0
  repFine := []
  repOn := []
  repFlight := none
  repUrgent := false
  resyncSet := []
  lineSet := []
  marked := []
  resynced := []
  labelChanges := []
  lostChanged := false
  ckptAckedCoarse := 0
  ckptAckedFine := []
  cap := (createCourses s r (bricksBlocks (createShift r))).1 * (reqAt r 1 1 - 2) * bricksBlocks (createShift r)
  rs := none
  rsPend := none
  rsEnding := false
  rsSlot := 0
  rsStage := .idle
  rsRedo := false
  reread := none
  rsMembers := []
  ownerWait := false
  restoreWait := false
  fenceWait := false
  assembled := true
  seen := false
  takenOver := false
  capUnprot := false
  admitStop := false
  labelHeld := []

/-- The creation itself: UUID and field secret are drawn, the key slot is loaded, the members join, the entry is
committed, and the first label change starts (R178, R351, R373); record 0x8031. -/
def Dev.makeField (s : Dev) (p : MbxPath) (r : MbxReq) : Dev :=
  let uuid : Uid := BitVec.ofNat 128 s.free
  let s := s.drew
  let secret := s.free % 2 ^ 384
  let s := s.drew
  let f := s.newField r uuid
  let s := s.onFields fun l => insertBy (·.id) f l
  let s := s.onKst fun k => { k with
    secrets := k.secrets ++ [(uuid, f.id, secret)]
    keySlots := put f.id (fieldKeys uuid secret) k.keySlots }
  let s := s.onMst fun m => { m with homeReserved := match f.homeIndex with | some h => addNew h m.homeReserved | none => m.homeReserved }
  let s := s.each (createIds r).zipIdx fun s e =>
    (s.onMember e.1 fun x => { x with state := 1, field := some f.id, position := e.2 }).clearRegion e.1
  let s := s.when s.partner fun s => s.sendFrame (.fieldKeys uuid f.id (some (Config.wrapKey s.lnk.transfer secret)))
  let s := s.recordKst 0x8031 (uuid.toNat % 2 ^ 32) f.id
  ((s.commitEntry f.id).changeLabel f.id .create).mbxWait p (.label f.id)

/-- FIELD_CREATE: in a SYNCED pair the field ID is reserved first (R265). -/
def Dev.fieldCreate (s : Dev) (p : MbxPath) (r : MbxReq) : Dev :=
  match s.createRefused r with
  | some x => s.mbxRefuse p x.st x.detail
  | none =>
    if s.twn.mode && s.twn.state = 3 then (s.sendFrame (.reserve (reqId r) .request)).mbxWait p (.reserve (reqId r))
    else s.makeField p r

/-! ## Deletion (R52, R197, R376) -/

/-- The field leaves the chip: its lines, jobs and keys go, and its slots, bits and leases are freed by commits. -/
def Dev.forgetField (s : Dev) (fid : Nat) : Dev :=
  let s := s.each (s.cache.jobs.filter (·.field = fid)) fun s j => s.abortJob j.id
  let s := s.onCache fun k => { k with
    lines := dropAll (·.field = fid) k.lines, ctxs := dropAll (·.field = fid) k.ctxs }
  let s := (s.dropSlots fid).onFields (dropAll (·.id = fid))
  (s.commitEntry fid).hodInvalidate

/-- FIELD_DELETE: refused while a command of the field is in flight; its present members get released labels. -/
def Dev.fieldDelete (s : Dev) (p : MbxPath) (r : MbxReq) : Dev :=
  s.withOwn p r fun f =>
    if (s.qs.cmds.any fun c => c.e.fieldId.toNat = f.id) || f.reshaping || f.rsPend.isSome || f.labelChanges ≠ [] then
      s.mbxRefuse p mbNotAllowed 0
    else
      let here := f.members.filterMap fun e => if e.state = 1 || e.state = 3 then e.member else none
      let all := f.members.filterMap (·.member)
      let s := s.forgetField f.id
      let s := s.onKst fun k => { k with
        secrets := dropAll (·.1 = f.uuid) k.secrets, keySlots := dropAll (·.1 = f.id) k.keySlots }
      let s := s.each all fun s m => s.onMember m fun x => { x with field := none, position := 0 }
      let s := s.each here fun s m => s.writeBare 3 m
      let s := s.when s.partner fun s => s.sendFrame (.fieldKeys f.uuid f.id none)
      ((s.recordKst 0x8032 (f.uuid.toNat % 2 ^ 32) f.id).bumpEpoch).mbxOk p

/-! ## Offline and on line (R53) -/

/-- FIELD_OFFLINE: admission stops. -/
def Dev.fieldOffline (s : Dev) (p : MbxPath) (r : MbxReq) : Dev :=
  s.withOwn p r fun f =>
    if f.offline || f.offlineReq || f.failed || f.recovering then s.mbxRefuse p mbNotAllowed 0
    else (s.onField f.id fun f => { f with offlineReq := true }).mbxWait p (.offline f.id)

/-- Whether a field has no command in flight, no dirty line, no set furrow bit and no work under way. -/
def Dev.drained (s : Dev) (f : Field) : Bool :=
  !(s.qs.cmds.any fun c => c.e.fieldId.toNat = f.id) && !(s.cache.lines.any fun l => l.field = f.id && l.dirty) &&
  !(s.cache.jobs.any fun j => j.field = f.id) && s.coarseMap f.id = 0 && s.fineSetOf f.id = [] &&
  !(s.mst.slots.any fun x => x.field = f.id) && f.rsStage = .idle && f.labelChanges = []

/-- FIELD_OFFLINE_DONE: the field enters OFFLINE, the hod is invalidated, and its cleared maps go to the replicas,
after the replica write in flight (R53, R134, R197). -/
def Dev.offlineDone (s : Dev) (fid : Nat) : Dev :=
  match s.field? fid with
  | none => s
  | some f =>
    if !s.awake || !f.offlineReq || !s.drained f then s
    else
      let s := s.onField fid fun f => { f with offlineReq := false, offline := true, repUrgent := f.repFlight.isSome }
      ((s.hodInvalidate.startReplica fid).reportField fid).mbxWake (.offline fid) mbOk []

/-- FIELD_ONLINE: the field enters RECOVERING. -/
def Dev.fieldOnline (s : Dev) (p : MbxPath) (r : MbxReq) : Dev :=
  s.withOwn p r fun f =>
    if !f.offline then s.mbxRefuse p mbNotAllowed 0
    else ((s.onField f.id fun f => { f with offline := false, recovering := true }).reportField f.id).mbxOk p

/-! ## Reports -/

/-- PROGRESS of a field status (R358). -/
def Field.progress (f : Field) : Nat :=
  match f.rs with
  | some r => r.headland
  | none => match f.targets with
    | t :: _ => t.next
    | [] => 0

/-- The 64 bytes of a field status (R358). -/
def Field.statusBytes (f : Field) : List Byte :=
  bytesLE 1 f.id ++ [f.reported] ++
  bytesLE 2 (f.flags.toNat + b2n f.exposed * 2 ^ 9 + b2n (!f.tagged) * 2 ^ 10 + b2n f.readOnly * 2 ^ 11) ++
  bytesLE 1 (b2n f.ownerPos) ++ bytesLE 1 f.width ++ bytesLE 1 f.brickShift ++ bytesLE 1 f.nextWidth ++ bytesLE 8 f.gen ++
  bytesLE 8 f.capacity ++ bytesLE 8 f.courses ++ bytesLE 4 f.lost.length ++ zeroBytes 4 ++ bytesLE 8 f.progress ++
  bytesLE 16 f.uuid.toNat

/-- FIELD_STATUS. -/
def Dev.fieldStatus (s : Dev) (p : MbxPath) (r : MbxReq) : Dev :=
  s.withField p r fun f => s.mbxDone p mbOk f.statusBytes

/-- The bytes of a lost-course entry (R78): COURSE, LOST_MASK, REASON. -/
def lostBytes (e : LostEntry) : List Byte :=
  bytesLE 8 e.course ++ bytesLE 4 e.mask.toNat ++ bytesLE 1 e.reason ++ zeroBytes 3

/-- FIELD_LOST_LIST: up to 254 entries from an index. -/
def Dev.fieldLostList (s : Dev) (p : MbxPath) (r : MbxReq) : Dev :=
  s.withField p r fun f =>
    let l := (f.lost.drop (reqAt r 4 4)).take 254
    s.mbxDone p mbOk (bytesLE 4 l.length ++ zeroBytes 4 ++ l.flatMap lostBytes)

/-- FIELD_SET_READ_ONLY: a change of the attribute is a label change (R54, R75). -/
def Dev.fieldSetReadOnly (s : Dev) (p : MbxPath) (r : MbxReq) : Dev :=
  s.withOwn p r fun f =>
    let v := reqAt r 1 1
    if 1 < v then s.mbxRefuse p mbBadArgument 1
    else if f.readOnly = (v = 1) then s.mbxOk p
    else
      let s := (s.onField f.id fun f => { f with readOnly := v = 1 }).mbxWait p (.label f.id)
      s.changeLabel f.id (.command p)

/-! ## Reshape (R163 to R165) -/

/-- The IDs or positions that a FIELD_RESHAPE lists. -/
def reshapeList (r : MbxReq) : List Nat := (r.payload.drop 16).map (·.toNat)

/-- NEXT_MEMBERS of a request, by kind. -/
def Dev.nextTable (s : Dev) (f : Field) (kind pos : Nat) (l : List Nat) : List MPos :=
  let entry (st : BitVec 8) (i : Nat) : MPos := match s.member? i with
    | some x => ⟨x.uid, st, x.tagCapable, f.gen + 1, some i⟩
    | none => ⟨0, 0, false, 0, none⟩
  match kind with
  | 1 => f.members ++ l.map (entry 1)
  | 2 => (f.members.zipIdx.filter fun e => !l.contains e.2).map (·.1)
  | _ => f.members.set pos (entry 3 (l.headD 0))

/-- The least C′ that holds the old capacity (R165). -/
def leastCourses (f : Field) (w' : Nat) : Nat := ceilDiv (f.courses * (f.width - 2)) (w' - 2)

/-- The refusal of a new member or target, if any. -/
def Dev.reshapeMember (s : Dev) (f : Field) (l : List Nat) (c' i : Nat) : Option Refuse :=
  let id := l[i]?.getD 0
  match s.member? id with
  | none => some ⟨mbBadArgument, 16 + i⟩
  | some x =>
    if (l.take i).contains id then some ⟨mbBadArgument, 16 + i⟩
    else if (x.state ≠ 2 && x.state ≠ 7) || !s.fits f x c' ||
      ((l.take i).any fun k => (s.member? k).map (·.subsystem) = some x.subsystem) then some ⟨mbNotAllowed, 16 + i⟩
    else none

/-- Why a reshape is refused, if it is. -/
def Dev.reshapeRefused (s : Dev) (f : Field) (r : MbxReq) : Option Refuse :=
  let kind := reqAt r 1 1
  let l := reshapeList r
  let w' := if kind = 3 then f.width else reqAt r 2 1
  let c' := if kind = 3 then f.courses else if reqAt r 8 8 = 0 then leastCourses f w' else reqAt r 8 8
  if kind = 0 || 3 < kind then some ⟨mbBadArgument, 1⟩
  else if f.condFlags ≠ 1 || f.reported ≠ 1 || f.rsPend.isSome || f.offlineReq then some ⟨mbNotAllowed, 0⟩
  else if 16 ≤ s.reshapeCount then some ⟨mbNoResource, noDetail⟩
  else if w' < 4 || 32 < w' || (kind = 1 && w' ≤ f.width) || (kind = 2 && f.width ≤ w') then some ⟨mbBadArgument, 2⟩
  else if kind = 3 && f.width ≤ reqAt r 3 1 then some ⟨mbBadArgument, 3⟩
  else
    let n := l.length
    let bad := if kind = 2 then
        (List.range n).findSome? fun i => if f.width ≤ l[i]?.getD 0 || (l.take i).contains (l[i]?.getD 0) then
          some (⟨mbBadArgument, 16 + i⟩ : Refuse) else none
      else (List.range n).findSome? fun i => s.reshapeMember f l c' i
    match bad with
    | some x => some x
    | none =>
      let sizes := (s.nextTable f kind (reqAt r 3 1) l).filterMap fun e => (e.member.bind s.member?).map (·.blocks)
      if c' * (w' - 2) < f.courses * (f.width - 2) || c' < 1024 || maxCourses f.b sizes < c' || 2 ^ 40 ≤ c' ||
        2 ^ 48 < c' * (w' - 2) * f.b then some ⟨mbBadArgument, 8⟩
      else none

/-- The length of a FIELD_RESHAPE payload: 16 bytes and what its kind lists. -/
def Dev.reshapeLen (s : Dev) (r : MbxReq) : Bool :=
  match s.field? (reqId r) with
  | none => 16 ≤ r.len
  | some f =>
    match reqAt r 1 1 with
    | 1 => r.len = 16 + (reqAt r 2 1 - f.width)
    | 2 => r.len = 16 + (f.width - reqAt r 2 1)
    | 3 => r.len = 17
    | _ => 16 ≤ r.len

/-- FIELD_RESHAPE: an accepted reshape reserves its new members and completes under R164. -/
def Dev.fieldReshape (s : Dev) (p : MbxPath) (r : MbxReq) : Dev :=
  s.withOwn p r fun f =>
    match s.reshapeRefused f r with
    | some x => s.mbxRefuse p x.st x.detail
    | none =>
      let kind := reqAt r 1 1
      let l := reshapeList r
      let w' := if kind = 3 then f.width else reqAt r 2 1
      let c' := if kind = 3 then f.courses else if reqAt r 8 8 = 0 then leastCourses f w' else reqAt r 8 8
      let next := s.nextTable f kind (reqAt r 3 1) l
      let s := s.each (if kind = 2 then [] else l) fun s m => s.onMember m fun x => { x with
        state := if kind = 3 then 3 else 1, field := some f.id
        position := (next.findIdx? fun e => e.member = some m).getD 0 }
      ((s.acceptReshape f.id (f.startRecord kind w' c' (reqAt r 3 1)) next (some p)).bumpEpoch).mbxWait p (.reshape f.id)

/-! ## Commands -/

def Dev.onFieldCreate (s : Dev) (p : MbxPath) (r : MbxReq) : Dev :=
  let w := reqAt r 1 1
  s.mbxCommand p 0x0301 (.fieldCreate p r) r (16 ≤ r.len && (w < 4 || 32 < w || r.len = 16 + w))
    ([.field (reqId r), .sparePool] ++ (createIds r).map .member) fun s => s.fieldCreate p r
def Dev.onFieldDelete (s : Dev) (p : MbxPath) (r : MbxReq) : Dev :=
  s.mbxCommand p 0x0302 (.fieldDelete p r) r (len8 r) [.field (reqId r)] fun s => s.fieldDelete p r
def Dev.onFieldOffline (s : Dev) (p : MbxPath) (r : MbxReq) : Dev :=
  s.mbxCommand p 0x0303 (.fieldOffline p r) r (len8 r) [.field (reqId r)] fun s => s.fieldOffline p r
def Dev.onFieldOnline (s : Dev) (p : MbxPath) (r : MbxReq) : Dev :=
  s.mbxCommand p 0x0304 (.fieldOnline p r) r (len8 r) [.field (reqId r)] fun s => s.fieldOnline p r
def Dev.onFieldStatus (s : Dev) (p : MbxPath) (r : MbxReq) : Dev :=
  s.mbxCommand p 0x0305 (.fieldStatus p r) r (len8 r) [] fun s => s.fieldStatus p r
def Dev.onFieldSetReadOnly (s : Dev) (p : MbxPath) (r : MbxReq) : Dev :=
  s.mbxCommand p 0x0306 (.fieldSetReadOnly p r) r (len8 r) [.field (reqId r)] fun s => s.fieldSetReadOnly p r
def Dev.onFieldReshape (s : Dev) (p : MbxPath) (r : MbxReq) : Dev :=
  s.mbxCommand p 0x0307 (.fieldReshape p r) r (s.reshapeLen r)
    ([.field (reqId r), .sparePool] ++ (if reqAt r 1 1 = 2 then [] else (reshapeList r).map .member)) fun s => s.fieldReshape p r
def Dev.onFieldLostList (s : Dev) (p : MbxPath) (r : MbxReq) : Dev :=
  s.mbxCommand p 0x0308 (.fieldLostList p r) r (len8 r) [] fun s => s.fieldLostList p r

/-- FIELD_CREATE. -/
def execFieldCreate (p : MbxPath) (r : MbxReq) (s : State) : Host.Outcome State Fault Refusal :=
  .next { s with toDev := s.toDev.onFieldCreate p r }

/-- FIELD_DELETE. -/
def execFieldDelete (p : MbxPath) (r : MbxReq) (s : State) : Host.Outcome State Fault Refusal :=
  .next { s with toDev := s.toDev.onFieldDelete p r }

/-- FIELD_OFFLINE. -/
def execFieldOffline (p : MbxPath) (r : MbxReq) (s : State) : Host.Outcome State Fault Refusal :=
  .next { s with toDev := s.toDev.onFieldOffline p r }

/-- FIELD_OFFLINE_DONE. -/
def execFieldOfflineDone (field : Nat) (s : State) : Host.Outcome State Fault Refusal :=
  .next { s with toDev := s.toDev.offlineDone field }

/-- FIELD_ONLINE. -/
def execFieldOnline (p : MbxPath) (r : MbxReq) (s : State) : Host.Outcome State Fault Refusal :=
  .next { s with toDev := s.toDev.onFieldOnline p r }

/-- FIELD_STATUS. -/
def execFieldStatus (p : MbxPath) (r : MbxReq) (s : State) : Host.Outcome State Fault Refusal :=
  .next { s with toDev := s.toDev.onFieldStatus p r }

/-- FIELD_SET_READ_ONLY. -/
def execFieldSetReadOnly (p : MbxPath) (r : MbxReq) (s : State) : Host.Outcome State Fault Refusal :=
  .next { s with toDev := s.toDev.onFieldSetReadOnly p r }

/-- FIELD_RESHAPE. -/
def execFieldReshape (p : MbxPath) (r : MbxReq) (s : State) : Host.Outcome State Fault Refusal :=
  .next { s with toDev := s.toDev.onFieldReshape p r }

/-- FIELD_LOST_LIST. -/
def execFieldLostList (p : MbxPath) (r : MbxReq) (s : State) : Host.Outcome State Fault Refusal :=
  .next { s with toDev := s.toDev.onFieldLostList p r }

/-- FIELD_RECOVERED. -/
def execFieldRecovered (field : Nat) (s : State) : Host.Outcome State Fault Refusal :=
  .next { s with toDev := s.toDev.fieldRecovered field }

end Sys2Proof.Machine
end

