-- ==== Sys2Proof/Machine/Admission.lean ====
section
/-!
DEFINITION. Host commands from consumption to their data: the Admit phase (R30 to R34, R313 to R316, R324 to R327), data
pointers and chains (R320 to R322), the admission of writes (R13, R122, R210) and the arrival of their lines (R18, R245).
-/

namespace Sys2Proof.Machine

/-! ## Lines of a write -/

/-- The LINE frame of one line of a command (R242, R245). -/
def lineFrame (l : Line) (first last : Bool) (seq : Nat) : LineFrame where
  field := l.field
  lba := l.lba
  first := first
  last := last
  band := l.st = .band
  slot := BitVec.ofNat 14 l.cmd
  reuse := BitVec.ofNat 18 (l.cmd / 2 ^ 14)
  mirrorSeq := BitVec.ofNat 32 seq
  version := BitVec.ofNat 64 l.version
  tag := l.tag
  data := l.data

/-- The lines of a command, in order of its blocks. -/
def Dev.linesOfCmd (s : Dev) (id : Nat) : List Line := s.cache.lines.filter fun l => l.cmd = id && l.st = .uncommitted

/-- The line frames of a command but the last go to the partner as its data enters the cache (R245). -/
def Dev.sendLines (s : Dev) (id : Nat) : Dev :=
  let l := s.linesOfCmd id
  s.each (l.take (l.length - 1)).zipIdx fun s e => s.sendFrame (.line (lineFrame e.1 (e.2 = 0) false 0))

/-- One block of a write enters the cache encrypted, with its tag (R374, R375). -/
def Dev.addLine (s : Dev) (f : Field) (c : Cmd) (version lba : Nat) (plain : Block) : Dev :=
  let b := Config.xtsEncrypt (s.keys f.id).xts lba plain
  let p := f.place lba
  let now := s.tck.count
  (s.placeLine ⟨f.id, lba, version, .uncommitted, c.id, b, s.tagOf f lba b, false, false, s.cmdSlot f c lba, 0, 0, false⟩).onCtx f.id p.course p.geom
    fun x => { x with dirtySince := x.dirtySince.or (some now) }

/-- All data of a write is there, as one little-endian number: its lines enter the cache under one version, and all but
the final line frame go to a live partner (R18, R245). -/
def Dev.linesArrive (s : Dev) (id data : Nat) : Dev :=
  match s.cmd? id with
  | none => s
  | some c =>
    match s.field? c.e.fieldId.toNat with
    | none => s
    | some f =>
      if c.stage = .finished || c.arrived then s
      else
        let v := s.cache.nextVersion
        let s := s.onCache fun k => { k with nextVersion := v + 1 }
        let s := s.each (dedup c.lbas).zipIdx fun s e => s.addLine f c v e.1 (BitVec.ofNat 32768 (data / 2 ^ (32768 * e.2)))
        let s := s.onCmd id fun c => { c with arrived := true, stage := .running }
        if s.partner then s.sendLines id else s

/-! ## Data pointers (R218, R320 to R322, R326) -/

/-- A malformed command: a write puts undefined data into its own range, and any other ends (R326, R327). -/
def Dev.goMalformed (s : Dev) (id : Nat) : Dev :=
  let s := s.onCmd id fun c => { c with malformed := true }
  match s.cmd? id with
  | some c => if c.op = .write then s.drew.linesArrive id s.free else s.endCmd id stSuccess 0
  | none => s

/-- The segments of a command are known: READ starts its blocks, and WRITE fetches its data. -/
def Dev.segsReady (s : Dev) (id : Nat) : Dev :=
  match s.cmd? id with
  | none => s
  | some c =>
    if !s.segsOk c.segs then s.endCmd id stHostMemory 0
    else if c.op = .read then s.startRead id
    else if hostBytes c.segs = 0 then s.linesArrive id (s.gather c.segs [] 0)
    else s.hostRead (.data id) (((c.segs.find? fun g => !g.window).map (·.addr)).getD 0) (hostBytes c.segs)

/-- The SGL descriptors that bytes hold. -/
def sglOf : Nat → List Byte → List SglDesc
  | 0, _ => []
  | n + 1, l => ⟨BitVec.ofNat 64 (le l 0 8), BitVec.ofNat 32 (le l 8 4), BitVec.ofNat 4 (le l 12 1)⟩ :: sglOf n (l.drop 16)

/-- The range entries that bytes hold. -/
def rangesOf : Nat → List Byte → List RangeEntry
  | 0, _ => []
  | n + 1, l => ⟨BitVec.ofNat 48 (le l 0 6), BitVec.ofNat 32 (le l 8 4)⟩ :: rangesOf n (l.drop 16)

/-- Where the bytes that a pointer names come from. -/
inductive Source where
  | refused                     -- HOST_MEMORY_ERROR (R218, R322)
  | window (l : List Byte)
  | host

/-- The source of `n` bytes at an address. -/
def Dev.source (s : Dev) (a n : Nat) : Source :=
  if s.ownWindow a n then
    match s.segOffset? ⟨true, a, n⟩ with
    | some off => .window (memRead off n s.win.mem)
    | none => .refused
  else if s.ownRegister a n then .refused
  else .host

/-- The length in bytes that a command's data pointer covers. -/
def Cmd.bytes (c : Cmd) : Nat := c.e.nlb.toNat * 4096

/-- What one segment of a chain brings. -/
def Dev.takeWalk (s : Dev) (id : Nat) (l : List SglDesc) : Dev × SglEnd :=
  match s.cmd? id with
  | none => (s, .limit)
  | some c =>
    let w := s.walkSgl c.bytes l ⟨c.segs, c.descs, c.covered, .limit⟩
    (s.onCmd id fun c => { c with segs := w.segs, descs := w.descs, covered := w.covered }, w.fin)

/-- A segment of `n` descriptors at an address: one in the window is walked at once, one in host memory is fetched. `fuel`
bounds the segments that lie in the window. -/
def Dev.segment (s : Dev) (id : Nat) : Nat → Nat → Nat → Dev
  | 0, _, _ => s.endCmd id stSglLimit 0
  | fuel + 1, a, n =>
    match s.source a (16 * n) with
    | .refused => s.endCmd id stHostMemory 0
    | .host => s.hostRead (.sgl id) a (16 * n)
    | .window l =>
      let r := s.takeWalk id (sglOf n l)
      match r.2 with
      | .done => r.1.segsReady id
      | .limit => r.1.endCmd id stSglLimit 0
      | .malformed => r.1.goMalformed id
      | .next a n => r.1.segment id fuel a n

/-- A segment of a chain has come from host memory. -/
def Dev.sglArrive (s : Dev) (id n : Nat) (l : List SglDesc) : Dev :=
  let r := s.takeWalk id (l.take n)
  match r.2 with
  | .done => r.1.segsReady id
  | .limit => r.1.endCmd id stSglLimit 0
  | .malformed => r.1.goMalformed id
  | .next a n => r.1.segment id 4096 a n

/-- The data pointer of a READ or WRITE is followed (R320). -/
def Dev.startData (s : Dev) (id : Nat) : Dev :=
  match s.cmd? id with
  | none => s
  | some c =>
    let s := s.onCmd id fun c => { c with stage := .fetching }
    let a := c.e.daddr.toNat
    if !pointerDefined c.op c.e then s.goMalformed id
    else if c.e.dkind = 1 then (s.onCmd id fun c => { c with segs := [s.seg a c.bytes], covered := c.bytes }).segsReady id
    else if c.e.dcount = 0 then s.endCmd id stSglLimit 0
    else s.segment id 4096 a (min c.e.dcount.toNat 4096)

/-! ## Admission of writes (R13, R33, R122, R209, R210) -/

/-- A write goes to the held list; it takes its place in the quota when it is admitted. -/
def Dev.hold (s : Dev) (id : Nat) : Dev := s.onCmd id fun c => { c with stage := .held, quotaTaken := false }

/-- The courses that a list of ranges touches. -/
def Field.touchedBy (f : Field) (l : List (Nat × Nat)) : List (Nat × Bool) :=
  l.foldl (fun acc r => (f.touched r.1 r.2).foldl (fun acc x => addNew x acc) acc) []

/-- Whether the contexts that a write needs are free: none goes before a waiting holder (R13). -/
def Dev.ctxsAtHand (s : Dev) (f : Field) (l : List (Nat × Bool)) : Bool :=
  let fresh := l.filter fun x => (s.ctx? f.id x.1 x.2).isNone
  fresh = [] || (s.cache.ctxWait = [] && s.cache.ctxs.length + fresh.length ≤ maxCtxs)

/-- A write enters: contexts with their generation, marks and references, its durability rule, then its data. -/
def Dev.enterWrite (s : Dev) (id : Nat) (f : Field) (c : Cmd) (l : List (Nat × Bool)) : Dev :=
  let s := s.each l fun s x => (s.makeCtx f.id x.1 x.2).onCtx f.id x.1 x.2 fun y => { y with gen := y.gen + 1 }
  let r22 := s.unprotected f
  let now := s.tck.count
  let s := s.onCmd id fun c => { c with courses := l, r22 := r22, admitTick := now, stage := .fetching }
  let x := s.markWrite f id (f.regions l)
  let s := x.1.onCmd id fun c => { c with slots := dedup x.2 }
  let s := s.onQs fun q => { q with admitted := q.admitted + b2n (!c.quotaTaken) }
  let s := s.onTasks fun t => { t with fieldWrites := t.fieldWrites ++ [(s.now, f.id, 1)] }
  if c.op = .write then s.startData id else s.linesArrive id 0

/-- A write whose ranges are known is taken in, or held for a context, for the dirty cap or for a slot. -/
def Dev.takeWrite (s : Dev) (id : Nat) (f : Field) (c : Cmd) : Dev :=
  let l := f.touchedBy c.ranges
  if !s.ctxsAtHand f l then (s.onQs fun q => { q with ctxHeld := true }).hold id
  else if s.cap < s.load + 4096 * c.blockCount then (s.onQs fun q => { q with capHeld := q.capHeld + 1 }).hold id
  else if !s.slotsAtHand f (f.regions l) then
    ((s.onQs fun q => { q with slotHeldNow := addNew f.id q.slotHeldNow }).count .mstSlotHolds).hold id
  else s.enterWrite id f c l

/-- The range list of a DEALLOCATE has arrived: it is refused, it has nothing to do, or it is taken in like any write; its place
in the quota was taken when its entry was consumed (R33, R319, R340). -/
def Dev.rangesArrive (s : Dev) (id : Nat) (l : List RangeEntry) : Dev :=
  match s.cmd? id with
  | none => s
  | some c =>
    match s.field? c.e.fieldId.toNat with
    | none => s.endCmd id stInvalidField 4
    | some f =>
      let l := (l.map fun r => (r.lba.toNat, r.nlb.toNat)).filter fun r => 0 < r.2
      if c.stage ≠ .fetching then s
      else if l.any fun r => maxBlocks < r.2 || f.capacity < r.1 + r.2 then s.endCmd id stLbaRange 0
      else if l = [] then s.endCmd id stSuccess 0
      else (s.onCmd id fun c => { c with ranges := l }).takeWrite id f { c with ranges := l }

/-- A DEALLOCATE fetches its range list. -/
def Dev.fetchRanges (s : Dev) (id : Nat) (c : Cmd) : Dev :=
  let n := c.e.nlb.toNat
  let s := s.onCmd id fun c => { c with stage := .fetching }
  if n = 0 then s.endCmd id stSuccess 0
  else if !pointerDefined c.op c.e then s.goMalformed id
  else match s.source c.e.daddr.toNat (16 * n) with
    | .refused => s.endCmd id stHostMemory 0
    | .host =>
      let s := s.onQs fun q => { q with admitted := q.admitted + 1 }
      (s.onCmd id fun c => { c with quotaTaken := true }).hostRead (.ranges id) c.e.daddr.toNat (16 * n)
    | .window b => s.rangesArrive id (rangesOf n b)

/-! ## Admission (R325) -/

/-- Whether the store has failed on a chip whose fields pass to a SYNCED partner (R141). -/
def Dev.storePasses (s : Dev) : Bool := s.mst.failed && s.twn.mode && s.twn.state = 3

/-- What R325 finds for a command at its admission: the status and DETAIL that end it. -/
def Dev.refuses (s : Dev) (c : Cmd) : Option (BitVec 16 × BitVec 16) :=
  match (s.field? c.e.fieldId.toNat).filter (·.seen) with
  | none => if s.twn.partnerOwned.contains c.e.fieldId.toNat then some (stNotReady, 0) else some (stInvalidField, 4)
  | some f =>
    if !f.owned || f.admitStop then some (stNotReady, 0)
    else if !servesIo f.reported.toNat || f.offlineReq then some (stNotReady, 0)
    else if c.op.isWrite && f.readOnly then some (stReadOnly, 0)
    else if c.op.isWrite && (s.drm.cacheLost || (s.mst.failed && !s.storePasses)) then some (stWriteFault, 0)
    else none

/-- The writes of a field that are admitted and not yet durable. -/
def Dev.openWrites (s : Dev) (f : Nat) : List Nat :=
  (s.qs.cmds.filter fun c => c.e.fieldId.toNat = f && c.op.isWrite && !c.durable && c.courses ≠ []).map (·.id)

/-- A FLUSH waits for the writes before it (R215). -/
def Dev.startFlush (s : Dev) (id : Nat) (f : Nat) : Dev :=
  let l := s.openWrites f
  if l = [] then s.endCmd id stSuccess 0 else s.onCmd id fun c => { c with after := l, stage := .running }

/-- A command that has passed the checks is taken in (R325). -/
def Dev.tryTake (s : Dev) (id : Nat) : Dev :=
  match s.cmd? id with
  | none => s
  | some c =>
    if c.op.isWrite && s.tasks.quota ≤ s.qs.admitted then s.hold id
    else match s.refuses c with
      | some (st, d) => s.endCmd id st d
      | none =>
        match s.field? c.e.fieldId.toNat with
        | none => s
        | some f =>
          match c.op with
          | .flush => s.startFlush id f.id
          | .verify => s.startRead id
          | .read => s.startData id
          | .deallocate => if s.storePasses then s.hold id else if c.ranges = [] then s.fetchRanges id c else s.takeWrite id f c
          | _ => if s.storePasses then s.hold id else s.takeWrite id f c

/-! ## Consumption (R310, R313, R324, R332 to R334) -/

/-- A command ID whose slot is free (R242): the first from `n` upward. -/
def freeCmdId (used : List Nat) : Nat → Nat → Nat
  | 0, n => n
  | fuel + 1, n => if used.contains (n % 2 ^ 14) then freeCmdId used fuel (n + 1) else n

/-- Whether the Admit phase runs. -/
def Dev.inAdmission (s : Dev) : Bool := s.awake && s.tck.phaseIdx = 1 && s.tck.gapNow.isNone

/-- Whether the queue engine takes new entries at all now (R32, R34, R225, R232, R276, R297). -/
def Dev.engineTakes (s : Dev) : Bool :=
  s.inAdmission && s.upstream && s.vlt.dumping.isNone && s.qs.cmds.length < 2 ^ 14 && s.qs.handled < 512 && !s.drm.rebuildingDir

/-- Whether an entry that a pair offers is consumed at once: the engine takes entries, nothing stands before it in its pair, and it is the
pair's turn. -/
def Dev.mayConsume (s : Dev) (q : Nat) : Bool :=
  s.engineTakes && (match s.pair? q with
    | some p => p.live && !p.stalled && p.prefetch = []
    | none => false) && (match s.qs.round with
    | [] => true
    | x :: _ => x.1 = q && 0 < x.2)

/-- The batch that an entry joins: the open one, or a new one (R332). -/
def QPair.openBatch (p : QPair) : Batch :=
  (p.batches.find? fun b => !b.ended).getD ⟨p.orders, 0, 0, false, false, 0, 0, 0, 0, 0⟩

/-- An entry joins its batch; the entry with BATCH_END, or the 4,096th, ends it (R332, R334). -/
def Batch.join (b : Batch) (e : SqEntry) : Batch :=
  let full := 4096 ≤ b.count + 1
  let fin := e.batchEnd || full
  { b with
    count := b.count + 1
    left := b.left + 1
    ended := fin
    closed := full && !e.batchEnd
    tag := if fin then e.tag else b.tag }

/-- The command that an entry becomes. -/
def Dev.newCmd (s : Dev) (id q : Nat) (p : QPair) (no : Nat) (op : HostOp) (e : SqEntry) : Cmd where
  id := id
  qid := q
  sqIndex := p.scanPos
  order := p.orders
  batchNo := no
  op := op
  e := e
  stage := .fetching
  ranges := if namesRange op then [(e.lba.toNat, e.nlb.toNat)] else []
  segs := []
  descs := 0
  covered := 0
  blks := []
  arrived := false
  mirrorSeq := none
  acked := false
  courses := []
  slots := []
  r22 := false
  durable := false
  after := []
  status := 0
  detail := 0
  cause := none
  admitTick := s.tck.count
  parkedData := false
  malformed := false
  quotaTaken := false

/-- A READ meets the DRAM errors of the lines that it names (R208). -/
def Dev.meetFaults (s : Dev) (op : HostOp) (x : SqSlot) : Dev :=
  let e := x.entry
  if op = .read then s.frameFaults e.fieldId.toNat (x.faults.filter fun f => e.lba.toNat ≤ f.1 && f.1 < e.lba.toNat + e.nlb.toNat) else s

/-- One entry of a pair is consumed: byte 0 is written, its batch counts it, and it is checked and taken in. -/
def Dev.consumeSlot (s : Dev) (q : Nat) (p : QPair) (x : SqSlot) (rest : List SqSlot) : Dev :=
  let b := (p.openBatch).join x.entry
  let id := freeCmdId (s.qs.cmds.map (·.id % 2 ^ 14)) (s.qs.cmds.length + 1) s.qs.nextCmd
  let op := (opOf x.opcode.toNat).getD .flush
  let s := (s.emit (.consume q p.scanPos)).count .dblConsumed
  let s := s.onPair q fun p => { p with
    prefetch := rest
    scanPos := (p.scanPos + 1) % p.sqN
    orders := p.orders + 1
    batches := if p.batching then dropAll (·.no = b.no) p.batches ++ [b] else p.batches }
  let s := s.onQs fun k => { k with
    cmds := k.cmds ++ [s.newCmd id q p b.no op x.entry]
    nextCmd := id + 1
    handled := k.handled + 1
    lastServed := q }
  let s := if p.batching && b.closed then (s.count .dblBatchesClosed).record 0x2005 (s.srcQueue q) p.scanPos 0 0 else s
  let cap := ((s.field? x.entry.fieldId.toNat).filter (·.seen)).map (·.capacity)
  match opOf x.opcode.toNat with
  | none => (s.count .dblRejected).finish id stInvalidOpcode 0
  | some op =>
    match checkEntry p.fieldSet cap op x.entry with
    | some (st, d) => (s.count .dblRejected).finish id st d
    | none => (s.meetFaults op x).tryTake id

/-- The I/O queues in round-robin order, from the one after the last served (R32). -/
def Dev.queueOrder (s : Dev) : List Nat :=
  let l := sortBy (fun x => x) ((s.qs.pairs.filter (·.qid < 1024)).map (·.qid))
  l.filter (s.qs.lastServed < ·) ++ l.filter (· ≤ s.qs.lastServed)

/-- Whether a pair takes part in the rounds: its pending flag is set, or entries of it are at hand or on their way (R312 to R316). -/
def QPair.takesPart (p : QPair) : Bool :=
  p.qid < 1024 && p.live && !p.stalled && (p.pendingFlag || p.prefetch ≠ [] || p.burst.isSome)

/-- The queues of the rounds become those of a list. -/
def Dev.setRound (s : Dev) (l : List (Nat × Nat)) : Dev := s.onQs fun k => { k with round := l }

/-- The queue engine goes on with the rounds (R32, R313, R314): the queue whose turn it is gives up to 8 entries, first those at hand,
then those that its bursts bring; it waits for a burst, passes the turn on after its eighth entry, and leaves the rounds when it has no more
device-owned entries. `fuel` bounds entries and turns together. -/
def Dev.serve : Nat → Dev → Dev
  | 0, s => s
  | fuel + 1, s =>
    match s.qs.round with
    | [] => s
    | (q, n) :: rest =>
      if !s.engineTakes then s
      else match s.pair? q with
        | none => Dev.serve fuel (s.setRound rest)
        | some p =>
          if !p.live || p.stalled then Dev.serve fuel (s.setRound rest)
          else if n = 0 then Dev.serve fuel (s.setRound (rest ++ [(q, 8)]))
          else match p.prefetch with
            | x :: l => Dev.serve fuel ((s.setRound ((q, n - 1) :: rest)).consumeSlot q p x l)
            | [] =>
              if p.burst.isSome then s
              else if p.pendingFlag then (s.readSq q).onPair q fun p => { p with sawEmpty := n = 8 }
              else Dev.serve fuel (s.setRound rest)

/-- The bound of `serve`: 512 entries, their turns, and every queue leaving the rounds once (R32, R305). -/
def serveFuel : Nat := 4096

/-- The engine goes on while the Admit phase runs. -/
def Dev.goServe (s : Dev) : Dev := if s.inAdmission then Dev.serve serveFuel s else s

/-- A queue joins the rounds that run, behind the others. -/
def Dev.joinRound (s : Dev) (q : Nat) : Dev :=
  if s.inAdmission && !s.qs.round.any (·.1 = q) then s.setRound (s.qs.round ++ [(q, 8)]) else s

/-- The rounds of a tick begin with the queues that take part. -/
def Dev.beginRounds (s : Dev) (order : List Nat) : Dev :=
  (s.setRound ((order.filter fun q => (s.pair? q).any (·.takesPart)).map fun q => (q, 8))).goServe

/-- Trowel firmware reads the admin queue, outside the rounds (R32, R313). -/
def Dev.scanAdmin (s : Dev) : Dev :=
  match s.pair? 1024 with
  | some p =>
    if p.live && p.pendingFlag && p.burst.isNone && p.prefetch = [] && !p.stalled && s.inAdmission && s.upstream then
      (s.readSq 1024).onPair 1024 fun p => { p with sawEmpty := true }
    else s
  | none => s

/-! ## The Admit phase -/

/-- One held write is tried again; the retry counts toward the 512 (R33). Held writes stay where they are in D3hot and once a
dump has begun (R225, R291). -/
def Dev.retryHeld (s : Dev) (id : Nat) : Dev :=
  if s.vlt.dumping.isNone && !s.hif.d3hot && s.qs.handled < 512 && s.qs.admitted < s.tasks.quota && !s.drm.rebuildingDir then
    (s.onQs fun q => { q with handled := q.handled + 1 }).tryTake id
  else s

/-- ADMIT_PHASE: held writes oldest first, then new entries in rounds, then the re-reads of R331. -/
def Dev.admission (s : Dev) : Dev :=
  let s := s.onTck fun t => { t with phase := .admission, phaseIdx := 1, cycle := 0 }
  let s := s.onQs fun q => { q with
    handled := 0, admitted := 0, capHeld := 0, ctxHeld := false, slotHeldNow := [] }
  let order := s.queueOrder
  let s := s.each (s.qs.cmds.filter (·.stage = .held)) fun s c => s.retryHeld c.id
  let s := (s.beginRounds order).scanAdmin
  s.each (s.qs.pairs.filter fun p => p.stalled && p.reread && p.cqRead.isNone) fun s p =>
    if s.upstream then (s.readCq p.qid).onPair p.qid fun p => { p with reread := false } else s

/-- The end of the Admit phase: TCK_ADMIT_LAST and the two status bits, the throttle level (R131), and the counters of
writes held for the dirty cap (R210) and for contexts (R13). -/
def Dev.endAdmission (s : Dev) : Dev :=
  let held := (s.qs.cmds.filter (·.stage = .held)).length
  let h := s.qs.handled
  let s := s.onTck fun t => { t with admitHandled := h, admitHeld := min 512 held, throttled := 0 < held, saturated := 512 ≤ h }
  let cap := 0 < s.qs.capHeld
  let s := s.when cap fun s => s.count .drmCapWaitTicks
  let s := s.when (cap && !s.qs.capWaitRun) fun s => s.record 0x6012 (s.srcEngine 0x78) s.qs.capHeld 0 0
  let s := s.onQs fun q => { q with capWaitRun := cap, round := [] }
  let s := s.when s.qs.ctxHeld fun s => s.count .sysCtxWaitTicks
  s.throttle

/-- Leaves the Admit phase when it is the one that runs. -/
def Dev.leaveAdmission (s : Dev) : Dev := if s.tck.phaseIdx = 1 then s.endAdmission else s

/-! ## Entries handed over -/

/-- Host software hands an entry to a queue: it is kept as a prefetched entry, its queue joins the rounds that run, and the engine
goes on: the entry is consumed at once when it is its turn (R309, R313, R314). A ring of N entries holds no more than N. -/
def Dev.offer (s : Dev) (q : Nat) (x : SqSlot) : Dev :=
  match s.pair? q with
  | none => s
  | some p =>
    if q = 1024 || !p.live || p.sqN ≤ p.prefetch.length || s.sys.frozen then s
    else ((s.onPair q fun p => { p with prefetch := p.prefetch ++ [x], pendingFlag := true }).joinRound q).goServe

/-! ## Commands -/

/-- ADMIT_PHASE. -/
def execAdmitPhase (s : State) : Host.Outcome State Fault Refusal :=
  .next { s with toDev := if s.awake && s.tck.gapNow.isNone && s.tck.phaseIdx = 0 then s.toDev.admission else s.toDev }

/-- READ. -/
def execRead (q : Nat) (e : SqEntry) (faults : List (Nat × FrameFault)) (s : State) : Host.Outcome State Fault Refusal :=
  .next { s with toDev := s.toDev.offer q ⟨true, opCode .read, e, faults⟩ }

/-- WRITE. -/
def execWrite (q : Nat) (e : SqEntry) (s : State) : Host.Outcome State Fault Refusal :=
  .next { s with toDev := s.toDev.offer q ⟨true, opCode .write, e, []⟩ }

/-- FLUSH. -/
def execFlush (q : Nat) (e : SqEntry) (s : State) : Host.Outcome State Fault Refusal :=
  .next { s with toDev := s.toDev.offer q ⟨true, opCode .flush, e, []⟩ }

/-- WRITE_ZEROES. -/
def execWriteZeroes (q : Nat) (e : SqEntry) (s : State) : Host.Outcome State Fault Refusal :=
  .next { s with toDev := s.toDev.offer q ⟨true, opCode .writeZeroes, e, []⟩ }

/-- DEALLOCATE. -/
def execDeallocate (q : Nat) (e : SqEntry) (s : State) : Host.Outcome State Fault Refusal :=
  .next { s with toDev := s.toDev.offer q ⟨true, opCode .deallocate, e, []⟩ }

/-- VERIFY. -/
def execVerify (q : Nat) (e : SqEntry) (s : State) : Host.Outcome State Fault Refusal :=
  .next { s with toDev := s.toDev.offer q ⟨true, opCode .verify, e, []⟩ }

end Sys2Proof.Machine
end

