-- ==== Sys2Proof/Machine/HostReads.lean ====
section
/-!
DEFINITION. What the device's reads of host memory bring (R294, R295, R313, R319, R320, R329 to R331, R338), lost lines that
are fetched again (R231), and posting at the end of a tick (R44, R287, R329, R330).
-/

namespace Sys2Proof.Machine

/-! ## Posting (R44, R287, R329, R330) -/

/-- A ring stalls: the queue event, its counter and record 0x2001 (R330). -/
def Dev.stallRing (s : Dev) (q : Nat) : Dev :=
  match s.pair? q with
  | none => s
  | some p =>
    if p.stalled then s
    else ((s.onPair q fun p => { p with stalled := true, reread := false }).count .dblCqStalls).recordEvent 0x2001
      (s.srcQueue q) p.postPos 0 0 0

/-- A stalled ring whose entry has been returned goes on: record 0x2002 (R331). -/
def Dev.resumeRing (s : Dev) (q : Nat) : Dev :=
  match s.pair? q with
  | some p =>
    if p.stalled && 0 < p.cqKnown then
      (s.onPair q fun p => { p with stalled := false }).record 0x2002 (s.srcQueue q) p.postPos 0 0
    else s
  | none => s

/-- What is left of the 512 completion entries of a Retire phase (R29). -/
def Dev.postBudget (s : Dev) : Nat := 512 - s.qs.posted

/-- One pair's turn in the Retire phase: its stall ends when its entry has come back, its completions post in order, and an
entry that a waiting completion needs is read (R329 to R331). -/
def Dev.postTurn (s : Dev) (q : Nat) : Dev :=
  let s := s.resumeRing q
  let s := (Dev.postPair s.postBudget q s).1
  match s.pair? q with
  | some p => if p.waiting ≠ [] && p.cqKnown = 0 && !p.stalled && p.cqRead.isNone then s.readCq q else s
  | none => s

/-- The coalescing settings of a pair; the admin queue is never coalesced (R287). -/
def QPair.coalesce (p : QPair) : Nat × Nat := if p.qid = 1024 then (0, 0) else (p.coalCount, p.coalTicks)

/-- Whether a pair's vector is due at the end of a Retire phase (R287). -/
def Dev.vectorDue (s : Dev) (p : QPair) : Bool :=
  let c := p.coalesce
  0 < p.unsig && ((c.1 = 0 && c.2 = 0) || (c.1 ≠ 0 && c.1 ≤ p.unsig) ||
    (c.2 ≠ 0 && (match p.unsigTick with
      | some t => t.toNat + c.2 ≤ s.now
      | none => false)))

/-- A pair's vector is sent. -/
def Dev.signal (s : Dev) (q : Nat) : Dev :=
  (s.onPair q fun p => { p with unsig := 0, unsigTick := none }).msix q

/-- The messages at the end of a Retire phase (R287). -/
def Dev.signalQueues (s : Dev) : Dev := s.each (s.qs.pairs.filter s.vectorDue) fun s p => s.signal p.qid

/-- Every pair posts what it can, then the messages follow. -/
def Dev.postAll (s : Dev) : Dev := (s.each (s.qs.pairs.filter (·.deleting.isNone)) fun s p => s.postTurn p.qid).signalQueues

/-- Whether the Retire phase runs. -/
def Dev.inRetire (s : Dev) : Bool := s.awake && s.tck.phaseIdx = 5

/-! ## The deletion of a pair (R338) -/

/-- The completion entry of a command that a deletion ends. -/
def Cmd.deletedCqe (c : Cmd) : Cqe := { c.cqe with status := stQueueDeleted, detail := 0 }

/-- The completion entry of the admin command that is being served when its pair is deleted (R336). -/
def QPair.abortedAdmin (p : QPair) (tag : BitVec 16) : Cqe where
  batched := false
  closed := false
  status := stQueueDeleted
  tag := tag
  sqIndex := BitVec.ofNat 16 ((p.scanPos + p.sqN - 1) % p.sqN)
  count := 1
  detail := 0

/-- Step 2: every command of the pair without a posted completion ends, in order of consumption. -/
def Dev.deleteCmds (s : Dev) (q : Nat) : Dev :=
  let mine := sortBy (·.order) (s.qs.cmds.filter (·.qid = q))
  let ids := mine.map (·.id)
  let s := s.each (mine.filter fun c => c.op.isWrite && !c.durable) fun s c => s.dropLines c.id
  let gone (r : HRead) : Bool :=
    match r.purpose with
    | .sqBurst k _ _ => k = q
    | .cqBurst k _ _ => k = q
    | .adminBurst _ _ => q = 1024
    | .data c => ids.contains c
    | .sgl c => ids.contains c
    | .ranges c => ids.contains c
    | _ => false
  let s := s.onQs fun k => { k with
    cmds := (dropAll (fun c => c.qid = q) k.cmds).map fun c => { c with after := c.after.filter fun x => !ids.contains x }
    hreads := dropAll gone k.hreads
    adminWait := if q = 1024 then [] else k.adminWait }
  let served := (s.qs.pairs.filter fun p => q = 1024 && p.qid < 1024 && !p.orphan).filterMap (·.deleting)
  let s := s.when (q = 1024) fun s => s.onQs fun k => { k with pairs := modAll (·.deleting.isSome) (fun p => { p with orphan := true }) k.pairs }
  let admin (p : QPair) : List Cqe :=
    if q = 1024 then (p.waiting.map fun e => { e.2 with status := stQueueDeleted, detail := 0, count := 1 }) ++ served.map p.abortedAdmin else []
  s.onPair q fun p => { p with
    live := false
    waiting := []
    batches := []
    prefetch := []
    pendingFlag := false
    burst := none
    cqRead := none
    endedLeft := admin p ++ mine.map Cmd.deletedCqe
    deleted := (ids.length + (admin p).length, 0) }

/-- The end of a deletion: one message, record 0x2004, and the command that asked for it completes, unless its own pair is gone. -/
def Dev.deleteEnd (s : Dev) (q : Nat) (p : QPair) : Dev :=
  let left := p.endedLeft.length
  let s := (s.msix q).record 0x2004 (s.srcQueue q) p.deleted.1 left 0
  let s := s.onQs fun k => { k with pairs := dropAll (·.qid = q) k.pairs }
  if q = 1024 then s.mbxWake .adminDelete mbOk []
  else if p.orphan then s
  else s.adminDone (p.deleting.getD 0) stSuccess 0 left

/-- Posts what the known entries of a pair under deletion take, at most `n`. -/
def Dev.deletePost : Nat → Nat → Dev → Dev
  | 0, _, s => s
  | n + 1, q, s =>
    match s.pair? q with
    | some p =>
      match p.endedLeft with
      | e :: rest =>
        if p.cqKnown = 0 then s
        else
          let s := (s.onPair q fun p => { p with
            endedLeft := rest, cqKnown := p.cqKnown - 1, postPos := (p.postPos + 1) % p.cqN }).sendUp (.completion q p.postPos e)
          Dev.deletePost n q s
      | [] => s
    | none => s

/-- Steps 3 and 4, as far as they can go now: post, read further entries once, or end (R338, R339). `stop` says that an
entry was found host-owned or its read failed. -/
def Dev.deleteGo (s : Dev) (q : Nat) (stop : Bool) : Dev :=
  match s.pair? q with
  | none => s
  | some p =>
    let busy := s.qs.hreads.any fun r => match r.purpose with
      | .cqDelete k _ _ => k = q
      | _ => false
    if p.deleting.isNone || p.live || busy || !s.upstream then s
    else
      let s := Dev.deletePost p.endedLeft.length q s
      match s.pair? q with
      | none => s
      | some p =>
        if stop || p.endedLeft = [] then s.deleteEnd q p
        else
          let n := burstLen p.postPos p.cqN
          s.hostRead (.cqDelete q p.postPos n) (p.cqBase.toNat + 16 * p.postPos) (16 * n)

/-- A tick boundary takes up the deletions that were asked for and moves those that run (R338 step 1). -/
def Dev.deleteBoundary (s : Dev) : Dev :=
  s.each (s.qs.pairs.filter (·.deleting.isSome)) fun s p =>
    let s := if p.live then s.deleteCmds p.qid else s
    s.deleteGo p.qid false

/-! ## What reads bring -/

/-- The entries of a burst that were read with OWN = 1, before the first with OWN = 0 (R313). -/
def ownedSlots : List SqSlot → List SqSlot
  | [] => []
  | x :: l => if x.own then x :: ownedSlots l else []

/-- The number of leading device-owned completion entries (R329). -/
def ownedRun : List Bool → Nat
  | [] => 0
  | b :: l => if b then ownedRun l + 1 else 0

/-- A burst of submission entries has come in: its device-owned entries are kept for consumption, and the rounds go on; after a burst
that found every entry device-owned the queue stays in them (R313, R314). A burst whose entries stand elsewhere by now is not used. -/
def Dev.sqArrive (s : Dev) (q pos n : Nat) (l : List SqSlot) : Dev :=
  match s.pair? q with
  | none => s
  | some p =>
    let got := ownedSlots (l.take n)
    let all := got.length = n
    if pos ≠ (p.scanPos + p.prefetch.length) % p.sqN then
      (s.onPair q fun p => { p with burst := none, pendingFlag := true, sawEmpty := false }).goServe
    else
      let s := if got = [] && p.sawEmpty then s.count .dblEmptyScans else s
      let s := s.onPair q fun p => { p with
        burst := none
        sawEmpty := false
        prefetch := p.prefetch ++ got
        pendingFlag := p.pendingFlag || all }
      s.goServe

/-- A burst of completion entries has come in (R329 to R331). -/
def Dev.cqArrive (s : Dev) (q : Nat) (l : List Bool) : Dev :=
  let k := ownedRun l
  let s := s.onPair q fun p => { p with cqRead := none, cqKnown := k }
  match s.pair? q with
  | none => s
  | some p =>
    if k = 0 then (if p.waiting ≠ [] then s.stallRing q else s)
    else if s.inRetire then (s.postTurn q).signalQueues
    else s

/-- The segments' bytes of a WRITE have come from host memory. -/
def Dev.dataArrive (s : Dev) (id bytes : Nat) : Dev :=
  match s.cmd? id with
  | some c =>
    if c.stage ≠ .fetching then s
    else if !s.segsOk c.segs then s.endCmd id stHostMemory 0
    else s.linesArrive id (s.gather c.segs (bytesLE (hostBytes c.segs) bytes) 0)
  | none => s

/-- The read with an ID, once it has been issued. -/
def Dev.read? (s : Dev) (id : Nat) : Option HRead := s.qs.hreads.find? fun r => r.id = id && !r.waiting

/-- A read is over; one that waited for it is issued (R272). -/
def Dev.dropRead (s : Dev) (id : Nat) : Dev :=
  let s := s.onQs fun q => { q with hreads := dropAll (·.id = id) q.hreads }
  if s.upstream then s.issueReads else s

/-- A read has brought its content. Content of another shape than the read asked for counts as none of it arriving. -/
def Dev.readArrives (s : Dev) (r : HRead) (d : HostData) : Dev :=
  match r.purpose, d with
  | .sqBurst q pos n, .entries l => s.sqArrive q pos n l
  | .cqBurst q _ n, .cqOwn l => s.cqArrive q (l.take n)
  | .cqDelete q _ n, .cqOwn l =>
    let k := ownedRun (l.take n)
    (s.onPair q fun p => { p with cqKnown := k }).deleteGo q (k < n)
  | .data c, .data b => s.dataArrive c b
  | .sgl c, .sgl l => s.sglArrive c (r.len / 16) l
  | .ranges c, .ranges l => s.rangesArrive c (l.take (r.len / 16))
  | .sqBurst q _ _, _ => (s.onPair q fun p => { p with burst := none }).goServe
  | .cqBurst q _ _, _ => s.cqArrive q []
  | .cqDelete q _ _, _ => s.deleteGo q true
  | .adminBurst _ _, _ => s.onPair 1024 fun p => { p with burst := none }
  | _, _ => s

/-- HOST_READ_COMPLETION: a completion for a read of the device is used as it arrives, also in a port hold (R297). -/
def Dev.hostReadDone (s : Dev) (id : Nat) (d : HostData) : Dev :=
  match s.read? id with
  | some r => if s.sys.frozen then s else (s.dropRead id).readArrives r d
  | none => s

/-- What a read that fails leaves, by its purpose (R294). -/
def Dev.readFails (s : Dev) (r : HRead) : Dev :=
  match r.purpose with
  | .sqBurst q _ _ => (s.onPair q fun p => { p with burst := none, pendingFlag := false, sawEmpty := false }).goServe
  | .adminBurst _ _ => s.onPair 1024 fun p => { p with burst := none, pendingFlag := false, sawEmpty := false }
  | .cqBurst q _ _ => s.cqArrive q []
  | .cqDelete q _ _ => s.deleteGo q true
  | .data c => s.endCmd c stHostMemory 0
  | .sgl c => s.endCmd c stHostMemory 0
  | .ranges c => s.endCmd c stHostMemory 0
  | .refetch f lba =>
    match (s.versions f lba).find? (·.lostWait) with
    | some l => s.endCmd l.cmd stHostMemory 0
    | none => s

/-- The host endpoint as a record source (R42). -/
def Dev.srcHif (s : Dev) : BitVec 16 := s.srcEngine 0xB0

/-- HOST_READ_TIMEOUT: the Completion Timeout of a read passes (R294); it is an AER error of status bit 14, PRESUMED from the PCI
Express base specification (R292). -/
def Dev.hostReadTimesOut (s : Dev) (id : Nat) : Dev :=
  match s.read? id with
  | none => s
  | some r =>
    if s.sys.frozen then s
    else
      let s := (s.dropRead id).onQs fun q => { q with timedOut := addNew id q.timedOut }
      let s := s.onHif fun h => { h with cplTimeouts := bump64 h.cplTimeouts }
      (((s.record 0x1008 s.srcHif 14 0 0).recordEvent 0x1006 s.srcHif 0 0 0 10)).readFails r

/-- HOST_READ_ERROR: a read ends with Unsupported Request, Completer Abort or a poisoned completion, which is an AER error of status
bit 12, PRESUMED from the PCI Express base specification (R292, R294). -/
def Dev.hostReadErr (s : Dev) (id : Nat) (e : HostReadErr) : Dev :=
  match s.read? id with
  | none => s
  | some r =>
    let k := match e with
      | .unsupportedRequest => 1
      | .completerAbort => 2
      | .poisoned => 3
    if s.sys.frozen then s
    else
      let s := (s.dropRead id).when (e = .poisoned) fun s => s.record 0x1008 s.srcHif 12 0 0
      (s.record 0x1007 s.srcHif k 0 0).readFails r

/-- HIF_LATE_COMPLETION: a completion arrives for a read whose timeout was handled; its data is never used (R295). It is an Unexpected
Completion, status bit 16, PRESUMED from the PCI Express base specification (R292). -/
def Dev.lateArrives (s : Dev) (id : Nat) : Dev :=
  if s.qs.timedOut.contains id && !s.sys.frozen then
    (((s.onQs fun q => { q with timedOut := dropAll (· = id) q.timedOut }).onHif fun h =>
      { h with lateCpl := bump64 h.lateCpl }).record 0x1008 s.srcHif 16 0 0).record 0x1005 s.srcHif 0 0 0
  else s

/-! ## Lost lines of host data (R231) -/

/-- READs that wait for a block of the cache take it (R24). -/
def Dev.serveWaiting (s : Dev) (f lba : Nat) : Dev :=
  match s.newest f lba with
  | none => s
  | some l =>
    if l.lostWait then s
    else s.onQs fun q => { q with cmds := q.cmds.map fun c =>
      if c.op = .read && c.stage = .running && c.e.fieldId.toNat = f then c.setBlk lba (.ready l.data l.tag) else c }

/-- LINE_REFETCH_DONE: the refetch of a lost uncommitted line brings its bytes in host memory, in order, beside those in the window, or
fails and ends the command (R231). -/
def Dev.refetchDone (s : Dev) (fid lba : Nat) (d : Option Block) : Dev :=
  match (s.versions fid lba).find? (·.lostWait), s.field? fid with
  | some l, some f =>
    if s.sys.frozen then s
    else
      let mine (r : HRead) : Bool := r.purpose = .refetch fid lba
      let s := s.onQs fun q => { q with hreads := dropAll mine q.hreads }
      match d, s.cmd? l.cmd with
      | some b, some c => (s.putAgain f l (BitVec.ofNat 32768 (s.gather (c.partsOf lba) (blockBytes b) 0))).serveWaiting fid lba
      | _, _ => s.endCmd l.cmd stHostMemory 0
  | _, _ => s

/-! ## Commands -/

/-- HOST_READ_COMPLETION. -/
def execHostReadCompletion (id : Nat) (d : HostData) (s : State) : Host.Outcome State Fault Refusal :=
  .next { s with toDev := s.toDev.hostReadDone id d }

/-- HOST_READ_TIMEOUT. -/
def execHostReadTimeout (id : Nat) (s : State) : Host.Outcome State Fault Refusal :=
  .next { s with toDev := s.toDev.hostReadTimesOut id }

/-- HOST_READ_ERROR. -/
def execHostReadError (id : Nat) (e : HostReadErr) (s : State) : Host.Outcome State Fault Refusal :=
  .next { s with toDev := s.toDev.hostReadErr id e }

/-- HIF_LATE_COMPLETION. -/
def execHifLateCompletion (id : Nat) (s : State) : Host.Outcome State Fault Refusal :=
  .next { s with toDev := s.toDev.lateArrives id }

/-- LINE_REFETCH_DONE. -/
def execLineRefetchDone (field lba : Nat) (data : Option Block) (s : State) : Host.Outcome State Fault Refusal :=
  .next { s with toDev := s.toDev.refetchDone field lba data }

end Sys2Proof.Machine
end

