-- ==== Sys2Proof/Machine/Endpoint.lean ====
section
/-!
DEFINITION. The host endpoint: doorbells and scans (R280, R297, R312, R331), the admin commands (R336 to R339), port hold
(R296 to R299), upstream requests (R276, R288), the landing window (R301 to R303), the link, latency and power (R271, R289
to R291).
-/

namespace Sys2Proof.Machine

/-! ## When requests go out and come in -/

/-- Upstream requests go out again: reads that wait, messages that were kept, and the data of parked commands; their
completions follow in the Retire phase (R276, R288, R291, R298). -/
def Dev.resumeUpstream (s : Dev) : Dev := if s.upstream then s.issueReads.sendParked.sendKept else s

/-- Whether the endpoint takes memory requests at all: it is up, Memory Space Enable is 1 and it is not in D3hot (R276, R291,
R451, R456). -/
def Dev.memUp (s : Dev) : Bool := s.kst.running && s.hif.ready && s.hif.mse && !s.hif.d3hot && !s.sys.frozen

/-- A posted write that is dropped and counted (R279, R280, R297). -/
def Dev.dropWrite (s : Dev) : Dev := s.onHif fun h => { h with dropped := bump64 h.dropped }

/-- An Unsupported Request is an AER error of status bit 20, PRESUMED from the PCI Express base specification (R292). -/
def Dev.unsupported (s : Dev) : Dev := s.record 0x1008 s.srcHif 20 0 0

/-- A read is answered with Unsupported Request. -/
def Dev.refuseRead (s : Dev) : Dev := s.unsupported.answer none

/-- A posted write to a forbidden target (R279). -/
def Dev.forbidWrite (s : Dev) : Dev := s.dropWrite.unsupported.record 0x1004 s.srcHif 0 0 0

/-- A read of a forbidden target: Unsupported Request and record 0x1003 (R293). -/
def Dev.forbidRead (s : Dev) (bar offset size : Nat) : Dev :=
  ((s.onHif fun h => { h with urCount := bump64 h.urCount }).record 0x1003 s.srcHif (bar % 256 + size % 256 * 2 ^ 8) offset 0).refuseRead

/-! ## Doorbells and scans -/

/-- Whether a write has the size and alignment of a doorbell write (R280). -/
def doorbellForm (offset size : Nat) : Bool :=
  (size = 4 || size = 8) && offset % size = 0 && offset + size ≤ 16384

/-- DOORBELL_WRITE: the queue's pending flag is set and a stalled ring is read again; a queue that does not exist, a wrong
form and a port hold drop the write (R280, R297, R312, R331). -/
def Dev.doorbell (s : Dev) (offset size : Nat) : Dev :=
  let q := offset / 8
  let now := s.tck.count
  if !s.memUp then s
  else if !doorbellForm offset size then s.forbidWrite
  else if s.hif.hold then s.onHif fun h => { h with holdDoorbells := bump64 h.holdDoorbells }
  else match s.pair? q with
    | some p =>
      if p.exists then
        (s.onPair q fun p => { p with pendingFlag := true, reread := p.stalled || p.reread }).onHif fun h => { h with lastDoorbell := some now }
      else s.dropWrite
    | none => s.dropWrite

/-- PERIODIC_SCAN: at a tick boundary where TCK_COUNT mod DBL_SCAN_TICKS is 0, every existing queue's flag is set (R312). -/
def Dev.periodicScan (s : Dev) : Dev :=
  let n := s.param .dblScanTicks
  if s.awake && n ≠ 0 && s.now % n = 0 && s.tck.phaseIdx = 0 then
    let ring (p : QPair) : QPair := { p with pendingFlag := true }
    s.onQs fun k => { k with pairs := modAll QPair.exists ring k.pairs }
  else s

/-- STALL_POLL: every DBL_STALL_POLL_TICKS a stalled ring is read again in the Admit phase (R331). -/
def Dev.stallPoll (s : Dev) : Dev :=
  if s.awake && s.now % s.param .dblStallPollTicks = 0 then
    let again (p : QPair) : QPair := { p with reread := true }
    s.onQs fun k => { k with pairs := modAll (·.stalled) again k.pairs }
  else s

/-! ## The admin queue pair (R336 to R339) -/

/-- The fields of CREATE_IO_QUEUE_PAIR (R337). -/
structure PairSpec where
  qid : Nat
  batching : Bool
  coalCount : Nat
  coalTicks : Nat
  sqN : Nat
  cqN : Nat
  sqBase : BitVec 64
  cqBase : BitVec 64
  deriving DecidableEq, Repr

/-- Whether a ring size is one that R306 allows. -/
def ringSizeOk (n : Nat) : Bool := 2 ≤ n && n ≤ 65536

/-- The offset of the first field of a creation that is refused. -/
def Dev.pairRefused (s : Dev) (x : PairSpec) : Option (BitVec 16) :=
  if 1023 < x.qid || (s.pair? x.qid).isSome then some 0x08
  else if !ringSizeOk x.sqN then some 0x10
  else if !ringSizeOk x.cqN then some 0x14
  else if x.sqBase.toNat % 64 ≠ 0 then some 0x18
  else if x.cqBase.toNat % 16 ≠ 0 then some 0x20
  else none

/-- A new queue pair: positions at 0 and an empty field set (R307, R337). -/
def freshPair (x : PairSpec) (live : Bool) : QPair where
  qid := x.qid
  sqBase := x.sqBase
  cqBase := x.cqBase
  sqN := x.sqN
  cqN := x.cqN
  batching := x.batching
  coalCount := x.coalCount
  coalTicks := x.coalTicks
  fieldSet := 0
  fieldSetNext := none
  live := live
  deleting := none
  orphan := false
  deleted := (0, 0)
  endedLeft := []
  pendingFlag := false
  scanPos := 0
  postPos := 0
  prefetch := []
  burst := none
  cqKnown := 0
  cqRead := none
  stalled := false
  reread := false
  waiting := []
  unsig := 0
  unsigTick := none
  batches := []
  orders := 0
  sawEmpty := false

/-- A pair joins the queues; its source starts afresh (R43, R337): record 0x2003. -/
def Dev.addPair (s : Dev) (x : PairSpec) (live : Bool) : Dev :=
  let src := s.srcQueue x.qid
  let s := s.onQs fun k => { k with pairs := k.pairs ++ [freshPair x live] }
  let s := s.onFbk fun k => { k with seqs := dropAll (·.1 = src) k.seqs, last := dropAll (·.src = src) k.last }
  s.record 0x2003 src x.sqN x.cqN 0

/-- An entry of the admin ring is consumed (R310, R337). -/
def Dev.consumeAdmin (s : Dev) : Dev :=
  match s.pair? 1024 with
  | some p => (s.emit (.consume 1024 p.scanPos)).onPair 1024 fun p => { p with scanPos := (p.scanPos + 1) % p.sqN, orders := p.orders + 1 }
  | none => s

/-- CREATE_IO_QUEUE_PAIR as the firmware serves it. -/
def Dev.createPair (s : Dev) (tag : BitVec 16) (x : PairSpec) : Dev :=
  match s.pairRefused x with
  | some d => s.adminDone tag stInvalidField d 0
  | none => (s.addPair x false).adminDone tag stSuccess 0 0

/-- DELETE_IO_QUEUE_PAIR as the firmware serves it: it runs from the next tick boundary on (R338). -/
def Dev.deletePair (s : Dev) (tag qid : BitVec 16) : Dev :=
  match s.pair? qid.toNat with
  | some p =>
    if qid.toNat < 1024 && p.deleting.isNone then s.onPair qid.toNat fun p => { p with deleting := some tag }
    else s.adminDone tag stInvalidField 0x08 0
  | none => s.adminDone tag stInvalidField 0x08 0

/-- SET_FIELD_SET as the firmware serves it: the set takes effect at the next tick boundary (R307). -/
def Dev.setFieldSet (s : Dev) (tag qid : BitVec 16) (set : BitVec 256) : Dev :=
  match (s.pair? qid.toNat).filter fun p => p.qid < 1024 && p.deleting.isNone with
  | some _ => (s.onPair qid.toNat fun p => { p with fieldSetNext := some set }).adminDone tag stSuccess 0 0
  | none => s.adminDone tag stInvalidField 0x08 0

/-- The fields of a creation command. -/
def pairSpec (qid : BitVec 16) (batching : Bool) (cc ct : BitVec 16) (sn cn : BitVec 32) (sb cb : BitVec 64) : PairSpec :=
  ⟨qid.toNat, batching, cc.toNat, ct.toNat, sn.toNat, cn.toNat, sb, cb⟩

/-- One admin command is served. -/
def Dev.serveAdmin (s : Dev) (i : Instr) : Dev :=
  match i with
  | .createIoQueuePair tag qid b cc ct sn cn sb cb => s.consumeAdmin.createPair tag (pairSpec qid b cc ct sn cn sb cb)
  | .deleteIoQueuePair tag qid => s.consumeAdmin.deletePair tag qid
  | .setFieldSet tag qid set => s.consumeAdmin.setFieldSet tag qid set
  | .invalidOpcode _ _ e => s.consumeAdmin.adminDone e.tag stInvalidOpcode 0 0
  | _ => s

/-- Whether the firmware serves an admin command now: one at a time, with requests to the host possible (R337, R339). -/
def Dev.adminFree (s : Dev) : Bool :=
  s.awake && s.upstream && s.sys.trwHalted.contains false &&
  (match s.pair? 1024 with
    | some p => p.live && !s.qs.pairs.any fun x => x.qid < 1024 && x.deleting.isSome
    | none => false)

/-- Admin commands that wait are served in ring order while nothing holds them. -/
def Dev.runAdmin (s : Dev) : Dev :=
  s.each s.qs.adminWait fun s i =>
    if s.adminFree && s.qs.adminWait.head? = some i then
      (s.onQs fun k => { k with adminWait := k.adminWait.drop 1 }).serveAdmin i
    else s

/-- An admin command is handed over on the admin ring: it waits its turn (R337, R339). -/
def Dev.adminOffer (s : Dev) (i : Instr) : Dev :=
  match s.pair? 1024 with
  | some p =>
    if p.live && s.qs.adminWait.length < p.sqN && !s.sys.frozen then
      (s.onQs fun k => { k with adminWait := k.adminWait ++ [i] }).runAdmin
    else s
  | none => s

/-- INVALID_OPCODE: an entry whose opcode is not one of its queue's opcodes (R324, R335, R337). -/
def Dev.offerBad (s : Dev) (q : Nat) (opcode : BitVec 8) (e : SqEntry) : Dev :=
  if q = 1024 then
    (if [0x81, 0x82, 0x83].contains opcode then s else s.adminOffer (.invalidOpcode q opcode e))
  else if (opOf opcode.toNat).isSome then s
  else s.offer q ⟨true, opcode, e, []⟩

/-- At a tick boundary new pairs come into being, and their completion rings are read (R329, R337); new field sets hold. -/
def Dev.pairBoundary (s : Dev) : Dev :=
  let born := (s.qs.pairs.filter fun p => !p.live && p.deleting.isNone).map (·.qid)
  let s := s.onQs fun k => { k with pairs := k.pairs.map fun p => { p with
    live := p.live || p.deleting.isNone
    fieldSet := p.fieldSetNext.getD p.fieldSet
    fieldSetNext := none } }
  s.each born fun s q => s.readCq q

/-! ## Port hold (R296 to R299) -/

/-- The code of a trigger in HIF_HOLD_CAUSE. -/
def causeCode : HoldCause → Nat
  | .malformed => 1 | .poisoned => 2 | .datapath => 3

/-- The AER status bit of a trigger (R292; the bit numbers are PRESUMED from the PCIe base specification). -/
def aerBit : HoldCause → Nat
  | .malformed => 18 | .poisoned => 12 | .datapath => 22

/-- The endpoint enters port hold; a trigger during a hold changes nothing (R296). -/
def Dev.enterHold (s : Dev) (cause : Nat) : Dev :=
  if s.hif.hold then s
  else
    let now := s.tck.count
    (s.onHif fun h => { h with
      hold := true
      holdCause := BitVec.ofNat 4 cause
      armed := false
      releasing := false
      holdSince := now
      holdCount := bump32 h.holdCount }).record 0x1001 s.srcHif cause 0 0

/-- PORT_HOLD_ENTER: the trigger's AER report, then the hold (R292, R296). -/
def Dev.holdTrigger (s : Dev) (c : HoldCause) : Dev :=
  if s.kst.running && !s.sys.frozen then (s.record 0x1008 s.srcHif (aerBit c) 0 0).enterHold (causeCode c) else s

/-- HOLD_REQ: a write of 1 to HIF_CONTROL.HOLD_REQ. -/
def Dev.holdReq (s : Dev) : Dev := if s.memUp then s.enterHold 4 else s

/-- A write to HIF_HOLD_RELEASE (R298). -/
def Dev.holdWord (s : Dev) (w : BitVec 16) : Dev :=
  if !s.memUp || !s.hif.hold then s
  else if w = 0x484F then s.onHif fun h => { h with armed := true }
  else if w = 0x4C44 && s.hif.armed then s.onHif fun h => { h with armed := false, releasing := true }
  else s.onHif fun h => { h with armed := false }

/-- The release of a hold at a tick boundary (R298). -/
def Dev.releaseHold (s : Dev) : Dev :=
  if s.hif.releasing then
    ((s.onHif fun h => { h with hold := false, releasing := false, armed := false }).recordEvent 0x1002 s.srcHif 0 0 0 10).resumeUpstream
  else s

/-! ## The landing window (R217, R249, R301 to R303) -/

/-- A write to a shadow register of the window: reserved bits do not take it (R301). -/
def Dev.winShadow (s : Dev) (r : WinReg) (v : BitVec 64) : Dev :=
  s.onWin fun w =>
    match r with
    | .base => { w with shBase := v &&& 0xFFFFFF000#64, pending := true }
    | .size => { w with shSize := v &&& 0x1FFFFFF000#64, pending := true }
    | .ctrl => { w with shCtrl := v &&& 7#64, pending := true }

/-- WIN_SHADOW_WRITE. -/
def Dev.winWrite (s : Dev) (r : WinReg) (v : BitVec 64) : Dev :=
  if !s.memUp then s else if s.hif.hold then s.dropWrite else s.winShadow r v

/-- At a tick boundary the shadows become live together, or are refused (R301, R303). -/
def Dev.winBoundary (s : Dev) : Dev :=
  if !s.win.pending then s
  else
    let b := s.win.shBase.toNat
    let n := s.win.shSize.toNat
    let c := s.win.shCtrl
    if b % 4096 ≠ 0 || n % 4096 ≠ 0 || s.winBarBytes < b + n then
      (s.onWin fun w => { w with pending := false, rejected := true }).record 0x1009 s.srcHif 0xFFFFFFFF 0 0
    else s.onWin fun w => { w with
      pending := false, base := b, size := n, enable := c.getLsbD 0, writeEn := c.getLsbD 1, readEn := c.getLsbD 2 }

/-- WINDOW_WRITE: a posted write to BAR4/5 lands in the window, or is dropped and counted (R297, R302). -/
def Dev.windowWrite (s : Dev) (offset len data : Nat) : Dev :=
  if !s.memUp || s.winBarBytes < offset + len then s
  else if s.hif.hold then s.dropWrite
  else match (if s.win.writeEn then s.win.offset? offset len else none) with
    | some off => s.winStore off (bytesLE len data)
    | none => (s.onWin fun w => { w with rejects := bump64 w.rejects }).record 0x1009 s.srcHif 0 0 0

/-- The bytes of the window from an offset answer a read. -/
def Dev.winAnswer (s : Dev) (off len : Nat) : Dev := s.answer (some (fromLE (memRead off len s.win.mem)))

/-- The checkpoint whose acknowledgement a window read waits for: none when no earlier write is open (R249). -/
def Dev.winNeeds (s : Dev) : Option Nat :=
  if !s.partner then none
  else if s.win.unmirrored ≠ [] then some (s.twn.ckptSeq.toNat + 1)
  else match s.win.unacked with
    | [] => none
    | l => some ((l.map (·.2)).foldl max 0)

/-- WINDOW_READ: a read of BAR4/5 is served once every earlier window write is mirrored and acknowledged, or gets Unsupported
Request (R249, R297, R302). -/
def Dev.windowRead (s : Dev) (offset len : Nat) : Dev :=
  if !s.memUp || s.winBarBytes < offset + len then s.refuseRead
  else if s.hif.hold then s.refuseRead
  else match (if s.win.readEn then s.win.offset? offset len else none) with
    | some off =>
      match s.winNeeds with
      | some k => s.onWin fun w => { w with reads := w.reads ++ [(off, len, k)] }
      | none => s.winAnswer off len
    | none => (s.record 0x1009 s.srcHif 0 0 0).refuseRead

/-- Window reads whose writes are acknowledged up to a checkpoint are served, in order. -/
def Dev.serveWinReads (s : Dev) (ack : Nat) : Dev :=
  let l := s.win.reads.filter fun r => r.2.2 ≤ ack
  (s.onWin fun w => { w with reads := dropAll (fun r => r.2.2 ≤ ack) w.reads }).each l fun s r => s.winAnswer r.1 r.2.1

/-! ## Link, enables, latency, power -/

/-- LINK_TRAINED (R271). -/
def Dev.linkTrained (s : Dev) (speed width : Nat) (flit : Bool) : Dev :=
  if s.kst.running && !s.sys.frozen then
    s.onHif fun h => { h with
      speed := BitVec.ofNat 3 speed
      width := BitVec.ofNat 5 width
      flit := flit || speed = 6
      linkDegraded := speed < 6 || width < 16 }
  else s

/-- Whether configuration requests are served (R297, R450, R456). -/
def Dev.cfgUp (s : Dev) : Bool := s.kst.running && !s.sys.frozen

/-- BUS_MASTER_ENABLE_CHANGE (R276). -/
def Dev.setBme (s : Dev) (on : Bool) : Dev :=
  if s.cfgUp then (s.onHif fun h => { h with bme := on }).resumeUpstream else s

/-- MEMORY_SPACE_ENABLE_CHANGE (R276). -/
def Dev.setMse (s : Dev) (on : Bool) : Dev := if s.cfgUp then s.onHif fun h => { h with mse := on } else s

/-- The pending messages of vectors that are no longer masked go out, or are kept; with MSI-X Enable at 0 they stay pending (R288). -/
def Dev.sendUnmasked (s : Dev) : Dev :=
  let l := s.hif.pba.filter fun v => s.hif.msixEnable && !s.masked v
  (s.onHif fun h => { h with pba := h.pba.filter fun v => !l.contains v }).each l fun s v => s.msix v

/-- MSIX_MASK_CHANGE (R288). The table takes writes in port hold. -/
def Dev.setMask (s : Dev) (t : MaskTarget) : Dev :=
  match t with
  | .vector v m =>
    if !s.memUp || 1040 ≤ v then s
    else (s.onHif fun h => { h with vectorMask := if m then addNew v h.vectorMask else dropAll (· = v) h.vectorMask }).sendUnmasked
  | .functionMask m => if s.cfgUp then (s.onHif fun h => { h with functionMask := m }).sendUnmasked else s
  | .enable e => if s.cfgUp then (s.onHif fun h => { h with msixEnable := e }).sendUnmasked else s

/-- The latency level whose condition holds (R289). -/
def Dev.ltrNow (s : Dev) : BitVec 2 :=
  let rung := match s.hif.lastDoorbell with
    | some t => s.now < t.toNat + 64
    | none => false
  if s.qs.cmds ≠ [] || 0 < s.parked || rung then 0
  else if s.mbx.hostRun.isSome || s.mbx.mgmtRun.isSome || s.param .dblScanTicks ≠ 0 then 1
  else 2

/-- The level is followed at every tick boundary, so that a longer latency is sent only after 64 ticks (R289). -/
def Dev.ltrBoundary (s : Dev) : Dev :=
  let now := s.tck.count
  let v := s.ltrNow
  if v = s.hif.ltrCond then s else s.onHif fun h => { h with ltrCond := v, ltrSince := now }

/-- A latency in the encoding of the capability: a value of 10 bits and a scale of 3, in units of 32 to the scale ns (PRESUMED from
the PCI Express base specification). -/
def latencyNs (v : BitVec 16) : Nat := v.toNat % 1024 * 32 ^ (v.toNat / 1024 % 8)

/-- The latency that the device reports at a level, in ns: never more than the two maxima that host software has written (R289). -/
def Hif.ltrNs (h : Hif) (level : BitVec 2) : Nat :=
  let own : Nat := if level = 0 then 1000 else if level = 1 then 16000 else 999424
  min own (min (latencyNs h.maxSnoop) (latencyNs h.maxNoSnoop))

/-- LTR_LEVEL_CHANGE: a shorter latency at once, a longer one after 64 ticks (R289). -/
def Dev.ltrChange (s : Dev) : Dev :=
  let v := s.ltrNow
  let old := s.hif.ltr
  let longer := old ≠ 3 && old < v
  if !s.awake || !s.hif.ltrEnable || v = old then s
  else if longer && (v ≠ s.hif.ltrCond || s.now < s.hif.ltrSince.toNat + 64) then s
  else (s.onHif fun h => { h with ltr := v }).emit (.ltr v (s.hif.ltrNs v))

/-- ASPM_L1_ENTRY: at level IDLE, with no upstream request outstanding (R290). -/
def Dev.enterL1 (s : Dev) : Dev :=
  if s.awake && !s.hif.l1 && s.ltrNow = 2 && s.qs.hreads = [] then (s.onHif fun h => { h with l1 := true }).emit .l1Enter else s

/-- ASPM_L1_EXIT: an upstream request is to be sent, or the host starts the exit (R290). -/
def Dev.exitL1 (s : Dev) : Dev := if s.hif.l1 && !s.sys.frozen then (s.onHif fun h => { h with l1 := false }).emit .l1Exit else s

/-- D3HOT_ENTRY: admission stops with the upstream requests, and the hod is emptied (R185, R291). -/
def Dev.enterD3 (s : Dev) : Dev :=
  if s.cfgUp && !s.hif.d3hot then (s.onHif fun h => { h with d3hot := true }).hodReset else s

/-- D0_RETURN (R291). -/
def Dev.returnD0 (s : Dev) : Dev :=
  if s.cfgUp && s.hif.d3hot then ((s.onHif fun h => { h with d3hot := false }).onDrm fun d => { d with selfRefresh := false }).resumeUpstream else s

/-! ## Commands -/

/-- STALL_POLL. -/
def execStallPoll (s : State) : Host.Outcome State Fault Refusal := .next { s with toDev := s.toDev.stallPoll }

/-- PERIODIC_SCAN. -/
def execPeriodicScan (s : State) : Host.Outcome State Fault Refusal := .next { s with toDev := s.toDev.periodicScan }

/-- DOORBELL_WRITE. -/
def execDoorbellWrite (offset size : Nat) (s : State) : Host.Outcome State Fault Refusal :=
  .next { s with toDev := s.toDev.doorbell offset size }

/-- CREATE_IO_QUEUE_PAIR. -/
def execCreateIoQueuePair (tag qid : BitVec 16) (batching : Bool) (coalCount coalTicks : BitVec 16)
    (sqEntries cqEntries : BitVec 32) (sqBase cqBase : BitVec 64) (s : State) : Host.Outcome State Fault Refusal :=
  let i := Instr.createIoQueuePair tag qid batching coalCount coalTicks sqEntries cqEntries sqBase cqBase
  .next { s with toDev := s.toDev.adminOffer i }

/-- DELETE_IO_QUEUE_PAIR. -/
def execDeleteIoQueuePair (tag qid : BitVec 16) (s : State) : Host.Outcome State Fault Refusal :=
  .next { s with toDev := s.toDev.adminOffer (.deleteIoQueuePair tag qid) }

/-- SET_FIELD_SET. -/
def execSetFieldSet (tag qid : BitVec 16) (set : BitVec 256) (s : State) : Host.Outcome State Fault Refusal :=
  .next { s with toDev := s.toDev.adminOffer (.setFieldSet tag qid set) }

/-- INVALID_OPCODE. -/
def execInvalidOpcode (q : Nat) (opcode : BitVec 8) (e : SqEntry) (s : State) : Host.Outcome State Fault Refusal :=
  .next { s with toDev := s.toDev.offerBad q opcode e }

/-- HOLD_REQ. -/
def execHoldReq (s : State) : Host.Outcome State Fault Refusal := .next { s with toDev := s.toDev.holdReq }

/-- PORT_HOLD_ENTER. -/
def execPortHoldEnter (c : HoldCause) (s : State) : Host.Outcome State Fault Refusal :=
  .next { s with toDev := s.toDev.holdTrigger c }

/-- HOLD_RELEASE_ARM. -/
def execHoldReleaseArm (s : State) : Host.Outcome State Fault Refusal := .next { s with toDev := s.toDev.holdWord 0x484F }

/-- HOLD_RELEASE_COMPLETE. -/
def execHoldReleaseComplete (s : State) : Host.Outcome State Fault Refusal := .next { s with toDev := s.toDev.holdWord 0x4C44 }

/-- HOLD_RELEASE_DISARM. -/
def execHoldReleaseDisarm (value : BitVec 32) (s : State) : Host.Outcome State Fault Refusal :=
  .next { s with toDev := s.toDev.holdWord (value.setWidth 16) }

/-- WIN_SHADOW_WRITE. -/
def execWinShadowWrite (r : WinReg) (value : BitVec 64) (s : State) : Host.Outcome State Fault Refusal :=
  .next { s with toDev := s.toDev.winWrite r value }

/-- WINDOW_WRITE. -/
def execWindowWrite (offset len data : Nat) (s : State) : Host.Outcome State Fault Refusal :=
  .next { s with toDev := s.toDev.windowWrite offset len data }

/-- WINDOW_READ. -/
def execWindowRead (offset len : Nat) (s : State) : Host.Outcome State Fault Refusal :=
  .next { s with toDev := s.toDev.windowRead offset len }

/-- LINK_TRAINED. -/
def execLinkTrained (speed width : Nat) (flit : Bool) (s : State) : Host.Outcome State Fault Refusal :=
  .next { s with toDev := s.toDev.linkTrained speed width flit }

/-- BUS_MASTER_ENABLE_CHANGE. -/
def execBusMasterEnableChange (on : Bool) (s : State) : Host.Outcome State Fault Refusal :=
  .next { s with toDev := s.toDev.setBme on }

/-- MEMORY_SPACE_ENABLE_CHANGE. -/
def execMemorySpaceEnableChange (on : Bool) (s : State) : Host.Outcome State Fault Refusal :=
  .next { s with toDev := s.toDev.setMse on }

/-- MSIX_MASK_CHANGE. -/
def execMsixMaskChange (t : MaskTarget) (s : State) : Host.Outcome State Fault Refusal :=
  .next { s with toDev := s.toDev.setMask t }

/-- LTR_LEVEL_CHANGE. -/
def execLtrLevelChange (s : State) : Host.Outcome State Fault Refusal := .next { s with toDev := s.toDev.ltrChange }

/-- ASPM_L1_ENTRY. -/
def execAspmL1Entry (s : State) : Host.Outcome State Fault Refusal := .next { s with toDev := s.toDev.enterL1 }

/-- ASPM_L1_EXIT. -/
def execAspmL1Exit (s : State) : Host.Outcome State Fault Refusal := .next { s with toDev := s.toDev.exitL1 }

/-- D3HOT_ENTRY. -/
def execD3hotEntry (s : State) : Host.Outcome State Fault Refusal := .next { s with toDev := s.toDev.enterD3 }

/-- D0_RETURN. -/
def execD0Return (s : State) : Host.Outcome State Fault Refusal := .next { s with toDev := s.toDev.returnD0 }

end Sys2Proof.Machine
end

