-- ==== Sys2Proof/Machine/Assembly.lean ====
section
/-!
DEFINITION. Assembly of fields from labels (R59, R133, R154, R173), what a field takes up at a start (R136, R138, R139,
R176), and the import of a field into the Mortar Store.
-/

namespace Sys2Proof.Machine

/-! ## What the namespaces bring -/

/-- The current label of a namespace that was found (R73). -/
def Dev.labelOf (s : Dev) (n : NsFound) : Option Label := (s.currentLabel n.labels).map (·.label)

/-- The current label of a namespace when it names a field. -/
def Dev.fieldLabelOf (s : Dev) (uuid : Uid) (n : NsFound) : Option Label := (s.labelOf n).filter fun x => x.kind = 1 && x.uuid = uuid

/-- The labels of a field among the namespaces found (R59). -/
def Dev.fieldLabels (s : Dev) (uuid : Uid) (l : List NsFound) : List Label := l.filterMap (s.fieldLabelOf uuid)

/-- The label of highest FIELD_GEN. -/
def bestLabel : List Label → Option Label
  | [] => none
  | x :: l => match bestLabel l with
    | none => some x
    | some y => if y.gen ≤ x.gen then some x else some y

/-- The copies of the replica on a namespace whose MAC verifies under a field's secret (R133). -/
def replicaCopies (n : NsFound) (secret : Nat) (uuid : Uid) : List (Nat × Replica) :=
  (n.replicas.filter fun e => e.2.1.uuid = uuid && e.2.2 = macOf (labelKey uuid secret) (replicaBytes e.2.1 e.1)).map fun e => (e.1, e.2.1)

/-- The current copy of a namespace: of those that verify, the one of the higher REFRESH_SEQ (R133). -/
def currentCopy (n : NsFound) (secret : Nat) (uuid : Uid) : Option (Nat × Replica) :=
  (replicaCopies n secret uuid).foldl (fun best x => match best with
    | none => some x
    | some y => if y.2.refreshSeq < x.2.refreshSeq then some x else some y) none

/-- The replicas of a field on namespaces at positions 0 to 2, both copies of each, whose MAC verifies (R133, R139). -/
def Dev.fieldReplicas (s : Dev) (secret : Nat) (uuid : Uid) (l : List NsFound) : List Replica :=
  l.flatMap fun n => if (s.fieldLabelOf uuid n).any (·.position < 3) then (replicaCopies n secret uuid).map (·.2) else []

/-- The members at positions 0 to 2 whose current copy has a REFRESH_SEQ (R123). -/
def Dev.replicaHolders (s : Dev) (secret : Nat) (uuid : Uid) (seq : Nat) (l : List NsFound) : List Nat :=
  (l.filter fun n => (s.fieldLabelOf uuid n).any (·.position < 3) && (currentCopy n secret uuid).any (·.2.refreshSeq = seq)).filterMap
    fun n => (s.mpt.members.find? (·.uid = NsUid n)).map (·.id)

/-- The replica of highest REFRESH_SEQ. -/
def bestReplica : List Replica → Option Replica
  | [] => none
  | x :: l => match bestReplica l with
    | none => some x
    | some y => if y.refreshSeq ≤ x.refreshSeq then some x else some y

/-- The current progress block of a field: the highest PROGRESS_SEQ (R154). -/
def Dev.bestProgress (s : Dev) (uuid : Uid) (l : List NsFound) : Option (Nat × List TargetEntry) :=
  l.foldl (fun acc n => match s.fieldLabelOf uuid n, n.progress with
    | some _, some p => (match acc with
      | some a => if a.1 ≤ p.1 then some p else acc
      | none => some p)
    | _, _ => acc) none

/-- The lost-course list of a field: that of a member whose label has the given FIELD_GEN (R79). -/
def Dev.lostListOf (s : Dev) (uuid : Uid) (gen : Nat) (l : List NsFound) : List LostEntry :=
  ((l.find? fun n => (s.fieldLabelOf uuid n).any (·.gen = gen)).map (·.lost)).getD []

/-- The newest reshape checkpoint block of a field (R173). -/
def bestCheckpoint (uuid : Uid) (l : List NsFound) : Option RsRecord :=
  l.foldl (fun acc n => match n.checkpoint with
    | some r => if r.uuid ≠ uuid then acc else (match acc with
      | some a => if a.ckptSeq ≤ r.ckptSeq then some r else acc
      | none => some r)
    | none => acc) none

/-! ## Assembly (R59) -/

/-- A position of the member table as it is taken up: a listed member that is not found is MISSING; one that this chip has found FAILED or
MISSING itself stays so, and so does a vacant FAILED entry (R489). -/
def Dev.posOf (s : Dev) (e : MTabEntry) : MPos :=
  let x := if e.uid = 0 then none else s.mpt.members.find? (·.uid = e.uid)
  let st := match x with
    | some x => if x.state = 4 || x.state = 5 then x.state else e.state
    | none => if e.uid = 0 then e.state else 5
  ⟨e.uid, st, e.tagCapable, e.joinGen.toNat, x.map (·.id)⟩

/-- A rebuild target resumed from its progress entry (R154). -/
def Field.resumeTarget (f : Field) (t : TargetEntry) : Target :=
  let n := max 1 (f.coursesOf t.side)
  ⟨t.position, t.side, t.startCourse, t.nextCourse, t.nextCourse, [], (t.nextCourse + n - t.startCourse % n) % n, false, 0⟩

/-- A field that nothing is known of yet but its ID and FIELD_UUID. -/
def Dev.unknownField (s : Dev) (fid : Nat) (uuid : Uid) : Field :=
  { s.newField ⟨0, 0, []⟩ uuid with id := fid, homeIndex := none, owned := !s.twn.mode, assembled := false, homePos := false }

/-- COARSE_SHIFT of a field whose entry this chip does not have: that of its newest replica, or, with none, that of its capacity (R118,
R139, log entry 112). -/
def Field.spanFrom (f : Field) (rep : Option Replica) : Nat := (rep.map (·.coarseShift)).getD (coarseShiftOf f.fullCap)

/-- A field takes its geometry, its tables and its lists from its labels, and the parts that the configuration store and the
Mortar Store keep from before. A reshape record beside labels that show no reshape is left to be freed (R176). -/
def Dev.assembled (s : Dev) (old : Field) (secret : Nat) (b : Label) (found : List NsFound) : Field :=
  let members := (b.members.take b.width).map s.posOf
  let next := (b.nextMembers.take b.nextWidth).map s.posOf
  let known := if s.ownsEntry old.id then s.mst.reshapes.find? fun r => r.2.uuid = old.uuid else none
  let rec' := if b.nextWidth = 0 then none else (known.map (·.2)).or (bestCheckpoint old.uuid found)
  let rep := bestReplica (s.fieldReplicas secret old.uuid found)
  let prog := s.bestProgress old.uuid found
  let x : Field := { old with
    width := b.width
    brickShift := b.brickShift
    courses := b.courses
    tagged := b.tagged
    readOnly := b.readOnly
    gen := b.gen
    ownerPos := b.ownerPos
    members := members
    nextWidth := if rec'.isSome then b.nextWidth else 0
    nextMembers := if rec'.isSome then next else []
    lost := s.lostListOf old.uuid b.gen found
    progressSeq := (prog.map (·.1)).getD 0
    refreshSeq := (rep.map (·.refreshSeq)).getD 0
    repCoarse := (rep.map (·.coarse)).getD 0
    repFine := (rep.map (·.fine)).getD []
    repOn := (rep.map fun r => s.replicaHolders secret old.uuid r.refreshSeq found).getD []
    rs := rec'
    rsSlot := (known.map (·.1)).getD 16
    rsEnding := b.nextWidth = 0 && known.isSome
    rsRedo := (match rec' with | some r => !r.paused && !rsAtEnd r | none => false)
    recovering := true
    restoreWait := true
    assembled := true
    failedEngine := s.mor.lost
    scrubPos := old.scrubSaved
    scrubStart := s.tck.count }
  let x := { x with cap := x.fullCap, coarseShift := if old.coarseShift = 0 then x.spanFrom rep else old.coarseShift }
  { x with targets := ((prog.map (·.2)).getD []).filterMap fun t =>
      match x.rebuildEntry? t.position with
      | some e => if e.state = 3 && e.uid = t.uid then some (x.resumeTarget t) else none
      | none => none }

/-- The current replica copy of each namespace is noted with its member (R133). -/
def Dev.noteCopies (s : Dev) (secret : Nat) (uuid : Uid) (found : List NsFound) : Dev :=
  s.each found fun s n => match currentCopy n secret uuid, s.mpt.members.find? (·.uid = NsUid n) with
    | some x, some m => s.onMember m.id fun y => { y with repCur := some x.1 }
    | _, _ => s

/-- The namespaces of a field take their states and places from its tables (R58, R59). -/
def Dev.placeMembers (s : Dev) (f : Field) : Dev :=
  let s := s.each f.members.zipIdx fun s e =>
    match e.1.member with
    | some m => s.onMember m fun x => { x with state := e.1.state, field := some f.id, position := e.2 }
    | none => s
  s.each f.nextMembers.zipIdx fun s e =>
    match e.1.member with
    | some m => if f.members.any (·.member = some m) then s else
        s.onMember m fun x => { x with state := e.1.state, field := some f.id, position := e.2 }
    | none => s

/-- Assembles the field that the configuration store lists with a FIELD_UUID, an ID and a secret. A field of which no label
is found stays as it was. -/
def Dev.assembleOne (s : Dev) (found : List NsFound) (k : Uid × Nat × Nat) : Dev :=
  let old := ((s.fields.find? (·.uuid = k.1))).getD (s.unknownField k.2.1 k.1)
  match bestLabel (s.fieldLabels k.1 found) with
  | none => s
  | some b =>
    let f := s.assembled old k.2.2 b found
    let s := s.onFields fun l => insertBy (·.id) f (dropAll (·.uuid = k.1) l)
    (s.placeMembers f).noteCopies k.2.2 k.1 found

/-- Assembles every field that the configuration store lists (R59). -/
def Dev.assembleAll (s : Dev) (found : List NsFound) : Dev := s.each s.kst.secrets fun s k => s.assembleOne found k

/-! ## The resync set (R136) and imports (R139) -/

/-- The courses of one side whose first block lies in a range of LBAs. -/
def Field.coursesIn (f : Field) (g : Bool) (lo hi : Nat) : List (Nat × Bool) :=
  let n := f.courseBlocks g
  if n = 0 then []
  else
    let a := ceilDiv lo n
    let b := min (ceilDiv hi n) (f.coursesOf g)
    ((List.range (b - a)).map fun i => (a + i, g)).filter fun x => f.holds g x.1

/-- The courses of the OVERFLOW segments of a slot. -/
def Field.overflowCourses (f : Field) (x : Slot) : List (Nat × Bool) :=
  let base := f.regionStart x.fine x.region
  let next := if !x.fine && x.region = 15 then f.capacity else f.regionStart x.fine (x.region + 1)
  (bitsOf 64 x.overflow.toNat).flatMap fun n =>
    let lo := base + n * 2 ^ x.segShift
    let hi := if n = 63 then next else min next (lo + 2 ^ x.segShift)
    f.coursesIn false lo hi ++ (if f.rs.isSome then f.coursesIn true lo hi else [])

/-- Whether a course lies between the last checkpoint of a reshape and its headland, which the redo handles (R136). -/
def Field.leftToRedo (f : Field) (x : Nat × Bool) : Bool :=
  match f.rs with
  | some r => f.rsRedo && x.2 && (stepCourses r r.stepCourses).contains x.1
  | none => false

/-- The resync set of a field: LIST courses and OVERFLOW segments of its valid slots (R136). -/
def Dev.resyncSetOf (s : Dev) (f : Field) : List (Nat × Bool) :=
  let l := (s.mst.slots.filter (·.field = f.id)).flatMap fun x => x.list ++ f.overflowCourses x
  (l.foldl (fun acc x => addNew x acc) []).filter fun x => !f.leftToRedo x

/-- The regions with a set furrow bit that no valid slot names (R136, R138). -/
def Dev.orphanRegions (s : Dev) (f : Field) : List (Bool × Nat) :=
  (s.setRegions f.id).filter fun r => (s.slotOf? f.id r.1 r.2).isNone

/-- The lowest free home index, not for more than 128 fields (R121, R254). -/
def Dev.takeHome (s : Dev) (fid : Nat) : Dev :=
  match s.field? fid with
  | some f => if f.homeIndex.isSome then s else
      let h := s.cleanHome?
      s.onField fid fun f => { f with homeIndex := h }
  | none => s

/-- The reshape that an imported field takes from its checkpoint block gets a record of this chip's store; one that the store
still holds for the field, from a time when this chip owned it, goes first (R177). -/
def Dev.importReshape (s : Dev) (fid : Nat) : Dev :=
  match s.field? fid with
  | none => s
  | some f =>
    let s := s.each (s.mst.reshapes.filter (·.2.uuid = f.uuid)) fun s e => s.header (reshapeLine e.1) (.reshapeFree e.1)
    match s.field? fid with
    | some f => s.stepSlot f
    | none => s

/-- A field is imported into this chip's store from a member replica: its coarse bits, the coarse bits of its fine ones, or
every region when no copy qualifies; it is resynced whole (R138, R139): record 0x3034. -/
def Dev.importField (s : Dev) (fid : Nat) (rep : Option Replica) : Dev :=
  let s := ((s.importReshape fid).dropSlots fid).onField fid fun f => { f with homeIndex := none, fineShift := 0, fineBlocks := 0, fineUse := false, fineRelease := false }
  let s := (s.takeHome fid).onField fid fun f => { f with coarseShift := f.spanFrom rep }
  match s.field? fid with
  | none => s
  | some f =>
    let bits := match rep with
      | some r => bitsOf 16 r.coarse.toNat ++ r.fine.map fun n => f.coarseRegion (n * 2 ^ r.fineShift)
      | none => List.range f.coarseCount
    let regions := dedup bits
    let s := s.each regions fun s r => s.setBit 3 fid false r none none
    let s := s.commitEntry fid
    (s.markRegions fid (regions.map fun r => (false, r))).regionRecord 0x3034 fid (regions.map fun r => (false, r))

/-- The replica that an import takes: the highest REFRESH_SEQ whose FIELD_GEN equals the label's (R139). -/
def Dev.importReplica (s : Dev) (f : Field) (found : List NsFound) : Option Replica :=
  match s.secretOf f.uuid with
  | some k => bestReplica ((s.fieldReplicas k f.uuid found).filter fun r => r.gen = f.gen)
  | none => none

/-- Labels that a stop left behind, and those of a member that has none in the running format, are written again at the current
FIELD_GEN, or a member found MISSING makes a label change (R59, R74, R75, R176). -/
def Dev.repairLabels (s : Dev) (f : Field) (found : List NsFound) : Dev :=
  let genOf (m : Nat) : Option Nat := match s.member? m with
    | some x => (found.find? fun n => NsUid n = x.uid).bind fun n => (s.fieldLabelOf f.uuid n).map (·.gen)
    | none => none
  let other (m : Nat) : Bool := (s.member? m).any fun x => x.labelPlace.isNone
  let stale := f.liveMembers.filter fun m => genOf m ≠ some f.gen || other m
  let listed : List (BitVec 8) := match bestLabel (s.fieldLabels f.uuid found) with
    | some b => (b.members.take b.width).map (·.state)
    | none => f.members.map (·.state)
  if listed ≠ f.members.map (·.state) then s.changeLabel f.id .nothing
  else if stale = [] then s
  else (s.onField f.id fun x => { x with labelChanges := x.labelChanges ++ [⟨x.gen, stale.map fun m => (.label, m), .nothing⟩] }).each stale fun s m =>
    s.writeLabel f m

/-- Members whose reshape checkpoint block is older than the record get it again (R176). -/
def Dev.repairCheckpoint (s : Dev) (f : Field) (found : List NsFound) : Dev :=
  match f.rs with
  | none => s
  | some r =>
    let have' (m : Nat) : Bool := match s.member? m with
      | some x => found.any fun n => NsUid n = x.uid && (match n.checkpoint with | some c => c.ckptSeq = r.ckptSeq | none => r.ckptSeq = 0)
      | none => false
    if f.liveMembers.all have' then s else s.writeCheckpoint f.id

/-- A field whose owner is settled, and is this chip, takes up its resync: from its own store, or by import (R136, R139);
its labels and checkpoint blocks are made good. -/
def Dev.takeUp (s : Dev) (fid : Nat) : Dev :=
  let found := s.mpt.found
  match s.field? fid with
  | none => s
  | some f =>
    let s := s.onField fid fun f => { f with owned := true, ownerWait := false, seen := true }
    let s := if (s.entry? fid).any (fun e => e.uuid = f.uuid && e.owned) then
        let whole := s.mst.wholeFields.contains fid
        let set := if whole then [] else s.resyncSetOf f
        let marks := if whole then s.setRegions fid else s.orphanRegions f
        let s := (s.onField fid fun f => { f with resyncSet := set }).markRegions fid marks
        (s.when (set = []) fun s => s.dropSlots fid).when f.rsEnding fun s => s.freeReshape fid
      else s.importField fid (s.importReplica f found)
    match s.field? fid with
    | some f => (s.repairLabels f found).repairCheckpoint f found
    | none => s

end Sys2Proof.Machine
end

