-- ==== Sys2Proof/Machine/Limits.lean ====
section
/-!
DEFINITION. What bounds a configuration: the room of the line pool (R204), the dump time (R212, R222), and the
refusals of the parameters that they bind (R212, R219, R278).
-/

namespace Sys2Proof.Machine

/-- Whether a dump of a load takes longer than a hold-up time in ms: 0.15 s + 0.95 s × L ÷ 16 GiB (R222). -/
def dumpTooLong (l ms : Nat) : Bool := ms * (16 * gib) < 150 * (16 * gib) + 950 * l

/-- The CONFIG parameters as they would be with the entries of a PARAM_SET (R362). -/
def Dev.cfgWith (s : Dev) (l : List (Nat × Nat × Nat)) : Vector Nat cfgCount :=
  l.foldl (fun v e => match parOf e.1 with | some (_, .cfg p) => v.set (cfgIx p) e.2.2 | _ => v) s.cfgNext

/-- The parameters that a broken rule names, at CONFIG values that a set would give (R204, R212, R219, R278). A window size that
waits for its reset counts beside the one in force. -/
def Dev.refusedPars (s : Dev) (v : Vector Nat cfgCount) : List CfgP :=
  let cap := v[cfgIx .drmDirtyCap]
  let limit := v[cfgIx .winDumpLimit]
  let old := s.param .winDumpLimit
  let small := !s.configFits cap s.hif.barGib || !s.configFits cap v[cfgIx .hifWinBarGib]
  (if small then [CfgP.drmDirtyCap, .hifWinBarGib] else []) ++
  (if dumpTooLong cap v[cfgIx .vltHoldupMs] then [CfgP.drmDirtyCap, .vltHoldupMs] else []) ++
  (if cap < 2 * limit then [CfgP.winDumpLimit, .drmDirtyCap] else []) ++
  (if old < limit && cap < s.load - old + limit then [CfgP.winDumpLimit] else [])

/-- Whether the entry's parameter is one of a list. -/
def namesPar (l : List CfgP) (e : Nat × Nat × Nat) : Bool :=
  match parOf e.1 with
  | some (_, .cfg p) => l.contains p
  | _ => false

/-- The place of the first entry, in entry order, whose parameter a refusing rule names. -/
def Dev.refusedEntry (s : Dev) (l : List (Nat × Nat × Nat)) : Option Nat := l.findIdx? (namesPar (s.refusedPars (s.cfgWith l)))

/-! ## Values for the next tick boundary (R31) -/

/-- One entry of a PARAM_SET is set for the next tick boundary. -/
def Dev.stageOne (s : Dev) (e : Nat × Nat × Nat) : Dev :=
  match parOf e.1 with
  | some (_, .cfg p) => { s with cfgNext := s.cfgNext.set (cfgIx p) e.2.2 }
  | some (_, .domain) => s.onMpt fun m => { m with domainNext := m.domainNext.set e.2.1 e.2.2 }
  | some (_, .drain) => s.onDrm fun d => { d with drainNext := some e.2.2 }
  | some (_, .hodInv) => s.onHod fun h => { h with startNext := h.startNext || e.2.2 = 1 }
  | _ => s

/-- Every entry of a PARAM_SET is set for the next tick boundary. -/
def Dev.stage (s : Dev) (l : List (Nat × Nat × Nat)) : Dev := s.each l Dev.stageOne

/-- What is set for this tick boundary takes effect. HIF_WIN_BAR_GIB and TWN_MODE read their new value and act only at their
reset (R269, R278); a change of HOD_ENABLE, and a write of 1 to HOD_INVALIDATE, start invalidate all (R197). -/
def Dev.paramBoundary (s : Dev) : Dev :=
  let drop := s.hod.startNext || s.cfg[cfgIx .hodEnable] ≠ s.cfgNext[cfgIx .hodEnable]
  let s := { s with cfg := s.cfgNext }
  let s := s.onMpt fun m => { m with domainMap := m.domainNext }
  let drain (d : Drm) : Nat := match d.drainNext with
    | some 0 => 0
    | some _ => if d.drain = 0 then 1 else d.drain
    | none => d.drain
  let s := s.onDrm fun d => { d with drain := drain d, drainNext := none }
  (s.onHod fun h => { h with startNext := false }).when drop Dev.hodInvalidate

end Sys2Proof.Machine
end

