-- ==== Sys2Proof/Machine/TwinLink.lean ====
section
/-!
DEFINITION. The Twin Link: pair states (R251), the key agreement (R378, R379), flits and replays (R238, R239), alignment
(R38 to R40), the presence pulse (R237, R253), aborted handovers (R262), and fields that a chip gives up.
-/

namespace Sys2Proof.Machine

/-- The Twin Link engine as a record source (R270). -/
def Dev.srcTwin (s : Dev) : BitVec 16 := s.srcEngine 0xA0

/-- Whether the pair logic of the chip runs: TWN_MODE is 1, the boot ROM has run, and no freeze stops it (R236). -/
def Dev.twinUp (s : Dev) : Bool := s.twn.mode && s.kst.running && !s.sys.frozen

/-! ## Fields that this chip gives up -/

/-- The reshape record of a field that this chip gives up is freed, and its reshape has no record here any more. -/
def Dev.dropRecord (s : Dev) (fid : Nat) : Dev :=
  match s.field? fid with
  | none => s
  | some f =>
    let s := if f.rsSlot < 16 && (f.rs.isSome || f.rsPend.isSome || f.rsEnding) then
        s.header (reshapeLine f.rsSlot) (.reshapeFree f.rsSlot) else s
    s.onField fid fun f => { f with rsSlot := 16, rsPend := none, rsEnding := false }

/-- A field leaves this chip for its partner: its commands end with FIELD_NOT_READY, its jobs end, its lines go, and its
entry gets OWNED 0; its slots, bits and leases are freed by commits, and the hod is invalidated (R110, R197, R254 step 5, R263). -/
def Dev.dropField (s : Dev) (fid : Nat) : Dev :=
  let away := !s.twn.position
  let s := s.each (s.qs.cmds.filter fun c => c.e.fieldId.toNat = fid && c.stage ≠ .finished) fun s c => s.endCmd c.id stNotReady 0
  let s := s.each (s.cache.jobs.filter (·.field = fid)) fun s j => s.abortJob j.id
  let mine (c : MCmd) : Bool := c.issued.isNone && (c.purpose = .label fid || c.purpose = .replica fid || c.purpose = .progress fid ||
    c.purpose = .checkpoint fid || c.purpose = .lostList fid)
  let s := s.onMpt fun p => { p with cmds := dropAll mine p.cmds }
  let s := s.onCache fun k => { k with
    lines := dropAll (·.field = fid) k.lines, ctxs := dropAll (·.field = fid) k.ctxs }
  let s := (s.dropSlots fid).dropRecord fid
  let s := ((s.mbxWake (.label fid) mbInternal []).mbxWake (.reshape fid) mbInternal []).mbxWake (.offline fid) mbInternal []
  let s := s.onField fid fun f => { f with
    offlineReq := false, reread := none, rsRedo := false
    owned := false, ownerPos := away, recovering := true, ownerWait := false, seen := true, admitStop := false, fenceWait := false, takenOver := false
    labelChanges := [], labelHeld := [], resyncSet := [], lineSet := [], marked := [], resynced := [], resyncing := false, targets := []
    homeIndex := none, fineUse := false, fineBlocks := 0, fineShift := 0, fineRelease := false
    repFlight := none, repUrgent := false, repOn := [], unsealed := [], rsMembers := [], rsStage := .idle }
  let s := s.onTwn fun t => { t with
    partnerOwned := addNew fid t.partnerOwned, fenced := dropAll (· = fid) t.fenced, fenceGood := dropAll (· = fid) t.fenceGood
    returnLeft := dropAll (· = fid) t.returnLeft }
  ((s.commitEntry fid).bumpEpoch).hodInvalidate

/-! ## Lines between cache and mirror pool -/

/-- The mirrored lines of a field become committed lines and band lines of this chip (R254 step 3, R260 step 4). -/
def Dev.poolToCache (s : Dev) (fid : Nat) : Dev :=
  let l := s.twn.pool.filter (·.field = fid)
  let top := l.foldl (fun n x => max n (x.version + 1)) s.cache.nextVersion
  let s := s.onTwn fun t => { t with pool := dropAll (·.field = fid) t.pool }
  let s := s.onCache fun k => { k with nextVersion := max top k.nextVersion }
  s.each l fun s x => s.placeLine { x with mirrored := false, slot := none, pinned := false, cmd := 0 }

/-- The lines of a field become mirror lines of this chip (R260 step 4). -/
def Dev.cacheToPool (s : Dev) (fid : Nat) : Dev :=
  let l := s.cache.lines.filter fun x => x.field = fid && (x.st = .committed || x.st = .band)
  let s := s.onCache fun k => { k with
    lines := dropAll (·.field = fid) k.lines, ctxs := dropAll (·.field = fid) k.ctxs }
  s.onTwn fun t => { t with pool := t.pool ++ l }

/-! ## Aborted handovers (R262) -/

/-- A handover ends without its swap being complete: the old owner resumes the field, and the new owner gives it back when only
the link is lost; record 0x7021. A new owner whose partner is declared lost keeps the field, which it has taken up already, and
takes over one that it has not accepted yet (R254, R262). A request of host software that waits ends with NOT_ALLOWED. -/
def Dev.abortHandover (s : Dev) (h : Handover) (partnerLost : Bool) : Dev :=
  let f := h.field
  let keep := partnerLost && !h.toPartner && h.swapped
  let s := if keep then s else s.onTwn fun t => { t with handovers := dropAll (·.field = f) t.handovers }
  let s := s.onTwn fun t => { t with returnLeft := [] }
  if h.toPartner then
    let here := s.twn.position
    let s := if h.swapped then
        let s := ((s.poolToCache f).onField f fun x => { x with owned := true, ownerPos := here, recovering := false }).takeHome f
        (s.onTwn fun t => { t with partnerOwned := dropAll (· = f) t.partnerOwned }).commitEntry f
      else s
    let s := (s.onField f fun x => { x with admitStop := false }).pairRecord 0x7021 f
    (s.mbxWake (.handover [f] 0) mbNotAllowed (bytesLE 4 noDetail)).mbxWake (.handover [] 0) mbNotAllowed (bytesLE 4 noDetail)
  else if h.swapped && !partnerLost then s.dropField f
  else s

/-! ## Pair states (R251) -/

/-- What a chip without a live partner any more leaves behind: reads of the window go on, and nothing waits for an
acknowledgement. -/
def Dev.leavePartner (s : Dev) (partnerLost : Bool) : Dev :=
  let s := (s.serveWinReads (2 ^ 64)).onWin fun w => { w with unacked := [], unmirrored := [] }
  let s := s.onTwn fun t => { t with
    ckptSent := [], ckptDirty := [], releases := [], bulkLeft := [], bulkPages := [], bulkRecs := [], bandSent := [], poolOpen := [], poolHeld := []
    agreed := false, agreeSent := false, agreeGot := [], agreeFinal := false, helloOk := false, bulkSent := false, bulkGot := false
    reserved := [], epochsSent := [], helloGot := none, ckptOpen := false, syncing := none, syncAgreed := [] }
  let s := s.onTck fun t => { t with paired := false, follower := false, alignWarn := false, alignOffset := 0, pairOffset := 0 }
  let s := s.each s.twn.handovers fun s h => s.abortHandover h partnerLost
  let s := s.mbxWake .sync mbNotAllowed (bytesLE 4 noDetail)
  match [MbxPath.host, .mgmt].find? fun p => match s.mbx.run? p with
    | some r => (match r.wait with | .reserve _ => true | _ => false)
    | none => false with
  | some p => s.mbxRefuse p mbNotAllowed noDetail
  | none => s

/-- The pair state changes: record 0x7001 and the twin event. -/
def Dev.setPair (s : Dev) (new : Nat) : Dev :=
  let old := s.twn.state.toNat
  if old = new then s
  else
    let s := s.onTwn fun t => { t with state := BitVec.ofNat 8 new }
    let s := s.recordEvent 0x7001 s.srcTwin (old + new * 256) 0 0 4
    if new = 2 || new = 3 then s else s.leavePartner (new = 5)

/-- Whether a pulse arrived in one of the last three ticks, this one counted (R252). -/
def Twn.pulses (t : Twn) : Bool := t.pulseThis || t.pulseMissed < 2

/-- A session ends, or the link goes down: no frame is taken any more. A chip that is SYNCING or SYNCED leaves its state to the
two-path rule; one that is pairing becomes UNPAIRED while pulses come (R241, R251). -/
def Dev.endSession (s : Dev) : Dev :=
  let s := s.onTwn fun t => { t with
    session := none, offerSent := false, offerGot := false, poolOpen := [], poolHeld := [], ckptOpen := false, helloOk := false, helloGot := none }
  if s.twn.state = 1 && s.twn.pulses then s.setPair 4 else s

/-- A frame of the partner: it needs a session, and its nonce is the partner's position and the count of frames received; a frame
that fails its tag ends the session (R241). -/
def Dev.frame (s : Dev) (ok : Bool) (f : Dev → Dev) : Dev :=
  if !s.twinUp || s.twn.session.isNone then s
  else if ok then f (s.onLnk fun k => { k with rxFrames := k.rxFrames + 1 })
  else s.endSession

/-! ## Training and key agreement -/

/-- This chip's OFFER, with a fresh nonce and the public key of a fresh ephemeral one (R378). -/
def Dev.newOffer (s : Dev) (priv : Nat) : Offer where
  serial := Config.serial
  twinPos := s.twn.position
  nonce := BitVec.ofNat 256 s.free
  ephPub := Config.ecdhPublic priv
  ownerDigest := s.kst.ownerKeys
  chains := ownChains

/-- TWIN_LINK_TRAINED: the link comes up at a width and a key agreement begins (R378); a training that has dropped lanes writes
record 0x7041 (R239). -/
def Dev.twinTrained (s : Dev) (width : Nat) : Dev :=
  if !s.twinUp || (width ≠ 4 && width ≠ 8 && width ≠ 16) then s
  else
    let now := s.tck.count
    let s := if s.twn.session.isSome then s.endSession else s
    let s := s.onTwn fun t => { t with
      linkUp := true, width := width, offerSent := true, offerGot := false, agreeSince := now, rxSeq := 0, replayTries := 0, rxTries := 0
      replaySeq := none }
    let dropped := width < s.lnk.lastWidth
    let priv := s.free
    let s := s.drew
    let o := s.newOffer priv
    let s := s.drew.onLnk fun k => { k with
      txSeq := 0, kept := [], credit := 0, lastWidth := width, ephKey := priv, ownOffer := some o, theirOffer := none }
    let s := s.when dropped fun s => s.record 0x7041 s.srcTwin 0 0 0
    s.sendAgreement (.keyOffer o)

/-- TWIN_LINK_LOST: the link goes down. -/
def Dev.twinLost (s : Dev) : Dev :=
  if !s.twinUp || !s.twn.linkUp then s
  else (s.onTwn fun t => { t with linkUp := false, width := 0 }).endSession

/-- This Keystone refuses the session: REFUSE, record 0x8030, the security event, and the pair state UNPAIRED (R379). -/
def Dev.refusePair (s : Dev) (r : RefuseReason) : Dev :=
  let s := s.onTwn fun t => { t with offerSent := false, offerGot := false }
  ((s.sendAgreement (.keyRefuse r)).recordKstEvent 0x8030 (refuseCode r) 0 9).setPair 4

/-- Whether an agreement runs. -/
def Dev.agreeing (s : Dev) : Bool := s.twinUp && s.twn.linkUp && s.twn.session.isNone && s.twn.offerSent

/-- The PROOF of the identity keys over the transcript. -/
def Dev.proofOf (s : Dev) (theirs : Offer) : TwinTx :=
  let t := ((s.lnk.ownOffer.map fun o => transcript o theirs).getD 0).toNat
  .keyProof (signEcdsa t 48) (signMldsa t 48)

/-- OFFER: the partner's chains and its owner are checked, and a PROOF answers. -/
def Dev.offerIn (s : Dev) (o : Offer) (chainsOk : Bool) : Dev :=
  if !s.agreeing || s.twn.offerGot then s
  else if !chainsOk then s.refusePair .chain
  else if o.ownerDigest ≠ s.kst.ownerKeys then s.refusePair .ownerMismatch
  else ((s.onTwn fun t => { t with offerGot := true }).onLnk fun k => { k with theirOffer := some o }).sendAgreement (s.proofOf o)

/-- The Twin Link protocol version of the running image (R404). -/
def Dev.twnVersion (s : Dev) : Nat :=
  ((s.runningImage.comp? 2).map (·.twnVersion)).getD 0

/-- The fields that the chip owns. -/
def Dev.ownIds (s : Dev) : List Nat := (s.fields.filter (·.owned)).map (·.id)

/-- This chip's PAIR_HELLO (R366). -/
def Dev.hello (s : Dev) : PairHello where
  twnVersion := s.twnVersion
  twinPos := s.twn.position
  serial := Config.serial
  bootCount := s.mst.bootCount.toNat
  dirtyCap := s.param .drmDirtyCap
  winDumpLimit := s.param .winDumpLimit
  poolBytes := mirrorPool (s.param .drmDirtyCap)
  fieldsOwned := s.ownIds.length
  ticks := s.tck.count
  gapCycles := 0

/-- The session key and the transfer key of the running agreement. -/
def Dev.agreedKeys (s : Dev) : Nat × Nat :=
  match s.lnk.ownOffer, s.lnk.theirOffer with
  | some mine, some theirs => sessionKeys s.lnk.ephKey mine theirs
  | _, _ => (0, 0)

/-- PROOF: with both signatures valid the session exists, and PAIR_HELLO is sent once S3 has ended (R450); else this Keystone
refuses it. -/
def Dev.proofIn (s : Dev) (sigsOk : Bool) : Dev :=
  if !s.agreeing || !s.twn.offerGot then s
  else if !sigsOk then s.refusePair .signature
  else
    let k := s.agreedKeys
    let s := s.onTwn fun t => { t with
      session := some k.1, sessions := t.sessions + 1, offerSent := false, hbMissed := 0, hbThis := false, partnerDump := false
      mirrorSeq := 0, mirrorAcked := 0, mirrorGot := 0, ckptSeq := 0, ckptAcked := 0, ckptGot := 0, poolOpen := [], poolHeld := []
      partnerHold := false, agreeSent := false, agreeGot := [], agreeFinal := false, helloOk := false, helloGot := none, epochsSent := [], theirChanges := 0 }
    let s := s.onLnk fun x => { x with txFrames := 0, rxFrames := 0, transfer := k.2 }
    if s.mpt.enumerated then s.sendFrame (.hello s.hello) else s

/-- REFUSE: the partner refuses the session. -/
def Dev.refuseIn (s : Dev) : Dev :=
  if !s.twinUp || !s.twn.linkUp || s.twn.session.isSome then s
  else (s.onTwn fun t => { t with offerSent := false, offerGot := false }).setPair 4

/-- KEY_AGREEMENT_TIMEOUT: the exchange has not ended within 2¹⁸ ticks. -/
def Dev.agreeTimeout (s : Dev) : Dev :=
  if s.agreeing && s.twn.agreeSince.toNat + 2 ^ 18 ≤ s.now then s.refusePair .timeout else s

/-! ## Flits -/

/-- Three replays of one flit have not helped: the link retrains, record 0x7040 (R239). -/
def Dev.retrain (s : Dev) : Dev :=
  let s := (s.record 0x7040 s.srcTwin 0 0 0).emit (.twin .retrain)
  (s.onTwn fun t => { t with linkUp := false, width := 0, replaySeq := none, replayTries := 0, rxTries := 0 }).endSession

/-- FLIT_RECEIVED: a flit that fails its CRC asks for a replay, and after three of them retrains the link. A flit of the number
awaited returns its credits and, unless it is idle, advances the sequence. DESIGN CHOICE: an invalid KIND counts as a failed flit,
and an idle flit bears the number of the next one that is not (log entry 106). -/
def Dev.flitIn (s : Dev) (seq : BitVec 12) (kind : BitVec 4) (credit : BitVec 16) (crcOk : Bool) : Dev :=
  if !s.twinUp || !s.twn.linkUp then s
  else if !crcOk || 3 < kind.toNat then
    if 3 ≤ s.twn.rxTries then s.retrain
    else (s.onTwn fun t => { t with rxTries := t.rxTries + 1 }).sendFlit (.replay s.twn.rxSeq)
  else if seq ≠ s.twn.rxSeq then s
  else
    let s := s.onLnk fun k => { k with credit := k.credit + credit.toNat }
    if kind = 0 then s else s.onTwn fun t => { t with rxSeq := t.rxSeq + 1, rxTries := 0 }

/-- REPLAY_REQUEST: the flits from the named one on are sent again, as far as they are among the 1,024 kept; the fourth request
for one flit retrains the link. -/
def Dev.replayIn (s : Dev) (seq : BitVec 12) : Dev :=
  if !s.twinUp || !s.twn.linkUp then s
  else
    let n := if s.twn.replaySeq = some seq then s.twn.replayTries + 1 else 1
    let s := s.onTwn fun t => { t with replaySeq := some seq, replayTries := n }
    if 3 < n then s.retrain
    else if s.lnk.kept.any (·.1 = seq) then (s.count .twnFlitReplays).emit (.twin (.resend seq))
    else s

/-! ## Alignment (R38 to R40) -/

/-- The cycles of a realignment gap for an offset in ns: the follower's boundary comes onto the master's next one. -/
def realignCycles (o : Int) : Nat := if 0 < o then 1024 - (o.toNat + 1) / 2 else (-o).toNat / 2

/-- ALIGNMENT_MARKER: the follower takes its offset. -/
def Dev.markerIn (s : Dev) (o : Int) : Dev :=
  if !s.twinUp || !s.twn.linkUp || !s.tck.paired || !s.tck.follower then s
  else
    let big := 8 < o || o < -8
    let far := 128 < o || o < -128
    let s := s.when (big && !s.tck.alignWarn) fun s => s.record 0x0103 (s.srcEngine 0xF0) 0 0 0
    let s := s.onTck fun t => { t with alignOffset := BitVec.ofInt 16 o, alignWarn := big }
    if !far then s
    else
      let step : BitVec 64 := if 0 < o then 1 else 0
      let s := s.onTck fun t => { t with
        gapNext := dropAll (fun g : GapKind × Nat => g.1 = .realign) t.gapNext ++ [(.realign, realignCycles o % 1024)], realignCount := bump32 t.realignCount, alignFault := true
        pairOffset := t.pairOffset + step }
      s.record 0x0104 (s.srcEngine 0xF0) 0 0 0

/-! ## The presence pulse -/

/-- TWIN_ALIVE_PULSE: a rising edge on TWIN_ALIVE_IN; the fault flag clears. -/
def Dev.pulseIn (s : Dev) : Dev :=
  if s.twinUp then s.onTwn fun t => { t with pulseThis := true, aliveFault := false } else s

/-- TWN_ALIVE_FAULT: heartbeats arrive while three consecutive pulses have been missed: record 0x7005. -/
def Dev.aliveFaultIn (s : Dev) : Dev :=
  if s.twinUp && s.partner && s.twn.hbMissed = 0 && !s.twn.pulses && !s.twn.aliveFault then
    (s.onTwn fun t => { t with aliveFault := true }).record 0x7005 s.srcTwin 0 0 0
  else s

/-! ## Commands -/

/-- TWIN_LINK_TRAINED. -/
def execTwinLinkTrained (width : Nat) (s : State) : Host.Outcome State Fault Refusal :=
  .next { s with toDev := s.toDev.twinTrained width }

/-- TWIN_LINK_LOST. -/
def execTwinLinkLost (s : State) : Host.Outcome State Fault Refusal := .next { s with toDev := s.toDev.twinLost }

/-- OFFER. -/
def execOffer (serial : BitVec 64) (twinPos : Bool) (nonce : BitVec 256) (ownerDigest : Digest) (creds : OfferCreds) (s : State) :
    Host.Outcome State Fault Refusal :=
  .next { s with toDev := s.toDev.offerIn ⟨serial, twinPos, nonce, creds.ephPub, ownerDigest, creds.chains⟩ creds.chainsOk }

/-- PROOF. -/
def execProof (sigsOk : Bool) (s : State) : Host.Outcome State Fault Refusal := .next { s with toDev := s.toDev.proofIn sigsOk }

/-- REFUSE. -/
def execRefuse (_r : RefuseReason) (s : State) : Host.Outcome State Fault Refusal := .next { s with toDev := s.toDev.refuseIn }

/-- KEY_AGREEMENT_TIMEOUT. -/
def execKeyAgreementTimeout (s : State) : Host.Outcome State Fault Refusal := .next { s with toDev := s.toDev.agreeTimeout }

/-- FLIT_RECEIVED. -/
def execFlitReceived (seq : BitVec 12) (kind : BitVec 4) (credit : BitVec 16) (crcOk : Bool) (s : State) :
    Host.Outcome State Fault Refusal :=
  .next { s with toDev := s.toDev.flitIn seq kind credit crcOk }

/-- REPLAY_REQUEST. -/
def execReplayRequest (seq : BitVec 12) (s : State) : Host.Outcome State Fault Refusal :=
  .next { s with toDev := s.toDev.replayIn seq }

/-- ALIGNMENT_MARKER. -/
def execAlignmentMarker (offsetNs : Int) (s : State) : Host.Outcome State Fault Refusal :=
  .next { s with toDev := s.toDev.markerIn offsetNs }

/-- TWIN_ALIVE_PULSE. -/
def execTwinAlivePulse (s : State) : Host.Outcome State Fault Refusal := .next { s with toDev := s.toDev.pulseIn }

/-- TWN_ALIVE_FAULT. -/
def execTwnAliveFault (s : State) : Host.Outcome State Fault Refusal := .next { s with toDev := s.toDev.aliveFaultIn }

end Sys2Proof.Machine
end

