-- ==== Sys2Proof/Machine/TwinMirror.lean ====
section
/-!
DEFINITION. Mirroring: what a Mirror phase sends (R243 to R246, R249, R266, R433), what the partner's frames bring (R243,
R245 to R250, R266), and heartbeats missed (R243, R252).
-/

namespace Sys2Proof.Machine

/-! ## Line frames of this chip (R245) -/

/-- Whether a write waits for its final line frame. -/
def Dev.finalDue (s : Dev) (c : Cmd) : Bool :=
  c.op.isWrite && c.arrived && c.mirrorSeq.isNone && !c.acked && !c.durable && c.stage = .running &&
  !(s.linesOfCmd c.id).any (·.lostWait)

/-- The final line frame of a write goes out with the next MIRROR_SEQ. A write of which no line is left in the cache has landed
already and needs none. -/
def Dev.sendFinal (s : Dev) (id : Nat) : Dev :=
  match (s.linesOfCmd id).getLast? with
  | none => s.onCmd id fun c => { c with acked := true }
  | some l =>
    let n := s.twn.mirrorSeq + 1
    let one := (s.linesOfCmd id).length = 1
    let s := s.onTwn fun t => { t with mirrorSeq := n }
    (s.onCmd id fun c => { c with mirrorSeq := some n.toNat }).sendFrame (.line (lineFrame l one true n.toNat))

/-- The final line frames of a Mirror phase. -/
def Dev.sendFinals (s : Dev) : Dev := s.each (s.qs.cmds.filter s.finalDue) fun s c => s.sendFinal c.id

/-- The CMD_REF under which a field's band travels: the last command slot with a reuse count of its own. -/
def bandRef (f : Nat) : Nat := 2 ^ 14 - 1 + (2 ^ 18 - 1 - f) * 2 ^ 14

/-- The band lines of a reshape step that the partner does not hold go out like the lines of one command (R169, R244). -/
def Dev.sendBand (s : Dev) (f : Nat) : Dev :=
  let l := s.cache.lines.filter fun x => x.field = f && x.st = .band && !x.mirrored
  if l = [] || s.twn.bandSent.any (·.1 = f) then s
  else
    let n := s.twn.mirrorSeq + 1
    let s := s.onTwn fun t => { t with mirrorSeq := n, bandSent := t.bandSent ++ [(f, n.toNat)] }
    s.each l.zipIdx fun s e =>
      let fin := e.2 + 1 = l.length
      s.sendFrame (.line (lineFrame { e.1 with cmd := bandRef f } (e.2 = 0) fin (if fin then n.toNat else 0)))

/-- Whether a MIRROR_SEQ is at or below an acknowledgement, both modulo 2³². -/
def seqAcked (ack : BitVec 32) (n : Nat) : Bool := (ack - BitVec.ofNat 32 n).toNat < 2 ^ 31

/-- Commands and bands up to MIRROR_ACK are acknowledged, and the partner holds their lines (R18, R245). -/
def Dev.mirrorAck (s : Dev) (ack : BitVec 32) : Dev :=
  let done (c : Cmd) : Bool := match c.mirrorSeq with
    | some n => seqAcked ack n
    | none => false
  let ids := (s.qs.cmds.filter done).map (·.id)
  let bands := (s.twn.bandSent.filter fun b => seqAcked ack b.2).map (·.1)
  let s := s.onQs fun q => { q with cmds := modAll done (fun c => { c with acked := true }) q.cmds }
  let held (l : Line) : Bool := (l.st ≠ .band && ids.contains l.cmd) || (l.st = .band && bands.contains l.field)
  let s := s.onCache fun k => { k with lines := modAll held (fun l => { l with mirrored := true }) k.lines }
  s.onTwn fun t => { t with mirrorAcked := ack, bandSent := t.bandSent.filter fun b => !seqAcked ack b.2 }

/-! ## The checkpoint (R135, R173, R244) -/

/-- A reshape record that is free. -/
def freeRecord (f : Nat) : RsRecord where
  kind := 0
  fieldId := f
  bandValid := false
  paused := false
  stepCourses := 0
  ckptSeq := 0
  headland := 0
  bandLba := 0
  bandBlocks := 0
  uuid := 0
  oldWidth := 0
  newWidth := 0
  copyPos := 0
  oldCourses := 0
  newCourses := 0
  startGen := 0

/-- The lines of a field's fine blocks: line number, and the set bits of the line. -/
def Dev.fineLines (s : Dev) (f : Nat) : List (Nat × CkptLine) :=
  (s.mst.leases.filter (·.2.1 = f)).flatMap fun e => (List.range 8).map fun k =>
    let part := 8 * e.2.2 + k
    (2320 + 8 * e.1 + k, .fine f part ((s.fineSetOf f).filter fun b => b / 512 = part))

/-- The store lines of a field that a checkpoint carries, with their line numbers. -/
def Dev.ckptLines (s : Dev) (f : Nat) : List (Nat × CkptLine) :=
  match s.field? f with
  | none => [(entryLine f, .fieldEntry f 0 false 0 0 0)]
  | some x =>
    let rec' := s.mst.reshapes.find? fun r => r.2.fieldId = f
    [(entryLine f, .fieldEntry f x.uuid true x.coarseShift x.fineShift x.fineBlocks), (coarseLine f, .coarse f (s.coarseMap f))] ++
    s.fineLines f ++ [(reshapeLine ((rec'.map (·.1)).getD x.rsSlot), .reshape ((rec'.map (·.2)).getD (freeRecord f)))]

/-- Whether a field's lines belong to this chip's checkpoint: it owns the field, or the field has just been deleted. -/
def Dev.ckptMine (s : Dev) (f : Nat) : Bool :=
  match s.field? f with
  | some x => x.owned
  | none => !s.twn.partnerOwned.contains f

/-- The checkpoint of a Mirror phase: every line changed since the last one that the partner acknowledged. A stale result of
task 0x05 leaves the previous checkpoint in force (R36). -/
def Dev.sendCkpt (s : Dev) : Dev :=
  if s.tasks.ckptStale then s
  else
    let n := s.twn.ckptSeq + 1
    let fresh := s.twn.ckptDirty.filter s.ckptMine
    let new := fresh.map fun f => (n.toNat, f, s.coarseMap f, s.fineSetOf f)
    let s := s.onTwn fun t => { t with ckptSeq := n, ckptDirty := [], ckptSent := t.ckptSent ++ new }
    let lines := (dedup (s.twn.ckptSent.map (·.2.1))).flatMap s.ckptLines
    s.each lines.zipIdx fun s e => s.sendFrame (.ckpt e.1.1 e.1.2 (e.2 + 1 = lines.length))

/-- CKPT_ACK: checkpoints up to it are acknowledged, their bits count for R123, and window pages sent with them are mirrored. -/
def Dev.ckptAck (s : Dev) (ack : BitVec 64) : Dev :=
  let done := s.twn.ckptSent.filter fun e => e.1 ≤ ack.toNat
  let s := s.each done fun s e => s.onField e.2.1 fun f => { f with ckptAckedCoarse := e.2.2.1, ckptAckedFine := e.2.2.2 }
  let s := s.onTwn fun t => { t with ckptAcked := ack, ckptSent := t.ckptSent.filter fun e => ack.toNat < e.1 }
  let s := s.onWin fun w => { w with unacked := w.unacked.filter fun p => ack.toNat < p.2 }
  s.serveWinReads ack.toNat

/-! ## Window pages (R249) -/

/-- A window page as a block. -/
def Dev.windowPage (s : Dev) (n : Nat) : Block := BitVec.ofNat 32768 (fromLE (memRead (4096 * n) 4096 s.win.mem))

/-- Window pages below WIN_DUMP_LIMIT that changed go out with the next checkpoint. -/
def Dev.sendPages (s : Dev) : Dev :=
  let l := s.win.unmirrored
  let n := s.twn.ckptSeq.toNat + 1
  let s := s.onWin fun w => { w with unmirrored := [], unacked := w.unacked ++ l.map fun p => (p, n) }
  s.each l fun s p => s.sendFrame (.windowPage p (s.windowPage p))

/-! ## The bulk copy (R266) -/

/-- The bytes of link payload that the bulk copy may use in a tick: TWN_REJOIN_SHARE of 15,360 bytes per lane. -/
def Dev.bulkBudget (s : Dev) : Nat := 15360 * s.twn.width * s.param .twnRejoinShare / 1000

/-- The lines of a block that the bulk copy carries: the newest committed version, and a band line. -/
def Dev.bulkLines (s : Dev) (f lba : Nat) : List Line :=
  let l := s.versions f lba
  (newestOf (l.filter fun x => x.st = .committed)).toList ++ l.filter fun x => x.st = .band

/-- One block of the bulk copy. -/
def Dev.sendBulkAt (s : Dev) (f lba : Nat) : Dev :=
  let l := s.bulkLines f lba
  let mark (x : Line) : Bool := x.field = f && x.lba = lba && (x.st = .committed || x.st = .band)
  let s := s.each l fun s x => s.sendFrame (.bulk (lineFrame x false false 0))
  let s := s.onCache fun k => { k with lines := modAll mark (fun x => { x with mirrored := true }) k.lines }
  (s.countN .twnBulkBytes (4160 * l.length)).onTwn fun t => { t with bulkCount := (t.bulkCount.1 + l.length, t.bulkCount.2) }

/-- SYNCED once both directions have ended; with TWN_AUTO_RETURN the partner's home fields are handed back (R251, R268). -/
def Dev.trySynced (s : Dev) : Dev :=
  if s.twn.state = 2 && s.twn.bulkSent && s.twn.bulkGot then
    let s := s.setPair 3
    let home := (s.fields.filter fun f => f.owned && f.homePos ≠ s.twn.position).map (·.id)
    if s.param .twnAutoReturn = 1 then s.onTwn fun t => { t with returnLeft := home } else s
  else s

/-- The bulk copy of one Mirror phase: lines, then window pages, then ring records; BULK_DONE ends it. -/
def Dev.sendBulk (s : Dev) : Dev :=
  let n := s.bulkBudget / 4160
  let lines := s.twn.bulkLeft.take n
  let s := s.onTwn fun t => { t with bulkLeft := t.bulkLeft.drop n }
  let s := s.each lines fun s e => s.sendBulkAt e.1 e.2
  let pages := s.twn.bulkPages.take (n - lines.length)
  let s := s.onTwn fun t => { t with
    bulkPages := t.bulkPages.drop (n - lines.length), bulkCount := (t.bulkCount.1, t.bulkCount.2 + pages.length) }
  let s := (s.each pages fun s p => s.sendFrame (.windowPage p (s.windowPage p))).countN .twnBulkBytes (4128 * pages.length)
  let recs := s.twn.bulkRecs.take ((n - lines.length - pages.length) * 65)
  let s := s.onTwn fun t => { t with bulkRecs := t.bulkRecs.drop ((n - lines.length - pages.length) * 65) }
  let s := s.each recs fun s r => s.sendFrame (.record r)
  if s.twn.bulkLeft = [] && s.twn.bulkPages = [] && !s.twn.bulkSent then
    let s := s.sendFrame (.bulkDone s.twn.bulkCount.1 s.twn.bulkCount.2)
    (s.onTwn fun t => { t with bulkSent := true }).trySynced
  else s

/-! ## Field Book records (R433) -/

/-- The record of a source with a sequence number, as it stands now. -/
def Dev.recordOf (s : Dev) (src : BitVec 16) (seq : BitVec 32) : Option FbRec :=
  (s.fbk.fifo ++ s.fbk.ring ++ s.fbk.lastWord).find? fun r => r.src = src && r.seq = seq

/-- Records written or folded since the previous Mirror phase go to the partner. -/
def Dev.sendRecords (s : Dev) : Dev :=
  let l := s.fbk.changed
  let s := s.onFbk fun k => { k with changed := [] }
  if !s.partner then s
  else s.each l fun s e => match s.recordOf e.1 e.2 with
    | some r => s.sendFrame (.record r)
    | none => s

/-! ## Releases (R246) -/

/-- Whether the guard of a course is removed: no slot names it any more. -/
def Dev.unguarded (s : Dev) (f c : Nat) (g : Bool) : Bool :=
  match s.field? f with
  | none => true
  | some x => !s.mst.slots.any fun sl => sl.field = f &&
      (sl.list.contains (c, g) || (sl.overflow ≠ 0 && (x.region g c).2 = sl.region && sl.overflow.getLsbD (x.segment sl g c)))

/-- RELEASE frames for destaged lines whose guard has been removed. -/
def Dev.sendReleases (s : Dev) : Dev :=
  let due (e : Nat × Nat × Nat × Nat × Bool) : Bool := s.unguarded e.1 e.2.2.2.1 e.2.2.2.2
  let l := s.twn.releases.filter due
  (s.onTwn fun t => { t with releases := t.releases.filter fun e => !due e }).each l fun s e =>
    s.sendFrame (.release e.1 e.2.1 1 e.2.2.1)

/-! ## Handovers in a Mirror phase (R260) -/

/-- COARSE_SHIFT and FINE_SHIFT of a field as the partner's checkpoints brought them. -/
def Dev.partnerShifts (s : Dev) (f : Nat) : Nat × Nat :=
  (s.mst.partnerLines.findSome? fun l => match l with
    | .fieldEntry i _ _ cs fs _ => if i = f then some (cs, fs) else none
    | _ => none).getD (((s.field? f).map (·.coarseShift)).getD 0, 0)

/-- A taken or handed-over field gets its coarse bits from the replica that the partner's checkpoints brought: each coarse bit,
and for each fine bit the coarse bit of its region (R254, R260). -/
def Dev.replicaBits (s : Dev) (f : Field) : List Nat :=
  let shift := (s.partnerShifts f.id).2
  let f := { f with coarseShift := (s.partnerShifts f.id).1 }
  let bits := s.mst.partnerLines.flatMap fun l => match l with
    | .coarse i m => if i = f.id then bitsOf 16 m.toNat else []
    | .fine i _ b => if i = f.id then b.map fun n => f.coarseRegion (n * 2 ^ shift) else []
    | _ => []
  dedup bits

/-- The reshape record of a field as the partner's checkpoints brought it. -/
def Dev.replicaRecord? (s : Dev) (f : Nat) : Option RsRecord :=
  s.mst.partnerLines.findSome? fun l => match l with
    | .reshape r => if r.fieldId = f && r.kind ≠ 0 then some r else none
    | _ => none

/-- The partner's reshape record of a field takes a free slot; without one the reshape stays paused and its band pinned. A takeover
redoes the step that the partner may have begun (R176); a handover comes between steps (R260). -/
def Dev.takeRecord (s : Dev) (fid : Nat) (redo : Bool) : Dev :=
  match s.replicaRecord? fid with
  | none => s.onField fid fun f => { f with rs := none, rsStage := .idle, rsSlot := 16, rsRedo := false }
  | some r =>
    let slot := s.freeRecord?
    let s := s.onField fid fun f => { f with
      rs := some r, rsStage := .idle, rsSlot := slot.getD 16, rsRedo := redo && !r.paused && !rsAtEnd r }
    match slot with
    | some n => s.header (reshapeLine n) (.reshapeRec n r)
    | none => s.onCache fun k => { k with
        lines := modAll (fun l => l.field = fid && l.st = .band) (fun l => { l with pinned := true }) k.lines }

/-- This chip becomes the owner of a field of its partner: entry, home index, coarse bits, reshape record, key slot and mirrored
lines; the hod is invalidated (R197, R254, R260). -/
def Dev.takeField (s : Dev) (fid : Nat) (redo : Bool) : Dev :=
  match s.field? fid with
  | none => s
  | some f =>
    let pos := s.twn.position
    let k := s.secretOf f.uuid
    let shift := (s.partnerShifts fid).1
    let s := s.onField fid fun f => { f with
      coarseShift := shift
      owned := true, ownerPos := pos, recovering := true, ownerWait := false, seen := true, admitStop := false
      fineShift := 0, fineBlocks := 0, fineUse := false, resyncSet := [] }
    let s := s.takeHome fid
    let s := s.each (s.replicaBits f) fun s r => s.setBit 1 fid false r none none
    let s := (s.commitEntry fid).takeRecord fid redo
    let s := match k with
      | some k => s.onKst fun x => { x with keySlots := put fid (fieldKeys f.uuid k) x.keySlots }
      | none => s
    let s := s.onTwn fun t => { t with partnerOwned := dropAll (· = fid) t.partnerOwned }
    let mine (l : CkptLine) : Bool := match l with
      | .fieldEntry i _ _ _ _ _ => i = fid
      | .coarse i _ => i = fid
      | .fine i _ _ => i = fid
      | .reshape r => r.fieldId = fid
    let s := s.onMst fun m => { m with partnerLines := dropAll mine m.partnerLines }
    ((s.poolToCache fid).bumpEpoch).hodInvalidate

/-- The label regions of every member that receives commands are read anew (R59). -/
def Dev.readRegions (s : Dev) : Dev :=
  s.each (s.mpt.members.filter fun x => x.state ≠ 4 && x.state ≠ 5) fun s x =>
    s.memberCmd x.id .read 0 16384 .none false false false .adopt

/-- A field whose labels are read before anything else is done with it. -/
def Dev.startReread (s : Dev) (fid : Nat) (what : RereadFor) : Dev :=
  let now := s.tck.count
  s.onField fid fun f => { f with reread := some ⟨now, what⟩ }

/-- The new owner answers an offer in its Mirror phase: with HANDOVER_ACCEPT the field is its own, a field without home index is
resynced whole, and its labels are read for the label change that follows (R59, R138, R260). -/
def Dev.acceptOffer (s : Dev) (h : Handover) : Dev :=
  let f := h.field
  let bits := match s.field? f with
    | some x => s.replicaBits x
    | none => []
  let s := (s.sendFrame (.accept f true)).takeField f false
  let s := s.onTwn fun t => { t with handovers := modAll (·.field = f) (fun h => { h with offered := false, swapped := true }) t.handovers }
  let noHome := match s.field? f with
    | some x => x.homeIndex.isNone
    | none => false
  let s := if noHome then s.markRegions f (bits.map fun r => (false, r)) else s
  s.startReread f .handover

/-- The offers that this Mirror phase answers. -/
def Dev.acceptOffers (s : Dev) : Dev :=
  let l := s.twn.handovers.filter fun h => !h.toPartner && h.offered
  if l = [] then s else (s.each l fun s h => s.acceptOffer h).readRegions

/-! ## The heartbeat -/

/-- This chip's heartbeat. -/
def Dev.myHeartbeat (s : Dev) : Heartbeat where
  tick := s.tck.count.setWidth 48
  pairState := s.twn.state
  dump := s.vlt.dumping.isSome
  hold := s.hif.hold
  stale := s.tasks.ckptStale
  fencing := s.twn.declared.isSome
  ckptSeq := s.twn.ckptSeq
  ckptAck := s.twn.ckptGot
  mirrorAck := s.twn.mirrorGot
  ownerEpoch := s.twn.ownerEpoch

/-- Reads of the labels of namespaces that no field has, so that this chip learns the fields that its partner created. -/
def Dev.readForeign (s : Dev) : Dev :=
  let unknown := s.twn.partnerOwned.any fun f => !(s.field? f).any (·.assembled)
  let busy := s.mpt.cmds.any fun c => c.purpose = .adopt
  if !unknown || busy then s
  else s.each (s.mpt.members.filter fun x => x.field.isNone && x.state ≠ 4 && x.state ≠ 5) fun s x =>
    s.memberCmd x.id .read 0 512 .none false false false .adopt

/-- MIRROR_PHASE: final line frames, bands, window pages, the checkpoint, the bulk copy and records, answers to offers, and the
heartbeat (R243 to R249, R433). -/
def Dev.mirror (s : Dev) : Dev :=
  let s := s.leaveAdmission.onTck fun t => { t with phase := .mirror, phaseIdx := 2, cycle := 256 }
  if !s.twinUp || s.twn.session.isNone then s.onFbk fun k => { k with changed := [] }
  else
    let s := if s.partner then
        let s := s.sendFinals
        let s := s.each (s.fields.filter (·.owned)) fun s f => s.sendBand f.id
        let s := s.sendPages.sendCkpt.sendBulk
        let s := if s.now % 1024 = 0 then s.readForeign else s
        let s := s.when (s.twn.poolHeld ≠ []) fun s => s.count .twnMirrorWaitTicks
        s.acceptOffers
      else s
    let s := s.sendRecords.sendFrame (.heartbeat s.sendRecords.myHeartbeat)
    let sent := (s.tck.count, s.twn.ownerEpoch, s.twn.theirChanges)
    s.onTwn fun t => { t with epochsSent := sent :: t.epochsSent.take 1 }

/-- The end of the Mirror phase: a tick without a heartbeat since the Mirror phase before counts as a missed one (R243); a
heartbeat after fewer than three missed ones counts those (R253). -/
def Dev.countHeartbeat (s : Dev) : Dev :=
  if s.twn.hbCounted || !s.partner then s
  else
    let missed := s.twn.hbMissed
    let s := s.when (s.twn.hbThis && missed < 3) fun s => s.countN .twnHeartbeatsMissed missed
    s.onTwn fun t => { t with hbCounted := true, hbThis := false, hbMissed := if t.hbThis then 0 else t.hbMissed + 1 }

/-- Leaves the Admit and the Mirror phase when one of them runs. -/
def Dev.leaveMirror (s : Dev) : Dev :=
  let s := s.leaveAdmission
  if s.tck.phaseIdx = 2 then s.countHeartbeat else s

/-- A handover of this chip's field to its partner is complete: record 0x7020, the twin event, and the request that waits. -/
def Dev.handedOver (s : Dev) (h : Handover) : Dev :=
  let f := h.field
  let s := s.onTwn fun t => { t with handovers := dropAll (·.field = f) t.handovers, returnCount := t.returnCount + 1 }
  let s := (s.onField f fun x => { x with admitStop := false, ownerPos := !s.twn.position }).hodInvalidate
  let s := ((s.count .twnHandovers).pairRecord 0x7020 f).event 4
  let s := s.mbxWake (.handover [f] 0) mbOk []
  if s.twn.returnLeft = [] && !s.twn.handovers.any (·.toPartner) then
    s.mbxWake (.handover [] 0) mbOk (bytesLE 4 s.twn.returnCount)
  else s

/-- The last heartbeat that this chip sent before this tick, which the partner knew when it sent the one that arrives now: its
OWNER_EPOCH, and the partner's changes counted by then. -/
def Dev.epochKnown (s : Dev) : BitVec 64 × Nat :=
  match s.twn.epochsSent.find? fun e => e.1 ≠ s.tck.count with
  | some e => e.2
  | none => (s.twn.ownerEpoch, s.twn.theirChanges)

/-- The partner's OWNER_EPOCH is above what it can have learnt from this chip by as many ownership changes as it has made itself;
those not counted yet count now, and as many of this chip's handovers to it are complete, oldest first. Handovers that cross in
one tick are thus completed on both chips (log entry 108). -/
def Dev.epochIn (s : Dev) (e : BitVec 64) : Dev :=
  let n := e.toNat - s.epochKnown.1.toNat - (s.twn.theirChanges - s.epochKnown.2)
  if n = 0 then s
  else
    let l := (s.twn.handovers.filter fun h => h.toPartner && h.swapped).take n
    (s.onTwn fun t => { t with ownerEpoch := t.ownerEpoch + BitVec.ofNat 64 n, theirChanges := t.theirChanges + n }).each l fun s h => s.handedOver h

/-- HEARTBEAT: it counts for the Mirror phase that ends next, and its acknowledgements and flags take effect. -/
def Dev.heartbeatIn (s : Dev) (h : Heartbeat) : Dev :=
  let off : BitVec 64 := (h.tick - s.tck.count.setWidth 48).signExtend 64
  let s := s.when s.tck.paired fun s => s.onTck fun t => { t with pairOffset := off }
  let got := if s.twn.ckptOpen then s.twn.ckptGot else h.ckptSeq
  let s := s.onTwn fun t => { t with hbThis := true, partnerDump := h.dump, partnerHold := h.hold, ckptGot := got }
  ((s.mirrorAck h.mirrorAck).ckptAck h.ckptAck).epochIn h.ownerEpoch

/-! ## The mirror pool (R246 to R248) -/

/-- A line frame as a line of the pool. -/
def poolLine (l : LineFrame) : Line :=
  ⟨l.field, l.lba, l.version.toNat, if l.band then .band else .committed, 0, l.data, l.tag, false, false, none, 0, 0, true⟩

/-- A complete line enters the pool, unless a higher version is there; lower versions go. -/
def poolAdd (p : List Line) (l : Line) : List Line :=
  let same (x : Line) : Bool := x.field = l.field && x.lba = l.lba && x.st = l.st
  if p.any fun x => same x && l.version < x.version then p else dropAll same p ++ [l]

/-- Whether the pool has room for lines. -/
def Twn.room (t : Twn) (n : Nat) : Bool := (t.pool.length + n) * 4096 ≤ t.poolBytes

/-- The lines of a partner command that wait for its completion. -/
def Twn.openLines (t : Twn) (ref : Nat) : List LineFrame := (t.poolOpen.filter (·.1 = ref)).map (·.2)

/-- A complete command of the partner enters the pool, and MIRROR_ACK advances to it. -/
def Twn.install (t : Twn) (seq ref : Nat) : Twn :=
  { t with
    pool := (t.openLines ref).foldl (fun p l => poolAdd p (poolLine l)) t.pool
    poolOpen := dropAll (·.1 = ref) t.poolOpen
    mirrorGot := BitVec.ofNat 32 seq }

/-- Complete commands that wait for room enter in order as room is freed. -/
def Twn.installHeld : Nat → Twn → Twn
  | 0, t => t
  | n + 1, t =>
    match t.poolHeld with
    | [] => t
    | e :: rest =>
      if t.room (t.openLines e.2).length then Twn.installHeld n (({ t with poolHeld := rest }).install e.1 e.2) else t

/-- LINE: a line frame of a partner command; the final one completes the command (R245, R246, R248). -/
def Dev.lineIn (s : Dev) (l : LineFrame) : Dev :=
  let ref := l.slot.toNat + l.reuse.toNat * 2 ^ 14
  let s := s.onTwn fun t => { t with poolOpen := t.poolOpen ++ [(ref, l)] }
  if !l.last then s
  else s.onTwn fun t =>
    Twn.installHeld (t.poolHeld.length + 1) { t with poolHeld := t.poolHeld ++ [(l.mirrorSeq.toNat, ref)] }

/-- RELEASE: every kept version at or below VERSION leaves the pool; VERSION 0 names band lines. -/
def Dev.releaseIn (s : Dev) (field lba blocks : Nat) (version : BitVec 64) : Dev :=
  let gone (x : Line) : Bool := x.field = field && lba ≤ x.lba && x.lba < lba + blocks &&
    (if version = 0 then x.st = .band else x.st ≠ .band && x.version ≤ version.toNat)
  s.onTwn fun t => Twn.installHeld t.poolHeld.length { t with pool := dropAll gone t.pool }

/-- BULK_LINE: it never replaces a higher version (R266). -/
def Dev.bulkIn (s : Dev) (l : LineFrame) : Dev := s.onTwn fun t => { t with pool := poolAdd t.pool (poolLine l) }

/-- WINDOW_PAGE: a page of the partner's window. -/
def Dev.pageIn (s : Dev) (page : Nat) (b : Block) : Dev := s.onTwn fun t => { t with partnerWindow := put page b t.partnerWindow }

/-- FBK_RECORD: a record of the partner enters the mirror ring, or replaces the one it renews (R433). -/
def Dev.recordIn (s : Dev) (r : FbRec) : Dev :=
  let r := { r with flags := r.flags ||| 1 }
  s.onFbk fun k =>
    if k.mirror.any fun x => x.src = r.src && x.seq = r.seq then
      { k with mirror := modAll (fun x => x.src = r.src && x.seq = r.seq) (fun _ => r) k.mirror }
    else
      let l := k.mirror ++ [r]
      { k with mirror := l.drop (l.length - 16384), mirrorWritten := k.mirrorWritten + 1 }

/-! ## Checkpoint lines (R250) -/

/-- Whether two checkpoint lines are the same line of the partner's store. -/
def sameLine : CkptLine → CkptLine → Bool
  | .fieldEntry a _ _ _ _ _, .fieldEntry b _ _ _ _ _ => a = b
  | .coarse a _, .coarse b _ => a = b
  | .fine a i _, .fine b j _ => a = b && i = j
  | .reshape a, .reshape b => a.fieldId = b.fieldId
  | _, _ => false

/-- The field that a checkpoint line concerns. -/
def ckptField : CkptLine → Nat
  | .fieldEntry i _ _ _ _ _ => i
  | .coarse i _ => i
  | .fine i _ _ => i
  | .reshape r => r.fieldId

/-- A field of the partner is deleted: this chip forgets it. -/
def Dev.partnerDeletes (s : Dev) (fid : Nat) : Dev :=
  let s := s.onMst fun m => { m with partnerLines := dropAll (fun l => ckptField l = fid) m.partnerLines }
  let s := s.onTwn fun t => { t with partnerOwned := dropAll (· = fid) t.partnerOwned, pool := dropAll (·.field = fid) t.pool }
  let here := match s.field? fid with
    | some f => f.members.filterMap (·.member)
    | none => []
  let s := s.each here fun s m => s.onMember m fun x => { x with field := none, position := 0, state := 7 }
  ((s.onFields (dropAll (·.id = fid))).commitEntry fid).bumpEpoch

/-- CKPT_LINE: a line of the partner's store is kept; a field entry is committed with OWNED 0, and a field that this chip does not
know yet becomes known by its FIELD_UUID. A line of a field that this chip
owns is not taken. -/
def Dev.ckptIn (s : Dev) (l : CkptLine) (last : Bool) : Dev :=
  let s := s.onTwn fun t => { t with ckptOpen := !last }
  let f := ckptField l
  if s.ownIds.contains f then s
  else
    let keep (s : Dev) : Dev := s.onMst fun m => { m with partnerLines := dropAll (sameLine l) m.partnerLines ++ [l] }
    match l with
    | .fieldEntry i uuid valid _ _ _ =>
      if !valid then (if s.twn.partnerOwned.contains i then s.partnerDeletes i else s)
      else if s.mst.partnerLines.contains l then s
      else
        let away := !s.twn.position
        let s := if (s.field? i).isSome then s
          else s.onFields fun x => insertBy (·.id) { s.unknownField i uuid with owned := false, ownerPos := away, seen := true } x
        ((keep s).onTwn fun t => { t with partnerOwned := addNew i t.partnerOwned, reserved := dropAll (· = i) t.reserved }).commitEntry i
    | _ => keep s

/-! ## Commands -/

/-- MIRROR_PHASE. -/
def execMirrorPhase (s : State) : Host.Outcome State Fault Refusal :=
  .next { s with toDev := if s.awake && s.tck.gapNow.isNone && s.tck.phaseIdx < 2 then s.toDev.mirror else s.toDev }

/-- HEARTBEAT. -/
def execHeartbeat (ok : Bool) (h : Heartbeat) (s : State) : Host.Outcome State Fault Refusal :=
  .next { s with toDev := s.toDev.frame ok fun s => s.heartbeatIn h }

/-- CKPT_LINE. -/
def execCkptLine (ok : Bool) (l : CkptLine) (last : Bool) (s : State) : Host.Outcome State Fault Refusal :=
  .next { s with toDev := s.toDev.frame ok fun s => s.ckptIn l last }

/-- LINE. -/
def execLine (ok : Bool) (l : LineFrame) (s : State) : Host.Outcome State Fault Refusal :=
  .next { s with toDev := s.toDev.frame ok fun s => s.lineIn l }

/-- RELEASE. -/
def execRelease (ok : Bool) (field lba blocks : Nat) (version : BitVec 64) (s : State) : Host.Outcome State Fault Refusal :=
  .next { s with toDev := s.toDev.frame ok fun s => s.releaseIn field lba blocks version }

/-- WINDOW_PAGE. -/
def execWindowPage (ok : Bool) (page : Nat) (data : Block) (s : State) : Host.Outcome State Fault Refusal :=
  .next { s with toDev := s.toDev.frame ok fun s => s.pageIn page data }

/-- FBK_RECORD. -/
def execFbkRecord (ok : Bool) (r : FbRec) (s : State) : Host.Outcome State Fault Refusal :=
  .next { s with toDev := s.toDev.frame ok fun s => s.recordIn r }

/-- BULK_LINE. -/
def execBulkLine (ok : Bool) (l : LineFrame) (s : State) : Host.Outcome State Fault Refusal :=
  .next { s with toDev := s.toDev.frame ok fun s => s.bulkIn l }

/-- BULK_DONE: the partner's copy has ended. -/
def execBulkDone (ok : Bool) (_lines _pages : Nat) (s : State) : Host.Outcome State Fault Refusal :=
  .next { s with toDev := s.toDev.frame ok fun s => (s.onTwn fun t => { t with bulkGot := true }).trySynced }

end Sys2Proof.Machine
end

