-- ==== Sys2Proof/Machine/TwinPair.lean ====
section
/-!
DEFINITION. The twin pair: pairing and agreement (R247, R263 to R267, R366, R377, R419), the two-path rule and takeover (R252
to R256), handovers (R260 to R262, R268, R300), parameters of the pair (R247, R366), and the commands of the twin group.
-/

namespace Sys2Proof.Machine

/-! ## Pairing (R236, R247, R366, R419) -/

/-- Whether this chip holds dump lines of a field: dirty lines in the cache, or lines of a dump that is not restored yet. -/
def Dev.holdsLines (s : Dev) (fid : Nat) : Bool :=
  s.cache.lines.any (fun l => l.field = fid && l.dirty) ||
  (!s.sys.restoreChosen && s.vlt.slots.any fun v =>
    v.header && !v.foreign && !v.consumed && v.manifest.any fun e => e.kind ≠ 2 && e.field = fid)

/-- The labels that this chip found, field by field, as AGREE lists them. -/
def Dev.agreeList (s : Dev) : List AgreeEntry :=
  (s.fields.filter (·.assembled)).map fun f =>
    ⟨f.uuid, f.gen, f.id, f.ownerPos, s.holdsLines f.id⟩

/-- FIELD_KEYS for every field that this chip owns (R377). -/
def Dev.sendKeys (s : Dev) : Dev :=
  s.each (s.fields.filter (·.owned)) fun s f => match s.secretOf f.uuid with
    | some k => s.sendFrame (.fieldKeys f.uuid f.id (some (Config.wrapKey s.lnk.transfer k)))
    | none => s

/-- AGREE goes out once the partner is accepted and the fields are assembled: at most 255 entries in a frame. -/
def Dev.sendAgree (s : Dev) : Dev :=
  if !s.twn.helloOk || s.twn.agreeSent || !s.mpt.enumerated then s
  else
    let l := s.agreeList
    let s := s.onTwn fun t => { t with agreeSent := true }
    let s := if 255 < l.length then s.sendFrame (.agree (l.take 255) false) else s
    (s.sendFrame (.agree (l.drop (if 255 < l.length then 255 else 0)) true)).sendKeys

/-- Whether this chip's DRAM holds the mirror pool beside its own configuration (R204, R247). -/
def Dev.poolRoom (s : Dev) : Bool :=
  poolFits (s.drm.dramGib * gib) (s.hif.barGib * gib) (mirrorPool (s.param .drmDirtyCap)) (s.param .drmDirtyCap)

/-- PAIR_HELLO: the partner is refused, or pairing goes on: the follower takes its gap, and AGREE is sent. Before S3 has ended the
frame waits (R450). -/
def Dev.helloIn (s : Dev) (h : PairHello) : Dev :=
  if s.twn.helloOk then s
  else if !s.mpt.enumerated then s.onTwn fun t => { t with helloGot := some h }
  else if h.twinPos = s.twn.position then (s.record 0x7006 s.srcTwin 0 0 0).setPair 4
  else if s.twnVersion + 1 < h.twnVersion || h.twnVersion + 1 < s.twnVersion then
    ((s.onTwn fun t => { t with partnerVersion := some h.twnVersion }).recordKstEvent 0x9030 h.twnVersion 0 8).setPair 4
  else if h.dirtyCap ≠ s.param .drmDirtyCap || h.winDumpLimit ≠ s.param .winDumpLimit || !s.poolRoom then s.setPair 4
  else
    let s := s.setPair 1
    let pos := s.twn.position
    let off := h.ticks - s.tck.count
    let s := s.onTck fun t => { t with
      paired := true, follower := pos, pairOffset := off, gapNext := if pos then t.gapNext ++ [(.pairing, h.gapCycles % 1024)] else t.gapNext }
    let pool := mirrorPool (s.param .drmDirtyCap)
    (s.onTwn fun t => { t with
      helloOk := true, partnerVersion := some h.twnVersion, poolBytes := pool, pool := [], partnerWindow := []
      bulkSent := false, bulkGot := false, bulkCount := (0, 0), agreed := false }).sendAgree

/-- S3 ends: this chip's PAIR_HELLO goes out when a session exists, and the partner's takes effect when it has come (R450). -/
def Dev.beginPairing (s : Dev) : Dev :=
  let s := s.sendFrame (.hello s.hello)
  match s.twn.helloGot with
  | some h => (s.onTwn fun t => { t with helloGot := none }).helloIn h
  | none => s.sendAgree

/-! ## The agreement (R263) -/

/-- The owner of a field by both lists: the position that the label of highest FIELD_GEN names. -/
def ownerOf (mine theirs : Option AgreeEntry) : Bool :=
  match mine, theirs with
  | some a, some b => if a.gen < b.gen then b.ownerPos else a.ownerPos
  | some a, none => a.ownerPos
  | none, some b => b.ownerPos
  | none, none => false

/-- One field of either list is settled. -/
def Dev.settleField (s : Dev) (mine theirs : Option AgreeEntry) : Dev :=
  match (mine.map (·.fieldId)).or (theirs.map (·.fieldId)) with
  | none => s
  | some f =>
    if ownerOf mine theirs = s.twn.position then
      match s.field? f with
      | some x =>
        let s := s.onTwn fun t => { t with partnerOwned := dropAll (· = f) t.partnerOwned }
        if x.owned then s else s.takeUp f
      | none => s
    else
      let had := s.ownIds.contains f || s.ownsEntry f
      let s := if (s.field? f).isSome && s.holdsLines f then s.pairRecord 0x7030 f else s
      let s := if s.ownIds.contains f || had then s.dropField f
        else s.onCache fun k => { k with lines := dropAll (·.field = f) k.lines }
      let s := s.onField f fun x => { x with seen := true, ownerWait := false, ownerPos := !s.twn.position }
      s.onTwn fun t => { t with partnerOwned := addNew f t.partnerOwned }

/-- Secrets of fields that no label names any more are erased (R377). -/
def Dev.eraseUnlisted (s : Dev) (l : List AgreeEntry) : Dev :=
  let gone := (s.kst.secrets.filter fun k => !l.any (·.uuid = k.1) && !s.fields.any fun f => f.uuid = k.1 && f.owned).map (·.1)
  let ids := ((s.kst.secrets.filter fun k => gone.contains k.1).filter fun k => (s.field? k.2.1).any (·.uuid = k.1)).map (·.2.1)
  let old := s.kst.secrets.filter fun k => gone.contains k.1
  let s := s.onKst fun k => { k with secrets := dropAll (fun e => gone.contains e.1) k.secrets }
  let s := s.each old fun s k => s.recordKst 0x8032 (k.1.toNat % 2 ^ 32) k.2.1
  s.each ids fun s f => s.partnerDeletes f

/-- The agreement has ended: owners are settled, record 0x7032, and the bulk copy starts (R266). -/
def Dev.agreeEnd (s : Dev) : Dev :=
  let mine := s.agreeList
  let theirs := s.twn.agreeGot
  let only := theirs.filter fun e => !mine.any (·.uuid = e.uuid)
  let s := s.each mine fun s e => s.settleField (some e) (theirs.find? (·.uuid = e.uuid))
  let s := s.each only fun s e => s.settleField none (some e)
  let s := (s.eraseUnlisted (mine ++ theirs)).record 0x7032 s.srcTwin 0 0 0
  let own := s.ownIds
  let live (l : Line) : Bool := own.contains l.field && (l.st = .committed || l.st = .band)
  let blocks := (s.cache.lines.filter live).foldl (fun acc l => addNew (l.field, l.lba) acc) []
  let pages := List.range (s.param .winDumpLimit / 4096)
  let ring := s.fbk.ring
  let s := s.onTwn fun t => { t with
    agreed := true, everPaired := true, ckptDirty := own, ckptSent := [], bulkLeft := blocks, bulkPages := pages, bulkRecs := ring, bulkCount := (0, 0)
    bulkSent := false, bandSent := [] }
  let openW (c : Cmd) : Bool := c.op.isWrite && !c.durable && c.stage ≠ .finished
  let s := s.onQs fun q => { q with cmds := modAll openW (fun c => { c with acked := false, mirrorSeq := none }) q.cmds }
  let s := s.onCache fun k => { k with lines := k.lines.map fun l => { l with mirrored := false } }
  let s := s.setPair 2
  s.each (s.qs.cmds.filter fun c => openW c && c.arrived) fun s c => s.sendLines c.id

/-- Whether the pairing gap of this chip is still to run or runs (R39). -/
def Dev.pairGapOpen (s : Dev) : Bool :=
  (s.tck.gapNext.any fun g => g.1 = .pairing && 0 < g.2) || s.tck.gapNow.any fun g => g.1 = .pairing

/-- The agreement ends once both lists are complete and, so that no field is mirrored before it, the pairing gap has run (R39). -/
def Dev.tryAgree (s : Dev) : Dev :=
  if s.twn.helloOk && s.twn.agreeFinal && s.twn.agreeSent && !s.twn.agreed && !s.pairGapOpen then s.agreeEnd else s

/-- AGREE: the partner's list. -/
def Dev.agreeIn (s : Dev) (final : Bool) (l : List AgreeEntry) : Dev :=
  if !s.twn.helloOk || s.twn.agreed || s.twn.agreeFinal then s
  else (s.onTwn fun t => { t with agreeGot := t.agreeGot ++ l, agreeFinal := final }).sendAgree.tryAgree

/-- PAIR_WAIT_EXPIRED: the partner has not paired in time since start-up, whether pairing still runs or was refused: the chip is ALONE, takes up its own fields, and the partner's stay
RECOVERING with record 0x7031. -/
def Dev.waitExpired (s : Dev) : Dev :=
  let waited := ticksOfSeconds (s.param .twnPairWaitS) ≤ s.now
  if !s.twinUp || !s.awake || (s.twn.state ≠ 1 && s.twn.state ≠ 4) || s.twn.everPaired || !s.mpt.enumerated || !waited then s
  else
    let s := s.setPair 6
    s.each (s.fields.filter fun f => f.assembled && !f.owned) fun s f =>
      if f.ownerPos = s.twn.position then s.takeUp f.id
      else ((s.onField f.id fun f => { f with seen := true, ownerWait := true }).pairRecord 0x7031 f.id).onTwn fun t =>
        { t with partnerOwned := addNew f.id t.partnerOwned }

/-! ## Field IDs and keys (R265, R377) -/

/-- Whether a field ID is taken on this chip. -/
def Dev.idTaken (s : Dev) (f : Nat) : Bool :=
  (s.field? f).isSome || s.twn.partnerOwned.contains f || s.twn.reserved.contains f || s.ownsEntry f

/-- FIELD_RESERVE: a request is granted unless the ID is taken; an answer lets the creation go on or refuses it. -/
def Dev.reserveIn (s : Dev) (f : Nat) (phase : ReservePhase) : Dev :=
  match phase with
  | .request =>
    if s.idTaken f then s.sendFrame (.reserve f .refused)
    else (s.onTwn fun t => { t with reserved := addNew f t.reserved }).sendFrame (.reserve f .granted)
  | .refused => match s.waiter? (.reserve f) with
    | some p => s.mbxRefuse p mbNotAllowed 0
    | none => s
  | .granted => match s.waiter? (.reserve f) with
    | some p => match s.mbx.run? p with
      | some run => match run.instr with
        | .fieldCreate _ r => match s.createRefused r with
          | some x => s.mbxRefuse p x.st x.detail
          | none => s.makeField p r
        | _ => s
      | none => s
    | none => s

/-- FIELD_KEYS: the secret is stored under this chip's own wrap key, record 0x8031; or it is erased, record 0x8032 (R377, R397). -/
def Dev.keysIn (s : Dev) (uuid : Uid) (f : Nat) (blob : Option (BitVec 448)) : Dev :=
  match blob with
  | some b =>
    let k := Config.unwrapKey s.lnk.transfer b
    (s.onKst fun x => { x with secrets := dropAll (·.1 = uuid) x.secrets ++ [(uuid, f, k)] }).recordKst 0x8031 (uuid.toNat % 2 ^ 32) f
  | none =>
    let had := (s.secretOf uuid).isSome
    let s := (s.onKst fun x => { x with secrets := dropAll (·.1 = uuid) x.secrets }).when had fun s => s.recordKst 0x8032 (uuid.toNat % 2 ^ 32) f
    if s.ownIds.contains f then s else s.onKst fun x => { x with keySlots := dropAll (·.1 = f) x.keySlots }

/-- A label of a field of the partner that this chip does not know has been read: the field is assembled from it (R59, R250). -/
def Dev.learnField (s : Dev) (l : Label) : Dev :=
  match s.kst.secrets.find? (·.1 = l.uuid) with
  | none => s
  | some k =>
    let old := s.field? k.2.1
    if l.kind ≠ 1 || s.fields.any (fun f => f.uuid = l.uuid && f.assembled) || old.any (fun f => f.uuid ≠ l.uuid) then s
    else
      let f := { s.assembled (old.getD (s.unknownField k.2.1 k.1)) k.2.2 l [] with owned := false, seen := true }
      let s := (s.onFields fun x => insertBy (·.id) f (dropAll (·.id = f.id) x)).placeMembers f
      s.bumpEpoch

/-! ## Takeover (R252 to R256) -/

/-- One of the partner's fields is taken over; its labels are read for the takeover label (R59, R254). -/
def Dev.takeover (s : Dev) (fid : Nat) : Dev :=
  match s.field? fid with
  | none => s
  | some f =>
    let bits := s.replicaBits f
    let s := (s.takeField fid true).onField fid fun f => { f with fenceWait := true, takenOver := true }
    let s := s.markRegions fid (bits.map fun r => (false, r))
    (s.onTwn fun t => { t with taken := addNew fid t.taken, ownerEpoch := t.ownerEpoch + 1 }).startReread fid .takeover

/-- A field takes its geometry and tables from the labels that have been read anew; what this chip holds of it stays. In a takeover
and a handover the reshape record is the one that the partner's checkpoints brought, and after TWN_ADOPT that of the checkpoint
block. -/
def Dev.reassembled (s : Dev) (f : Field) (what : RereadFor) (secret : Nat) (b : Label) : Field :=
  let x := s.assembled f secret b s.mpt.found
  let mine := match what with
    | .adopt _ => false
    | _ => true
  let rec' := if b.nextWidth = 0 then none else if mine then f.rs.or x.rs else x.rs
  { x with
    ownerPos := f.ownerPos
    gen := max f.gen b.gen
    coarseShift := f.coarseShift
    restoreWait := f.restoreWait
    rs := rec'
    rsSlot := if mine then f.rsSlot else 16
    rsEnding := mine && b.nextWidth = 0 && f.rs.isSome && f.rsSlot < 16
    rsRedo := if mine then f.rsRedo && rec'.isSome else x.rsRedo
    nextWidth := if rec'.isSome then b.nextWidth else 0
    nextMembers := if rec'.isSome then (b.nextMembers.take b.nextWidth).map s.posOf else [] }

/-- The courses with mirrored lines of a taken field are resynced (R23). -/
def Dev.markLines (s : Dev) (fid : Nat) : Dev :=
  match s.field? fid with
  | none => s
  | some f =>
    let l := (s.cache.lines.filter fun x => x.field = fid && x.st = .committed).map fun x => let p := f.place x.lba; (p.course, p.geom)
    s.onField fid fun f => { f with lineSet := l.foldl (fun acc x => addNew x acc) f.lineSet }

/-- What follows the new reading of a field's labels: the takeover label or the handover label, or the import of TWN_ADOPT with
record 0x7033; then the label changes that have waited. -/
def Dev.rereadDone (s : Dev) (fid : Nat) (r : Reread) : Dev :=
  match s.field? fid with
  | none => s
  | some f =>
    let k := (s.secretOf f.uuid).getD 0
    let s := match bestLabel (s.fieldLabels f.uuid s.mpt.found) with
      | some b => match s.reassembled f r.what k b with
        | x => (((s.onField fid fun _ => x).placeMembers x).noteCopies k f.uuid s.mpt.found).when x.rsEnding fun s => s.freeReshape fid
      | none => s
    let held := f.labelHeld
    let s := s.onField fid fun f => { f with reread := none, labelHeld := [] }
    let s := match r.what with
      | .takeover => (s.markLines fid).changeLabel fid .takeover
      | .handover => s.changeLabel fid .handover
      | .adopt p => match s.field? fid with
        | some f => ((s.importField fid (s.importReplica f s.mpt.found)).pairRecord 0x7033 fid).changeLabel fid (match p with | some p => .command p | none => .nothing)
        | none => s
    (s.each held fun s t => s.changeLabel fid t).bumpEpoch

/-- At a tick boundary the fields whose labels are read go on: once no such read is open any more, or at the seventh tick, so that
the label change comes within 8 ticks (R254 step 4). -/
def Dev.rereadBoundary (s : Dev) : Dev :=
  let busy := s.mpt.cmds.any (·.purpose = .adopt)
  s.each s.fields fun s f => match f.reread with
    | some r => if busy && s.now < r.since.toNat + 7 then s else s.rereadDone f.id r
    | none => s

/-- The chip declares its partner lost: a SYNCED chip fences the fields it owns, those that an aborted handover has given back among
them, and takes the partner's over; a SYNCING one takes nothing. -/
def Dev.declare (s : Dev) : Dev :=
  if s.twn.state ≠ 3 then s.setPair 5
  else
    let now := s.tck.count
    let s := (s.setPair 5).record 0x7010 s.srcTwin 0 0 0
    let own := s.ownIds
    let theirs := s.twn.partnerOwned.filter fun f => !own.contains f
    let s := (s.count .twnTakeovers).onTwn fun t => { t with
      declared := some now, fenced := own, fenceAsked := false, fenceGood := [], taken := [] }
    (s.each theirs fun s f => s.takeover f).readRegions

/-- TWO_PATH_RULE: after three heartbeats missed in a row (R252). -/
def Dev.twoPath (s : Dev) : Dev :=
  let s := if s.tck.phaseIdx = 2 then s.countHeartbeat else s
  if !s.twinUp || !s.awake || !s.partner || s.twn.hbMissed < 3 || s.vlt.dumping.isSome then s
  else if s.twn.pulses && !s.twn.partnerDump then s.setPair 4
  else s.declare

/-- Ticks since the declaration. -/
def Dev.sinceDeclared (s : Dev) : Option Nat := s.twn.declared.map fun t => s.now - t.toNat

/-- Whether at least `n` ticks have passed since the declaration. -/
def Dev.declaredFor (s : Dev) (n : Nat) : Bool :=
  match s.sinceDeclared with
  | some k => s.awake && n ≤ k
  | none => false

/-- TAKEOVER_LABEL_DEADLINE: members on which a takeover label has not landed are FAILED (R144, R254 step 4). -/
def Dev.labelDeadline (s : Dev) : Dev :=
  if !s.declaredFor (s.param .twnFenceTicks - 2) then s
  else s.each (s.fields.filter fun f => s.twn.taken.contains f.id) fun s f =>
    let late := (f.labelChanges.filter fun c => c.andThen = .takeover).flatMap fun c => c.left.map (·.2)
    s.each (dedup late) fun s m => s.faultEvent m false 2

/-- TAKEOVER_FENCE_CHECK: the current label of each field that this chip owned before is read from the present members at
positions 0 to 2. -/
def Dev.fenceCheck (s : Dev) : Dev :=
  if !s.declaredFor (s.param .twnFenceTicks) || s.twn.fenceAsked then s
  else
    let s := s.onTwn fun t => { t with fenceAsked := true }
    s.each (s.fields.filter fun f => s.twn.fenced.contains f.id) fun s f =>
      s.each f.replicaMembers fun s m => s.memberCmd m .read 0 512 .none false false false (.fence f.id)

/-- A field passes the fence: its commits and label changes go on. -/
def Dev.fencePass (s : Dev) (fid : Nat) : Dev :=
  let held := ((s.field? fid).map (·.labelHeld)).getD []
  let s := s.onTwn fun t => { t with fenced := dropAll (· = fid) t.fenced, fenceGood := dropAll (· = fid) t.fenceGood }
  (s.onField fid fun f => { f with labelHeld := [] }).each held fun s t => s.changeLabel fid t

/-- A field fails the fence: it is dropped, record 0x7012. -/
def Dev.fenceDrop (s : Dev) (fid : Nat) : Dev := (s.pairRecord 0x7012 fid).dropField fid

/-- A field's fence is decided once no read of it is open any more, or 64 ticks have passed. -/
def Dev.fenceDecide (s : Dev) (fid : Nat) : Dev :=
  let waits := s.mpt.cmds.any fun c => c.purpose = .fence fid
  let late := s.declaredFor (s.param .twnFenceTicks + 64)
  if !s.twn.fenced.contains fid || !s.twn.fenceAsked || (waits && !late) then s
  else
    let s := s.onMpt fun p => { p with cmds := dropAll (·.purpose = .fence fid) p.cmds }
    if s.twn.fenceGood.contains fid then s.fencePass fid else s.fenceDrop fid

/-- A read of the fence has landed with a label, or brought none (R254 step 5). -/
def Dev.fenceLabel (s : Dev) (fid : Nat) (l : Option LabelBlk) : Dev :=
  match s.field? fid, l with
  | some f, some ⟨_, _, _, l, _⟩ =>
    if !s.twn.fenced.contains fid || l.uuid ≠ f.uuid then s.fenceDecide fid
    else if l.ownerPos ≠ s.twn.position && f.gen < l.gen then s.fenceDrop fid
    else (s.onTwn fun t => { t with fenceGood := addNew fid t.fenceGood }).fenceDecide fid
  | _, _ => s.fenceDecide fid

/-- TWN_TAKEOVER_DONE: 66 ticks after the fence the taken fields leave RECOVERING: record 0x7011 and the twin event. -/
def Dev.takeoverDone (s : Dev) : Dev :=
  if !s.declaredFor (s.param .twnFenceTicks + 66) then s
  else
    let s := s.each s.twn.fenced fun s f => s.fenceDecide f
    let taken := s.twn.taken
    let s := s.each taken fun s f => (s.onField f fun x => { x with fenceWait := false }).fieldRecovered f
    (s.onTwn fun t => { t with declared := none, taken := [], fenceAsked := false }).recordEvent 0x7011 s.srcTwin 0 0 0 4

/-! ## Handover (R260 to R262, R268) -/

/-- Whether a field may be handed to the partner now. -/
def Dev.mayHand (s : Dev) (f : Field) : Bool :=
  s.twn.mode && s.twn.state = 3 && f.owned && !f.recovering && !s.twn.handovers.any (·.field = f.id)

/-- The old owner stops admission. With a failed store the writes that wait for commits end with FIELD_NOT_READY (R141). -/
def Dev.startHandover (s : Dev) (fid : Nat) : Dev :=
  let s := s.onTwn fun t => { t with handovers := t.handovers ++ [⟨fid, true, false, false⟩] }
  let s := s.onField fid fun f => { f with admitStop := true }
  if s.mst.failed then s.each (s.openWrites fid) fun s c => s.endCmd c stNotReady 0 else s

/-- The device hands every field that it can to its partner (R141, R232, R300, R416). -/
def Dev.handAll (s : Dev) : Dev := s.each (s.fields.filter s.mayHand) fun s f => s.startHandover f.id

/-- Parked completions of a field are discarded in port hold (R261). -/
def Dev.discardParked (s : Dev) (fid : Nat) : Dev :=
  if !s.hif.hold then s
  else
    let ids := (s.qs.cmds.filter fun c => c.e.fieldId.toNat = fid).map (·.id)
    let drop (p : QPair) : QPair := { p with waiting := p.waiting.filter fun e => e.1 = [] || !e.1.all ids.contains }
    let s := s.onQs fun q => { q with pairs := q.pairs.map drop }
    let kept := s.qs.pairs.flatMap fun p => p.waiting.flatMap (·.1)
    s.onQs fun q => { q with cmds := dropAll (fun c => ids.contains c.id && !kept.contains c.id) q.cmds }

/-- HANDOVER_DRAINED: every command of the field has finished and its last checkpoint is sent: HANDOVER_OFFER. -/
def Dev.handoverDrained (s : Dev) (fid : Nat) : Dev :=
  match s.field? fid, s.twn.handovers.find? fun h => h.field = fid && h.toPartner && !h.offered with
  | some f, some _ =>
    let busy := (s.qs.cmds.any fun c => c.e.fieldId.toNat = fid && c.stage ≠ .finished && c.stage ≠ .held) ||
      s.cache.jobs.any (fun j => j.field = fid) || f.rsStage ≠ .idle || f.labelChanges ≠ [] || f.marked ≠ [] || f.lineSet ≠ [] ||
      s.twn.ckptDirty.contains fid
    if !s.awake || busy then s
    else
      let s := s.discardParked fid
      let s := s.onTwn fun t => { t with handovers := modAll (·.field = fid) (fun h => { h with offered := true }) t.handovers }
      s.sendFrame (.offer fid s.twn.ckptSeq.toNat s.twn.mirrorSeq.toNat f.gen)
  | _, _ => s

/-- HANDOVER_OFFER: the field enters RECOVERING here, and the next Mirror phase answers; a field that this chip does not know is
refused. -/
def Dev.offerField (s : Dev) (fid gen : Nat) : Dev :=
  match s.field? fid with
  | some f =>
    if s.twn.state ≠ 3 || f.owned then s.sendFrame (.accept fid false)
    else (s.onField fid fun f => { f with recovering := true, gen := gen }).onTwn fun t =>
      { t with handovers := t.handovers ++ [⟨fid, false, true, false⟩] }
  | none => s.sendFrame (.accept fid false)

/-- HANDOVER_ACCEPT: both chips change roles, or the handover is aborted. -/
def Dev.acceptIn (s : Dev) (fid : Nat) (ok : Bool) : Dev :=
  match s.twn.handovers.find? fun h => h.field = fid && h.toPartner && h.offered && !h.swapped with
  | none => s
  | some h =>
    if !ok then s.abortHandover h false
    else
      let s := ((s.cacheToPool fid).dropRecord fid).onField fid fun f => { f with
        owned := false, recovering := true, homeIndex := none, fineUse := false, fineBlocks := 0, fineShift := 0, fineRelease := false, repOn := [] }
      let s := if s.mst.failed then s else s.dropSlots fid
      let s := s.onTwn fun t => { t with
        partnerOwned := addNew fid t.partnerOwned
        handovers := modAll (·.field = fid) (fun h => { h with swapped := true }) t.handovers }
      if s.mst.failed then s else s.commitEntry fid

/-- The next field of a return is handed back once the one before is done (R268). -/
def Dev.nextReturn (s : Dev) : Dev :=
  if s.twn.handovers.any (·.toPartner) then s
  else match s.twn.returnLeft with
    | [] => s
    | f :: rest =>
      let s := s.onTwn fun t => { t with returnLeft := rest }
      match s.field? f with
      | some x => if s.mayHand x && s.twn.partnerOwned.length < 128 then s.startHandover f else s
      | none => s

/-- HOLD_HANDOVER_TIMEOUT: a hold that lasts TWN_HOLD_HANDOVER_S hands every field over (R300). -/
def Dev.holdTimeout (s : Dev) : Dev :=
  let late := s.hif.holdSince.toNat + ticksOfSeconds (s.param .twnHoldHandoverS) ≤ s.now
  if s.twinUp && s.awake && s.hif.hold && s.twn.state = 3 && late then s.handAll else s

/-! ## Parameters of the pair (R247, R366) -/

/-- Whether a PARAM_ID is one of the two that a SYNCED pair changes together: DRM_DIRTY_CAP and WIN_DUMP_LIMIT. -/
def pairParam (id : Nat) : Bool := id = 0x2C00 || id = 0x1C00

/-- EFFECT_TICK, which counts on the master, in this chip's own count (R366). -/
def Dev.ownTick (s : Dev) (t : Nat) : Nat := if s.tck.follower then (BitVec.ofNat 64 t - s.tck.pairOffset).toNat else t

/-- A tick of this chip's own count in the master's. -/
def Dev.masterTick (s : Dev) (t : Nat) : Nat := if s.tck.follower then (BitVec.ofNat 64 t + s.tck.pairOffset).toNat else t

/-- Whether this chip accepts a value that its partner proposes, beside those it has accepted already. -/
def Dev.syncOk (s : Dev) (id v : Nat) : Bool :=
  match parOf id with
  | some (_, .cfg p) =>
    pairParam id && cfgInRange p v && (s.refusedEntry ((s.twn.syncAgreed.map fun a => (a.1, 0, a.2.1)) ++ [(id, 0, v)])).isNone
  | _ => false

/-- The values that a request proposes: the last one of each parameter of the pair. -/
def proposals (l : List (Nat × Nat × Nat)) : List (Nat × Nat) :=
  (l.filter fun e => pairParam e.1).foldl (fun acc e => put e.1 e.2.2 acc) []

/-- A PARAM_SET on a SYNCED chip that names a parameter of the pair: each is proposed for one tick at least 5 ticks ahead, which
the chip chooses. -/
def Dev.syncStart (s : Dev) (l : List (Nat × Nat × Nat)) : Dev :=
  let tick := s.now + 5 + s.free % 65536
  let props := proposals l
  let s := s.drew.onTwn fun t => { t with syncing := some ⟨tick, l, props⟩ }
  s.each props fun s e => s.sendFrame (.paramSync .propose e.1 e.2 (s.masterTick tick))

/-- A proposal fails: every other one of the request is withdrawn, and its PARAM_SET changes nothing. -/
def Dev.syncFail (s : Dev) (q : SyncReq) (id : Nat) : Dev :=
  let entry := (q.entries.findIdx? fun e => e.1 = id).getD 0
  let s := s.each ((proposals q.entries).filter (·.1 ≠ id)) fun s e => s.sendFrame (.paramSync .refuse e.1 e.2 (s.masterTick q.tick))
  (s.onTwn fun t => { t with syncing := none }).mbxWake .sync mbNotAllowed (bytesLE 4 (0x10 + 16 * entry))

/-- The request of this chip that a step of PARAM_SYNC speaks of. -/
def Dev.syncMine (s : Dev) (id v tick : Nat) : Option SyncReq :=
  s.twn.syncing.filter fun q => (proposals q.entries).contains (id, v) && s.masterTick q.tick = tick

/-- The partner accepts a proposal: with the last one accepted at least 4 ticks before its tick, COMMIT follows and the PARAM_SET
completes with OK; later, REFUSE. -/
def Dev.syncAccepted (s : Dev) (q : SyncReq) (id v : Nat) : Dev :=
  let left := dropAll (· = (id, v)) q.left
  if left ≠ [] then s.onTwn fun t => { t with syncing := some { q with left := left } }
  else if q.tick < s.now + 4 then (s.sendFrame (.paramSync .refuse id v (s.masterTick q.tick))).syncFail q id
  else
    let s := s.each (proposals q.entries) fun s e => s.sendFrame (.paramSync .commit e.1 e.2 (s.masterTick q.tick))
    let s := s.onTwn fun t => { t with
      syncing := none, syncApply := t.syncApply ++ q.entries.map fun e => (q.tick, e.1, e.2.1, e.2.2) }
    s.mbxWake .sync mbOk (bytesLE 8 q.tick)

/-- PARAM_SYNC: the three steps of a change, and its refusal. While this chip has proposals of its own under way it refuses those
of the partner. -/
def Dev.syncIn (s : Dev) (phase : SyncPhase) (id v tick : Nat) : Dev :=
  match phase with
  | .propose =>
    if s.twn.state = 3 && s.twn.syncing.isNone && s.syncOk id v then
      (s.onTwn fun t => { t with syncAgreed := t.syncAgreed ++ [(id, v, tick)] }).sendFrame (.paramSync .accept id v tick)
    else s.sendFrame (.paramSync .refuse id v tick)
  | .accept => match s.syncMine id v tick with
    | some q => s.syncAccepted q id v
    | none => s
  | .refuse => match s.syncMine id v tick with
    | some q => s.syncFail q id
    | none => s.onTwn fun t => { t with syncAgreed := dropAll (· = (id, v, tick)) t.syncAgreed }
  | .commit =>
    if s.twn.syncAgreed.contains (id, v, tick) then
      let own := s.ownTick tick
      s.onTwn fun t => { t with
        syncAgreed := dropAll (· = (id, v, tick)) t.syncAgreed, syncApply := t.syncApply ++ [(own, id, 0, v)] }
    else s

/-- What the two chips have agreed on is set for the tick boundary that it names; the mirror pool follows the dirty cap. -/
def Dev.syncBoundary (s : Dev) : Dev :=
  let due := s.twn.syncApply.filter fun e => e.1 ≤ s.now
  let s := (s.onTwn fun t => { t with syncApply := dropAll (fun e => e.1 ≤ s.now) t.syncApply }).stage (due.map (·.2))
  if s.twn.poolBytes ≠ 0 && due.any (fun e => e.2.1 = 0x2C00) then
    s.onTwn fun t => { t with poolBytes := mirrorPool s.cfgNext[cfgIx .drmDirtyCap] }
  else s

/-- What a tick boundary does for the pair: pulses, the heartbeat flags, the marker of the master, decisions of the fence, the
next return, and fields whose labels are read anew. -/
def Dev.twinBoundary (s : Dev) : Dev :=
  if !s.twinUp then s
  else
    let s := s.countHeartbeat.tryAgree.onTwn fun t => { t with
      hbCounted := false, pulseMissed := if t.pulseThis then 0 else t.pulseMissed + 1, pulseThis := false }
    let s := if s.tck.paired && !s.tck.follower && s.twn.linkUp then s.sendFlit .marker else s
    let s := s.each s.twn.fenced fun s f => s.fenceDecide f
    let s := if s.twn.state = 3 then s.nextReturn else s
    let s := if s.twn.state = 3 && (s.mst.failed || s.drm.cacheLost) then s.handAll else s
    s.rereadBoundary

/-! ## Mailbox commands (R356) -/

/-- A bit for each listed field ID. -/
def idBits (l : List Nat) : List Byte := bytesLE 32 (bitSet l)

/-- TWN_STATUS. -/
def Dev.twnStatus (s : Dev) (p : MbxPath) : Dev :=
  s.mbxDone p mbOk ([s.twn.state] ++ bytesLE 1 (b2n s.twn.position) ++ zeroBytes 6 ++ bytesLE 8 s.twn.ownerEpoch.toNat ++
    idBits s.ownIds ++ idBits s.twn.partnerOwned)

/-- TWN_HANDOVER: refused in another pair state, for a field that is RECOVERING or already in a handover, and when the partner
would own more than 128 fields. -/
def Dev.twnHandover (s : Dev) (p : MbxPath) (r : MbxReq) : Dev :=
  s.withField p r fun f =>
    let coming := (s.twn.handovers.filter fun h => h.toPartner && !h.swapped).length
    if !s.mayHand f || f.offlineReq || f.labelChanges ≠ [] then s.mbxRefuse p mbNotAllowed 0
    else if 128 ≤ s.twn.partnerOwned.length + coming then s.mbxRefuse p mbNotAllowed noDetail
    else (s.startHandover f.id).mbxWait p (.handover [f.id] 0)

/-- TWN_RETURN: every field whose home position is the partner's is handed back, one at a time. -/
def Dev.twnReturn (s : Dev) (p : MbxPath) : Dev :=
  if s.twn.state ≠ 3 || s.twn.returnLeft ≠ [] then s.mbxRefuse p mbNotAllowed noDetail
  else
    let l := (s.fields.filter fun f => f.owned && f.homePos ≠ s.twn.position).map (·.id)
    if l = [] then s.mbxDone p mbOk (bytesLE 4 0)
    else (s.onTwn fun t => { t with returnLeft := l, returnCount := 0 }).mbxWait p (.handover [] 0)

/-- TWN_ADOPT: this chip, which owns at most 127 fields then (R47), becomes the owner of a field whose owner is absent: its labels are read, and it is imported (R264). -/
def Dev.twnAdopt (s : Dev) (p : MbxPath) (r : MbxReq) : Dev :=
  s.withField p r fun f =>
    if !s.twn.mode || f.owned || !f.assembled || (s.twn.state ≠ 5 && s.twn.state ≠ 6) || s.twn.declared.isSome then
      s.mbxRefuse p mbNotAllowed 0
    else if 128 ≤ s.ownIds.length then s.mbxRefuse p mbNotAllowed noDetail
    else
      let pos := s.twn.position
      let s := s.onField f.id fun f => { f with owned := true, ownerPos := pos, ownerWait := false, recovering := true }
      let s := s.onTwn fun t => { t with
        partnerOwned := dropAll (· = f.id) t.partnerOwned, pool := dropAll (·.field = f.id) t.pool, ownerEpoch := t.ownerEpoch + 1 }
      let s := match s.secretOf f.uuid with
        | some k => s.onKst fun x => { x with keySlots := put f.id (fieldKeys f.uuid k) x.keySlots }
        | none => s
      (((s.startReread f.id (.adopt (some p))).readRegions).mbxWait p (.label f.id)).bumpEpoch

def Dev.onTwnStatus (s : Dev) (p : MbxPath) (r : MbxReq) : Dev :=
  s.mbxCommand p 0x0901 (.twnStatus p r) r (r.len = 0) [] fun s => s.twnStatus p
def Dev.onTwnHandover (s : Dev) (p : MbxPath) (r : MbxReq) : Dev :=
  s.mbxCommand p 0x0902 (.twnHandover p r) r (len8 r) [.field (reqId r), .pair] fun s => s.twnHandover p r
def Dev.onTwnReturn (s : Dev) (p : MbxPath) (r : MbxReq) : Dev :=
  s.mbxCommand p 0x0903 (.twnReturn p r) r (r.len = 0) [.pair] fun s => s.twnReturn p
def Dev.onTwnAdopt (s : Dev) (p : MbxPath) (r : MbxReq) : Dev :=
  s.mbxCommand p 0x0904 (.twnAdopt p r) r (len8 r) [.field (reqId r), .pair] fun s => s.twnAdopt p r

/-! ## Commands -/

/-- TWN_STATUS. -/
def execTwnStatus (p : MbxPath) (r : MbxReq) (s : State) : Host.Outcome State Fault Refusal :=
  .next { s with toDev := s.toDev.onTwnStatus p r }

/-- TWN_HANDOVER. -/
def execTwnHandover (p : MbxPath) (r : MbxReq) (s : State) : Host.Outcome State Fault Refusal :=
  .next { s with toDev := s.toDev.onTwnHandover p r }

/-- TWN_RETURN. -/
def execTwnReturn (p : MbxPath) (r : MbxReq) (s : State) : Host.Outcome State Fault Refusal :=
  .next { s with toDev := s.toDev.onTwnReturn p r }

/-- TWN_ADOPT. -/
def execTwnAdopt (p : MbxPath) (r : MbxReq) (s : State) : Host.Outcome State Fault Refusal :=
  .next { s with toDev := s.toDev.onTwnAdopt p r }

/-- PAIR_HELLO. -/
def execPairHello (ok : Bool) (h : PairHello) (s : State) : Host.Outcome State Fault Refusal :=
  .next { s with toDev := s.toDev.frame ok fun s => s.helloIn h }

/-- AGREE. -/
def execAgree (ok final : Bool) (l : List AgreeEntry) (s : State) : Host.Outcome State Fault Refusal :=
  .next { s with toDev := s.toDev.frame ok fun s => s.agreeIn final l }

/-- FIELD_RESERVE. -/
def execFieldReserve (ok : Bool) (field : Nat) (phase : ReservePhase) (s : State) : Host.Outcome State Fault Refusal :=
  .next { s with toDev := s.toDev.frame ok fun s => s.reserveIn field phase }

/-- HANDOVER_OFFER. -/
def execHandoverOffer (ok : Bool) (field _ckptSeq _mirrorSeq gen : Nat) (s : State) : Host.Outcome State Fault Refusal :=
  .next { s with toDev := s.toDev.frame ok fun s => s.offerField field gen }

/-- HANDOVER_ACCEPT. -/
def execHandoverAccept (ok : Bool) (field : Nat) (accepted : Bool) (s : State) : Host.Outcome State Fault Refusal :=
  .next { s with toDev := s.toDev.frame ok fun s => s.acceptIn field accepted }

/-- HANDOVER_DRAINED. -/
def execHandoverDrained (field : Nat) (s : State) : Host.Outcome State Fault Refusal :=
  .next { s with toDev := s.toDev.handoverDrained field }

/-- PARAM_SYNC. Neither parameter of the pair is an array, so INDEX is 0. -/
def execParamSync (ok : Bool) (phase : SyncPhase) (paramId _index value effectTick : Nat) (s : State) :
    Host.Outcome State Fault Refusal :=
  .next { s with toDev := s.toDev.frame ok fun s => s.syncIn phase paramId value effectTick }

/-- FIELD_KEYS. -/
def execFieldKeys (ok : Bool) (uuid : Uid) (field : Nat) (blob : Option (BitVec 448)) (s : State) :
    Host.Outcome State Fault Refusal :=
  .next { s with toDev := s.toDev.frame ok fun s => s.keysIn uuid field blob }

/-- TWO_PATH_RULE. -/
def execTwoPathRule (s : State) : Host.Outcome State Fault Refusal := .next { s with toDev := s.toDev.twoPath }

/-- TAKEOVER_LABEL_DEADLINE. -/
def execTakeoverLabelDeadline (s : State) : Host.Outcome State Fault Refusal := .next { s with toDev := s.toDev.labelDeadline }

/-- TAKEOVER_FENCE_CHECK. -/
def execTakeoverFenceCheck (s : State) : Host.Outcome State Fault Refusal := .next { s with toDev := s.toDev.fenceCheck }

/-- TWN_TAKEOVER_DONE. -/
def execTwnTakeoverDone (s : State) : Host.Outcome State Fault Refusal := .next { s with toDev := s.toDev.takeoverDone }

/-- PAIR_WAIT_EXPIRED. -/
def execPairWaitExpired (s : State) : Host.Outcome State Fault Refusal := .next { s with toDev := s.toDev.waitExpired }

/-- HOLD_HANDOVER_TIMEOUT. -/
def execHoldHandoverTimeout (s : State) : Host.Outcome State Fault Refusal := .next { s with toDev := s.toDev.holdTimeout }

end Sys2Proof.Machine
end

