-- ==== Sys2Proof/Machine/Completions.lean ====
section
/-!
DEFINITION. The completions of member commands (R25, R63, R82, R91 to R95, R102, R144): success by the command's purpose,
media and transport errors, and reads that outlive MPT_HEDGE_TICKS.
-/

namespace Sys2Proof.Machine

/-- The member command with an ID, once it has been issued and while its member still counts on it. -/
def Dev.mcmd? (s : Dev) (id : Nat) : Option MCmd :=
  s.mpt.cmds.find? fun c => c.id = id && c.issued.isSome && !c.held && !c.failed

/-- A member command is over. -/
def Dev.dropMcmd (s : Dev) (id : Nat) : Dev :=
  s.onMpt fun p => { p with cmds := dropAll (·.id = id) p.cmds, arrived := dropAll (·.1 = id) p.arrived }

/-- One write of a job is over. -/
def Dev.jobWriteDone (s : Dev) (j : Nat) : Dev := (s.onJob j fun b => { b with writesLeft := b.writesLeft - 1 }).settle

/-- The blocks that a read of `n` blocks brings; none when the content has another shape. -/
def blocksRead (n : Nat) : MPayload → Option (List (Block × Meta))
  | .blocks l => if l.length = n then some l else none
  | _ => none

/-- The label blocks that a read of the label rings, or of the whole label region, brings. -/
def labelsRead : MPayload → List LabelBlk
  | .labels l => l
  | .region r => r.labels
  | _ => []

/-- What the label region of a member holds now, as its namespace was found. -/
def Dev.noteRegion (s : Dev) (m : Nat) (r : RegionRead) : Dev :=
  match s.member? m with
  | none => s
  | some x => (s.onMember m fun y => s.takeLabels r.labels y).onMpt fun p => { p with
      found := modAll (fun n => NsUid n = x.uid) (fun n => { n with
        labels := r.labels, replicas := r.replicas, progress := r.progress, checkpoint := r.checkpoint, lost := r.lost }) p.found }

/-- A label read that answers with a whole label region renews what is known of the member. -/
def Dev.noteRead (s : Dev) (m : Nat) (p : MPayload) : Dev :=
  match p with
  | .region r => s.noteRegion m r
  | _ => s

/-- FIELD_GEN of a label, or of a lost-course list, that was written. -/
def genOf : MPayload → Nat
  | .label _ l _ => l.gen
  | .lostList gen _ _ => gen
  | _ => 0

/-- KIND of a label that was written. -/
def kindOf : MPayload → BitVec 8
  | .label _ l _ => l.kind
  | _ => 3

/-- A member read has succeeded. Content that is not what the read asked for is no completion of it. -/
def Dev.readDone (s : Dev) (c : MCmd) (p : MPayload) : Dev :=
  match c.purpose with
  | .hostRead k => match blocksRead c.nlb p with
    | some l => (s.dropMcmd c.id).readLanded k c.member c.lba c.nlb l
    | none => s
  | .job j => match blocksRead c.nlb p with
    | some l => ((s.dropMcmd c.id).cellsLanded j c.id c.lba l).afterReads j
    | none => s
  | .fence f => (s.dropMcmd c.id).fenceLabel f (s.currentLabel (labelsRead p))
  | .adopt =>
    let s := (s.dropMcmd c.id).noteRead c.member p
    match s.currentLabel (labelsRead p) with
    | some x => s.learnField x.label
    | none => s
  | _ => s.dropMcmd c.id

/-- A member write, or a format, has succeeded: it has landed (R63). -/
def Dev.writeDone (s : Dev) (c : MCmd) : Dev :=
  let s := s.dropMcmd c.id
  match c.purpose with
  | .job j => s.jobWriteDone j
  | .heal j => s.jobWriteDone j
  | .label f => s.labelDone f (genOf c.payload) .label c.member
  | .lostList f => s.labelDone f (genOf c.payload) .lost c.member
  | .spareLabel => s.bareLanded c.member (kindOf c.payload)
  | .replica f => (s.copyLanded c.member c.lba).replicaLanded f c.member
  | .checkpoint f => s.onField f fun x => { x with rsMembers := dropAll (· = c.member) x.rsMembers }
  | .region => s.regionLanded c.member
  | .format => s.mbxWake (.format c.member) mbOk []
  | .progress _ | .hostRead _ | .fence _ | .adopt | .fill _ => s

/-- A read has failed or was hedged: every block of it is an erasure (R94). -/
def Dev.readLost (s : Dev) (c : MCmd) (why : Cause) : Dev :=
  let s := s.dropMcmd c.id
  match c.purpose with
  | .hostRead k => s.readFailed k c.member c.lba c.nlb why
  | .job j => (s.cellsFailed j c.id why).afterReads j
  | .fence f => s.fenceLabel f none
  | _ => s

/-- A heal write has failed: the block stays as it was, and the failure counts toward MPT_FAIL_ERASURES (R102, R144). The parameters of
record 0x4024 are those of R95, as for the other member records of a block (log entry 104). -/
def Dev.healFailed (s : Dev) (c : MCmd) (j : Nat) : Dev :=
  let s := match (s.job? j).bind fun b => s.field? b.field with
    | some f =>
      let k := (c.lba - dataStart) / f.b
      let row := (c.lba - dataStart) % f.b
      let now := s.tck.count
      (s.record 0x4024 (s.srcMember c.member) (f.id + f.positionOf c.member * 2 ^ 8 + c.nlb * 2 ^ 16) (k % 2 ^ 32)
        (k / 2 ^ 32 + row * 2 ^ 8)).onMember c.member fun x => { x with erasures := x.erasures ++ [now] }
    | none => s
  (s.dropMcmd c.id).jobWriteDone j

/-- A write has failed. A heal counts as an erasure; any other write fails its member (R144), and what it serves waits for
that. A format that fails ends its mailbox command. -/
def Dev.mwriteFails (s : Dev) (c : MCmd) : Dev :=
  match c.purpose with
  | .heal j => s.healFailed c j
  | .format => (s.dropMcmd c.id).mbxWake (.format c.member) mbInternal []
  | _ => (s.onMpt fun p => { p with cmds := modAll (·.id = c.id) (fun c => { c with failed := true }) p.cmds }).faultEvent c.member false 2

/-- A member command fails. -/
def Dev.mcmdFails (s : Dev) (c : MCmd) (why : Cause) : Dev := if c.op = .read then s.readLost c why else s.mwriteFails c

/-- A completion that has come in is retired, with its checks (R29, R63, R94). -/
def Dev.mcmdRetires (s : Dev) (id : Nat) (r : MemberResult) : Dev :=
  match s.mcmd? id with
  | none => s
  | some c =>
    let s := s.onMpt fun p => { p with retiredNow := p.retiredNow + 1 }
    match r with
    | .ok p => if c.op = .read then s.readDone c p else s.writeDone c
    | .mediaError => (s.memberAdmin c.member (.getLogPage 1)).mcmdFails c .media

/-- MEMBER_COMPLETION: a completion comes in. It is retired at once while the Retire phase runs and has room; else it waits for the next
one, behind those that wait (R29, R30). -/
def Dev.mcmdCompletes (s : Dev) (id : Nat) (r : MemberResult) : Dev :=
  match s.mcmd? id with
  | none => s
  | some _ =>
    if !s.awake || s.mpt.arrived.any (·.1 = id) then s
    else if s.inRetire && s.mpt.arrived = [] && s.mpt.retiredNow < 2048 then s.mcmdRetires id r
    else s.onMpt fun p => { p with arrived := p.arrived ++ [(id, r)] }

/-- The completions that wait are retired, in order, up to 2,048 in a tick (R29, R30). -/
def Dev.retireArrived (s : Dev) : Dev :=
  let l := s.mpt.arrived.take 2048
  (s.onMpt fun p => { p with arrived := p.arrived.drop 2048, retiredNow := 0 }).each l fun s e => s.mcmdRetires e.1 e.2

/-- MEMBER_TRANSPORT_ERROR: poisoned TLP, completion timeout or completer abort on the member port (R94). -/
def Dev.mcmdTransport (s : Dev) (id : Nat) : Dev :=
  match s.mcmd? id with
  | none => s
  | some c => if s.awake then s.mcmdFails c .transport else s

/-- Whether a read serves blocks of a course, which R25 hedges. -/
def MCmd.hedges (c : MCmd) : Bool :=
  c.op = .read && (match c.purpose with
    | .hostRead _ => true
    | .job _ => true
    | _ => false)

/-- MEMBER_READ_HEDGED: at the end of the Retire phase in which a read reaches MPT_HEDGE_TICKS (R25, R94). -/
def Dev.mcmdHedged (s : Dev) (id : Nat) : Dev :=
  match s.mcmd? id with
  | none => s
  | some c =>
    let old : Bool := match c.issued with
      | some t => t.toNat + s.param .mptHedgeTicks ≤ s.now
      | none => false
    if s.inRetire && c.hedges && old then (s.memberAdmin c.member (.abort id)).readLost c .hedged else s

/-! ## Commands -/

/-- MEMBER_COMPLETION. -/
def execMemberCompletion (id : Nat) (r : MemberResult) (s : State) : Host.Outcome State Fault Refusal :=
  .next { s with toDev := s.toDev.mcmdCompletes id r }

/-- MEMBER_TRANSPORT_ERROR. -/
def execMemberTransportError (id : Nat) (s : State) : Host.Outcome State Fault Refusal :=
  .next { s with toDev := s.toDev.mcmdTransport id }

/-- MEMBER_READ_HEDGED. -/
def execMemberReadHedged (id : Nat) (s : State) : Host.Outcome State Fault Refusal :=
  .next { s with toDev := s.toDev.mcmdHedged id }

end Sys2Proof.Machine
end

