-- ==== Sys2Proof/Machine/Tasks.lean ====
section
/-!
DEFINITION. The tick-bound tasks of the Trowel (R35 to R37, R127 to R129, R144, R153, R244, R345, R346): what each computes
from the input snapshot, how a result is posted, and overruns.
-/

namespace Sys2Proof.Machine

/-! ## Posting (R346) -/

/-- Whether the Trowel runs its tick-bound tasks: the sequencer runs, and a pair is in service that has taken the roles of a
halted one (R344, R345). -/
def Dev.trowelRuns (s : Dev) : Bool := s.awake && s.sys.trwHalted.contains false && !s.sys.trwTakeNext

/-- The task of a result (R36). -/
def taskOf : TaskResult → TaskId
  | .quota _ => .quota
  | .slots _ => .slots
  | .leases _ => .leases
  | .share _ => .share
  | .checkpoint => .checkpoint
  | .faults _ => .faults

/-- Whether the tasks that run before a task have posted: the order is 0x06, 0x05, 0x01, 0x02, 0x03, 0x04 (R345). -/
def Tasks.inOrder (t : Tasks) : TaskId → Bool
  | .faults => true
  | .checkpoint => t.faultsReg.isSome
  | .quota => t.ckptReg
  | .slots => t.quotaReg.isSome
  | .leases => t.slotsReg.isSome
  | .share => t.leasesReg.isSome

/-- Whether a task computes from the snapshot, which the end of the Commit phase latches (R345). -/
def fromSnapshot : TaskId → Bool
  | .faults => false
  | .checkpoint => false
  | .quota => true
  | .slots => true
  | .leases => true
  | .share => true

/-- Whether a task may post its result now. -/
def Dev.mayPost (s : Dev) (t : TaskId) : Bool := s.trowelRuns && s.tasks.inOrder t && (!fromSnapshot t || 3 ≤ s.tck.phaseIdx)

/-- A task posts its result by one write that sets the VALID bit of its decision register. -/
def Dev.postResult (s : Dev) (r : TaskResult) : Dev :=
  if !s.mayPost (taskOf r) then s
  else s.onTasks fun t =>
    match r with
    | .quota n => { t with quotaReg := some n }
    | .slots g => { t with slotsReg := some g }
    | .leases l => { t with leasesReg := some l }
    | .share n => { t with shareReg := some n }
    | .checkpoint => { t with ckptReg := true }
    | .faults l => { t with faultsReg := some l, faultEvents := t.faultEvents.filter fun e => !l.contains e }

/-! ## Task 0x01: the write quota (R127) -/

/-- Commits of classes 2 and 3, and writes admitted, over the last `n` ticks. -/
def Tasks.window (t : Tasks) (n : Nat) : Nat × Nat :=
  let l := t.history.take n
  (total (l.map (·.1)), total (l.map (·.2.1)))

/-- The quota of R127. -/
def Dev.quotaOf (s : Dev) : Nat :=
  let x := s.tasks.snap
  let low := s.param .mstQuotaMin
  let room : Int := 64 - (x.hdrPending : Int) - (min (s.param .mstDestageReserve) (x.guardPending + x.clearPending) : Nat) - x.writeBacklog
  if x.admittedWrites = 0 || x.writeCommits = 0 then 512
  else if room ≤ 0 then low
  else min 512 (max low (room.toNat * x.admittedWrites / x.writeCommits))

/-! ## Task 0x02: intent-slot leases (R128) -/

/-- Free loose slots less MST_SLOT_LOW; with fewer than that there is no room. -/
def Dev.looseRoom (s : Dev) : Nat := s.tasks.snap.freeLoose - s.param .mstSlotLow

/-- A division of the loose slots among the fields with a fine map. How the firmware divides them is open: each count is a
free value within what is left (log entry 30). -/
def Dev.slotGrants (s : Dev) : Dev × List (Nat × Nat) :=
  (s.fields.filter fun f => f.fineUse && f.owned).foldl (fun (acc : Dev × List (Nat × Nat)) f =>
    let left := s.looseRoom - total (acc.2.map (·.2))
    (acc.1.drew, acc.2 ++ [(f.id, acc.1.free % (left + 1))])) (s, [])

/-! ## Task 0x03: fine maps (R129) -/

/-- The number of fine ranges that hold the first LBA of a dirty course of a field, at a given FINE_SHIFT. -/
def Dev.dirtyRanges (s : Dev) (f : Field) (shift : Nat) : Nat :=
  let firsts := (s.cache.lines.filter fun l => l.field = f.id && l.dirty).map fun l =>
    let p := f.place l.lba
    f.firstLba p.geom p.course / 2 ^ shift
  (dedup firsts).length

/-- Whether a field may get a fine map of `k` blocks. -/
def Dev.fineOk (s : Dev) (f : Field) (k : Nat) : Bool :=
  let shift := fineShiftOf f.capacity k
  f.homeIndex.isSome && f.owned && !f.reshaping && f.rsPend.isNone && f.fineBlocks = 0 && !f.fineRelease &&
  shift < f.coarseShift && s.param .mstSlotLow ≤ s.tasks.snap.freeLoose && 2 * s.dirtyRanges f shift ≤ s.looseRoom &&
  s.tasks.snap.commitSum ≤ 1024 * s.param .mstFineCommitCeiling

/-- The largest `k` from `n` downward that passes. -/
def Dev.fineBest (s : Dev) (f : Field) : Nat → Nat
  | 0 => 0
  | n + 1 => if s.fineOk f (n + 1) then n + 1 else s.fineBest f n

/-- Writes of a field admitted over the last 65,536 ticks. -/
def Dev.writesOf (s : Dev) (f : Nat) : Nat := total ((s.tasks.fieldWrites.filter fun e => e.2.1 = f).map (·.2.2))

/-- The grants: the field with the most writes first, while fine blocks are free. -/
def Dev.fineGrants (s : Dev) : List LeaseDecision :=
  let most := s.param .mstFineMaxBlocks
  let l := (sortBy (fun f => 2 ^ 64 - s.writesOf f.id) s.fields).filter fun f => 0 < s.fineBest f most
  let step (acc : List LeaseDecision × Nat) (f : Field) : List LeaseDecision × Nat :=
    let k := s.fineBest f (min most acc.2)
    if k = 0 then acc else (acc.1 ++ [.grant f.id k], acc.2 - k)
  (l.foldl step ([], s.freeFineBlocks.length)).1

/-- The valid fine slots of a field. -/
def Dev.fineSlots (s : Dev) (f : Nat) : Nat := (s.mst.slots.filter fun x => x.fine && x.field = f).length

/-- The releases: fields whose writes were held for a slot or that start a reshape; and for a shortage of the whole store one
field, that with the most fine slots. -/
def Dev.fineReleases (s : Dev) : List LeaseDecision :=
  let l := sortBy (fun f => 2 ^ 64 - s.fineSlots f.id) (s.fields.filter fun f => f.fineBlocks ≠ 0 && !f.fineRelease)
  let own := l.filter fun f => s.tasks.snap.slotHeldFields.contains f.id || f.rsPend.isSome || f.reshaping
  let short := s.tasks.snap.freeLoose < s.param .mstSlotLow || 1024 * (s.param .mstFineCommitCeiling + 8) < s.tasks.snap.commitSum
  let more := if short && own = [] then l.take 1 else []
  (own ++ more).map fun f => .release f.id

/-! ## Overruns (R35, R37) -/

/-- The ID of a task (R36). -/
def taskCode : TaskId → Nat
  | .quota => 1 | .slots => 2 | .leases => 3 | .share => 4 | .checkpoint => 5 | .faults => 6

/-- Whether a task's decision register is VALID. -/
def Tasks.posted (t : Tasks) : TaskId → Bool
  | .quota => t.quotaReg.isSome
  | .slots => t.slotsReg.isSome
  | .leases => t.leasesReg.isSome
  | .share => t.shareReg.isSome
  | .checkpoint => t.ckptReg
  | .faults => t.faultsReg.isSome

/-- The tick sequencer as a record source (R42). -/
def Dev.srcTick (s : Dev) : BitVec 16 := s.srcEngine 0xF0

/-- TCK_OVERRUN: at the end of the Retire phase a task has not posted. Its result is stale for the tick that follows. -/
def Dev.overrun (s : Dev) (t : TaskId) : Dev :=
  if !s.awake || s.tck.phaseIdx ≠ 5 || s.tasks.posted t || s.tck.overrunNow.contains t then s
  else
    (s.onTck fun k => { k with
      overrunNow := k.overrunNow ++ [t]
      overrunCount := bump64 k.overrunCount
      overrunTick := (k.count + 1).setWidth 48
      overrunTask := BitVec.ofNat 8 (taskCode t) }).record 0x0101 s.srcTick (taskCode t) 0 0

/-- TCK_OVERRUN_STORM: this tick is the one that completes TCK_STORM_TICKS ticks in a row with an overrun. -/
def Dev.overrunStorm (s : Dev) : Dev :=
  if s.awake && s.tck.overrunNow ≠ [] && !s.tck.stormFired && s.param .tckStormTicks ≤ s.tck.stormRun + 1 then
    (s.onTck fun k => { k with storm := true, stormFired := true, stormSeen := true }).recordEvent 0x0102 s.srcTick 0 0 0 5
  else s

/-! ## Commands -/

/-- TASK_RESULT_POSTED. -/
def execTaskResultPosted (r : TaskResult) (s : State) : Host.Outcome State Fault Refusal :=
  .next { s with toDev := s.toDev.postResult r }

/-- WRITE_QUOTA: task 0x01. -/
def execWriteQuota (s : State) : Host.Outcome State Fault Refusal :=
  .next { s with toDev := s.toDev.postResult (.quota s.toDev.quotaOf) }

/-- INTENT_SLOT_LEASES: task 0x02. -/
def execIntentSlotLeases (s : State) : Host.Outcome State Fault Refusal :=
  let x := s.toDev.slotGrants
  .next { s with toDev := if s.toDev.mayPost .slots then x.1.postResult (.slots x.2) else s.toDev }

/-- FURROW_MAP_REGION_LEASES: task 0x03. -/
def execFurrowMapRegionLeases (s : State) : Host.Outcome State Fault Refusal :=
  .next { s with toDev := s.toDev.postResult (.leases (s.toDev.fineReleases ++ s.toDev.fineGrants)) }

/-- The share that task 0x04 posts: MOR_REBUILD_SHARE, and at most 10 % while the chip is hot (R153, R483). -/
def Dev.shareNow (s : Dev) : Nat := if s.sys.thermWarn then min 100 (s.param .morRebuildShare) else s.param .morRebuildShare

/-- REBUILD_SHARE: task 0x04. -/
def execRebuildShare (s : State) : Host.Outcome State Fault Refusal :=
  .next { s with toDev := s.toDev.postResult (.share s.toDev.shareNow) }

/-- TWIN_CHECKPOINT: task 0x05. The content is what the Mirror phase reads of the changed lines (R135). -/
def execTwinCheckpoint (s : State) : Host.Outcome State Fault Refusal := .next { s with toDev := s.toDev.postResult .checkpoint }

/-- MEMBER_FAULT_DECISIONS: task 0x06 decides on the events noted and on members over the erasure threshold (R144). -/
def execMemberFaultDecisions (s : State) : Host.Outcome State Fault Refusal :=
  .next { s with toDev := s.toDev.postResult (.faults (s.toDev.tasks.faultEvents ++ s.toDev.overThreshold)) }

/-- TCK_OVERRUN. -/
def execTckOverrun (task : TaskId) (s : State) : Host.Outcome State Fault Refusal := .next { s with toDev := s.toDev.overrun task }

/-- TCK_OVERRUN_STORM. -/
def execTckOverrunStorm (s : State) : Host.Outcome State Fault Refusal := .next { s with toDev := s.toDev.overrunStorm }

end Sys2Proof.Machine
end

