-- ==== Sys2Proof/Machine/Vault.lean ====
section
/-!
DEFINITION. The protected cache and the vault (chapter 8): protection (R213, R214), DRAM faults (R232), the dump (R221 to
R226), the restore (R228 to R231), arming (R230) and vault faults (R233), and their commands.
-/

namespace Sys2Proof.Machine

/-! ## Sources and arming -/

/-- The DRAM controller as a record source (R235). -/
def Dev.srcDramCtl (s : Dev) : BitVec 16 := s.srcEngine 0x78

/-- A vault record of a channel (R235). -/
def Dev.vaultRecordOf (s : Dev) (code ch n : Nat) (seq : BitVec 64) : Dev :=
  s.record code (s.srcEngine (0x80 + ch % 8)) n (seq.toNat % 2 ^ 32) (seq.toNat / 2 ^ 32 % 2 ^ 16)

/-- A vault record that concerns a whole slot, which lies on every channel: which of them it carries as source is not stated, a free
value (R235). -/
def Dev.vaultRecord (s : Dev) (code n : Nat) (seq : BitVec 64) : Dev := (s.vaultRecordOf code s.free n seq).drew

/-- A vault slot by number. -/
def Dev.vslot (s : Dev) (i : Nat) : VSlot := (s.vlt.slots[i]?).getD .blank

/-- Changes a vault slot. -/
def Dev.onVslot (s : Dev) (i : Nat) (f : VSlot → VSlot) : Dev :=
  let new := f (s.vslot i)
  s.onVlt fun v => { v with slots := v.slots.set i new }

/-- Whether a slot holds an unconsumed dump of this chip. -/
def VSlot.unconsumed (v : VSlot) : Bool := v.header && !v.foreign && !v.consumed

/-- Of two slots, the one of higher DUMP_SEQ among those with a property. -/
def Dev.newestSlot (s : Dev) (p : VSlot → Bool) : Option Nat :=
  match p (s.vslot 0), p (s.vslot 1) with
  | true, true => some (if (s.vslot 0).dumpSeq.toNat < (s.vslot 1).dumpSeq.toNat then 1 else 0)
  | true, false => some 0
  | false, true => some 1
  | false, false => none

/-- The slots that the next dump may write: not the one that holds the newest unconsumed dump (R221). -/
def Dev.dumpSlots (s : Dev) : List Nat := [0, 1].filter fun i => s.newestSlot VSlot.unconsumed ≠ some i

/-- The slot that a dump writes: a fully erased one, else the one whose background erase has advanced further, slot 0 at a tie
(R221). -/
def Dev.pickSlot (s : Dev) : Nat :=
  let l := s.dumpSlots
  match l.find? fun i => (s.vslot i).erased with
  | some i => i
  | none => (l.find? fun i => l.all fun k => (s.vslot k).erasedPages ≤ (s.vslot i).erasedPages).getD 0

/-- Bytes of a slot over the channels in service. -/
def Dev.slotRoom (s : Dev) : Nat := s.vlt.slotBytes * (8 - s.vlt.failedCh.length) / 8

/-- Whether the slots and the spare blocks meet R221 for the dirty cap in force. -/
def Dev.slotFits (s : Dev) : Bool :=
  11 * 4160 * (s.param .drmDirtyCap / 4096) ≤ 10 * s.slotRoom && s.vlt.retired ≤ Config.vaultSpares

/-- Whether the vault is armed (R230). -/
def Dev.armedNow (s : Dev) : Bool :=
  s.sys.restoreChosen && s.vlt.restoring.isNone && s.slotFits && s.dumpSlots.any fun i => (s.vslot i).erased

/-- The vault arms or disarms. -/
def Dev.rearm (s : Dev) : Dev :=
  let b := s.armedNow
  s.onVlt fun v => { v with armed := b }

/-! ## Protection (R213, R214) -/

/-- HOLDUP_OK changes. -/
def Dev.holdup (s : Dev) (high : Bool) : Dev :=
  let now := s.tck.count
  s.onDrm fun d =>
    if high then (if d.holdupOk then d else { d with holdupOk := true, holdupSince := some now })
    else { d with holdupOk := false, holdupSince := none, settled := false }

/-- HOLDUP_OK has been high for VLT_HOLDUP_SETTLE_TICKS. -/
def Dev.holdupSettles (s : Dev) : Dev :=
  match s.drm.holdupSince with
  | some t =>
    if s.tck.running && s.drm.holdupOk && t.toNat + s.param .vltHoldupSettleTicks ≤ s.now then s.onDrm fun d => { d with settled := true }
    else s
  | none => s

/-- A change of one cause: its record and the cache event (R214). -/
def Dev.causeRecord (s : Dev) (on : Bool) (src : BitVec 16) (n : Nat) : Dev :=
  s.recordEvent (if on then 0x6010 else 0x6011) src n 0 0 3

/-- The causes of R213 take effect at a tick boundary; cause 4 goes field by field, and ends for good once L is within the
cap; writes under R22 whose field is protected again become durable under R18 (R214). -/
def Dev.protBoundary (s : Dev) : Dev :=
  let above := s.param .drmDirtyCap < s.load
  let now := s.causes
  let old := s.drm.protCauses
  let s := s.each ([1, 2, 3, 5].filter fun n => now.getLsbD n ≠ old.getLsbD n) fun s n => s.causeRecord (now.getLsbD n) s.srcDramCtl n
  let s := s.each (s.fields.filter fun f => f.capUnprot ≠ (f.takenOver && above)) fun s f => s.causeRecord (f.takenOver && above) (s.srcField f.id) 4
  let s := s.onFields fun l => l.map fun f => { f with capUnprot := f.takenOver && above, takenOver := f.takenOver && above }
  let s := s.onDrm fun d => { d with protCauses := now }
  let back (c : Cmd) : Cmd := match s.field? c.e.fieldId.toNat with
    | some f => if c.r22 && !s.unprotected f then { c with r22 := false } else c
    | none => c
  s.onQs fun q => { q with cmds := q.cmds.map back }

/-- Whether no destage can remove a line: a pinned one, a band line whose reshape waits for a record slot, a committed one of a
failed store (R216). -/
def Dev.stuck (s : Dev) (l : Line) : Bool :=
  l.pinned || (l.st = .band && (match s.field? l.field with | some f => f.rsSlot = 16 | none => false)) ||
  (l.st = .committed && s.mst.failed)

/-- Whether L is down to WIN_DUMP_LIMIT and the lines that no destage can remove (R216). -/
def Dev.drained? (s : Dev) : Bool := s.cache.lines.all (fun l => !l.dirty || s.stuck l) && !s.qs.cmds.any Cmd.coming

/-- DRM_DUMP_LOAD and DRM_DRAIN at a tick boundary (R216). -/
def Dev.loadBoundary (s : Dev) : Dev :=
  let l := s.load
  let done := s.drained?
  s.onDrm fun d => { d with dumpLoad := l, drain := if d.drain = 0 then 0 else if done then 2 else 1 }

/-! ## DRAM faults (R232) -/

/-- A destage that has issued no member write ends (R232). -/
def Dev.cacheLostJobs (s : Dev) : Dev :=
  s.each (s.cache.jobs.filter fun j => j.kind = .destage && !j.queued) fun s j => s.abortJob j.id

/-- The dirty positions of a course are sealed whole: they join LOST_MASK with REASON 3, and a job writes every row (R232). -/
def Dev.sealDirty (s : Dev) (f : Field) (p : Nat × Bool) (l : List Line) : Dev :=
  let pos := (dedup (l.map fun x => (f.place x.lba).brick))
  let mask := pos.foldl (fun m i => m ||| maskBit (dPos (f.w p.2) p.1 i)) (0 : BitVec 32)
  let s := s.addLost f.id p.1 mask 3
  if s.mst.failed then s
  else s.startJob { Job.fresh .lostLine f.id p.1 p.2 with
    need := pos.flatMap fun i => (List.range f.b).map fun o => f.lba p.2 p.1 i o
    rows := (List.range f.b).map fun o => ⟨p.2, p.1, o, .open, false, false⟩ }

/-- Whether a live partner's mirror still gives a line's content (R231). -/
def Dev.reachable (s : Dev) (l : Line) : Bool := s.partner && l.mirrored && (l.st = .committed || l.st = .band)

/-- The cache is lost (R232): destages without writes end, uncommitted writes end with WRITE_FAULT, the committed lines that
no live partner holds are lost, and every line leaves but those that are fetched from a live partner's mirror. -/
def Dev.loseCache (s : Dev) : Dev :=
  let lines := s.cache.lines
  let gone := lines.filter fun l => (l.st = .committed || l.st = .band) && !s.reachable l
  let left := lines.filter s.reachable
  let s := s.cacheLostJobs
  let s := s.each (s.qs.cmds.filter fun c => c.op.isWrite && (c.stage = .fetching || c.stage = .running) && !c.durable) fun s c =>
    s.endWrite c.id stWriteFault 0
  let s := s.onCache fun k => { k with lines := left }
  let s := s.countN .drmLinesLost gone.length
  s.each s.fields fun s f =>
    let mine := gone.filter (·.field = f.id)
    let courses : List (Nat × Bool) := mine.foldl (fun acc l => let p := f.place l.lba; addNew (p.course, p.geom) acc) []
    s.each courses fun s c => s.sealDirty f c (mine.filter fun l => let p := f.place l.lba; p.course = c.1 && p.geom = c.2)

/-- What a tick boundary does for a lost cache: lines whose partner is gone are lost too (R232). -/
def Dev.lostBoundary (s : Dev) : Dev := if s.drm.cacheLost && s.cache.lines.any (fun l => !s.reachable l) then s.loseCache else s

/-- DRM_CHANNEL_FAILED: the first failed channel is erased in every frame; with the second the cache is lost (R232). -/
def Dev.channelFails (s : Dev) (ch : Nat) : Dev :=
  if 8 ≤ ch || s.drm.channels.getLsbD ch || !s.sys.dramReady || s.sys.frozen then s
  else
    let first := s.drm.channels = 0
    let s := s.onDrm fun d => { d with channels := d.channels ||| (1#8 <<< ch) }
    if first then s.recordEvent 0x6004 (s.srcEngine (0x70 + ch)) 1 0 0 13
    else if s.drm.cacheLost then s
    else ((s.onDrm fun d => { d with cacheLost := true }).recordEvent 0x6005 (s.srcEngine (0x70 + ch)) 1 0 0 13).loseCache

/-- DRM_DIRECTORY_REBUILT: the rebuild is over and admission resumes (R232). The channel of the record is a free value: a frame that no
decode brings back does not show it. -/
def Dev.directoryRebuilt (s : Dev) : Dev :=
  if !s.awake || !s.drm.rebuildingDir then s
  else ((s.onDrm fun d => { d with rebuildingDir := false }).record 0x6006 (s.srcDram (s.free % 8)) 1 0 0).drew

/-- A patrol pass begins when the one before is DRM_PATROL_HOURS old (R232). -/
def Dev.patrolPass (s : Dev) : Dev :=
  let now := s.tck.count
  if s.drm.patrolFrom.toNat + ticksOfSeconds (3600 * s.param .drmPatrolHours) ≤ s.now then
    s.onDrm fun d => { d with patrolFrom := now, patrolled := [] }
  else s

/-- A window page whose frame is lost: what it reads from then on is a free value (R208). -/
def Dev.loseWindowPage (s : Dev) (p : Nat) : Dev :=
  let b := Config.lostPage s.free
  (s.onWin fun w => { w with mem := memWrite (4096 * p) (blockBytes b) w.mem }).drew

/-- What patrol scrub meets in a frame: a line of the pool, a window page, which is corrected in place, or a frame of another
region (R207, R208, R232). -/
def Dev.patrolFrame (s : Dev) (p : PatrolAt) (k : FrameFault) : Dev :=
  let s := s.onDrm fun d => { d with patrolled := addNew p d.patrolled }
  if k = .directory then s.onDrm fun d => { d with rebuildingDir := true }
  else match p with
    | .line n => (match s.cache.lines.find? (·.frame = n) with
      | some l => s.lineFault l true k
      | none => s)
    | .window n => (match frameOutcome k s.drm.channels true with
      | .clean => s
      | .corrected c => s.frameCorrected c 0
      | .recovered c => s.frameRecovered c 0
      | .lost => if 4096 * n < s.hif.barGib * gib then s.loseWindowPage n else s)
    | .other => (match frameOutcome k s.drm.channels true with
      | .clean | .lost => s
      | .corrected c => s.frameCorrected c 0
      | .recovered c => s.frameRecovered c 0)

/-- DRM_PATROL: what the patrol pass meets; it visits a frame once (R232). -/
def Dev.patrol (s : Dev) (l : List (PatrolAt × FrameFault)) : Dev :=
  if !s.awake || !s.sys.dramReady then s
  else s.patrolPass.each l fun s e => if e.1 ≠ .other && s.drm.patrolled.contains e.1 then s else s.patrolFrame e.1 e.2

/-! ## The dump (R221 to R227) -/

/-- The newest committed version of each block, and the band lines, as manifest entries (R225). -/
def Dev.dumpLines (s : Dev) : List VFrame :=
  s.cache.lines.filterMap fun l =>
    match l.st with
    | .committed =>
      if (s.versions l.field l.lba).any fun x => x.st = .committed && l.version < x.version then none
      else some ⟨0, l.field, l.lba, l.data, l.tag⟩
    | .band => some ⟨1, l.field, l.lba, l.data, l.tag⟩
    | _ => none

/-- The window pages below WIN_DUMP_LIMIT as manifest entries (R219, R225). -/
def Dev.dumpPages (s : Dev) : List VFrame :=
  (List.range (s.param .winDumpLimit / 4096)).map fun n => ⟨2, 0, n, s.windowPage n, 0⟩

/-- A dump begins: its first tick follows (R225). -/
def Dev.beginDump (s : Dev) : Dev :=
  let i := s.pickSlot
  s.onVlt fun v => { v with pwrfailLatched := true, dumping := some i, dumpTick := false }

/-- The manifest pages of `n` entries: 1,024 a page (R223). -/
def manifestPages (n : Nat) : Nat := ceilDiv n 1024

/-- The frame pages of `n` frames of 4,160 bytes, packed (R223, R224). -/
def framePages (n : Nat) : Nat := ceilDiv (4160 * n) 16384

/-- The Field Book pages: 131 blocks, four a page (R223, R434). -/
def bookPages : Nat := 33

/-- The frames that lie wholly in the first `p` frame pages. -/
def framesIn (p : Nat) : Nat := 16384 * p / 4160

/-- The dump quiesces the chip and writes under a fresh dump key: header, manifest, seal, then frames as they go. In a slot that is not
fully erased it stops at the first page that is not yet erased; with none erased it writes nothing (R221, R223, R225). -/
def Dev.writeDump (s : Dev) (i : Nat) : Dev :=
  let l := s.dumpLines ++ s.dumpPages
  let n := l.length
  let old := s.vslot i
  let room := if old.erased then none else some old.erasedPages
  let seq := s.vlt.dumpSeq + 1
  let key := s.free
  let s := s.drew.vaultRecord 0x6020 n seq
  let front := manifestPages n + 2
  let v : VSlot :=
    { header := true, foreign := false, twinPos := s.twn.mode && s.twn.position, bootCount := s.mst.bootCount
      storeGen := s.mst.storeGen, dumpSeq := seq, manifest := l, manifestOk := room.all (front ≤ ·)
      written := match room with | none => n | some r => min n (framesIn (r - front))
      fbk := [], footer := false, consumed := false, erased := false, erasing := false, erasedPages := 0
      wrapped := wrapDumpKey key, consumedBoot := 0, fbkWritten := 0 }
  let s := if room = some 0 then s else s.onVslot i fun _ => v
  s.onVlt fun v => { v with dumpSeq := seq, dumpTick := true, dumpKey := some key, dumpRoom := room }

/-- What a tick boundary does for a dump: it begins after the latch, and it quiesces the chip after its first tick (R225). -/
def Dev.dumpBoundary (s : Dev) : Dev :=
  match s.vlt.dumping with
  | some i => if s.vlt.dumpTick then s else s.writeDump i
  | none => if s.vlt.pwrfailLatched && s.sys.restoreChosen && s.vlt.restoring.isNone then s.beginDump else s

/-- DUMP_START: PWRFAIL_N has been low for 128 ns. It is latched; the dump starts at the next tick boundary that no gap
follows; a restore stops at once (R225, R447). In D3hot the DRAM leaves self-refresh. -/
def Dev.dumpStart (s : Dev) : Dev :=
  let s := s.onSys fun y => { y with pwrfailLow := true, pwrfailSeen := y.pwrfailSeen || y.frozen }
  if s.vlt.dumping.isSome || s.sys.frozen then s
  else (s.onVlt fun v => { v with pwrfailLatched := true }).onDrm fun d => { d with selfRefresh := false }

/-- PWR_GOOD falls while a dump runs: the frames written so far stay; none says that the manifest itself is cut short (R447). -/
def Dev.cutDump (s : Dev) (framesWritten : Option Nat) : Dev :=
  match s.vlt.dumping with
  | none => s
  | some i =>
    let s := if s.vlt.dumpTick && s.vlt.dumpRoom ≠ some 0 then s.onVslot i fun v => match framesWritten with
        | some n => { v with written := min n v.written, footer := false }
        | none => { v with manifestOk := false, written := 0, footer := false }
      else s
    s.onVlt fun v => { v with dumping := none, dumpKey := none, dumpRoom := none }

/-! ## The restore (R228 to R231) -/

/-- A slot whose header is not this chip's is ignored and erased: record 0x6029 (R228). -/
def Dev.dropForeign (s : Dev) (i : Nat) : Dev :=
  if (s.vslot i).foreign then
    (s.vaultRecord 0x6029 0 (s.vslot i).dumpSeq).onVslot i fun v => { v with foreign := false, header := false, erasing := true, erasedPages := 0 }
  else s

/-- The cache line of a restored frame; band lines have VERSION 0 (R229, R245). -/
def VFrame.line (e : VFrame) (version : Nat) : Line :=
  ⟨e.field, e.address, if e.kind = 1 then 0 else version, if e.kind = 1 then .band else .committed, 0, e.data, e.tag,
    false, false, none, 0, 0, false⟩

/-- A frame that verifies is written to a new frame, or into the window (R229). -/
def Dev.restoreFrame (s : Dev) (e : VFrame) : Dev :=
  if e.kind = 2 then s.onWin fun w => { w with mem := memWrite (4096 * e.address) (blockBytes e.data) w.mem }
  else
    let v := s.cache.nextVersion
    (s.placeLine (e.line v)).onCache fun k => { k with nextVersion := if e.kind = 1 then v else v + 1 }

/-- Places the restored Field Book records (R434): those of every block that verifies go to ring slots 0 upward, the records
written since the start follow; record 0xA005. -/
def Dev.placeBook (s : Dev) (i : Nat) (badBlocks : List Nat) : Dev :=
  let v := s.vslot i
  let kept := (v.fbk.zipIdx.filter fun e => !badBlocks.contains (e.2 / 126)).map fun e => { e.1 with flags := e.1.flags ||| 8#8 }
  let n := kept.length
  let s := s.onFbk fun k =>
    let all := kept ++ k.ring
    let shift (p : FbPlace) : FbPlace := match p with
      | .ring m => .ring (m + n)
      | x => x
    { k with
      ring := all.drop (all.length - 16384)
      written := k.written + n
      restored := 0 < n
      restoredCount := n
      last := k.last.map fun r => { r with place := shift r.place } }
  s.record 0xA005 (s.srcEngine 0xE0) n (v.dumpSeq.toNat % 2 ^ 32) 0

/-- Whether frame `n` touches frame page `p` (R224). -/
def frameOnPage (n p : Nat) : Bool := 4160 * n < 16384 * (p + 1) && 16384 * p < 4160 * (n + 1)

/-- The frames of a dump are restored under its unwrapped key or declared lost: those on pages that cannot be corrected, those that fail
FRAME_MAC or disagree with their entry, and those that were not written. Window pages that are lost are zeros. Record 0x6024 counts the
frames of a page, with its channel, and then the window pages lost otherwise (R229, R233). A band frame that is lost is missed when its
step is redone (R177). -/
def Dev.restoreFrames (s : Dev) (i : Nat) (pages : List (Nat × Nat)) (bad : List Nat) : Dev :=
  let v := s.vslot i
  let onBad (n : Nat) : Bool := pages.any fun p => frameOnPage n p.1
  let ok (n : Nat) : Bool := n < v.written && !bad.contains n && !onBad n
  let lost := (v.manifest.zipIdx.filter fun e => !ok e.2)
  let s := s.each (v.manifest.zipIdx.filter fun e => ok e.2) fun s e => s.restoreFrame e.1
  let s := s.each pages fun s p =>
    let n := (lost.filter fun e => e.2 < v.written && frameOnPage e.2 p.1).length
    if n = 0 then s else s.vaultRecordOf 0x6024 p.2 n v.dumpSeq
  let told := (lost.filter fun e => e.1.kind = 2 && !(e.2 < v.written && onBad e.2)).length
  let s := if told = 0 then s else s.vaultRecord 0x6024 told v.dumpSeq
  s.onVlt fun x => { x with
    restoring := some i
    dumpKey := some (unwrapDumpKey v.wrapped)
    restored := v.manifest.length - lost.length
    restoreLost := (lost.filter fun e => e.1.kind = 0).map fun e => (e.1.field, e.1.address) }

/-- The fields whose entries this chip's store holds and that have a set furrow bit. -/
def Dev.furrowFields (s : Dev) : List Nat :=
  sortBy id ((s.mst.entries.map (·.1)).filter fun f => s.ownsEntry f && (s.coarseMap f ≠ 0 || s.mst.fine.any (·.1 = f)))

/-- VLT_DUMP_ABSENT: nothing is restored; one record 0x6028 for each field with a set furrow bit (R228, R235). -/
def Dev.dumpAbsent (s : Dev) (slot : Option Nat) : Dev :=
  let seq := match slot with
    | some i => (s.vslot i).dumpSeq
    | none => 0
  s.each s.furrowFields fun s _ => s.vaultRecord 0x6028 1 seq

/-- VAULT_RESTORE_START: both headers are read and the first row of R228 that matches is acted on. -/
def Dev.restoreStart (s : Dev) (badPages : List (Nat × Nat)) (badFrames badBlocks : List Nat) : Dev :=
  if !s.awake || !s.sys.dramReady || s.sys.restoreChosen then s
  else
    let s := (s.dropForeign 0).dropForeign 1
    let pick := (s.newestSlot fun v => v.unconsumed && v.manifestOk && v.footer).or (s.newestSlot fun v => v.unconsumed && v.manifestOk)
    let s := match pick with
      | some i => (s.placeBook i badBlocks).restoreFrames i badPages badFrames
      | none =>
        let old := s.newestSlot VSlot.unconsumed
        if old.isSome || s.mst.slots ≠ [] then s.dumpAbsent old else s
    (s.onSys fun y => { y with restoreChosen := true }).rearm

/-- VLT_RESTORE_DONE: the consumed page is written, the slot's background erase begins, and the restore is recorded (R228,
R230). A power fail that has been latched stopped the restore (R447). -/
def Dev.restoreDone (s : Dev) : Dev :=
  match s.vlt.restoring with
  | none => s
  | some i =>
    if !s.awake || s.vlt.pwrfailLatched then s
    else
      let v := s.vslot i
      let s := s.vaultRecord (if v.footer then 0x6023 else 0x6022) s.vlt.restored v.dumpSeq
      let boot := s.mst.bootCount
      let s := s.onVslot i fun v => { v with consumed := true, consumedBoot := boot, erasing := true, erasedPages := 0 }
      (s.onVlt fun x => { x with restoring := none, dumpKey := none }).rearm

/-- After the restore: the restored lines of a field that is taken up get their slots (R229), its lost lines are handled
(R231), and its wait ends (R452). Lines of fields that the partner owns are discarded (R263). -/
def Dev.restoreField (s : Dev) (f : Field) : Dev :=
  let s := s.onCache fun k => { k with lines := k.lines.map fun l =>
    if l.field = f.id && l.slot.isNone then { l with slot := s.lineSlot f l.lba } else l }
  let s := s.each (s.vlt.restoreLost.filter fun e => e.1 = f.id) fun s e => s.loseLine f.id e.2
  (s.onVlt fun v => { v with restoreLost := dropAll (fun e => e.1 = f.id) v.restoreLost }).onField f.id fun f => { f with restoreWait := false }

/-- What a tick boundary does for the fields that wait for the restore. -/
def Dev.restoreBoundary (s : Dev) : Dev :=
  if !s.sys.restoreChosen || s.vlt.restoring.isSome then s
  else
    s.each (s.fields.filter fun f => f.restoreWait && f.assembled && !f.ownerWait) fun s f =>
      if f.owned then s.restoreField f
      else ((s.onCache fun k => { k with lines := dropAll (fun l => l.field = f.id) k.lines }).onVlt fun v =>
        { v with restoreLost := dropAll (fun e => e.1 = f.id) v.restoreLost }).onField f.id fun f => { f with restoreWait := false }

/-- The pages of a slot, 16 KiB each (R220, R221). -/
def Dev.slotPages (s : Dev) : Nat := s.vlt.slotBytes / 16384

/-- VAULT_ERASE_DONE: a slot's background erase has come as far as `pages` in slot order, from the header page on; with all of them it
completes (R230). -/
def Dev.eraseDone (s : Dev) (i pages : Nat) : Dev :=
  let v := s.vslot i
  if !s.awake || !v.erasing || 2 ≤ i || s.vlt.dumping = some i then s
  else if s.slotPages ≤ pages then (s.onVslot i fun _ => .blank).rearm
  else if pages ≤ v.erasedPages then s
  else s.onVslot i fun _ => { VSlot.blank with erased := false, erasing := true, erasedPages := pages }

/-! ## Vault faults (R233) -/

/-- VLT_HEALTH_TEST: the test of spare blocks falls due, or a channel fails; blocks that fail, given by their channels, leave the pool:
record 0x6027 for each channel with its count. -/
def Dev.healthTest (s : Dev) (failed : List Nat) (channel : Option Nat) : Dev :=
  let due := s.vlt.testAt.toNat + ticksOfSeconds (3600 * s.param .vltTestHours) ≤ s.now
  if !s.awake || !(due || channel.isSome) then s
  else
    let now := s.tck.count
    let s := s.onVlt fun v => { v with
      testAt := if due then now else v.testAt
      retired := v.retired + failed.length
      failedCh := match channel with | some c => addNew c v.failedCh | none => v.failedCh }
    let s := s.each (dedup failed) fun s c => s.vaultRecordOf 0x6027 c (failed.count c) 0
    let s := match channel with
      | some c => s.vaultRecordOf 0x6027 c 1 0
      | none => s
    s.rearm

/-- VAULT_NAND_FAULT: a block is retired and replaced from spares: record 0x6026. -/
def Dev.nandFault (s : Dev) (c : Nat) : Dev :=
  if !s.awake || s.vlt.dumping.isSome then s
  else ((s.onVlt fun v => { v with retired := v.retired + 1 }).record 0x6026 (s.srcEngine (0x80 + c)) 1 0 0).rearm

/-- What a tick boundary does for the cache and the vault. -/
def Dev.vaultBoundary (s : Dev) : Dev := s.rearm.dumpBoundary.restoreBoundary.lostBoundary.protBoundary.loadBoundary

/-! ## Commands -/

/-- HOLDUP_OK_CHANGE. -/
def execHoldupOkChange (high : Bool) (s : State) : Host.Outcome State Fault Refusal :=
  .next { s with toDev := s.toDev.holdup high }

/-- HOLDUP_SETTLE_EXPIRED. -/
def execHoldupSettleExpired (s : State) : Host.Outcome State Fault Refusal :=
  .next { s with toDev := s.toDev.holdupSettles }

/-- DRM_CHANNEL_FAILED. -/
def execDrmChannelFailed (channel : Nat) (s : State) : Host.Outcome State Fault Refusal :=
  .next { s with toDev := s.toDev.channelFails channel }

/-- DRM_DIRECTORY_REBUILT. -/
def execDrmDirectoryRebuilt (s : State) : Host.Outcome State Fault Refusal :=
  .next { s with toDev := s.toDev.directoryRebuilt }

/-- DRM_PATROL. -/
def execDrmPatrol (faults : List (PatrolAt × FrameFault)) (s : State) : Host.Outcome State Fault Refusal :=
  .next { s with toDev := s.toDev.patrol faults }

/-- DUMP_START. -/
def execDumpStart (s : State) : Host.Outcome State Fault Refusal := .next { s with toDev := s.toDev.dumpStart }

/-- VAULT_RESTORE_START. -/
def execVaultRestoreStart (damage : DumpDamage) (badFbkBlocks : List Nat) (s : State) :
    Host.Outcome State Fault Refusal :=
  .next { s with toDev := s.toDev.restoreStart damage.pages damage.frames badFbkBlocks }

/-- VLT_RESTORE_DONE. -/
def execVltRestoreDone (s : State) : Host.Outcome State Fault Refusal := .next { s with toDev := s.toDev.restoreDone }

/-- VAULT_ERASE_DONE. -/
def execVaultEraseDone (reach : EraseReach) (s : State) : Host.Outcome State Fault Refusal :=
  .next { s with toDev := s.toDev.eraseDone reach.slot reach.pages }

/-- VLT_HEALTH_TEST. -/
def execVltHealthTest (failed : List Nat) (channel : Option Nat) (s : State) : Host.Outcome State Fault Refusal :=
  .next { s with toDev := s.toDev.healthTest failed channel }

/-- VAULT_NAND_FAULT. -/
def execVaultNandFault (channel : Nat) (s : State) : Host.Outcome State Fault Refusal :=
  .next { s with toDev := s.toDev.nandFault channel }

end Sys2Proof.Machine
end

