-- ==== Sys2Proof/Machine/Book.lean ====
section
/-!
DEFINITION. The Field Book's writer (R430 to R432, R438) and its mailbox commands (R437). Producing a record, folding and
dropping stand in Ops.
-/

namespace Sys2Proof.Machine

/-- The Field Book as a record source. -/
def Dev.srcFbk (s : Dev) : BitVec 16 := s.srcEngine 0xE0

/-- The bytes of a record (R424). -/
def recBytes (r : FbRec) : List Byte :=
  bytesLE 2 r.code.toNat ++ bytesLE 2 r.src.toNat ++ bytesLE 4 r.seq.toNat ++ bytesLE 6 r.tick.toNat ++ bytesLE 2 r.rep.toNat ++
    [r.sev, r.flags, 0, 0] ++ bytesLE 4 r.p1.toNat ++ bytesLE 4 r.p2.toNat ++ bytesLE 4 r.p3.toNat

/-! ## The writer (R430, R431) -/

/-- A new record raises the Field Book event by its code or its severity (R438). -/
def Dev.bookEvent (s : Dev) (r : FbRec) : Dev :=
  s.when (r.code = 0xA001 || r.code = 0xA002 || s.param .fbkEventSeverity ≤ r.sev.toNat) fun s => s.event 7

/-- A record enters the ring, or the Last Word after a store failure, with the stamp of this tick (R46); its source's
last-record register learns its place. -/
def Dev.putRecordIn (s : Dev) (r : FbRec) : Dev :=
  let r := { r with tick := s.tck.count.setWidth 48 }
  let place := if s.fbk.degraded then FbPlace.ring s.fbk.lwWritten else .ring s.fbk.written
  let s := if s.fbk.degraded then s.toLastWord r
    else s.onFbk fun k =>
      let l := k.ring ++ [r]
      { k with
        ring := l.drop (l.length - 16384)
        written := k.written + 1
        restored := k.written + 1 < k.restoredCount + 16384 && k.restored
        changed := k.changed ++ [(r.src, r.seq)] }
  let s := s.onFbk fun k => { k with last := modAll (fun x => x.src = r.src && x.seq = r.seq) (fun x => { x with place := place }) k.last }
  (s.count .fbkRecords).bookEvent r

/-- The last-record register whose pending folds the next slot writes. -/
def Dev.pendingFold? (s : Dev) : Option FbLast :=
  s.fbk.last.find? fun r => 0 < r.pending && (match r.place with | .ring _ => true | _ => false)

/-- A REPEAT update: the pending folds of a source join its record; a record that is no longer held keeps none. -/
def Dev.writeFold (s : Dev) (r : FbLast) : Dev :=
  let up (x : FbRec) : FbRec := { x with rep := BitVec.ofNat 16 (min 0xFFFF (x.rep.toNat + r.pending)) }
  let it (x : FbRec) : Bool := x.src = r.src && x.seq = r.seq
  s.onFbk fun k =>
    let k := { k with last := setLast { r with pending := 0 } k.last, changed := k.changed ++ [(r.src, r.seq)] }
    if k.degraded then { k with lastWord := modAll it up k.lastWord } else { k with ring := modAll it up k.ring }

/-- Record 0xA001 FBK_DROPPED accounts for the records dropped since the last one (R431). -/
def Dev.writeDrops (s : Dev) : Dev :=
  let k := s.fbk
  let p1 := BitVec.ofNat 32 k.drops
  let p2 := BitVec.ofNat 32 (k.dropFirst.1.toNat + k.dropSrcs.length * 2 ^ 16)
  let p3 := k.dropFirst.2
  let seq := s.nextSeq s.srcFbk
  let r := s.mkRec 0xA001 s.srcFbk seq 0 p1 p2 p3
  let s := (s.useSeq s.srcFbk).onFbk fun k => { k with
    dropping := false, drops := 0, dropFirst := (0, 0), dropSrcs := []
    last := setLast ⟨s.srcFbk, r.code, p1, p2, p3, seq, 1, .gone, 0⟩ k.last }
  s.putRecordIn r

/-- The store fails (R432): record 0xA002 is the first of the failure in the Last Word; PARAM1 holds the folds not applied. -/
def Dev.failBook (s : Dev) : Dev :=
  if s.fbk.degraded then s
  else
    let lost := total (s.fbk.last.map fun r => match r.place with
      | .ring _ => r.pending
      | _ => 0)
    let gone (r : FbLast) : FbLast := match r.place with
      | .ring _ => { r with place := .gone, pending := 0 }
      | _ => r
    let s := s.onFbk fun k => { k with degraded := true, last := k.last.map gone, critical := true }
    let p1 := BitVec.ofNat 32 lost
    let seq := s.nextSeq s.srcFbk
    let r := s.mkRec 0xA002 s.srcFbk seq 0 p1 0 0
    let s := (s.useSeq s.srcFbk).onFbk fun k => { k with last := setLast ⟨s.srcFbk, r.code, p1, 0, 0, seq, 1, .gone, 0⟩ k.last }
    s.putRecordIn r

/-- Whether the Field Book writes: its store has started and its clock runs (R226, R430, R456). -/
def Dev.bookRuns (s : Dev) : Bool := s.fbk.started && !s.sys.frozen && !(s.vlt.dumpTick && s.vlt.dumping.isNone)

/-- FBK_WRITE_SLOT: one write slot: a REPEAT update first, then the account of drops, then the oldest record of the FIFO. -/
def Dev.writeSlot (s : Dev) (logicFault : Bool) : Dev :=
  if !s.bookRuns then s
  else
    let s := s.when logicFault fun s => s.failBook
    match s.pendingFold? with
    | some r => s.writeFold r
    | none =>
      if 0 < s.fbk.drops then s.writeDrops
      else match s.fbk.fifo with
        | [] => s
        | r :: l => (s.onFbk fun k => { k with fifo := l }).putRecordIn r

/-! ## Errors of ring slots (R432) -/

/-- An error that a read of a ring slot meets: corrected, or uncorrectable; too many of these within 2²⁰ ticks fail the store. -/
def Dev.slotError (s : Dev) (n : Nat) (bad : Bool) : Dev :=
  if !bad then (s.count .fbkEccCorrected).record 0xA003 s.srcFbk (n % 16384) 0 0
  else
    let now := s.tck.count
    let s := (s.count .fbkEccUncorrected).record 0xA004 s.srcFbk (n % 16384) 0 0
    let s := s.onFbk fun k => { k with errTicks := (k.errTicks.filter fun t => now.toNat < t.toNat + 2 ^ 20) ++ [now] }
    if s.param .fbkErrLimit ≤ s.fbk.errTicks.length then s.failBook else s

/-- A record as a read that meets an uncorrectable error returns it: DAMAGED, every other byte 0 (R426). -/
def damaged : FbRec := ⟨0, 0, 0, 0, 0, 0, 16, 0, 0, 0⟩

/-! ## The commands (R437) -/

/-- The records of a book and the ring number of the next: ring, partner mirror, Last Word. -/
def Dev.book (s : Dev) (n : Nat) : List FbRec × Nat :=
  match n with
  | 0 => (s.fbk.ring, s.fbk.written)
  | 1 => (s.fbk.mirror, s.fbk.mirrorWritten)
  | _ => (s.fbk.lastWord, s.fbk.lwWritten)

/-- FBK_READ: up to 127 records from a ring number upward; `ecc` lists the ring numbers whose slots are read with an error,
`true` for an uncorrectable one. -/
def Dev.fbkRead (s : Dev) (p : MbxPath) (r : MbxReq) (ecc : List (Nat × Bool)) : Dev :=
  let n := reqId r
  let start := reqAt r 8 8
  if 2 < n then s.mbxRefuse p mbBadArgument 0
  else
    let b := s.book n
    let old := b.2 - b.1.length
    let first := max start old
    let l := ((b.1.drop (first - old)).take 127).zipIdx
    let hit (k : Nat) : Option Bool := if n = 0 then look (first + k) ecc else none
    let out := l.map fun e => if hit e.2 = some true then damaged else e.1
    let s := s.each l fun s e => match hit e.2 with
      | some bad => s.slotError (first + e.2) bad
      | none => s
    s.mbxDone p mbOk (bytesLE 8 (if b.2 ≤ start then start else first) ++ bytesLE 1 out.length ++ zeroBytes 7 ++ out.flatMap recBytes)

/-- A counter's value. -/
def Dev.counter (s : Dev) (c : Ctr) : Nat := s.ctr[ctrIx c]

/-- FBK_INFO. -/
def Dev.fbkInfo (s : Dev) (p : MbxPath) : Dev :=
  let k := s.fbk
  s.mbxDone p mbOk (bytesLE 8 k.written ++ bytesLE 8 (k.written - k.ring.length) ++ bytesLE 8 k.mirrorWritten ++
    bytesLE 8 (k.mirrorWritten - k.mirror.length) ++ bytesLE 4 k.lwWritten ++ bytesLE 4 s.fbkStatus ++
    bytesLE 8 (s.counter .fbkDropped) ++ bytesLE 8 (s.counter .fbkFolds) ++ bytesLE 4 k.restoredCount ++ zeroBytes 4)

/-- FBK_READ arrives. -/
def Dev.onFbkRead (s : Dev) (p : MbxPath) (r : MbxReq) (ecc : List (Nat × Bool)) : Dev :=
  s.mbxCommand p 0x0701 (.fbkRead p r ecc) r (r.len = 16) [] fun s => s.fbkRead p r ecc

/-- FBK_INFO arrives. -/
def Dev.onFbkInfo (s : Dev) (p : MbxPath) (r : MbxReq) : Dev :=
  s.mbxCommand p 0x0702 (.fbkInfo p r) r (r.len = 0) [] fun s => s.fbkInfo p

/-- FBK_WRITE_SLOT. -/
def execFbkWriteSlot (logicFault : Bool) (s : State) : Host.Outcome State Fault Refusal :=
  .next { s with toDev := s.toDev.writeSlot logicFault }

/-- FBK_READ. -/
def execFbkRead (p : MbxPath) (r : MbxReq) (ecc : List (Nat × Bool)) (s : State) : Host.Outcome State Fault Refusal :=
  .next { s with toDev := s.toDev.onFbkRead p r ecc }

/-- FBK_INFO. -/
def execFbkInfo (p : MbxPath) (r : MbxReq) (s : State) : Host.Outcome State Fault Refusal :=
  .next { s with toDev := s.toDev.onFbkInfo p r }

end Sys2Proof.Machine
end

