-- ==== Sys2Proof/Machine/Keystone.lean ====
section
/-!
DEFINITION. The Keystone while the chip runs: the Seed Ledger's records (R390 to R392), owner bundles (R380 to R386), the
security commands (R394), SPDM (R395) and the MCTP control messages (R364, R470).
-/

namespace Sys2Proof.Machine

/-! ## Ledger records -/

/-- The bytes of a measurement entry (R391); the entry keeps SLOT, SVN and VERSION as numbers. -/
def measureBytes (m : Nat × Nat × Nat × Nat × Digest) : List Byte :=
  let (comp, slot, svn, version, digest) := m
  bytesLE 1 comp ++ bytesLE 1 slot ++ zeroBytes 2 ++ bytesLE 4 svn ++ bytesLE 8 version ++ bytesLE 48 digest.toNat

/-- Bytes 0x000 to 0x22F of a ledger record (R390). -/
def Ledger.head (l : Ledger) : List Byte :=
  ascii 8 "HLFSEEDL" ++ bytesLE 2 1 ++
  bytesLE 2 (b2n l.fallow + 2 * b2n l.recovery + 4 * b2n l.counterRestored + 8 * b2n l.owned + 16 * b2n l.locked + 32 * b2n l.kstReset) ++
  bytesLE 4 l.missed.toNat ++ bytesLE 8 l.bootCount.toNat ++ bytesLE 8 Config.serial.toNat ++ bytesLE 4 l.ownerGen.toNat ++
  zeroBytes 28 ++ bytesLE 48 l.prev.toNat ++ l.measures.flatMap measureBytes

/-- The 4,096 bytes of a ledger record with both signatures (R390, R392). -/
def Ledger.bytes (l : Ledger) : List Byte :=
  let h := (l.head ++ zeroBytes 0x230).take 0x230
  let n := fromLE h
  h ++ bytesLE 96 (signEcdsa n 0x230).toNat ++ bytesLE 3309 (signMldsa n 0x230).toNat ++ zeroBytes 131

/-- The SHA-384 of a ledger record. -/
def Ledger.digest (l : Ledger) : Digest := Config.sha384 (fromLE l.bytes) 4096

/-- The record of this boot: the one that could not be programmed, else the newest of the ring. -/
def Kst.head? (k : Kst) : Option Ledger := k.ledgerRam.or k.ledger.getLast?

/-- HEAD_DIGEST; 0 before any record (R394). -/
def Kst.headDigest (k : Kst) : Digest := (k.head?.map Ledger.digest).getD 0

/-- OLDEST: the lowest BOOT_COUNT of a valid record in the ring (R394). -/
def Kst.oldest (k : Kst) : Nat :=
  match k.ledger.map (·.bootCount.toNat) with
  | [] => 0
  | n :: l => l.foldl min n

/-! ## Policies and owner records -/

/-- The 32 bytes of a policy (R384). -/
def policyBytes (p : Policy) : List Byte :=
  bytesLE 4 (b2n p.cosign + 2 * b2n p.freezeEnable + 4 * b2n p.mgmtOnly) ++ ((p.minSvn ++ List.replicate 5 0).take 5).flatMap (bytesLE 4) ++
    zeroBytes 8

/-- The policy that 32 bytes spell. -/
def policyOf (l : List Byte) : Policy :=
  let f := le l 0 4
  ⟨f.testBit 0, f.testBit 1, f.testBit 2, (List.range 5).map fun n => le l (4 + 4 * n) 4⟩

/-- The bytes of an owner record, in the order in which R385 lists its parts. -/
def OwnerRec.bytes (r : OwnerRec) : List Byte := bytesLE 4 r.gen ++ bytesLE 2049 r.keys ++ policyBytes r.policy

/-- OWNER_DIGEST of a record (R385). -/
def OwnerRec.digest (r : OwnerRec) : Digest := Config.sha384 (fromLE r.bytes) r.bytes.length

/-- The stored owner record whose digest is OWNER_DIGEST. -/
def Dev.ownerRec? (s : Dev) : Option OwnerRec :=
  if s.mst.ownerDigest = 0 then none else s.kst.records.find? fun r => r.digest = s.mst.ownerDigest

/-- The owner of a record comes into force, or none; the new record stands beside the earlier one (R385). -/
def Dev.setOwner (s : Dev) (gen : Nat) (r : Option OwnerRec) : Dev :=
  let s := s.onKst fun k => { k with
    ownerState := match r with | some _ => 1 | none => 0
    ownerKeys := match r with | some r => Config.sha384 r.keys 2049 | none => 0
    records := k.records ++ r.toList }
  s.onMst fun m => { m with
    ownerGen := BitVec.ofNat 32 gen
    ownerDigest := match r with | some r => r.digest | none => 0 }

/-- The batch of the boot counter lines has landed: the earlier owner record is erased (R385), and the bundle that waits completes. -/
def Dev.ownerLanded (s : Dev) (p : Option MbxPath) : Dev :=
  let r := s.ownerRec?.toList
  let s := s.onKst fun k => { k with records := r }
  match p with
  | some p => if (s.mbx.run? p).any (·.wait = .owner) then s.mbxDone p mbOk [] else s
  | none => s

/-! ## Owner bundles (R381 to R386) -/

/-- A bundle's fields. -/
structure Bundle where
  magicOk : Bool
  action : Nat
  serial : Nat
  gen : Nat
  nonce : Nat
  policy : Policy
  keys : Nat
  deriving DecidableEq, Repr

/-- Reads a bundle of 5,556 bytes (R381). -/
def bundleOf (l : List Byte) : Bundle where
  magicOk := l.take 8 = ascii 8 "HLFOWNER" && le l 8 2 = 1
  action := le l 0xA 1
  serial := le l 0x10 8
  gen := le l 0x18 4
  nonce := le l 0x20 32
  policy := policyOf ((l.drop 0x40).take 32)
  keys := le l 0x60 97 + le l 0xC4 1952 * 2 ^ 776

/-- The nonce that a path holds (R382). -/
def Kst.nonce (k : Kst) : MbxPath → Option Nat
  | .host => k.nonceHost
  | .mgmt => k.nonceMgmt

/-- Sets the nonce of a path. -/
def Kst.setNonce (k : Kst) (p : MbxPath) (n : Option Nat) : Kst :=
  match p with
  | .host => { k with nonceHost := n }
  | .mgmt => { k with nonceMgmt := n }

/-- The bundle parts that a path has received. -/
def Kst.parts (k : Kst) : MbxPath → List Byte
  | .host => k.enrolHost
  | .mgmt => k.enrolMgmt

/-- Sets the parts of a path. -/
def Kst.setParts (k : Kst) (p : MbxPath) (l : List Byte) : Kst :=
  match p with
  | .host => { k with enrolHost := l }
  | .mgmt => { k with enrolMgmt := l }

/-- Whether a policy lowers a MIN_SVN value of another (R384). -/
def Policy.lowers (p old : Policy) : Bool := (p.minSvn.zip old.minSvn).any fun e => e.1 < e.2

/-- Whether a policy asks for more than the running components have (R384). -/
def Dev.policyAbove (s : Dev) (p : Policy) : Bool :=
  p.minSvn.zipIdx.any fun e => ((s.runningImage.comp? (e.2 + 1)).map (·.svn)).getD 0 < e.1

/-- Whether the rules of R383 and R386 accept a bundle on a path, given the verdict on its signatures. -/
def Dev.bundleOk (s : Dev) (p : MbxPath) (b : Bundle) (sigsOk : Bool) : Bool :=
  let st := s.kst.ownerState
  let zero := b.keys = 0
  let mgmt := !s.kst.policy.mgmtOnly || p = .mgmt
  b.magicOk && sigsOk && b.serial = Config.serial.toNat && (if b.action = 5 then b.nonce = 0 else s.kst.nonce p = some b.nonce) &&
  (match b.action with
   | 1 => st = 0 && !zero
   | 2 => st = 1 && !zero && mgmt
   | 3 => st = 1 && zero && mgmt
   | 4 => st = 1 && zero && mgmt
   | 5 => st = 2 && (⟨b.gen, b.keys, b.policy⟩ : OwnerRec).digest = s.mst.ownerDigest
   | _ => false)

/-- A bundle is refused: counted, recorded, with the security event (R383). -/
def Dev.authFailed (s : Dev) (p : MbxPath) : Dev := ((s.count .kstAuthFailures).recordKstEvent 0x8021 0 0 9).mbxDone p mbAuthFailed []

/-- An accepted bundle acts (R383 to R386): the new owner record, or none, and the policy of the next boot. -/
def Dev.bundleActs (s : Dev) (p : MbxPath) (b : Bundle) : Dev :=
  let gen := if b.action = 5 then b.gen else s.mst.ownerGen.toNat + 1
  let keys := if b.action = 4 then (s.ownerRec?.map (·.keys)).getD 0 else b.keys
  let bare : Policy := { Policy.unowned with minSvn := s.kst.policyNext.minSvn }
  let pol := if b.action = 3 then bare else b.policy
  let s := s.setOwner gen (if b.action = 3 then none else some ⟨gen, keys, pol⟩)
  let s := s.onKst fun k => { k with policyNext := pol }
  let s := ((s.recordKstEvent 0x8020 b.action gen 9).mbxWait p .owner).commitCounter (some p)
  if s.tck.running then s else s.ownerLanded (some p)

/-- The last part has come: the Keystone checks the bundle and acts on it; the nonce is used up (R382). -/
def Dev.bundleDone (s : Dev) (p : MbxPath) (l : List Byte) (sigsOk : Bool) : Dev :=
  let b := bundleOf l
  let good := s.bundleOk p b sigsOk
  let s := s.onKst fun k => (k.setNonce p none).setParts p []
  let sets := b.action = 1 || b.action = 2 || b.action = 4
  if !good then s.authFailed p
  else if sets && b.policy.lowers s.kst.policyNext then s.mbxRefuse p mbBadArgument noDetail
  else if sets && s.policyAbove b.policy then s.mbxRefuse p mbNotAllowed noDetail
  else if s.mst.failed then s.mbxDone p mbInternal []
  else s.bundleActs p b

/-- Whether a part is the last of its bundle. -/
def enrolLast (r : MbxReq) : Bool := reqAt r 0 4 + (r.len - 8) = 5556

/-- OWNER_ENROL. -/
def Dev.ownerEnrol (s : Dev) (p : MbxPath) (r : MbxReq) (sigsOk : Bool) : Dev :=
  let have' := s.kst.parts p
  let n := r.len - 8
  if reqAt r 4 4 ≠ 5556 then (s.onKst fun k => k.setParts p []).mbxRefuse p mbBadArgument 4
  else if reqAt r 0 4 ≠ have'.length || 5556 < have'.length + n then (s.onKst fun k => k.setParts p []).mbxRefuse p mbBadArgument 0
  else
    let l := have' ++ (r.payload.drop 8).take n
    if enrolLast r then s.bundleDone p l sigsOk else (s.onKst fun k => k.setParts p l).mbxOk p

/-- OWNER_POLICY. -/
def Dev.ownerPolicy (s : Dev) (p : MbxPath) : Dev :=
  s.mbxDone p mbOk (bytesLE 1 s.kst.ownerState.toNat ++ zeroBytes 3 ++ bytesLE 4 s.mst.ownerGen.toNat ++ policyBytes s.kst.policy ++
    policyBytes s.kst.policyNext)

/-! ## Ledger and certificates (R394) -/

/-- LEDGER_READ. -/
def Dev.ledgerRead (s : Dev) (p : MbxPath) (r : MbxReq) : Dev :=
  let n := reqAt r 0 8
  let part := reqAt r 8 1
  if 1 < part then s.mbxRefuse p mbBadArgument 8
  else match (s.kst.ledger ++ s.kst.ledgerRam.toList).find? fun l => l.bootCount.toNat = n with
    | none => s.mbxRefuse p mbBadArgument 0
    | some l => s.mbxDone p mbOk (bytesLE 8 n ++ bytesLE 1 part ++ zeroBytes 7 ++ (l.bytes.drop (2048 * part)).take 2048)

/-- LEDGER_INFO: it draws a new owner nonce for the path (R382). -/
def Dev.ledgerInfo (s : Dev) (p : MbxPath) : Dev :=
  let nonce := s.free % 2 ^ 256
  let s := s.drew.onKst fun k => k.setNonce p (some nonce)
  s.mbxDone p mbOk (bytesLE 8 s.mst.bootCount.toNat ++ bytesLE 8 s.kst.oldest ++ bytesLE 48 s.kst.headDigest.toNat ++ bytesLE 32 nonce ++
    bytesLE 1 s.kst.ownerState.toNat ++ zeroBytes 3 ++ bytesLE 4 s.mst.ownerGen.toNat)

/-- The object that a CERT_READ slot names: its length and its bytes. -/
def Dev.certObject (s : Dev) (slot : Nat) : Nat × (Nat → Byte) :=
  if slot < 2 then (Config.certLength slot, Config.certByte slot)
  else
    let l := (s.ownerRec?.map OwnerRec.bytes).getD []
    (l.length, fun n => (l[n]?).getD 0)

/-- CERT_READ. -/
def Dev.certRead (s : Dev) (p : MbxPath) (r : MbxReq) : Dev :=
  let slot := reqId r
  let off := reqAt r 4 4
  if 2 < slot then s.mbxRefuse p mbBadArgument 0
  else
    let o := s.certObject slot
    let n := min 4000 (o.1 - off)
    s.mbxDone p mbOk (bytesLE 4 o.1 ++ bytesLE 4 n ++ (List.range n).map fun i => o.2 (off + i))

/-! ## SPDM (R395) -/

/-- Whether the SPDM responder is up: from the end of S1 (R451). -/
def Dev.spdmUp (s : Dev) : Bool := s.kst.running && !s.kst.halted && !s.sys.frozen

/-- An SPDM request other than GET_VERSION: served while KST_SPDM_ENABLE is 1. -/
def Dev.spdm (s : Dev) (t : MbxPath) (m : Spdm) : Dev :=
  if !s.spdmUp then s else s.emit (.spdm t (if s.param .kstSpdmEnable = 1 then m else .unsupported))

/-- GET_VERSION. -/
def Dev.spdmVersion (s : Dev) (t : MbxPath) : Dev := if s.spdmUp then s.emit (.spdm t .version) else s

/-- The value type of a measurement block (R395). -/
def blockType (n : Nat) : Nat := if n = 1 then 0 else if n = 7 then 3 else if n = 8 then 0x84 else 1

/-- Measurement block `n`, from 1 to 8: index, value type, value. -/
def Kst.block (k : Kst) (boot : BitVec 64) (n : Nat) : Nat × Nat × Nat :=
  (n, blockType n,
    if n = 8 then boot.toNat + k.headDigest.toNat * 2 ^ 64
    else (((k.head?.bind fun l => l.measures[n - 1]?).map fun m => m.2.2.2.2.toNat).getD 0))

/-- The chain that slot 0 holds, as the digest of GET_DIGESTS. -/
def chainDigest : Digest := Config.sha384 (fromLE ((List.range (Config.certLength 0)).map (Config.certByte 0))) (Config.certLength 0)

/-- A number that stands for what an SPDM signature covers: the values told and the requester's nonce. -/
def spdmMessage (l : List (Nat × Nat × Nat)) (nonce : Nat) : Nat :=
  fromLE ((l.flatMap fun e => bytesLE 1 e.1 ++ bytesLE 1 e.2.1 ++ bytesLE 56 e.2.2) ++ bytesLE 32 nonce)

/-- GET_CERTIFICATE: part of chain 0; no other slot exists. -/
def Dev.spdmCert (s : Dev) (t : MbxPath) (slot offset length : Nat) : Dev :=
  let n := min length (Config.certLength 0 - offset)
  s.spdm t (if slot = 0 then .certificate offset n (Config.certLength 0 - offset - n) else .unsupported)

/-- CHALLENGE, signed with the ECDSA identity key. -/
def Dev.spdmChallenge (s : Dev) (t : MbxPath) (slot nonce : Nat) : Dev :=
  let l := (List.range 8).map fun n => s.kst.block s.mst.bootCount (n + 1)
  let m := spdmMessage l nonce
  s.spdm t (if slot = 0 then .challengeAuth (Config.sha384 (spdmMessage l 0) 496) (signEcdsa m 496) else .unsupported)

/-- GET_MEASUREMENTS: index 0 asks for the number of blocks, 0xFF for all, 1 to 8 for one. -/
def Dev.spdmMeasure (s : Dev) (t : MbxPath) (index nonce : Nat) (signed : Bool) : Dev :=
  let block (n : Nat) := s.kst.block s.mst.bootCount n
  let l : List (Nat × Nat × Nat) :=
    if index = 0xFF then (List.range 8).map fun n => block (n + 1) else if index = 0 then [(0, 0, 8)] else [block index]
  let m := spdmMessage l nonce
  let sig := if signed then some (signEcdsa m (58 * l.length + 32)) else none
  s.spdm t (if index ≤ 8 || index = 0xFF then .measurements l sig else .unsupported)

/-! ## MCTP control (R364) -/

/-- An MCTP control message is answered from S1 on (R451). -/
def Dev.mctp (s : Dev) (m : Mctp) : Dev := if s.kst.running && !s.sys.frozen then s.emit (.mctp m) else s

/-- Set Endpoint ID: 0 and 0xFF name no endpoint, and leave the ID as it is. -/
def Dev.mctpSet (s : Dev) (eid : BitVec 8) : Dev :=
  if !s.kst.running || s.sys.frozen then s
  else
    let s := if eid = 0 || eid = 0xFF then s else s.onHif fun h => { h with eid := eid }
    s.mctp (.setEid s.hif.eid)

/-- The I3C controller assigns a dynamic address (R470). -/
def Dev.i3cAssign (s : Dev) (a : BitVec 7) : Dev :=
  if s.kst.running && !s.sys.frozen then s.onHif fun h => { h with i3cAddr := some a } else s

/-! ## Entries -/

/-- LEDGER_READ arrives. -/
def Dev.onLedgerRead (s : Dev) (p : MbxPath) (r : MbxReq) : Dev :=
  s.mbxCommand p 0x0501 (.ledgerRead p r) r (r.len = 16) [] fun s => s.ledgerRead p r

/-- LEDGER_INFO arrives. -/
def Dev.onLedgerInfo (s : Dev) (p : MbxPath) (r : MbxReq) : Dev :=
  s.mbxCommand p 0x0502 (.ledgerInfo p r) r (r.len = 0) [] fun s => s.ledgerInfo p

/-- CERT_READ arrives. -/
def Dev.onCertRead (s : Dev) (p : MbxPath) (r : MbxReq) : Dev :=
  s.mbxCommand p 0x0503 (.certRead p r) r (r.len = 8) [] fun s => s.certRead p r

/-- OWNER_ENROL arrives; its last part takes the pair object (R394). -/
def Dev.onOwnerEnrol (s : Dev) (p : MbxPath) (r : MbxReq) (sigsOk : Bool) : Dev :=
  s.mbxCommand p 0x0504 (.ownerEnrol p r sigsOk) r (8 ≤ r.len) (if enrolLast r then [.pair] else []) fun s => s.ownerEnrol p r sigsOk

/-- OWNER_POLICY arrives. -/
def Dev.onOwnerPolicy (s : Dev) (p : MbxPath) (r : MbxReq) : Dev :=
  s.mbxCommand p 0x0505 (.ownerPolicy p r) r (r.len = 0) [] fun s => s.ownerPolicy p

/-! ## Commands -/

/-- LEDGER_READ. -/
def execLedgerRead (p : MbxPath) (r : MbxReq) (s : State) : Host.Outcome State Fault Refusal :=
  .next { s with toDev := s.toDev.onLedgerRead p r }

/-- LEDGER_INFO. -/
def execLedgerInfo (p : MbxPath) (r : MbxReq) (s : State) : Host.Outcome State Fault Refusal :=
  .next { s with toDev := s.toDev.onLedgerInfo p r }

/-- CERT_READ. -/
def execCertRead (p : MbxPath) (r : MbxReq) (s : State) : Host.Outcome State Fault Refusal :=
  .next { s with toDev := s.toDev.onCertRead p r }

/-- OWNER_ENROL. -/
def execOwnerEnrol (p : MbxPath) (r : MbxReq) (sigsOk : Bool) (s : State) : Host.Outcome State Fault Refusal :=
  .next { s with toDev := s.toDev.onOwnerEnrol p r sigsOk }

/-- OWNER_POLICY. -/
def execOwnerPolicy (p : MbxPath) (r : MbxReq) (s : State) : Host.Outcome State Fault Refusal :=
  .next { s with toDev := s.toDev.onOwnerPolicy p r }

/-- GET_VERSION. -/
def execGetVersion (t : MbxPath) (s : State) : Host.Outcome State Fault Refusal := .next { s with toDev := s.toDev.spdmVersion t }

/-- GET_CAPABILITIES. -/
def execGetCapabilities (t : MbxPath) (s : State) : Host.Outcome State Fault Refusal :=
  .next { s with toDev := s.toDev.spdm t .capabilities }

/-- NEGOTIATE_ALGORITHMS. -/
def execNegotiateAlgorithms (t : MbxPath) (s : State) : Host.Outcome State Fault Refusal :=
  .next { s with toDev := s.toDev.spdm t .algorithms }

/-- GET_DIGESTS. -/
def execGetDigests (t : MbxPath) (s : State) : Host.Outcome State Fault Refusal :=
  .next { s with toDev := s.toDev.spdm t (.digests chainDigest) }

/-- GET_CERTIFICATE. -/
def execGetCertificate (t : MbxPath) (slot offset length : Nat) (s : State) : Host.Outcome State Fault Refusal :=
  .next { s with toDev := s.toDev.spdmCert t slot offset length }

/-- CHALLENGE. -/
def execChallenge (t : MbxPath) (slot nonce : Nat) (s : State) : Host.Outcome State Fault Refusal :=
  .next { s with toDev := s.toDev.spdmChallenge t slot nonce }

/-- GET_MEASUREMENTS. -/
def execGetMeasurements (t : MbxPath) (index nonce : Nat) (signed : Bool) (s : State) : Host.Outcome State Fault Refusal :=
  .next { s with toDev := s.toDev.spdmMeasure t index nonce signed }

/-- SPDM_UNSUPPORTED_REQUEST. -/
def execSpdmUnsupportedRequest (t : MbxPath) (_code : BitVec 8) (s : State) : Host.Outcome State Fault Refusal :=
  .next { s with toDev := s.toDev.spdm t .unsupported }

/-- SET_ENDPOINT_ID. -/
def execSetEndpointId (eid : BitVec 8) (s : State) : Host.Outcome State Fault Refusal := .next { s with toDev := s.toDev.mctpSet eid }

/-- GET_ENDPOINT_ID. -/
def execGetEndpointId (s : State) : Host.Outcome State Fault Refusal := .next { s with toDev := s.toDev.mctp (.getEid s.hif.eid) }

/-- GET_MCTP_VERSION_SUPPORT. -/
def execGetMctpVersionSupport (msgType : BitVec 8) (s : State) : Host.Outcome State Fault Refusal :=
  .next { s with toDev := s.toDev.mctp (.versions msgType) }

/-- GET_MESSAGE_TYPE_SUPPORT: control, SPDM and the mailbox's vendor-defined type. -/
def execGetMessageTypeSupport (s : State) : Host.Outcome State Fault Refusal :=
  .next { s with toDev := s.toDev.mctp (.types [0x00, 0x05, 0x7E]) }

/-- GET_VENDOR_DEFINED_MESSAGE_SUPPORT: one vendor ID, at selector 0. -/
def execGetVendorDefinedMessageSupport (selector : BitVec 8) (s : State) : Host.Outcome State Fault Refusal :=
  .next { s with toDev := s.toDev.mctp (.vendor selector 0x1F5A) }

/-- I3C_DYNAMIC_ADDRESS. -/
def execI3cDynamicAddress (addr : BitVec 7) (s : State) : Host.Outcome State Fault Refusal :=
  .next { s with toDev := s.toDev.i3cAssign addr }

end Sys2Proof.Machine
end

