-- ==== Sys2Proof/Machine/Boot.lean ====
section
/-!
DEFINITION. A run of the Keystone boot ROM (R368, R446): the boot counter and the owner (R385 to R389), update markers,
verification, activation and the choice of image (R399 to R421), image checks (R387), and the Seed Ledger record (R391 to R393).
-/

namespace Sys2Proof.Machine

/-! ## The boot counter and the owner (R385, R386, R389) -/

/-- Step 3: the boot is counted; when no counter line passes its CHECK, the count comes from the ledger, and the owner digest is
unknown: a free value that is not 0, when the ledger shows an owner. Answers whether the counter was restored. -/
def Dev.countBoot (s : Dev) (b : BootEnv) : Dev × Bool :=
  if [4, 5, 6, 7].all b.badCounterLines.contains then
    let last := s.kst.ledger.getLast?
    let n := (s.kst.ledger.map fun l => l.bootCount.toNat).foldl max 0
    let owned := last.any fun l => l.owned || l.locked
    let d : Digest := if owned then BitVec.ofNat 384 s.free ||| 1 else 0
    let gen := (last.map (·.ownerGen)).getD 0
    let s := s.drew.onMst fun m => { m with bootCount := BitVec.ofNat 64 (n + 1), ownerDigest := d, ownerGen := gen }
    ((s.commitCounter none).recordKstEvent 0x8010 0 0 9, true)
  else ((s.onMst fun m => { m with bootCount := m.bootCount + 1 }).commitCounter none, false)

/-- The policy of a LOCKED chip (R386). -/
def Policy.locked (old : Policy) : Policy := ⟨true, false, true, old.minSvn⟩

/-- The owner state and the policy in force follow OWNER_DIGEST and the stored records (R384 to R386). -/
def Dev.settleOwner (s : Dev) : Dev :=
  if s.mst.ownerDigest = 0 then
    s.onKst fun k =>
      let p : Policy := { Policy.unowned with minSvn := k.policyNext.minSvn }
      { k with ownerState := 0, ownerKeys := 0, policy := p, policyNext := p }
  else match s.ownerRec? with
    | some r => s.onKst fun k => { k with
        ownerState := 1, ownerKeys := Config.sha384 r.keys 2049, policy := r.policy, policyNext := r.policy }
    | none =>
      (s.onKst fun k => { k with
        ownerState := 2, ownerKeys := 0, policy := .locked k.policyNext, policyNext := .locked k.policyNext }).recordKstEvent 0x8011 0 0 9

/-! ## Slots and markers (R398 to R400) -/

/-- The image of a slot. -/
def Upd.image (u : Upd) (slot : Bool) : Image := if slot then u.image1 else u.image0

/-- The state of a slot. -/
def Upd.slotState (u : Upd) (slot : Bool) : Nat := if slot then u.slot1 else u.slot0

/-- Sets the state of a slot. -/
def Upd.setSlot (u : Upd) (slot : Bool) (n : Nat) : Upd := if slot then { u with slot1 := n } else { u with slot0 := n }

/-- Sets the image of a slot. -/
def Upd.setImage (u : Upd) (slot : Bool) (im : Image) : Upd := if slot then { u with image1 := im } else { u with image0 := im }

/-- The update lines change in one batch, which a command may wait for (R399, R410). -/
def Dev.markerFor (s : Dev) (p : Option MbxPath) (f : Upd → Upd) : Dev :=
  (s.onUpd fun u => { f u with updateSeq := u.updateSeq + 1 }).commitUpd true true p

/-- The same when no command waits. -/
def Dev.marker (s : Dev) (f : Upd → Upd) : Dev := s.markerFor none f

/-- The update state without session and package (R407, R410). -/
def Upd.noPackage (u : Upd) : Upd :=
  { u with
    seedState := 0, sessionId := 0, hostJoined := false, mgmtJoined := false, openerMgmt := false, idleS := 0, chunkCount := 0
    digest := 0, received := 0, provisional := 0, partHost := none, partMgmt := none }

/-- A session leaves: SESSION_ID 0 and SEEDBED_STATE EMPTY in one batch (R410). -/
def Dev.dropSession (s : Dev) (p : Option MbxPath) : Dev := s.markerFor p Upd.noPackage

/-- The session ends with its verification, whose package stays (R407, R413). -/
def Upd.endSession (u : Upd) : Upd :=
  { u with sessionId := 0, hostJoined := false, mgmtJoined := false, openerMgmt := false, idleS := 0 }

/-- The digest of a component's image. -/
def Image.digest (im : Image) (n : Nat) : Digest := (look n im.digests).getD (Config.deliveredDigest n)

/-! ## Image signatures (R387) -/

/-- Why a component at a place is refused: 2 signature, 3 owner co-signature, 4 SVN; the verdicts on signatures come with the
run. A LOCKED chip knows no owner key. -/
def Dev.compFault (s : Dev) (b : BootEnv) (place : Nat) (c : Component) : Option Nat :=
  if b.badVendor.contains (place, c.number) then some 2
  else if s.kst.policy.cosign && (s.kst.ownerState = 2 || b.badOwner.contains (place, c.number)) then some 3
  else if c.svn < (s.kst.policy.minSvn[c.number - 1]?).getD 0 then some 4
  else none

/-- The components of a slot that fail R387. -/
def Dev.badComps (s : Dev) (b : BootEnv) (slot : Bool) : List Nat :=
  ((s.upd.image slot).comps.filter fun c => (s.compFault b (b2n slot) c).isSome).map (·.number)

/-- A slot whose components fail while they load becomes FAILED: record 0x8040 for each. -/
def Dev.loadFails (s : Dev) (slot : Bool) (bad : List Nat) : Dev :=
  (s.each bad fun s n => s.recordKstEvent 0x8040 n 0 9).marker fun u => u.setSlot slot 4

/-! ## The package (R402 to R405) -/

/-- A component entry from 64 bytes (R404). -/
def componentOf (l : List Byte) : Component where
  number := le l 0 1
  ifVersion := le l 2 2
  svn := le l 4 4
  major := le l 8 2
  minor := le l 0xA 2
  build := le l 0xC 4
  offset := le l 0x10 4
  imageBytes := le l 0x14 4
  sigOffset := le l 0x18 4
  sigBytes := le l 0x1C 4
  accept := (List.range 5).map fun n => (le l (0x20 + 4 * n) 2, le l (0x22 + 4 * n) 2)
  twnVersion := le l 0x34 2
  formatSet := le l 0x36 2
  configFormat := le l 0x38 2
  configFormatOld := le l 0x3A 2
  labelFormat := le l 0x3C 2
  labelFormatOld := le l 0x3E 2

/-- The manifest that the bytes of chunk 0 spell, when its MAGIC, FORMAT and layout hold (R403). -/
def manifestOf (l : List Byte) : Option Manifest :=
  let n := le l 0xA 1
  let count := le l 0xC 2
  let bytes := le l 0x10 4
  let comps := (List.range n).map fun i => componentOf ((l.drop (0x20 + 64 * i)).take 64)
  let ok := l.take 8 = ascii 8 "HLFPACKG" && le l 8 2 = 1 && 1 ≤ n && n ≤ 5 && 2 ≤ count && count ≤ 256 &&
    65536 * (count - 1) < bytes && bytes ≤ 65536 * count && comps.all fun c => 1 ≤ c.number && c.number ≤ 5
  if ok then
    some ⟨count, bytes, (List.range (count - 1)).map fun i => BitVec.ofNat 384 (le l (0x160 + 48 * i) 48), comps⟩
  else none

/-- A byte of the package in the seedbed (R402). -/
def Upd.packageByte (u : Upd) (n : Nat) : Byte :=
  match u.chunks.find? (·.1 = n / 65536) with
  | some (_, v, _) => BitVec.ofNat 8 (v >>> (8 * (n % 65536)))
  | none => 0

/-- `k` bytes of the package as a number. -/
def Upd.packageAt (u : Upd) (n k : Nat) : Nat := fromLE ((List.range k).map fun i => u.packageByte (n + i))

/-- The DIGEST that a component's signature block gives (R405). -/
def Upd.sigDigest (u : Upd) (c : Component) : Digest := BitVec.ofNat 384 (u.packageAt (c.sigOffset + 0x10) 48)

/-! ## Verification (R413) -/

/-- Whether no image can be booted: the run is one of the recovery loader, which has no reference slot. -/
def Upd.inRecovery (u : Upd) : Bool :=
  let a := u.slotState u.activeSlot
  !(a = 3 || (a = 2 && u.unconfBoots < 3) || u.slotState (!u.activeSlot) = 3)

/-- The reference slot: the active slot, or the fallow slot while the active slot is WRITING; none in recovery. -/
def Upd.reference (u : Upd) : Option Image :=
  if u.inRecovery then none
  else some (u.image (if u.slotState u.activeSlot = 1 then !u.activeSlot else u.activeSlot))

/-- The set that would run: for each component the package's entry, else the reference slot's. -/
def updateSet (m : Manifest) (ref : Option Image) : List Component :=
  (List.range 5).filterMap fun i => (m.components.find? (·.number = i + 1)).or (ref.bind fun r => r.comp? (i + 1))

/-- The compatibility check: every component accepts the interface version of every other. -/
def compatible (l : List Component) : Bool :=
  l.all fun x => l.all fun y => y.number = x.number ||
    (let r := (x.accept[y.number - 1]?).getD (0, 0); r.1 ≤ y.ifVersion && y.ifVersion ≤ r.2)

/-- The format check: 4 of R413. -/
def formatsOk (m : Manifest) (ref : Option Image) (config : Nat) : Bool :=
  match m.components.find? (·.number = 2), ref with
  | none, _ => true
  | some t, none => t.configFormat = config || t.configFormatOld = config
  | some t, some r =>
    match r.comp? 2 with
    | some o => t.formatSet = o.formatSet && (t.configFormat = o.configFormat || t.configFormatOld = o.configFormat) &&
        (t.labelFormat = o.labelFormat || t.labelFormatOld = o.labelFormat)
    | none => true

/-- The configuration store's format: that of the TRW of the last image that ran. -/
def Upd.configFormat (u : Upd) : Nat := (((u.image u.activeSlot).comp? 2).map (·.configFormat)).getD 1

/-- The twin version check: 5 of R413. -/
def Dev.twinVersionOk (s : Dev) (set : List Component) : Bool :=
  match s.twn.partnerVersion, set.find? (·.number = 2) with
  | some v, some t => s.param .twnMode ≠ 1 || (t.twnVersion ≤ v + 1 && v ≤ t.twnVersion + 1)
  | _, _ => true

/-- Verification: the REJECT_REASON of the first check that fails. -/
def Dev.verifyPackage (s : Dev) (b : BootEnv) : Option Nat :=
  match s.upd.manifest with
  | none => some 1
  | some m =>
    let ref := s.upd.reference
    let set := updateSet m ref
    if b.badChunks ≠ [] then some 1
    else match m.components.findSome? fun c => s.compFault b 2 c with
      | some r => some r
      | none =>
        if !compatible set then some 5
        else if !formatsOk m ref s.upd.configFormat then some 6
        else if !s.twinVersionOk set then some 7
        else if ref.isNone && set.length < 5 then some 8
        else none

/-! ## Activation (R414) -/

/-- The activation copy into the active slot: its components from the seedbed or from the old active slot; then the commit
marker, record 0x9012 and the background erase of the seedbed, or a slot FAILED when a read-back fails. -/
def Dev.activate (s : Dev) (b : BootEnv) : Dev :=
  let u := s.upd
  let t := u.activeSlot
  let old := u.image (!t)
  let m := u.manifest
  let pick (n : Nat) : Option (Component × Digest) :=
    match m.bind fun m => m.components.find? (·.number = n) with
    | some c => some (c, u.sigDigest c)
    | none => (old.comp? n).map fun c => (c, old.digest n)
  let l := [1, 2, 3, 4, 5].filterMap pick
  let im : Image := ⟨l.map (·.1), l.map fun e => (e.1.number, e.2)⟩
  if b.readBackFails then s.marker fun u => u.setSlot t 4
  else
    let s := s.marker fun u => { (u.noPackage.setSlot t 2).setImage t im with unconfBoots := 0, chunks := [], manifest := none, erasing := true }
    s.recordKstEvent 0x9012 0 0 8

/-! ## The choice of image (R412) -/

/-- How a run of the boot ROM goes on: it boots a slot, enters the recovery loader, or was cut short by a power loss. -/
inductive BootTo where
  | slot (slot : Bool)
  | recovery
  | cut
  deriving DecidableEq, Repr

/-- Row 6: fall back to a CONFIRMED fallow slot, else the recovery loader. -/
def Dev.fallBack (s : Dev) (b : BootEnv) : Dev × BootTo :=
  let a := s.upd.activeSlot
  if s.upd.slotState (!a) = 3 then
    let s := s.marker fun u => { u.setSlot a 4 with activeSlot := !a }
    let s := (s.count .updFallbacks).recordKstEvent 0x9022 0 0 8
    match s.badComps b (!a) with
    | [] => (s, .slot (!a))
    | bad => (s.loadFails (!a) bad, .recovery)
  else (s, .recovery)

/-- Rows 4 to 6. -/
def Dev.chooseSlot (s : Dev) (b : BootEnv) : Dev × BootTo :=
  let a := s.upd.activeSlot
  let st := s.upd.slotState a
  if st = 3 || (st = 2 && s.upd.unconfBoots < 3) then
    let s := if st = 2 then s.marker fun u => { u with unconfBoots := u.unconfBoots + 1 } else s
    match s.badComps b a with
    | [] => (s, .slot a)
    | bad => (s.loadFails a bad).fallBack b
  else s.fallBack b

/-- A verification that fails: record 0x9011. -/
def Dev.rejectPackage (s : Dev) (reason : Nat) : Dev :=
  (s.marker fun u => { u.endSession with seedState := 4, rejectReason := reason }).recordKstEvent 0x9011 reason 0 8

/-- The copy runs, unless power fails in it (R420). -/
def Dev.copyGoes (s : Dev) (b : BootEnv) : Dev × BootTo := if b.copyCut then (s, .cut) else (s.activate b).chooseSlot b

/-- The rows of R412, in order. -/
def Dev.bootRows (s : Dev) (b : BootEnv) : Dev × BootTo :=
  let u := s.upd
  if u.seedState = 2 then
    match s.verifyPackage b with
    | some r => (s.rejectPackage r).chooseSlot b
    | none =>
      let s := (s.marker fun u => { u.endSession with seedState := 3, rejectReason := 0 }).recordKstEvent 0x9010 0 0 8
      let t := !u.activeSlot
      (s.marker fun u => { u.setSlot t 1 with activeSlot := t, copyArmed := false }).copyGoes b
  else if u.slotState u.activeSlot = 1 then
    if u.copyArmed then
      match s.verifyPackage b with
      | some r => ((s.rejectPackage r).marker fun u => u.setSlot u.activeSlot 4).chooseSlot b
      | none => (s.marker fun u => { u with copyArmed := false }).copyGoes b
    else
      let s := (s.marker fun u => { u with copyArmed := true }).recordKstEvent 0x9013 0 0 8
      let f := !u.activeSlot
      if s.upd.slotState f ≠ 3 then (s, .recovery)
      else match s.badComps b f with
        | [] => (s, .slot f)
        | bad => (s.loadFails f bad).fallBack b
  else s.chooseSlot b

/-! ## Faults in the update lines (R421) -/

/-- Both marker copies fail: a slot that passes R387 and whose TRW digest the newest ledger record shows is booted as UNCONFIRMED
with UNCONF_BOOTS 2: record 0x9031. -/
def Dev.restoreMarker (s : Dev) (b : BootEnv) : Dev × BootTo :=
  let trw := (s.kst.ledger.getLast?.bind fun l => l.measures.find? fun m => m.1 = 2).map fun m => m.2.2.2.2
  let passes (x : Bool) : Bool := (s.upd.image x).comps ≠ [] && s.badComps b x = []
  let fits (x : Bool) : Bool := passes x && trw = some ((s.upd.image x).digest 2)
  let other (x : Bool) : Nat := if passes x then 3 else 4
  let s := s.onUpd Upd.noPackage
  match [false, true].find? fits with
  | some x =>
    let s := s.marker fun u => { (u.setSlot x 2).setSlot (!x) (other (!x)) with activeSlot := x, copyArmed := false, unconfBoots := 2 }
    (s.recordKstEvent 0x9031 0 0 8, .slot x)
  | none =>
    let s := s.marker fun u => { (u.setSlot u.activeSlot 4).setSlot (!u.activeSlot) (other (!u.activeSlot)) with copyArmed := false, unconfBoots := 0 }
    (s.recordKstEvent 0x9031 0 0 8).fallBack b

/-- A session record that fails ends its session as an abort with reason 4. -/
def Dev.restoreSession (s : Dev) (b : BootEnv) : Dev :=
  if b.badSessionLines.any [10, 11, 12, 13].contains && s.upd.sessionId ≠ 0 then (s.dropSession none).recordKstEvent 0x9006 4 0 8 else s

/-! ## The Seed Ledger record (R391 to R393) -/

/-- A 16-byte entry of the PARAM_GET layout: PARAM_ID, INDEX and VALUE (R362). -/
def paramEntry (e : Nat × Nat × Nat) : List Byte := bytesLE 2 e.1 ++ zeroBytes 2 ++ bytesLE 4 e.2.1 ++ bytesLE 8 e.2.2

/-- Every element of every CONFIG parameter, in ascending PARAM_ID and INDEX order. -/
def Dev.configEntries (s : Dev) : List (Nat × Nat × Nat) :=
  sortBy (fun e => e.1) (cfgIds.map (fun e => (e.1, 0, s.param e.2)) ++ s.mpt.domainMap.zipIdx.map fun e => (0x3803, e.2, e.1))

/-- The CONFIG digest (R391). -/
def Dev.configDigest (s : Dev) : Digest :=
  let l := s.configEntries.flatMap paramEntry ++ bytesLE 4 s.mst.ownerGen.toNat ++ policyBytes s.kst.policy
  Config.sha384 (fromLE l) l.length

/-- VERSION of a component as a number: major, minor, build. -/
def compVersion (c : Component) : Nat := c.major + c.minor * 2 ^ 16 + c.build * 2 ^ 32

/-- The seven measurement entries. SLOT of CONFIG is not stated: a free value. -/
def Dev.measures (s : Dev) (boot : BootTo) (fallow : Bool) : List (Nat × Nat × Nat × Nat × Digest) :=
  let comp (n : Nat) : Nat × Nat × Nat × Nat × Digest :=
    match boot with
    | .slot x =>
      match (s.upd.image x).comp? n with
      | some c => (n, b2n fallow, c.svn, compVersion c, (s.upd.image x).digest n)
      | none => (n, 0xFF, 0, 0, 0)
    | _ => (n, 0xFF, 0, 0, 0)
  [(0, 2, 0, 0x10, Config.romDigest)] ++ [1, 2, 3, 4, 5].map comp ++ [(6, s.free % 256, 0, 0, s.configDigest)]

/-- Step 6: the record of this boot is signed and programmed into slot BOOT_COUNT mod 4,096; when that fails it stays in SRAM:
record 0x8012. -/
def Dev.writeLedger (s : Dev) (b : BootEnv) (boot : BootTo) (fallow restored kstReset : Bool) : Dev :=
  let prev := s.kst.ledger.getLast?
  let n := s.mst.bootCount
  let r : Ledger := {
    bootCount := n
    fallow := fallow
    recovery := boot = .recovery
    counterRestored := restored
    owned := s.kst.ownerState = 1
    locked := s.kst.ownerState = 2
    kstReset := kstReset
    missed := (match prev with
      | some p => (n - p.bootCount - 1).setWidth 32
      | none => (n - 1).setWidth 32)
    ownerGen := s.mst.ownerGen
    prev := (prev.map Ledger.digest).getD 0
    measures := s.measures boot fallow }
  let s := s.drew
  if b.ledgerFails then (s.onKst fun k => { k with ledgerRam := some r }).recordKstEvent 0x8012 0 0 9
  else s.onKst fun k => { k with
    ledgerRam := none
    ledger := dropAll (fun l => l.bootCount.toNat % 4096 = n.toNat % 4096) k.ledger ++ [r] }

/-! ## The run -/

/-- Whether the new image writes a configuration format beside the fallow image's older one (R417). -/
def Upd.keepsOld (u : Upd) (x : Bool) : Bool :=
  u.slotState x = 2 && ((u.image x).comp? 2).map (·.configFormat) ≠ ((u.image (!x)).comp? 2).map (·.configFormat) && (u.image (!x)).comps ≠ []

/-- The recovery loader (R418): it serves its mailbox. -/
def Dev.enterRecovery (s : Dev) : Dev :=
  let s := s.onHif fun h => { h with recovery := true, ready := true }
  s.recordKstEvent 0x9023 0 0 8

/-- The boot counter lines and the update lines that fail their CHECK or their ECC are counted and recorded; each is written again with
what its chapter gives it (R140). -/
def Dev.keystoneLines (s : Dev) (b : BootEnv) : Dev :=
  let l := b.badCounterLines.filter [4, 5, 6, 7].contains ++ b.badMarkerLines.filter [8, 9].contains ++ b.badSessionLines.filter [10, 11, 12, 13].contains
  s.each l fun s n => (s.count .mstEccUncorrected).recordEarly 0x0121 s.srcMst n 0

/-- A full run of the boot ROM (R368), steps 1 to 6. FALLOW says that the booted slot was the fallow slot at the start of the run
(R412), which a run that finds no marker cannot say. A run whose ROM or OTP check fails leaves the chip in reset. -/
def Dev.bootRom (s : Dev) (b : BootEnv) : Dev :=
  if !b.romOk then s.onKst fun k => { k with running := false }
  else
    let x := (s.keystoneLines b).countBoot b
    let s := x.1.settleOwner.restoreSession b
    let fallow0 := !s.upd.activeSlot
    let lost := [8, 9].all b.badMarkerLines.contains
    let r := if lost then s.restoreMarker b else s.bootRows b
    let s := r.1
    match r.2 with
    | .cut => s.onKst fun k => { k with running := false }
    | dest =>
      let fallow := !lost && dest = .slot fallow0
      let s := s.writeLedger b dest fallow x.2 false
      let s := s.onKst fun k => { k with running := true, runningSlot := if dest = .recovery then 2 else b2n fallow, bootedSlot := dest = .slot true }
      match dest with
      | .slot y => s.onUpd fun u => { u with oldConfig := u.oldConfig || u.keepsOld y }
      | _ => s.enterRecovery

end Sys2Proof.Machine
end

