-- ==== Sys2Proof/Machine/Update.lean ====
section
/-!
DEFINITION. Firmware update while an image runs: sessions and chunks (R406 to R411), confirmation (R415) and the start of a
fall-back (R416), and their commands.
-/

namespace Sys2Proof.Machine

/-! ## The session (R401, R407, R410) -/

/-- Whether a session exists. -/
def Upd.session (u : Upd) : Bool := u.sessionId ≠ 0

/-- Whether a path is a source of the session. -/
def Upd.joined (u : Upd) : MbxPath → Bool
  | .host => u.hostJoined
  | .mgmt => u.mgmtJoined

/-- Seconds of idle time that the session record does not hold yet. -/
def Dev.idleMore (s : Dev) : Nat := (s.now - s.upd.idleSince.toNat) * 2048 / 1000000000

/-- IDLE_S. -/
def Dev.idleS (s : Dev) : Nat := s.upd.idleS + s.idleMore

/-- An accepted command: IDLE_S starts from 0 again. -/
def Dev.notIdle (s : Dev) : Dev :=
  let now := s.tck.count
  s.onUpd fun u => { u with idleS := 0, idleSince := now }

/-- The number of chunks in a bitmap. -/
def chunkTally (v : BitVec 256) : Nat := popCount 256 v.toNat

/-- The BUSY payload of R407. -/
def Dev.busyPayload (s : Dev) : List Byte :=
  let u := s.upd
  bytesLE 1 (if u.openerMgmt then 2 else 1) ++ bytesLE 1 u.seedState ++ zeroBytes 2 ++ bytesLE 4 u.sessionId.toNat ++
    bytesLE 48 u.digest.toNat ++ bytesLE 2 (chunkTally u.received) ++ bytesLE 2 u.chunkCount ++ zeroBytes 4

/-- The response of an UPD_OPEN that is accepted. -/
def Dev.openPayload (s : Dev) (new : Bool) : List Byte := bytesLE 4 s.upd.sessionId.toNat ++ bytesLE 1 (b2n new) ++ zeroBytes 3

/-- A session record: its source is the path of the command, its first parameter SESSION_ID (R423). -/
def Dev.sessionRecord (s : Dev) (code : Nat) (p : MbxPath) : Dev := s.record code (s.srcPath p) s.upd.sessionId.toNat 0 0

/-- A source joins. -/
def Upd.join (u : Upd) (p : MbxPath) : Upd :=
  match p with
  | .host => { u with hostJoined := true }
  | .mgmt => { u with mgmtJoined := true }

/-- A batch of update lines has landed: the command that waits for it completes. -/
def Dev.updLanded (s : Dev) (p : Option MbxPath) : Dev :=
  match p with
  | some p => (match (s.mbx.run? p).map (·.wait) with
    | some (MbxWait.update l) => s.mbxDone p mbOk l
    | _ => s)
  | none => s

/-- A new session; its batch is committed by what follows, and the seedbed is erased in the background (R407). -/
def Dev.newSession (s : Dev) (p : MbxPath) (digest : Digest) : Dev :=
  let id := BitVec.ofNat 32 (s.free % (2 ^ 32 - 1) + 1)
  let s := s.drew.notIdle
  let s := s.onUpd fun u => { (({ u.noPackage with seedState := 1, sessionId := id, openerMgmt := p = MbxPath.mgmt, digest := digest }).join p) with
    updateSeq := u.updateSeq + 1, chunks := [], manifest := none, erasing := true }
  s.sessionRecord 0x9001 p

/-- The update lines that a command has changed are committed, and the command completes with a payload once they have landed (R407, R409,
R410). -/
def Dev.updWait (s : Dev) (p : MbxPath) (marker : Bool) (payload : List Byte) : Dev :=
  let s := (s.mbxWait p (.update payload)).commitUpd marker true (some p)
  if s.tck.running then s else s.updLanded (some p)

/-- UPD_OPEN. -/
def Dev.updOpen (s : Dev) (p : MbxPath) (r : MbxReq) : Dev :=
  let u := s.upd
  let d := BitVec.ofNat 384 (reqAt r 0 48)
  if u.session then
    if d ≠ u.digest then (s.sessionRecord 0x9003 p).mbxDone p mbBusy s.busyPayload
    else if s.mst.failed then s.mbxDone p mbInternal []
    else if u.joined p then s.notIdle.updWait p false (s.openPayload false)
    else ((s.onUpd fun u => u.join p).notIdle.sessionRecord 0x9002 p).updWait p false (s.openPayload true)
  else if (u.seedState = 0 || u.seedState = 4) && (s.hif.recovery || u.slotState u.activeSlot = 3) then
    if s.mst.failed then s.mbxDone p mbInternal []
    else
      let s := s.newSession p d
      s.updWait p true (s.openPayload true)
  else s.mbxRefuse p mbNotAllowed noDetail

/-! ## Chunks (R408, R409) -/

/-- The partial chunk of a path: chunk number, bytes, length, complete. -/
def Upd.part (u : Upd) : MbxPath → Option (Nat × Nat × Nat × Bool)
  | .host => u.partHost
  | .mgmt => u.partMgmt

/-- Sets the partial chunk of a path. -/
def Upd.setPart (u : Upd) (p : MbxPath) (x : Option (Nat × Nat × Nat × Bool)) : Upd :=
  match p with
  | .host => { u with partHost := x }
  | .mgmt => { u with partMgmt := x }

/-- The response of an UPD_CHUNK that is accepted. -/
def Dev.chunkPayload (s : Dev) (done : Bool) : List Byte :=
  bytesLE 1 (b2n done) ++ zeroBytes 3 ++ bytesLE 2 (chunkTally s.upd.received) ++ zeroBytes 2

/-- A part that is refused with BAD_ARGUMENT: the path's partial chunk is discarded. -/
def Dev.badPart (s : Dev) (p : MbxPath) (detail : Nat) : Dev := (s.onUpd fun u => u.setPart p none).mbxRefuse p mbBadArgument detail

/-- What the path has of a chunk: its bytes and their count. A partial chunk of another number counts as none. -/
def Upd.partOf (u : Upd) (p : MbxPath) (n : Nat) : Nat × Nat :=
  match u.part p with
  | some (k, v, l, _) => if k = n then (v, l) else (0, 0)
  | none => (0, 0)

/-- A part is accepted: it is added, and a complete chunk waits to land, unless it is already in RECEIVED. -/
def Dev.addPart (s : Dev) (p : MbxPath) (n v len : Nat) (last : Bool) : Dev :=
  let old := s.upd.partOf p n
  let len' := old.2 + len
  let all := len' = 65536 || last
  let s := s.notIdle
  if !all then
    let s := ((s.onUpd fun u => u.setPart p (some (n, old.1 + v * 256 ^ old.2, len', false))).when (!s.mst.failed) fun s => s.commitUpd false true none)
    s.mbxDone p mbOk (s.chunkPayload false)
  else if s.mst.failed then (s.onUpd fun u => u.setPart p none).mbxDone p mbInternal []
  else if s.upd.received.getLsbD n then (s.onUpd fun u => u.setPart p none).updWait p false (s.chunkPayload true)
  else (s.onUpd fun u => u.setPart p (some (n, old.1 + v * 256 ^ old.2, len', true))).mbxWait p .chunk

/-- UPD_CHUNK: the checks of R408, then the part. -/
def Dev.updChunk (s : Dev) (p : MbxPath) (r : MbxReq) : Dev :=
  let u := s.upd
  let n := reqAt r 4 2
  let off := reqAt r 8 4
  let len := reqAt r 12 4
  let last := (reqAt r 6 2) % 2 = 1
  let old := u.partOf p n
  if !u.session || reqAt r 0 4 ≠ u.sessionId.toNat then s.badPart p 0
  else if !u.joined p then s.mbxDone p mbBusy s.busyPayload
  else if u.seedState ≠ 1 then s.mbxRefuse p mbNotAllowed noDetail
  else if len = 0 then s.badPart p 12
  else if 256 ≤ n || (u.chunkCount ≠ 0 && u.chunkCount ≤ n) then s.badPart p 4
  else if off ≠ old.2 then s.badPart p 8
  else if 65536 < off + len then s.badPart p 12
  else if n = 0 && last && off + len < 65536 then s.badPart p 6
  else s.addPart p n (reqAt r 16 len) len last

/-- The hash that chunk 0 gives for a chunk (R403). -/
def Upd.hashOf (u : Upd) (n : Nat) : Option Digest :=
  if 0 < n && n < u.chunkCount then some (BitVec.ofNat 384 (u.packageAt (0x160 + 48 * (n - 1)) 48)) else none

/-- Whether a chunk's bytes meet its hash; chunk 0 meets PACKAGE_DIGEST (R402). -/
def Upd.hashOk (u : Upd) (n v len : Nat) : Bool :=
  if n = 0 then Config.sha384 v len = u.digest else u.hashOf n = some (Config.sha384 v len)

/-- A chunk that fails its hash is not kept (R409). -/
def Dev.refuseChunk (s : Dev) (src : BitVec 16) (n : Nat) : Dev :=
  ((s.onUpd fun u => { u with chunks := dropAll (·.1 = n) u.chunks }).count .updChunksRefused).record 0x9004 src n 0 0

/-- Sets or clears a bit of a bitmap of chunks. -/
def setChunk (v : BitVec 256) (n : Nat) (on : Bool) : BitVec 256 := if on then v ||| (1#256 <<< n) else v &&& ~~~(1#256 <<< n)

/-- A provisional chunk meets its hash or is dropped, once chunk 0 has landed. -/
def Dev.settleChunk (s : Dev) (src : BitVec 16) (n : Nat) : Dev :=
  let ok := match s.upd.chunks.find? (·.1 = n) with
    | some (_, v, l) => s.upd.hashOk n v l
    | none => false
  let s := s.onUpd fun u => { u with provisional := setChunk u.provisional n false, received := setChunk u.received n ok }
  if ok then s else s.refuseChunk src n

/-- A chunk is programmed, read back, and its bit is committed; with chunk 0 every provisional chunk is settled. -/
def Dev.keepChunk (s : Dev) (src : BitVec 16) (n v len : Nat) : Dev :=
  let s := (s.onUpd fun u => { u with chunks := dropAll (·.1 = n) u.chunks ++ [(n, v, len)] }).count .updChunksAccepted
  if n = 0 then
    let s := s.onUpd fun u => { u with
      received := setChunk u.received 0 true
      chunkCount := u.packageAt 0xC 2
      manifest := manifestOf (bytesLE 65536 v) }
    s.each (bitsOf 256 s.upd.provisional.toNat) fun s n => s.settleChunk src n
  else if s.upd.chunkCount = 0 then s.onUpd fun u => { u with provisional := setChunk u.provisional n true }
  else s.onUpd fun u => { u with received := setChunk u.received n true }

/-- CHUNK_LANDED: the complete chunk of a path is checked and lands, and its last part completes. A chunk refused by its hash
completes with CHUNK_DONE 0. -/
def Dev.chunkLanded (s : Dev) (p : MbxPath) : Dev :=
  match s.upd.part p, (s.mbx.run? p).map (·.wait) with
  | some (n, v, len, true), some MbxWait.chunk =>
    if s.upd.erasing || s.sys.frozen then s
    else
      let src := s.srcPath p
      let s := s.onUpd fun u => u.setPart p none
      if (n = 0 || s.upd.chunkCount ≠ 0) && !s.upd.hashOk n v len then
        let s := s.refuseChunk src n
        s.mbxDone p mbOk (s.chunkPayload false)
      else
        let s := s.keepChunk src n v len
        if s.mst.failed then s.mbxDone p mbInternal [] else s.updWait p false (s.chunkPayload true)
  | _, _ => s

/-- SEEDBED_ERASE_DONE. -/
def Dev.seedbedErased (s : Dev) : Dev := if s.kst.running && !s.sys.frozen then s.onUpd fun u => { u with erasing := false } else s

/-! ## Close, abort, expiry (R410) -/

/-- Whether every chunk is in RECEIVED. -/
def Upd.complete (u : Upd) : Bool := u.chunkCount ≠ 0 && (List.range u.chunkCount).all fun n => n < 256 && u.received.getLsbD n

/-- UPD_CLOSE. In recovery the boot ROM runs again (R418). -/
def Dev.updClose (s : Dev) (p : MbxPath) (r : MbxReq) : Dev :=
  let u := s.upd
  if !u.session || reqAt r 0 4 ≠ u.sessionId.toNat then s.mbxRefuse p mbBadArgument 0
  else if !u.joined p then s.mbxDone p mbBusy s.busyPayload
  else if !u.complete then s.mbxRefuse p mbNotAllowed noDetail
  else if s.mst.failed then s.mbxDone p mbInternal []
  else
    let s := s.notIdle.onUpd fun u => { u with seedState := 2, updateSeq := u.updateSeq + 1 }
    let s := (s.sessionRecord 0x9005 p).event 8
    let s := s.when s.hif.recovery fun s => s.onSys fun y => { y with softReset := true }
    s.updWait p true []

/-- A session ends: record 0x9006 with its reason. -/
def Dev.sessionEnds (s : Dev) (p : Option MbxPath) (src : BitVec 16) (reason : Nat) : Dev :=
  (s.dropSession p).recordEvent 0x9006 src reason 0 0 8

/-- UPD_ABORT ends the session, and completes once that has landed. -/
def Dev.abortSession (s : Dev) (p : MbxPath) (reason : Nat) : Dev :=
  let s := (s.mbxWait p (.update [])).sessionEnds (some p) (s.srcPath p) reason
  if s.tck.running then s else s.updLanded (some p)

/-- UPD_ABORT. -/
def Dev.updAbort (s : Dev) (p : MbxPath) (r : MbxReq) : Dev :=
  let u := s.upd
  let mine := u.session && reqAt r 0 4 = u.sessionId.toNat
  let force := p = .mgmt && reqAt r 4 1 = 1
  if mine && s.mst.failed && (u.joined p || force) then s.mbxDone p mbInternal []
  else if mine && u.joined p then s.abortSession p 1
  else if mine && force then s.abortSession p 2
  else s.mbxDone p mbBusy s.busyPayload

/-- UPD_SESSION_EXPIRED. Which path an expiry carries as source is not stated: a free value. -/
def Dev.sessionExpired (s : Dev) : Dev :=
  if s.upd.session && s.awake && s.param .updSessionIdleS ≤ s.idleS then
    (s.sessionEnds none (s.srcPath (if s.free % 2 = 0 then .host else .mgmt)) 3).drew
  else s

/-- IDLE_S_COMMIT: 3,600 s more of idle time are committed. -/
def Dev.idleCommit (s : Dev) : Dev :=
  let t := s.upd.idleSince.toNat + ticksOfSeconds 3600
  if s.upd.session && s.awake && t ≤ s.now then
    (s.onUpd fun u => { u with idleS := u.idleS + 3600, idleSince := BitVec.ofNat 64 t }).commitUpd false true none
  else s

/-! ## Status (R411) -/

/-- Whether the running image is UNCONFIRMED (R415). -/
def Dev.unconfirmed (s : Dev) : Bool :=
  !s.hif.recovery && s.kst.bootedSlot = s.upd.activeSlot && s.upd.slotState s.upd.activeSlot = 2

/-- Ticks from the first tick of a boot in which CONFIRM must arrive. -/
def confirmTicks : Nat := 439453125

/-- The bytes of an UPD_STATUS response. -/
def Dev.updBytes (s : Dev) : List Byte :=
  let u := s.upd
  let left := if s.unconfirmed then (confirmTicks - s.now) * 2048 / 1000000000 else 0
  bytesLE 4 u.sessionId.toNat ++ bytesLE 1 u.seedState ++ bytesLE 1 (b2n u.hostJoined + 2 * b2n u.mgmtJoined + 4 * b2n u.openerMgmt) ++
    bytesLE 2 u.chunkCount ++ bytesLE 2 (chunkTally u.received) ++ bytesLE 2 (chunkTally u.provisional) ++
    bytesLE 4 (if u.session then s.idleS else 0) ++ bytesLE 48 u.digest.toNat ++ bytesLE 32 u.received.toNat ++ bytesLE 1 (b2n u.activeSlot) ++
    bytesLE 1 (u.slotState u.activeSlot) ++ bytesLE 1 (u.slotState (!u.activeSlot)) ++ bytesLE 1 u.unconfBoots ++ bytesLE 1 u.rejectReason ++
    zeroBytes 3 ++ bytesLE 4 left ++ zeroBytes 4

/-- UPD_STATUS. -/
def Dev.updStatus (s : Dev) (p : MbxPath) : Dev := s.mbxDone p mbOk s.updBytes

/-! ## Confirmation and fall-back (R415, R416) -/

/-- UPD_CONFIRM. -/
def Dev.updConfirm (s : Dev) (p : MbxPath) : Dev :=
  if s.unconfirmed then (s.onUpd fun u => { u with confirmGot := true }).mbxOk p else s.mbxRefuse p mbNotAllowed noDetail

/-- Whether everything that CONFIRM waits for holds. -/
def Dev.confirmReady (s : Dev) : Bool :=
  s.unconfirmed && s.trowelRuns && s.now ≤ confirmTicks && !s.sys.trwHalted.contains true && !s.tck.stormSeen &&
  s.mpt.enumerated && s.fields.all (fun f => !f.recovering || f.ownerWait) &&
  (!s.twn.mode || s.twn.state = 3 || s.twn.state = 6) && (s.param .updHostConfirm = 0 || s.upd.confirmGot)

/-- UPD_CONFIRM_SENT: one batch sets the active slot CONFIRMED. The records of the older configuration format are erased
(R417). -/
def Dev.confirmSent (s : Dev) : Dev :=
  if !s.confirmReady || s.mst.failed then s
  else
    let s := s.marker fun u => { u.setSlot u.activeSlot 3 with unconfBoots := 0, oldConfig := false }
    s.recordKstEvent 0x9020 s.mst.bootCount.toNat 0 8

/-- UPD_CONFIRM_TIMEOUT: the active slot is FAILED, and the chip hands over and drains. -/
def Dev.confirmTimeout (s : Dev) : Dev :=
  if !s.unconfirmed || !s.awake || s.now < confirmTicks then s
  else
    let now := s.tck.count
    let s := s.marker fun u => { u.setSlot u.activeSlot 4 with falling := true, fallSince := now }
    let s := s.recordKstEvent 0x9021 0 0 8
    if s.twn.mode && s.twn.state = 3 then s.handAll else s.onSys fun y => { y with softDrain := true }

/-- A fall-back drains once its handovers are over. -/
def Dev.updBoundary (s : Dev) : Dev :=
  if s.upd.falling && s.twn.handovers = [] then s.onSys fun y => { y with softDrain := true } else s

/-- Whether a fall-back may restart: its fields are handed over and drained, or UPD_HANDOVER_WAIT_S is over. -/
def Dev.fallDue (s : Dev) : Bool :=
  s.upd.falling &&
  ((s.sys.softDrain && s.drained?) || s.upd.fallSince.toNat + ticksOfSeconds (s.param .updHandoverWaitS) ≤ s.now)

/-! ## Arrival -/

/-- UPD_OPEN arrives. -/
def Dev.onUpdOpen (s : Dev) (p : MbxPath) (r : MbxReq) : Dev :=
  s.mbxCommand p 0x0601 (.updOpen p r) r (r.len = 48) [.seedbed] fun s => s.updOpen p r

/-- UPD_CHUNK arrives. -/
def Dev.onUpdChunk (s : Dev) (p : MbxPath) (r : MbxReq) : Dev :=
  s.mbxCommand p 0x0602 (.updChunk p r) r (16 ≤ r.len && r.len = 16 + reqAt r 12 4) [] fun s => s.updChunk p r

/-- UPD_STATUS arrives. -/
def Dev.onUpdStatus (s : Dev) (p : MbxPath) (r : MbxReq) : Dev :=
  s.mbxCommand p 0x0603 (.updStatus p r) r (r.len = 0) [] fun s => s.updStatus p

/-- UPD_CLOSE arrives. -/
def Dev.onUpdClose (s : Dev) (p : MbxPath) (r : MbxReq) : Dev :=
  s.mbxCommand p 0x0604 (.updClose p r) r (r.len = 8) [.seedbed] fun s => s.updClose p r

/-- UPD_ABORT arrives. -/
def Dev.onUpdAbort (s : Dev) (p : MbxPath) (r : MbxReq) : Dev :=
  s.mbxCommand p 0x0605 (.updAbort p r) r (r.len = 8) [.seedbed] fun s => s.updAbort p r

/-- UPD_CONFIRM arrives. -/
def Dev.onUpdConfirm (s : Dev) (p : MbxPath) (r : MbxReq) : Dev :=
  s.mbxCommand p 0x0606 (.updConfirm p r) r (r.len = 0) [] fun s => s.updConfirm p

/-! ## Commands -/

/-- UPD_OPEN. -/
def execUpdOpen (p : MbxPath) (r : MbxReq) (s : State) : Host.Outcome State Fault Refusal := .next { s with toDev := s.toDev.onUpdOpen p r }

/-- UPD_CHUNK. -/
def execUpdChunk (p : MbxPath) (r : MbxReq) (s : State) : Host.Outcome State Fault Refusal := .next { s with toDev := s.toDev.onUpdChunk p r }

/-- CHUNK_LANDED. -/
def execChunkLanded (p : MbxPath) (s : State) : Host.Outcome State Fault Refusal := .next { s with toDev := s.toDev.chunkLanded p }

/-- UPD_STATUS. -/
def execUpdStatus (p : MbxPath) (r : MbxReq) (s : State) : Host.Outcome State Fault Refusal := .next { s with toDev := s.toDev.onUpdStatus p r }

/-- UPD_CLOSE. -/
def execUpdClose (p : MbxPath) (r : MbxReq) (s : State) : Host.Outcome State Fault Refusal := .next { s with toDev := s.toDev.onUpdClose p r }

/-- UPD_ABORT. -/
def execUpdAbort (p : MbxPath) (r : MbxReq) (s : State) : Host.Outcome State Fault Refusal := .next { s with toDev := s.toDev.onUpdAbort p r }

/-- UPD_CONFIRM. -/
def execUpdConfirm (p : MbxPath) (r : MbxReq) (s : State) : Host.Outcome State Fault Refusal :=
  .next { s with toDev := s.toDev.onUpdConfirm p r }

/-- UPD_SESSION_EXPIRED. -/
def execUpdSessionExpired (s : State) : Host.Outcome State Fault Refusal := .next { s with toDev := s.toDev.sessionExpired }

/-- IDLE_S_COMMIT. -/
def execIdleSCommit (s : State) : Host.Outcome State Fault Refusal := .next { s with toDev := s.toDev.idleCommit }

/-- UPD_CONFIRM_SENT. -/
def execUpdConfirmSent (s : State) : Host.Outcome State Fault Refusal := .next { s with toDev := s.toDev.confirmSent }

/-- UPD_CONFIRM_TIMEOUT. -/
def execUpdConfirmTimeout (s : State) : Host.Outcome State Fault Refusal := .next { s with toDev := s.toDev.confirmTimeout }

/-- SEEDBED_ERASE_DONE. -/
def execSeedbedEraseDone (s : State) : Host.Outcome State Fault Refusal := .next { s with toDev := s.toDev.seedbedErased }

end Sys2Proof.Machine
end

