-- ==== Sys2Proof/Machine/Reset.lean ====
section
/-!
DEFINITION. Resets, start-up and power (chapter 16, R226, R344, R370, R446, R483): what each reset keeps, the phases S0 to S3,
the end of a dump, soft resets and fall-backs, lost processors, heat, and their commands.
-/

namespace Sys2Proof.Machine

/-! ## What a cold reset leaves (R448, column Cold) -/

/-- A field as the configuration store and its landed entry in the Mortar Store bring it back: RECOVERING and not yet assembled; a fine
map found in the store is in release (R111, R115, R130, R178, R450). -/
def Dev.fieldAtStart (s : Dev) (twin : Bool) (f : Field) : Field :=
  let e := (s.entry? f.id).filter fun e => e.uuid = f.uuid
  let blocks := (e.map (·.fineBlocks)).getD 0
  { f with
    homeIndex := e.bind (·.home)
    coarseShift := (e.map (·.coarseShift)).getD 0
    unsealed := []
    repOn := []
    owned := !twin
    recovering := true
    failedEngine := false
    resyncing := false
    offlineReq := false
    wasFailed := false
    reported := 7
    flags := 64
    exposed := false
    targets := []
    noSpare := []
    scrubPos := f.scrubSaved
    scrubStart := 0
    scrubLate := false
    fineBlocks := blocks
    fineShift := (e.map (·.fineShift)).getD 0
    fineUse := false
    fineRelease := blocks ≠ 0
    repFlight := none
    repUrgent := false
    resyncSet := []
    lineSet := []
    marked := []
    resynced := []
    labelChanges := []
    lostChanged := false
    ckptAckedCoarse := 0
    ckptAckedFine := []
    rsPend := none
    rsEnding := false
    rsStage := .idle
    rsRedo := false
    reread := none
    rsMembers := []
    seen := !twin && f.seen
    ownerWait := twin
    restoreWait := true
    fenceWait := false
    assembled := false
    takenOver := false
    capUnprot := false
    admitStop := false
    labelHeld := [] }

/-- The vault keeps what lies in its flash; the erase of a consumed slot goes on (R230). -/
def Vlt.atStart (v : Vlt) : Vlt :=
  { Vlt.reset with
    slots := v.slots.map fun x => { x with erasing := x.erasing || x.consumed }
    dumpSeq := v.dumpSeq
    retired := v.retired
    failedCh := v.failedCh }

/-- The Mortar Store keeps its lines; commits that had not landed are gone (R111). -/
def Mst.atStart (m : Mst) : Mst :=
  { m with
    queue := [], retry := [], fails := [], failed := false, level := 0, slotsFree := 2048 - m.slots.length
    partnerLines := [], homeReserved := [], wholeFields := []
    bootCount := m.counterKept.bootCount, ownerGen := m.counterKept.ownerGen, ownerDigest := m.counterKept.ownerDigest }

/-- The Keystone keeps what lies in the configuration store, the ledger and boot flash. -/
def Kst.atStart (k : Kst) : Kst :=
  { Kst.reset with
    ownerState := k.ownerState, ownerKeys := k.ownerKeys, policy := k.policy, policyNext := k.policyNext
    records := k.records, secrets := k.secrets, ledger := k.ledger }

/-- Partial chunks do not survive a reset of any kind; a complete one whose command runs lands (R351, R408). -/
def Upd.dropParts (u : Upd) : Upd :=
  let keep (x : Option (Nat × Nat × Nat × Bool)) : Option (Nat × Nat × Nat × Bool) := x.filter fun e => e.2.2.2
  { u with partHost := keep u.partHost, partMgmt := keep u.partMgmt }

/-- The update state of boot flash and the store: that of the last batch that has landed (R111). -/
def Upd.atStart (u : Upd) : Upd :=
  let m := u.markerKept
  let x := u.sessionKept
  { u with
    activeSlot := m.activeSlot, copyArmed := m.copyArmed, slot0 := m.slot0, slot1 := m.slot1, unconfBoots := m.unconfBoots
    seedState := m.seedState, rejectReason := m.rejectReason, updateSeq := m.updateSeq
    sessionId := x.sessionId, hostJoined := x.hostJoined, mgmtJoined := x.mgmtJoined, openerMgmt := x.openerMgmt, idleS := x.idleS
    chunkCount := x.chunkCount, digest := x.digest, received := x.received, provisional := x.provisional
    manifest := if x.received.getLsbD 0 then u.manifest else none
    partHost := none, partMgmt := none, confirmGot := false, falling := false, idleSince := 0, fallSince := 0 }

/-- Phase S0 of a cold reset: every part at its cold-reset value but for what the Cold column of R448 keeps; the straps are
sampled when PWR_GOOD rises (R236, R470). -/
def Dev.coldParts (s : Dev) (kind : Nat) (b : BootEnv) : Dev :=
  let rise := kind = 1 && !s.sys.pwrGood
  let twin := s.cfgNext[cfgIx .twnMode] = 1
  let pos := if rise then b.twinPos else s.twn.position
  let g2 := if rise then b.gpio2 else s.sys.gpio2
  let g3 := if rise then b.gpio3 else s.sys.gpio3
  let high := s.drm.holdupOk
  { s with
    cfg := s.cfgNext
    ctr := Vector.replicate ctrCount 0
    tck := .reset
    tasks := .reset
    hif := { Hif.reset with barGib := s.cfgNext[cfgIx .hifWinBarGib], smbAddr := BitVec.ofNat 7 (0x34 + 2 * b2n g3 + b2n g2) }
    win := .reset
    qs := .reset
    mbx := .reset
    fields := (s.fields.filter fun f => s.kst.secrets.any fun k => k.1 = f.uuid).map (s.fieldAtStart twin)
    mpt := { Mpt.reset with slots := s.mpt.slots, cleared := s.mpt.cleared, domainMap := s.mpt.domainNext, domainNext := s.mpt.domainNext }
    cache := .reset
    mor := .reset
    mst := s.mst.atStart
    hod := .reset
    drm := { Drm.reset with holdupOk := high, holdupSince := if high then some 0 else none }
    vlt := s.vlt.atStart
    twn := { Twn.reset with mode := twin, position := pos, state := if twin then 1 else 0, partnerVersion := s.twn.partnerVersion }
    lnk := .reset
    kst := s.kst.atStart
    upd := s.upd.atStart
    fbk := .reset
    sys := { Sys.reset with
      pwrGood := true, pwrfailLow := s.sys.pwrfailLow, bootKind := kind, gpio2 := g2, gpio3 := g3, fuse := s.sys.fuse } }

/-- A cold reset, or what counts as one: phases S0 and S1 (R441, R442, R450). -/
def Dev.coldStart (s : Dev) (kind : Nat) (b : BootEnv) : Dev := (s.coldParts kind b).bootRom b

/-- Every clock but those of the always-on domain stops, or power is gone: nothing runs until the next cold reset. -/
def Dev.turnOff (s : Dev) : Dev :=
  ((s.onTck fun t => { t with running := false }).onKst fun k => { k with running := false }).onHif fun h => { h with ready := false }

/-- COLD_RESET: PWR_GOOD rises after it has been low. -/
def Dev.coldReset (s : Dev) (b : BootEnv) : Dev := if s.sys.pwrGood then s else s.coldStart 1 b

/-- POWER_LOSS: PWR_GOOD falls; a running dump stops at once (R447). -/
def Dev.powerLost (s : Dev) (framesWritten : Option Nat) : Dev :=
  if !s.sys.pwrGood then s else ((s.cutDump framesWritten).turnOff).onSys fun y => { y with pwrGood := false }

/-! ## Phase S2 (R140, R203, R221, R232, R430, R450, R455) -/

/-- A configuration found at start-up whose line pool is too small is refused: DRM_DIRTY_CAP takes the highest value that fits, at least
1 GiB, and WIN_DUMP_LIMIT half of it at most (R204, R219). DESIGN CHOICE: log entry 122. -/
def Dev.refuseConfig (s : Dev) : Dev :=
  let cap := s.param .drmDirtyCap
  if s.configFits cap s.hif.barGib then s
  else
    let room := (linePool (s.drm.dramGib * gib) (s.hif.barGib * gib) s.twn.poolBytes - 4 * gib) / gib
    let c := max 1 (min room (cap / gib)) * gib
    let lim := min (c / 2) (s.param .winDumpLimit)
    let put (v : Vector Nat cfgCount) : Vector Nat cfgCount := (v.set (cfgIx .drmDirtyCap) c).set (cfgIx .winDumpLimit) lim
    { s with cfg := put s.cfg, cfgNext := put s.cfgNext }

/-- The Keystone generates the per-boot key, the key slots are loaded and the freeze latch is set from the policy in force (step 7 of
R368, R206, R455). -/
def Dev.stepSeven (s : Dev) (d : DramEnv) : Dev :=
  let key := s.free
  let s := s.drew
  let armed := s.kst.policy.freezeEnable && s.kst.ownerState ≠ 2
  let s := s.onKst fun k => { k with keySlots := k.secrets.map fun x => (x.2.1, fieldKeys x.1 x.2.2) }
  let s := s.onSys fun y => { y with dramReady := true, freezeArmed := armed }
  let s := (s.onDrm fun x => { x with dramGib := d.dramGib, bootKey := key }).refuseConfig
  (s.onVlt fun v => { v with slotBytes := d.slotBytes }).onTck fun t => { t with running := true }

/-- A record that waited in Keystone SRAM is written, with EARLY set and the stamp of this tick (R430). -/
def Dev.writeEarly (s : Dev) (e : BitVec 16 × BitVec 16 × BitVec 32 × BitVec 32 × BitVec 32) : Dev :=
  let seq := s.nextSeq e.2.1
  let r := s.mkRec e.1.toNat e.2.1 seq 4 e.2.2.1 e.2.2.2.1 e.2.2.2.2
  let s := (s.useSeq e.2.1).onFbk fun k => { k with
    last := setLast ⟨e.2.1, e.1, e.2.2.1, e.2.2.2.1, e.2.2.2.2, seq, 1, .gone, 0⟩ k.last
    critical := k.critical || severity e.1.toNat = 4 }
  s.putRecordIn r

/-- The Field Book starts: the early records first, then SYS_START (R430, R450). -/
def Dev.startBook (s : Dev) : Dev :=
  let l := s.kst.earlyRecs
  let s := (s.onKst fun k => { k with earlyRecs := [] }).onFbk fun k => { k with started := true }
  (s.each l Dev.writeEarly).record 0x0001 (s.srcProc 1) s.sys.bootKind (s.mst.bootCount.toNat % 2 ^ 32) 0

/-- An uncorrectable furrow line at start-up: every bit of it is taken as set, and the fields whose bits it holds resync whole
regions (R140). -/
def Dev.furrowLineBad (s : Dev) (n : Nat) : Dev :=
  if 2304 ≤ n && n < 2320 then
    let ids := (s.mst.entries.map (·.1)).filter fun f => coarseLine f = n
    let s := s.each ids fun s f => s.onMst fun m => { m with coarse := put f 0xFFFF#16 m.coarse }
    s.onMst fun m => { m with wholeFields := ids.foldl (fun l f => addNew f l) m.wholeFields }
  else if 2320 ≤ n && n < 6144 then
    match s.mst.leases.find? fun e => e.1 = (n - 2320) / 8 with
    | some e =>
      let lo := e.2.2 * 4096 + (n - 2320) % 8 * 512
      let all := (List.range 512).map fun i => (e.2.1, lo + i)
      s.onMst fun m => { m with
        fine := dropAll (fun x => all.contains x) m.fine ++ all
        wholeFields := addNew e.2.1 m.wholeFields }
    | none => s
  else s

/-- An unreadable slot at start-up: every field with a set furrow bit resyncs its set regions whole (R140). -/
def Dev.slotBad (s : Dev) (i : Nat) : Dev :=
  let ids := (s.mst.entries.map (·.1)).filter fun f => s.setRegions f ≠ []
  s.onMst fun m => { m with
    slots := dropAll (·.idx = i) m.slots
    wholeFields := ids.foldl (fun l f => addNew f l) m.wholeFields }

/-- What a field's entry gave it is unknown (R115). -/
def Field.withoutEntry (f : Field) : Field :=
  { f with homeIndex := none, coarseShift := 0, fineBlocks := 0, fineShift := 0, fineRelease := false }

/-- A field entry that fails its CHECK at start-up: the field is imported (R139, R140). -/
def Dev.entryBad (s : Dev) (f : Nat) : Dev :=
  (s.onMst fun m => { m with entries := dropAll (·.1 = f) m.entries }).onField f Field.withoutEntry

/-- A reshape record with a line that fails is not used: the reshape goes on from the members' checkpoint blocks (R140, R173, R177, log
entry 114). -/
def Dev.reshapeBad (s : Dev) (n : Nat) : Dev := s.onMst fun m => { m with reshapes := dropAll (·.1 = n) m.reshapes }

/-- A line whose error at start-up is uncorrectable: counted and recorded, then its outcome. -/
def Dev.badLine (s : Dev) (n : Nat) (act : Dev → Dev) : Dev := act ((s.count .mstEccUncorrected).record 0x0121 s.srcMst n 0 0)

/-- The descriptor fails: the store is initialised, but for the lines that the Keystone keeps in it, and every field is imported
(R139, R140). -/
def Dev.initStore (s : Dev) : Dev :=
  let s := s.onMst fun m => { m with
    storeGen := m.storeGen + 1, storeTwinPos := s.twn.mode && s.twn.position
    entries := [], coarse := [], fine := [], leases := [], slots := [], reshapes := [] }
  let s := s.onFields fun l => l.map Field.withoutEntry
  s.recordEvent 0x0123 s.srcMst 0 0 0 6

/-- The check of the store at start-up (R140). -/
def Dev.checkStore (s : Dev) (d : DramEnv) : Dev :=
  if d.badDescriptor then s.initStore
  else
    let s := s.storeErrors d.correctable []
    let s := s.each d.badFurrowLines fun s n => s.badLine n fun s => s.furrowLineBad n
    let s := s.each d.badSlots fun s i => s.badLine (slotLine i) fun s => s.slotBad i
    let s := s.each d.badReshapes fun s n => s.badLine (reshapeLine n) fun s => s.reshapeBad n
    s.each d.badEntries fun s f => s.badLine (entryLine f) fun s => s.entryBad f

/-- DRAM_TRAINING_DONE: phase S2 ends. -/
def Dev.dramTrained (s : Dev) (d : DramEnv) : Dev :=
  if !s.sys.pwrGood || !s.kst.running || s.hif.recovery || s.sys.dramReady then s
  else
    let s := ((s.stepSeven d).startBook).checkStore d
    s.each d.failedChannels fun s c => s.channelFails c

/-! ## Phase S3 (R59, R450, R465) -/

/-- MPT_PERST_RELEASE: MPT_PERST_N of a port rises in phase S3. -/
def Dev.perstRelease (s : Dev) (port : Nat) : Dev :=
  if s.awake && s.sys.dramReady && port < 4 then s.onMpt fun m => { m with perst := m.perst ||| (1#4 <<< port) } else s

/-- MEMBER_ENUMERATION_DONE: the namespaces behind the released ports are taken up, and every field is assembled; a single chip
takes up its fields, a chip of a pair sends its list once its partner has said hello. -/
def Dev.enumerationDone (s : Dev) (found : List NsFound) : Dev :=
  if !s.awake || !s.sys.dramReady || s.mpt.enumerated then s
  else
    let l := found.filter fun n => s.mpt.perst.getLsbD n.port
    let s := s.onMpt fun m => { m with enumerated := true, found := l }
    let s := (s.each (sortBy NsFound.order l) fun s n => s.classify n).assembleAll l
    if s.twn.mode then s.beginPairing
    else s.each (s.fields.filter (·.assembled)) fun s f => s.takeUp f.id

/-- READY becomes 1 once the mailbox serves: the restore has placed the Field Book records of its dump, or restores none
(R434, R450). -/
def Dev.readyBoundary (s : Dev) : Dev :=
  if s.sys.dramReady && s.sys.restoreChosen && s.sys.trwHalted.contains false && !s.kst.halted then s.onHif fun h => { h with ready := true }
  else s

/-! ## Warm, hot and function-level resets (R443, R444, R448) -/

/-- The configuration space and the HIF registers at their cold-reset values; bits that show the chip's own state show it
still, and after a function-level reset the link, which stays up. -/
def Hif.afterReset (h : Hif) (warm flr : Bool) (barGib : Nat) : Hif :=
  { Hif.reset with
    ready := h.ready
    recovery := h.recovery
    eid := h.eid
    smbAddr := h.smbAddr
    i3cAddr := h.i3cAddr
    barGib := if warm then barGib else h.barGib
    linkDegraded := flr && h.linkDegraded
    speed := if flr then h.speed else 0
    width := if flr then h.width else 0
    flit := flr && h.flit }

/-- The MBX registers at their cold-reset values; a running command runs to its end, and the host's response is discarded
(R351). -/
def Mbx.afterReset (m : Mbx) : Mbx :=
  { Mbx.reset with
    busy := m.hostRun.isSome, hostRun := m.hostRun, mgmtRun := m.mgmtRun, mgmtNext := m.mgmtNext, hostDiscard := m.hostRun.isSome }

/-- The uncommitted lines of every write that is not durable go (R444). -/
def Dev.dropOpenLines (s : Dev) : Dev :=
  s.each (s.qs.cmds.filter fun c => c.op.isWrite && !c.durable) fun s c => s.dropLines c.id

/-- A warm reset ends every command without a completion and deletes every queue pair, with the sequence numbers of their
sources. -/
def Dev.dropQueues (s : Dev) : Dev :=
  let s := s.dropOpenLines.onQs fun q => { Queues.reset with nextCmd := q.nextCmd, nextRead := q.nextRead }
  let notQueue (n : BitVec 16) : Bool := n.toNat / 2 ^ 12 ≠ 1
  let s := s.onFbk fun k => { k with seqs := k.seqs.filter fun e => notQueue e.1, last := k.last.filter fun r => notQueue r.src }
  s.mbxWake .adminDelete mbOk []

/-- What a hot or function-level reset leaves of a pair: nothing prefetched, and parked completions replaced; of a batch all
commands end alike, so that its first entry is named (R333, R444). -/
def QPair.afterReset (cmds : List Cmd) (p : QPair) : QPair :=
  let abort (e : List Nat × Cqe) : List Nat × Cqe := match cmds.find? fun c => e.1.contains c.id with
    | some c => (e.1, { e.2 with status := stReset, detail := 0, sqIndex := BitVec.ofNat 16 c.sqIndex })
    | none => e
  { p with
    prefetch := [], pendingFlag := false, burst := none, cqRead := none, cqKnown := 0, stalled := false, reread := false
    waiting := p.waiting.map abort
    batches := p.batches.map fun b => if b.left < b.count then { b with worst := stReset, worstOrder := b.no, worstIndex := b.no % p.sqN, worstDetail := 0 } else b }

/-- A hot or function-level reset ends every command without a posted completion with ABORTED_BY_RESET. -/
def Dev.endAllCmds (s : Dev) : Dev :=
  let s := s.onQs fun q => { q with
    hreads := [], timedOut := []
    cmds := q.cmds.map fun c => { c with malformed := false, parkedData := false }
    pairs := q.pairs.map (QPair.afterReset q.cmds) }
  s.each (s.qs.cmds.filter fun c => c.stage ≠ .finished) fun s c => s.endCmd c.id stReset 0

/-- A reset gap starts at the next tick boundary; a trigger during a gap merges into it (R443). -/
def Dev.resetGap (s : Dev) : Dev :=
  if s.tck.gapNow.isSome then s else s.onTck fun t => { t with gapNext := dropAll (fun g : GapKind × Nat => g.1 = .reset) t.gapNext ++ [(.reset, 1024)] }

/-- Scrub resumes from the last position written (R104). -/
def Dev.scrubBack (s : Dev) : Dev :=
  (s.each (s.fields.map (·.id)) Dev.stopScrub).onFields fun l => l.map fun f => { f with scrubPos := f.scrubSaved }

/-- The parts that warm, hot and function-level resets share: registers, hod, partial chunks; record 0x0002 and the gap. -/
def Dev.hostReset (s : Dev) (kind ended : Nat) : Dev :=
  let gib := s.param .hifWinBarGib
  let s := s.onHif fun h => h.afterReset (kind = 2) (kind = 4) gib
  let s := s.onWin fun w => { Win.reset with mem := w.mem, unmirrored := w.unmirrored, unacked := w.unacked }
  let s := ((s.scrubBack.onMbx Mbx.afterReset).hodReset.onUpd Upd.dropParts).onDrm fun d => { d with selfRefresh := false }
  if s.tck.running then (s.record 0x0002 (s.srcProc 1) kind ended 0).resetGap else s

/-- Whether a warm, hot or function-level reset acts: not while a dump or a freeze holds the chip (R447, R456). -/
def Dev.resetActs (s : Dev) : Bool := s.sys.pwrGood && s.kst.running && !s.sys.frozen && s.vlt.dumping.isNone

/-- WARM_RESET: PERST_N falls with PWR_GOOD high. The function is in D0 afterwards. -/
def Dev.warmReset (s : Dev) : Dev :=
  if !s.resetActs then s
  else
    let n := s.qs.cmds.length
    (s.dropQueues.hostReset 2 n).onSys fun y => { y with warmGap := s.tck.running }

/-- HOT_RESET and FUNCTION_LEVEL_RESET; either merges into a warm reset that has not ended (R447). -/
def Dev.softerReset (s : Dev) (kind : Nat) : Dev :=
  if !s.resetActs || s.sys.warmGap then s
  else
    let n := s.qs.cmds.length
    s.endAllCmds.hostReset kind n

/-! ## The end of a dump, and power that returns (R226, R447) -/

/-- The Field Book FIFO is written out: REPEAT updates, drops and every record of it (R225, R426). -/
def Dev.drainBook (s : Dev) : Dev := s.each (List.range (s.fbk.fifo.length + s.fbk.last.length + 1)) fun s _ => s.writeSlot false

/-- A dump ends: program retries are recorded with their channels, and the Field Book ring and the footer close the slot as far as it has
room; every clock stops (R221, R225, R226). -/
def Dev.finishDump (s : Dev) (i : Nat) (retries : List Nat) : Dev :=
  let seq := s.vlt.dumpSeq
  let s := (s.each retries fun s ch => (s.count .vltProgramRetries).vaultRecordOf 0x6025 ch 1 seq).drainBook
  let ring := s.fbk.ring
  let written := s.fbk.written
  let n := (s.vslot i).manifest.length
  let front := manifestPages n + 2 + framePages n
  let room := s.vlt.dumpRoom
  let s := (if room = some 0 then s else s.onVslot i fun v => { v with
    fbk := match room with | none => ring | some r => ring.take (504 * (r - front))
    fbkWritten := written
    footer := v.manifestOk && v.written = n && room.all (front + bookPages + 1 ≤ ·) }).count .vltDumps
  (s.onVlt fun v => { v with dumping := none, dumpKey := none, dumpRoom := none }).onTck fun t => { t with running := false }

/-- DUMP_END: the dump ends with every clock stopped; the chip restarts when power has returned, but not after a thermal trip
(R226, R445, R483). -/
def Dev.dumpEnd (s : Dev) (retries : List Nat) (b : BootEnv) : Dev :=
  match s.vlt.dumping with
  | none => s
  | some i =>
    if !s.vlt.dumpTick || s.sys.frozen then s
    else
      let kind := if s.vlt.softDump then 5 else 1
      let s := (s.finishDump i retries).turnOff
      if !s.sys.pwrfailLow && s.sys.pwrGood && !s.vlt.thermal then s.coldStart kind b else s

/-- PWRFAIL_N_RETURN: the pin is high again; a restore that a power fail stopped is made good by a restart (R447). -/
def Dev.pwrfailReturn (s : Dev) (b : BootEnv) : Dev :=
  let s := s.onSys fun y => { y with pwrfailLow := false }
  if !s.sys.frozen && s.sys.pwrGood && s.tck.running && s.vlt.pwrfailLatched && s.vlt.restoring.isSome && s.vlt.dumping.isNone then s.coldStart 1 b
  else s

/-! ## Soft resets and fall-backs (R416, R445) -/

/-- L holds lines that no destage can remove (R216). -/
def Dev.stuckLines (s : Dev) : Bool := s.cache.lines.any fun l => l.dirty && s.stuck l

/-- DEVICE_RESET. -/
def Dev.deviceReset (s : Dev) (p : MbxPath) : Dev :=
  if s.hif.recovery then (s.onSys fun y => { y with softReset := true }).mbxOk p
  else if s.vlt.dumping.isSome || s.vlt.restoring.isSome || !s.sys.restoreChosen then s.mbxRefuse p mbNotAllowed noDetail
  else if !s.vlt.armed && s.stuckLines then s.mbxRefuse p mbNotAllowed noDetail
  else (s.onSys fun y => { y with softReset := true }).mbxOk p

/-- DEVICE_RESET arrives. -/
def Dev.onDeviceReset (s : Dev) (p : MbxPath) (r : MbxReq) : Dev :=
  s.mbxCommand p 0x0103 (.deviceReset p r) r (r.len = 0) [] fun s => s.deviceReset p

/-- At the tick boundary after a DEVICE_RESET the dump starts when the vault is armed, else the drain (R445). -/
def Dev.softBoundary (s : Dev) : Dev :=
  if !s.sys.softReset || s.vlt.softDump || s.sys.softDrain then s
  else if s.vlt.armed then s.onVlt fun v => { v with pwrfailLatched := true, softDump := true }
  else s.onSys fun y => { y with softDrain := true }

/-- SOFT_RESET_RESTART: the drain has ended, or the recovery loader restarts at once (R418, R445). -/
def Dev.softRestart (s : Dev) (b : BootEnv) : Dev :=
  if s.sys.softReset && !s.sys.frozen && s.sys.pwrGood && !s.vlt.softDump && (s.hif.recovery || (s.sys.softDrain && s.drained?)) then s.coldStart 5 b
  else s

/-- FALLBACK_RESTART: handover and drain are over, or UPD_HANDOVER_WAIT_S is (R416). -/
def Dev.fallRestart (s : Dev) (b : BootEnv) : Dev := if s.awake && s.fallDue then s.coldStart 5 b else s

/-! ## Processors (R344, R370, R446) -/

/-- The tick sequencer stops for good, and READY clears (R344, R370). -/
def Dev.stopTick (s : Dev) : Dev := (s.onTck fun t => { t with running := false }).onHif fun h => { h with ready := false }

/-- What follows a label change, without the answer to a mailbox command that has ended. -/
def LabelThen.without (p : MbxPath) : LabelThen → LabelThen
  | .command q => if q = p then .nothing else .command q
  | .rebuild q n => .rebuild (q.filter (· ≠ p)) n
  | .reshapeStart q => .reshapeStart (q.filter (· ≠ p))
  | .nothing => .nothing
  | .create => .create
  | .reshapeEnd l => .reshapeEnd l
  | .release m => .release m
  | .takeover => .takeover
  | .handover => .handover

/-- The same for what a field does once its labels have been read anew. -/
def RereadFor.without (p : MbxPath) : RereadFor → RereadFor
  | .adopt q => .adopt (q.filter (· ≠ p))
  | .takeover => .takeover
  | .handover => .handover

/-- A field's work goes on without the mailbox command that asked for it. -/
def Field.without (p : MbxPath) (f : Field) : Field :=
  { f with
    labelChanges := f.labelChanges.map fun c => { c with andThen := c.andThen.without p }
    labelHeld := f.labelHeld.map (LabelThen.without p)
    rsPend := f.rsPend.map fun x => (x.1, x.2.1, x.2.2.filter (· ≠ p))
    reread := f.reread.map fun r => { r with what := r.what.without p } }

/-- The running command of a mailbox ends with INTERRUPTED: what it has begun goes on to its end; a command that still waits
for its objects, for the partner's answer or for a chunk to land has no effect (R351, R355). -/
def Dev.interrupt (s : Dev) (p : MbxPath) : Dev :=
  match s.mbx.run? p with
  | none => s
  | some r =>
    let s := s.onFields fun l => l.map (Field.without p)
    let s := if r.wait = .chunk then s.onUpd fun u => u.setPart p none else s
    s.mbxDone p mbInterrupted []

/-- TRW_LOCKSTEP_FAULT: a pair halts; the other takes its roles at the next tick boundary. A fault of
pair 1, which runs the mailboxes, ends their commands (R343). With both halted the tick stops. -/
def Dev.lockstep (s : Dev) (pair : Bool) : Dev :=
  let i := b2n pair
  if !s.awake || (s.sys.trwHalted[i]?).getD true then s
  else
    let s := (s.record 0x0140 (s.srcProc i) 0 0 0).onSys fun y => { y with
      trwHalted := y.trwHalted.set i true, trwTakeNext := y.trwTakeNext || !pair }
    if s.sys.trwHalted.contains false then if pair then (s.interrupt .host).interrupt .mgmt else s
    else s.stopTick.record 0x0141 (s.srcProc 2) 0 0 0

/-- The boot ROM run of a Keystone reset: steps 1 to 4 and 6, the images as they run (R446). -/
def Dev.kstBoot (s : Dev) (b : BootEnv) : Dev :=
  let x := s.countBoot b
  let s := x.1.settleOwner
  let fallow := s.kst.runningSlot = 1
  let target := if s.hif.recovery then BootTo.recovery else .slot s.kst.bootedSlot
  let armed := s.kst.policy.freezeEnable && s.kst.ownerState ≠ 2 && !s.hif.recovery
  (s.writeLedger b target fallow x.2 true).onSys fun y => { y with freezeArmed := armed }

/-- KEYSTONE_RESET: counted and recorded; the fourth within 2³⁰ ticks halts the Keystone and stops the tick. -/
def Dev.keystoneReset (s : Dev) (b : BootEnv) : Dev :=
  if !s.sys.pwrGood || !s.kst.running || s.kst.halted || s.sys.frozen then s
  else
    let now := s.tck.count
    let s := (s.count .kstResets).onKst fun k => { k with
      resetTicks := (k.resetTicks.filter fun t => now.toNat < t.toNat + 2 ^ 30) ++ [now]
      nonceHost := none, nonceMgmt := none, enrolHost := [], enrolMgmt := [] }
    let s := (s.onHif fun h => { h with kstFault := true }).recordKstEvent 0x8001 0 0 9
    let s := s.scrubBack.hodReset.onUpd Upd.dropParts
    if 4 ≤ s.kst.resetTicks.length then
      ((s.onKst fun k => { k with halted := true }).stopTick).recordKstEvent 0x8002 0 0 9
    else if !b.romOk then s.turnOff
    else if s.tck.running then (s.kstBoot b).resetGap else s.kstBoot b

/-! ## Heat (R483) -/

/-- SYS_THERMAL_WARN: the hottest junction rises to 115 °C. -/
def Dev.thermalWarn (s : Dev) (celsius sensor : Nat) : Dev :=
  if s.awake && 115 ≤ celsius && !s.sys.thermWarn then
    (s.onSys fun y => { y with thermWarn := true }).recordEvent 0x0170 (s.srcProc 1) celsius sensor 0 11
  else s

/-- SYS_THERMAL_CLEAR: it falls to 110 °C. -/
def Dev.thermalClear (s : Dev) (celsius sensor : Nat) : Dev :=
  if s.awake && celsius ≤ 110 && s.sys.thermWarn then
    (s.onSys fun y => { y with thermWarn := false }).record 0x0171 (s.srcProc 1) celsius sensor 0
  else s

/-- SYS_THERMAL_TRIP: it rises to 125 °C: THERMTRIP_N falls, and a dump starts as if PWRFAIL_N had fallen. -/
def Dev.thermalTrip (s : Dev) (celsius sensor : Nat) : Dev :=
  if s.awake && 125 ≤ celsius && !s.sys.thermTrip then
    let s := (s.onSys fun y => { y with thermTrip := true }).record 0x0172 (s.srcProc 1) celsius sensor 0
    if s.vlt.dumping.isSome then s
    else (s.onVlt fun v => { v with thermal := true, pwrfailLatched := true }).onDrm fun d => { d with selfRefresh := false }
  else s

/-! ## Commands -/

/-- COLD_RESET. -/
def execColdReset (b : BootEnv) (s : State) : Host.Outcome State Fault Refusal := .next { s with toDev := s.toDev.coldReset b }

/-- WARM_RESET. -/
def execWarmReset (s : State) : Host.Outcome State Fault Refusal := .next { s with toDev := s.toDev.warmReset }

/-- HOT_RESET. -/
def execHotReset (s : State) : Host.Outcome State Fault Refusal := .next { s with toDev := s.toDev.softerReset 3 }

/-- FUNCTION_LEVEL_RESET. -/
def execFunctionLevelReset (s : State) : Host.Outcome State Fault Refusal := .next { s with toDev := s.toDev.softerReset 4 }

/-- POWER_LOSS. -/
def execPowerLoss (framesWritten : Option Nat) (s : State) : Host.Outcome State Fault Refusal :=
  .next { s with toDev := s.toDev.powerLost framesWritten }

/-- DRAM_TRAINING_DONE. -/
def execDramTrainingDone (d : DramEnv) (s : State) : Host.Outcome State Fault Refusal := .next { s with toDev := s.toDev.dramTrained d }

/-- MPT_PERST_RELEASE. -/
def execMptPerstRelease (port : Nat) (s : State) : Host.Outcome State Fault Refusal := .next { s with toDev := s.toDev.perstRelease port }

/-- MEMBER_ENUMERATION_DONE. -/
def execMemberEnumerationDone (found : List NsFound) (s : State) : Host.Outcome State Fault Refusal :=
  .next { s with toDev := s.toDev.enumerationDone found }

/-- DUMP_END. -/
def execDumpEnd (retries : List Nat) (b : BootEnv) (s : State) : Host.Outcome State Fault Refusal := .next { s with toDev := s.toDev.dumpEnd retries b }

/-- PWRFAIL_N_RETURN. -/
def execPwrfailNReturn (b : BootEnv) (s : State) : Host.Outcome State Fault Refusal := .next { s with toDev := s.toDev.pwrfailReturn b }

/-- DEVICE_RESET. -/
def execDeviceReset (p : MbxPath) (r : MbxReq) (s : State) : Host.Outcome State Fault Refusal :=
  .next { s with toDev := s.toDev.onDeviceReset p r }

/-- SOFT_RESET_RESTART. -/
def execSoftResetRestart (b : BootEnv) (s : State) : Host.Outcome State Fault Refusal := .next { s with toDev := s.toDev.softRestart b }

/-- FALLBACK_RESTART. -/
def execFallbackRestart (b : BootEnv) (s : State) : Host.Outcome State Fault Refusal := .next { s with toDev := s.toDev.fallRestart b }

/-- TRW_LOCKSTEP_FAULT. -/
def execTrwLockstepFault (pair : Bool) (s : State) : Host.Outcome State Fault Refusal := .next { s with toDev := s.toDev.lockstep pair }

/-- KEYSTONE_RESET, from whichever of its causes. -/
def execKeystoneReset (_c : KstCause) (b : BootEnv) (s : State) : Host.Outcome State Fault Refusal :=
  .next { s with toDev := s.toDev.keystoneReset b }

/-- SYS_THERMAL_WARN. -/
def execSysThermalWarn (celsius sensor : Nat) (s : State) : Host.Outcome State Fault Refusal :=
  .next { s with toDev := s.toDev.thermalWarn celsius sensor }

/-- SYS_THERMAL_CLEAR. -/
def execSysThermalClear (celsius sensor : Nat) (s : State) : Host.Outcome State Fault Refusal :=
  .next { s with toDev := s.toDev.thermalClear celsius sensor }

/-- SYS_THERMAL_TRIP. -/
def execSysThermalTrip (celsius sensor : Nat) (s : State) : Host.Outcome State Fault Refusal :=
  .next { s with toDev := s.toDev.thermalTrip celsius sensor }

end Sys2Proof.Machine
end

