-- ==== Sys2Proof/Machine/Control.lean ====
section
/-!
DEFINITION. The mailbox commands of the device itself: IDENTIFY, DEVICE_STATUS, the admin queue pair (R336), the parameters
(R360 to R362), unknown opcodes (R355), and the start of commands that have waited for their objects (R352).
-/

namespace Sys2Proof.Machine

/-! ## The identity page (R363) -/

/-- An entry of VERSIONS: major, minor and build of a component of the running image. -/
def Dev.versionBytes (s : Dev) (n : Nat) : List Byte :=
  match s.runningImage.comp? n with
  | some c => bytesLE 2 c.major ++ bytesLE 2 c.minor ++ bytesLE 4 c.build
  | none => zeroBytes 8

/-- The first 128 bytes of the identity page; every further byte reads 0. -/
def Dev.identity (s : Dev) : List Byte :=
  ascii 8 "HLFIDENT" ++ bytesLE 2 1 ++ [0x10, BitVec.ofNat 8 (b2n s.twn.position + 2 * s.kst.runningSlot)] ++ zeroBytes 4 ++
  ascii 16 "HLF-9600" ++ ascii 16 "Nathen" ++ bytesLE 8 Config.serial.toNat ++ bytesLE 8 s.mst.bootCount.toNat ++
  [1, 2, 3, 4, 5].flatMap s.versionBytes ++ bytesLE 2 s.mbx.version.toNat ++ bytesLE 2 s.twnVersion ++ bytesLE 2 1 ++ zeroBytes 18

/-- The DEVICE_STATUS response (R356). -/
def Dev.statusBytes (s : Dev) : List Byte :=
  bytesLE 4 s.hifStatus ++ bytesLE 4 s.tckStatus ++ bytesLE 4 s.drm.protCauses.toNat ++ bytesLE 1 s.mst.level ++ [s.twn.state] ++
  bytesLE 2 s.ownIds.length ++ bytesLE 2 s.mpt.members.length ++ zeroBytes 6 ++ bytesLE 8 s.now

/-! ## The admin queue pair (R336) -/

/-- The admin pair that a request asks for. -/
def adminSpec (r : MbxReq) : PairSpec :=
  ⟨1024, false, 0, 0, reqAt r 0x10 4, reqAt r 0x14 4, BitVec.ofNat 64 (reqAt r 0 8), BitVec.ofNat 64 (reqAt r 8 8)⟩

/-- The offset of the first field of a request that is refused. -/
def adminRefused (x : PairSpec) : Option Nat :=
  if x.sqBase.toNat % 64 ≠ 0 then some 0
  else if x.cqBase.toNat % 16 ≠ 0 then some 8
  else if !ringSizeOk x.sqN then some 0x10
  else if !ringSizeOk x.cqN then some 0x14
  else none

/-- ADMIN_QUEUE_CREATE: the pair exists when the command completes, and its completion ring is read (R329). -/
def Dev.adminCreate (s : Dev) (p : MbxPath) (r : MbxReq) : Dev :=
  if (s.pair? 1024).isSome then s.mbxRefuse p mbNotAllowed noDetail
  else match adminRefused (adminSpec r) with
    | some d => s.mbxRefuse p mbBadArgument d
    | none => ((s.addPair (adminSpec r) true).readCq 1024).mbxOk p

/-- ADMIN_QUEUE_DELETE: the pair goes under the rules for I/O pairs (R338). -/
def Dev.adminDelete (s : Dev) (p : MbxPath) : Dev :=
  match s.pair? 1024 with
  | some x =>
    if x.deleting.isSome then s.mbxRefuse p mbNotAllowed noDetail
    else (s.onPair 1024 fun x => { x with deleting := some 0 }).mbxWait p .adminDelete
  | none => s.mbxRefuse p mbNotAllowed noDetail

/-! ## Parameters -/

/-- The value of a STATUS parameter. -/
def Dev.statusParam (s : Dev) (p : StP) : Nat :=
  match p with
  | .sysCtxInUse => s.sys.ctxInUse
  | .sysStateEpoch => s.sys.epoch
  | .dblQpairs => (s.qs.pairs.filter fun x => x.qid < 1024 && x.live).length
  | .morLaneStatus => s.mor.lanesOut.toNat
  | .mstThrottleLevel => s.mst.level
  | .mstSlotsFree => s.mst.slotsFree
  | .hodStatus => s.hodStatus
  | .hodLinesValid => s.hod.linesValid
  | .drmProtected => s.drm.protCauses.toNat
  | .drmDumpLoad => s.drm.dumpLoad
  | .drmChannelStatus => s.drm.channels.toNat
  | .vltSlotBytes => s.vlt.slotBytes
  | .vltArmed => b2n s.vlt.armed
  | .twnState => s.twn.state.toNat
  | .twnAliveFault => b2n s.twn.aliveFault
  | .twnLinkWidth => s.twn.width
  | .twnMirrorPoolBytes => s.twn.poolBytes
  | .kstOwnerState => s.kst.ownerState.toNat
  | .kstBootCount => s.mst.bootCount.toNat
  | .kstLedgerOldest => s.kst.oldest
  | .kstFieldKeys => s.kst.keySlots.length
  | .updSeedbedState => s.upd.seedState
  | .updActiveState => s.upd.slotState s.upd.activeSlot
  | .frzArmed => b2n s.sys.freezeArmed
  | .frzFuse => b2n s.sys.fuse

/-- The value of an element of a parameter. -/
def Dev.parValue (s : Dev) (p : Par) (index : Nat) : Nat :=
  match p with
  | .cfg c => s.param c
  | .domain => s.mpt.domainMap[index]?.getD 0
  | .drain => s.drm.drain
  | .hodInv => b2n s.hod.invalidating
  | .st c => s.statusParam c
  | .ctr c => s.ctr[ctrIx c]

/-- The value of an entry of a PARAM_GET; that of a diagnostic parameter is a free value (R360). -/
def Dev.entryValue (s : Dev) (e : Nat × Nat × Nat) : Nat :=
  match parOf e.1 with
  | some (_, p) => s.parValue p e.2.1
  | none => Config.diagParam e.1 s.freeCtr

/-- Tests 1 and 2 of R362 for entry `e.2`: what fails, and the offset that it names. -/
def entryExists (e : (Nat × Nat × Nat) × Nat) : Option (Nat × Nat) :=
  let n := match parOf e.1.1 with
    | some (_, p) => parElements p
    | none => if parDiag e.1.1 then 1 else 0
  if n = 0 then some (mbBadArgument, 0x08 + 16 * e.2)
  else if n ≤ e.1.2.1 then some (mbBadArgument, 0x0C + 16 * e.2)
  else none

/-- Whether a value lies within a writable parameter's range (R65, R201, R234, R361). -/
def valueOk (p : Par) (v : Nat) : Bool :=
  match p with
  | .cfg c => cfgInRange c v
  | .domain => v ≤ 255
  | _ => v ≤ 1

/-- Tests 3 and 4 of R362. -/
def entryWritable (e : (Nat × Nat × Nat) × Nat) : Option (Nat × Nat) :=
  match parOf e.1.1 with
  | some (_, p) =>
    if parClass p ≥ 2 then some (mbNotAllowed, 0x08 + 16 * e.2)
    else if valueOk p e.1.2.2 then none
    else some (mbBadArgument, 0x10 + 16 * e.2)
  | none => some (mbNotAllowed, 0x08 + 16 * e.2)

/-- All four tests of one entry, in their order. -/
def entryRefused (e : (Nat × Nat × Nat) × Nat) : Option (Nat × Nat) := (entryExists e).or (entryWritable e)

/-- Whether the length is the one that COUNT asks for (R350, R362). -/
def paramLenOk (r : MbxReq) : Bool := 8 ≤ r.len && r.len = 8 + 16 * reqAt r 0 2

/-- PARAM_GET. -/
def Dev.paramGet (s : Dev) (p : MbxPath) (r : MbxReq) : Dev :=
  let l := paramEntries r
  if l = [] then s.mbxRefuse p mbBadArgument 0
  else match l.zipIdx.findSome? entryExists with
    | some (st, d) => s.mbxRefuse p st d
    | none =>
      let one (e : Nat × Nat × Nat) : List Byte :=
        bytesLE 2 e.1 ++ zeroBytes 2 ++ bytesLE 4 e.2.1 ++ bytesLE 8 (s.entryValue e)
      s.drew.mbxDone p mbOk (bytesLE 2 l.length ++ zeroBytes 6 ++ l.flatMap one)

/-- Whether an entry names a parameter that takes effect only at a later reset (R278, R269). -/
def atReset (e : Nat × Nat × Nat) : Bool := e.1 = 0x0800 || e.1 = 0x3400

/-- PARAM_SET: every entry or none; on a SYNCED chip a parameter of the pair waits for PARAM_SYNC (R362, R366). -/
def Dev.paramSet (s : Dev) (p : MbxPath) (r : MbxReq) : Dev :=
  let l := paramEntries r
  if l = [] then s.mbxRefuse p mbBadArgument 0
  else match l.zipIdx.findSome? entryRefused with
    | some (st, d) => s.mbxRefuse p st d
    | none => match s.refusedEntry l with
      | some i => s.mbxRefuse p mbNotAllowed (0x10 + 16 * i)
      | none =>
        if s.twn.state = 3 && l.any (fun e => pairParam e.1) then (s.syncStart l).mbxWait p .sync
        else (s.stage l).mbxDone p mbOk (bytesLE 8 (if l.all atReset then maxCount else s.now + 1))

/-- MIN, MAX and DEFAULT of a parameter; what the spec does not state is a free value. -/
def parRange (p : Par) (free : Nat) : Nat × Nat × Nat :=
  match p with
  | .cfg c => ((cfgRange c).1, (cfgRange c).2, cfgDefault c)
  | .domain => (0, 255, maxCount)
  | .drain | .hodInv => (0, 1, 0)
  | .st c => ((stRange c).1.getD free, (stRange c).2.1.getD (free / 2 ^ 64), (stRange c).2.2.getD (free / 2 ^ 128))
  | .ctr _ => (0, maxCount, 0)

/-- A PARAM_INFO response. -/
def infoBytes (cls elements : Nat) (m : Nat × Nat × Nat) (name : List Byte) : List Byte :=
  bytesLE 1 cls ++ bytesLE 2 elements ++ zeroBytes 5 ++ bytesLE 8 m.1 ++ bytesLE 8 m.2.1 ++ bytesLE 8 m.2.2 ++ name

/-- PARAM_INFO. What it says of a diagnostic parameter, which is read-only, is a free value (R360). -/
def Dev.paramInfo (s : Dev) (p : MbxPath) (r : MbxReq) : Dev :=
  let id := reqAt r 0 2
  let v := s.free
  match parOf id with
  | some (name, x) => s.drew.mbxDone p mbOk (infoBytes (parClass x) (parElements x) (parRange x v) (ascii 32 name))
  | none =>
    if parDiag id then
      s.drew.mbxDone p mbOk (infoBytes (2 + v % 2) 1 (v, v / 2 ^ 64, v / 2 ^ 128) (bytesLE 32 (v / 2 ^ 192)))
    else s.mbxRefuse p mbBadArgument 0

/-! ## Arrival -/

def Dev.onIdentify (s : Dev) (p : MbxPath) (r : MbxReq) : Dev :=
  s.mbxCommand p 0x0101 (.identify p r) r (r.len = 0) [] fun s => s.mbxDone p mbOk s.identity
def Dev.onDeviceStatus (s : Dev) (p : MbxPath) (r : MbxReq) : Dev :=
  s.mbxCommand p 0x0102 (.deviceStatus p r) r (r.len = 0) [] fun s => s.mbxDone p mbOk s.statusBytes
def Dev.onAdminCreate (s : Dev) (p : MbxPath) (r : MbxReq) : Dev :=
  s.mbxCommand p 0x0201 (.adminQueueCreate p r) r (r.len = 24) [] fun s => s.adminCreate p r
def Dev.onAdminDelete (s : Dev) (p : MbxPath) (r : MbxReq) : Dev :=
  s.mbxCommand p 0x0202 (.adminQueueDelete p r) r (r.len = 0) [] fun s => s.adminDelete p
def Dev.onParamGet (s : Dev) (p : MbxPath) (r : MbxReq) : Dev :=
  s.mbxCommand p 0x0801 (.paramGet p r) r (paramLenOk r) [] fun s => s.paramGet p r
def Dev.onParamSet (s : Dev) (p : MbxPath) (r : MbxReq) : Dev :=
  s.mbxCommand p 0x0802 (.paramSet p r) r (paramLenOk r) [.params] fun s => s.paramSet p r
def Dev.onParamInfo (s : Dev) (p : MbxPath) (r : MbxReq) : Dev :=
  s.mbxCommand p 0x0803 (.paramInfo p r) r (len8 r) [] fun s => s.paramInfo p r

/-- A request whose opcode no command has: BAD_OPCODE, once the loader or the firmware answers at all (R353, R355). -/
def Dev.onBadOpcode (s : Dev) (p : MbxPath) (opcode : BitVec 16) (r : MbxReq) : Dev :=
  s.mbxCommand p opcode.toNat (.badOpcode p opcode r) r true [] fun s => s.mbxDone p mbBadOpcode []

/-- The command of an opcode, from a path (R356). What the command's row is told beside the request, the verdict on signatures
and the read errors of the ring, comes from the arguments. -/
def mbxInstr (p : MbxPath) (opcode : Nat) (r : MbxReq) (sigsOk : Bool) : Option Instr :=
  match opcode with
  | 0x0101 => some (.identify p r) | 0x0102 => some (.deviceStatus p r) | 0x0103 => some (.deviceReset p r)
  | 0x0201 => some (.adminQueueCreate p r) | 0x0202 => some (.adminQueueDelete p r)
  | 0x0301 => some (.fieldCreate p r) | 0x0302 => some (.fieldDelete p r) | 0x0303 => some (.fieldOffline p r)
  | 0x0304 => some (.fieldOnline p r) | 0x0305 => some (.fieldStatus p r) | 0x0306 => some (.fieldSetReadOnly p r)
  | 0x0307 => some (.fieldReshape p r) | 0x0308 => some (.fieldLostList p r)
  | 0x0401 => some (.memberList p r) | 0x0402 => some (.memberAddSpare p r) | 0x0403 => some (.memberRemoveSpare p r)
  | 0x0404 => some (.memberFail p r) | 0x0405 => some (.memberRelease p r) | 0x0406 => some (.memberRebuild p r)
  | 0x0407 => some (.memberFormat p r)
  | 0x0501 => some (.ledgerRead p r) | 0x0502 => some (.ledgerInfo p r) | 0x0503 => some (.certRead p r)
  | 0x0504 => some (.ownerEnrol p r sigsOk) | 0x0505 => some (.ownerPolicy p r)
  | 0x0601 => some (.updOpen p r) | 0x0602 => some (.updChunk p r) | 0x0603 => some (.updStatus p r)
  | 0x0604 => some (.updClose p r) | 0x0605 => some (.updAbort p r) | 0x0606 => some (.updConfirm p r)
  | 0x0701 => some (.fbkRead p r []) | 0x0702 => some (.fbkInfo p r)
  | 0x0801 => some (.paramGet p r) | 0x0802 => some (.paramSet p r) | 0x0803 => some (.paramInfo p r)
  | 0x0901 => some (.twnStatus p r) | 0x0902 => some (.twnHandover p r) | 0x0903 => some (.twnReturn p r)
  | 0x0904 => some (.twnAdopt p r)
  | _ => none

/-- Hands a mailbox command to its arrival. -/
def Dev.mbxArrive (s : Dev) (i : Instr) : Dev :=
  match i with
  | .identify p r => s.onIdentify p r
  | .deviceStatus p r => s.onDeviceStatus p r
  | .deviceReset p r => s.onDeviceReset p r
  | .adminQueueCreate p r => s.onAdminCreate p r
  | .adminQueueDelete p r => s.onAdminDelete p r
  | .fieldCreate p r => s.onFieldCreate p r
  | .fieldDelete p r => s.onFieldDelete p r
  | .fieldOffline p r => s.onFieldOffline p r
  | .fieldOnline p r => s.onFieldOnline p r
  | .fieldStatus p r => s.onFieldStatus p r
  | .fieldSetReadOnly p r => s.onFieldSetReadOnly p r
  | .fieldReshape p r => s.onFieldReshape p r
  | .fieldLostList p r => s.onFieldLostList p r
  | .memberList p r => s.onMemberList p r
  | .memberAddSpare p r => s.onMemberAddSpare p r
  | .memberRemoveSpare p r => s.onMemberRemoveSpare p r
  | .memberFail p r => s.onMemberFail p r
  | .memberRelease p r => s.onMemberRelease p r
  | .memberRebuild p r => s.onMemberRebuild p r
  | .memberFormat p r => s.onMemberFormat p r
  | .ledgerRead p r => s.onLedgerRead p r
  | .ledgerInfo p r => s.onLedgerInfo p r
  | .certRead p r => s.onCertRead p r
  | .ownerEnrol p r ok => s.onOwnerEnrol p r ok
  | .ownerPolicy p r => s.onOwnerPolicy p r
  | .updOpen p r => s.onUpdOpen p r
  | .updChunk p r => s.onUpdChunk p r
  | .updStatus p r => s.onUpdStatus p r
  | .updClose p r => s.onUpdClose p r
  | .updAbort p r => s.onUpdAbort p r
  | .updConfirm p r => s.onUpdConfirm p r
  | .fbkRead p r ecc => s.onFbkRead p r ecc
  | .fbkInfo p r => s.onFbkInfo p r
  | .paramGet p r => s.onParamGet p r
  | .paramSet p r => s.onParamSet p r
  | .paramInfo p r => s.onParamInfo p r
  | .twnStatus p r => s.onTwnStatus p r
  | .twnHandover p r => s.onTwnHandover p r
  | .twnReturn p r => s.onTwnReturn p r
  | .twnAdopt p r => s.onTwnAdopt p r
  | .badOpcode p op r => s.onBadOpcode p op r
  | _ => s

/-- COMMAND_OBJECTS_GRANTED: a command whose objects are free, or the request that the management mailbox keeps, starts. -/
def Dev.grantObjects (s : Dev) (p : MbxPath) : Dev :=
  match s.mbxReady? p with
  | some (s, i) => s.mbxArrive i
  | none => s

/-! ## Commands -/

/-- IDENTIFY. -/
def execIdentify (p : MbxPath) (r : MbxReq) (s : State) : Host.Outcome State Fault Refusal :=
  .next { s with toDev := s.toDev.onIdentify p r }

/-- COMMAND_OBJECTS_GRANTED. -/
def execCommandObjectsGranted (p : MbxPath) (s : State) : Host.Outcome State Fault Refusal :=
  .next { s with toDev := s.toDev.grantObjects p }

/-- DEVICE_STATUS. -/
def execDeviceStatus (p : MbxPath) (r : MbxReq) (s : State) : Host.Outcome State Fault Refusal :=
  .next { s with toDev := s.toDev.onDeviceStatus p r }

/-- ADMIN_QUEUE_CREATE. -/
def execAdminQueueCreate (p : MbxPath) (r : MbxReq) (s : State) : Host.Outcome State Fault Refusal :=
  .next { s with toDev := s.toDev.onAdminCreate p r }

/-- ADMIN_QUEUE_DELETE. -/
def execAdminQueueDelete (p : MbxPath) (r : MbxReq) (s : State) : Host.Outcome State Fault Refusal :=
  .next { s with toDev := s.toDev.onAdminDelete p r }

/-- PARAM_GET. -/
def execParamGet (p : MbxPath) (r : MbxReq) (s : State) : Host.Outcome State Fault Refusal :=
  .next { s with toDev := s.toDev.onParamGet p r }

/-- PARAM_SET. -/
def execParamSet (p : MbxPath) (r : MbxReq) (s : State) : Host.Outcome State Fault Refusal :=
  .next { s with toDev := s.toDev.onParamSet p r }

/-- PARAM_INFO. -/
def execParamInfo (p : MbxPath) (r : MbxReq) (s : State) : Host.Outcome State Fault Refusal :=
  .next { s with toDev := s.toDev.onParamInfo p r }

/-- BAD_OPCODE. An opcode that is a command's is not this event. -/
def execBadOpcode (p : MbxPath) (opcode : BitVec 16) (r : MbxReq) (s : State) : Host.Outcome State Fault Refusal :=
  .next { s with toDev := if (mbxInstr p opcode.toNat r true).isSome then s.toDev else s.toDev.onBadOpcode p opcode r }

end Sys2Proof.Machine
end

