-- ==== Sys2Proof/Machine/Freeze.lean ====
section
/-!
DEFINITION. FREEZE_N, the JTAG port and the harvest chain (R455 to R459).
-/

namespace Sys2Proof.Machine

/-! ## FREEZE_N (R455 to R457) -/

/-- The clock domains that never stop: the always-on domain and the JTAG read-out domain (R27). -/
def neverStops (n : Nat) : Bool := n < 2

/-- A dump that a freeze cuts: how far it has come is a free value (R447). -/
def Dev.freezeDump (s : Dev) : Dev :=
  match s.vlt.dumping with
  | none => s
  | some i =>
    let x := s.free % ((s.vslot i).written + 2)
    s.drew.cutDump (if x = (s.vslot i).written + 1 then none else some x)

/-- FREEZE: FREEZE_N has been low for 40 ns. Disarmed it is ignored, counted and recorded; armed it stops every stoppable domain,
records where they stopped, and takes the links down. -/
def Dev.freeze (s : Dev) : Dev :=
  if !s.sys.pwrGood || s.sys.frozen then s
  else if !s.sys.freezeArmed then (s.count .frzIgnored).record 0x0160 (s.srcProc 1) 0 0 0
  else
    let n := s.freeCtr
    let tick := s.tck.count.setWidth 48
    let cycle := s.tck.cycle
    let s := s.freezeDump.drew.onSys fun y => { y with
      frozen := true, frzTick := tick, frzCycle := cycle, stops := (List.range 64).map fun d => Config.stopCycles d n }
    (s.onTwn fun t => { t with linkUp := false, width := 0 }).onHif fun h => { h with speed := 0, width := 0, flit := false }

/-! ## The harvest chain (R459) -/

/-- Bit `i` of bytes, least significant bit of each byte first. -/
def bitOf (l : List Byte) (i : Nat) : Bool := ((l[i / 8]?).getD 0).getLsbD (i % 8)

/-- One stop record of 64 bits: CYCLES, the domain number, STOPPED. -/
def Dev.stopRecord (s : Dev) (d : Nat) : List Byte :=
  bytesLE 8 (((s.sys.stops[d]?).getD 0).toNat + d * 2 ^ 48 + (if neverStops d then 0 else 2 ^ 63))

/-- Bits [62:0] of the low word and [28:0] of the high word of a tag entry (R184). -/
def HodLine.words (l : HodLine) : Nat × Nat :=
  (l.key.field + b2n l.key.geom * 2 ^ 8 + l.key.seg % 16 * 2 ^ 9 + l.key.course % 2 ^ 40 * 2 ^ 13 + b2n l.valid * 2 ^ 53 + l.age % 4 * 2 ^ 54,
   l.rowValid.toNat + l.pins % 32 * 2 ^ 16 + l.missReg % 16 * 2 ^ 24 + b2n l.pending * 2 ^ 28)

/-- A tag entry of 128 bits with its even parity in bit 63. -/
def HodLine.tag (l : HodLine) : List Byte :=
  let w := l.words
  let odd := (popCount 63 w.1 + popCount 29 w.2) % 2
  bytesLE 8 (w.1 + odd * 2 ^ 63) ++ bytesLE 8 w.2

/-- The ring record that lies in a slot: record k lies in slot k mod 16,384. -/
def Fbk.slot? (k : Fbk) (i : Nat) : Option FbRec :=
  (List.range k.ring.length).findSome? fun n =>
    if (k.written - k.ring.length + n) % 16384 = i then k.ring[n]? else none

/-- Length in bits of a harvest segment; none where it is specific to the stepping. -/
def segmentBits : Nat → Option Nat
  | 0 => some 4096
  | 1 => none
  | 2 => some (24 * 2 ^ 23)
  | 3 => some (24 * 2 ^ 23)
  | 4 => some (8 * 2 ^ 23)
  | 5 => some (7 * 2 ^ 23)
  | 6 => some (56 * 128)
  | 7 => some (4 * 2 ^ 23)
  | 8 => some (2 ^ 23)
  | 9 => some (512 * 2 ^ 13)
  | 10 => some (7 * 2 ^ 22)
  | _ => some 0

/-- Bit `i` of a segment. Where the spec gives the layout it is the state's own bit; Keystone SRAM is 0; every other bit is a
free value. -/
def Dev.segmentBit (s : Dev) (seg i : Nat) : Bool :=
  match seg with
  | 0 => bitOf (s.stopRecord (i / 64)) (i % 64)
  | 6 => match (s.hod.lines ++ s.hod.victims)[i / 128]? with
    | some l => bitOf l.tag (i % 128)
    | none => false
  | 8 => false
  | 9 => match s.fbk.slot? (i / 256) with
    | some r => bitOf (recBytes r) (i % 256)
    | none => Config.harvestBit seg i s.freeCtr
  | _ => Config.harvestBit seg i s.freeCtr

/-- What HARVEST shifts out: the segment from bit 0, zeros after its end, and only zeros unless the chip is frozen. -/
def Dev.harvestBits (s : Dev) (n : Nat) : List Bool :=
  let seg := s.sys.harvestSel.toNat
  (List.range n).map fun i =>
    s.sys.frozen && (match segmentBits seg with
      | some k => i < k
      | none => true) && s.segmentBit seg i

/-! ## The JTAG port (R458) -/

/-- Bits of a register, least significant bit first. -/
def lsbBits (n v : Nat) : List Bool := (List.range n).map fun i => v.testBit i

/-- A JTAG instruction is loaded: what drives the pins, and what its data register shifts out. -/
def Dev.jtag (s : Dev) (code : BitVec 8) (p : PinDrive) (bits : List Bool) : Dev :=
  (s.onSys fun y => { y with jtagIr := code, pins := p }).emit (.jtag bits)

/-- The 1-bit bypass register shifts out a 0 first. -/
def bypassBits : List Bool := [false]

/-- The boundary scan as sampled. -/
def Dev.boundaryBits (s : Dev) : List Bool := (List.range Config.boundaryLength).map fun i => Config.boundaryBit i s.freeCtr

/-- Whether EXTEST, CLAMP and HIGHZ take effect: the chip is frozen, or PWR_GOOD is low with the supplies up. -/
def Dev.pinsFree (s : Dev) : Bool := s.sys.frozen || !s.sys.pwrGood

/-- FRZ_STATUS, 64 bits. -/
def Dev.frzValue (s : Dev) : Nat :=
  b2n s.sys.frozen + b2n s.sys.freezeArmed * 2 + b2n s.sys.fuse * 4 + b2n s.sys.pwrfailSeen * 8 + s.sys.frzCycle.toNat * 2 ^ 6 +
    s.sys.frzTick.toNat * 2 ^ 16

/-! ## Commands -/

/-- FREEZE. -/
def execFreeze (s : State) : Host.Outcome State Fault Refusal := .next { s with toDev := s.toDev.freeze }

/-- EXTEST: the boundary scan drives the pins, or BYPASS. -/
def execExtest (s : State) : Host.Outcome State Fault Refusal :=
  .next { s with toDev := if s.pinsFree then (s.toDev.jtag 0x00 .boundary s.toDev.boundaryBits).drew else s.toDev.jtag 0x00 .system bypassBits }

/-- IDCODE: version 1, part 0x9600, manufacturer 0x4D7. -/
def execIdcode (s : State) : Host.Outcome State Fault Refusal :=
  .next { s with toDev := s.toDev.jtag 0x01 .system (lsbBits 32 0x196009AF) }

/-- SAMPLE/PRELOAD: the boundary scan is sampled while the chip works on. -/
def execSamplePreload (s : State) : Host.Outcome State Fault Refusal :=
  .next { s with toDev := (s.toDev.jtag 0x02 .system s.toDev.boundaryBits).drew }

/-- CLAMP: the outputs keep the preloaded values, and the bypass register is selected. -/
def execClamp (s : State) : Host.Outcome State Fault Refusal :=
  .next { s with toDev := s.toDev.jtag 0x04 (if s.pinsFree then .clamped else .system) bypassBits }

/-- HIGHZ: the outputs float, and the bypass register is selected. -/
def execHighz (s : State) : Host.Outcome State Fault Refusal :=
  .next { s with toDev := s.toDev.jtag 0x05 (if s.pinsFree then .floating else .system) bypassBits }

/-- FRZ_STATUS. -/
def execFrzStatus (s : State) : Host.Outcome State Fault Refusal :=
  .next { s with toDev := s.toDev.jtag 0x10 .system (lsbBits 64 s.toDev.frzValue) }

/-- HARVEST_SEL: the old content shifts out, and SEGMENT takes the value shifted in; reserved bits stay 0. -/
def execHarvestSel (value : BitVec 32) (s : State) : Host.Outcome State Fault Refusal :=
  .next { s with toDev := (s.toDev.jtag 0x11 .system (lsbBits 32 s.sys.harvestSel.toNat)).onSys fun y =>
    { y with harvestSel := value.setWidth 8 } }

/-- HARVEST: `bits` bits of the selected segment. -/
def execHarvest (bits : Nat) (s : State) : Host.Outcome State Fault Refusal :=
  .next { s with toDev := (s.toDev.jtag 0x12 .system (s.toDev.harvestBits bits)).drew }

/-- BYPASS, and any instruction code that R458 does not list. -/
def execBypass (s : State) : Host.Outcome State Fault Refusal :=
  .next { s with toDev := s.toDev.jtag 0xFF .system bypassBits }

end Sys2Proof.Machine
end

