-- ==== Sys2Proof/Machine/Phases.lean ====
section
/-!
DEFINITION. The tick boundary and the Commit, Issue and Retire phases (R18, R22, R29 to R31, R35, R36, R126, R141, R153, R215,
R345, R346).
-/

namespace Sys2Proof.Machine

/-- Whether phase `n` of the tick may begin: no gap runs, and neither it nor a later phase has begun. -/
def Dev.mayBegin (s : Dev) (n : Nat) : Bool := s.awake && s.tck.gapNow.isNone && s.tck.phaseIdx < n

/-- A phase begins in its window; what the phases before it leave open is closed. -/
def Dev.beginPhase (s : Dev) (p : Phase) (n : Nat) (cycle : BitVec 10) : Dev :=
  s.leaveMirror.onTck fun t => { t with phase := p, phaseIdx := n, cycle := cycle }

/-! ## The Commit phase (R18, R20, R110, R126, R141, R345) -/

/-- One commit of a batch lands, with what waits for it. -/
def Dev.landOne (s : Dev) (c : Commit) : Dev :=
  match c.change with
  | .reshapeRec n r => (s.land c).recordLanded n r
  | .reshapeFree n => match look n s.mst.reshapes with
    | some r => (s.land c).reshapeFreed n r
    | none => s.land c
  | .update _ _ p => (s.land c).updLanded p
  | .counter _ p => (s.land c).ownerLanded p
  | _ => s.land c

/-- A batch that passes its program verify lands whole. -/
def Dev.batchLands (s : Dev) (b : Batch64) : Dev :=
  let s := s.onMst fun m => { m with
    queue := b.left, retry := []
    fails := dropAll (fun e => b.lines.contains e.1) m.fails }
  let s := (s.countN .mstCommits b.lines.length).when (b.lines.length = 64) fun s => s.count .mstFullPhases
  s.each b.taken Dev.landOne

/-- Whether a write still needs a commit: it is not admitted yet, its marks have not landed, or it becomes durable only by a destage, which
needs a guard (R18, R22, R33). -/
def Dev.needsCommit (s : Dev) (c : Cmd) : Bool :=
  c.op.isWrite && !c.durable && c.stage ≠ .finished && (c.stage = .held || c.r22 || !s.marksLanded c)

/-- The store has failed: a mailbox command that waits for a batch of the update lines or the boot counter lines ends with INTERNAL. -/
def Dev.updFails (s : Dev) (p : MbxPath) : Dev :=
  match (s.mbx.run? p).map (·.wait) with
  | some (MbxWait.update _) => s.mbxDone p mbInternal []
  | some MbxWait.owner => s.mbxDone p mbInternal []
  | _ => s

/-- The store has failed: destages, seals and lost-line writes that have not issued their writes end, and what a seal leaves stays
unsealed. Without a live partner to take its place, writes whose commits have not landed end with WRITE_FAULT (R141). -/
def Dev.storeLost (s : Dev) : Dev :=
  let s := s.each (s.cache.jobs.filter fun j => j.kind.guards && !j.queued) fun s j =>
    (if j.kind = .seal then s.leaveUnsealed j.field j.course else s).abortJob j.id
  let s := s.each [MbxPath.host, MbxPath.mgmt] Dev.updFails
  if s.twn.mode && s.twn.state = 3 then s
  else s.each (s.qs.cmds.filter s.needsCommit) fun s c => s.endCmd c.id stWriteFault 0

/-- A batch that fails its program verify is repeated in the next Commit phase; after a third failure of one line the store is
failed (R141). -/
def Dev.batchFails (s : Dev) (b : Batch64) (lines : List Nat) : Dev :=
  let found (c : Commit) : Bool := match c.change with
    | .slotFree _ => true
    | .coarseClear _ _ => true
    | _ => false
  let s := s.onMst fun m => { m with
    queue := b.left, retry := b.taken.filter (fun c => !found c), fails := lines.foldl failCount m.fails }
  let s := s.each lines fun s n => s.record 0x0122 s.srcMst n 0 0
  match s.mst.fails.find? fun e => lines.contains e.1 && 3 ≤ e.2 with
  | some e => ((s.onMst fun m => { m with failed := true }).recordEvent 0x0123 s.srcMst e.1 0 0 6).storeLost
  | none => s

/-- Whether a write becomes durable in this Commit phase (R18, R19): its data and tags are in the cache, the live partner has
acknowledged it, and its marks are committed. A field that waits for its fence commits nothing (R254), and a line that is fetched
again holds its command back (R231). -/
def Dev.durableNow (s : Dev) (c : Cmd) : Bool :=
  c.op.isWrite && c.stage = .running && !c.durable && c.arrived && !c.r22 && (!s.partner || c.acked) && s.marksLanded c &&
  !s.twn.fenced.contains c.e.fieldId.toNat && !s.cache.lines.any fun l => l.cmd = c.id && l.lostWait

/-- Writes become durable. -/
def Dev.makeDurable (s : Dev) : Dev :=
  s.onQs fun q => { q with cmds := modAll s.durableNow (fun c => { c with durable := true }) q.cmds }

/-- The lines that a list of commits programs. -/
def Dev.lineCount (s : Dev) (l : List Commit) : Nat := (addLines [] (l.flatMap s.linesOf)).length

/-- The commits of the phase join the history of R127 and R129: those of classes 2 and 3, the writes admitted, and all. -/
def Dev.noteHistory (s : Dev) (writes all : Nat) : Dev :=
  let n := s.qs.admitted
  s.onTasks fun t => { t with history := ((writes, n, all) :: t.history).take 1024 }

/-- INPUT_SNAPSHOT_LATCH (R345): the inputs of tasks 0x01 to 0x04, latched at the end of the Commit phase. -/
def Dev.latch (s : Dev) : Dev :=
  let q := s.mst.queue ++ s.mst.retry
  let cls (n : Nat) : Nat := s.lineCount (q.filter (·.cls = n))
  let w := s.tasks.window (s.param .mstQuotaWindow)
  let x : Snapshot := {
    hdrPending := cls 1
    guardPending := cls 4
    clearPending := s.lineCount (q.filter (·.cls = 5) ++ s.foundClears)
    writeBacklog := s.lineCount (q.filter fun c => c.cls = 2 || c.cls = 3)
    writeCommits := w.1
    admittedWrites := w.2
    freeLoose := s.freeLoose.length
    commitSum := total (s.tasks.history.map fun e => e.2.2)
    slotHeldFields := s.qs.slotHeldNow }
  s.onTasks fun t => { t with snap := x }

/-- COMMIT_PHASE: one batch of the Mortar Store; then writes become durable and the snapshot is latched. -/
def Dev.commitPhase (s : Dev) (x : MstFaults) : Dev :=
  let s := s.beginPhase .commit 3 384
  let s := if s.mst.failed then s.noteHistory 0 0
    else
      let b := s.fillBatch
      let bad := x.verifyFail.filter b.lines.contains
      let writes := s.lineCount (b.taken.filter fun c => c.cls = 2 || c.cls = 3)
      let s := if bad = [] then (s.batchLands b).noteHistory writes b.lines.length
        else (s.batchFails b bad).noteHistory 0 0
      s.storeErrors x.correctable x.uncorrectable
  s.makeDurable.latch.sendReleases

/-! ## The Issue phase (R29, R65, R104, R145, R153) -/

/-- Where a command stands in the order of R153: rebuilds of DEGRADED_2 fields, other rebuilds, whole-region resync, reshape
steps; and its field. -/
def Dev.shareClass (s : Dev) (c : MCmd) : Nat × Nat :=
  let j : Option Job := match c.purpose with
    | .job n => s.job? n
    | .heal n => s.job? n
    | _ => none
  match j with
  | none => (3, 256)
  | some j =>
    let two := match s.field? j.field with
      | some f => f.degraded2
      | none => false
    match j.kind with
    | .rebuild => (if two then 0 else 1, j.field)
    | .resync => (2, j.field)
    | _ => (3, j.field)

/-- Commands of one class in round-robin order of their fields: the first of each field, then the second of each. -/
def roundRobin (l : List (Nat × MCmd)) : List MCmd :=
  let turn := l.foldl (fun (acc : List (Nat × Nat × MCmd)) e => acc ++ [((acc.filter (·.2.1 = e.1)).length, e.1, e.2)]) []
  (sortBy (fun e => 256 * e.1 + e.2.1) turn).map fun e => e.2.2

/-- The commands of the rebuild share in the order in which they are served. -/
def Dev.shareOrder (s : Dev) (l : List MCmd) : List MCmd :=
  (List.range 4).flatMap fun k => roundRobin ((l.filter fun c => (s.shareClass c).1 = k).map fun c => ((s.shareClass c).2, c))

/-- Whether a command can go to its member: the member takes commands and has a free command slot. A FAILED member takes the released
label of R489 alone. -/
def Dev.memberTakes (s : Dev) (c : MCmd) : Bool :=
  match s.member? c.member with
  | some m => (m.state ≠ 4 || c.purpose = .spareLabel || c.purpose = .region) && m.state ≠ 5 && (s.mpt.cmds.filter fun x => x.member = c.member && x.issued.isSome).length < m.slots
  | none => false

/-- A command is issued, within 2,048 commands per tick and 65,536 in flight. A command that writes to a member whose path is
lost waits for the path (R145). -/
def Dev.issueOne (s : Dev) (c : MCmd) : Dev :=
  let lost := (s.member? c.member).any fun m => m.pathLost.isSome
  if lost && c.op ≠ .read then
    s.onMpt fun p => { p with cmds := modAll (·.id = c.id) (fun c => { c with held := true }) p.cmds }
  else if 2048 ≤ s.mpt.issuedNow || 65536 ≤ (s.mpt.cmds.filter (·.issued.isSome)).length || !s.memberTakes c then s
  else
    let now := s.tck.count
    let s := s.onMpt fun p => { p with
      cmds := modAll (·.id = c.id) (fun c => { c with issued := some now }) p.cmds, issuedNow := p.issuedNow + 1
      shareUsed := p.shareUsed + b2n c.share, scrubUsed := p.scrubUsed + b2n c.scrub }
    s.emit (.member { c with issued := some now })

/-- Member commands that the rebuild share allows in a tick; the share counts tenths of a percent (R153). -/
def Dev.shareLimit (s : Dev) : Nat := s.tasks.share * 2048 / 1000

/-- Member commands that scrub may use in a tick (R104). DEDUCED: the share is taken of the 2,048 commands of a tick. -/
def Dev.scrubLimit (s : Dev) : Nat := s.param .morScrubMaxShare * 2048 / 1000

/-- ISSUE_PHASE: host work and the device's own commands first, then the rebuild share, then scrub. -/
def Dev.issuePhase (s : Dev) : Dev :=
  let s := s.beginPhase .issue 4 512
  let l := s.mpt.cmds.filter fun c => c.issued.isNone && !c.held && !c.failed
  let s := s.each (l.filter fun c => !c.share && !c.scrub) Dev.issueOne
  let s := s.each (s.shareOrder (l.filter (·.share))) fun s c => if s.mpt.shareUsed < s.shareLimit then s.issueOne c else s
  s.each (l.filter (·.scrub)) fun s c => if s.mpt.scrubUsed < s.scrubLimit then s.issueOne c else s

/-! ## The Retire phase (R18, R22, R29, R215) -/

/-- Whether a write of R22 has landed: its marks are committed, the live partner has acknowledged it, and none of its lines waits
for a destage. -/
def Dev.landedNow (s : Dev) (c : Cmd) : Bool :=
  c.op.isWrite && c.stage = .running && !c.durable && c.arrived && c.r22 && (!s.partner || c.acked) && s.marksLanded c &&
  !s.cache.lines.any fun l => l.cmd = c.id && l.st = .uncommitted

/-- Lines of durable writes are marked committed, and the writes finish (R18). -/
def Dev.retireWrites (s : Dev) : Dev :=
  let s := s.onQs fun q => { q with cmds := modAll s.landedNow (fun c => { c with durable := true }) q.cmds }
  let l := s.qs.cmds.filter fun c => c.op.isWrite && c.durable && c.stage ≠ .finished
  let ids := l.map (·.id)
  let mine (x : Line) : Bool := x.st = .uncommitted && ids.contains x.cmd
  let s := s.onCache fun k => { k with lines := modAll mine (fun x => { x with st := .committed }) k.lines }
  s.each ids fun s i => (s.onCmd i fun c => { c with slots := [], courses := [] }).finish i stSuccess 0

/-- Whether a write that a FLUSH waits for is over. -/
def Dev.settled (s : Dev) (id : Nat) : Bool :=
  match s.cmd? id with
  | some c => c.durable || c.stage = .finished
  | none => true

/-- FLUSH completes once every write before it has become durable or ended (R215). -/
def Dev.retireFlushes (s : Dev) : Dev :=
  s.each (s.qs.cmds.filter fun c => c.op = .flush && c.stage = .running && c.after.all s.settled) fun s c => s.finish c.id stSuccess 0

/-- RETIRE_PHASE: member completions are retired, lines are marked committed, commands finish, completions are posted and messages follow,
and heals go out after the completions that they follow (R25, R112). -/
def Dev.retirePhase (s : Dev) : Dev :=
  let s := ((s.beginPhase .retire 5 896).onQs fun q => { q with posted := 0 }).retireArrived
  let s := s.retireWrites.retireFlushes.endReads
  let s := s.when (s.cache.jobs.any fun j => j.kind = .destage && j.stage = .guarding) fun s => s.count .mstGuardWaitTicks
  s.postAll.sendHeals

/-! ## The tick boundary (R31, R35, R36, R39, R346) -/

/-- Sampling of the decision registers: each result that is VALID is applied whole and its bit cleared (R346); a stale result
acts as R36 states. -/
def Dev.sample (s : Dev) : Dev :=
  let t := s.tasks
  let s := s.onTasks fun t => { t with
    quota := t.quotaReg.getD t.quota, quotaReg := none
    slots := t.slotsReg.getD [], slotsReg := none
    leasesReg := none
    share := t.shareReg.getD t.share, shareReg := none
    ckptStale := !t.ckptReg, ckptReg := false
    faultsReg := none }
  let s := s.each (t.leasesReg.getD []) fun s d => match d with
    | .grant f k => match s.field? f with
      | some x => s.grantFine x k
      | none => s
    | .release f => s.releaseFine f
  s.each (t.faultsReg.getD []) Dev.applyFault

/-- The next tick begins: TCK_COUNT advances, and the count of ticks in a row with an overrun goes on or ends (R37). -/
def Tck.tick (t : Tck) : Tck :=
  { t with
    count := t.count + 1, phase := .admission, phaseIdx := 0, cycle := 0
    stormRun := if t.overrunNow ≠ [] then t.stormRun + 1 else 0
    stormFired := t.stormFired && t.overrunNow ≠ []
    overrunNow := [] }

/-- The budgets of the tick start anew; the excess of the engine bytes is carried (R153). -/
def Dev.newBudgets (s : Dev) : Dev :=
  let b := s.byteBudget
  let now := s.now
  let s := s.onMpt fun p => { p with issuedNow := 0, shareUsed := 0, scrubUsed := 0, bytesUsed := p.bytesUsed - b }
  s.onTasks fun t => { t with fieldWrites := t.fieldWrites.filter fun e => now < e.1 + 65536 }

/-- What a tick boundary does for one field: a label change that had no member to write to is done; then its fine map, its reshape, its rebuild targets, its capacity, its creation, and its
reported state. -/
def Dev.oneField (s : Dev) (fid : Nat) : Dev :=
  let go (s : Dev) (g : Dev → Field → Dev) : Dev := match s.field? fid with
    | some f => if f.reread.isSome then s else g s f
    | none => s
  let s := s.labelDone fid 0 .label 0
  let s := go s Dev.stepFine
  let s := go s Dev.stepPend
  let s := go s Dev.stepSlot
  let s := go s Dev.stepPause
  let s := go s Dev.stepEnd
  let s := s.onField fid Field.loneTarget
  let s := (go s Dev.endTargets).beginWaiting fid
  let s := s.onField fid fun f => { f with cap := if f.rs.isNone && !f.rsEnding then f.fullCap else f.cap }
  (go s fun s f => s.tryCreate f.id).fieldBoundary fid

/-- STATUS registers that show the state at the boundary. -/
def Dev.showStatus (s : Dev) : Dev :=
  let s := s.onSys fun y => { y with ctxInUse := s.cache.ctxs.length, trwTakeNext := false }
  let s := s.onMst fun m => { m with slotsFree := 2048 - m.slots.length }
  let s := s.onHod fun h => { h with linesValid := (h.lines.filter (·.valid)).length }
  s.onDrm fun d => { d with selfRefresh := s.resting && s.cache.jobs.isEmpty }

/-- Everything that takes effect at a tick boundary. -/
def Dev.boundary (s : Dev) : Dev :=
  let s := s.leaveMirror.onTck Tck.tick
  let s := s.sample.syncBoundary.paramBoundary.newBudgets
  let s := s.readyBoundary.releaseHold.winBoundary.pairBoundary.deleteBoundary.runAdmin
  let s := (s.each (s.fields.map (·.id)) Dev.oneField).stepLeases
  let s := s.twinBoundary.when s.mst.failed Dev.storeLost
  let s := s.updBoundary.softBoundary.vaultBoundary.ltrBoundary
  s.freeCtxs.showStatus

/-- A gap begins in place of the tick (R39). -/
def Dev.beginGap (s : Dev) (g : GapKind × Nat) (rest : List (GapKind × Nat)) : Dev :=
  s.leaveMirror.onTck fun t => { t with phase := .gap, phaseIdx := 0, cycle := 0, gapNow := some g, gapNext := rest }

/-- The gaps that are due, without those of no length. -/
def Tck.gapsDue (t : Tck) : List (GapKind × Nat) := t.gapNext.filter (0 < ·.2)

/-- A gap ends; a reset gap moves this chip's ticks against its partner's by 1 (R443). -/
def Dev.endGap (s : Dev) (g : GapKind × Nat) : Dev :=
  (s.onTck fun t => { t with
    gapNow := none, pairOffset := if t.paired && g.1 = .reset then t.pairOffset + 1 else t.pairOffset }).onSys
    fun y => { y with warmGap := y.warmGap && g.1 ≠ .reset }

/-- TICK_BOUNDARY: a gap that runs ends; then a gap that is due begins, or else the next tick. Once a dump has quiesced the
chip only TCK_COUNT advances (R225). -/
def Dev.tickBoundary (s : Dev) : Dev :=
  if !s.tck.running || s.sys.frozen then s
  else if s.vlt.dumpTick then s.onTck Tck.tick
  else
    let s := match s.tck.gapNow with
      | some g => s.endGap g
      | none => s
    match s.tck.gapsDue with
    | g :: rest => s.beginGap g rest
    | [] => (s.onTck fun t => { t with gapNext := [] }).boundary

/-! ## Commands -/

/-- TICK_BOUNDARY. -/
def execTickBoundary (s : State) : Host.Outcome State Fault Refusal := .next { s with toDev := s.toDev.tickBoundary }

/-- COMMIT_PHASE. -/
def execCommitPhase (x : MstFaults) (s : State) : Host.Outcome State Fault Refusal :=
  .next { s with toDev := if s.mayBegin 3 then s.toDev.commitPhase x else s.toDev }

/-- ISSUE_PHASE. -/
def execIssuePhase (s : State) : Host.Outcome State Fault Refusal :=
  .next { s with toDev := if s.mayBegin 4 then s.toDev.issuePhase else s.toDev }

/-- RETIRE_PHASE. -/
def execRetirePhase (s : State) : Host.Outcome State Fault Refusal :=
  .next { s with toDev := if s.mayBegin 5 then s.toDev.retirePhase else s.toDev }

end Sys2Proof.Machine
end

