-- ==== Sys2Proof/Machine/Registers.lean ====
section
/-!
DEFINITION. Reads and writes of the device's memory space: the regions of BAR0 and what is a forbidden target (R6, R41, R279 to
R284, R293, R297, R435, R451), the expansion ROM's descriptor table (R282 to R284), and writes to configuration space (R273,
R274, R276, R288, R289, R291).
-/

namespace Sys2Proof.Machine

/-! ## Regions of BAR0 (R279) -/

/-- The regions of BAR0, in the order of R279. -/
inductive Region where
  | hif | mbx | request | response | identity | tck | fbk | win | msix | pba
  deriving DecidableEq, Repr

/-- The first offset of a region and its size in bytes. -/
def regionSpan : Region → Nat × Nat
  | .hif => (0x0000, 0x1000) | .mbx => (0x1000, 0x1000) | .request => (0x2000, 0x1000) | .response => (0x3000, 0x1000)
  | .identity => (0x4000, 0x1000) | .tck => (0x8000, 0x1000) | .fbk => (0x9000, 0x1000) | .win => (0xA000, 0x1000)
  | .msix => (0x40000, 0x4100) | .pba => (0x60000, 0x88)

/-- Every region. -/
def allRegions : List Region := [.hif, .mbx, .request, .response, .identity, .tck, .fbk, .win, .msix, .pba]

/-- The region that holds every byte of an access. -/
def regionOf (off size : Nat) : Option Region :=
  allRegions.find? fun r => (regionSpan r).1 ≤ off && off + size ≤ (regionSpan r).1 + (regionSpan r).2

/-- Whether a region takes accesses of any DW-aligned size up to 512 bytes. -/
def Region.buffer : Region → Bool
  | .request | .response | .identity => true
  | _ => false

/-- Whether an access has a size and alignment that its region takes. -/
def accessForm (r : Region) (off size : Nat) : Bool :=
  if r.buffer then off % 4 = 0 && size % 4 = 0 && 4 ≤ size && size ≤ 512
  else (size = 4 || size = 8) && off % size = 0

/-- Whether a region takes writes: the response buffer, the identity page and the PBA are read only. -/
def Region.writable : Region → Bool
  | .response | .identity | .pba => false
  | _ => true

/-! ## Words of BAR0 -/

/-- The low or the high word of a 64-bit value. -/
def wordOf (v : Nat) (high : Bool) : Nat := if high then v / 2 ^ 32 % 2 ^ 32 else v % 2 ^ 32

/-- The 64-bit registers of the HIF, TCK and WIN blocks by their offset (R41, R281). -/
def Dev.wide? (s : Dev) (off : Nat) : Option Nat :=
  match off with
  | 0x28 => some s.hif.urCount.toNat
  | 0x30 => some s.hif.dropped.toNat
  | 0x38 => some s.hif.holdDoorbells.toNat
  | 0x40 => some s.hif.lateCpl.toNat
  | 0x48 => some s.hif.cplTimeouts.toNat
  | 0x8000 => some s.now
  | 0x8018 => some s.tck.overrunCount.toNat
  | 0x8020 => some s.tckOverrunLast
  | 0x8030 => some s.tck.pairOffset.toNat
  | 0xA000 => some s.win.shBase.toNat
  | 0xA008 => some s.win.shSize.toNat
  | 0xA018 => some s.winBarBytes
  | 0xA020 => some s.win.rejects.toNat
  | _ => none

/-- The 32-bit registers of BAR0 by their offset. -/
def Dev.narrow? (s : Dev) (off : Nat) : Option Nat :=
  match off with
  | 0x00 => some hifId
  | 0x04 => some s.hifStatus
  | 0x08 => some (b2n s.hif.hold)
  | 0x0C => some 0
  | 0x10 => some s.hifHoldCause
  | 0x14 => some s.hif.holdCount.toNat
  | 0x18 => some s.hif.events.toNat
  | 0x1C => some s.hif.eventMask.toNat
  | 0x20 => some s.hifLink
  | 0x24 => some s.parked
  | 0x1000 => some 0
  | 0x1004 => some s.mbxStatus
  | 0x1008 => some (b2n s.mbx.irqEn)
  | 0x100C => some s.mbx.version.toNat
  | 0x1010 => some s.mbx.lastSeq.toNat
  | 0x8008 => some s.tckPhase
  | 0x8010 => some s.tckStatus
  | 0x8028 => some s.tckAdmitLast
  | 0x802C => some s.tck.alignOffset.toNat
  | 0x8038 => some s.tck.realignCount.toNat
  | 0x9008 => some s.fbkStatus
  | 0x9010 => some s.fbk.page.toNat
  | 0x9018 => some s.fbk.lwWritten
  | 0xA010 => some s.win.shCtrl.toNat
  | 0xA014 => some s.winStatus
  | _ => none

/-- The record of the Last Word in a slot: record n lies in slot n mod 8 (R435). -/
def Dev.lastWordSlot (s : Dev) (slot : Nat) : Option FbRec :=
  let first := s.fbk.lwWritten - s.fbk.lastWord.length
  (s.fbk.lastWord.zipIdx.find? fun e => (first + e.2) % 8 = slot).map (·.1)

/-- The record in a slot of the ring: ring number n lies in slot n mod 16,384 (R435). -/
def Dev.ringSlot (s : Dev) (slot : Nat) : Option FbRec :=
  let first := s.fbk.written - s.fbk.ring.length
  (s.fbk.ring.zipIdx.find? fun e => (first + e.2) % 16384 = slot).map (·.1)

/-- A word of a record; an empty slot reads 0. -/
def recWord (r : Option FbRec) (k : Nat) : Nat :=
  match r with
  | some x => le (recBytes x) (4 * k) 4
  | none => 0

/-- A word of the Field Book host window (R435). -/
def Dev.bookWord (s : Dev) (off : Nat) : Option Nat :=
  if off = 0x9000 then some (wordOf s.fbk.written false)
  else if off = 0x9004 then some (wordOf s.fbk.written true)
  else if 0x9400 ≤ off && off < 0x9500 then some (recWord (s.lastWordSlot ((off - 0x9400) / 32)) (off % 32 / 4))
  else if 0x9800 ≤ off then some (recWord (s.ringSlot (64 * s.fbk.page.toNat + (off - 0x9800) / 32)) (off % 32 / 4))
  else s.narrow? off

/-- The word of the MSI-X table at a place of it: address, upper address, data, vector control with its Mask Bit. -/
def Dev.msixWord (s : Dev) (place : Nat) : Nat :=
  let v := place / 16
  let e := ((look v s.hif.msixTable).getD 0).toNat
  if place % 16 < 12 then e / 2 ^ (place % 16 * 8) % 2 ^ 32 else b2n (s.hif.vectorMask.contains v)

/-- The bytes of the response buffer (R354). -/
def Dev.responseBytes (s : Dev) : List Byte :=
  match s.mbx.resp with
  | some r => bytesLE 2 r.opcode.toNat ++ bytesLE 2 r.status.toNat ++ bytesLE 4 r.seq.toNat ++ bytesLE 4 r.payload.length ++
      bytesLE 4 r.epoch.toNat ++ r.payload
  | none => []

/-- The word of a region at a DW-aligned offset; `none` where nothing is implemented. -/
def Dev.word? (s : Dev) (r : Region) (off : Nat) : Option Nat :=
  match r with
  | .request => some (fromLE (memRead (off - 0x2000) 4 s.mbx.reqBuf))
  | .response => some (le s.responseBytes (off - 0x3000) 4)
  | .identity => some (le s.identity (off - 0x4000) 4)
  | .msix => some (s.msixWord (off - 0x40000))
  | .pba => some (wordOf (s.pbaWord ((off - 0x60000) / 8)) (off % 8 = 4))
  | .fbk => s.bookWord off
  | .hif | .mbx | .tck | .win =>
    match s.wide? (off / 8 * 8) with
    | some v => some (wordOf v (off % 8 = 4))
    | none => s.narrow? off

/-- `n` words of a region from an offset upward, as one number. -/
def Dev.words? (s : Dev) (r : Region) : Nat → Nat → Option Nat
  | 0, _ => some 0
  | n + 1, off => match s.word? r off, s.words? r n (off + 4) with
    | some v, some w => some (v + w * 2 ^ 32)
    | _, _ => none

/-- What a read of BAR0 answers; `none` for a forbidden target. -/
def Dev.readBar0 (s : Dev) (off size : Nat) : Option Nat :=
  match regionOf off size with
  | some r => if accessForm r off size then s.words? r (size / 4) off else none
  | none => none

/-! ## The expansion ROM (R282 to R284) -/

/-- An entry of the region table: identifier, BAR, flags, stride, offset and size. Every region takes 8-byte accesses. -/
def regionEntry (e : Nat × Nat × Bool × Bool × Nat × Nat × Nat) : List Byte :=
  let (id, bar, write, hold, stride, off, size) := e
  [BitVec.ofNat 8 id, BitVec.ofNat 8 bar, BitVec.ofNat 8 (1 + 2 * b2n write + 4 + 8 * b2n hold), 0] ++ bytesLE 4 stride ++
    bytesLE 4 off ++ bytesLE 4 size

/-- The region table (R284). -/
def regionTable : List (Nat × Nat × Bool × Bool × Nat × Nat × Nat) :=
  [(0x01, 0, true, true, 0, 0x0, 0x1000), (0x02, 0, true, false, 0, 0x1000, 0x1000), (0x03, 0, true, false, 0, 0x2000, 0x1000),
    (0x04, 0, false, false, 0, 0x3000, 0x1000), (0x05, 0, false, false, 0, 0x4000, 0x1000),
    (0x06, 0, true, false, 0, 0x8000, 0x1000), (0x07, 0, true, false, 0, 0x9000, 0x1000),
    (0x08, 0, true, false, 0, 0xA000, 0x1000), (0x09, 0, true, true, 16, 0x40000, 16640),
    (0x0A, 0, false, false, 0, 0x60000, 136), (0x0B, 2, true, false, 8, 0, 16384), (0x0C, 4, true, false, 0, 0, 0),
    (0x0D, 6, false, false, 0, 0, 262144)]

/-- The Halfel Descriptor Table with a value of its CHECK field (R283). -/
def Dev.descriptors (s : Dev) (check : BitVec 32) : List Byte :=
  ascii 8 "HLFDESCR" ++ bytesLE 2 1 ++ bytesLE 2 272 ++ bytesLE 2 0x40 ++ bytesLE 2 13 ++
  bytesLE 2 1 ++ bytesLE 2 s.mbx.version.toNat ++ bytesLE 2 s.twnVersion ++ zeroBytes 2 ++
  bytesLE 2 1024 ++ bytesLE 2 128 ++ bytesLE 2 256 ++ bytesLE 2 1040 ++ bytesLE 4 65536 ++ bytesLE 2 2 ++ [64, 16] ++
  bytesLE 4 16384 ++ bytesLE 2 4096 ++ bytesLE 2 4096 ++ bytesLE 4 maxBlocks ++
  bytesLE 4 (7 + 8 * b2n Config.uefiDriver) ++ zeroBytes 4 ++ bytesLE 4 check.toNat ++ regionTable.flatMap regionEntry

/-- The descriptor table with its check word over LENGTH bytes. -/
def Dev.descriptorTable (s : Dev) : List Byte := s.descriptors (crc32c (s.descriptors 0))

/-- The header of image 0 up to PCIR_OFFSET (R282). -/
def romHeader : List Byte :=
  [0x55, 0xAA] ++ ascii 4 "HLFD" ++ bytesLE 2 Config.hdtOffset.toNat ++ zeroBytes 16 ++ bytesLE 2 Config.pcirOffset.toNat

/-- A byte of the expansion ROM; what the spec leaves to the image is a free value. -/
def Dev.romByte (s : Dev) (off : Nat) : Byte :=
  let h := Config.hdtOffset.toNat
  if off < 26 then romHeader.getD off 0
  else if h ≤ off && off < h + 272 then s.descriptorTable.getD (off - h) 0
  else Config.romByte off

/-! ## Configuration space (R273 to R275) -/

/-- A base address register's word: the address with its type bits. -/
def barWord (b : Option Nat) (kind : Nat) (high : Bool) : Nat := wordOf (b.getD 0 + kind) high

/-- The header of an extended capability: its ID, a version, which the spec does not give, and the offset of the next one. -/
def extHeader (off id next : Nat) : Nat := id + (Config.capVersion off).toNat * 2 ^ 16 + next * 2 ^ 20

/-- The extended capabilities in the order of R274: offset and capability ID, which is PRESUMED from the PCI Express base specification. -/
def extCaps : List (Nat × Nat) :=
  [(0x100, 0x01), (0x148, 0x03), (0x158, 0x18), (0x160, 0x19), (0x1A0, 0x25), (0x1B0, 0x26), (0x1E0, 0x27), (0x230, 0x2A), (0x260, 0x31),
    (0x280, 0x1E), (0x2A0, 0x2E), (0x2C0, 0x32), (0x300, 0x0B)]

/-- The word of an extended capability's header; the last one names no next. -/
def extWord? (off : Nat) : Option Nat :=
  (extCaps.find? (·.1 = off)).map fun e => extHeader off e.2 (((extCaps.find? fun x => off < x.1).map (·.1)).getD 0)

/-- A word with one bit of it given. -/
def withBit (v : BitVec 32) (n : Nat) (b : Bool) : Nat := ((v &&& ~~~(1#32 <<< n)) ||| (if b then 1#32 <<< n else 0)).toNat

/-- A word of configuration space. The Type 0 header, the capability list and the Halfel Status capability are as R273 to R275 state them,
with the places of the standard's fields PRESUMED from the PCI Express base specification; what these rules leave to that specification is
a free value. -/
def Dev.configWord (s : Dev) (off : Nat) : Nat :=
  let h := s.hif
  let open? := Config.configWord off s.freeCtr
  match off with
  | 0x00 => 0x1F5A + 0x9600 * 2 ^ 16
  | 0x04 => bitAt h.mse 1 + bitAt h.bme 2 + 2 ^ 20
  | 0x08 => hifId / 2 ^ 16 % 2 ^ 8 + 0x010400 * 2 ^ 8
  | 0x0C | 0x28 | 0x3C => 0
  | 0x10 => barWord h.bar0 4 false
  | 0x14 => barWord h.bar0 4 true
  | 0x18 => barWord h.bar2 4 false
  | 0x1C => barWord h.bar2 4 true
  | 0x20 => barWord h.bar4 12 false
  | 0x24 => barWord h.bar4 12 true
  | 0x2C => Config.subsystem.toNat
  | 0x30 => wordOf (h.rom.getD 0 + b2n h.rom.isSome) false
  | 0x34 => 0x40
  | 0x40 => 0x01 + 0x50 * 2 ^ 8 + (3 + 2 ^ 11 + 2 ^ 14) * 2 ^ 16
  | 0x44 => (if h.d3hot then 3 else 0) + 2 ^ 3 + bitAt h.pmeEn 8
  | 0x50 => 0x11 + 0x60 * 2 ^ 8 + (0x40F + bitAt h.functionMask 14 + bitAt h.msixEnable 15) * 2 ^ 16
  | 0x54 => 0x40000
  | 0x58 => 0x60000
  | 0x60 => 0x10 + 2 * 2 ^ 16
  | 0x68 => withBit open? 4 h.relaxed
  | 0x88 => withBit open? 10 h.ltrEnable
  | 0x14C => Config.serial.toNat % 2 ^ 32
  | 0x150 => Config.serial.toNat / 2 ^ 32
  | 0x15C => h.maxSnoop.toNat + h.maxNoSnoop.toNat * 2 ^ 16
  | 0x304 => 0x0001 + 0x1 * 2 ^ 16 + 0x020 * 2 ^ 20
  | 0x308 => s.hifStatus
  | 0x30C => s.hifHoldCause
  | 0x310 => s.parked
  | 0x314 => s.now % 2 ^ 32
  | 0x318 | 0x31C => 0
  | _ => (extWord? off).getD open?.toNat

/-- A read of configuration space, which port hold and D3hot do not stop (R275, R297). -/
def Dev.readConfig (s : Dev) (off size : Nat) : Dev :=
  if [1, 2, 4].contains size && off % size = 0 && off + size ≤ 4096 then
    (s.answer (some (s.configWord (off / 4 * 4) / 2 ^ (8 * (off % 4)) % 2 ^ (8 * size)))).drew
  else s

/-! ## Reads -/

/-- Whether the function answers a memory read at all (R276, R291, R451). -/
def Dev.readUp (s : Dev) (bar off : Nat) : Bool :=
  s.hif.mse && !s.hif.d3hot && (s.hif.ready || bar = 6 || (bar = 0 && off < 8))

/-- What a read of a BAR answers outside the landing window; `none` for a forbidden target (R279, R280). -/
def Dev.readBar (s : Dev) (bar off size : Nat) : Option Nat :=
  match bar with
  | 0 => s.readBar0 off size
  | 2 => if off + size ≤ 16384 then some 0 else none
  | 6 => if off + size ≤ 262144 then some (fromLE ((List.range size).map fun i => s.romByte (off + i))) else none
  | _ => none

/-- Whether a read is the 4-byte read of one half of a 64-bit register, which is a command of its own (R41). -/
def Dev.halfRead (s : Dev) (bar off size : Nat) : Bool := bar = 0 && size = 4 && off % 4 = 0 && (s.wide? (off / 8 * 8)).isSome

/-- FORBIDDEN_TARGET_READ: Unsupported Request and a record where the target is forbidden; else the read's value, unless a port
hold or a power state refuses every read (R279, R293, R297). `bar` 7 stands for configuration space (log entry 124). -/
def Dev.readTarget (s : Dev) (bar off size : Nat) : Dev :=
  if !s.cfgUp || !([0, 2, 4, 6, 7].contains bar) || s.halfRead bar off size then s
  else if bar = 7 then s.readConfig off size
  else if bar = 4 then s.windowRead off size
  else if !s.readUp bar off then s.refuseRead
  else match s.readBar bar off size with
    | none => s.forbidRead bar off size
    | some v => if s.hif.hold then s.refuseRead else s.answer (some v)

/-- Whether an offset is the low half of a 64-bit register with the rule of R41. -/
def Dev.hasShadow (s : Dev) (off : Nat) : Bool := (s.wide? off).isSome

/-- Whether 4-byte reads of registers are served now. -/
def Dev.readsServed (s : Dev) : Bool := s.cfgUp && s.hif.ready && s.readUp 0 8 && !s.hif.hold

/-- TCK_COUNT_LOW_READ: the low half answers, and the upper half goes to the requester's shadow (R41, R281). -/
def Dev.lowRead (s : Dev) (off req : Nat) : Dev :=
  match s.wide? off with
  | none => s
  | some v =>
    if !s.readsServed then (if s.cfgUp then s.refuseRead else s)
    else
      let others := dropAll (fun x : Nat × Nat × BitVec 32 => x.1 = req && x.2.1 = off) s.tck.shadows
      (s.onTck fun t => { t with shadows := others ++ [(req, off, BitVec.ofNat 32 (v / 2 ^ 32))] }).answer (some (v % 2 ^ 32))

/-- TCK_COUNT_HIGH_READ: the shadow answers once after a read of the low half, else the live upper half. -/
def Dev.highRead (s : Dev) (off req : Nat) : Dev :=
  match s.wide? (off - 4) with
  | none => s
  | some v =>
    if off < 4 then s
    else if !s.readsServed then (if s.cfgUp then s.refuseRead else s)
    else match s.tck.shadows.find? fun x => x.1 = req && x.2.1 = off - 4 with
      | some x =>
        let others := dropAll (fun x : Nat × Nat × BitVec 32 => x.1 = req && x.2.1 = off - 4) s.tck.shadows
        (s.onTck fun t => { t with shadows := others }).answer (some x.2.2.toNat)
      | none => s.answer (some (v / 2 ^ 32))

/-! ## Writes -/

/-- A 64-bit value with one of its words replaced. -/
def setWord (v : BitVec 64) (high : Bool) (w : BitVec 32) : BitVec 64 :=
  if high then w ++ v.setWidth 32 else (v >>> 32).setWidth 32 ++ w

/-- MBX_DOORBELL.GO: the request in the buffer arrives (R348). The verdict on an owner's signatures, which the buffer does not
tell, is a free value. -/
def Dev.goWrite (s : Dev) : Dev :=
  let b := memRead 0 4096 s.mbx.reqBuf
  let n := le b 8 4
  let r : MbxReq := ⟨BitVec.ofNat 32 (le b 4 4), n, (b.drop 16).take (min n 4080)⟩
  let ok := s.free % 2 = 0
  match mbxInstr .host (le b 0 2) r ok with
  | some i => s.drew.mbxArrive i
  | none => s.drew.onBadOpcode .host (BitVec.ofNat 16 (le b 0 2)) r

/-- A word of the MSI-X table is written (R288). -/
def Dev.msixWrite (s : Dev) (place : Nat) (w : BitVec 32) : Dev :=
  let v := place / 16
  let old := (look v s.hif.msixTable).getD 0
  let sh := place % 16 * 8
  let new := (old &&& ~~~((0xFFFFFFFF : BitVec 96) <<< sh)) ||| (w.setWidth 96 <<< sh)
  if place % 16 = 12 then s.setMask (.vector v (w.getLsbD 0))
  else
    let table := if new = 0 then dropAll (fun e : Nat × BitVec 96 => e.1 = v) s.hif.msixTable else put v new s.hif.msixTable
    s.onHif fun h => { h with msixTable := table }

/-- A word of BAR0 is written, by the access types of its fields (R6). -/
def Dev.writeWord (s : Dev) (off : Nat) (w : BitVec 32) : Dev :=
  if 0x40000 ≤ off then s.msixWrite (off - 0x40000) w
  else match off with
  | 0x08 => if w.getLsbD 0 then s.holdReq else s
  | 0x0C => s.holdWord (w.setWidth 16)
  | 0x18 => s.onHif fun h => { h with events := h.events &&& ~~~(w.setWidth 14) }
  | 0x1C => s.onHif fun h => { h with eventMask := w.setWidth 14 }
  | 0x1000 => if w.getLsbD 0 then s.goWrite else s
  | 0x1004 => s.onMbx fun m => { m with done := m.done && !w.getLsbD 0, overrun := m.overrun && !w.getLsbD 2 }
  | 0x1008 => s.onMbx fun m => { m with irqEn := w.getLsbD 0 }
  | 0x8010 => s.onTck fun t => { t with alignFault := t.alignFault && !w.getLsbD 4, storm := t.storm && !w.getLsbD 5 }
  | 0x9010 => s.onFbk fun k => { k with page := w.setWidth 8 }
  | 0xA000 => s.winShadow .base (setWord s.win.shBase false w)
  | 0xA004 => s.winShadow .base (setWord s.win.shBase true w)
  | 0xA008 => s.winShadow .size (setWord s.win.shSize false w)
  | 0xA00C => s.winShadow .size (setWord s.win.shSize true w)
  | 0xA010 => s.winShadow .ctrl (w.setWidth 64)
  | 0xA014 => s.onWin fun x => { x with rejected := x.rejected && !w.getLsbD 1 }
  | _ => s

/-- `n` words are written from an offset upward. -/
def Dev.writeWords : Nat → Nat → Nat → Dev → Dev
  | 0, _, _, s => s
  | n + 1, off, v, s => Dev.writeWords n (off + 4) (v / 2 ^ 32) (s.writeWord off (BitVec.ofNat 32 v))

/-- Whether a write of BAR0 hits a forbidden target: no region, a wrong form, a read-only region, or an unimplemented word. -/
def Dev.writeForbidden (s : Dev) (off size : Nat) : Bool :=
  match regionOf off size with
  | some r => !r.writable || !accessForm r off size || (s.words? r (size / 4) off).isNone
  | none => true

/-- A write to BAR0 (R279, R297). -/
def Dev.writeBar0 (s : Dev) (off size v : Nat) : Dev :=
  if !s.memUp then s
  else if s.writeForbidden off size then s.forbidWrite
  else match regionOf off size with
    | some .request =>
      if s.hif.hold then s.dropWrite
      else s.onMbx fun m => { m with reqBuf := memWrite (off - 0x2000) (bytesLE size v) m.reqBuf }
    | some r => if s.hif.hold && r ≠ .hif && r ≠ .msix then s.dropWrite else Dev.writeWords (size / 4) off v s
    | none => s

/-- FORBIDDEN_TARGET_WRITE: the write is dropped, counted and recorded. The data of a doorbell is ignored, so that an aligned
write of BAR2/3 is a doorbell (R280); a write whose target is not forbidden is another command's. -/
def Dev.writeTarget (s : Dev) (bar off size : Nat) : Dev :=
  if !s.memUp then s
  else match bar with
    | 0 => if s.writeForbidden off size then s.forbidWrite else s
    | 2 => s.doorbell off size
    | 6 => s.forbidWrite
    | _ => s

/-! ## Configuration space -/

/-- The byte that a configuration write of `size` bytes at `off` puts at an offset, if it covers it. -/
def cfgByte (off size v k : Nat) : Option Nat := if off ≤ k && k < off + size then some (v / 2 ^ (8 * (k - off)) % 256) else none

/-- Bit `b` of the byte that a write puts at an offset, handed to `f`. -/
def Dev.cfgBit (s : Dev) (x : Option Nat) (b : Nat) (f : Dev → Bool → Dev) : Dev :=
  match x with
  | some n => f s (n.testBit b)
  | none => s

/-- A base address register after a write; the bits below its size do not take it (R277). -/
def barAfter (old : Option Nat) (at0 width size : Nat) (off n v : Nat) : Option Nat :=
  let bytes := (bytesLE width (old.getD 0)).zipIdx.map fun e => match cfgByte off n v (at0 + e.2) with
    | some b => BitVec.ofNat 8 b
    | none => e.1
  let raw := fromLE bytes / size * size
  if raw = 0 then none else some raw

/-- The expansion ROM base, once its Enable bit is 1. -/
def romAfter (old : Option Nat) (off n v : Nat) : Option Nat :=
  match cfgByte off n v 0x30 with
  | some b => if b % 2 = 1 then barAfter old 0x30 4 262144 off n v else none
  | none => old.bind fun a => barAfter (some a) 0x30 4 262144 off n v

/-- A write to configuration space: Command, the BARs, MSI-X Message Control, Device Control and Device Control 2, the power
management register, and the latency maxima. The places of their bits are PRESUMED from the PCI Express base specification. -/
def Dev.writeConfig (s : Dev) (off size v : Nat) : Dev :=
  if !s.cfgUp || !([1, 2, 4].contains size) || off % size ≠ 0 then s
  else
    let byte (k : Nat) : Option Nat := cfgByte off size v k
    let barBytes := s.winBarBytes
    let s := s.onHif fun h => { h with
      bar0 := barAfter h.bar0 0x10 8 1048576 off size v
      bar2 := barAfter h.bar2 0x18 8 16384 off size v
      bar4 := barAfter h.bar4 0x20 8 barBytes off size v
      rom := romAfter h.rom off size v }
    let s := s.cfgBit (byte 0x04) 1 Dev.setMse
    let s := s.cfgBit (byte 0x04) 2 Dev.setBme
    let s := s.cfgBit (byte 0x53) 6 fun s b => s.setMask (.functionMask b)
    let s := s.cfgBit (byte 0x53) 7 fun s b => s.setMask (.enable b)
    let s := s.cfgBit (byte 0x68) 4 fun s b => s.onHif fun h => { h with relaxed := b }
    let s := s.cfgBit (byte 0x89) 2 fun s b => s.onHif fun h => { h with ltrEnable := b }
    let half (old : BitVec 16) (k : Nat) : BitVec 16 :=
      BitVec.ofNat 16 ((byte k).getD (old.toNat % 256) + 256 * (byte (k + 1)).getD (old.toNat / 256))
    let s := s.onHif fun h => { h with maxSnoop := half h.maxSnoop 0x15C, maxNoSnoop := half h.maxNoSnoop 0x15E }
    let s := s.cfgBit (byte 0x45) 0 fun s b => s.onHif fun h => { h with pmeEn := b }
    let s := match byte 0x44 with
      | some n => if n % 4 = 0 then s.returnD0 else if n % 4 = 3 then s.enterD3 else s
      | none => s
    s.cfgBit (byte 0x69) 7 fun s b => if b then s.softerReset 4 else s

/-! ## Commands -/

/-- FORBIDDEN_TARGET_READ. -/
def execForbiddenTargetRead (bar offset size : Nat) (s : State) : Host.Outcome State Fault Refusal :=
  .next { s with toDev := s.toDev.readTarget bar offset size }

/-- FORBIDDEN_TARGET_WRITE. -/
def execForbiddenTargetWrite (bar offset size : Nat) (s : State) : Host.Outcome State Fault Refusal :=
  .next { s with toDev := s.toDev.writeTarget bar offset size }

/-- REGISTER_WRITE. -/
def execRegisterWrite (space : RegSpace) (offset size value : Nat) (s : State) : Host.Outcome State Fault Refusal :=
  .next { s with toDev := match space with
    | .bar0 => s.toDev.writeBar0 offset size value
    | .config => s.toDev.writeConfig offset size value }

/-- TCK_COUNT_LOW_READ. -/
def execTckCountLowRead (offset requester : Nat) (s : State) : Host.Outcome State Fault Refusal :=
  .next { s with toDev := s.toDev.lowRead offset requester }

/-- TCK_COUNT_HIGH_READ. -/
def execTckCountHighRead (offset requester : Nat) (s : State) : Host.Outcome State Fault Refusal :=
  .next { s with toDev := s.toDev.highRead offset requester }

end Sys2Proof.Machine
end

