-- ==== Sys2Proof/Machine/Dispatch.lean ====
section
/-!
DEFINITION. The dispatch: one arm for each command, each a direct call of its meaning.
-/

namespace Sys2Proof.Machine

def exec (i : Instr) (s : State) : Host.Outcome State Fault Refusal :=
  match i with
  | .tickBoundary => Sys2Proof.Machine.execTickBoundary s
  | .admitPhase => Sys2Proof.Machine.execAdmitPhase s
  | .mirrorPhase => Sys2Proof.Machine.execMirrorPhase s
  | .commitPhase faults => Sys2Proof.Machine.execCommitPhase faults s
  | .issuePhase => Sys2Proof.Machine.execIssuePhase s
  | .retirePhase => Sys2Proof.Machine.execRetirePhase s
  | .tckOverrun task => Sys2Proof.Machine.execTckOverrun task s
  | .tckOverrunStorm => Sys2Proof.Machine.execTckOverrunStorm s
  | .taskResultPosted r => Sys2Proof.Machine.execTaskResultPosted r s
  | .writeQuota => Sys2Proof.Machine.execWriteQuota s
  | .intentSlotLeases => Sys2Proof.Machine.execIntentSlotLeases s
  | .furrowMapRegionLeases => Sys2Proof.Machine.execFurrowMapRegionLeases s
  | .rebuildShare => Sys2Proof.Machine.execRebuildShare s
  | .twinCheckpoint => Sys2Proof.Machine.execTwinCheckpoint s
  | .memberFaultDecisions => Sys2Proof.Machine.execMemberFaultDecisions s
  | .read q e faults => Sys2Proof.Machine.execRead q e faults s
  | .write q e => Sys2Proof.Machine.execWrite q e s
  | .flush q e => Sys2Proof.Machine.execFlush q e s
  | .writeZeroes q e => Sys2Proof.Machine.execWriteZeroes q e s
  | .deallocate q e => Sys2Proof.Machine.execDeallocate q e s
  | .verify q e => Sys2Proof.Machine.execVerify q e s
  | .stallPoll => Sys2Proof.Machine.execStallPoll s
  | .periodicScan => Sys2Proof.Machine.execPeriodicScan s
  | .hostReadCompletion id d => Sys2Proof.Machine.execHostReadCompletion id d s
  | .hostReadTimeout id => Sys2Proof.Machine.execHostReadTimeout id s
  | .hostReadError id e => Sys2Proof.Machine.execHostReadError id e s
  | .hifLateCompletion id => Sys2Proof.Machine.execHifLateCompletion id s
  | .lineRefetchDone field lba data => Sys2Proof.Machine.execLineRefetchDone field lba data s
  | .doorbellWrite offset size => Sys2Proof.Machine.execDoorbellWrite offset size s
  | .forbiddenTargetRead bar offset size => Sys2Proof.Machine.execForbiddenTargetRead bar offset size s
  | .forbiddenTargetWrite bar offset size => Sys2Proof.Machine.execForbiddenTargetWrite bar offset size s
  | .registerWrite space offset size value => Sys2Proof.Machine.execRegisterWrite space offset size value s
  | .tckCountLowRead offset requester => Sys2Proof.Machine.execTckCountLowRead offset requester s
  | .tckCountHighRead offset requester => Sys2Proof.Machine.execTckCountHighRead offset requester s
  | .holdReq => Sys2Proof.Machine.execHoldReq s
  | .portHoldEnter c => Sys2Proof.Machine.execPortHoldEnter c s
  | .holdReleaseArm => Sys2Proof.Machine.execHoldReleaseArm s
  | .holdReleaseComplete => Sys2Proof.Machine.execHoldReleaseComplete s
  | .holdReleaseDisarm value => Sys2Proof.Machine.execHoldReleaseDisarm value s
  | .holdHandoverTimeout => Sys2Proof.Machine.execHoldHandoverTimeout s
  | .winShadowWrite r value => Sys2Proof.Machine.execWinShadowWrite r value s
  | .windowWrite offset len data => Sys2Proof.Machine.execWindowWrite offset len data s
  | .windowRead offset len => Sys2Proof.Machine.execWindowRead offset len s
  | .linkTrained speed width flit => Sys2Proof.Machine.execLinkTrained speed width flit s
  | .busMasterEnableChange on => Sys2Proof.Machine.execBusMasterEnableChange on s
  | .memorySpaceEnableChange on => Sys2Proof.Machine.execMemorySpaceEnableChange on s
  | .msixMaskChange t => Sys2Proof.Machine.execMsixMaskChange t s
  | .ltrLevelChange => Sys2Proof.Machine.execLtrLevelChange s
  | .aspmL1Entry => Sys2Proof.Machine.execAspmL1Entry s
  | .aspmL1Exit => Sys2Proof.Machine.execAspmL1Exit s
  | .d3hotEntry => Sys2Proof.Machine.execD3hotEntry s
  | .d0Return => Sys2Proof.Machine.execD0Return s
  | .identify p r => Sys2Proof.Machine.execIdentify p r s
  | .commandObjectsGranted p => Sys2Proof.Machine.execCommandObjectsGranted p s
  | .deviceStatus p r => Sys2Proof.Machine.execDeviceStatus p r s
  | .deviceReset p r => Sys2Proof.Machine.execDeviceReset p r s
  | .softResetRestart b => Sys2Proof.Machine.execSoftResetRestart b s
  | .adminQueueCreate p r => Sys2Proof.Machine.execAdminQueueCreate p r s
  | .adminQueueDelete p r => Sys2Proof.Machine.execAdminQueueDelete p r s
  | .fieldCreate p r => Sys2Proof.Machine.execFieldCreate p r s
  | .fieldDelete p r => Sys2Proof.Machine.execFieldDelete p r s
  | .fieldOffline p r => Sys2Proof.Machine.execFieldOffline p r s
  | .fieldOfflineDone field => Sys2Proof.Machine.execFieldOfflineDone field s
  | .fieldOnline p r => Sys2Proof.Machine.execFieldOnline p r s
  | .fieldStatus p r => Sys2Proof.Machine.execFieldStatus p r s
  | .fieldSetReadOnly p r => Sys2Proof.Machine.execFieldSetReadOnly p r s
  | .fieldReshape p r => Sys2Proof.Machine.execFieldReshape p r s
  | .fieldLostList p r => Sys2Proof.Machine.execFieldLostList p r s
  | .memberList p r => Sys2Proof.Machine.execMemberList p r s
  | .memberAddSpare p r => Sys2Proof.Machine.execMemberAddSpare p r s
  | .memberRemoveSpare p r => Sys2Proof.Machine.execMemberRemoveSpare p r s
  | .memberFail p r => Sys2Proof.Machine.execMemberFail p r s
  | .memberRelease p r => Sys2Proof.Machine.execMemberRelease p r s
  | .memberRebuild p r => Sys2Proof.Machine.execMemberRebuild p r s
  | .memberFormat p r => Sys2Proof.Machine.execMemberFormat p r s
  | .ledgerRead p r => Sys2Proof.Machine.execLedgerRead p r s
  | .ledgerInfo p r => Sys2Proof.Machine.execLedgerInfo p r s
  | .certRead p r => Sys2Proof.Machine.execCertRead p r s
  | .ownerEnrol p r sigsOk => Sys2Proof.Machine.execOwnerEnrol p r sigsOk s
  | .ownerPolicy p r => Sys2Proof.Machine.execOwnerPolicy p r s
  | .updOpen p r => Sys2Proof.Machine.execUpdOpen p r s
  | .updChunk p r => Sys2Proof.Machine.execUpdChunk p r s
  | .chunkLanded p => Sys2Proof.Machine.execChunkLanded p s
  | .updStatus p r => Sys2Proof.Machine.execUpdStatus p r s
  | .updClose p r => Sys2Proof.Machine.execUpdClose p r s
  | .updAbort p r => Sys2Proof.Machine.execUpdAbort p r s
  | .updConfirm p r => Sys2Proof.Machine.execUpdConfirm p r s
  | .updSessionExpired => Sys2Proof.Machine.execUpdSessionExpired s
  | .idleSCommit => Sys2Proof.Machine.execIdleSCommit s
  | .fbkRead p r ecc => Sys2Proof.Machine.execFbkRead p r ecc s
  | .fbkInfo p r => Sys2Proof.Machine.execFbkInfo p r s
  | .paramGet p r => Sys2Proof.Machine.execParamGet p r s
  | .paramSet p r => Sys2Proof.Machine.execParamSet p r s
  | .paramInfo p r => Sys2Proof.Machine.execParamInfo p r s
  | .twnStatus p r => Sys2Proof.Machine.execTwnStatus p r s
  | .twnHandover p r => Sys2Proof.Machine.execTwnHandover p r s
  | .twnReturn p r => Sys2Proof.Machine.execTwnReturn p r s
  | .twnAdopt p r => Sys2Proof.Machine.execTwnAdopt p r s
  | .setEndpointId eid => Sys2Proof.Machine.execSetEndpointId eid s
  | .getEndpointId => Sys2Proof.Machine.execGetEndpointId s
  | .getMctpVersionSupport msgType => Sys2Proof.Machine.execGetMctpVersionSupport msgType s
  | .getMessageTypeSupport => Sys2Proof.Machine.execGetMessageTypeSupport s
  | .getVendorDefinedMessageSupport selector => Sys2Proof.Machine.execGetVendorDefinedMessageSupport selector s
  | .i3cDynamicAddress addr => Sys2Proof.Machine.execI3cDynamicAddress addr s
  | .createIoQueuePair tag qid batching coalCount coalTicks sqEntries cqEntries sqBase cqBase => Sys2Proof.Machine.execCreateIoQueuePair tag qid batching coalCount coalTicks sqEntries cqEntries sqBase cqBase s
  | .deleteIoQueuePair tag qid => Sys2Proof.Machine.execDeleteIoQueuePair tag qid s
  | .setFieldSet tag qid set => Sys2Proof.Machine.execSetFieldSet tag qid set s
  | .memberCompletion id r => Sys2Proof.Machine.execMemberCompletion id r s
  | .memberTransportError id => Sys2Proof.Machine.execMemberTransportError id s
  | .memberReadHedged id => Sys2Proof.Machine.execMemberReadHedged id s
  | .courseLockGrant grant => Sys2Proof.Machine.execCourseLockGrant grant s
  | .mortarOperationDone job mismatch hod => Sys2Proof.Machine.execMortarOperationDone job mismatch hod s
  | .destageStart field course geom meets => Sys2Proof.Machine.execDestageStart field course geom meets s
  | .destageGuardReady job => Sys2Proof.Machine.execDestageGuardReady job s
  | .mstReplicaTick field => Sys2Proof.Machine.execMstReplicaTick field s
  | .resyncCourseStart field course geom => Sys2Proof.Machine.execResyncCourseStart field course geom s
  | .scrubCourseStart field => Sys2Proof.Machine.execScrubCourseStart field s
  | .fieldScrubLate field => Sys2Proof.Machine.execFieldScrubLate field s
  | .scrubPositionSave => Sys2Proof.Machine.execScrubPositionSave s
  | .memberControllerFatal member => Sys2Proof.Machine.execMemberControllerFatal member s
  | .memberReadyTimeout member => Sys2Proof.Machine.execMemberReadyTimeout member s
  | .memberAsyncEvent member w => Sys2Proof.Machine.execMemberAsyncEvent member w s
  | .memberPathLost member => Sys2Proof.Machine.execMemberPathLost member s
  | .memberPathReturned member => Sys2Proof.Machine.execMemberPathReturned member s
  | .memberPathGraceExpired member => Sys2Proof.Machine.execMemberPathGraceExpired member s
  | .namespaceDiscovered ns => Sys2Proof.Machine.execNamespaceDiscovered ns s
  | .rebuildStart field position => Sys2Proof.Machine.execRebuildStart field position s
  | .rebuildCourseStart field => Sys2Proof.Machine.execRebuildCourseStart field s
  | .rebuildTargetJoined field position => Sys2Proof.Machine.execRebuildTargetJoined field position s
  | .reshapeStepStart field => Sys2Proof.Machine.execReshapeStepStart field s
  | .fieldRecovered field => Sys2Proof.Machine.execFieldRecovered field s
  | .hodAgeTick => Sys2Proof.Machine.execHodAgeTick s
  | .hodMoveDone reg => Sys2Proof.Machine.execHodMoveDone reg s
  | .hodInvalidated => Sys2Proof.Machine.execHodInvalidated s
  | .holdupOkChange high => Sys2Proof.Machine.execHoldupOkChange high s
  | .holdupSettleExpired => Sys2Proof.Machine.execHoldupSettleExpired s
  | .drmChannelFailed channel => Sys2Proof.Machine.execDrmChannelFailed channel s
  | .drmDirectoryRebuilt => Sys2Proof.Machine.execDrmDirectoryRebuilt s
  | .drmPatrol faults => Sys2Proof.Machine.execDrmPatrol faults s
  | .dumpStart => Sys2Proof.Machine.execDumpStart s
  | .dumpEnd retries b => Sys2Proof.Machine.execDumpEnd retries b s
  | .vaultRestoreStart damage badFbkBlocks => Sys2Proof.Machine.execVaultRestoreStart damage badFbkBlocks s
  | .vltRestoreDone => Sys2Proof.Machine.execVltRestoreDone s
  | .vaultEraseDone reach => Sys2Proof.Machine.execVaultEraseDone reach s
  | .vltHealthTest failed channel => Sys2Proof.Machine.execVltHealthTest failed channel s
  | .vaultNandFault channel => Sys2Proof.Machine.execVaultNandFault channel s
  | .twinLinkTrained width => Sys2Proof.Machine.execTwinLinkTrained width s
  | .twinLinkLost => Sys2Proof.Machine.execTwinLinkLost s
  | .offer serial twinPos nonce ownerDigest creds => Sys2Proof.Machine.execOffer serial twinPos nonce ownerDigest creds s
  | .proof sigsOk => Sys2Proof.Machine.execProof sigsOk s
  | .refuse r => Sys2Proof.Machine.execRefuse r s
  | .keyAgreementTimeout => Sys2Proof.Machine.execKeyAgreementTimeout s
  | .flitReceived seq kind credit crcOk => Sys2Proof.Machine.execFlitReceived seq kind credit crcOk s
  | .replayRequest seq => Sys2Proof.Machine.execReplayRequest seq s
  | .alignmentMarker offsetNs => Sys2Proof.Machine.execAlignmentMarker offsetNs s
  | .heartbeat ok h => Sys2Proof.Machine.execHeartbeat ok h s
  | .ckptLine ok l last => Sys2Proof.Machine.execCkptLine ok l last s
  | .line ok l => Sys2Proof.Machine.execLine ok l s
  | .release ok field lba blocks version => Sys2Proof.Machine.execRelease ok field lba blocks version s
  | .windowPage ok page data => Sys2Proof.Machine.execWindowPage ok page data s
  | .fbkRecord ok r => Sys2Proof.Machine.execFbkRecord ok r s
  | .bulkLine ok l => Sys2Proof.Machine.execBulkLine ok l s
  | .pairHello ok h => Sys2Proof.Machine.execPairHello ok h s
  | .agree ok final l => Sys2Proof.Machine.execAgree ok final l s
  | .fieldReserve ok field phase => Sys2Proof.Machine.execFieldReserve ok field phase s
  | .handoverOffer ok field ckptSeq mirrorSeq gen => Sys2Proof.Machine.execHandoverOffer ok field ckptSeq mirrorSeq gen s
  | .handoverAccept ok field accepted => Sys2Proof.Machine.execHandoverAccept ok field accepted s
  | .handoverDrained field => Sys2Proof.Machine.execHandoverDrained field s
  | .bulkDone ok lines pages => Sys2Proof.Machine.execBulkDone ok lines pages s
  | .paramSync ok phase paramId index value effectTick => Sys2Proof.Machine.execParamSync ok phase paramId index value effectTick s
  | .fieldKeys ok uuid field blob => Sys2Proof.Machine.execFieldKeys ok uuid field blob s
  | .twinAlivePulse => Sys2Proof.Machine.execTwinAlivePulse s
  | .twnAliveFault => Sys2Proof.Machine.execTwnAliveFault s
  | .twoPathRule => Sys2Proof.Machine.execTwoPathRule s
  | .takeoverLabelDeadline => Sys2Proof.Machine.execTakeoverLabelDeadline s
  | .takeoverFenceCheck => Sys2Proof.Machine.execTakeoverFenceCheck s
  | .twnTakeoverDone => Sys2Proof.Machine.execTwnTakeoverDone s
  | .pairWaitExpired => Sys2Proof.Machine.execPairWaitExpired s
  | .keystoneReset c b => Sys2Proof.Machine.execKeystoneReset c b s
  | .trwLockstepFault pair => Sys2Proof.Machine.execTrwLockstepFault pair s
  | .getVersion t => Sys2Proof.Machine.execGetVersion t s
  | .getCapabilities t => Sys2Proof.Machine.execGetCapabilities t s
  | .negotiateAlgorithms t => Sys2Proof.Machine.execNegotiateAlgorithms t s
  | .getDigests t => Sys2Proof.Machine.execGetDigests t s
  | .getCertificate t slot offset length => Sys2Proof.Machine.execGetCertificate t slot offset length s
  | .challenge t slot nonce => Sys2Proof.Machine.execChallenge t slot nonce s
  | .getMeasurements t index nonce signed => Sys2Proof.Machine.execGetMeasurements t index nonce signed s
  | .spdmUnsupportedRequest t code => Sys2Proof.Machine.execSpdmUnsupportedRequest t code s
  | .updConfirmSent => Sys2Proof.Machine.execUpdConfirmSent s
  | .updConfirmTimeout => Sys2Proof.Machine.execUpdConfirmTimeout s
  | .fallbackRestart b => Sys2Proof.Machine.execFallbackRestart b s
  | .seedbedEraseDone => Sys2Proof.Machine.execSeedbedEraseDone s
  | .fbkWriteSlot logicFault => Sys2Proof.Machine.execFbkWriteSlot logicFault s
  | .coldReset b => Sys2Proof.Machine.execColdReset b s
  | .warmReset => Sys2Proof.Machine.execWarmReset s
  | .hotReset => Sys2Proof.Machine.execHotReset s
  | .functionLevelReset => Sys2Proof.Machine.execFunctionLevelReset s
  | .powerLoss framesWritten => Sys2Proof.Machine.execPowerLoss framesWritten s
  | .dramTrainingDone d => Sys2Proof.Machine.execDramTrainingDone d s
  | .mptPerstRelease port => Sys2Proof.Machine.execMptPerstRelease port s
  | .memberEnumerationDone found => Sys2Proof.Machine.execMemberEnumerationDone found s
  | .freeze => Sys2Proof.Machine.execFreeze s
  | .extest => Sys2Proof.Machine.execExtest s
  | .idcode => Sys2Proof.Machine.execIdcode s
  | .samplePreload => Sys2Proof.Machine.execSamplePreload s
  | .clamp => Sys2Proof.Machine.execClamp s
  | .highz => Sys2Proof.Machine.execHighz s
  | .frzStatus => Sys2Proof.Machine.execFrzStatus s
  | .harvestSel value => Sys2Proof.Machine.execHarvestSel value s
  | .harvest bits => Sys2Proof.Machine.execHarvest bits s
  | .bypass => Sys2Proof.Machine.execBypass s
  | .sysThermalWarn celsius sensor => Sys2Proof.Machine.execSysThermalWarn celsius sensor s
  | .sysThermalClear celsius sensor => Sys2Proof.Machine.execSysThermalClear celsius sensor s
  | .sysThermalTrip celsius sensor => Sys2Proof.Machine.execSysThermalTrip celsius sensor s
  | .pwrfailNReturn b => Sys2Proof.Machine.execPwrfailNReturn b s
  | .invalidOpcode q opcode e => Sys2Proof.Machine.execInvalidOpcode q opcode e s
  | .badOpcode p opcode r => Sys2Proof.Machine.execBadOpcode p opcode r s

end Sys2Proof.Machine
end

