-- ==== Sys2Proof/Laws/State.lean ====
section
/-!
SUPPORT. What each change of a part of the state leaves: one lemma for each part of the state and each change, true by
`rfl`, so that no later proof unfolds a record update.
-/

namespace Sys2Proof.Machine

variable (s : Dev)

/-! ### onTck -/

@[simp] theorem Dev.onTck_cfg (f : Tck → Tck) : (s.onTck f).cfg = s.cfg := rfl
@[simp] theorem Dev.onTck_cfgNext (f : Tck → Tck) : (s.onTck f).cfgNext = s.cfgNext := rfl
@[simp] theorem Dev.onTck_ctr (f : Tck → Tck) : (s.onTck f).ctr = s.ctr := rfl
@[simp] theorem Dev.onTck_tck (f : Tck → Tck) : (s.onTck f).tck = f s.tck := rfl
@[simp] theorem Dev.onTck_tasks (f : Tck → Tck) : (s.onTck f).tasks = s.tasks := rfl
@[simp] theorem Dev.onTck_hif (f : Tck → Tck) : (s.onTck f).hif = s.hif := rfl
@[simp] theorem Dev.onTck_win (f : Tck → Tck) : (s.onTck f).win = s.win := rfl
@[simp] theorem Dev.onTck_qs (f : Tck → Tck) : (s.onTck f).qs = s.qs := rfl
@[simp] theorem Dev.onTck_mbx (f : Tck → Tck) : (s.onTck f).mbx = s.mbx := rfl
@[simp] theorem Dev.onTck_fields (f : Tck → Tck) : (s.onTck f).fields = s.fields := rfl
@[simp] theorem Dev.onTck_mpt (f : Tck → Tck) : (s.onTck f).mpt = s.mpt := rfl
@[simp] theorem Dev.onTck_cache (f : Tck → Tck) : (s.onTck f).cache = s.cache := rfl
@[simp] theorem Dev.onTck_mor (f : Tck → Tck) : (s.onTck f).mor = s.mor := rfl
@[simp] theorem Dev.onTck_mst (f : Tck → Tck) : (s.onTck f).mst = s.mst := rfl
@[simp] theorem Dev.onTck_hod (f : Tck → Tck) : (s.onTck f).hod = s.hod := rfl
@[simp] theorem Dev.onTck_drm (f : Tck → Tck) : (s.onTck f).drm = s.drm := rfl
@[simp] theorem Dev.onTck_vlt (f : Tck → Tck) : (s.onTck f).vlt = s.vlt := rfl
@[simp] theorem Dev.onTck_twn (f : Tck → Tck) : (s.onTck f).twn = s.twn := rfl
@[simp] theorem Dev.onTck_lnk (f : Tck → Tck) : (s.onTck f).lnk = s.lnk := rfl
@[simp] theorem Dev.onTck_kst (f : Tck → Tck) : (s.onTck f).kst = s.kst := rfl
@[simp] theorem Dev.onTck_upd (f : Tck → Tck) : (s.onTck f).upd = s.upd := rfl
@[simp] theorem Dev.onTck_fbk (f : Tck → Tck) : (s.onTck f).fbk = s.fbk := rfl
@[simp] theorem Dev.onTck_sys (f : Tck → Tck) : (s.onTck f).sys = s.sys := rfl
@[simp] theorem Dev.onTck_freeCtr (f : Tck → Tck) : (s.onTck f).freeCtr = s.freeCtr := rfl
@[simp] theorem Dev.onTck_out (f : Tck → Tck) : (s.onTck f).out = s.out := rfl

/-! ### onTasks -/

@[simp] theorem Dev.onTasks_cfg (f : Tasks → Tasks) : (s.onTasks f).cfg = s.cfg := rfl
@[simp] theorem Dev.onTasks_cfgNext (f : Tasks → Tasks) : (s.onTasks f).cfgNext = s.cfgNext := rfl
@[simp] theorem Dev.onTasks_ctr (f : Tasks → Tasks) : (s.onTasks f).ctr = s.ctr := rfl
@[simp] theorem Dev.onTasks_tck (f : Tasks → Tasks) : (s.onTasks f).tck = s.tck := rfl
@[simp] theorem Dev.onTasks_tasks (f : Tasks → Tasks) : (s.onTasks f).tasks = f s.tasks := rfl
@[simp] theorem Dev.onTasks_hif (f : Tasks → Tasks) : (s.onTasks f).hif = s.hif := rfl
@[simp] theorem Dev.onTasks_win (f : Tasks → Tasks) : (s.onTasks f).win = s.win := rfl
@[simp] theorem Dev.onTasks_qs (f : Tasks → Tasks) : (s.onTasks f).qs = s.qs := rfl
@[simp] theorem Dev.onTasks_mbx (f : Tasks → Tasks) : (s.onTasks f).mbx = s.mbx := rfl
@[simp] theorem Dev.onTasks_fields (f : Tasks → Tasks) : (s.onTasks f).fields = s.fields := rfl
@[simp] theorem Dev.onTasks_mpt (f : Tasks → Tasks) : (s.onTasks f).mpt = s.mpt := rfl
@[simp] theorem Dev.onTasks_cache (f : Tasks → Tasks) : (s.onTasks f).cache = s.cache := rfl
@[simp] theorem Dev.onTasks_mor (f : Tasks → Tasks) : (s.onTasks f).mor = s.mor := rfl
@[simp] theorem Dev.onTasks_mst (f : Tasks → Tasks) : (s.onTasks f).mst = s.mst := rfl
@[simp] theorem Dev.onTasks_hod (f : Tasks → Tasks) : (s.onTasks f).hod = s.hod := rfl
@[simp] theorem Dev.onTasks_drm (f : Tasks → Tasks) : (s.onTasks f).drm = s.drm := rfl
@[simp] theorem Dev.onTasks_vlt (f : Tasks → Tasks) : (s.onTasks f).vlt = s.vlt := rfl
@[simp] theorem Dev.onTasks_twn (f : Tasks → Tasks) : (s.onTasks f).twn = s.twn := rfl
@[simp] theorem Dev.onTasks_lnk (f : Tasks → Tasks) : (s.onTasks f).lnk = s.lnk := rfl
@[simp] theorem Dev.onTasks_kst (f : Tasks → Tasks) : (s.onTasks f).kst = s.kst := rfl
@[simp] theorem Dev.onTasks_upd (f : Tasks → Tasks) : (s.onTasks f).upd = s.upd := rfl
@[simp] theorem Dev.onTasks_fbk (f : Tasks → Tasks) : (s.onTasks f).fbk = s.fbk := rfl
@[simp] theorem Dev.onTasks_sys (f : Tasks → Tasks) : (s.onTasks f).sys = s.sys := rfl
@[simp] theorem Dev.onTasks_freeCtr (f : Tasks → Tasks) : (s.onTasks f).freeCtr = s.freeCtr := rfl
@[simp] theorem Dev.onTasks_out (f : Tasks → Tasks) : (s.onTasks f).out = s.out := rfl

/-! ### onHif -/

@[simp] theorem Dev.onHif_cfg (f : Hif → Hif) : (s.onHif f).cfg = s.cfg := rfl
@[simp] theorem Dev.onHif_cfgNext (f : Hif → Hif) : (s.onHif f).cfgNext = s.cfgNext := rfl
@[simp] theorem Dev.onHif_ctr (f : Hif → Hif) : (s.onHif f).ctr = s.ctr := rfl
@[simp] theorem Dev.onHif_tck (f : Hif → Hif) : (s.onHif f).tck = s.tck := rfl
@[simp] theorem Dev.onHif_tasks (f : Hif → Hif) : (s.onHif f).tasks = s.tasks := rfl
@[simp] theorem Dev.onHif_hif (f : Hif → Hif) : (s.onHif f).hif = f s.hif := rfl
@[simp] theorem Dev.onHif_win (f : Hif → Hif) : (s.onHif f).win = s.win := rfl
@[simp] theorem Dev.onHif_qs (f : Hif → Hif) : (s.onHif f).qs = s.qs := rfl
@[simp] theorem Dev.onHif_mbx (f : Hif → Hif) : (s.onHif f).mbx = s.mbx := rfl
@[simp] theorem Dev.onHif_fields (f : Hif → Hif) : (s.onHif f).fields = s.fields := rfl
@[simp] theorem Dev.onHif_mpt (f : Hif → Hif) : (s.onHif f).mpt = s.mpt := rfl
@[simp] theorem Dev.onHif_cache (f : Hif → Hif) : (s.onHif f).cache = s.cache := rfl
@[simp] theorem Dev.onHif_mor (f : Hif → Hif) : (s.onHif f).mor = s.mor := rfl
@[simp] theorem Dev.onHif_mst (f : Hif → Hif) : (s.onHif f).mst = s.mst := rfl
@[simp] theorem Dev.onHif_hod (f : Hif → Hif) : (s.onHif f).hod = s.hod := rfl
@[simp] theorem Dev.onHif_drm (f : Hif → Hif) : (s.onHif f).drm = s.drm := rfl
@[simp] theorem Dev.onHif_vlt (f : Hif → Hif) : (s.onHif f).vlt = s.vlt := rfl
@[simp] theorem Dev.onHif_twn (f : Hif → Hif) : (s.onHif f).twn = s.twn := rfl
@[simp] theorem Dev.onHif_lnk (f : Hif → Hif) : (s.onHif f).lnk = s.lnk := rfl
@[simp] theorem Dev.onHif_kst (f : Hif → Hif) : (s.onHif f).kst = s.kst := rfl
@[simp] theorem Dev.onHif_upd (f : Hif → Hif) : (s.onHif f).upd = s.upd := rfl
@[simp] theorem Dev.onHif_fbk (f : Hif → Hif) : (s.onHif f).fbk = s.fbk := rfl
@[simp] theorem Dev.onHif_sys (f : Hif → Hif) : (s.onHif f).sys = s.sys := rfl
@[simp] theorem Dev.onHif_freeCtr (f : Hif → Hif) : (s.onHif f).freeCtr = s.freeCtr := rfl
@[simp] theorem Dev.onHif_out (f : Hif → Hif) : (s.onHif f).out = s.out := rfl

/-! ### onWin -/

@[simp] theorem Dev.onWin_cfg (f : Win → Win) : (s.onWin f).cfg = s.cfg := rfl
@[simp] theorem Dev.onWin_cfgNext (f : Win → Win) : (s.onWin f).cfgNext = s.cfgNext := rfl
@[simp] theorem Dev.onWin_ctr (f : Win → Win) : (s.onWin f).ctr = s.ctr := rfl
@[simp] theorem Dev.onWin_tck (f : Win → Win) : (s.onWin f).tck = s.tck := rfl
@[simp] theorem Dev.onWin_tasks (f : Win → Win) : (s.onWin f).tasks = s.tasks := rfl
@[simp] theorem Dev.onWin_hif (f : Win → Win) : (s.onWin f).hif = s.hif := rfl
@[simp] theorem Dev.onWin_win (f : Win → Win) : (s.onWin f).win = f s.win := rfl
@[simp] theorem Dev.onWin_qs (f : Win → Win) : (s.onWin f).qs = s.qs := rfl
@[simp] theorem Dev.onWin_mbx (f : Win → Win) : (s.onWin f).mbx = s.mbx := rfl
@[simp] theorem Dev.onWin_fields (f : Win → Win) : (s.onWin f).fields = s.fields := rfl
@[simp] theorem Dev.onWin_mpt (f : Win → Win) : (s.onWin f).mpt = s.mpt := rfl
@[simp] theorem Dev.onWin_cache (f : Win → Win) : (s.onWin f).cache = s.cache := rfl
@[simp] theorem Dev.onWin_mor (f : Win → Win) : (s.onWin f).mor = s.mor := rfl
@[simp] theorem Dev.onWin_mst (f : Win → Win) : (s.onWin f).mst = s.mst := rfl
@[simp] theorem Dev.onWin_hod (f : Win → Win) : (s.onWin f).hod = s.hod := rfl
@[simp] theorem Dev.onWin_drm (f : Win → Win) : (s.onWin f).drm = s.drm := rfl
@[simp] theorem Dev.onWin_vlt (f : Win → Win) : (s.onWin f).vlt = s.vlt := rfl
@[simp] theorem Dev.onWin_twn (f : Win → Win) : (s.onWin f).twn = s.twn := rfl
@[simp] theorem Dev.onWin_lnk (f : Win → Win) : (s.onWin f).lnk = s.lnk := rfl
@[simp] theorem Dev.onWin_kst (f : Win → Win) : (s.onWin f).kst = s.kst := rfl
@[simp] theorem Dev.onWin_upd (f : Win → Win) : (s.onWin f).upd = s.upd := rfl
@[simp] theorem Dev.onWin_fbk (f : Win → Win) : (s.onWin f).fbk = s.fbk := rfl
@[simp] theorem Dev.onWin_sys (f : Win → Win) : (s.onWin f).sys = s.sys := rfl
@[simp] theorem Dev.onWin_freeCtr (f : Win → Win) : (s.onWin f).freeCtr = s.freeCtr := rfl
@[simp] theorem Dev.onWin_out (f : Win → Win) : (s.onWin f).out = s.out := rfl

/-! ### onQs -/

@[simp] theorem Dev.onQs_cfg (f : Queues → Queues) : (s.onQs f).cfg = s.cfg := rfl
@[simp] theorem Dev.onQs_cfgNext (f : Queues → Queues) : (s.onQs f).cfgNext = s.cfgNext := rfl
@[simp] theorem Dev.onQs_ctr (f : Queues → Queues) : (s.onQs f).ctr = s.ctr := rfl
@[simp] theorem Dev.onQs_tck (f : Queues → Queues) : (s.onQs f).tck = s.tck := rfl
@[simp] theorem Dev.onQs_tasks (f : Queues → Queues) : (s.onQs f).tasks = s.tasks := rfl
@[simp] theorem Dev.onQs_hif (f : Queues → Queues) : (s.onQs f).hif = s.hif := rfl
@[simp] theorem Dev.onQs_win (f : Queues → Queues) : (s.onQs f).win = s.win := rfl
@[simp] theorem Dev.onQs_qs (f : Queues → Queues) : (s.onQs f).qs = f s.qs := rfl
@[simp] theorem Dev.onQs_mbx (f : Queues → Queues) : (s.onQs f).mbx = s.mbx := rfl
@[simp] theorem Dev.onQs_fields (f : Queues → Queues) : (s.onQs f).fields = s.fields := rfl
@[simp] theorem Dev.onQs_mpt (f : Queues → Queues) : (s.onQs f).mpt = s.mpt := rfl
@[simp] theorem Dev.onQs_cache (f : Queues → Queues) : (s.onQs f).cache = s.cache := rfl
@[simp] theorem Dev.onQs_mor (f : Queues → Queues) : (s.onQs f).mor = s.mor := rfl
@[simp] theorem Dev.onQs_mst (f : Queues → Queues) : (s.onQs f).mst = s.mst := rfl
@[simp] theorem Dev.onQs_hod (f : Queues → Queues) : (s.onQs f).hod = s.hod := rfl
@[simp] theorem Dev.onQs_drm (f : Queues → Queues) : (s.onQs f).drm = s.drm := rfl
@[simp] theorem Dev.onQs_vlt (f : Queues → Queues) : (s.onQs f).vlt = s.vlt := rfl
@[simp] theorem Dev.onQs_twn (f : Queues → Queues) : (s.onQs f).twn = s.twn := rfl
@[simp] theorem Dev.onQs_lnk (f : Queues → Queues) : (s.onQs f).lnk = s.lnk := rfl
@[simp] theorem Dev.onQs_kst (f : Queues → Queues) : (s.onQs f).kst = s.kst := rfl
@[simp] theorem Dev.onQs_upd (f : Queues → Queues) : (s.onQs f).upd = s.upd := rfl
@[simp] theorem Dev.onQs_fbk (f : Queues → Queues) : (s.onQs f).fbk = s.fbk := rfl
@[simp] theorem Dev.onQs_sys (f : Queues → Queues) : (s.onQs f).sys = s.sys := rfl
@[simp] theorem Dev.onQs_freeCtr (f : Queues → Queues) : (s.onQs f).freeCtr = s.freeCtr := rfl
@[simp] theorem Dev.onQs_out (f : Queues → Queues) : (s.onQs f).out = s.out := rfl

/-! ### onMbx -/

@[simp] theorem Dev.onMbx_cfg (f : Mbx → Mbx) : (s.onMbx f).cfg = s.cfg := rfl
@[simp] theorem Dev.onMbx_cfgNext (f : Mbx → Mbx) : (s.onMbx f).cfgNext = s.cfgNext := rfl
@[simp] theorem Dev.onMbx_ctr (f : Mbx → Mbx) : (s.onMbx f).ctr = s.ctr := rfl
@[simp] theorem Dev.onMbx_tck (f : Mbx → Mbx) : (s.onMbx f).tck = s.tck := rfl
@[simp] theorem Dev.onMbx_tasks (f : Mbx → Mbx) : (s.onMbx f).tasks = s.tasks := rfl
@[simp] theorem Dev.onMbx_hif (f : Mbx → Mbx) : (s.onMbx f).hif = s.hif := rfl
@[simp] theorem Dev.onMbx_win (f : Mbx → Mbx) : (s.onMbx f).win = s.win := rfl
@[simp] theorem Dev.onMbx_qs (f : Mbx → Mbx) : (s.onMbx f).qs = s.qs := rfl
@[simp] theorem Dev.onMbx_mbx (f : Mbx → Mbx) : (s.onMbx f).mbx = f s.mbx := rfl
@[simp] theorem Dev.onMbx_fields (f : Mbx → Mbx) : (s.onMbx f).fields = s.fields := rfl
@[simp] theorem Dev.onMbx_mpt (f : Mbx → Mbx) : (s.onMbx f).mpt = s.mpt := rfl
@[simp] theorem Dev.onMbx_cache (f : Mbx → Mbx) : (s.onMbx f).cache = s.cache := rfl
@[simp] theorem Dev.onMbx_mor (f : Mbx → Mbx) : (s.onMbx f).mor = s.mor := rfl
@[simp] theorem Dev.onMbx_mst (f : Mbx → Mbx) : (s.onMbx f).mst = s.mst := rfl
@[simp] theorem Dev.onMbx_hod (f : Mbx → Mbx) : (s.onMbx f).hod = s.hod := rfl
@[simp] theorem Dev.onMbx_drm (f : Mbx → Mbx) : (s.onMbx f).drm = s.drm := rfl
@[simp] theorem Dev.onMbx_vlt (f : Mbx → Mbx) : (s.onMbx f).vlt = s.vlt := rfl
@[simp] theorem Dev.onMbx_twn (f : Mbx → Mbx) : (s.onMbx f).twn = s.twn := rfl
@[simp] theorem Dev.onMbx_lnk (f : Mbx → Mbx) : (s.onMbx f).lnk = s.lnk := rfl
@[simp] theorem Dev.onMbx_kst (f : Mbx → Mbx) : (s.onMbx f).kst = s.kst := rfl
@[simp] theorem Dev.onMbx_upd (f : Mbx → Mbx) : (s.onMbx f).upd = s.upd := rfl
@[simp] theorem Dev.onMbx_fbk (f : Mbx → Mbx) : (s.onMbx f).fbk = s.fbk := rfl
@[simp] theorem Dev.onMbx_sys (f : Mbx → Mbx) : (s.onMbx f).sys = s.sys := rfl
@[simp] theorem Dev.onMbx_freeCtr (f : Mbx → Mbx) : (s.onMbx f).freeCtr = s.freeCtr := rfl
@[simp] theorem Dev.onMbx_out (f : Mbx → Mbx) : (s.onMbx f).out = s.out := rfl

/-! ### onMpt -/

@[simp] theorem Dev.onMpt_cfg (f : Mpt → Mpt) : (s.onMpt f).cfg = s.cfg := rfl
@[simp] theorem Dev.onMpt_cfgNext (f : Mpt → Mpt) : (s.onMpt f).cfgNext = s.cfgNext := rfl
@[simp] theorem Dev.onMpt_ctr (f : Mpt → Mpt) : (s.onMpt f).ctr = s.ctr := rfl
@[simp] theorem Dev.onMpt_tck (f : Mpt → Mpt) : (s.onMpt f).tck = s.tck := rfl
@[simp] theorem Dev.onMpt_tasks (f : Mpt → Mpt) : (s.onMpt f).tasks = s.tasks := rfl
@[simp] theorem Dev.onMpt_hif (f : Mpt → Mpt) : (s.onMpt f).hif = s.hif := rfl
@[simp] theorem Dev.onMpt_win (f : Mpt → Mpt) : (s.onMpt f).win = s.win := rfl
@[simp] theorem Dev.onMpt_qs (f : Mpt → Mpt) : (s.onMpt f).qs = s.qs := rfl
@[simp] theorem Dev.onMpt_mbx (f : Mpt → Mpt) : (s.onMpt f).mbx = s.mbx := rfl
@[simp] theorem Dev.onMpt_fields (f : Mpt → Mpt) : (s.onMpt f).fields = s.fields := rfl
@[simp] theorem Dev.onMpt_mpt (f : Mpt → Mpt) : (s.onMpt f).mpt = f s.mpt := rfl
@[simp] theorem Dev.onMpt_cache (f : Mpt → Mpt) : (s.onMpt f).cache = s.cache := rfl
@[simp] theorem Dev.onMpt_mor (f : Mpt → Mpt) : (s.onMpt f).mor = s.mor := rfl
@[simp] theorem Dev.onMpt_mst (f : Mpt → Mpt) : (s.onMpt f).mst = s.mst := rfl
@[simp] theorem Dev.onMpt_hod (f : Mpt → Mpt) : (s.onMpt f).hod = s.hod := rfl
@[simp] theorem Dev.onMpt_drm (f : Mpt → Mpt) : (s.onMpt f).drm = s.drm := rfl
@[simp] theorem Dev.onMpt_vlt (f : Mpt → Mpt) : (s.onMpt f).vlt = s.vlt := rfl
@[simp] theorem Dev.onMpt_twn (f : Mpt → Mpt) : (s.onMpt f).twn = s.twn := rfl
@[simp] theorem Dev.onMpt_lnk (f : Mpt → Mpt) : (s.onMpt f).lnk = s.lnk := rfl
@[simp] theorem Dev.onMpt_kst (f : Mpt → Mpt) : (s.onMpt f).kst = s.kst := rfl
@[simp] theorem Dev.onMpt_upd (f : Mpt → Mpt) : (s.onMpt f).upd = s.upd := rfl
@[simp] theorem Dev.onMpt_fbk (f : Mpt → Mpt) : (s.onMpt f).fbk = s.fbk := rfl
@[simp] theorem Dev.onMpt_sys (f : Mpt → Mpt) : (s.onMpt f).sys = s.sys := rfl
@[simp] theorem Dev.onMpt_freeCtr (f : Mpt → Mpt) : (s.onMpt f).freeCtr = s.freeCtr := rfl
@[simp] theorem Dev.onMpt_out (f : Mpt → Mpt) : (s.onMpt f).out = s.out := rfl

/-! ### onCache -/

@[simp] theorem Dev.onCache_cfg (f : Cache → Cache) : (s.onCache f).cfg = s.cfg := rfl
@[simp] theorem Dev.onCache_cfgNext (f : Cache → Cache) : (s.onCache f).cfgNext = s.cfgNext := rfl
@[simp] theorem Dev.onCache_ctr (f : Cache → Cache) : (s.onCache f).ctr = s.ctr := rfl
@[simp] theorem Dev.onCache_tck (f : Cache → Cache) : (s.onCache f).tck = s.tck := rfl
@[simp] theorem Dev.onCache_tasks (f : Cache → Cache) : (s.onCache f).tasks = s.tasks := rfl
@[simp] theorem Dev.onCache_hif (f : Cache → Cache) : (s.onCache f).hif = s.hif := rfl
@[simp] theorem Dev.onCache_win (f : Cache → Cache) : (s.onCache f).win = s.win := rfl
@[simp] theorem Dev.onCache_qs (f : Cache → Cache) : (s.onCache f).qs = s.qs := rfl
@[simp] theorem Dev.onCache_mbx (f : Cache → Cache) : (s.onCache f).mbx = s.mbx := rfl
@[simp] theorem Dev.onCache_fields (f : Cache → Cache) : (s.onCache f).fields = s.fields := rfl
@[simp] theorem Dev.onCache_mpt (f : Cache → Cache) : (s.onCache f).mpt = s.mpt := rfl
@[simp] theorem Dev.onCache_cache (f : Cache → Cache) : (s.onCache f).cache = f s.cache := rfl
@[simp] theorem Dev.onCache_mor (f : Cache → Cache) : (s.onCache f).mor = s.mor := rfl
@[simp] theorem Dev.onCache_mst (f : Cache → Cache) : (s.onCache f).mst = s.mst := rfl
@[simp] theorem Dev.onCache_hod (f : Cache → Cache) : (s.onCache f).hod = s.hod := rfl
@[simp] theorem Dev.onCache_drm (f : Cache → Cache) : (s.onCache f).drm = s.drm := rfl
@[simp] theorem Dev.onCache_vlt (f : Cache → Cache) : (s.onCache f).vlt = s.vlt := rfl
@[simp] theorem Dev.onCache_twn (f : Cache → Cache) : (s.onCache f).twn = s.twn := rfl
@[simp] theorem Dev.onCache_lnk (f : Cache → Cache) : (s.onCache f).lnk = s.lnk := rfl
@[simp] theorem Dev.onCache_kst (f : Cache → Cache) : (s.onCache f).kst = s.kst := rfl
@[simp] theorem Dev.onCache_upd (f : Cache → Cache) : (s.onCache f).upd = s.upd := rfl
@[simp] theorem Dev.onCache_fbk (f : Cache → Cache) : (s.onCache f).fbk = s.fbk := rfl
@[simp] theorem Dev.onCache_sys (f : Cache → Cache) : (s.onCache f).sys = s.sys := rfl
@[simp] theorem Dev.onCache_freeCtr (f : Cache → Cache) : (s.onCache f).freeCtr = s.freeCtr := rfl
@[simp] theorem Dev.onCache_out (f : Cache → Cache) : (s.onCache f).out = s.out := rfl

/-! ### onMor -/

@[simp] theorem Dev.onMor_cfg (f : Mor → Mor) : (s.onMor f).cfg = s.cfg := rfl
@[simp] theorem Dev.onMor_cfgNext (f : Mor → Mor) : (s.onMor f).cfgNext = s.cfgNext := rfl
@[simp] theorem Dev.onMor_ctr (f : Mor → Mor) : (s.onMor f).ctr = s.ctr := rfl
@[simp] theorem Dev.onMor_tck (f : Mor → Mor) : (s.onMor f).tck = s.tck := rfl
@[simp] theorem Dev.onMor_tasks (f : Mor → Mor) : (s.onMor f).tasks = s.tasks := rfl
@[simp] theorem Dev.onMor_hif (f : Mor → Mor) : (s.onMor f).hif = s.hif := rfl
@[simp] theorem Dev.onMor_win (f : Mor → Mor) : (s.onMor f).win = s.win := rfl
@[simp] theorem Dev.onMor_qs (f : Mor → Mor) : (s.onMor f).qs = s.qs := rfl
@[simp] theorem Dev.onMor_mbx (f : Mor → Mor) : (s.onMor f).mbx = s.mbx := rfl
@[simp] theorem Dev.onMor_fields (f : Mor → Mor) : (s.onMor f).fields = s.fields := rfl
@[simp] theorem Dev.onMor_mpt (f : Mor → Mor) : (s.onMor f).mpt = s.mpt := rfl
@[simp] theorem Dev.onMor_cache (f : Mor → Mor) : (s.onMor f).cache = s.cache := rfl
@[simp] theorem Dev.onMor_mor (f : Mor → Mor) : (s.onMor f).mor = f s.mor := rfl
@[simp] theorem Dev.onMor_mst (f : Mor → Mor) : (s.onMor f).mst = s.mst := rfl
@[simp] theorem Dev.onMor_hod (f : Mor → Mor) : (s.onMor f).hod = s.hod := rfl
@[simp] theorem Dev.onMor_drm (f : Mor → Mor) : (s.onMor f).drm = s.drm := rfl
@[simp] theorem Dev.onMor_vlt (f : Mor → Mor) : (s.onMor f).vlt = s.vlt := rfl
@[simp] theorem Dev.onMor_twn (f : Mor → Mor) : (s.onMor f).twn = s.twn := rfl
@[simp] theorem Dev.onMor_lnk (f : Mor → Mor) : (s.onMor f).lnk = s.lnk := rfl
@[simp] theorem Dev.onMor_kst (f : Mor → Mor) : (s.onMor f).kst = s.kst := rfl
@[simp] theorem Dev.onMor_upd (f : Mor → Mor) : (s.onMor f).upd = s.upd := rfl
@[simp] theorem Dev.onMor_fbk (f : Mor → Mor) : (s.onMor f).fbk = s.fbk := rfl
@[simp] theorem Dev.onMor_sys (f : Mor → Mor) : (s.onMor f).sys = s.sys := rfl
@[simp] theorem Dev.onMor_freeCtr (f : Mor → Mor) : (s.onMor f).freeCtr = s.freeCtr := rfl
@[simp] theorem Dev.onMor_out (f : Mor → Mor) : (s.onMor f).out = s.out := rfl

/-! ### onMst -/

@[simp] theorem Dev.onMst_cfg (f : Mst → Mst) : (s.onMst f).cfg = s.cfg := rfl
@[simp] theorem Dev.onMst_cfgNext (f : Mst → Mst) : (s.onMst f).cfgNext = s.cfgNext := rfl
@[simp] theorem Dev.onMst_ctr (f : Mst → Mst) : (s.onMst f).ctr = s.ctr := rfl
@[simp] theorem Dev.onMst_tck (f : Mst → Mst) : (s.onMst f).tck = s.tck := rfl
@[simp] theorem Dev.onMst_tasks (f : Mst → Mst) : (s.onMst f).tasks = s.tasks := rfl
@[simp] theorem Dev.onMst_hif (f : Mst → Mst) : (s.onMst f).hif = s.hif := rfl
@[simp] theorem Dev.onMst_win (f : Mst → Mst) : (s.onMst f).win = s.win := rfl
@[simp] theorem Dev.onMst_qs (f : Mst → Mst) : (s.onMst f).qs = s.qs := rfl
@[simp] theorem Dev.onMst_mbx (f : Mst → Mst) : (s.onMst f).mbx = s.mbx := rfl
@[simp] theorem Dev.onMst_fields (f : Mst → Mst) : (s.onMst f).fields = s.fields := rfl
@[simp] theorem Dev.onMst_mpt (f : Mst → Mst) : (s.onMst f).mpt = s.mpt := rfl
@[simp] theorem Dev.onMst_cache (f : Mst → Mst) : (s.onMst f).cache = s.cache := rfl
@[simp] theorem Dev.onMst_mor (f : Mst → Mst) : (s.onMst f).mor = s.mor := rfl
@[simp] theorem Dev.onMst_mst (f : Mst → Mst) : (s.onMst f).mst = f s.mst := rfl
@[simp] theorem Dev.onMst_hod (f : Mst → Mst) : (s.onMst f).hod = s.hod := rfl
@[simp] theorem Dev.onMst_drm (f : Mst → Mst) : (s.onMst f).drm = s.drm := rfl
@[simp] theorem Dev.onMst_vlt (f : Mst → Mst) : (s.onMst f).vlt = s.vlt := rfl
@[simp] theorem Dev.onMst_twn (f : Mst → Mst) : (s.onMst f).twn = s.twn := rfl
@[simp] theorem Dev.onMst_lnk (f : Mst → Mst) : (s.onMst f).lnk = s.lnk := rfl
@[simp] theorem Dev.onMst_kst (f : Mst → Mst) : (s.onMst f).kst = s.kst := rfl
@[simp] theorem Dev.onMst_upd (f : Mst → Mst) : (s.onMst f).upd = s.upd := rfl
@[simp] theorem Dev.onMst_fbk (f : Mst → Mst) : (s.onMst f).fbk = s.fbk := rfl
@[simp] theorem Dev.onMst_sys (f : Mst → Mst) : (s.onMst f).sys = s.sys := rfl
@[simp] theorem Dev.onMst_freeCtr (f : Mst → Mst) : (s.onMst f).freeCtr = s.freeCtr := rfl
@[simp] theorem Dev.onMst_out (f : Mst → Mst) : (s.onMst f).out = s.out := rfl

/-! ### onHod -/

@[simp] theorem Dev.onHod_cfg (f : Hod → Hod) : (s.onHod f).cfg = s.cfg := rfl
@[simp] theorem Dev.onHod_cfgNext (f : Hod → Hod) : (s.onHod f).cfgNext = s.cfgNext := rfl
@[simp] theorem Dev.onHod_ctr (f : Hod → Hod) : (s.onHod f).ctr = s.ctr := rfl
@[simp] theorem Dev.onHod_tck (f : Hod → Hod) : (s.onHod f).tck = s.tck := rfl
@[simp] theorem Dev.onHod_tasks (f : Hod → Hod) : (s.onHod f).tasks = s.tasks := rfl
@[simp] theorem Dev.onHod_hif (f : Hod → Hod) : (s.onHod f).hif = s.hif := rfl
@[simp] theorem Dev.onHod_win (f : Hod → Hod) : (s.onHod f).win = s.win := rfl
@[simp] theorem Dev.onHod_qs (f : Hod → Hod) : (s.onHod f).qs = s.qs := rfl
@[simp] theorem Dev.onHod_mbx (f : Hod → Hod) : (s.onHod f).mbx = s.mbx := rfl
@[simp] theorem Dev.onHod_fields (f : Hod → Hod) : (s.onHod f).fields = s.fields := rfl
@[simp] theorem Dev.onHod_mpt (f : Hod → Hod) : (s.onHod f).mpt = s.mpt := rfl
@[simp] theorem Dev.onHod_cache (f : Hod → Hod) : (s.onHod f).cache = s.cache := rfl
@[simp] theorem Dev.onHod_mor (f : Hod → Hod) : (s.onHod f).mor = s.mor := rfl
@[simp] theorem Dev.onHod_mst (f : Hod → Hod) : (s.onHod f).mst = s.mst := rfl
@[simp] theorem Dev.onHod_hod (f : Hod → Hod) : (s.onHod f).hod = f s.hod := rfl
@[simp] theorem Dev.onHod_drm (f : Hod → Hod) : (s.onHod f).drm = s.drm := rfl
@[simp] theorem Dev.onHod_vlt (f : Hod → Hod) : (s.onHod f).vlt = s.vlt := rfl
@[simp] theorem Dev.onHod_twn (f : Hod → Hod) : (s.onHod f).twn = s.twn := rfl
@[simp] theorem Dev.onHod_lnk (f : Hod → Hod) : (s.onHod f).lnk = s.lnk := rfl
@[simp] theorem Dev.onHod_kst (f : Hod → Hod) : (s.onHod f).kst = s.kst := rfl
@[simp] theorem Dev.onHod_upd (f : Hod → Hod) : (s.onHod f).upd = s.upd := rfl
@[simp] theorem Dev.onHod_fbk (f : Hod → Hod) : (s.onHod f).fbk = s.fbk := rfl
@[simp] theorem Dev.onHod_sys (f : Hod → Hod) : (s.onHod f).sys = s.sys := rfl
@[simp] theorem Dev.onHod_freeCtr (f : Hod → Hod) : (s.onHod f).freeCtr = s.freeCtr := rfl
@[simp] theorem Dev.onHod_out (f : Hod → Hod) : (s.onHod f).out = s.out := rfl

/-! ### onDrm -/

@[simp] theorem Dev.onDrm_cfg (f : Drm → Drm) : (s.onDrm f).cfg = s.cfg := rfl
@[simp] theorem Dev.onDrm_cfgNext (f : Drm → Drm) : (s.onDrm f).cfgNext = s.cfgNext := rfl
@[simp] theorem Dev.onDrm_ctr (f : Drm → Drm) : (s.onDrm f).ctr = s.ctr := rfl
@[simp] theorem Dev.onDrm_tck (f : Drm → Drm) : (s.onDrm f).tck = s.tck := rfl
@[simp] theorem Dev.onDrm_tasks (f : Drm → Drm) : (s.onDrm f).tasks = s.tasks := rfl
@[simp] theorem Dev.onDrm_hif (f : Drm → Drm) : (s.onDrm f).hif = s.hif := rfl
@[simp] theorem Dev.onDrm_win (f : Drm → Drm) : (s.onDrm f).win = s.win := rfl
@[simp] theorem Dev.onDrm_qs (f : Drm → Drm) : (s.onDrm f).qs = s.qs := rfl
@[simp] theorem Dev.onDrm_mbx (f : Drm → Drm) : (s.onDrm f).mbx = s.mbx := rfl
@[simp] theorem Dev.onDrm_fields (f : Drm → Drm) : (s.onDrm f).fields = s.fields := rfl
@[simp] theorem Dev.onDrm_mpt (f : Drm → Drm) : (s.onDrm f).mpt = s.mpt := rfl
@[simp] theorem Dev.onDrm_cache (f : Drm → Drm) : (s.onDrm f).cache = s.cache := rfl
@[simp] theorem Dev.onDrm_mor (f : Drm → Drm) : (s.onDrm f).mor = s.mor := rfl
@[simp] theorem Dev.onDrm_mst (f : Drm → Drm) : (s.onDrm f).mst = s.mst := rfl
@[simp] theorem Dev.onDrm_hod (f : Drm → Drm) : (s.onDrm f).hod = s.hod := rfl
@[simp] theorem Dev.onDrm_drm (f : Drm → Drm) : (s.onDrm f).drm = f s.drm := rfl
@[simp] theorem Dev.onDrm_vlt (f : Drm → Drm) : (s.onDrm f).vlt = s.vlt := rfl
@[simp] theorem Dev.onDrm_twn (f : Drm → Drm) : (s.onDrm f).twn = s.twn := rfl
@[simp] theorem Dev.onDrm_lnk (f : Drm → Drm) : (s.onDrm f).lnk = s.lnk := rfl
@[simp] theorem Dev.onDrm_kst (f : Drm → Drm) : (s.onDrm f).kst = s.kst := rfl
@[simp] theorem Dev.onDrm_upd (f : Drm → Drm) : (s.onDrm f).upd = s.upd := rfl
@[simp] theorem Dev.onDrm_fbk (f : Drm → Drm) : (s.onDrm f).fbk = s.fbk := rfl
@[simp] theorem Dev.onDrm_sys (f : Drm → Drm) : (s.onDrm f).sys = s.sys := rfl
@[simp] theorem Dev.onDrm_freeCtr (f : Drm → Drm) : (s.onDrm f).freeCtr = s.freeCtr := rfl
@[simp] theorem Dev.onDrm_out (f : Drm → Drm) : (s.onDrm f).out = s.out := rfl

/-! ### onVlt -/

@[simp] theorem Dev.onVlt_cfg (f : Vlt → Vlt) : (s.onVlt f).cfg = s.cfg := rfl
@[simp] theorem Dev.onVlt_cfgNext (f : Vlt → Vlt) : (s.onVlt f).cfgNext = s.cfgNext := rfl
@[simp] theorem Dev.onVlt_ctr (f : Vlt → Vlt) : (s.onVlt f).ctr = s.ctr := rfl
@[simp] theorem Dev.onVlt_tck (f : Vlt → Vlt) : (s.onVlt f).tck = s.tck := rfl
@[simp] theorem Dev.onVlt_tasks (f : Vlt → Vlt) : (s.onVlt f).tasks = s.tasks := rfl
@[simp] theorem Dev.onVlt_hif (f : Vlt → Vlt) : (s.onVlt f).hif = s.hif := rfl
@[simp] theorem Dev.onVlt_win (f : Vlt → Vlt) : (s.onVlt f).win = s.win := rfl
@[simp] theorem Dev.onVlt_qs (f : Vlt → Vlt) : (s.onVlt f).qs = s.qs := rfl
@[simp] theorem Dev.onVlt_mbx (f : Vlt → Vlt) : (s.onVlt f).mbx = s.mbx := rfl
@[simp] theorem Dev.onVlt_fields (f : Vlt → Vlt) : (s.onVlt f).fields = s.fields := rfl
@[simp] theorem Dev.onVlt_mpt (f : Vlt → Vlt) : (s.onVlt f).mpt = s.mpt := rfl
@[simp] theorem Dev.onVlt_cache (f : Vlt → Vlt) : (s.onVlt f).cache = s.cache := rfl
@[simp] theorem Dev.onVlt_mor (f : Vlt → Vlt) : (s.onVlt f).mor = s.mor := rfl
@[simp] theorem Dev.onVlt_mst (f : Vlt → Vlt) : (s.onVlt f).mst = s.mst := rfl
@[simp] theorem Dev.onVlt_hod (f : Vlt → Vlt) : (s.onVlt f).hod = s.hod := rfl
@[simp] theorem Dev.onVlt_drm (f : Vlt → Vlt) : (s.onVlt f).drm = s.drm := rfl
@[simp] theorem Dev.onVlt_vlt (f : Vlt → Vlt) : (s.onVlt f).vlt = f s.vlt := rfl
@[simp] theorem Dev.onVlt_twn (f : Vlt → Vlt) : (s.onVlt f).twn = s.twn := rfl
@[simp] theorem Dev.onVlt_lnk (f : Vlt → Vlt) : (s.onVlt f).lnk = s.lnk := rfl
@[simp] theorem Dev.onVlt_kst (f : Vlt → Vlt) : (s.onVlt f).kst = s.kst := rfl
@[simp] theorem Dev.onVlt_upd (f : Vlt → Vlt) : (s.onVlt f).upd = s.upd := rfl
@[simp] theorem Dev.onVlt_fbk (f : Vlt → Vlt) : (s.onVlt f).fbk = s.fbk := rfl
@[simp] theorem Dev.onVlt_sys (f : Vlt → Vlt) : (s.onVlt f).sys = s.sys := rfl
@[simp] theorem Dev.onVlt_freeCtr (f : Vlt → Vlt) : (s.onVlt f).freeCtr = s.freeCtr := rfl
@[simp] theorem Dev.onVlt_out (f : Vlt → Vlt) : (s.onVlt f).out = s.out := rfl

/-! ### onTwn -/

@[simp] theorem Dev.onTwn_cfg (f : Twn → Twn) : (s.onTwn f).cfg = s.cfg := rfl
@[simp] theorem Dev.onTwn_cfgNext (f : Twn → Twn) : (s.onTwn f).cfgNext = s.cfgNext := rfl
@[simp] theorem Dev.onTwn_ctr (f : Twn → Twn) : (s.onTwn f).ctr = s.ctr := rfl
@[simp] theorem Dev.onTwn_tck (f : Twn → Twn) : (s.onTwn f).tck = s.tck := rfl
@[simp] theorem Dev.onTwn_tasks (f : Twn → Twn) : (s.onTwn f).tasks = s.tasks := rfl
@[simp] theorem Dev.onTwn_hif (f : Twn → Twn) : (s.onTwn f).hif = s.hif := rfl
@[simp] theorem Dev.onTwn_win (f : Twn → Twn) : (s.onTwn f).win = s.win := rfl
@[simp] theorem Dev.onTwn_qs (f : Twn → Twn) : (s.onTwn f).qs = s.qs := rfl
@[simp] theorem Dev.onTwn_mbx (f : Twn → Twn) : (s.onTwn f).mbx = s.mbx := rfl
@[simp] theorem Dev.onTwn_fields (f : Twn → Twn) : (s.onTwn f).fields = s.fields := rfl
@[simp] theorem Dev.onTwn_mpt (f : Twn → Twn) : (s.onTwn f).mpt = s.mpt := rfl
@[simp] theorem Dev.onTwn_cache (f : Twn → Twn) : (s.onTwn f).cache = s.cache := rfl
@[simp] theorem Dev.onTwn_mor (f : Twn → Twn) : (s.onTwn f).mor = s.mor := rfl
@[simp] theorem Dev.onTwn_mst (f : Twn → Twn) : (s.onTwn f).mst = s.mst := rfl
@[simp] theorem Dev.onTwn_hod (f : Twn → Twn) : (s.onTwn f).hod = s.hod := rfl
@[simp] theorem Dev.onTwn_drm (f : Twn → Twn) : (s.onTwn f).drm = s.drm := rfl
@[simp] theorem Dev.onTwn_vlt (f : Twn → Twn) : (s.onTwn f).vlt = s.vlt := rfl
@[simp] theorem Dev.onTwn_twn (f : Twn → Twn) : (s.onTwn f).twn = f s.twn := rfl
@[simp] theorem Dev.onTwn_lnk (f : Twn → Twn) : (s.onTwn f).lnk = s.lnk := rfl
@[simp] theorem Dev.onTwn_kst (f : Twn → Twn) : (s.onTwn f).kst = s.kst := rfl
@[simp] theorem Dev.onTwn_upd (f : Twn → Twn) : (s.onTwn f).upd = s.upd := rfl
@[simp] theorem Dev.onTwn_fbk (f : Twn → Twn) : (s.onTwn f).fbk = s.fbk := rfl
@[simp] theorem Dev.onTwn_sys (f : Twn → Twn) : (s.onTwn f).sys = s.sys := rfl
@[simp] theorem Dev.onTwn_freeCtr (f : Twn → Twn) : (s.onTwn f).freeCtr = s.freeCtr := rfl
@[simp] theorem Dev.onTwn_out (f : Twn → Twn) : (s.onTwn f).out = s.out := rfl


/-! ### onLnk -/

@[simp] theorem Dev.onLnk_cfg (f : Lnk → Lnk) : (s.onLnk f).cfg = s.cfg := rfl
@[simp] theorem Dev.onLnk_cfgNext (f : Lnk → Lnk) : (s.onLnk f).cfgNext = s.cfgNext := rfl
@[simp] theorem Dev.onLnk_ctr (f : Lnk → Lnk) : (s.onLnk f).ctr = s.ctr := rfl
@[simp] theorem Dev.onLnk_tck (f : Lnk → Lnk) : (s.onLnk f).tck = s.tck := rfl
@[simp] theorem Dev.onLnk_tasks (f : Lnk → Lnk) : (s.onLnk f).tasks = s.tasks := rfl
@[simp] theorem Dev.onLnk_hif (f : Lnk → Lnk) : (s.onLnk f).hif = s.hif := rfl
@[simp] theorem Dev.onLnk_win (f : Lnk → Lnk) : (s.onLnk f).win = s.win := rfl
@[simp] theorem Dev.onLnk_qs (f : Lnk → Lnk) : (s.onLnk f).qs = s.qs := rfl
@[simp] theorem Dev.onLnk_mbx (f : Lnk → Lnk) : (s.onLnk f).mbx = s.mbx := rfl
@[simp] theorem Dev.onLnk_fields (f : Lnk → Lnk) : (s.onLnk f).fields = s.fields := rfl
@[simp] theorem Dev.onLnk_mpt (f : Lnk → Lnk) : (s.onLnk f).mpt = s.mpt := rfl
@[simp] theorem Dev.onLnk_cache (f : Lnk → Lnk) : (s.onLnk f).cache = s.cache := rfl
@[simp] theorem Dev.onLnk_mor (f : Lnk → Lnk) : (s.onLnk f).mor = s.mor := rfl
@[simp] theorem Dev.onLnk_mst (f : Lnk → Lnk) : (s.onLnk f).mst = s.mst := rfl
@[simp] theorem Dev.onLnk_hod (f : Lnk → Lnk) : (s.onLnk f).hod = s.hod := rfl
@[simp] theorem Dev.onLnk_drm (f : Lnk → Lnk) : (s.onLnk f).drm = s.drm := rfl
@[simp] theorem Dev.onLnk_vlt (f : Lnk → Lnk) : (s.onLnk f).vlt = s.vlt := rfl
@[simp] theorem Dev.onLnk_twn (f : Lnk → Lnk) : (s.onLnk f).twn = s.twn := rfl
@[simp] theorem Dev.onLnk_lnk (f : Lnk → Lnk) : (s.onLnk f).lnk = f s.lnk := rfl
@[simp] theorem Dev.onLnk_kst (f : Lnk → Lnk) : (s.onLnk f).kst = s.kst := rfl
@[simp] theorem Dev.onLnk_upd (f : Lnk → Lnk) : (s.onLnk f).upd = s.upd := rfl
@[simp] theorem Dev.onLnk_fbk (f : Lnk → Lnk) : (s.onLnk f).fbk = s.fbk := rfl
@[simp] theorem Dev.onLnk_sys (f : Lnk → Lnk) : (s.onLnk f).sys = s.sys := rfl
@[simp] theorem Dev.onLnk_freeCtr (f : Lnk → Lnk) : (s.onLnk f).freeCtr = s.freeCtr := rfl
@[simp] theorem Dev.onLnk_out (f : Lnk → Lnk) : (s.onLnk f).out = s.out := rfl

/-! ### onKst -/

@[simp] theorem Dev.onKst_cfg (f : Kst → Kst) : (s.onKst f).cfg = s.cfg := rfl
@[simp] theorem Dev.onKst_cfgNext (f : Kst → Kst) : (s.onKst f).cfgNext = s.cfgNext := rfl
@[simp] theorem Dev.onKst_ctr (f : Kst → Kst) : (s.onKst f).ctr = s.ctr := rfl
@[simp] theorem Dev.onKst_tck (f : Kst → Kst) : (s.onKst f).tck = s.tck := rfl
@[simp] theorem Dev.onKst_tasks (f : Kst → Kst) : (s.onKst f).tasks = s.tasks := rfl
@[simp] theorem Dev.onKst_hif (f : Kst → Kst) : (s.onKst f).hif = s.hif := rfl
@[simp] theorem Dev.onKst_win (f : Kst → Kst) : (s.onKst f).win = s.win := rfl
@[simp] theorem Dev.onKst_qs (f : Kst → Kst) : (s.onKst f).qs = s.qs := rfl
@[simp] theorem Dev.onKst_mbx (f : Kst → Kst) : (s.onKst f).mbx = s.mbx := rfl
@[simp] theorem Dev.onKst_fields (f : Kst → Kst) : (s.onKst f).fields = s.fields := rfl
@[simp] theorem Dev.onKst_mpt (f : Kst → Kst) : (s.onKst f).mpt = s.mpt := rfl
@[simp] theorem Dev.onKst_cache (f : Kst → Kst) : (s.onKst f).cache = s.cache := rfl
@[simp] theorem Dev.onKst_mor (f : Kst → Kst) : (s.onKst f).mor = s.mor := rfl
@[simp] theorem Dev.onKst_mst (f : Kst → Kst) : (s.onKst f).mst = s.mst := rfl
@[simp] theorem Dev.onKst_hod (f : Kst → Kst) : (s.onKst f).hod = s.hod := rfl
@[simp] theorem Dev.onKst_drm (f : Kst → Kst) : (s.onKst f).drm = s.drm := rfl
@[simp] theorem Dev.onKst_vlt (f : Kst → Kst) : (s.onKst f).vlt = s.vlt := rfl
@[simp] theorem Dev.onKst_twn (f : Kst → Kst) : (s.onKst f).twn = s.twn := rfl
@[simp] theorem Dev.onKst_lnk (f : Kst → Kst) : (s.onKst f).lnk = s.lnk := rfl
@[simp] theorem Dev.onKst_kst (f : Kst → Kst) : (s.onKst f).kst = f s.kst := rfl
@[simp] theorem Dev.onKst_upd (f : Kst → Kst) : (s.onKst f).upd = s.upd := rfl
@[simp] theorem Dev.onKst_fbk (f : Kst → Kst) : (s.onKst f).fbk = s.fbk := rfl
@[simp] theorem Dev.onKst_sys (f : Kst → Kst) : (s.onKst f).sys = s.sys := rfl
@[simp] theorem Dev.onKst_freeCtr (f : Kst → Kst) : (s.onKst f).freeCtr = s.freeCtr := rfl
@[simp] theorem Dev.onKst_out (f : Kst → Kst) : (s.onKst f).out = s.out := rfl

/-! ### onUpd -/

@[simp] theorem Dev.onUpd_cfg (f : Upd → Upd) : (s.onUpd f).cfg = s.cfg := rfl
@[simp] theorem Dev.onUpd_cfgNext (f : Upd → Upd) : (s.onUpd f).cfgNext = s.cfgNext := rfl
@[simp] theorem Dev.onUpd_ctr (f : Upd → Upd) : (s.onUpd f).ctr = s.ctr := rfl
@[simp] theorem Dev.onUpd_tck (f : Upd → Upd) : (s.onUpd f).tck = s.tck := rfl
@[simp] theorem Dev.onUpd_tasks (f : Upd → Upd) : (s.onUpd f).tasks = s.tasks := rfl
@[simp] theorem Dev.onUpd_hif (f : Upd → Upd) : (s.onUpd f).hif = s.hif := rfl
@[simp] theorem Dev.onUpd_win (f : Upd → Upd) : (s.onUpd f).win = s.win := rfl
@[simp] theorem Dev.onUpd_qs (f : Upd → Upd) : (s.onUpd f).qs = s.qs := rfl
@[simp] theorem Dev.onUpd_mbx (f : Upd → Upd) : (s.onUpd f).mbx = s.mbx := rfl
@[simp] theorem Dev.onUpd_fields (f : Upd → Upd) : (s.onUpd f).fields = s.fields := rfl
@[simp] theorem Dev.onUpd_mpt (f : Upd → Upd) : (s.onUpd f).mpt = s.mpt := rfl
@[simp] theorem Dev.onUpd_cache (f : Upd → Upd) : (s.onUpd f).cache = s.cache := rfl
@[simp] theorem Dev.onUpd_mor (f : Upd → Upd) : (s.onUpd f).mor = s.mor := rfl
@[simp] theorem Dev.onUpd_mst (f : Upd → Upd) : (s.onUpd f).mst = s.mst := rfl
@[simp] theorem Dev.onUpd_hod (f : Upd → Upd) : (s.onUpd f).hod = s.hod := rfl
@[simp] theorem Dev.onUpd_drm (f : Upd → Upd) : (s.onUpd f).drm = s.drm := rfl
@[simp] theorem Dev.onUpd_vlt (f : Upd → Upd) : (s.onUpd f).vlt = s.vlt := rfl
@[simp] theorem Dev.onUpd_twn (f : Upd → Upd) : (s.onUpd f).twn = s.twn := rfl
@[simp] theorem Dev.onUpd_lnk (f : Upd → Upd) : (s.onUpd f).lnk = s.lnk := rfl
@[simp] theorem Dev.onUpd_kst (f : Upd → Upd) : (s.onUpd f).kst = s.kst := rfl
@[simp] theorem Dev.onUpd_upd (f : Upd → Upd) : (s.onUpd f).upd = f s.upd := rfl
@[simp] theorem Dev.onUpd_fbk (f : Upd → Upd) : (s.onUpd f).fbk = s.fbk := rfl
@[simp] theorem Dev.onUpd_sys (f : Upd → Upd) : (s.onUpd f).sys = s.sys := rfl
@[simp] theorem Dev.onUpd_freeCtr (f : Upd → Upd) : (s.onUpd f).freeCtr = s.freeCtr := rfl
@[simp] theorem Dev.onUpd_out (f : Upd → Upd) : (s.onUpd f).out = s.out := rfl

/-! ### onFbk -/

@[simp] theorem Dev.onFbk_cfg (f : Fbk → Fbk) : (s.onFbk f).cfg = s.cfg := rfl
@[simp] theorem Dev.onFbk_cfgNext (f : Fbk → Fbk) : (s.onFbk f).cfgNext = s.cfgNext := rfl
@[simp] theorem Dev.onFbk_ctr (f : Fbk → Fbk) : (s.onFbk f).ctr = s.ctr := rfl
@[simp] theorem Dev.onFbk_tck (f : Fbk → Fbk) : (s.onFbk f).tck = s.tck := rfl
@[simp] theorem Dev.onFbk_tasks (f : Fbk → Fbk) : (s.onFbk f).tasks = s.tasks := rfl
@[simp] theorem Dev.onFbk_hif (f : Fbk → Fbk) : (s.onFbk f).hif = s.hif := rfl
@[simp] theorem Dev.onFbk_win (f : Fbk → Fbk) : (s.onFbk f).win = s.win := rfl
@[simp] theorem Dev.onFbk_qs (f : Fbk → Fbk) : (s.onFbk f).qs = s.qs := rfl
@[simp] theorem Dev.onFbk_mbx (f : Fbk → Fbk) : (s.onFbk f).mbx = s.mbx := rfl
@[simp] theorem Dev.onFbk_fields (f : Fbk → Fbk) : (s.onFbk f).fields = s.fields := rfl
@[simp] theorem Dev.onFbk_mpt (f : Fbk → Fbk) : (s.onFbk f).mpt = s.mpt := rfl
@[simp] theorem Dev.onFbk_cache (f : Fbk → Fbk) : (s.onFbk f).cache = s.cache := rfl
@[simp] theorem Dev.onFbk_mor (f : Fbk → Fbk) : (s.onFbk f).mor = s.mor := rfl
@[simp] theorem Dev.onFbk_mst (f : Fbk → Fbk) : (s.onFbk f).mst = s.mst := rfl
@[simp] theorem Dev.onFbk_hod (f : Fbk → Fbk) : (s.onFbk f).hod = s.hod := rfl
@[simp] theorem Dev.onFbk_drm (f : Fbk → Fbk) : (s.onFbk f).drm = s.drm := rfl
@[simp] theorem Dev.onFbk_vlt (f : Fbk → Fbk) : (s.onFbk f).vlt = s.vlt := rfl
@[simp] theorem Dev.onFbk_twn (f : Fbk → Fbk) : (s.onFbk f).twn = s.twn := rfl
@[simp] theorem Dev.onFbk_lnk (f : Fbk → Fbk) : (s.onFbk f).lnk = s.lnk := rfl
@[simp] theorem Dev.onFbk_kst (f : Fbk → Fbk) : (s.onFbk f).kst = s.kst := rfl
@[simp] theorem Dev.onFbk_upd (f : Fbk → Fbk) : (s.onFbk f).upd = s.upd := rfl
@[simp] theorem Dev.onFbk_fbk (f : Fbk → Fbk) : (s.onFbk f).fbk = f s.fbk := rfl
@[simp] theorem Dev.onFbk_sys (f : Fbk → Fbk) : (s.onFbk f).sys = s.sys := rfl
@[simp] theorem Dev.onFbk_freeCtr (f : Fbk → Fbk) : (s.onFbk f).freeCtr = s.freeCtr := rfl
@[simp] theorem Dev.onFbk_out (f : Fbk → Fbk) : (s.onFbk f).out = s.out := rfl

/-! ### onSys -/

@[simp] theorem Dev.onSys_cfg (f : Sys → Sys) : (s.onSys f).cfg = s.cfg := rfl
@[simp] theorem Dev.onSys_cfgNext (f : Sys → Sys) : (s.onSys f).cfgNext = s.cfgNext := rfl
@[simp] theorem Dev.onSys_ctr (f : Sys → Sys) : (s.onSys f).ctr = s.ctr := rfl
@[simp] theorem Dev.onSys_tck (f : Sys → Sys) : (s.onSys f).tck = s.tck := rfl
@[simp] theorem Dev.onSys_tasks (f : Sys → Sys) : (s.onSys f).tasks = s.tasks := rfl
@[simp] theorem Dev.onSys_hif (f : Sys → Sys) : (s.onSys f).hif = s.hif := rfl
@[simp] theorem Dev.onSys_win (f : Sys → Sys) : (s.onSys f).win = s.win := rfl
@[simp] theorem Dev.onSys_qs (f : Sys → Sys) : (s.onSys f).qs = s.qs := rfl
@[simp] theorem Dev.onSys_mbx (f : Sys → Sys) : (s.onSys f).mbx = s.mbx := rfl
@[simp] theorem Dev.onSys_fields (f : Sys → Sys) : (s.onSys f).fields = s.fields := rfl
@[simp] theorem Dev.onSys_mpt (f : Sys → Sys) : (s.onSys f).mpt = s.mpt := rfl
@[simp] theorem Dev.onSys_cache (f : Sys → Sys) : (s.onSys f).cache = s.cache := rfl
@[simp] theorem Dev.onSys_mor (f : Sys → Sys) : (s.onSys f).mor = s.mor := rfl
@[simp] theorem Dev.onSys_mst (f : Sys → Sys) : (s.onSys f).mst = s.mst := rfl
@[simp] theorem Dev.onSys_hod (f : Sys → Sys) : (s.onSys f).hod = s.hod := rfl
@[simp] theorem Dev.onSys_drm (f : Sys → Sys) : (s.onSys f).drm = s.drm := rfl
@[simp] theorem Dev.onSys_vlt (f : Sys → Sys) : (s.onSys f).vlt = s.vlt := rfl
@[simp] theorem Dev.onSys_twn (f : Sys → Sys) : (s.onSys f).twn = s.twn := rfl
@[simp] theorem Dev.onSys_lnk (f : Sys → Sys) : (s.onSys f).lnk = s.lnk := rfl
@[simp] theorem Dev.onSys_kst (f : Sys → Sys) : (s.onSys f).kst = s.kst := rfl
@[simp] theorem Dev.onSys_upd (f : Sys → Sys) : (s.onSys f).upd = s.upd := rfl
@[simp] theorem Dev.onSys_fbk (f : Sys → Sys) : (s.onSys f).fbk = s.fbk := rfl
@[simp] theorem Dev.onSys_sys (f : Sys → Sys) : (s.onSys f).sys = f s.sys := rfl
@[simp] theorem Dev.onSys_freeCtr (f : Sys → Sys) : (s.onSys f).freeCtr = s.freeCtr := rfl
@[simp] theorem Dev.onSys_out (f : Sys → Sys) : (s.onSys f).out = s.out := rfl

/-! ### onFields -/

@[simp] theorem Dev.onFields_cfg (f : List Field → List Field) : (s.onFields f).cfg = s.cfg := rfl
@[simp] theorem Dev.onFields_cfgNext (f : List Field → List Field) : (s.onFields f).cfgNext = s.cfgNext := rfl
@[simp] theorem Dev.onFields_ctr (f : List Field → List Field) : (s.onFields f).ctr = s.ctr := rfl
@[simp] theorem Dev.onFields_tck (f : List Field → List Field) : (s.onFields f).tck = s.tck := rfl
@[simp] theorem Dev.onFields_tasks (f : List Field → List Field) : (s.onFields f).tasks = s.tasks := rfl
@[simp] theorem Dev.onFields_hif (f : List Field → List Field) : (s.onFields f).hif = s.hif := rfl
@[simp] theorem Dev.onFields_win (f : List Field → List Field) : (s.onFields f).win = s.win := rfl
@[simp] theorem Dev.onFields_qs (f : List Field → List Field) : (s.onFields f).qs = s.qs := rfl
@[simp] theorem Dev.onFields_mbx (f : List Field → List Field) : (s.onFields f).mbx = s.mbx := rfl
@[simp] theorem Dev.onFields_fields (f : List Field → List Field) : (s.onFields f).fields = f s.fields := rfl
@[simp] theorem Dev.onFields_mpt (f : List Field → List Field) : (s.onFields f).mpt = s.mpt := rfl
@[simp] theorem Dev.onFields_cache (f : List Field → List Field) : (s.onFields f).cache = s.cache := rfl
@[simp] theorem Dev.onFields_mor (f : List Field → List Field) : (s.onFields f).mor = s.mor := rfl
@[simp] theorem Dev.onFields_mst (f : List Field → List Field) : (s.onFields f).mst = s.mst := rfl
@[simp] theorem Dev.onFields_hod (f : List Field → List Field) : (s.onFields f).hod = s.hod := rfl
@[simp] theorem Dev.onFields_drm (f : List Field → List Field) : (s.onFields f).drm = s.drm := rfl
@[simp] theorem Dev.onFields_vlt (f : List Field → List Field) : (s.onFields f).vlt = s.vlt := rfl
@[simp] theorem Dev.onFields_twn (f : List Field → List Field) : (s.onFields f).twn = s.twn := rfl
@[simp] theorem Dev.onFields_lnk (f : List Field → List Field) : (s.onFields f).lnk = s.lnk := rfl
@[simp] theorem Dev.onFields_kst (f : List Field → List Field) : (s.onFields f).kst = s.kst := rfl
@[simp] theorem Dev.onFields_upd (f : List Field → List Field) : (s.onFields f).upd = s.upd := rfl
@[simp] theorem Dev.onFields_fbk (f : List Field → List Field) : (s.onFields f).fbk = s.fbk := rfl
@[simp] theorem Dev.onFields_sys (f : List Field → List Field) : (s.onFields f).sys = s.sys := rfl
@[simp] theorem Dev.onFields_freeCtr (f : List Field → List Field) : (s.onFields f).freeCtr = s.freeCtr := rfl
@[simp] theorem Dev.onFields_out (f : List Field → List Field) : (s.onFields f).out = s.out := rfl

/-! ### emit -/

@[simp] theorem Dev.emit_cfg (o : Out) : (s.emit o).cfg = s.cfg := rfl
@[simp] theorem Dev.emit_cfgNext (o : Out) : (s.emit o).cfgNext = s.cfgNext := rfl
@[simp] theorem Dev.emit_ctr (o : Out) : (s.emit o).ctr = s.ctr := rfl
@[simp] theorem Dev.emit_tck (o : Out) : (s.emit o).tck = s.tck := rfl
@[simp] theorem Dev.emit_tasks (o : Out) : (s.emit o).tasks = s.tasks := rfl
@[simp] theorem Dev.emit_hif (o : Out) : (s.emit o).hif = s.hif := rfl
@[simp] theorem Dev.emit_win (o : Out) : (s.emit o).win = s.win := rfl
@[simp] theorem Dev.emit_qs (o : Out) : (s.emit o).qs = s.qs := rfl
@[simp] theorem Dev.emit_mbx (o : Out) : (s.emit o).mbx = s.mbx := rfl
@[simp] theorem Dev.emit_fields (o : Out) : (s.emit o).fields = s.fields := rfl
@[simp] theorem Dev.emit_mpt (o : Out) : (s.emit o).mpt = s.mpt := rfl
@[simp] theorem Dev.emit_cache (o : Out) : (s.emit o).cache = s.cache := rfl
@[simp] theorem Dev.emit_mor (o : Out) : (s.emit o).mor = s.mor := rfl
@[simp] theorem Dev.emit_mst (o : Out) : (s.emit o).mst = s.mst := rfl
@[simp] theorem Dev.emit_hod (o : Out) : (s.emit o).hod = s.hod := rfl
@[simp] theorem Dev.emit_drm (o : Out) : (s.emit o).drm = s.drm := rfl
@[simp] theorem Dev.emit_vlt (o : Out) : (s.emit o).vlt = s.vlt := rfl
@[simp] theorem Dev.emit_twn (o : Out) : (s.emit o).twn = s.twn := rfl
@[simp] theorem Dev.emit_lnk (o : Out) : (s.emit o).lnk = s.lnk := rfl
@[simp] theorem Dev.emit_kst (o : Out) : (s.emit o).kst = s.kst := rfl
@[simp] theorem Dev.emit_upd (o : Out) : (s.emit o).upd = s.upd := rfl
@[simp] theorem Dev.emit_fbk (o : Out) : (s.emit o).fbk = s.fbk := rfl
@[simp] theorem Dev.emit_sys (o : Out) : (s.emit o).sys = s.sys := rfl
@[simp] theorem Dev.emit_freeCtr (o : Out) : (s.emit o).freeCtr = s.freeCtr := rfl
@[simp] theorem Dev.emit_out (o : Out) : (s.emit o).out = s.out ++ [o] := rfl

/-! ### answer -/

@[simp] theorem Dev.answer_cfg (v : Option Nat) : (s.answer v).cfg = s.cfg := rfl
@[simp] theorem Dev.answer_cfgNext (v : Option Nat) : (s.answer v).cfgNext = s.cfgNext := rfl
@[simp] theorem Dev.answer_ctr (v : Option Nat) : (s.answer v).ctr = s.ctr := rfl
@[simp] theorem Dev.answer_tck (v : Option Nat) : (s.answer v).tck = s.tck := rfl
@[simp] theorem Dev.answer_tasks (v : Option Nat) : (s.answer v).tasks = s.tasks := rfl
@[simp] theorem Dev.answer_hif (v : Option Nat) : (s.answer v).hif = s.hif := rfl
@[simp] theorem Dev.answer_win (v : Option Nat) : (s.answer v).win = s.win := rfl
@[simp] theorem Dev.answer_qs (v : Option Nat) : (s.answer v).qs = s.qs := rfl
@[simp] theorem Dev.answer_mbx (v : Option Nat) : (s.answer v).mbx = s.mbx := rfl
@[simp] theorem Dev.answer_fields (v : Option Nat) : (s.answer v).fields = s.fields := rfl
@[simp] theorem Dev.answer_mpt (v : Option Nat) : (s.answer v).mpt = s.mpt := rfl
@[simp] theorem Dev.answer_cache (v : Option Nat) : (s.answer v).cache = s.cache := rfl
@[simp] theorem Dev.answer_mor (v : Option Nat) : (s.answer v).mor = s.mor := rfl
@[simp] theorem Dev.answer_mst (v : Option Nat) : (s.answer v).mst = s.mst := rfl
@[simp] theorem Dev.answer_hod (v : Option Nat) : (s.answer v).hod = s.hod := rfl
@[simp] theorem Dev.answer_drm (v : Option Nat) : (s.answer v).drm = s.drm := rfl
@[simp] theorem Dev.answer_vlt (v : Option Nat) : (s.answer v).vlt = s.vlt := rfl
@[simp] theorem Dev.answer_twn (v : Option Nat) : (s.answer v).twn = s.twn := rfl
@[simp] theorem Dev.answer_lnk (v : Option Nat) : (s.answer v).lnk = s.lnk := rfl
@[simp] theorem Dev.answer_kst (v : Option Nat) : (s.answer v).kst = s.kst := rfl
@[simp] theorem Dev.answer_upd (v : Option Nat) : (s.answer v).upd = s.upd := rfl
@[simp] theorem Dev.answer_fbk (v : Option Nat) : (s.answer v).fbk = s.fbk := rfl
@[simp] theorem Dev.answer_sys (v : Option Nat) : (s.answer v).sys = s.sys := rfl
@[simp] theorem Dev.answer_freeCtr (v : Option Nat) : (s.answer v).freeCtr = s.freeCtr := rfl
@[simp] theorem Dev.answer_out (v : Option Nat) : (s.answer v).out = s.out ++ [.mmio v] := rfl

/-! ### countN -/

@[simp] theorem Dev.countN_cfg (c : Ctr) (n : Nat) : (s.countN c n).cfg = s.cfg := rfl
@[simp] theorem Dev.countN_cfgNext (c : Ctr) (n : Nat) : (s.countN c n).cfgNext = s.cfgNext := rfl
@[simp] theorem Dev.countN_ctr (c : Ctr) (n : Nat) : (s.countN c n).ctr = s.ctr.set (ctrIx c) (min (s.ctr[ctrIx c] + n) maxCount) := rfl
@[simp] theorem Dev.countN_tck (c : Ctr) (n : Nat) : (s.countN c n).tck = s.tck := rfl
@[simp] theorem Dev.countN_tasks (c : Ctr) (n : Nat) : (s.countN c n).tasks = s.tasks := rfl
@[simp] theorem Dev.countN_hif (c : Ctr) (n : Nat) : (s.countN c n).hif = s.hif := rfl
@[simp] theorem Dev.countN_win (c : Ctr) (n : Nat) : (s.countN c n).win = s.win := rfl
@[simp] theorem Dev.countN_qs (c : Ctr) (n : Nat) : (s.countN c n).qs = s.qs := rfl
@[simp] theorem Dev.countN_mbx (c : Ctr) (n : Nat) : (s.countN c n).mbx = s.mbx := rfl
@[simp] theorem Dev.countN_fields (c : Ctr) (n : Nat) : (s.countN c n).fields = s.fields := rfl
@[simp] theorem Dev.countN_mpt (c : Ctr) (n : Nat) : (s.countN c n).mpt = s.mpt := rfl
@[simp] theorem Dev.countN_cache (c : Ctr) (n : Nat) : (s.countN c n).cache = s.cache := rfl
@[simp] theorem Dev.countN_mor (c : Ctr) (n : Nat) : (s.countN c n).mor = s.mor := rfl
@[simp] theorem Dev.countN_mst (c : Ctr) (n : Nat) : (s.countN c n).mst = s.mst := rfl
@[simp] theorem Dev.countN_hod (c : Ctr) (n : Nat) : (s.countN c n).hod = s.hod := rfl
@[simp] theorem Dev.countN_drm (c : Ctr) (n : Nat) : (s.countN c n).drm = s.drm := rfl
@[simp] theorem Dev.countN_vlt (c : Ctr) (n : Nat) : (s.countN c n).vlt = s.vlt := rfl
@[simp] theorem Dev.countN_twn (c : Ctr) (n : Nat) : (s.countN c n).twn = s.twn := rfl
@[simp] theorem Dev.countN_lnk (c : Ctr) (n : Nat) : (s.countN c n).lnk = s.lnk := rfl
@[simp] theorem Dev.countN_kst (c : Ctr) (n : Nat) : (s.countN c n).kst = s.kst := rfl
@[simp] theorem Dev.countN_upd (c : Ctr) (n : Nat) : (s.countN c n).upd = s.upd := rfl
@[simp] theorem Dev.countN_fbk (c : Ctr) (n : Nat) : (s.countN c n).fbk = s.fbk := rfl
@[simp] theorem Dev.countN_sys (c : Ctr) (n : Nat) : (s.countN c n).sys = s.sys := rfl
@[simp] theorem Dev.countN_freeCtr (c : Ctr) (n : Nat) : (s.countN c n).freeCtr = s.freeCtr := rfl
@[simp] theorem Dev.countN_out (c : Ctr) (n : Nat) : (s.countN c n).out = s.out := rfl

/-! ### count -/

@[simp] theorem Dev.count_cfg (c : Ctr) : (s.count c).cfg = s.cfg := rfl
@[simp] theorem Dev.count_cfgNext (c : Ctr) : (s.count c).cfgNext = s.cfgNext := rfl
@[simp] theorem Dev.count_ctr (c : Ctr) : (s.count c).ctr = s.ctr.set (ctrIx c) (min (s.ctr[ctrIx c] + 1) maxCount) := rfl
@[simp] theorem Dev.count_tck (c : Ctr) : (s.count c).tck = s.tck := rfl
@[simp] theorem Dev.count_tasks (c : Ctr) : (s.count c).tasks = s.tasks := rfl
@[simp] theorem Dev.count_hif (c : Ctr) : (s.count c).hif = s.hif := rfl
@[simp] theorem Dev.count_win (c : Ctr) : (s.count c).win = s.win := rfl
@[simp] theorem Dev.count_qs (c : Ctr) : (s.count c).qs = s.qs := rfl
@[simp] theorem Dev.count_mbx (c : Ctr) : (s.count c).mbx = s.mbx := rfl
@[simp] theorem Dev.count_fields (c : Ctr) : (s.count c).fields = s.fields := rfl
@[simp] theorem Dev.count_mpt (c : Ctr) : (s.count c).mpt = s.mpt := rfl
@[simp] theorem Dev.count_cache (c : Ctr) : (s.count c).cache = s.cache := rfl
@[simp] theorem Dev.count_mor (c : Ctr) : (s.count c).mor = s.mor := rfl
@[simp] theorem Dev.count_mst (c : Ctr) : (s.count c).mst = s.mst := rfl
@[simp] theorem Dev.count_hod (c : Ctr) : (s.count c).hod = s.hod := rfl
@[simp] theorem Dev.count_drm (c : Ctr) : (s.count c).drm = s.drm := rfl
@[simp] theorem Dev.count_vlt (c : Ctr) : (s.count c).vlt = s.vlt := rfl
@[simp] theorem Dev.count_twn (c : Ctr) : (s.count c).twn = s.twn := rfl
@[simp] theorem Dev.count_lnk (c : Ctr) : (s.count c).lnk = s.lnk := rfl
@[simp] theorem Dev.count_kst (c : Ctr) : (s.count c).kst = s.kst := rfl
@[simp] theorem Dev.count_upd (c : Ctr) : (s.count c).upd = s.upd := rfl
@[simp] theorem Dev.count_fbk (c : Ctr) : (s.count c).fbk = s.fbk := rfl
@[simp] theorem Dev.count_sys (c : Ctr) : (s.count c).sys = s.sys := rfl
@[simp] theorem Dev.count_freeCtr (c : Ctr) : (s.count c).freeCtr = s.freeCtr := rfl
@[simp] theorem Dev.count_out (c : Ctr) : (s.count c).out = s.out := rfl

/-! ### drew -/

@[simp] theorem Dev.drew_cfg : (s.drew).cfg = s.cfg := rfl
@[simp] theorem Dev.drew_cfgNext : (s.drew).cfgNext = s.cfgNext := rfl
@[simp] theorem Dev.drew_ctr : (s.drew).ctr = s.ctr := rfl
@[simp] theorem Dev.drew_tck : (s.drew).tck = s.tck := rfl
@[simp] theorem Dev.drew_tasks : (s.drew).tasks = s.tasks := rfl
@[simp] theorem Dev.drew_hif : (s.drew).hif = s.hif := rfl
@[simp] theorem Dev.drew_win : (s.drew).win = s.win := rfl
@[simp] theorem Dev.drew_qs : (s.drew).qs = s.qs := rfl
@[simp] theorem Dev.drew_mbx : (s.drew).mbx = s.mbx := rfl
@[simp] theorem Dev.drew_fields : (s.drew).fields = s.fields := rfl
@[simp] theorem Dev.drew_mpt : (s.drew).mpt = s.mpt := rfl
@[simp] theorem Dev.drew_cache : (s.drew).cache = s.cache := rfl
@[simp] theorem Dev.drew_mor : (s.drew).mor = s.mor := rfl
@[simp] theorem Dev.drew_mst : (s.drew).mst = s.mst := rfl
@[simp] theorem Dev.drew_hod : (s.drew).hod = s.hod := rfl
@[simp] theorem Dev.drew_drm : (s.drew).drm = s.drm := rfl
@[simp] theorem Dev.drew_vlt : (s.drew).vlt = s.vlt := rfl
@[simp] theorem Dev.drew_twn : (s.drew).twn = s.twn := rfl
@[simp] theorem Dev.drew_lnk : (s.drew).lnk = s.lnk := rfl
@[simp] theorem Dev.drew_kst : (s.drew).kst = s.kst := rfl
@[simp] theorem Dev.drew_upd : (s.drew).upd = s.upd := rfl
@[simp] theorem Dev.drew_fbk : (s.drew).fbk = s.fbk := rfl
@[simp] theorem Dev.drew_sys : (s.drew).sys = s.sys := rfl
@[simp] theorem Dev.drew_freeCtr : (s.drew).freeCtr = s.freeCtr + 1 := rfl
@[simp] theorem Dev.drew_out : (s.drew).out = s.out := rfl

end Sys2Proof.Machine
end

