-- ==== Sys2Proof/WellFormed.lean ====
section
/-!
DEFINITION. Which commands are well formed: every operand lies in the range that the spec gives it.
-/

namespace Sys2Proof

/-- A queue number: 0 to 1,023, or 1,024 for the admin pair (R305). -/
def wfQueue (q : Nat) : Bool := q ≤ 1024

/-- A field ID (R47). -/
def wfField (f : Nat) : Bool := f < 256

/-- A member ID: port × 64 + slot (R55). -/
def wfMember (m : Nat) : Bool := m < 256

/-- A field LBA (R317). -/
def wfLba (l : Nat) : Bool := l < 2 ^ 48

/-- A mailbox request: the payload has PAYLOAD_LEN bytes, or the length is wrong by at most the buffer (R354). -/
def wfReq (r : MbxReq) : Bool := r.payload.length ≤ 4080 && r.payload.length ≤ r.len && r.len < 2 ^ 32

/-- An MSI-X mask change names a vector of the table (R274). -/
def wfMask : MaskTarget → Bool
  | .vector v _ => v < 1040
  | .functionMask _ => true
  | .enable _ => true

/-- A namespace lies on a port (R462). -/
def wfNs (n : NsFound) : Bool := n.port < 4

/-- A line frame names a field and an LBA (R242). -/
def wfLine (l : LineFrame) : Bool := wfField l.field && wfLba l.lba

/-- Whether a command is well formed. -/
def Instr.wf : Instr → Bool
  | .commitPhase f => f.verifyFail.all (· < 6144) && f.correctable.all (· < 6144) && f.uncorrectable.all (· < 6144)
  | .read q _ _ | .write q _ | .flush q _ | .writeZeroes q _ | .deallocate q _ | .verify q _
  | .invalidOpcode q _ _ => wfQueue q
  | .lineRefetchDone f l _ => wfField f && wfLba l
  | .doorbellWrite o z => o < 16384 && 0 < z
  | .forbiddenTargetRead b _ z => [0, 2, 4, 6, 7].contains b && 0 < z
  | .forbiddenTargetWrite b _ z => [0, 2, 4, 6].contains b && 0 < z
  | .registerWrite _ o z v => o < 1048576 && 0 < z && v < 2 ^ (8 * z)
  | .tckCountLowRead o _ => o % 8 = 0
  | .tckCountHighRead o _ => o % 8 = 4
  | .windowWrite _ n d => 0 < n && d < 2 ^ (8 * n)
  | .windowRead _ n => 0 < n
  | .linkTrained s w _ => 1 ≤ s && s ≤ 6 && [1, 2, 4, 8, 16].contains w
  | .msixMaskChange t => wfMask t
  | .identify _ r | .deviceStatus _ r | .deviceReset _ r | .adminQueueCreate _ r | .adminQueueDelete _ r
  | .fieldCreate _ r | .fieldDelete _ r | .fieldOffline _ r | .fieldOnline _ r | .fieldStatus _ r
  | .fieldSetReadOnly _ r | .fieldReshape _ r | .fieldLostList _ r | .memberList _ r | .memberAddSpare _ r
  | .memberRemoveSpare _ r | .memberFail _ r | .memberRelease _ r | .memberRebuild _ r | .memberFormat _ r
  | .ledgerRead _ r | .ledgerInfo _ r | .certRead _ r | .ownerEnrol _ r _ | .ownerPolicy _ r | .updOpen _ r
  | .updChunk _ r | .updStatus _ r | .updClose _ r | .updAbort _ r | .updConfirm _ r | .fbkRead _ r _
  | .fbkInfo _ r | .paramGet _ r | .paramSet _ r | .paramInfo _ r | .twnStatus _ r | .twnHandover _ r
  | .twnReturn _ r | .twnAdopt _ r | .badOpcode _ _ r => wfReq r
  | .fieldOfflineDone f | .mstReplicaTick f | .scrubCourseStart f | .fieldScrubLate f | .rebuildCourseStart f
  | .reshapeStepStart f | .fieldRecovered f | .handoverDrained f => wfField f
  | .destageStart f _ _ _ | .resyncCourseStart f _ _ => wfField f
  | .rebuildStart f p | .rebuildTargetJoined f p => wfField f && p < 32
  | .memberControllerFatal m | .memberReadyTimeout m | .memberAsyncEvent m _ | .memberPathLost m
  | .memberPathReturned m | .memberPathGraceExpired m => wfMember m
  | .namespaceDiscovered n => wfNs n
  | .memberEnumerationDone l => l.all wfNs
  | .hodMoveDone r => r < 16
  | .drmChannelFailed c | .vaultNandFault c => c < 8
  | .vaultEraseDone e => e.slot < 2
  | .twinLinkTrained w => [0, 4, 8, 16].contains w
  | .line _ l | .bulkLine _ l => wfLine l
  | .release _ f l _ _ => wfField f && wfLba l
  | .mptPerstRelease p => p < 4
  | .sysThermalWarn _ n | .sysThermalClear _ n | .sysThermalTrip _ n => n < 16
  | .getCertificate _ s _ _ => s < 8
  | .challenge _ s _ => s < 8
  | .harvest n => 0 < n
  | _ => true

end Sys2Proof
end

