-- ==== Sys2Proof/Safety.lean ====
section
/-!
DEFINITION. What counts as a sound state of the block, in the terms that claims use.
-/

namespace Sys2Proof.Safety

open Sys2Proof.Machine

/-- The two byte memories of the block, the landing window and the request buffer, are in canonical form. -/
def MemOk (s : Dev) : Prop := memWf s.win.mem = true ∧ memWf s.mbx.reqBuf = true

/-- No counter parameter is above its maximum, 2⁶⁴ − 1 (R108). -/
def CtrOk (s : Dev) : Prop := ∀ x ∈ s.ctr.toList, x ≤ maxCount

/-- The parts of the Field Book hold no more than they have room for: the FIFO 64 records, the ring and the mirror ring 16,384
each, the Last Word 8 (R430 to R433). -/
def BookFits (k : Fbk) : Prop :=
  k.fifo.length ≤ 64 ∧ k.ring.length ≤ 16384 ∧ k.mirror.length ≤ 16384 ∧ k.lastWord.length ≤ 8

/-- A sound state of the block. -/
structure Sound (s : Dev) : Prop where
  mem : MemOk s
  ctr : CtrOk s
  book : BookFits s.fbk

/-- A sound state: the block is sound, and every command that waits is well formed. -/
def SoundState (s : State) : Prop := Sound s.toDev ∧ ∀ c ∈ s.pending, c.wf = true

end Sys2Proof.Safety
end

