-- ==== Sys2Proof/Certificates/Slice0/Obligations.lean ====
section
/-!
DEFINITION. The statements about the block, and the words they are made of.
-/

open Sys2Proof Sys2Proof.Machine Sys2Proof.Safety

namespace Sys2Proof.Claims

/-- The command completes: `exec` answers a next state with the same queue, whose block has the property `P`. -/
def Gives (i : Instr) (s : State) (P : Dev → Prop) : Prop := ∃ t : State, exec i s = .next t ∧ t.pending = s.pending ∧ P t.toDev

/-- The parts of the block. -/
inductive Part where
  | cfg | cfgNext | ctr | tck | tasks | hif | win | qs | mbx | fields | mpt | cache | mor | mst | hod | drm | vlt | twn | lnk | kst
  | upd | fbk | sys | freeCtr | out
  deriving DecidableEq, Repr

/-- A part is the same in two blocks. -/
def Part.Same (s t : Dev) : Part → Prop
  | .cfg => t.cfg = s.cfg | .cfgNext => t.cfgNext = s.cfgNext | .ctr => t.ctr = s.ctr | .tck => t.tck = s.tck
  | .tasks => t.tasks = s.tasks | .hif => t.hif = s.hif | .win => t.win = s.win | .qs => t.qs = s.qs | .mbx => t.mbx = s.mbx
  | .fields => t.fields = s.fields | .mpt => t.mpt = s.mpt | .cache => t.cache = s.cache | .mor => t.mor = s.mor
  | .mst => t.mst = s.mst | .hod => t.hod = s.hod | .drm => t.drm = s.drm | .vlt => t.vlt = s.vlt | .twn => t.twn = s.twn | .lnk => t.lnk = s.lnk
  | .kst => t.kst = s.kst | .upd => t.upd = s.upd | .fbk => t.fbk = s.fbk | .sys => t.sys = s.sys
  | .freeCtr => t.freeCtr = s.freeCtr | .out => t.out = s.out

/-- The frame: of all parts of the block only those of the list may differ. -/
def Only (l : List Part) (s t : Dev) : Prop := ∀ p, p ∉ l → p.Same s t

/-- The chip has emitted one thing more, and after it at most the read of submission entries that it makes to look for more, with the exit
of the link from L1 that such a read may need. -/
def Takes (s t : Dev) (o : Out) : Prop :=
  (∃ l, t.out = s.out ++ o :: l ∧ ∀ x ∈ l, x = .l1Exit ∨ ∃ r : HRead, x = .hostRead r) ∧ t.hif = { s.hif with l1 := t.hif.l1 }

/-- Frames can go out: a session lasts, and no dump has quiesced the chip. -/
def Linked (s : Dev) : Prop := s.twn.session.isSome = true ∧ s.vlt.dumpTick = false

/-- One frame goes out under the session key: with the sender's position and the count of frames sent as its nonce, in the flits that its
length needs, which spend as many credits. -/
def Sends (s t : Dev) (x : TwinTx) : Prop :=
  t.out = s.out ++ [.frame s.twn.position s.lnk.txFrames x] ∧
  t.lnk = { s.lnk with
    txSeq := s.lnk.txSeq + BitVec.ofNat 12 x.flits, credit := s.lnk.credit - x.flits, txFrames := s.lnk.txFrames + 1, kept := t.lnk.kept }

/-- A frame of the partner has been taken: it is counted as received, and beside that only the parts of the list may differ. -/
def Heard (s : State) (t : Dev) (l : List Part) : Prop :=
  t.lnk = { s.lnk with rxFrames := s.lnk.rxFrames + 1 } ∧ Only (.lnk :: l) s.toDev t

/-- A frame of the partner has been taken and answered with one frame, and beside that only the parts of the list may differ. -/
def Replies (s : State) (t : Dev) (x : TwinTx) (l : List Part) : Prop :=
  (∃ m : Dev, m.out = s.out ∧ m.twn.position = s.twn.position ∧ m.lnk = { s.lnk with rxFrames := s.lnk.rxFrames + 1 } ∧ Sends m t x) ∧
  Only (.lnk :: .out :: l) s.toDev t

/-- A frame has gone out. -/
def FrameOut (s t : Dev) (x : TwinTx) : Prop := ∃ n, Out.frame s.twn.position n x ∈ t.out

/-- Both mailboxes are free and the firmware serves: HIF_STATUS.READY is 1, the chip neither is in recovery nor frozen, a Trowel pair is
in service, BUSY is 0, and no command runs on either path. -/
def Idle (s : Dev) : Prop :=
  s.hif.ready = true ∧ s.hif.recovery = false ∧ s.sys.frozen = false ∧ s.kst.running = true ∧ s.sys.trwHalted.contains false = true ∧
  s.mbx.busy = false ∧ s.mbx.hostDiscard = false ∧ s.mbx.hostRun = none ∧ s.mbx.mgmtRun = none

/-- The response to a mailbox command: on the host path it stands in the response buffer with DONE set, BUSY clear and FAILED by its
status; on the management path it has been sent. -/
def Answered (t : Dev) (p : MbxPath) (op : BitVec 16) (st : Nat) (seq : BitVec 32) (l : List Byte) : Prop :=
  let resp : MbxResp := ⟨op, BitVec.ofNat 16 st, seq, l, BitVec.ofNat 32 t.sys.epoch⟩
  t.mbx.run? p = none ∧ match p with
  | .host => t.mbx.resp = some resp ∧ t.mbx.done = true ∧ t.mbx.busy = false ∧ t.mbx.failed = decide (st ≠ 0) ∧ t.mbx.lastSeq = seq
  | .mgmt => Out.mgmt resp ∈ t.out

/-- A mailbox command runs and waits for something. -/
def Waits (t : Dev) (p : MbxPath) (op : BitVec 16) (w : MbxWait) : Prop := ∃ r, t.mbx.run? p = some r ∧ r.opcode = op ∧ r.wait = w

/-- The parts that the end of a mailbox command may touch, records included. -/
def mbxParts : List Part := [.mbx, .ctr, .fbk, .hif, .out]

/-- A command reports: it is answered with OK and a payload, and changes nothing but its mailbox, counters, the registers of the host
endpoint that a message may touch, what is emitted, and the parts listed. -/
def Reports (s : State) (p : MbxPath) (r : MbxReq) (op : BitVec 16) (l : List Byte) (more : List Part) (t : Dev) : Prop :=
  Answered t p op 0 r.seq l ∧ Only ([.mbx, .ctr, .hif, .out] ++ more) s.toDev t

/-- A command is answered with a status other than OK and a payload, and has no other effect than its record. -/
def Refused (s : State) (p : MbxPath) (r : MbxReq) (op : BitVec 16) (st : Nat) (l : List Byte) (t : Dev) : Prop :=
  Answered t p op st r.seq l ∧ Only mbxParts s.toDev t

/-- The payload length of each mailbox command whose length is fixed (R356, R394, R406, R437). -/
def fixedLen (op : Nat) : Option Nat :=
  if op ∈ [0x0101, 0x0102, 0x0103, 0x0202, 0x0502, 0x0505, 0x0603, 0x0606, 0x0702, 0x0901, 0x0903] then some 0
  else if op ∈ [0x0302, 0x0303, 0x0304, 0x0305, 0x0306, 0x0308, 0x0402, 0x0403, 0x0404, 0x0405, 0x0406, 0x0407, 0x0503, 0x0604, 0x0605,
    0x0803, 0x0902, 0x0904] then some 8
  else if op = 0x0201 then some 24
  else if op = 0x0401 then some 4
  else if op = 0x0501 ∨ op = 0x0701 then some 16
  else if op = 0x0601 then some 48
  else none

/-- The request of a mailbox is served: both mailboxes are free, but the host endpoint may not be ready, or in recovery. -/
def IdleBut (ready recovery : Bool) (s : Dev) : Prop :=
  s.hif.ready = ready ∧ s.hif.recovery = recovery ∧ Idle { s with hif := { s.hif with ready := true, recovery := false } }

/-- A request names a visible field of this chip that no handover and no fence holds. -/
def Own (s : Dev) (r : MbxReq) (f : Field) : Prop :=
  s.field? (reqId r) = some f ∧ f.seen = true ∧ f.owned = true ∧ f.admitStop = false ∧ f.fenceWait = false

/-- The update lines have changed and are committed, which nothing waits for: while ticks run their batch is queued, else the Keystone has
programmed them. -/
def UpdKept (s : State) (t : Dev) (marker : Bool) (u : Upd) : Prop :=
  let m := if marker then some u.markerNow else none
  (s.tck.running = true → t.upd = u ∧
    t.mst = { s.mst with queue := s.mst.queue ++ [⟨1, if marker then 8 else 10, .update m (some u.sessionNow) none, none, none⟩] }) ∧
  (s.tck.running = false → t.upd = u.keep m (some u.sessionNow) ∧ t.mst = s.mst)

/-- A command of chapter Firmware Update has changed the update lines, which are committed: while ticks run the command waits with its
payload for the batch, which is queued; else the Keystone has programmed the lines and the command is answered. -/
def UpdDone (s : State) (t : Dev) (p : MbxPath) (op : BitVec 16) (seq : BitVec 32) (l : List Byte) (marker : Bool) (u : Upd) (more : List Part) : Prop :=
  let m := if marker then some u.markerNow else none
  (s.tck.running = true → Waits t p op (.update l) ∧ t.upd = u ∧
    t.mst = { s.mst with queue := s.mst.queue ++ [⟨1, if marker then 8 else 10, .update m (some u.sessionNow) (some p), none, none⟩] }) ∧
  (s.tck.running = false → Answered t p op 0 seq l ∧ t.upd = u.keep m (some u.sessionNow) ∧ t.mst = s.mst) ∧
  Only (.upd :: .mst :: mbxParts ++ more) s.toDev t

/-- The frames of the Twin Link that travel under the session key, with the verdict over their tag (R241, R242). -/
inductive IsFrame (ok : Bool) : Instr → Prop where
  | heartbeat h : IsFrame ok (.heartbeat ok h)
  | ckptLine l last : IsFrame ok (.ckptLine ok l last)
  | line l : IsFrame ok (.line ok l)
  | release f lba n v : IsFrame ok (.release ok f lba n v)
  | windowPage page data : IsFrame ok (.windowPage ok page data)
  | fbkRecord r : IsFrame ok (.fbkRecord ok r)
  | bulkLine l : IsFrame ok (.bulkLine ok l)
  | bulkDone a b : IsFrame ok (.bulkDone ok a b)
  | pairHello h : IsFrame ok (.pairHello ok h)
  | agree final l : IsFrame ok (.agree ok final l)
  | fieldReserve f p : IsFrame ok (.fieldReserve ok f p)
  | handoverOffer f a b g : IsFrame ok (.handoverOffer ok f a b g)
  | handoverAccept f acc : IsFrame ok (.handoverAccept ok f acc)
  | paramSync p id ix v tick : IsFrame ok (.paramSync ok p id ix v tick)
  | fieldKeys u f b : IsFrame ok (.fieldKeys ok u f b)

/-- A job of a kind for a course starts and waits for its locks; the other jobs are as they were. -/
def StartsJob (s t : Dev) (k : JobKind) (f c : Nat) (g : Bool) : Prop :=
  (∃ j ∈ t.cache.jobs, j.id = s.cache.nextJob ∧ j.kind = k ∧ j.field = f ∧ j.course = c ∧ j.geom = g ∧ j.stage = .waitLock) ∧
  (∀ j ∈ s.cache.jobs, j ∈ t.cache.jobs) ∧ t.cache.nextJob = s.cache.nextJob + 1

/-- A full start-up of the block up to the end of the boot ROM run (R368, R441, R442, column Cold of R448): the parts at their
cold-reset values, and what the non-volatile stores keep, as their last batch has landed. -/
def Started (s : Dev) (kind : Nat) (b : BootEnv) (t : Dev) : Prop :=
  (t.cfg = s.cfgNext ∧ t.cfgNext = s.cfgNext ∧ t.tck = .reset ∧ t.tasks = .reset ∧ t.win = .reset ∧ t.qs = .reset ∧ t.mbx = .reset ∧
    t.cache = .reset ∧ t.mor = .reset ∧ t.hod = .reset ∧ t.fbk = .reset ∧ t.lnk = .reset ∧ ∀ c, c ≠ .updFallbacks → c ≠ .mstEccUncorrected → t.ctr[ctrIx c] = 0) ∧
  t.sys = { Sys.reset with pwrGood := true, pwrfailLow := s.sys.pwrfailLow, bootKind := kind, gpio2 := t.sys.gpio2, gpio3 := t.sys.gpio3, fuse := s.sys.fuse } ∧
  (t.hif.hold = false ∧ t.hif.ready = t.hif.recovery ∧ t.hif.bar0 = none ∧ t.hif.bme = false ∧ t.hif.mse = false) ∧
  (t.mpt.members = [] ∧ t.mpt.domainMap = s.mpt.domainNext ∧ t.mpt.perst = 0 ∧ t.mpt.slots = s.mpt.slots ∧ t.mpt.cleared = s.mpt.cleared) ∧
  (t.mst.entries = s.mst.entries ∧ t.mst.coarse = s.mst.coarse ∧ t.mst.fine = s.mst.fine ∧ t.mst.leases = s.mst.leases ∧ t.mst.slots = s.mst.slots ∧
    t.mst.reshapes = s.mst.reshapes ∧ t.mst.queue = []) ∧
  (t.kst.secrets = s.kst.secrets ∧ t.kst.keySlots = [] ∧ t.kst.nonceHost = none ∧ t.kst.nonceMgmt = none) ∧
  (t.twn.mode = decide (s.cfgNext[cfgIx .twnMode] = 1) ∧ t.twn.state = (if s.cfgNext[cfgIx .twnMode] = 1 then 1 else 0) ∧ t.twn.session = none) ∧
  (t.fields.map (·.uuid) = (s.fields.map (·.uuid)).filter (fun u => s.kst.secrets.any fun k => k.1 = u) ∧ ∀ f ∈ t.fields, f.recovering = true ∧ f.assembled = false ∧
    f.homeIndex = ((s.entry? f.id).filter fun e => e.uuid = f.uuid).bind (·.home)) ∧
  (b.romOk = false → t.kst.running = false ∧ t.upd = s.upd.atStart) ∧
  (b.romOk = true → ¬([4, 5, 6, 7].all b.badCounterLines.contains = true) → t.mst.bootCount = s.mst.counterKept.bootCount + 1 ∧ t.mst.counterKept.bootCount = t.mst.bootCount)

/-- The vault after a start: its slots with the erase of a consumed one going on, and no dump, restore or latch. -/
def VaultStarted (v w : Vlt) : Prop :=
  w.slots = v.slots.map (fun x => { x with erasing := x.erasing || x.consumed }) ∧ w.dumpSeq = v.dumpSeq ∧ w.retired = v.retired ∧ w.failedCh = v.failedCh ∧
  w.dumping = none ∧ w.restoring = none ∧ w.pwrfailLatched = false ∧ w.armed = false ∧ w.dumpKey = none ∧ w.dumpRoom = none

end Sys2Proof.Claims

open Sys2Proof.Claims

/-- The block takes its commands first in, first out. -/
def Obligations.StepTakesTheFront : Prop :=
  ∀ (c : Instr) (rest : List Instr) (s : State), s.pending = c :: rest → step s = exec c { s with pending := rest }

/-- The model's choice, log entry 2: nothing happens without a command. -/
def Obligations.EmptyQueueIdles : Prop :=
  ∀ s : State, s.pending = [] → step s = .next s

/-- Every event of the table has an effect or leaves the device as it is. -/
def Obligations.EveryCommandGoesOn : Prop :=
  ∀ (i : Instr) (s : State), ∃ t : State, exec i s = .next t ∧ t.pending = s.pending

/-- The invariant of `SoundIsKept` holds at the start. -/
def Obligations.ResetIsSound : Prop :=
  SoundState State.reset

/-- The invariant of the whole block, over all 217 commands. -/
def Obligations.SoundIsKept : Prop :=
  ∀ s s' : State, SoundState s → step s = .next s' → SoundState s'

/-- Cycle 0 of a tick. -/
def Obligations.CountAdvancesAtTheBoundary : Prop :=
  ∀ s : State, Sound s.toDev → s.tck.running = true → s.sys.frozen = false → s.vlt.dumpTick = false → s.tck.gapsDue = [] →
    Gives .tickBoundary s fun t => t.tck.count = s.tck.count + 1 ∧ t.tck.phase = .admission ∧ t.tck.phaseIdx = 0

/-- During a gap no phase runs and TCK_COUNT does not advance. Two gaps at one boundary: log entry 100. -/
def Obligations.GapTakesThePlaceOfATick : Prop :=
  ∀ (s : State) (g : GapKind × Nat) (rest : List (GapKind × Nat)), Sound s.toDev → s.tck.running = true → s.sys.frozen = false →
    s.vlt.dumpTick = false → s.tck.gapsDue = g :: rest →
    Gives .tickBoundary s fun t =>
      t.tck.count = s.tck.count ∧ t.tck.phase = .gap ∧ t.tck.gapNow = some g ∧ t.tck.gapNext = rest ∧
      ∀ u : State, u.toDev = t → ∀ x, exec .admitPhase u = .next u ∧ exec .mirrorPhase u = .next u ∧
        exec (.commitPhase x) u = .next u ∧ exec .issuePhase u = .next u ∧ exec .retirePhase u = .next u

/-- Step 2 of R225: no commit, no member command and no upstream request any more. -/
def Obligations.DumpLeavesOnlyTheCount : Prop :=
  ∀ s : State, s.tck.running = true → s.sys.frozen = false → s.vlt.dumpTick = true →
    Gives .tickBoundary s (fun t => t.tck.count = s.tck.count + 1 ∧ Only [.tck] s.toDev t) ∧
    ∀ x, exec .admitPhase s = .next s ∧ exec .mirrorPhase s = .next s ∧ exec (.commitPhase x) s = .next s ∧
      exec .issuePhase s = .next s ∧ exec .retirePhase s = .next s

/-- The five windows of a tick. That a phase passed over is left out is the model's choice (log entry 40). -/
def Obligations.PhasesInOrder : Prop :=
  ∀ (s : State) (x : MstFaults), Sound s.toDev → s.awake = true → s.tck.gapNow = none →
    (s.tck.phaseIdx = 0 → Gives .admitPhase s fun t => t.tck.phase = .admission ∧ t.tck.phaseIdx = 1 ∧ t.tck.count = s.tck.count) ∧
    (s.tck.phaseIdx < 2 → Gives .mirrorPhase s fun t => t.tck.phase = .mirror ∧ t.tck.phaseIdx = 2 ∧ t.tck.count = s.tck.count) ∧
    (s.tck.phaseIdx < 3 → Gives (.commitPhase x) s fun t => t.tck.phase = .commit ∧ t.tck.phaseIdx = 3 ∧ t.tck.count = s.tck.count) ∧
    (s.tck.phaseIdx < 4 → Gives .issuePhase s fun t => t.tck.phase = .issue ∧ t.tck.phaseIdx = 4 ∧ t.tck.count = s.tck.count) ∧
    (s.tck.phaseIdx < 5 → Gives .retirePhase s fun t => t.tck.phase = .retire ∧ t.tck.phaseIdx = 5 ∧ t.tck.count = s.tck.count) ∧
    (1 ≤ s.tck.phaseIdx → exec .admitPhase s = .next s) ∧ (2 ≤ s.tck.phaseIdx → exec .mirrorPhase s = .next s) ∧
    (3 ≤ s.tck.phaseIdx → exec (.commitPhase x) s = .next s) ∧ (4 ≤ s.tck.phaseIdx → exec .issuePhase s = .next s) ∧
    (5 ≤ s.tck.phaseIdx → exec .retirePhase s = .next s)

/-- The limit per tick of the Issue phase. -/
def Obligations.IssueLimit : Prop :=
  ∀ s : State, s.mayBegin 4 = true → s.mpt.issuedNow ≤ 2048 → Gives .issuePhase s fun t => t.mpt.issuedNow ≤ 2048

/-- Hardware enforces the 64 commits of a tick, whatever any task posted. -/
def Obligations.BatchLimit : Prop :=
  ∀ s : State, s.fillBatch.lines.length ≤ 64

/-- One register for each task, set whole by one write. -/
def Obligations.TasksPostOnce : Prop :=
  ∀ s : State,
    (s.mayPost .quota = true → Gives .writeQuota s (fun t => t.tasks = { s.tasks with quotaReg := some s.quotaOf } ∧ Only [.tasks] s.toDev t) ∧
      ∀ n, Gives (.taskResultPosted (.quota n)) s fun t => t.tasks = { s.tasks with quotaReg := some n } ∧ Only [.tasks] s.toDev t) ∧
    (s.mayPost .leases = true → Gives .furrowMapRegionLeases s (fun t =>
        t.tasks = { s.tasks with leasesReg := some (s.fineReleases ++ s.fineGrants) } ∧ Only [.tasks] s.toDev t) ∧
      ∀ l, Gives (.taskResultPosted (.leases l)) s fun t => t.tasks = { s.tasks with leasesReg := some l } ∧ Only [.tasks] s.toDev t) ∧
    (s.mayPost .share = true → Gives .rebuildShare s (fun t => t.tasks = { s.tasks with shareReg := some s.shareNow } ∧ Only [.tasks] s.toDev t) ∧
      ∀ n, Gives (.taskResultPosted (.share n)) s fun t => t.tasks = { s.tasks with shareReg := some n } ∧ Only [.tasks] s.toDev t) ∧
    (s.mayPost .checkpoint = true → Gives .twinCheckpoint s (fun t => t.tasks = { s.tasks with ckptReg := true } ∧ Only [.tasks] s.toDev t) ∧
      Gives (.taskResultPosted .checkpoint) s fun t => t.tasks = { s.tasks with ckptReg := true } ∧ Only [.tasks] s.toDev t) ∧
    (s.mayPost .faults = true → Gives .memberFaultDecisions s (fun t =>
        t.tasks.faultsReg = some (s.tasks.faultEvents ++ s.overThreshold) ∧ t.tasks.faultEvents = [] ∧ Only [.tasks] s.toDev t) ∧
      ∀ l, Gives (.taskResultPosted (.faults l)) s fun t => t.tasks.faultsReg = some l ∧ Only [.tasks] s.toDev t) ∧
    (s.mayPost .slots = true → Gives .intentSlotLeases s (fun t => ∃ g, t.tasks = { s.tasks with slotsReg := some g } ∧ total (g.map (·.2)) ≤ s.looseRoom ∧
        (∀ e ∈ g, ∃ f ∈ s.fields, f.id = e.1 ∧ f.fineUse = true ∧ f.owned = true) ∧ Only [.tasks, .freeCtr] s.toDev t) ∧
      ∀ g, Gives (.taskResultPosted (.slots g)) s fun t => t.tasks = { s.tasks with slotsReg := some g } ∧ Only [.tasks] s.toDev t)

/-- Overruns and the storm of overruns. -/
def Obligations.OverrunsAreCounted : Prop :=
  ∀ (s : State) (k : TaskId), s.awake = true →
    (s.tck.phaseIdx = 5 → s.tasks.posted k = false → k ∉ s.tck.overrunNow →
      Gives (.tckOverrun k) s fun t =>
        t.tck.overrunCount = (if s.tck.overrunCount = BitVec.allOnes 64 then s.tck.overrunCount else s.tck.overrunCount + 1) ∧
        t.tck.overrunTask = BitVec.ofNat 8 (taskCode k) ∧ t.tck.overrunTick = (s.tck.count + 1).setWidth 48 ∧
        t.fbk = (s.toDev.record 0x0101 (s.src 4 0x0F0) (taskCode k) 0 0).fbk ∧ Only [.tck, .fbk, .ctr] s.toDev t) ∧
    (s.tck.overrunNow ≠ [] → s.tck.stormFired = false → s.param .tckStormTicks ≤ s.tck.stormRun + 1 →
      Gives .tckOverrunStorm s fun t =>
        t.tck.storm = true ∧ t.hif.events.getLsbD 5 = true ∧ t.fbk = (s.toDev.record 0x0102 (s.src 4 0x0F0) 0 0 0).fbk ∧
        Only [.tck, .fbk, .ctr, .hif, .out] s.toDev t)

/-- Consumption of the six I/O opcodes and of an opcode that is none of them. -/
def Obligations.EntriesAreConsumed : Prop :=
  ∀ (s : State) (q : Nat) (p : QPair) (e : SqEntry) (i : Instr), Sound s.toDev → s.mayConsume q = true → q ≠ 1024 → s.pair? q = some p → 0 < p.sqN →
    ((∃ fs, i = .read q e fs) ∨ i ∈ [.write q e, .flush q e, .writeZeroes q e, .deallocate q e, .verify q e] ∨
      ∃ op, i = .invalidOpcode q op e ∧ opOf op.toNat = none) →
    Gives i s fun t => Out.consume q p.scanPos ∈ t.out ∧ s.out <+: t.out ∧
      min (s.ctr[ctrIx .dblConsumed] + 1) maxCount ≤ t.ctr[ctrIx .dblConsumed] ∧ t.tck.count = s.tck.count ∧
      t.tck.phaseIdx = s.tck.phaseIdx

/-- The outcomes of R324, and the frame of a refused entry. -/
def Obligations.RefusedEntriesFinish : Prop :=
  ∀ (s : State) (q : Nat) (p : QPair) (e : SqEntry), s.mayConsume q = true → q ≠ 1024 → s.pair? q = some p → 0 < p.sqN → p.batching = false →
    let cap := ((s.field? e.fieldId.toNat).filter (·.seen)).map (·.capacity)
    let ends (st d : BitVec 16) (t : Dev) : Prop :=
      (∃ p' ids, t.pair? q = some p' ∧ p'.waiting = p.waiting ++ [(ids, ⟨false, false, st, e.tag, BitVec.ofNat 16 p.scanPos, 1, d⟩)]) ∧
      t.ctr[ctrIx .dblRejected] = min (s.ctr[ctrIx .dblRejected] + 1) maxCount ∧ Takes s.toDev t (.consume q p.scanPos) ∧
      t.qs.handled = s.qs.handled + 1 ∧ t.qs.admitted = s.qs.admitted ∧ Only [.qs, .ctr, .hif, .out] s.toDev t
    (∀ op, opOf op.toNat = none → Gives (.invalidOpcode q op e) s (ends 0x0001 0)) ∧
    (∀ st d fs, checkEntry p.fieldSet cap .read e = some (st, d) → Gives (.read q e fs) s (ends st d)) ∧
    (∀ st d, checkEntry p.fieldSet cap .write e = some (st, d) → Gives (.write q e) s (ends st d)) ∧
    (∀ st d, checkEntry p.fieldSet cap .flush e = some (st, d) → Gives (.flush q e) s (ends st d)) ∧
    (∀ st d, checkEntry p.fieldSet cap .writeZeroes e = some (st, d) → Gives (.writeZeroes q e) s (ends st d)) ∧
    (∀ st d, checkEntry p.fieldSet cap .deallocate e = some (st, d) → Gives (.deallocate q e) s (ends st d)) ∧
    ∀ st d, checkEntry p.fieldSet cap .verify e = some (st, d) → Gives (.verify q e) s (ends st d)

/-- Checks 2 and 3 of R324. DETAIL of the range checks is the offset of NLB. -/
def Obligations.ChecksOfAnEntry : Prop :=
  ∀ (fs : BitVec 256) (cap : Option Nat) (op : HostOp) (e : SqEntry),
    let range := op = .read ∨ op = .write ∨ op = .writeZeroes ∨ op = .verify
    let len := range ∧ ¬(1 ≤ e.nlb.toNat ∧ e.nlb.toNat ≤ 8192)
    let beyond := range ∧ ∃ k, cap = some k ∧ k < e.lba.toNat + e.nlb.toNat
    (fs.getLsbD e.fieldId.toNat = false → checkEntry fs cap op e = some (0x0002, 0x04)) ∧
    (fs.getLsbD e.fieldId.toNat = true → len → checkEntry fs cap op e = some (0x0002, 0x10)) ∧
    (fs.getLsbD e.fieldId.toNat = true → ¬len → beyond → checkEntry fs cap op e = some (0x0004, 0)) ∧
    (fs.getLsbD e.fieldId.toNat = true → ¬len → ¬beyond → op = .deallocate → 256 < e.nlb.toNat → checkEntry fs cap op e = some (0x0002, 0x10)) ∧
    (fs.getLsbD e.fieldId.toNat = true → ¬len → ¬beyond → ¬(op = .deallocate ∧ 256 < e.nlb.toNat) → checkEntry fs cap op e = none)

/-- The write quota of R33. -/
def Obligations.WritesBeyondTheQuotaAreHeld : Prop :=
  ∀ (s : State) (q : Nat) (p : QPair) (e : SqEntry) (i : Instr) (op : HostOp), s.mayConsume q = true → q ≠ 1024 → s.pair? q = some p → 0 < p.sqN → p.batching = false → s.tasks.quota ≤ s.qs.admitted →
    (i, op) ∈ [(Instr.write q e, HostOp.write), (.writeZeroes q e, .writeZeroes), (.deallocate q e, .deallocate)] →
    checkEntry p.fieldSet (((s.field? e.fieldId.toNat).filter (·.seen)).map (·.capacity)) op e = none →
    Gives i s fun t =>
      (∃ c, t.qs.cmds = s.qs.cmds ++ [c] ∧ c.stage = .held ∧ c.op = op ∧ c.e = e ∧ c.qid = q ∧ c.sqIndex = p.scanPos) ∧
      t.qs.handled = s.qs.handled + 1 ∧ t.qs.admitted = s.qs.admitted ∧ Takes s.toDev t (.consume q p.scanPos) ∧
      Only [.qs, .ctr, .hif, .out] s.toDev t

/-- What makes the queue engine look at a ring. AER status bit 20: log entry 124. -/
def Obligations.RingsAreReadAgain : Prop :=
  ∀ s : State,
    (∀ off size, s.memUp = true →
      (doorbellForm off size = false → Gives (.doorbellWrite off size) s fun t =>
        t.hif = { s.hif with dropped := bump64 s.hif.dropped } ∧
        t.fbk = ((s.toDev.record 0x1008 (s.src 4 0x0B0) 20 0 0).record 0x1004 (s.src 4 0x0B0) 0 0 0).fbk ∧
        Only [.hif, .fbk, .ctr] s.toDev t) ∧
      (doorbellForm off size = true → s.hif.hold = true → Gives (.doorbellWrite off size) s fun t =>
        t.hif = { s.hif with holdDoorbells := bump64 s.hif.holdDoorbells } ∧ Only [.hif] s.toDev t) ∧
      (doorbellForm off size = true → s.hif.hold = false → s.pair? (off / 8) = none → Gives (.doorbellWrite off size) s fun t =>
        t.hif = { s.hif with dropped := bump64 s.hif.dropped } ∧ Only [.hif] s.toDev t) ∧
      (∀ p, doorbellForm off size = true → s.hif.hold = false → s.pair? (off / 8) = some p → p.live = true →
        Gives (.doorbellWrite off size) s fun t =>
          t.pair? (off / 8) = some { p with pendingFlag := true, reread := p.stalled || p.reread } ∧
          t.hif = { s.hif with lastDoorbell := some s.tck.count } ∧ Only [.qs, .hif] s.toDev t)) ∧
    (s.awake = true → s.tck.phaseIdx = 0 → s.param .dblScanTicks ≠ 0 → s.now % s.param .dblScanTicks = 0 →
      Gives .periodicScan s fun t =>
        t.qs = { s.qs with pairs := s.qs.pairs.map fun p => if p.live then { p with pendingFlag := true } else p } ∧
        Only [.qs] s.toDev t) ∧
    (s.awake = true → s.now % s.param .dblStallPollTicks = 0 → Gives .stallPoll s fun t =>
      t.qs = { s.qs with pairs := s.qs.pairs.map fun p => if p.stalled then { p with reread := true } else p } ∧ Only [.qs] s.toDev t)

/-- The outcomes of R294 for a read of submission entries. The AER status bits are the model's choice, log entry 124. -/
def Obligations.HostReadsThatFail : Prop :=
  ∀ (s : State) (r : HRead) (q pos n : Nat) (p : QPair), s.sys.frozen = false → s.tck.phaseIdx ≠ 1 → (∀ x ∈ s.qs.hreads, x.waiting = false) →
    s.read? r.id = some r → r.purpose = .sqBurst q pos n → s.pair? q = some p →
    Gives (.hostReadTimeout r.id) s (fun t =>
      t.pair? q = some { p with burst := none, pendingFlag := false, sawEmpty := false } ∧
      t.qs.hreads = s.qs.hreads.filter (fun x => x.id ≠ r.id) ∧ r.id ∈ t.qs.timedOut ∧
      t.hif.cplTimeouts = bump64 s.hif.cplTimeouts ∧ t.hif.events.getLsbD 10 = true ∧
      t.fbk = ((s.toDev.record 0x1008 (s.src 4 0x0B0) 14 0 0).record 0x1006 (s.src 4 0x0B0) 0 0 0).fbk ∧ Only [.qs, .hif, .fbk, .ctr, .out] s.toDev t) ∧
    ∀ e k, (e, k) ∈ [(HostReadErr.unsupportedRequest, 1), (.completerAbort, 2), (.poisoned, 3)] →
      let a := if e = .poisoned then s.toDev.record 0x1008 (s.src 4 0x0B0) 12 0 0 else s.toDev
      Gives (.hostReadError r.id e) s fun t =>
        t.pair? q = some { p with burst := none, pendingFlag := false, sawEmpty := false } ∧
        t.qs.hreads = s.qs.hreads.filter (fun x => x.id ≠ r.id) ∧ t.fbk = (a.record 0x1007 (s.src 4 0x0B0) k 0 0).fbk ∧
        Only [.qs, .fbk, .ctr] s.toDev t

/-- What a completion for a read of completion entries brings. -/
def Obligations.CompletionEntriesReadAhead : Prop :=
  ∀ (s : State) (id q pos n addr len : Nat) (p : QPair) (l : List Bool), s.sys.frozen = false → s.awake = true → s.tck.phaseIdx ≠ 5 →
    (∀ x ∈ s.qs.hreads, x.waiting = false) → s.read? id = some ⟨id, .cqBurst q pos n, addr, len, false⟩ → s.pair? q = some p → p.stalled = false →
    (0 < ownedRun (l.take n) → Gives (.hostReadCompletion id (.cqOwn l)) s fun t =>
      t.pair? q = some { p with cqRead := none, cqKnown := ownedRun (l.take n) } ∧
      t.qs.hreads = s.qs.hreads.filter (fun x => x.id ≠ id) ∧ Only [.qs] s.toDev t) ∧
    (ownedRun (l.take n) = 0 → p.waiting ≠ [] → Gives (.hostReadCompletion id (.cqOwn l)) s fun t =>
      t.pair? q = some { p with cqRead := none, cqKnown := 0, stalled := true, reread := false } ∧
      t.hif.events.getLsbD 0 = true ∧ t.ctr[ctrIx .dblCqStalls] ≥ min (s.ctr[ctrIx .dblCqStalls] + 1) maxCount ∧
      t.fbk.last = (s.toDev.record 0x2001 (s.src 1 q) p.postPos 0 0).fbk.last ∧ Only [.qs, .hif, .fbk, .ctr, .out] s.toDev t)

/-- R295: the late data is never used. -/
def Obligations.LateCompletionsAreDiscarded : Prop :=
  ∀ (s : State) (id : Nat), s.sys.frozen = false → id ∈ s.qs.timedOut →
    Gives (.hifLateCompletion id) s fun t =>
      t.hif = { s.hif with lateCpl := if s.hif.lateCpl = BitVec.allOnes 64 then s.hif.lateCpl else s.hif.lateCpl + 1 } ∧
      (∃ a : Dev, (a = s.toDev ∨ ∃ n, a = s.toDev.record 0x1008 (s.src 4 0x0B0) n 0 0) ∧ t.fbk = (a.record 0x1005 (s.src 4 0x0B0) 0 0 0).fbk) ∧
      t.qs = { s.qs with timedOut := s.qs.timedOut.filter fun x => x ≠ id } ∧ Only [.qs, .hif, .fbk, .ctr] s.toDev t

/-- Step of R231 for an uncommitted line. -/
def Obligations.RefetchedLines : Prop :=
  ∀ (s : State) (fid lba : Nat) (l : Line) (f : Field) (c : Cmd), s.sys.frozen = false → (s.versions fid lba).find? (·.lostWait) = some l →
    s.field? fid = some f → s.cmd? l.cmd = some c →
    (∀ b, Gives (.lineRefetchDone fid lba (some b)) s fun t =>
      let plain := BitVec.ofNat 32768 (s.gather (c.partsOf lba) (blockBytes b) 0)
      let x := Config.xtsEncrypt (s.keys fid).xts lba plain
      t.cache = Cache.rewrite s.linePages l (fun y => { y with data := x, tag := s.tagOf f lba x, lostWait := false }) s.cache ∧
      t.qs.hreads = s.qs.hreads.filter (fun r => r.purpose ≠ .refetch fid lba) ∧ Only [.qs, .cache] s.toDev t) ∧
    Gives (.lineRefetchDone fid lba none) s fun t =>
      t = ({ s.toDev with qs := { s.qs with hreads := s.qs.hreads.filter fun r => r.purpose ≠ .refetch fid lba } } : Dev).endCmd
        l.cmd 0x0005 0

/-- The two outcomes of R279, and R275. BAR 7 and the AER status bits: log entry 124. -/
def Obligations.ForbiddenTargets : Prop :=
  ∀ (s : State) (off size : Nat),
    (s.cfgUp = true → s.readUp 0 off = true → s.readBar0 off size = none → Gives (.forbiddenTargetRead 0 off size) s fun t =>
      t.out = s.out ++ [.mmio none] ∧ t.hif = { s.hif with urCount := bump64 s.hif.urCount } ∧
      t.fbk = ((s.toDev.record 0x1003 (s.src 4 0x0B0) (0 + size % 256 * 2 ^ 8) off 0).record 0x1008 (s.src 4 0x0B0) 20 0 0).fbk ∧ Only [.hif, .fbk, .ctr, .out] s.toDev t) ∧
    (∀ bar, s.memUp = true → (bar = 0 ∧ s.writeForbidden off size = true ∨ bar = 6) →
      Gives (.forbiddenTargetWrite bar off size) s fun t =>
        t.hif = { s.hif with dropped := bump64 s.hif.dropped } ∧
        t.fbk = ((s.toDev.record 0x1008 (s.src 4 0x0B0) 20 0 0).record 0x1004 (s.src 4 0x0B0) 0 0 0).fbk ∧
        Only [.hif, .fbk, .ctr] s.toDev t) ∧
    (s.cfgUp = true → ∀ o n v, (o, n, v) ∈ [(0x000, 4, 0x96001F5A), (0x009, 1, 0x00), (0x00A, 2, 0x0104), (0x308, 4, s.hifStatus % 2 ^ 32),
        (0x30C, 4, s.hifHoldCause % 2 ^ 32), (0x310, 4, s.parked % 2 ^ 32), (0x314, 4, s.now % 2 ^ 32)] →
      Gives (.forbiddenTargetRead 7 o n) s fun t => t.out = s.out ++ [.mmio (some v)] ∧ Only [.freeCtr, .out] s.toDev t)

/-- RO, RW and RW1C of R6 on the registers that have no behaviour of their own. -/
def Obligations.RegisterWrites : Prop :=
  ∀ (s : State) (v : Nat), s.memUp = true → s.hif.hold = false →
    let w : BitVec 32 := BitVec.ofNat 32 v
    Gives (.registerWrite .bar0 0x1C 4 v) s (fun t => t.hif = { s.hif with eventMask := w.setWidth 14 } ∧ Only [.hif] s.toDev t) ∧
    Gives (.registerWrite .bar0 0x18 4 v) s (fun t =>
      t.hif = { s.hif with events := s.hif.events &&& ~~~(w.setWidth 14) } ∧ Only [.hif] s.toDev t) ∧
    Gives (.registerWrite .bar0 0x1004 4 v) s (fun t =>
      t.mbx = { s.mbx with done := s.mbx.done && !w.getLsbD 0, overrun := s.mbx.overrun && !w.getLsbD 2 } ∧ Only [.mbx] s.toDev t) ∧
    Gives (.registerWrite .bar0 0x1008 4 v) s (fun t => t.mbx = { s.mbx with irqEn := w.getLsbD 0 } ∧ Only [.mbx] s.toDev t) ∧
    Gives (.registerWrite .bar0 0x8010 4 v) s (fun t =>
      t.tck = { s.tck with alignFault := s.tck.alignFault && !w.getLsbD 4, storm := s.tck.storm && !w.getLsbD 5 } ∧ Only [.tck] s.toDev t) ∧
    Gives (.registerWrite .bar0 0x9010 4 v) s (fun t => t.fbk = { s.fbk with page := w.setWidth 8 } ∧ Only [.fbk] s.toDev t) ∧
    Gives (.registerWrite .bar0 0x20 4 v) s (fun t => t = s.toDev) ∧
    (∀ k, k < 1024 → memWf s.mbx.reqBuf = true → Gives (.registerWrite .bar0 (0x2000 + 4 * k) 4 v) s fun t =>
      memRead (4 * k) 4 t.mbx.reqBuf = bytesLE 4 v ∧
      (∀ a, a < 4 * k ∨ 4 * k + 4 ≤ a → memGet a t.mbx.reqBuf = memGet a s.mbx.reqBuf) ∧
      t.mbx = { s.mbx with reqBuf := t.mbx.reqBuf } ∧ Only [.mbx] s.toDev t) ∧
    Gives (.registerWrite .config 0x04 4 0) s fun t => t.hif.mse = false ∧ t.hif.bme = false ∧ Only [.hif] s.toDev t

/-- The shadow of R41, for every 64-bit register that R281 names. -/
def Obligations.HalvesOfWideRegisters : Prop :=
  ∀ (s : State) (off req v : Nat), s.readsServed = true → s.wide? off = some v →
    Gives (.tckCountLowRead off req) s (fun t =>
      t.out = s.out ++ [.mmio (some (v % 2 ^ 32))] ∧
      t.tck.shadows.find? (fun x => x.1 = req && x.2.1 = off) = some (req, off, BitVec.ofNat 32 (v / 2 ^ 32)) ∧
      (∀ x, (x.1 ≠ req ∨ x.2.1 ≠ off) → (x ∈ t.tck.shadows ↔ x ∈ s.tck.shadows)) ∧
      t.tck = { s.tck with shadows := t.tck.shadows } ∧ Only [.tck, .out] s.toDev t) ∧
    (∀ h, s.tck.shadows.find? (fun x => x.1 = req && x.2.1 = off) = some (req, off, h) →
      Gives (.tckCountHighRead (off + 4) req) s fun t =>
        t.out = s.out ++ [.mmio (some h.toNat)] ∧ t.tck.shadows = s.tck.shadows.filter (fun x => !(x.1 = req && x.2.1 = off)) ∧
        t.tck = { s.tck with shadows := t.tck.shadows } ∧ Only [.tck, .out] s.toDev t) ∧
    (s.tck.shadows.find? (fun x => x.1 = req && x.2.1 = off) = none → Gives (.tckCountHighRead (off + 4) req) s fun t =>
      t.out = s.out ++ [.mmio (some (v / 2 ^ 32))] ∧ Only [.out] s.toDev t)

/-- Entry and the release sequence. What follows the release at the tick boundary is not stated here. -/
def Obligations.PortHold : Prop :=
  ∀ s : State, s.memUp = true →
    (s.hif.hold = false →
      Gives .holdReq s (fun t => t.hif = { s.hif with hold := true, holdCause := 4, armed := false, releasing := false, holdSince := s.tck.count, holdCount := bump32 s.hif.holdCount } ∧
        t.fbk = (s.toDev.record 0x1001 (s.src 4 0x0B0) 4 0 0).fbk ∧ Only [.hif, .fbk, .ctr] s.toDev t) ∧
      (∀ c k, (c, k) ∈ [(HoldCause.malformed, 1), (.poisoned, 2), (.datapath, 3)] → Gives (.portHoldEnter c) s fun t =>
        t.hif = { s.hif with hold := true, holdCause := BitVec.ofNat 4 k, armed := false, releasing := false, holdSince := s.tck.count, holdCount := bump32 s.hif.holdCount } ∧ Only [.hif, .fbk, .ctr] s.toDev t) ∧
      Gives .holdReleaseArm s (fun t => t = s.toDev) ∧ Gives .holdReleaseComplete s (fun t => t = s.toDev) ∧
      (∀ v, Gives (.holdReleaseDisarm v) s fun t => t = s.toDev)) ∧
    (s.hif.hold = true →
      Gives .holdReq s (fun t => t = s.toDev) ∧
      (∀ c, Gives (.portHoldEnter c) s fun t => t.hif = s.hif ∧ Only [.fbk, .ctr] s.toDev t) ∧
      Gives .holdReleaseArm s (fun t => t.hif = { s.hif with armed := true } ∧ Only [.hif] s.toDev t) ∧
      (s.hif.armed = true → Gives .holdReleaseComplete s fun t =>
        t.hif = { s.hif with armed := false, releasing := true } ∧ Only [.hif] s.toDev t) ∧
      (s.hif.armed = false → Gives .holdReleaseComplete s fun t => t.hif = { s.hif with armed := false } ∧ Only [.hif] s.toDev t) ∧
      (∀ v, v.setWidth 16 ≠ (0x484F : BitVec 16) → v.setWidth 16 ≠ (0x4C44 : BitVec 16) → Gives (.holdReleaseDisarm v) s fun t =>
        t.hif = { s.hif with armed := false } ∧ Only [.hif] s.toDev t))

/-- BAR4/5 and the three shadowed registers. AER status bit 20: log entry 124. -/
def Obligations.LandingWindow : Prop :=
  ∀ s : State, s.memUp = true → s.hif.hold = false → memWf s.win.mem = true →
    (∀ v, Gives (.winShadowWrite .base v) s (fun t =>
        t.win = { s.win with shBase := v &&& 0xFFFFFF000#64, pending := true } ∧ Only [.win] s.toDev t) ∧
      Gives (.winShadowWrite .size v) s (fun t =>
        t.win = { s.win with shSize := v &&& 0x1FFFFFF000#64, pending := true } ∧ Only [.win] s.toDev t) ∧
      Gives (.winShadowWrite .ctrl v) s fun t => t.win = { s.win with shCtrl := v &&& 7#64, pending := true } ∧ Only [.win] s.toDev t) ∧
    (∀ off len data, off + len ≤ s.winBarBytes →
      let inside := s.win.enable = true ∧ s.win.base ≤ off ∧ off + len ≤ s.win.base + s.win.size
      (inside → s.win.writeEn = true → Gives (.windowWrite off len data) s fun t =>
        memRead (off - s.win.base) len t.win.mem = bytesLE len data ∧
        (∀ a, a < off - s.win.base ∨ off - s.win.base + len ≤ a → memGet a t.win.mem = memGet a s.win.mem) ∧
        t.win = { s.win with mem := t.win.mem, unmirrored := t.win.unmirrored } ∧ Only [.win] s.toDev t) ∧
      (¬(inside ∧ s.win.writeEn = true) → Gives (.windowWrite off len data) s fun t =>
        t.win = { s.win with rejects := bump64 s.win.rejects } ∧ t.fbk = (s.toDev.record 0x1009 (s.src 4 0x0B0) 0 0 0).fbk ∧
        Only [.win, .fbk, .ctr] s.toDev t) ∧
      (inside → s.win.readEn = true → s.winNeeds = none → Gives (.windowRead off len) s fun t =>
        t.out = s.out ++ [.mmio (some (fromLE (memRead (off - s.win.base) len s.win.mem)))] ∧ Only [.out] s.toDev t) ∧
      (∀ k, inside → s.win.readEn = true → s.winNeeds = some k → Gives (.windowRead off len) s fun t =>
        t.win = { s.win with reads := s.win.reads ++ [(off - s.win.base, len, k)] } ∧ Only [.win] s.toDev t) ∧
      (¬(inside ∧ s.win.readEn = true) → Gives (.windowRead off len) s fun t =>
        t.out = s.out ++ [.mmio none] ∧ t.fbk = ((s.toDev.record 0x1009 (s.src 4 0x0B0) 0 0 0).record 0x1008 (s.src 4 0x0B0) 20 0 0).fbk ∧
        Only [.fbk, .ctr, .out] s.toDev t))

/-- The host link, Command, and the masks of MSI-X. -/
def Obligations.LinkAndEnables : Prop :=
  ∀ s : State, s.cfgUp = true →
    (∀ speed width flit, Gives (.linkTrained speed width flit) s fun t =>
      t.hif = { s.hif with speed := BitVec.ofNat 3 speed, width := BitVec.ofNat 5 width, flit := flit || speed = 6, linkDegraded := speed < 6 || width < 16 } ∧ Only [.hif] s.toDev t) ∧
    Gives (.busMasterEnableChange false) s (fun t => t.hif = { s.hif with bme := false } ∧ Only [.hif] s.toDev t) ∧
    Gives (.busMasterEnableChange true) s (fun t => t.hif.bme = true ∧
      (s.hif.hold = false → s.hif.d3hot = false → s.vlt.dumpTick = false → total (s.qs.hreads.map HRead.requests) < 2048 →
        ∀ r ∈ s.qs.hreads, r.waiting = true → Out.hostRead { r with waiting := false } ∈ t.out) ∧ Only [.hif, .qs, .win, .out] s.toDev t) ∧
    (∀ on, Gives (.memorySpaceEnableChange on) s fun t => t.hif = { s.hif with mse := on } ∧ Only [.hif] s.toDev t) ∧
    (∀ v, s.memUp = true → v < 1040 → s.hif.pba = [] → Gives (.msixMaskChange (.vector v true)) s fun t =>
      v ∈ t.hif.vectorMask ∧ (∀ x, x ≠ v → (x ∈ t.hif.vectorMask ↔ x ∈ s.hif.vectorMask)) ∧ Only [.hif] s.toDev t) ∧
    (∀ v, s.memUp = true → v < 1040 → s.hif.pba = [v] → s.hif.msixEnable = true → s.hif.functionMask = false → s.upstream = true →
      Gives (.msixMaskChange (.vector v false)) s fun t =>
        t.out = s.out ++ (if s.hif.l1 then [.l1Exit] else []) ++ [.msix v] ∧ t.hif.pba = [] ∧ v ∉ t.hif.vectorMask ∧ Only [.hif, .out] s.toDev t)

/-- R289 to R291. -/
def Obligations.LatencyAndPower : Prop :=
  ∀ s : State,
    (s.awake = true → s.hif.ltrEnable = true → s.ltrNow ≠ s.hif.ltr →
      ((s.hif.ltr = 3 ∨ s.ltrNow < s.hif.ltr ∨ s.ltrNow = s.hif.ltrCond ∧ s.hif.ltrSince.toNat + 64 ≤ s.now) →
        Gives .ltrLevelChange s fun t => t.hif = { s.hif with ltr := s.ltrNow } ∧ t.out = s.out ++ [.ltr s.ltrNow (s.hif.ltrNs s.ltrNow)] ∧ Only [.hif, .out] s.toDev t) ∧
      (s.hif.ltr ≠ 3 → s.hif.ltr < s.ltrNow → (s.ltrNow ≠ s.hif.ltrCond ∨ s.now < s.hif.ltrSince.toNat + 64) →
        Gives .ltrLevelChange s fun t => t = s.toDev)) ∧
    (s.awake = true → s.hif.l1 = false → s.ltrNow = 2 → s.qs.hreads = [] → Gives .aspmL1Entry s fun t =>
      t.hif = { s.hif with l1 := true } ∧ t.out = s.out ++ [.l1Enter] ∧ Only [.hif, .out] s.toDev t) ∧
    (s.hif.l1 = true → s.sys.frozen = false → Gives .aspmL1Exit s fun t =>
      t.hif = { s.hif with l1 := false } ∧ t.out = s.out ++ [.l1Exit] ∧ Only [.hif, .out] s.toDev t) ∧
    (s.cfgUp = true → s.hif.d3hot = false → Gives .d3hotEntry s fun t => t.hif = { s.hif with d3hot := true } ∧ t.upstream = false ∧ Only [.hif, .hod, .cache, .ctr, .mpt, .mst] s.toDev t) ∧
    (s.cfgUp = true → s.hif.d3hot = false → s.hod.regs = [] → Gives .d3hotEntry s fun t =>
      t.hif = { s.hif with d3hot := true } ∧ t.upstream = false ∧ (∀ l ∈ t.hod.lines, l.valid = false) ∧
      (∀ l ∈ t.hod.victims, l.valid = false) ∧ t.cache = { s.cache with jobs := s.cache.jobs.map fun j => { j with pins := [] } } ∧
      Only [.hif, .hod, .cache] s.toDev t) ∧
    (s.cfgUp = true → s.hif.d3hot = true → Gives .d0Return s fun t => t.hif.d3hot = false ∧ t.drm = { s.drm with selfRefresh := false } ∧ Only [.hif, .drm, .qs, .win, .out] s.toDev t ∧
      (s.hif.bme = true → s.hif.hold = false → s.vlt.dumpTick = false → total (s.qs.hreads.map HRead.requests) < 2048 →
        ∀ r ∈ s.qs.hreads, r.waiting = true → Out.hostRead { r with waiting := false } ∈ t.out))

/-- The commands that only report, first part. The bytes of the identity page are those of the model's `identity`. -/
def Obligations.DeviceReports : Prop :=
  ∀ (s : State) (p : MbxPath) (r : MbxReq), Idle s.toDev → r.len ≤ 4080 →
    (r.len = 0 →
      Gives (.identify p r) s (Reports s p r 0x0101 s.identity []) ∧
      Gives (.deviceStatus p r) s (Reports s p r 0x0102 (bytesLE 4 s.hifStatus ++ bytesLE 4 s.tckStatus ++ bytesLE 4 s.drm.protCauses.toNat ++ bytesLE 1 s.mst.level ++
        [s.twn.state] ++ bytesLE 2 s.ownIds.length ++ bytesLE 2 s.mpt.members.length ++ zeroBytes 6 ++ bytesLE 8 s.tck.count.toNat) []) ∧
      Gives (.twnStatus p r) s (Reports s p r 0x0901 ([s.twn.state] ++ bytesLE 1 (b2n s.twn.position) ++ zeroBytes 6 ++ bytesLE 8 s.twn.ownerEpoch.toNat ++
        idBits s.ownIds ++ idBits s.twn.partnerOwned) []) ∧
      Gives (.fbkInfo p r) s (Reports s p r 0x0702 (bytesLE 8 s.fbk.written ++ bytesLE 8 (s.fbk.written - s.fbk.ring.length) ++ bytesLE 8 s.fbk.mirrorWritten ++
        bytesLE 8 (s.fbk.mirrorWritten - s.fbk.mirror.length) ++ bytesLE 4 s.fbk.lwWritten ++ bytesLE 4 s.fbkStatus ++
        bytesLE 8 (s.counter .fbkDropped) ++ bytesLE 8 (s.counter .fbkFolds) ++ bytesLE 4 s.fbk.restoredCount ++ zeroBytes 4) []) ∧
      Gives (.updStatus p r) s (Reports s p r 0x0603 s.updBytes []) ∧ s.updBytes.take 5 = bytesLE 4 s.upd.sessionId.toNat ++ bytesLE 1 s.upd.seedState ∧
        (s.updBytes.drop 16).take 48 = bytesLE 48 s.upd.digest.toNat) ∧
    (r.len = 16 → reqId r ≤ 2 → Gives (.fbkRead p r []) s fun t =>
      let b := s.book (reqId r)
      let first := max (reqAt r 8 8) (b.2 - b.1.length)
      let l := (b.1.drop (first - (b.2 - b.1.length))).take 127
      Reports s p r 0x0701 (bytesLE 8 (if b.2 ≤ reqAt r 8 8 then reqAt r 8 8 else first) ++ bytesLE 1 l.length ++ zeroBytes 7 ++ l.flatMap recBytes) [] t) ∧
    (∀ op, mbxInstr p op.toNat r true = none → (p = .mgmt → op.toNat / 256 ≠ 2) → stateChanging op.toNat = false →
      Gives (.badOpcode p op r) s (Refused s p r op 1 []))

/-- The commands that only report, second part. The bytes of a field status, a member entry, a lost-course entry and a ledger
record are the model's functions of those names. LEDGER_INFO's nonce is a free value. What the spec does not state of a
STATUS parameter's range is a free value. -/
def Obligations.ObjectReports : Prop :=
  ∀ (s : State) (p : MbxPath) (r : MbxReq), Idle s.toDev → r.len ≤ 4080 →
    (r.len = 8 → ∀ f, s.field? (reqId r) = some f → f.seen = true →
      Gives (.fieldStatus p r) s (Reports s p r 0x0305 f.statusBytes []) ∧
      let l := (f.lost.drop (reqAt r 4 4)).take 254
      Gives (.fieldLostList p r) s (Reports s p r 0x0308 (bytesLE 4 l.length ++ zeroBytes 4 ++ l.flatMap lostBytes) [])) ∧
    (r.len = 8 → s.field? (reqId r) = none → Gives (.fieldStatus p r) s (Refused s p r 0x0305 3 (bytesLE 4 0)) ∧
      Gives (.fieldLostList p r) s (Refused s p r 0x0308 3 (bytesLE 4 0))) ∧
    (r.len = 4 → Gives (.memberList p r) s fun t =>
      let l := (s.mpt.members.filter fun x => reqId r ≤ x.id).take 127
      Reports s p r 0x0401 (bytesLE 1 l.length ++ zeroBytes 7 ++ l.flatMap s.memberEntry) [] t) ∧
    (r.len = 16 → reqAt r 8 1 ≤ 1 → ∀ x, (s.kst.ledger ++ s.kst.ledgerRam.toList).find? (fun x => x.bootCount.toNat = reqAt r 0 8) = some x →
      Gives (.ledgerRead p r) s (Reports s p r 0x0501
        (bytesLE 8 (reqAt r 0 8) ++ bytesLE 1 (reqAt r 8 1) ++ zeroBytes 7 ++ (x.bytes.drop (2048 * reqAt r 8 1)).take 2048) [])) ∧
    (r.len = 0 → Gives (.ledgerInfo p r) s fun t => t.kst = s.kst.setNonce p (some (s.free % 2 ^ 256)) ∧ t.freeCtr = s.freeCtr + 1 ∧
      Reports s p r 0x0502 (bytesLE 8 s.mst.bootCount.toNat ++ bytesLE 8 s.kst.oldest ++ bytesLE 48 s.kst.headDigest.toNat ++
        bytesLE 32 (s.free % 2 ^ 256) ++ bytesLE 1 s.kst.ownerState.toNat ++ zeroBytes 3 ++ bytesLE 4 s.mst.ownerGen.toNat) [.kst, .freeCtr] t) ∧
    (r.len = 8 → reqId r ≤ 2 → Gives (.certRead p r) s fun t =>
      let o := s.certObject (reqId r)
      let n := min 4000 (o.1 - reqAt r 4 4)
      Reports s p r 0x0503 (bytesLE 4 o.1 ++ bytesLE 4 n ++ (List.range n).map fun i => o.2 (reqAt r 4 4 + i)) [] t) ∧
    (r.len = 0 → Gives (.ownerPolicy p r) s (Reports s p r 0x0505
        (bytesLE 1 s.kst.ownerState.toNat ++ zeroBytes 3 ++ bytesLE 4 s.mst.ownerGen.toNat ++ policyBytes s.kst.policy ++ policyBytes s.kst.policyNext) [])) ∧
    (paramLenOk r = true → paramEntries r ≠ [] → (paramEntries r).zipIdx.findSome? entryExists = none →
      Gives (.paramGet p r) s (Reports s p r 0x0801 (bytesLE 2 (paramEntries r).length ++ zeroBytes 6 ++
        (paramEntries r).flatMap fun e => bytesLE 2 e.1 ++ zeroBytes 2 ++ bytesLE 4 e.2.1 ++ bytesLE 8 (s.entryValue e)) [.freeCtr])) ∧
    (∀ d, paramLenOk r = true → paramEntries r ≠ [] → (paramEntries r).zipIdx.findSome? entryExists = some (3, d) →
      Gives (.paramGet p r) s (Refused s p r 0x0801 3 (bytesLE 4 d))) ∧
    (∀ name x, r.len = 8 → parOf (reqAt r 0 2) = some (name, x) → Gives (.paramInfo p r) s
      (Reports s p r 0x0803 (bytesLE 1 (parClass x) ++ bytesLE 2 (parElements x) ++ zeroBytes 5 ++ bytesLE 8 (parRange x s.free).1 ++
        bytesLE 8 (parRange x s.free).2.1 ++ bytesLE 8 (parRange x s.free).2.2 ++ ascii 32 name) [.freeCtr]))

/-- R349. A frozen chip answers nothing (R456). SEQ as the parameter is the catalogue's (R367). -/
def Obligations.IgnoredGo : Prop :=
  ∀ (s : State) (op : BitVec 16) (r : MbxReq) (ok : Bool), s.sys.frozen = false → (s.mbx.busy = true ∨ s.hif.ready = false) →
    let Ignored (t : Dev) : Prop := t.mbx = { s.mbx with overrun := true } ∧ t.counter .mbxOverruns = min (s.counter .mbxOverruns + 1) maxCount ∧
      t.fbk = ((s.toDev.count .mbxOverruns).record 0x0150 (s.srcPath .host) r.seq.toNat 0 0).fbk ∧ Only [.mbx, .ctr, .fbk] s.toDev t
    (∀ i, mbxInstr .host op.toNat r ok = some i → Gives i s Ignored) ∧
    (mbxInstr .host op.toNat r true = none → Gives (.badOpcode .host op r) s Ignored)

/-- The order of the checks among themselves is the model's where the spec gives none (log entry 41). -/
def Obligations.MailboxChecks : Prop :=
  ∀ (s : State) (p : MbxPath) (op : Nat) (r : MbxReq) (ok : Bool) (i : Instr), mbxInstr p op r ok = some i →
    (Idle s.toDev → (p = .mgmt → op / 256 ≠ 2) → (4080 < r.len ∨ ∃ n, fixedLen op = some n ∧ r.len ≠ n) →
      Gives i s (Refused s p r (BitVec.ofNat 16 op) 2 [])) ∧
    (Idle s.toDev → p = .mgmt → op / 256 = 2 → Gives i s (Refused s p r (BitVec.ofNat 16 op) 1 [])) ∧
    (IdleBut true true s.toDev → recoveryServes op = false → Gives i s (Refused s p r (BitVec.ofNat 16 op) 7 [])) ∧
    (∀ b, IdleBut false b s.toDev → p = .mgmt → Gives i s (Refused s p r (BitVec.ofNat 16 op) 7 [])) ∧
    (s.mgmtUp = true → p = .mgmt → s.mbx.mgmtRun ≠ none →
      (s.mbx.mgmtNext = none → Gives i s fun t => t.mbx = { s.mbx with mgmtNext := some i } ∧ Only [.mbx] s.toDev t) ∧
      (s.mbx.mgmtNext ≠ none → Gives i s fun t => t.counter .mbxMgmtDropped = min (s.counter .mbxMgmtDropped + 1) maxCount ∧ Only [.ctr] s.toDev t))

/-- R352. That a kept management request starts by this event is the model's choice (log entry 42). -/
def Obligations.ObjectsOfCommands : Prop :=
  ∀ s : State,
    (∀ (p : MbxPath) (r : MbxReq), paramLenOk r = true → r.len ≤ 4080 → s.hif.ready = true → s.hif.recovery = false → s.mgmtUp = true →
      s.mbx.busy = false → s.mbx.run? p = none → s.objsHeld p [.params] = true →
      Gives (.paramSet p r) s fun t => Waits t p 0x0802 .objects ∧ (p = .host → t.mbx.busy = true) ∧ Only [.mbx] s.toDev t) ∧
    (∀ (p : MbxPath) (w : MbxRun) (op : Nat) (r : MbxReq) (ok : Bool), s.mbx.run? p = some w → w.wait = .objects → mbxInstr p op r ok = some w.instr →
      (s.objsHeld p w.objs = false → (p = .mgmt ∨ s.hif.ready = true) → ∃ t, exec (.commandObjectsGranted p) s = .next t ∧
        exec w.instr { s with mbx := match p with
          | .host => { s.mbx with hostRun := none, busy := false }
          | .mgmt => { s.mbx with mgmtRun := none } } = .next t) ∧
      (s.objsHeld p w.objs = true → Gives (.commandObjectsGranted p) s fun t => t = s.toDev)) ∧
    (∀ (op : Nat) (r : MbxReq) (ok : Bool) (i : Instr), s.mbx.mgmtRun = none → s.mbx.mgmtNext = some i → mbxInstr .mgmt op r ok = some i →
      ∃ t, exec (.commandObjectsGranted .mgmt) s = .next t ∧ exec i { s with mbx := { s.mbx with mgmtNext := none } } = .next t)

/-- What a command refuses is computed by the model's createRefused and reshapeRefused. That FIELD_DELETE answers NOT_ALLOWED
with commands in flight is the model's choice (log entry 43). A command that is answered at once without a change is stated
with Refused and status 0. -/
def Obligations.FieldCommands : Prop :=
  ∀ (s : State) (p : MbxPath) (r : MbxReq), Idle s.toDev → r.len ≤ 4080 →
    (16 ≤ r.len → (reqAt r 1 1 < 4 ∨ 32 < reqAt r 1 1 ∨ r.len = 16 + reqAt r 1 1) →
      (∀ x, s.createRefused r = some x → Gives (.fieldCreate p r) s (Refused s p r 0x0301 x.st (bytesLE 4 x.detail))) ∧
      (s.createRefused r = none → s.twn.mode = true → s.twn.state = 3 → Linked s.toDev → Gives (.fieldCreate p r) s fun t =>
        Waits t p 0x0301 (.reserve (reqId r)) ∧ Sends s.toDev t (.reserve (reqId r) .request) ∧ Only [.mbx, .lnk, .out] s.toDev t) ∧
      (s.createRefused r = none → s.twn.mode = false → Gives (.fieldCreate p r) s fun t =>
        Waits t p 0x0301 (.label (reqId r)) ∧ t.freeCtr = s.freeCtr + 2 ∧
        (∃ f, t.field? (reqId r) = some f ∧ f.uuid = BitVec.ofNat 128 s.free ∧ f.owned = true ∧ f.seen = false ∧
          f.members = (s.newField r f.uuid).members) ∧
        (BitVec.ofNat 128 s.free, reqId r, Config.free (s.freeCtr + 1) % 2 ^ 384) ∈ t.kst.secrets ∧
        look (reqId r) t.kst.keySlots = some (fieldKeys (BitVec.ofNat 128 s.free) (Config.free (s.freeCtr + 1) % 2 ^ 384)) ∧
        (∀ m ∈ createIds r, ∃ x, t.member? m = some x ∧ x.state = 1 ∧ x.field = some (reqId r)) ∧
        Only [.fields, .kst, .mst, .mpt, .mbx, .fbk, .ctr, .freeCtr] s.toDev t)) ∧
    (r.len = 8 → ∀ f, Own s.toDev r f →
      let busy := s.qs.cmds.any fun c => c.e.fieldId.toNat = f.id
      (busy = true → Gives (.fieldDelete p r) s (Refused s p r 0x0302 5 (bytesLE 4 0))) ∧
      (busy = false → f.reshaping = false → f.rsPend = none → f.labelChanges = [] → Gives (.fieldDelete p r) s fun t =>
        Answered t p 0x0302 0 r.seq [] ∧ t.field? f.id = none ∧ look f.id t.kst.keySlots = none ∧ (∀ e ∈ t.kst.secrets, e.1 ≠ f.uuid) ∧
        Only [.fields, .cache, .mst, .mpt, .hod, .kst, .lnk, .sys, .mbx, .fbk, .ctr, .hif, .out] s.toDev t) ∧
      (f.offline = false → f.offlineReq = false → f.failed = false → f.recovering = false → Gives (.fieldOffline p r) s fun t =>
        Waits t p 0x0303 (.offline f.id) ∧ t.field? f.id = some { f with offlineReq := true } ∧ Only [.fields, .mbx] s.toDev t) ∧
      (f.offline = true → Gives (.fieldOnline p r) s fun t =>
        Answered t p 0x0304 0 r.seq [] ∧ (∃ g, t.field? f.id = some g ∧ g.offline = false ∧ g.recovering = true) ∧
        Only [.fields, .sys, .mbx, .fbk, .ctr, .hif, .out] s.toDev t) ∧
      (f.offline = false → Gives (.fieldOnline p r) s (Refused s p r 0x0304 5 (bytesLE 4 0))) ∧
      (f.readOnly = true → reqAt r 1 1 = 1 → Gives (.fieldSetReadOnly p r) s (Refused s p r 0x0306 0 [])) ∧
      (f.readOnly = false → reqAt r 1 1 = 1 → Gives (.fieldSetReadOnly p r) s fun t =>
        Waits t p 0x0306 (.label f.id) ∧ (∃ g, t.field? f.id = some g ∧ g.readOnly = true) ∧ Only [.fields, .mpt, .mbx] s.toDev t)) ∧
    (s.reshapeLen r = true → ∀ f, Own s.toDev r f →
      (∀ x, s.reshapeRefused f r = some x → Gives (.fieldReshape p r) s (Refused s p r 0x0307 x.st (bytesLE 4 x.detail))) ∧
      (s.reshapeRefused f r = none → s.freeRecord?.isSome = true → Gives (.fieldReshape p r) s fun t =>
        Waits t p 0x0307 (.reshape f.id) ∧ (∃ g q, t.field? f.id = some g ∧ g.rsPend = some q ∧ q.1.kind = reqAt r 1 1 ∧ q.1.oldWidth = f.width ∧
          q.2.2 = some p) ∧ Only [.fields, .mpt, .sys, .mbx] s.toDev t))

/-- Members and spares by command. The first block of an empty ring is block 0 (log entry 105). -/
def Obligations.MemberCommands : Prop :=
  ∀ (s : State) (p : MbxPath) (r : MbxReq), Idle s.toDev → r.len = 8 → (∀ x, s.member? (reqId r) = some x →
    let Sent (t : Dev) (op : MOp) (lba nlb : Nat) (w : Purpose) : Prop := ∃ c ∈ t.mpt.cmds, c.member = x.id ∧ c.op = op ∧ c.lba = lba ∧ c.nlb = nlb ∧
      c.purpose = w ∧ c.issued = none
    (x.state = 7 → Gives (.memberAddSpare p r) s fun t =>
      Waits t p 0x0402 (.spareLabel x.id) ∧ Sent t .write (256 * b2n x.labelSlot + nextPlace x.labelPlace) 1 .spareLabel ∧ Only [.mpt, .mbx] s.toDev t) ∧
    (x.state ≠ 7 → Gives (.memberAddSpare p r) s (Refused s p r 0x0402 5 (bytesLE 4 0))) ∧
    (x.state = 2 → Gives (.memberRemoveSpare p r) s fun t =>
      Waits t p 0x0403 (.spareLabel x.id) ∧ Sent t .write (256 * b2n x.labelSlot + nextPlace x.labelPlace) 1 .spareLabel ∧ Only [.mpt, .mbx] s.toDev t) ∧
    (x.state ≠ 2 → Gives (.memberRemoveSpare p r) s (Refused s p r 0x0403 5 (bytesLE 4 0))) ∧
    (x.state = 1 ∨ x.state = 2 ∨ x.state = 3 ∨ x.state = 5 → Gives (.memberFail p r) s fun t =>
      Waits t p 0x0404 (.fail x.id) ∧ (⟨x.id, false, 7⟩ : FaultDecision) ∈ t.tasks.faultEvents ∧ Only [.tasks, .mbx] s.toDev t) ∧
    (x.state = 6 → Gives (.memberRelease p r) s fun t =>
      Waits t p 0x0405 (.spareLabel x.id) ∧ Sent t .write 0 16384 .region ∧ Only [.mpt, .mbx] s.toDev t) ∧
    (x.state = 4 → Gives (.memberRelease p r) s fun t =>
      Waits t p 0x0405 (.spareLabel x.id) ∧ Only [.fields, .mpt, .mbx] s.toDev t ∧
      (∀ f, x.field = some f → ∀ g ∈ t.fields, g.id = f → ∀ e ∈ g.members ++ g.nextMembers, e.member ≠ some x.id)) ∧
    (x.state = 6 ∨ x.state = 7 → reqAt r 1 1 < 64 → Gives (.memberFormat p r) s fun t =>
      Waits t p 0x0407 (.format x.id) ∧ Sent t .format 0 (reqAt r 1 1) .format ∧ Only [.mpt, .mbx] s.toDev t)) ∧
    (∀ f y, s.field? (reqId r) = some f → s.member? (reqAt r 2 1) = some y → reqAt r 1 1 < f.width → f.rebuildable (reqAt r 1 1) = true →
      (y.state = 2 ∨ y.state = 7) → s.fits f y f.mostCourses = true → Gives (.memberRebuild p r) s fun t =>
        Waits t p 0x0406 .running ∧ (∃ z, t.member? y.id = some z ∧ z.state = 3 ∧ z.field = some f.id ∧ z.position = reqAt r 1 1) ∧
        (∃ g e, t.field? f.id = some g ∧ g.rebuildEntry? (reqAt r 1 1) = some e ∧ e.member = some y.id ∧ e.state = 3) ∧
        Only [.fields, .mpt, .sys, .mbx] s.toDev t)

/-- Training, loss, flits and alignment. A CRC verdict, a sequence number and an offset are operands. A flit of an invalid
KIND, and idle flits, are a choice of the model (log entry 106); so is that a record of a training names a width less than
the last one. That a pairing chip that hears pulses becomes UNPAIRED on a link loss is read from R251. -/
def Obligations.TwinLink : Prop :=
  ∀ s : State, s.twinUp = true →
    (∀ w, (w = 4 ∨ w = 8 ∨ w = 16) → s.twn.session = none → Gives (.twinLinkTrained w) s fun t =>
      let o := s.toDev.drew.newOffer s.free
      let n := ceilDiv (offerBytes o).length 240
      t.twn = { s.twn with linkUp := true, width := w, offerSent := true, offerGot := false, agreeSince := s.tck.count, rxSeq := 0, replayTries := 0, rxTries := 0, replaySeq := none } ∧
      t.lnk = { s.lnk with
        txSeq := BitVec.ofNat 12 n, credit := -n, lastWidth := w, ephKey := s.free, ownOffer := some o, theirOffer := none, kept := t.lnk.kept } ∧
      t.out = s.out ++ [.twin (.keyOffer o)] ∧ t.fbk = (if w < s.lnk.lastWidth then (s.toDev.record 0x7041 s.srcTwin 0 0 0).fbk else s.fbk) ∧
      Only [.twn, .lnk, .freeCtr, .fbk, .ctr, .out] s.toDev t) ∧
    (s.twn.linkUp = true →
      ((s.twn.state ≠ 1 ∨ s.twn.pulses = false) → Gives .twinLinkLost s fun t =>
        t.twn = { s.twn with linkUp := false, width := 0, session := none, offerSent := false, offerGot := false, poolOpen := [], poolHeld := [], ckptOpen := false, helloOk := false, helloGot := none } ∧
        Only [.twn] s.toDev t) ∧
      (s.twn.state = 1 → s.twn.pulses = true → s.twn.handovers = [] → Gives .twinLinkLost s fun t =>
        t.twn.linkUp = false ∧ t.twn.session = none ∧ t.twn.state = 4 ∧ Only [.twn, .win, .tck, .fbk, .ctr, .mbx, .hif, .out] s.toDev t) ∧
      (∀ seq kind credit ok,
        ((ok = false ∨ 3 < kind.toNat) → s.twn.rxTries < 3 → s.vlt.dumpTick = false → Gives (.flitReceived seq kind credit ok) s fun t =>
          t.twn = { s.twn with rxTries := s.twn.rxTries + 1 } ∧ t.out = s.out ++ [.twin (.replay s.twn.rxSeq)] ∧
          t.lnk = { s.lnk with txSeq := s.lnk.txSeq + 1, credit := s.lnk.credit - 1, kept := t.lnk.kept } ∧ Only [.twn, .lnk, .out] s.toDev t) ∧
        ((ok = false ∨ 3 < kind.toNat) → 3 ≤ s.twn.rxTries → s.twn.state ≠ 1 → Gives (.flitReceived seq kind credit ok) s fun t =>
          t.twn.linkUp = false ∧ t.twn.session = none ∧ t.twn.state = s.twn.state ∧ t.fbk = (s.toDev.record 0x7040 s.srcTwin 0 0 0).fbk ∧
          t.out = s.out ++ [.twin .retrain] ∧ Only [.twn, .fbk, .ctr, .out] s.toDev t) ∧
        (ok = true → kind.toNat ≤ 3 → seq = s.twn.rxSeq → Gives (.flitReceived seq kind credit ok) s fun t =>
          t.lnk = { s.lnk with credit := s.lnk.credit + credit.toNat } ∧
          t.twn = (if kind = 0 then s.twn else { s.twn with rxSeq := s.twn.rxSeq + 1, rxTries := 0 }) ∧ Only [.twn, .lnk] s.toDev t) ∧
        (ok = true → kind.toNat ≤ 3 → seq ≠ s.twn.rxSeq → Gives (.flitReceived seq kind credit ok) s fun t => t = s.toDev)) ∧
      (∀ seq, let n := if s.twn.replaySeq = some seq then s.twn.replayTries + 1 else 1
        (n ≤ 3 → Gives (.replayRequest seq) s fun t => t.twn = { s.twn with replaySeq := some seq, replayTries := n } ∧
          (s.lnk.kept.any (·.1 = seq) = true →
            t.out = s.out ++ [.twin (.resend seq)] ∧ t.ctr[ctrIx .twnFlitReplays] = min (s.ctr[ctrIx .twnFlitReplays] + 1) maxCount) ∧
          (s.lnk.kept.any (·.1 = seq) = false → t.out = s.out ∧ t.ctr = s.ctr) ∧
          Only [.twn, .ctr, .out] s.toDev t) ∧
        (3 < n → s.twn.state ≠ 1 → Gives (.replayRequest seq) s fun t =>
          t.twn.linkUp = false ∧ t.twn.session = none ∧ t.twn.state = s.twn.state ∧ t.fbk = (s.toDev.record 0x7040 s.srcTwin 0 0 0).fbk ∧
          t.out = s.out ++ [.twin .retrain] ∧ Only [.twn, .fbk, .ctr, .out] s.toDev t)) ∧
      (s.tck.paired = true → s.tck.follower = true →
        (∀ o : Int, -8 ≤ o → o ≤ 8 → Gives (.alignmentMarker o) s fun t =>
          t.tck = { s.tck with alignOffset := BitVec.ofInt 16 o, alignWarn := false } ∧ Only [.tck] s.toDev t) ∧
        (∀ o : Int, (8 < o ∧ o ≤ 128 ∨ -128 ≤ o ∧ o < -8) → Gives (.alignmentMarker o) s fun t =>
          t.tck = { s.tck with alignOffset := BitVec.ofInt 16 o, alignWarn := true } ∧
          t.fbk = (if s.tck.alignWarn then s.fbk else (s.toDev.record 0x0103 (s.srcEngine 0xF0) 0 0 0).fbk) ∧ Only [.tck, .fbk, .ctr] s.toDev t) ∧
        (∀ o : Int, (128 < o ∨ o < -128) → Gives (.alignmentMarker o) s fun t =>
          t.tck.alignOffset = BitVec.ofInt 16 o ∧ t.tck.alignFault = true ∧ t.tck.realignCount = bump32 s.tck.realignCount ∧
          t.tck.pairOffset = s.tck.pairOffset + (if 0 < o then 1 else 0) ∧
          (∃ n, n < 1024 ∧ t.tck.gapNext = s.tck.gapNext.filter (fun g => decide (g.1 ≠ GapKind.realign)) ++ [(.realign, n)]) ∧ Only [.tck, .fbk, .ctr] s.toDev t)))

/-- R378 and R379. The verdicts over chains and signatures are operands; the signatures, the shared secret and the key
derivation are functions of Config without a value. Where a handover is under way its end is a part of the refusal (R262) and
not stated here. -/
def Obligations.KeyAgreement : Prop :=
  ∀ s : State, s.twinUp = true → s.twn.linkUp = true → s.twn.session = none → s.twn.offerSent = true →
    let Unpairs (i : Instr) (code : Option RefuseReason) : Prop := s.twn.handovers = [] → Gives i s fun t =>
      t.twn.state = 4 ∧ t.twn.session = none ∧ t.twn.offerSent = false ∧ t.twn.offerGot = false ∧
      (∀ c, code = some c → Out.twin (.keyRefuse c) ∈ t.out ∧ t.hif.events.getLsbD 9 = true) ∧
      Only [.twn, .lnk, .win, .tck, .fbk, .ctr, .kst, .mbx, .hif, .out] s.toDev t
    (∀ o : Offer,
      let offers (ok : Bool) : Instr := .offer o.serial o.twinPos o.nonce o.ownerDigest ⟨o.ephPub, o.chains, ok⟩
      (s.twn.offerGot = false → o.ownerDigest = s.kst.ownerKeys → Gives (offers true) s fun t =>
        t.twn = { s.twn with offerGot := true } ∧
        (∀ mine, s.lnk.ownOffer = some mine → let d := (transcript mine o).toNat
          let proof := TwinTx.keyProof (signEcdsa d 48) (signMldsa d 48)
          let n := ceilDiv proof.agreement.length 240
          t.out = s.out ++ [.twin proof] ∧
          t.lnk = { s.lnk with theirOffer := some o, txSeq := s.lnk.txSeq + BitVec.ofNat 12 n, credit := s.lnk.credit - n, kept := t.lnk.kept }) ∧
        Only [.twn, .lnk, .out] s.toDev t) ∧
      (s.twn.offerGot = false → Unpairs (offers false) (some .chain)) ∧
      (s.twn.offerGot = false → o.ownerDigest ≠ s.kst.ownerKeys → Unpairs (offers true) (some .ownerMismatch)) ∧
      (s.twn.offerGot = true → ∀ ok, Gives (offers ok) s fun t => t = s.toDev)) ∧
    (s.twn.offerGot = true → ∀ mine theirs, s.lnk.ownOffer = some mine → s.lnk.theirOffer = some theirs → Gives (.proof true) s fun t =>
      let keys := sessionKeys s.lnk.ephKey mine theirs
      t.twn.session = some keys.1 ∧ t.lnk.transfer = keys.2 ∧ t.lnk.rxFrames = 0 ∧ t.twn.sessions = s.twn.sessions + 1 ∧ t.twn.offerSent = false ∧
      t.twn.mirrorSeq = 0 ∧ t.twn.mirrorGot = 0 ∧ t.twn.ckptSeq = 0 ∧ t.twn.ckptGot = 0 ∧ t.twn.state = s.twn.state ∧
      (s.mpt.enumerated = true → s.vlt.dumpTick = false → t.out = s.out ++ [.frame s.twn.position 0 (.hello s.hello)] ∧ t.lnk.txFrames = 1) ∧
      (s.mpt.enumerated = false ∨ s.vlt.dumpTick = true → t.out = s.out ∧ t.lnk.txFrames = 0) ∧ Only [.twn, .lnk, .out] s.toDev t) ∧
    (s.twn.offerGot = true → Unpairs (.proof false) (some .signature)) ∧
    (s.twn.offerGot = false → ∀ ok, Gives (.proof ok) s fun t => t = s.toDev) ∧
    (s.twn.agreeSince.toNat + 2 ^ 18 ≤ s.now → Unpairs .keyAgreementTimeout (some .timeout)) ∧
    (s.now < s.twn.agreeSince.toNat + 2 ^ 18 → Gives .keyAgreementTimeout s fun t => t = s.toDev) ∧
    (∀ r, Unpairs (.refuse r) none)

/-- R241 over all frames. The verdict over a tag is an operand. That a pairing chip that hears pulses becomes UNPAIRED is
read from R251. -/
def Obligations.FramesNeedASession : Prop :=
  ∀ (s : State) (ok : Bool) (i : Instr), IsFrame ok i →
    (s.twinUp = false ∨ s.twn.session = none → Gives i s fun t => t = s.toDev) ∧
    (s.twinUp = true → s.twn.session ≠ none → ok = false →
      (s.twn.state ≠ 1 ∨ s.twn.pulses = false → Gives i s fun t =>
        t.twn = { s.twn with session := none, offerSent := false, offerGot := false, poolOpen := [], poolHeld := [], ckptOpen := false, helloOk := false, helloGot := none } ∧
        Only [.twn] s.toDev t) ∧
      (s.twn.state = 1 → s.twn.pulses = true → s.twn.handovers = [] → Gives i s fun t => t.twn.session = none ∧ t.twn.state = 4 ∧
        Only [.twn, .win, .tck, .fbk, .ctr, .mbx, .hif, .out] s.toDev t))

/-- The frames of a running pair. The wrapped secret is opened with the transfer key by an uninterpreted function of Config.
A checkpoint line that is a field entry, and a heartbeat with an OWNER_EPOCH above what the partner has learnt from this
chip, are not stated here. -/
def Obligations.MirrorFrames : Prop :=
  ∀ s : State, s.twinUp = true → s.twn.session ≠ none →
    (∀ l : LineFrame, let ref := l.slot.toNat + l.reuse.toNat * 2 ^ 14
      let all := s.twn.openLines ref ++ [l]
      (l.last = false → Gives (.line true l) s fun t => t.twn = { s.twn with poolOpen := s.twn.poolOpen ++ [(ref, l)] } ∧ Heard s t [.twn]) ∧
      (l.last = true → s.twn.poolHeld = [] → s.twn.room all.length = true → Gives (.line true l) s fun t =>
        (∀ e ∈ all, ∃ x ∈ t.twn.pool, x.field = e.field ∧ x.lba = e.lba ∧ x.st = (poolLine e).st ∧ e.version.toNat ≤ x.version) ∧
        (∀ x, (∀ e ∈ all, x.field ≠ e.field ∨ x.lba ≠ e.lba ∨ x.st ≠ (poolLine e).st) → (x ∈ t.twn.pool ↔ x ∈ s.twn.pool)) ∧
        t.twn = { s.twn with pool := t.twn.pool, poolOpen := s.twn.poolOpen.filter (·.1 ≠ ref), mirrorGot := l.mirrorSeq } ∧ Heard s t [.twn]) ∧
      (l.last = true → s.twn.poolHeld = [] → s.twn.room all.length = false → Gives (.line true l) s fun t =>
        t.twn = { s.twn with poolOpen := s.twn.poolOpen ++ [(ref, l)], poolHeld := [(l.mirrorSeq.toNat, ref)] } ∧ Heard s t [.twn]) ∧
      (Gives (.bulkLine true l) s fun t =>
        (∃ x ∈ t.twn.pool, x.field = l.field ∧ x.lba = l.lba ∧ x.st = (poolLine l).st ∧ l.version.toNat ≤ x.version) ∧
        (∀ x ∈ s.twn.pool, x.field ≠ l.field ∨ x.lba ≠ l.lba ∨ x.st ≠ (poolLine l).st ∨ l.version.toNat < x.version → x ∈ t.twn.pool) ∧
        t.twn = { s.twn with pool := t.twn.pool } ∧ Heard s t [.twn])) ∧
    (∀ f lba n (v : BitVec 64), s.twn.poolHeld = [] → Gives (.release true f lba n v) s fun t =>
      (∀ x, x ∈ t.twn.pool ↔ x ∈ s.twn.pool ∧ ¬(x.field = f ∧ lba ≤ x.lba ∧ x.lba < lba + n ∧
        (if v = 0 then x.st = .band else x.st ≠ .band ∧ x.version ≤ v.toNat))) ∧
      t.twn = { s.twn with pool := t.twn.pool } ∧ Heard s t [.twn]) ∧
    (∀ page data, Gives (.windowPage true page data) s fun t => look page t.twn.partnerWindow = some data ∧
      (∀ q, q ≠ page → look q t.twn.partnerWindow = look q s.twn.partnerWindow) ∧ Heard s t [.twn]) ∧
    (∀ r : FbRec, Gives (.fbkRecord true r) s fun t => { r with flags := r.flags ||| 1 } ∈ t.fbk.mirror ∧
      (∀ x ∈ t.fbk.mirror, x = { r with flags := r.flags ||| 1 } ∨ x ∈ s.fbk.mirror) ∧ Heard s t [.fbk]) ∧
    (∀ a b, (s.twn.state ≠ 2 ∨ s.twn.bulkSent = false → Gives (.bulkDone true a b) s fun t => t.twn = { s.twn with bulkGot := true } ∧ Heard s t [.twn]) ∧
      (s.twn.state = 2 → s.twn.bulkSent = true → Gives (.bulkDone true a b) s fun t => t.twn.state = 3 ∧
        t.fbk = (s.toDev.record 0x7001 s.srcTwin (2 + 3 * 256) 0 0).fbk ∧ t.hif.events.getLsbD 4 = true ∧
        (s.param .twnAutoReturn ≠ 1 → t.twn.returnLeft = s.twn.returnLeft) ∧ Heard s t [.twn, .fbk, .ctr, .hif, .out])) ∧
    (∀ l last, (s.ownIds.contains (ckptField l) = true → Gives (.ckptLine true l last) s fun t =>
        t.twn = { s.twn with ckptOpen := !last } ∧ Heard s t [.twn]) ∧
      (s.ownIds.contains (ckptField l) = false → (∀ a b c d e f, l ≠ .fieldEntry a b c d e f) → Gives (.ckptLine true l last) s fun t =>
        t.mst.partnerLines = s.mst.partnerLines.filter (fun x => !sameLine l x) ++ [l] ∧ t.mst = { s.mst with partnerLines := t.mst.partnerLines } ∧
        t.twn = { s.twn with ckptOpen := !last } ∧ Heard s t [.twn, .mst])) ∧
    (∀ uuid f,
      (∀ b, Gives (.fieldKeys true uuid f (some b)) s fun t => (uuid, f, Config.unwrapKey s.lnk.transfer b) ∈ t.kst.secrets ∧
        (∀ e, e.1 ≠ uuid → (e ∈ t.kst.secrets ↔ e ∈ s.kst.secrets)) ∧
        (s.fbk.started = true → t.kst = { s.kst with secrets := t.kst.secrets } ∧ t.fbk = (s.toDev.recordKst 0x8031 (uuid.toNat % 2 ^ 32) f).fbk) ∧
        Heard s t [.kst, .fbk, .ctr]) ∧
      Gives (.fieldKeys true uuid f none) s fun t => (∀ e, e ∈ t.kst.secrets ↔ e ∈ s.kst.secrets ∧ e.1 ≠ uuid) ∧
        (s.ownIds.contains f = true → t.kst.keySlots = s.kst.keySlots) ∧
        (s.ownIds.contains f = false → ∀ e, e ∈ t.kst.keySlots ↔ e ∈ s.kst.keySlots ∧ e.1 ≠ f) ∧
        ((s.secretOf uuid).isSome = false → t.fbk = s.fbk ∧ t.ctr = s.ctr) ∧
        (s.fbk.started = true → t.kst = { s.kst with secrets := t.kst.secrets, keySlots := t.kst.keySlots } ∧
          ((s.secretOf uuid).isSome = true → t.fbk = (s.toDev.recordKst 0x8032 (uuid.toNat % 2 ^ 32) f).fbk)) ∧
        Heard s t [.kst, .fbk, .ctr]) ∧
    (∀ h : Heartbeat, h.ownerEpoch.toNat ≤ s.epochKnown.1.toNat → Gives (.heartbeat true h) s fun t =>
      t.twn.hbThis = true ∧ t.twn.hbMissed = s.twn.hbMissed ∧ t.ctr = s.ctr ∧ t.twn.partnerDump = h.dump ∧ t.twn.partnerHold = h.hold ∧ t.twn.state = s.twn.state ∧
      (∀ c ∈ s.qs.cmds, (∃ n, c.mirrorSeq = some n ∧ seqAcked h.mirrorAck n = true) → { c with acked := true } ∈ t.qs.cmds) ∧
      (∀ c ∈ s.qs.cmds, (∀ n, c.mirrorSeq = some n → seqAcked h.mirrorAck n = false) → c ∈ t.qs.cmds) ∧
      Heard s t [.tck, .twn, .qs, .cache, .fields, .win, .out])

/-- The tests of single entries are the model's entryRefused, the rules that entries break together its refusedEntry. The
tick that a chip chooses for a change of the pair is a free value. That crossing proposals are refused is the model's choice
(log entry 44). -/
def Obligations.ParameterChanges : Prop :=
  ∀ s : State,
    (∀ (p : MbxPath) (r : MbxReq), Idle s.toDev → r.len ≤ 4080 → paramLenOk r = true → let l := paramEntries r
      (l = [] → Gives (.paramSet p r) s (Refused s p r 0x0802 3 (bytesLE 4 0))) ∧
      (l ≠ [] → ∀ st d, l.zipIdx.findSome? entryRefused = some (st, d) → Gives (.paramSet p r) s (Refused s p r 0x0802 st (bytesLE 4 d))) ∧
      (l ≠ [] → l.zipIdx.findSome? entryRefused = none →
        (∀ i, s.refusedEntry l = some i → Gives (.paramSet p r) s (Refused s p r 0x0802 5 (bytesLE 4 (0x10 + 16 * i)))) ∧
        (s.refusedEntry l = none → ¬(s.twn.state = 3 ∧ ∃ e ∈ l, pairParam e.1 = true) → Gives (.paramSet p r) s fun t =>
          Answered t p 0x0802 0 r.seq (bytesLE 8 (if ∀ e ∈ l, atReset e = true then maxCount else s.now + 1)) ∧
          (∀ c pre e post, l = pre ++ e :: post → (parOf e.1).map (·.2) = some (.cfg c) → (∀ x ∈ post, (parOf x.1).map (·.2) ≠ some (.cfg c)) →
            t.cfgNext[cfgIx c] = e.2.2) ∧
          (∀ c, (∀ x ∈ l, (parOf x.1).map (·.2) ≠ some (.cfg c)) → t.cfgNext[cfgIx c] = s.cfgNext[cfgIx c]) ∧
          Only [.cfgNext, .mpt, .drm, .hod, .mbx, .ctr, .fbk, .hif, .out] s.toDev t) ∧
        (s.refusedEntry l = none → s.twn.state = 3 → (∃ e ∈ l, pairParam e.1 = true) → Linked s.toDev → Gives (.paramSet p r) s fun t =>
          Waits t p 0x0802 .sync ∧ (∃ q, t.twn.syncing = some q ∧ q.entries = l ∧ s.now + 5 ≤ q.tick ∧
            ∀ e ∈ proposals l, FrameOut s.toDev t (.paramSync .propose e.1 e.2 (s.masterTick q.tick))) ∧
          Only [.twn, .lnk, .freeCtr, .mbx, .out] s.toDev t))) ∧
    (∀ id ix v tick, s.twinUp = true → Linked s.toDev →
      (s.twn.state = 3 → s.twn.syncing = none → s.syncOk id v = true → Gives (.paramSync true .propose id ix v tick) s fun t =>
        t.twn = { s.twn with syncAgreed := s.twn.syncAgreed ++ [(id, v, tick)] } ∧ Replies s t (.paramSync .accept id v tick) [.twn]) ∧
      (s.twn.state ≠ 3 ∨ s.twn.syncing ≠ none ∨ s.syncOk id v = false → Gives (.paramSync true .propose id ix v tick) s fun t =>
        Replies s t (.paramSync .refuse id v tick) []) ∧
      ((id, v, tick) ∈ s.twn.syncAgreed → Gives (.paramSync true .commit id ix v tick) s fun t =>
        t.twn = { s.twn with syncAgreed := s.twn.syncAgreed.filter (· ≠ (id, v, tick)), syncApply := s.twn.syncApply ++ [(s.ownTick tick, id, 0, v)] } ∧
        Heard s t [.twn]) ∧
      ((id, v, tick) ∉ s.twn.syncAgreed → Gives (.paramSync true .commit id ix v tick) s fun t => Heard s t []) ∧
      (∀ q p run, s.syncMine id v tick = some q → (∀ x ∈ q.left, x = (id, v)) → s.now + 4 ≤ q.tick → s.waiter? .sync = some p → s.mbx.run? p = some run →
        s.mbx.hostDiscard = false → Gives (.paramSync true .accept id ix v tick) s fun t =>
          Answered t p run.opcode 0 run.seq (bytesLE 8 q.tick) ∧ t.twn.syncing = none ∧
          t.twn.syncApply = s.twn.syncApply ++ q.entries.map (fun e => (q.tick, e.1, e.2.1, e.2.2)) ∧
          (∀ e ∈ proposals q.entries, FrameOut s.toDev t (.paramSync .commit e.1 e.2 (s.masterTick q.tick))) ∧
          Only [.twn, .lnk, .mbx, .ctr, .fbk, .hif, .out] s.toDev t))

/-- Pairing up to the agreement. That the wait of TWN_PAIR_WAIT_S counts from TCK_COUNT 0 of the boot is the model's choice
(log entry 45). -/
def Obligations.Pairing : Prop :=
  ∀ s : State, s.twinUp = true → s.twn.handovers = [] →
    (s.twn.session ≠ none →
      (∀ h : PairHello,
        let near := h.twnVersion ≤ s.twnVersion + 1 ∧ s.twnVersion ≤ h.twnVersion + 1
        let same := h.dirtyCap = s.param .drmDirtyCap ∧ h.winDumpLimit = s.param .winDumpLimit
        (s.twn.helloOk = true → Gives (.pairHello true h) s fun t => Heard s t []) ∧
        (s.twn.helloOk = false → s.mpt.enumerated = false → Gives (.pairHello true h) s fun t =>
          t.twn = { s.twn with helloGot := some h } ∧ Heard s t [.twn]) ∧
        (s.twn.helloOk = false → s.mpt.enumerated = true → ¬(h.twinPos ≠ s.twn.position ∧ near ∧ same ∧ s.poolRoom = true) → Gives (.pairHello true h) s fun t =>
          t.twn.state = 4 ∧ t.twn.helloOk = false ∧ Heard s t [.twn, .win, .tck, .fbk, .ctr, .kst, .mbx, .hif, .out]) ∧
        (s.twn.helloOk = false → s.mpt.enumerated = true → h.twinPos ≠ s.twn.position → near → same → s.poolRoom = true → Gives (.pairHello true h) s fun t =>
          t.twn.state = 1 ∧ t.twn.helloOk = true ∧ t.twn.agreed = false ∧ t.twn.partnerVersion = some h.twnVersion ∧
          t.twn.pool = [] ∧ t.twn.partnerWindow = [] ∧ t.twn.poolBytes = mirrorPool (s.param .drmDirtyCap) ∧
          t.twn.agreeSent = true ∧
          t.tck.paired = true ∧ t.tck.follower = s.twn.position ∧ t.tck.pairOffset = h.ticks - s.tck.count ∧
          t.tck.gapNext = (if s.twn.position then s.tck.gapNext ++ [(.pairing, h.gapCycles % 1024)] else s.tck.gapNext) ∧
          Only [.twn, .lnk, .win, .tck, .fbk, .ctr, .mbx, .hif, .out] s.toDev t)) ∧
      (∀ l, s.twn.helloOk = true → s.twn.agreed = false → s.twn.agreeFinal = false →
        Gives (.agree true false l) s (fun t => t.twn = { s.twn with agreeGot := s.twn.agreeGot ++ l, agreeSent := t.twn.agreeSent } ∧
          (s.twn.agreeSent = true → t.twn.agreeSent = true ∧ t.out = s.out) ∧ Only [.twn, .lnk, .out] s.toDev t) ∧
        ((s.mpt.enumerated = false ∧ s.twn.agreeSent = false) ∨ s.toDev.pairGapOpen = true → Gives (.agree true true l) s fun t =>
          t.twn = { s.twn with agreeGot := s.twn.agreeGot ++ l, agreeFinal := true, agreeSent := t.twn.agreeSent } ∧ Only [.twn, .lnk, .out] s.toDev t) ∧
        (s.mpt.enumerated = true → s.toDev.pairGapOpen = false → Gives (.agree true true l) s fun t => t.twn.agreed = true ∧ t.twn.state = 2 ∧
          (∀ f e, s.fields = [f] → f.assembled = true → s.twn.agreeGot = [] → l = [e] → e.uuid = f.uuid → e.fieldId = f.id →
            let pos := if f.gen < e.gen then e.ownerPos else f.ownerPos
            (pos = s.twn.position → f.owned = true → (∃ g, t.field? f.id = some g ∧ g.owned = true) ∧ f.id ∉ t.twn.partnerOwned) ∧
            (pos ≠ s.twn.position → (∃ g, t.field? f.id = some g ∧ g.owned = false) ∧ f.id ∈ t.twn.partnerOwned)) ∧
          ∀ q ∈ [Part.tasks, .mor, .drm, .vlt, .upd, .cfg, .cfgNext, .tck, .win], q.Same s.toDev t)) ∧
      (∀ f,
        (s.idTaken f = true → Gives (.fieldReserve true f .request) s fun t => s.vlt.dumpTick = false → Replies s t (.reserve f .refused) []) ∧
        (s.idTaken f = false → Gives (.fieldReserve true f .request) s fun t =>
          f ∈ t.twn.reserved ∧ t.twn = { s.twn with reserved := t.twn.reserved } ∧ (s.vlt.dumpTick = false → Replies s t (.reserve f .granted) [.twn])) ∧
        (∀ p run, s.waiter? (.reserve f) = some p → s.mbx.run? p = some run → s.mbx.hostDiscard = false → Gives (.fieldReserve true f .refused) s fun t =>
          Answered t p run.opcode 5 run.seq (bytesLE 4 0) ∧ Heard s t mbxParts) ∧
        (s.waiter? (.reserve f) = none → ∀ ph, ph ≠ .request → Gives (.fieldReserve true f ph) s fun t => Heard s t []))) ∧
    ((s.twn.state = 1 ∨ s.twn.state = 4) → s.twn.everPaired = false → s.awake = true → s.mpt.enumerated = true →
      (s.now < ticksOfSeconds (s.param .twnPairWaitS) → Gives .pairWaitExpired s fun t => t = s.toDev) ∧
      (ticksOfSeconds (s.param .twnPairWaitS) ≤ s.now → s.fields.filter (fun f => f.assembled && !f.owned) = [] → Gives .pairWaitExpired s fun t =>
        t.twn.state = 6 ∧ Only [.twn, .win, .tck, .fbk, .ctr, .mbx, .hif, .out] s.toDev t) ∧
      (∀ f, ticksOfSeconds (s.param .twnPairWaitS) ≤ s.now → s.fields = [f] → f.assembled = true → f.owned = false → f.ownerPos ≠ s.twn.position →
        Gives .pairWaitExpired s fun t => t.twn.state = 6 ∧ t.fields = [{ f with seen := true, ownerWait := true }] ∧ f.id ∈ t.twn.partnerOwned ∧
          Only [.fields, .twn, .win, .tck, .fbk, .ctr, .mbx, .hif, .out] s.toDev t)) ∧
    ((s.twn.state ≠ 1 ∧ s.twn.state ≠ 4) ∨ s.twn.everPaired = true → Gives .pairWaitExpired s fun t => t = s.toDev)

/-- Handovers and adoption. Whether a field may be handed is the model's mayHand. A command that is answered at once without
a change is stated with Refused and status 0. -/
def Obligations.Handovers : Prop :=
  ∀ s : State,
    (∀ (p : MbxPath) (r : MbxReq) (f : Field), Idle s.toDev → r.len = 8 → s.field? (reqId r) = some f → f.seen = true →
      let coming := (s.twn.handovers.filter fun h => h.toPartner && !h.swapped).length
      let may := s.mayHand f = true ∧ f.offlineReq = false ∧ f.labelChanges = []
      (¬may → Gives (.twnHandover p r) s (Refused s p r 0x0902 5 (bytesLE 4 0))) ∧
      (may → 128 ≤ s.twn.partnerOwned.length + coming → Gives (.twnHandover p r) s (Refused s p r 0x0902 5 (bytesLE 4 noDetail))) ∧
      (may → s.twn.partnerOwned.length + coming < 128 → s.mst.failed = false → Gives (.twnHandover p r) s fun t =>
        Waits t p 0x0902 (.handover [f.id] 0) ∧ t.twn = { s.twn with handovers := s.twn.handovers ++ [⟨f.id, true, false, false⟩] } ∧
        t.field? f.id = some { f with admitStop := true } ∧ Only [.twn, .fields, .mbx] s.toDev t) ∧
      let adopt := s.twn.mode = true ∧ f.owned = false ∧ f.assembled = true ∧ (s.twn.state = 5 ∨ s.twn.state = 6) ∧ s.twn.declared = none
      (¬adopt → Gives (.twnAdopt p r) s (Refused s p r 0x0904 5 (bytesLE 4 0))) ∧
      (adopt → 128 ≤ s.ownIds.length → Gives (.twnAdopt p r) s (Refused s p r 0x0904 5 (bytesLE 4 noDetail))) ∧
      (adopt → s.ownIds.length < 128 → Gives (.twnAdopt p r) s fun t => Waits t p 0x0904 (.label f.id) ∧
        t.field? f.id = some { f with owned := true, ownerPos := s.twn.position, ownerWait := false, recovering := true, reread := some ⟨s.tck.count, .adopt (some p)⟩ } ∧
        t.twn.ownerEpoch = s.twn.ownerEpoch + 1 ∧ f.id ∉ t.twn.partnerOwned ∧ (∀ x ∈ t.twn.pool, x.field ≠ f.id) ∧
        (∀ m ∈ s.mpt.members, m.state ≠ 4 → m.state ≠ 5 → ∃ c ∈ t.mpt.cmds, c.member = m.id ∧ c.op = .read ∧ c.lba = 0 ∧ c.nlb = 16384 ∧ c.purpose = .adopt) ∧
        (∀ c ∈ s.mpt.cmds, c ∈ t.mpt.cmds) ∧ Only [.fields, .twn, .kst, .mpt, .sys, .mbx] s.toDev t)) ∧
    (∀ (p : MbxPath) (r : MbxReq), Idle s.toDev → r.len = 0 → let l := (s.fields.filter fun f => f.owned && f.homePos ≠ s.twn.position).map (·.id)
      (s.twn.state ≠ 3 ∨ s.twn.returnLeft ≠ [] → Gives (.twnReturn p r) s (Refused s p r 0x0903 5 (bytesLE 4 noDetail))) ∧
      (s.twn.state = 3 → s.twn.returnLeft = [] → l = [] → Gives (.twnReturn p r) s (Refused s p r 0x0903 0 (bytesLE 4 0))) ∧
      (s.twn.state = 3 → s.twn.returnLeft = [] → l ≠ [] → Gives (.twnReturn p r) s fun t => Waits t p 0x0903 (.handover [] 0) ∧
        t.twn = { s.twn with returnLeft := l, returnCount := 0 } ∧ Only [.twn, .mbx] s.toDev t)) ∧
    (s.twinUp = true → Linked s.toDev →
      (∀ fid a b gen,
        (s.twn.state ≠ 3 ∨ (∀ f, s.field? fid = some f → f.owned = true) → Gives (.handoverOffer true fid a b gen) s fun t =>
          Replies s t (.accept fid false) []) ∧
        (∀ f, s.twn.state = 3 → s.field? fid = some f → f.owned = false → Gives (.handoverOffer true fid a b gen) s fun t =>
          t.field? fid = some { f with recovering := true, gen := gen } ∧
          t.twn = { s.twn with handovers := s.twn.handovers ++ [⟨fid, false, true, false⟩] } ∧ Heard s t [.fields, .twn])) ∧
      (∀ fid,
        (∀ acc, (∀ h ∈ s.twn.handovers, h.field = fid → h.toPartner = true → h.offered = true → h.swapped = true) →
          Gives (.handoverAccept true fid acc) s fun t => Heard s t []) ∧
        (∀ f, s.twn.handovers = [⟨fid, true, true, false⟩] → s.field? fid = some f →
          (Gives (.handoverAccept true fid true) s fun t =>
            t.twn.handovers = [⟨fid, true, true, true⟩] ∧ fid ∈ t.twn.partnerOwned ∧
            t.twn.pool = s.twn.pool ++ s.cache.lines.filter (fun x => x.field = fid && (x.st = .committed || x.st = .band)) ∧
            (∀ x ∈ t.cache.lines, x.field ≠ fid) ∧ t.mst = { s.mst with queue := t.mst.queue } ∧
            (s.mst.failed = false → ⟨1, entryLine fid, .fieldEntry fid, none, none⟩ ∈ t.mst.queue ∧
              ∀ x ∈ s.mst.slots, x.field = fid → ∀ e ∈ x.list, s.guardHeld x.idx (some e) = false →
                ⟨5, slotLine x.idx, .listRemove x.idx e.1 e.2, none, none⟩ ∈ t.mst.queue) ∧
            t.field? fid = some { f with
              owned := false, recovering := true, homeIndex := none, fineUse := false, fineBlocks := 0, fineShift := 0, fineRelease := false, repOn := []
              rsSlot := 16, rsPend := none, rsEnding := false } ∧ Heard s t [.cache, .twn, .fields, .mst]) ∧
          Gives (.handoverAccept true fid false) s fun t => t.twn = { s.twn with handovers := [], returnLeft := [] } ∧
            t.field? fid = some { f with admitStop := false } ∧ Heard s t [.twn, .fields, .fbk, .ctr, .mbx, .hif, .out])) ∧
      (∀ fid f, s.field? fid = some f → s.twn.handovers = [⟨fid, true, false, false⟩] → s.awake = true → s.hif.hold = false →
        let busy := (∃ c ∈ s.qs.cmds, c.e.fieldId.toNat = fid ∧ c.stage ≠ .finished ∧ c.stage ≠ .held) ∨ (∃ j ∈ s.cache.jobs, j.field = fid) ∨
          f.rsStage ≠ .idle ∨ f.labelChanges ≠ [] ∨ f.marked ≠ [] ∨ f.lineSet ≠ [] ∨ fid ∈ s.twn.ckptDirty
        (busy → Gives (.handoverDrained fid) s fun t => t = s.toDev) ∧
        (¬busy → Gives (.handoverDrained fid) s fun t => t.twn = { s.twn with handovers := [⟨fid, true, true, false⟩] } ∧
          Sends s.toDev t (.offer fid s.twn.ckptSeq.toNat s.twn.mirrorSeq.toNat f.gen) ∧ Only [.twn, .lnk, .out] s.toDev t)) ∧
      (s.awake = true → s.hif.hold = true → s.twn.state = 3 →
        (s.now < s.hif.holdSince.toNat + ticksOfSeconds (s.param .twnHoldHandoverS) → Gives .holdHandoverTimeout s fun t => t = s.toDev) ∧
        (s.hif.holdSince.toNat + ticksOfSeconds (s.param .twnHoldHandoverS) ≤ s.now → s.mst.failed = false → Gives .holdHandoverTimeout s fun t =>
          (∀ f ∈ s.fields, s.mayHand f = true → (∃ h ∈ t.twn.handovers, h.field = f.id ∧ h.toPartner = true) ∧ ∃ g ∈ t.fields, g.id = f.id ∧ g.admitStop = true) ∧
          (∀ h ∈ s.twn.handovers, h ∈ t.twn.handovers) ∧ Only [.twn, .fields] s.toDev t)))

/-- R252 to R254. That a missed tick is counted at the end of the Mirror phase is the model's reading; the rule is stated
here outside that phase. -/
def Obligations.Takeover : Prop :=
  ∀ s : State,
    (s.twinUp = true → s.twn.handovers = [] →
      Gives .twinAlivePulse s (fun t => t.twn = { s.twn with pulseThis := true, aliveFault := false } ∧ Only [.twn] s.toDev t) ∧
      (s.partner = true → s.twn.hbMissed = 0 → s.twn.pulses = false → s.twn.aliveFault = false → Gives .twnAliveFault s fun t =>
        t.twn = { s.twn with aliveFault := true } ∧ t.fbk = (s.toDev.record 0x7005 s.srcTwin 0 0 0).fbk ∧ Only [.twn, .fbk, .ctr] s.toDev t) ∧
      (s.partner = false ∨ s.twn.hbMissed ≠ 0 ∨ s.twn.pulses = true ∨ s.twn.aliveFault = true → Gives .twnAliveFault s fun t => t = s.toDev) ∧
      (s.awake = true → s.partner = true → s.tck.phaseIdx ≠ 2 →
        (s.twn.hbMissed < 3 ∨ s.vlt.dumping ≠ none → Gives .twoPathRule s fun t => t = s.toDev) ∧
        (3 ≤ s.twn.hbMissed → s.vlt.dumping = none → s.twn.pulses = true → s.twn.partnerDump = false → Gives .twoPathRule s fun t =>
          t.twn.state = 4 ∧ t.twn.declared = s.twn.declared ∧ Only [.twn, .win, .tck, .fbk, .ctr, .mbx, .hif, .out] s.toDev t) ∧
        (3 ≤ s.twn.hbMissed → s.vlt.dumping = none → (s.twn.pulses = false ∨ s.twn.partnerDump = true) →
          (s.twn.state = 2 → Gives .twoPathRule s fun t => t.twn.state = 5 ∧ t.twn.declared = s.twn.declared ∧
            Only [.twn, .win, .tck, .fbk, .ctr, .mbx, .hif, .out] s.toDev t) ∧
          (s.twn.state = 3 → Gives .twoPathRule s fun t => t.twn.state = 5 ∧ t.twn.declared = some s.tck.count ∧ t.twn.fenced = s.ownIds ∧
            t.twn.fenceAsked = false ∧ t.ctr[ctrIx .twnTakeovers] = min (s.ctr[ctrIx .twnTakeovers] + 1) maxCount ∧
            (∀ fid ∈ s.twn.partnerOwned, (s.field? fid).isSome = true → fid ∉ s.ownIds → fid ∈ t.twn.taken ∧
              ∃ g, t.field? fid = some g ∧ g.owned = true ∧ g.ownerPos = s.twn.position ∧ g.recovering = true ∧ g.fenceWait = true ∧ g.takenOver = true) ∧
            (∀ fid, s.twn.partnerOwned = [fid] → (s.field? fid).isSome = true → fid ∉ s.ownIds → t.twn.ownerEpoch = s.twn.ownerEpoch + 1) ∧
            ∀ q ∈ [Part.tasks, .mor, .drm, .vlt, .upd, .cfg, .cfgNext, .qs], q.Same s.toDev t)))) ∧
    (s.awake = true → ∀ d, s.twn.declared = some d → let k := s.now - d.toNat
      (k < s.param .twnFenceTicks - 2 → Gives .takeoverLabelDeadline s fun t => t = s.toDev) ∧
      (s.param .twnFenceTicks - 2 ≤ k → Gives .takeoverLabelDeadline s fun t =>
        (∀ f ∈ s.fields, f.id ∈ s.twn.taken → ∀ c ∈ f.labelChanges, c.andThen = .takeover → ∀ e ∈ c.left, (⟨e.2, false, 2⟩ : FaultDecision) ∈ t.tasks.faultEvents) ∧
        (∀ e ∈ s.tasks.faultEvents, e ∈ t.tasks.faultEvents) ∧ t.tasks = { s.tasks with faultEvents := t.tasks.faultEvents } ∧ Only [.tasks] s.toDev t) ∧
      (k < s.param .twnFenceTicks ∨ s.twn.fenceAsked = true → Gives .takeoverFenceCheck s fun t => t = s.toDev) ∧
      (s.param .twnFenceTicks ≤ k → s.twn.fenceAsked = false → Gives .takeoverFenceCheck s fun t => t.twn = { s.twn with fenceAsked := true } ∧
        (∀ f ∈ s.fields, f.id ∈ s.twn.fenced → ∀ m ∈ f.replicaMembers, ∃ c ∈ t.mpt.cmds, c.member = m ∧ c.op = .read ∧ c.lba = 0 ∧ c.nlb = 512 ∧ c.purpose = .fence f.id) ∧
        (∀ c ∈ s.mpt.cmds, c ∈ t.mpt.cmds) ∧ Only [.twn, .mpt] s.toDev t) ∧
      (k < s.param .twnFenceTicks + 66 → Gives .twnTakeoverDone s fun t => t = s.toDev) ∧
      (s.param .twnFenceTicks + 66 ≤ k → s.twn.fenced = [] → Gives .twnTakeoverDone s fun t =>
        t.twn = { s.twn with declared := none, taken := [], fenceAsked := false } ∧ t.hif.events.getLsbD 4 = true ∧
        (∀ f, s.twn.taken = [f.id] → s.fields = [f] → s.recoveryDone { f with fenceWait := false } = true →
          ∃ g, t.field? f.id = some g ∧ g.recovering = false ∧ g.fenceWait = false) ∧
        Only [.twn, .fields, .sys, .fbk, .ctr, .hif, .out] s.toDev t)) ∧
    (s.twn.declared = none → ∀ i ∈ [Instr.takeoverLabelDeadline, .takeoverFenceCheck, .twnTakeoverDone], Gives i s fun t => t = s.toDev)

/-- What may start is decided by the model's destages, ripeCourse, olderWaits, resyncTurn, nextScrub, mayRebuild and mayStep.
Frame faults and hod errors of a destage (operands) are not stated here. -/
def Obligations.BackgroundStarts : Prop :=
  ∀ s : State,
    (s.works = false → (∀ f c g l h, Gives (.destageStart f c g ⟨l, h⟩) s fun t => t = s.toDev) ∧ (∀ f c g, Gives (.resyncCourseStart f c g) s fun t => t = s.toDev) ∧
      ∀ f, ∀ i ∈ [Instr.scrubCourseStart f, .rebuildCourseStart f, .reshapeStepStart f], Gives i s fun t => t = s.toDev) ∧
    (s.works = true → ∀ f fid, s.field? fid = some f →
      (∀ c g, let busy := ∃ j ∈ s.cache.jobs, (j.kind = .destage ∨ j.kind = .seal) ∧ j.field = fid ∧ j.course = c ∧ j.geom = g;
        (busy ∨ s.destages f = false ∨ s.ripeCourse f c g = false ∨ s.olderWaits f c g = true ∨ s.destageLines f c g = [] → ∀ l h, Gives (.destageStart fid c g ⟨l, h⟩) s fun t => t = s.toDev) ∧
        (¬busy → s.destages f = true → s.ripeCourse f c g = true → s.olderWaits f c g = false → s.destageLines f c g ≠ [] →
          (methodOf (s.destageLines f c g).length (f.courseBlocks g) ≠ .rmw → Gives (.destageStart fid c g ⟨[], []⟩) s fun t =>
            StartsJob s.toDev t .destage fid c g ∧ Only [.cache] s.toDev t) ∧
          (methodOf (s.destageLines f c g).length (f.courseBlocks g) = .rmw → Gives (.destageStart fid c g ⟨[], []⟩) s fun t =>
            (∃ j ∈ t.cache.jobs, j.kind = .destage ∧ j.field = fid ∧ j.course = c ∧ j.geom = g ∧ j.stage = .waitLock ∧ j.rows ≠ []) ∧
            Only [.cache, .ctr, .hod] s.toDev t))) ∧
      (∀ c g, let busy := ∃ j ∈ s.cache.jobs, j.kind = .resync ∧ j.field = fid ∧ j.course = c ∧ j.geom = g;
        let due := (c, g) ∈ f.resyncSet ∨ f.needsResync g c = true ∧ 0 < s.tasks.share ∧ f.recovering = false ∧ s.resyncTurn f g c = true;
        let may := f.owned = true ∧ f.fenceWait = false ∧ f.failed = false ∧ s.mor.lost = false;
        (¬busy → due → may → Gives (.resyncCourseStart fid c g) s fun t => StartsJob s.toDev t .resync fid c g ∧ Only [.cache] s.toDev t) ∧
        (busy ∨ ¬due ∨ ¬may → Gives (.resyncCourseStart fid c g) s fun t => t = s.toDev)) ∧
      (let busy := ∃ j ∈ s.cache.jobs, j.kind = .scrub ∧ j.field = fid;
        let may := s.sys.thermWarn = false ∧ s.param .morScrubIntervalH ≠ 0 ∧ f.condFlags = 1 ∧ f.reported = 1 ∧ f.owned = true ∧ f.admitStop = false ∧ s.mor.lost = false;
        (busy ∨ ¬may → Gives (.scrubCourseStart fid) s fun t => t = s.toDev) ∧
        (∀ c, ¬busy → may → s.nextScrub f f.courses f.scrubPos = some c → Gives (.scrubCourseStart fid) s fun t =>
          StartsJob s.toDev t .scrub fid c false ∧ t.field? fid = some { f with scrubPos := c } ∧ Only [.cache, .fields] s.toDev t) ∧
        (¬busy → may → s.nextScrub f f.courses f.scrubPos = none → Gives (.scrubCourseStart fid) s fun t =>
          t.field? fid = some { f with scrubPos := 0, scrubStart := s.tck.count, scrubLate := false } ∧ Only [.fields] s.toDev t)) ∧
      (let may := s.tasks.share ≠ 0 ∧ f.failed = false ∧ f.recovering = false ∧ f.offline = false ∧ f.owned = true ∧ f.admitStop = false ∧ f.labelChanges = [] ∧ s.mor.lost = false;
        (¬may ∨ (∀ x ∈ f.targets, s.mayRebuild f x = false) → Gives (.rebuildCourseStart fid) s fun t => t = s.toDev) ∧
        (∀ x, may → f.targets = [x] → s.mayRebuild f x = true → Gives (.rebuildCourseStart fid) s fun t =>
          StartsJob s.toDev t .rebuild fid x.issued x.side ∧ (∃ j ∈ t.cache.jobs, j.id = s.cache.nextJob ∧ j.targets = (f.posIn x.side x.position).toList) ∧
          t.field? fid = some { f with targets := [{ x with issued := (x.issued + 1) % (max 1 (f.coursesOf x.side)) }] } ∧ Only [.cache, .fields] s.toDev t)) ∧
      ((∀ r, f.rs = some r → s.mayStep f r = false) → Gives (.reshapeStepStart fid) s fun t => t = s.toDev) ∧
      (∀ r, f.rs = some r → s.mayStep f r = true → f.rsRedo = false → Gives (.reshapeStepStart fid) s fun t =>
        (∃ j ∈ t.cache.jobs, j.id = s.cache.nextJob ∧ j.kind = .reshape ∧ j.field = fid ∧ j.geom = true ∧ j.stage = .waitLock) ∧
        (∃ g r', t.field? fid = some g ∧ g.rsStage = .locks ∧ g.rs = some r' ∧ r' = { r with stepCourses := r'.stepCourses }) ∧
        Only [.cache, .fields] s.toDev t) ∧
      (∀ r, f.rs = some r → s.mayStep f r = true → f.rsRedo = true → Gives (.reshapeStepStart fid) s fun t =>
        (∃ j ∈ t.cache.jobs, j.id = s.cache.nextJob ∧ j.kind = .reshape ∧ j.field = fid ∧ j.geom = true ∧ j.stage = .waitLock) ∧
        (∃ g, t.field? fid = some g ∧ g.rsStage = .locks ∧ g.rsRedo = false) ∧
        t.fbk = (s.toDev.record 0x5015 (s.srcField fid) r.kind (r.headland % 2 ^ 32) (r.headland / 2 ^ 32)).fbk ∧
        t.ctr[ctrIx .morReshapeRedos] = min (s.ctr[ctrIx .morReshapeRedos] + 1) maxCount ∧ Only [.cache, .fields, .fbk, .ctr] s.toDev t))

/-- Rows 1, 4, 5 and 6 of R144, paths of R145, namespaces of R55 and R147. Labelled namespaces and the assembly of fields are
not stated here. When the admin commands are sent is the model's choice (log entry 115). -/
def Obligations.MemberEvents : Prop :=
  ∀ s : State,
    (s.awake = false → ∀ m w n l port, ∀ i ∈ [Instr.memberControllerFatal m, .memberReadyTimeout m, .memberAsyncEvent m w, .memberPathLost m, .memberPathReturned m,
      .memberPathGraceExpired m, .namespaceDiscovered n, .memberEnumerationDone l, .mptPerstRelease port], Gives i s fun t => t = s.toDev) ∧
    (s.awake = true →
      (∀ m, s.member? m = none → ∀ w, ∀ i ∈ [Instr.memberControllerFatal m, .memberReadyTimeout m, .memberAsyncEvent m w, .memberPathLost m, .memberPathReturned m,
        .memberPathGraceExpired m], Gives i s fun t => t = s.toDev) ∧
      (∀ m x, s.member? m = some x →
        let Notes (missing : Bool) (row : Nat) (t : Dev) : Prop := (⟨m, missing, row⟩ : FaultDecision) ∈ t.tasks.faultEvents ∧
          (∀ e ∈ s.tasks.faultEvents, e ∈ t.tasks.faultEvents) ∧ t.tasks = { s.tasks with faultEvents := t.tasks.faultEvents } ∧ Only [.tasks] s.toDev t
        Gives (.memberControllerFatal m) s (Notes false 1) ∧ Gives (.memberReadyTimeout m) s (Notes false 1) ∧
        (let Asks (t : Dev) : Prop := t.out = s.out ++ [.memberAdmin m (.getLogPage 2), .memberAdmin m .asyncEventRequest];
          (∀ w row, (w = .readOnlyMedia ∧ row = 4) ∨ ((w = .spareLow ∨ w = .reliability) ∧ row = 5) → Gives (.memberAsyncEvent m w) s fun t => Asks t ∧
            (⟨m, false, row⟩ : FaultDecision) ∈ t.tasks.faultEvents ∧ (∀ e ∈ s.tasks.faultEvents, e ∈ t.tasks.faultEvents) ∧
            t.tasks = { s.tasks with faultEvents := t.tasks.faultEvents } ∧ Only [.tasks, .out] s.toDev t) ∧
          Gives (.memberAsyncEvent m .cleared) s (fun t => Asks t ∧ t.member? m = some { x with warning := false } ∧ Only [.mpt, .out] s.toDev t)) ∧
        (x.pathLost = none → x.state ≠ 4 → x.state ≠ 5 → Gives (.memberPathLost m) s fun t =>
          t.member? m = some { x with pathLost := some s.tck.count } ∧
          (∀ c ∈ t.mpt.cmds, c.member = m → c.op ≠ .read → c.failed = false → c.held = true ∧ c.issued = none) ∧
          (∀ c ∈ s.mpt.cmds, c.member ≠ m ∨ c.op = .read → c ∈ t.mpt.cmds) ∧ Only [.mpt] s.toDev t) ∧
        (x.pathLost ≠ none ∨ x.state = 4 ∨ x.state = 5 → Gives (.memberPathLost m) s fun t => t = s.toDev) ∧
        (x.pathLost ≠ none → Gives (.memberPathReturned m) s fun t => t.member? m = some { x with pathLost := none } ∧
          (∀ c ∈ t.mpt.cmds, c.member = m → c.held = false) ∧ (∀ c ∈ s.mpt.cmds, c.member ≠ m → c ∈ t.mpt.cmds) ∧ Only [.mpt] s.toDev t) ∧
        (x.pathLost = none → Gives (.memberPathReturned m) s fun t => t = s.toDev) ∧
        (∀ d, x.pathLost = some d → s.now < d.toNat + s.param .mptPathGraceTicks → Gives (.memberPathGraceExpired m) s fun t => t = s.toDev) ∧
        (∀ d, x.pathLost = some d → d.toNat + s.param .mptPathGraceTicks ≤ s.now → Gives (.memberPathGraceExpired m) s (Notes true 6))) ∧
      (∀ n : NsFound, (nsRefused n = true ∨ s.mpt.enumerated = false → Gives (.namespaceDiscovered n) s fun t => t = s.toDev) ∧
        (∀ x, s.mpt.members.find? (·.uid = NsUid n) = some x → x.state ≠ 5 → Gives (.namespaceDiscovered n) s fun t => t = s.toDev) ∧
        (∀ id, s.mpt.enumerated = true → s.mpt.members.find? (·.uid = NsUid n) = none → nsRefused n = false → s.slotOfNs n = some id → n.labels = [] →
          Gives (.namespaceDiscovered n) s fun t =>
            t.member? id = some { s.memberOf n id with state := if s.mpt.cleared.contains (NsUid n) then 7 else 6 } ∧
            (∀ k < 4, Out.memberAdmin id (.identify k) ∈ t.out) ∧ (∃ l, t.out = s.out ++ l ∧ ∀ o ∈ l, ∃ c, o = .memberAdmin id c) ∧
            s.sys.epoch < t.sys.epoch ∧ (s.mpt.cleared.contains (NsUid n) = false → t.fields = s.fields) ∧
            (∀ k, k ≠ id → t.member? k = s.member? k) ∧ Only [.mpt, .sys, .fields, .out] s.toDev t)) ∧
      (s.sys.dramReady = true →
        (∀ port, port < 4 → Gives (.mptPerstRelease port) s fun t => t.mpt.perst.getLsbD port = true ∧
          (∀ k, k ≠ port → t.mpt.perst.getLsbD k = s.mpt.perst.getLsbD k) ∧ t.mpt = { s.mpt with perst := t.mpt.perst } ∧ Only [.mpt] s.toDev t) ∧
        (s.mpt.enumerated = true → ∀ l, Gives (.memberEnumerationDone l) s fun t => t = s.toDev) ∧
        (∀ l, s.mpt.enumerated = false → s.kst.secrets = [] → s.twn.mode = false → s.fields = [] → (∀ n ∈ l, s.mpt.perst.getLsbD n.port = false ∨ nsRefused n = true) →
          Gives (.memberEnumerationDone l) s fun t => t.mpt = { s.mpt with enumerated := true, found := l.filter fun n => s.mpt.perst.getLsbD n.port } ∧
            Only [.mpt] s.toDev t) ∧
        (∀ n id, s.mpt.enumerated = false → s.kst.secrets = [] → s.twn.mode = false → s.fields = [] → s.mpt.perst.getLsbD n.port = true → nsRefused n = false →
          s.slotOfNs n = some id → n.labels = [] → s.mpt.cleared.contains (NsUid n) = false → Gives (.memberEnumerationDone [n]) s fun t =>
            t.mpt.enumerated = true ∧ t.member? id = some (s.memberOf n id) ∧ Only [.mpt, .sys, .out] s.toDev t)))

/-- What may be done is decided by the model's drained, recoveryDone, rebuildable and chooseSpare. -/
def Obligations.FieldTimers : Prop :=
  ∀ s : State,
    (s.awake = false → ∀ f pos, ∀ i ∈ [Instr.fieldOfflineDone f, .fieldRecovered f, .rebuildStart f pos, .rebuildTargetJoined f pos, .fieldScrubLate f, .scrubPositionSave, .mstReplicaTick f],
      Gives i s fun t => t = s.toDev) ∧
    (s.awake = true →
      (s.now < s.sys.scrubHour.toNat + ticksOfSeconds 3600 → Gives .scrubPositionSave s fun t => t = s.toDev) ∧
      (s.sys.scrubHour.toNat + ticksOfSeconds 3600 ≤ s.now → Gives .scrubPositionSave s fun t => t.sys = { s.sys with scrubHour := s.tck.count } ∧
        t.fields = s.fields.map (fun f => { f with scrubSaved := f.scrubPos }) ∧ Only [.sys, .fields] s.toDev t) ∧
      ∀ fid f, s.field? fid = some f →
        (f.offlineReq = false ∨ s.drained f = false → Gives (.fieldOfflineDone fid) s fun t => t = s.toDev) ∧
        (f.offlineReq = true → s.drained f = true → Gives (.fieldOfflineDone fid) s fun t =>
          (∃ g, t.field? fid = some g ∧ g.offlineReq = false ∧ g.offline = true) ∧ t.hod.invalidating = true ∧
          (s.hod.invalidating = false → ∀ l ∈ t.hod.lines ++ t.hod.victims, l.valid = false) ∧
          (∀ p run, s.waiter? (.offline fid) = some p → s.mbx.run? p = some run → s.mbx.hostDiscard = false → Answered t p run.opcode 0 run.seq []) ∧
          Only [.fields, .hod, .mpt, .sys, .mbx, .fbk, .ctr, .hif, .out] s.toDev t) ∧
        (s.recoveryDone f = false → Gives (.fieldRecovered fid) s fun t => t = s.toDev) ∧
        (s.recoveryDone f = true → Gives (.fieldRecovered fid) s fun t => (∃ g, t.field? fid = some g ∧ g.recovering = false ∧ (f.marked ≠ [] → g.resyncing = true)) ∧
          Only [.fields, .sys, .fbk, .ctr, .hif, .out] s.toDev t) ∧
        (∀ pos,
          (s.param .morAutoRebuild = 0 ∨ f.rebuildable pos = false → Gives (.rebuildStart fid pos) s fun t => t = s.toDev) ∧
          (s.param .morAutoRebuild ≠ 0 → f.rebuildable pos = true → s.chooseSpare f = none →
            (pos ∈ f.noSpare → Gives (.rebuildStart fid pos) s fun t => t = s.toDev) ∧
            (pos ∉ f.noSpare → Gives (.rebuildStart fid pos) s fun t => t.field? fid = some { f with noSpare := f.noSpare ++ [pos] } ∧
              t.fbk = (s.toDev.record 0x5004 (s.srcField fid) pos 0 0).fbk ∧ Only [.fields, .fbk, .ctr] s.toDev t)) ∧
          (∀ m, s.param .morAutoRebuild ≠ 0 → f.rebuildable pos = true → s.chooseSpare f = some m → f.reread = none → fid ∉ s.twn.fenced → Gives (.rebuildStart fid pos) s fun t =>
            (∃ z, t.member? m = some z ∧ z.state = 3 ∧ z.field = some fid ∧ z.position = pos) ∧
            (∃ g e, t.field? fid = some g ∧ g.rebuildEntry? pos = some e ∧ e.member = some m ∧ e.state = 3 ∧ g.gen = f.gen + 1) ∧ Only [.fields, .mpt, .sys] s.toDev t) ∧
          ((∀ x ∈ f.targets, x.position = pos → x.joined = false) → Gives (.rebuildTargetJoined fid pos) s fun t => t = s.toDev) ∧
          (∀ a b, f.targets = [a, b] → a.joined = false → a.position ≠ pos → b.joined = true → b.position = pos → f.reshaping = false → f.labelChanges = [] →
            (a.issued ≠ a.next → Gives (.rebuildTargetJoined fid pos) s fun t => t = s.toDev) ∧
            (a.issued = a.next → Gives (.rebuildTargetJoined fid pos) s fun t =>
              (∃ g, t.field? fid = some g ∧ g.progressSeq = f.progressSeq + 1 ∧ g.targets = [{ a with sinceCkpt := 0 },
                { b with joined := false, side := a.side, start := a.next, next := a.next, issued := a.next, sinceCkpt := 0 }]) ∧
              t.fbk = (s.toDev.record 0x5003 (s.srcField fid) pos (a.next % 2 ^ 32) (a.next / 2 ^ 32)).fbk ∧ Only [.fields, .mpt, .fbk, .ctr] s.toDev t))) ∧
        (let late := f.owned = true ∧ s.param .morScrubIntervalH ≠ 0 ∧ f.scrubLate = false ∧ f.scrubStart.toNat + ticksOfSeconds (3600 * s.param .morScrubIntervalH) ≤ s.now;
          (¬late → Gives (.fieldScrubLate fid) s fun t => t = s.toDev) ∧
          (late → Gives (.fieldScrubLate fid) s fun t => t.field? fid = some { f with scrubLate := true } ∧
            t.fbk = (s.toDev.record 0x3026 (s.srcField fid) 0 0 0).fbk ∧ Only [.fields, .fbk, .ctr] s.toDev t)) ∧
        (let at' := match f.homeIndex with | some h => 32 * h | none => 32 * (f.id % 128) + 16;
          let due := s.now % s.param .mstReplicaTicks = at' % s.param .mstReplicaTicks;
          (¬due → Gives (.mstReplicaTick fid) s fun t => t = s.toDev) ∧
          (due → f.assembled = true → f.owned = true → f.reread = none → f.repFlight = none → f.replicaMembers ≠ [] → Gives (.mstReplicaTick fid) s fun t =>
            (∃ g, t.field? fid = some g ∧ g.refreshSeq = f.refreshSeq + 1 ∧ g.repFlight = some ⟨s.coarseMap fid, s.fineSetOf fid, f.replicaMembers, f.replicaMembers⟩) ∧
            (∀ m ∈ f.replicaMembers, ∃ c ∈ t.mpt.cmds, c.member = m ∧ c.op = .write ∧ c.lba = 0x1000 + 8 * s.toDev.nextCopy m ∧ c.nlb = 3 ∧ c.purpose = .replica fid) ∧
            Only [.fields, .mpt, .ctr] s.toDev t)))

/-- Sessions. That SESSION_ID is a free value that is not 0, and what a close of another session answers, are the model's
choices (log entry 46). -/
def Obligations.UpdateSessions : Prop :=
  ∀ (s : State) (p : MbxPath) (r : MbxReq), Idle s.toDev → s.mst.failed = false → let u := s.upd; let d : Digest := BitVec.ofNat 384 (reqAt r 0 48);
    let mine := u.session = true ∧ reqAt r 0 4 = u.sessionId.toNat;
    let force := p = .mgmt ∧ reqAt r 4 1 = 1;
    (r.len = 48 →
      (u.session = true → d = u.digest → u.joined p = true → Gives (.updOpen p r) s fun t =>
        UpdDone s t p 0x0601 r.seq (bytesLE 4 u.sessionId.toNat ++ zeroBytes 4) false { u with idleS := 0, idleSince := s.tck.count } []) ∧
      (u.session = true → d = u.digest → u.joined p = false → Gives (.updOpen p r) s fun t =>
        UpdDone s t p 0x0601 r.seq (bytesLE 4 u.sessionId.toNat ++ [1] ++ zeroBytes 3) false { u.join p with idleS := 0, idleSince := s.tck.count } []) ∧
      (u.session = true → d ≠ u.digest → Gives (.updOpen p r) s (Refused s p r 0x0601 4 s.busyPayload)) ∧
      let may := (u.seedState = 0 ∨ u.seedState = 4) ∧ u.slotState u.activeSlot = 3;
      (u.session = false → may → Gives (.updOpen p r) s fun t =>
        t.upd.sessionId ≠ 0 ∧ t.freeCtr = s.freeCtr + 1 ∧
        UpdDone s t p 0x0601 r.seq (bytesLE 4 t.upd.sessionId.toNat ++ [1] ++ zeroBytes 3) true
          ({ u.noPackage with
            seedState := 1, sessionId := t.upd.sessionId, openerMgmt := decide (p = MbxPath.mgmt), digest := d, idleS := 0, idleSince := s.tck.count
            updateSeq := u.updateSeq + 1, chunks := [], manifest := none, erasing := true }.join p) [.freeCtr]) ∧
      (u.session = false → ¬may → Gives (.updOpen p r) s (Refused s p r 0x0601 5 (bytesLE 4 noDetail)))) ∧
    (r.len = 8 →
      (¬mine → Gives (.updClose p r) s (Refused s p r 0x0604 3 (bytesLE 4 0))) ∧
      (mine → u.joined p = false → Gives (.updClose p r) s (Refused s p r 0x0604 4 s.busyPayload)) ∧
      (mine → u.joined p = true → u.complete = false → Gives (.updClose p r) s (Refused s p r 0x0604 5 (bytesLE 4 noDetail))) ∧
      (mine → u.joined p = true → u.complete = true → Gives (.updClose p r) s fun t => t.hif.events.getLsbD 8 = true ∧
        UpdDone s t p 0x0604 r.seq [] true { u with seedState := 2, updateSeq := u.updateSeq + 1, idleS := 0, idleSince := s.tck.count } []) ∧
      (mine → u.joined p = true ∨ force → Gives (.updAbort p r) s fun t => t.hif.events.getLsbD 8 = true ∧
        UpdDone s t p 0x0605 r.seq [] true { u.noPackage with updateSeq := u.updateSeq + 1 } []) ∧
      (¬mine ∨ u.joined p = false ∧ ¬force → Gives (.updAbort p r) s (Refused s p r 0x0605 4 s.busyPayload))) ∧
    (r.len = 0 →
      (s.unconfirmed = true → Gives (.updConfirm p r) s fun t => Answered t p 0x0606 0 r.seq [] ∧ t.upd = { u with confirmGot := true } ∧
        Only (.upd :: mbxParts) s.toDev t) ∧
      (s.unconfirmed = false → Gives (.updConfirm p r) s (Refused s p r 0x0606 5 (bytesLE 4 noDetail))))

/-- Chunks. That a chunk refused by its hash completes with CHUNK_DONE 0, that a short chunk 0 names LAST, and the DETAIL of
a wrong session are the model's choices (log entry 46). The hash function is uninterpreted. -/
def Obligations.UpdateChunks : Prop :=
  ∀ (s : State) (p : MbxPath), s.mst.failed = false →
    (∀ r : MbxReq, Idle s.toDev → 16 ≤ r.len → r.len ≤ 4080 → r.len = 16 + reqAt r 12 4 → let u := s.upd;
      let n := reqAt r 4 2; let off := reqAt r 8 4; let len := reqAt r 12 4; let last := reqAt r 6 2 % 2 = 1; let old := u.partOf p n;
      let mine := u.session = true ∧ reqAt r 0 4 = u.sessionId.toNat;
      let Bad (d : Nat) : Prop := Gives (.updChunk p r) s fun t => Answered t p 0x0602 3 r.seq (bytesLE 4 d) ∧ t.upd = u.setPart p none ∧ Only (.upd :: mbxParts) s.toDev t;
      let payload (done : Bool) : List Byte := bytesLE 1 (b2n done) ++ zeroBytes 3 ++ bytesLE 2 (chunkTally u.received) ++ zeroBytes 2;
      let next (x : Option (Nat × Nat × Nat × Bool)) : Upd := { u.setPart p x with idleS := 0, idleSince := s.tck.count };
      (¬mine → Bad 0) ∧
      (mine → u.joined p = false → Gives (.updChunk p r) s (Refused s p r 0x0602 4 s.busyPayload)) ∧
      (mine → u.joined p = true → u.seedState ≠ 1 → Gives (.updChunk p r) s (Refused s p r 0x0602 5 (bytesLE 4 noDetail))) ∧
      (mine → u.joined p = true → u.seedState = 1 →
        let badChunk := 256 ≤ n ∨ u.chunkCount ≠ 0 ∧ u.chunkCount ≤ n;
        let short := n = 0 ∧ last ∧ off + len < 65536;
        let all := off + len = 65536 ∨ last;
        (len = 0 → Bad 12) ∧ (len ≠ 0 → badChunk → Bad 4) ∧ (len ≠ 0 → ¬badChunk → off ≠ old.2 → Bad 8) ∧
        (len ≠ 0 → ¬badChunk → off = old.2 → 65536 < off + len → Bad 12) ∧
        (len ≠ 0 → ¬badChunk → off = old.2 → off + len ≤ 65536 → short → Bad 6) ∧
        (len ≠ 0 → ¬badChunk → off = old.2 → off + len ≤ 65536 → ¬short →
          (¬all → Gives (.updChunk p r) s fun t => let v := next (some (n, old.1 + reqAt r 16 len * 256 ^ off, off + len, false));
            Answered t p 0x0602 0 r.seq (payload false) ∧
            UpdKept s t false v ∧ Only (.upd :: .mst :: mbxParts) s.toDev t) ∧
          (all → u.received.getLsbD n = true → Gives (.updChunk p r) s fun t => UpdDone s t p 0x0602 r.seq (payload true) false (next none) []) ∧
          (all → u.received.getLsbD n = false → Gives (.updChunk p r) s fun t => Waits t p 0x0602 .chunk ∧
            t.upd = next (some (n, old.1 + reqAt r 16 len * 256 ^ off, off + len, true)) ∧
            Only [.upd, .mbx] s.toDev t)))) ∧
    (∀ n v len run, s.upd.part p = some (n, v, len, true) → s.mbx.run? p = some run → run.wait = .chunk → s.mbx.hostDiscard = false →
      let Lands (t : Dev) (done : Bool) : Prop :=
        let l := bytesLE 1 (b2n done) ++ zeroBytes 3 ++ bytesLE 2 (chunkTally t.upd.received) ++ zeroBytes 2;
        t.upd.part p = none ∧ (done = true → s.tck.running = true → Waits t p run.opcode (.update l) ∧
          ∃ c ∈ t.mst.queue, c.change = .update none (some t.upd.sessionNow) (some p)) ∧
        (done = false ∨ s.tck.running = false → Answered t p run.opcode 0 run.seq l ∧ t.mst = s.mst) ∧ Only (.upd :: .mst :: mbxParts) s.toDev t;
      (s.upd.erasing = true ∨ s.sys.frozen = true → Gives (.chunkLanded p) s fun t => t = s.toDev) ∧
      (s.upd.erasing = false → s.sys.frozen = false →
        ((n = 0 ∨ s.upd.chunkCount ≠ 0) → s.upd.hashOk n v len = false → Gives (.chunkLanded p) s fun t => Lands t false ∧
          (∀ e ∈ t.upd.chunks, e.1 ≠ n) ∧ t.upd.received = s.upd.received ∧ t.upd.provisional = s.upd.provisional ∧
          t.ctr[ctrIx .updChunksRefused] = min (s.ctr[ctrIx .updChunksRefused] + 1) maxCount) ∧
        (n ≠ 0 → n < 256 → s.upd.chunkCount ≠ 0 → s.upd.hashOk n v len = true → Gives (.chunkLanded p) s fun t => Lands t true ∧ (n, v, len) ∈ t.upd.chunks ∧
          t.upd.received.getLsbD n = true ∧ (∀ k, k ≠ n → t.upd.received.getLsbD k = s.upd.received.getLsbD k) ∧ t.upd.provisional = s.upd.provisional ∧
          t.ctr[ctrIx .updChunksAccepted] = min (s.ctr[ctrIx .updChunksAccepted] + 1) maxCount) ∧
        (n ≠ 0 → n < 256 → s.upd.chunkCount = 0 → Gives (.chunkLanded p) s fun t => Lands t true ∧ (n, v, len) ∈ t.upd.chunks ∧
          t.upd.provisional.getLsbD n = true ∧ (∀ k, k ≠ n → t.upd.provisional.getLsbD k = s.upd.provisional.getLsbD k) ∧ t.upd.received = s.upd.received) ∧
        (n = 0 → s.upd.hashOk n v len = true → s.upd.provisional = 0 → Gives (.chunkLanded p) s fun t => Lands t true ∧ (n, v, len) ∈ t.upd.chunks ∧
          t.upd.received.getLsbD 0 = true ∧ t.upd.chunkCount = t.upd.packageAt 0xC 2))) ∧
    (s.upd.part p = none → Gives (.chunkLanded p) s fun t => t = s.toDev) ∧
    (s.kst.running = true → s.sys.frozen = false → Gives .seedbedEraseDone s fun t => t.upd = { s.upd with erasing := false } ∧ Only [.upd] s.toDev t)

/-- R410 and R415. Which path the record of an expiry names is a free value of the model. What CONFIRM waits for is the
model's confirmReady. -/
def Obligations.UpdateTimers : Prop :=
  ∀ s : State, let u := s.upd;
    (u.session = true → s.awake = true → s.param .updSessionIdleS ≤ s.idleS → Gives .updSessionExpired s fun t =>
      UpdKept s t true { u.noPackage with updateSeq := u.updateSeq + 1 } ∧ t.hif.events.getLsbD 8 = true ∧ Only [.upd, .mst, .freeCtr, .fbk, .ctr, .hif, .out] s.toDev t) ∧
    (u.session = false ∨ s.awake = false ∨ s.idleS < s.param .updSessionIdleS → Gives .updSessionExpired s fun t => t = s.toDev) ∧
    (let due := u.idleSince.toNat + ticksOfSeconds 3600;
      (u.session = true → s.awake = true → due ≤ s.now → Gives .idleSCommit s fun t =>
        UpdKept s t false { u with idleS := u.idleS + 3600, idleSince := BitVec.ofNat 64 due } ∧ Only [.upd, .mst] s.toDev t) ∧
      (u.session = false ∨ s.awake = false ∨ s.now < due → Gives .idleSCommit s fun t => t = s.toDev)) ∧
    (s.confirmReady = true → s.mst.failed = false → Gives .updConfirmSent s fun t =>
      UpdKept s t true { u.setSlot u.activeSlot 3 with unconfBoots := 0, oldConfig := false, updateSeq := u.updateSeq + 1 } ∧
      t.hif.events.getLsbD 8 = true ∧ Only [.upd, .mst, .kst, .fbk, .ctr, .hif, .out] s.toDev t) ∧
    (s.confirmReady = false ∨ s.mst.failed = true → Gives .updConfirmSent s fun t => t = s.toDev) ∧
    (s.unconfirmed = true → s.awake = true → confirmTicks ≤ s.now →
      (¬(s.twn.mode = true ∧ s.twn.state = 3) → Gives .updConfirmTimeout s fun t =>
        UpdKept s t true { u.setSlot u.activeSlot 4 with falling := true, fallSince := s.tck.count, updateSeq := u.updateSeq + 1 } ∧
        t.sys = { s.sys with softDrain := true } ∧ t.hif.events.getLsbD 8 = true ∧ Only [.upd, .mst, .kst, .sys, .fbk, .ctr, .hif, .out] s.toDev t) ∧
      (s.twn.mode = true → s.twn.state = 3 → s.mst.failed = false → Gives .updConfirmTimeout s fun t =>
        UpdKept s t true { u.setSlot u.activeSlot 4 with falling := true, fallSince := s.tck.count, updateSeq := u.updateSeq + 1 } ∧
        (∀ f ∈ s.fields, s.mayHand f = true → (∃ h ∈ t.twn.handovers, h.field = f.id ∧ h.toPartner = true) ∧ ∃ g ∈ t.fields, g.id = f.id ∧ g.admitStop = true) ∧
        Only [.upd, .mst, .kst, .fields, .twn, .fbk, .ctr, .hif, .out] s.toDev t)) ∧
    (s.unconfirmed = false ∨ s.awake = false ∨ s.now < confirmTicks → Gives .updConfirmTimeout s fun t => t = s.toDev)

/-- R336 to R338 up to the completion of each command. What follows at tick boundaries is not stated here. -/
def Obligations.QueuePairs : Prop :=
  ∀ s : State,
    (∀ r : MbxReq, Idle s.toDev → r.len = 24 →
      ((s.pair? 1024).isSome = true → Gives (.adminQueueCreate .host r) s (Refused s .host r 0x0201 5 (bytesLE 4 noDetail))) ∧
      (∀ d, s.pair? 1024 = none → adminRefused (adminSpec r) = some d → Gives (.adminQueueCreate .host r) s (Refused s .host r 0x0201 3 (bytesLE 4 d))) ∧
      (s.pair? 1024 = none → adminRefused (adminSpec r) = none → Gives (.adminQueueCreate .host r) s fun t => Answered t .host 0x0201 0 r.seq [] ∧
        (∃ q, t.pair? 1024 = some q ∧ q = { freshPair (adminSpec r) true with cqRead := q.cqRead }) ∧
        (s.upstream = true → s.readRoom = true → ∃ h, Out.hostRead h ∈ t.out ∧ h.addr = reqAt r 8 8) ∧ Only [.qs, .fbk, .ctr, .hif, .out, .mbx] s.toDev t)) ∧
    (∀ r : MbxReq, Idle s.toDev → r.len = 0 →
      ((∀ x, s.pair? 1024 = some x → x.deleting.isSome = true) → Gives (.adminQueueDelete .host r) s (Refused s .host r 0x0202 5 (bytesLE 4 noDetail))) ∧
      (∀ x, s.pair? 1024 = some x → x.deleting = none → Gives (.adminQueueDelete .host r) s fun t => Waits t .host 0x0202 .adminDelete ∧
        t.pair? 1024 = some { x with deleting := some 0 } ∧ Only [.qs, .mbx] s.toDev t)) ∧
    (s.pair? 1024 = none → (∀ tag q b cc ct sn cn sb cb, Gives (.createIoQueuePair tag q b cc ct sn cn sb cb) s fun t => t = s.toDev) ∧
      (∀ tag q, Gives (.deleteIoQueuePair tag q) s fun t => t = s.toDev) ∧ ∀ tag q set, Gives (.setFieldSet tag q set) s fun t => t = s.toDev) ∧
    (∀ a, s.pair? 1024 = some a → a.live = true → 0 < a.sqN → s.sys.frozen = false → s.qs.adminWait = [] →
      let Kept (i : Instr) : Prop := s.adminFree = false → Gives i s fun t => t.qs = { s.qs with adminWait := [i] } ∧ Only [.qs] s.toDev t;
      let Taken (t : Dev) (l : List (List Nat × Cqe)) : Prop := t.out = s.out ++ [.consume 1024 a.scanPos] ∧
        t.pair? 1024 = some { a with scanPos := (a.scanPos + 1) % a.sqN, orders := a.orders + 1, waiting := a.waiting ++ l };
      let cqe (tag st d : BitVec 16) : Cqe := ⟨false, false, st, tag, BitVec.ofNat 16 (((a.scanPos + 1) % a.sqN + a.sqN - 1) % a.sqN), 0, d⟩;
      (∀ tag q b cc ct sn cn sb cb, let i := Instr.createIoQueuePair tag q b cc ct sn cn sb cb; let spec := pairSpec q b cc ct sn cn sb cb;
        Kept i ∧
        (∀ d, s.adminFree = true → s.pairRefused spec = some d → Gives i s fun t => Taken t [([], cqe tag stInvalidField d)] ∧ Only [.qs, .out] s.toDev t) ∧
        (s.adminFree = true → s.pairRefused spec = none → Gives i s fun t => Taken t [([], cqe tag stSuccess 0)] ∧
          t.pair? q.toNat = some (freshPair spec false) ∧ Only [.qs, .fbk, .ctr, .out] s.toDev t)) ∧
      (∀ tag q, let i := Instr.deleteIoQueuePair tag q;
        Kept i ∧
        (∀ x, s.adminFree = true → s.pair? q.toNat = some x → q.toNat < 1024 → Gives i s fun t => Taken t [] ∧ t.pair? q.toNat = some { x with deleting := some tag } ∧
          Only [.qs, .out] s.toDev t) ∧
        (s.adminFree = true → (s.pair? q.toNat = none ∨ 1024 ≤ q.toNat) → Gives i s fun t => Taken t [([], cqe tag stInvalidField 8)] ∧ Only [.qs, .out] s.toDev t)) ∧
      (∀ tag q set, let i := Instr.setFieldSet tag q set;
        Kept i ∧
        (∀ x, s.adminFree = true → s.pair? q.toNat = some x → q.toNat < 1024 → Gives i s fun t => Taken t [([], cqe tag stSuccess 0)] ∧
          t.pair? q.toNat = some { x with fieldSetNext := some set } ∧ Only [.qs, .out] s.toDev t) ∧
        (s.adminFree = true → (s.pair? q.toNat = none ∨ 1024 ≤ q.toNat) → Gives i s fun t => Taken t [([], cqe tag stInvalidField 8)] ∧ Only [.qs, .out] s.toDev t)))

/-- The MCTP control messages and SPDM subset. That endpoint IDs 0 and 0xFF name no endpoint is taken from outside the spec
(log entry 47); what a signature covers is an uninterpreted function. -/
def Obligations.MctpAndSpdm : Prop :=
  ∀ s : State,
    let mctp (t : Dev) (m : Mctp) : Prop := t.out = s.out ++ [.mctp m] ∧ Only [.out] s.toDev t;
    (s.kst.running = true → s.sys.frozen = false →
      (∀ e : BitVec 8, e ≠ 0 → e ≠ 0xFF → Gives (.setEndpointId e) s fun t => t.hif = { s.hif with eid := e } ∧ t.out = s.out ++ [.mctp (.setEid e)] ∧ Only [.hif, .out] s.toDev t) ∧
      (∀ e : BitVec 8, (e = 0 ∨ e = 0xFF) → Gives (.setEndpointId e) s fun t => mctp t (.setEid s.hif.eid)) ∧
      Gives .getEndpointId s (fun t => mctp t (.getEid s.hif.eid)) ∧
      (∀ n, Gives (.getMctpVersionSupport n) s fun t => mctp t (.versions n)) ∧
      Gives .getMessageTypeSupport s (fun t => mctp t (.types [0x00, 0x05, 0x7E])) ∧
      (∀ n, Gives (.getVendorDefinedMessageSupport n) s fun t => mctp t (.vendor n 0x1F5A)) ∧
      (∀ a, Gives (.i3cDynamicAddress a) s fun t => t.hif = { s.hif with i3cAddr := some a } ∧ Only [.hif] s.toDev t)) ∧
    (s.kst.running = true → s.kst.halted = false → s.sys.frozen = false → ∀ p : MbxPath,
      let spdm (t : Dev) (m : Spdm) : Prop := t.out = s.out ++ [.spdm p m] ∧ Only [.out] s.toDev t;
      let block (n : Nat) : Nat × Nat × Nat := s.kst.block s.mst.bootCount n;
      Gives (.getVersion p) s (fun t => spdm t .version) ∧
      (∀ c, Gives (.spdmUnsupportedRequest p c) s fun t => spdm t .unsupported) ∧
      (s.param .kstSpdmEnable = 1 →
        Gives (.getCapabilities p) s (fun t => spdm t .capabilities) ∧ Gives (.negotiateAlgorithms p) s (fun t => spdm t .algorithms) ∧
        Gives (.getDigests p) s (fun t => spdm t (.digests chainDigest)) ∧
        (∀ slot off len, slot ≠ 0 → Gives (.getCertificate p slot off len) s fun t => spdm t .unsupported) ∧
        (∀ off len, let n := min len (Config.certLength 0 - off);
          Gives (.getCertificate p 0 off len) s fun t => spdm t (.certificate off n (Config.certLength 0 - off - n))) ∧
        (∀ slot nonce, slot ≠ 0 → Gives (.challenge p slot nonce) s fun t => spdm t .unsupported) ∧
        (∀ nonce, Gives (.challenge p 0 nonce) s fun t => ∃ h sig, spdm t (.challengeAuth h sig)) ∧
        (∀ index nonce signed, 8 < index → index ≠ 0xFF → Gives (.getMeasurements p index nonce signed) s fun t => spdm t .unsupported) ∧
        (∀ index nonce signed, index ≤ 8 ∨ index = 0xFF → Gives (.getMeasurements p index nonce signed) s fun t => ∃ l sig, spdm t (.measurements l sig) ∧
          sig.isSome = signed ∧ (index = 0 → l = [(0, 0, 8)]) ∧ (1 ≤ index → index ≤ 8 → l = [block index]) ∧
          (index = 0xFF → l.length = 8 ∧ ∀ n, n < 8 → l[n]? = some (block (n + 1))))) ∧
      (s.param .kstSpdmEnable ≠ 1 → ∀ slot off len nonce index signed, ∀ i ∈ [Instr.getCapabilities p, .negotiateAlgorithms p, .getDigests p, .getCertificate p slot off len,
        .challenge p slot nonce, .getMeasurements p index nonce signed], Gives i s fun t => spdm t .unsupported) ∧
      (block 8).2 = (0x84, s.mst.bootCount.toNat + s.kst.headDigest.toNat * 2 ^ 64)) ∧
    (s.kst.running = false ∨ s.sys.frozen = true → ∀ p slot off len nonce index signed c e n a, ∀ i ∈ [Instr.setEndpointId e, .getEndpointId, .getMctpVersionSupport n, .getMessageTypeSupport,
      .getVendorDefinedMessageSupport n, .i3cDynamicAddress a, .getVersion p, .getCapabilities p, .negotiateAlgorithms p, .getDigests p, .getCertificate p slot off len, .challenge p slot nonce,
      .getMeasurements p index nonce signed, .spdmUnsupportedRequest p c], Gives i s fun t => t = s.toDev)

/-- Bundles under R382 to R386; what makes a bundle accepted is the model's bundleOk. The verdict over signatures is an
operand. That a fault of pair 1 ends the running commands is read from R343, R344 and R355 (log entry 48). -/
def Obligations.KeystoneAndTrowel : Prop :=
  ∀ s : State,
    (∀ (p : MbxPath) (r : MbxReq) (sigs : Bool), Idle s.toDev → 8 ≤ r.len → r.len ≤ 4080 →
      let kept := s.kst.parts p; let n := r.len - 8; let l := kept ++ (r.payload.drop 8).take n; let b := bundleOf l;
      let sets := b.action = 1 ∨ b.action = 2 ∨ b.action = 4;
      let inOrder := reqAt r 4 4 = 5556 ∧ reqAt r 0 4 = kept.length ∧ kept.length + n ≤ 5556;
      let Used (t : Dev) : Prop := t.kst.nonce p = none ∧ t.kst.parts p = [];
      let parts : List Part := .kst :: mbxParts;
      (reqAt r 4 4 ≠ 5556 → Gives (.ownerEnrol p r sigs) s fun t => Answered t p 0x0504 3 r.seq (bytesLE 4 4) ∧ t.kst.parts p = [] ∧ Only parts s.toDev t) ∧
      (reqAt r 4 4 = 5556 → ¬inOrder → Gives (.ownerEnrol p r sigs) s fun t => Answered t p 0x0504 3 r.seq (bytesLE 4 0) ∧ t.kst.parts p = [] ∧ Only parts s.toDev t) ∧
      (inOrder → enrolLast r = false → Gives (.ownerEnrol p r sigs) s fun t => Answered t p 0x0504 0 r.seq [] ∧ t.kst = s.kst.setParts p l ∧ Only parts s.toDev t) ∧
      (inOrder → enrolLast r = true →
        (s.bundleOk p b sigs = false → Gives (.ownerEnrol p r sigs) s fun t => Answered t p 0x0504 8 r.seq [] ∧ Used t ∧ t.hif.events.getLsbD 9 = true ∧
          t.ctr[ctrIx .kstAuthFailures] = min (s.ctr[ctrIx .kstAuthFailures] + 1) maxCount ∧ t.kst.ownerState = s.kst.ownerState ∧ Only parts s.toDev t) ∧
        (s.bundleOk p b sigs = true →
          (sets → b.policy.lowers s.kst.policyNext = true → Gives (.ownerEnrol p r sigs) s fun t =>
            Answered t p 0x0504 3 r.seq (bytesLE 4 noDetail) ∧ Used t ∧ t.kst.ownerState = s.kst.ownerState ∧ Only parts s.toDev t) ∧
          (sets → b.policy.lowers s.kst.policyNext = false → s.policyAbove b.policy = true → Gives (.ownerEnrol p r sigs) s fun t =>
            Answered t p 0x0504 5 r.seq (bytesLE 4 noDetail) ∧ Used t ∧ t.kst.ownerState = s.kst.ownerState ∧ Only parts s.toDev t) ∧
          (s.mst.failed = false → ¬(sets ∧ (b.policy.lowers s.kst.policyNext = true ∨ s.policyAbove b.policy = true)) → Gives (.ownerEnrol p r sigs) s fun t =>
            (s.tck.running = true → Waits t p 0x0504 .owner ∧
              ∃ c ∈ t.mst.queue, c.change = .counter ⟨t.mst.bootCount, t.mst.ownerGen, t.mst.ownerDigest⟩ (some p)) ∧
            (s.tck.running = false → Answered t p 0x0504 0 r.seq []) ∧ Used t ∧ t.hif.events.getLsbD 9 = true ∧
            (b.action ≠ 5 → t.mst.ownerGen = BitVec.ofNat 32 (s.mst.ownerGen.toNat + 1)) ∧
            (b.action = 3 → t.kst.ownerState = 0 ∧ t.kst.ownerKeys = 0 ∧ t.mst.ownerDigest = 0 ∧ t.kst.policyNext.minSvn = s.kst.policyNext.minSvn) ∧
            (b.action = 1 ∨ b.action = 2 → t.kst.ownerState = 1 ∧ t.kst.ownerKeys = Config.sha384 b.keys 2049 ∧ t.kst.policyNext = b.policy) ∧
            (t.kst.policy = s.kst.policy) ∧ Only (.mst :: parts) s.toDev t)))) ∧
    (∀ c b, s.sys.pwrGood = true → s.kst.running = true → s.kst.halted = false → s.sys.frozen = false →
      let work : List Part := [.kst, .tck, .hif, .hod, .upd, .fbk, .ctr, .out, .fields, .cache, .mpt, .mst];
      let recent := s.kst.resetTicks.filter fun x => s.now < x.toNat + 2 ^ 30;
      let Keeps (t : Dev) : Prop := t.hif.kstFault = true ∧ t.hif.events.getLsbD 9 = true ∧ t.kst.nonceHost = none ∧ t.kst.nonceMgmt = none ∧ t.kst.enrolHost = [] ∧ t.kst.enrolMgmt = [] ∧
        t.kst.keySlots = s.kst.keySlots ∧ t.kst.secrets = s.kst.secrets ∧ t.ctr[ctrIx .kstResets] = min (s.ctr[ctrIx .kstResets] + 1) maxCount;
      (3 ≤ recent.length → Gives (.keystoneReset c b) s fun t => Keeps t ∧ t.kst.halted = true ∧ t.tck.running = false ∧ t.hif.ready = false ∧
        Only work s.toDev t) ∧
      (recent.length < 3 → b.romOk = false → Gives (.keystoneReset c b) s fun t => Keeps t ∧ t.kst.running = false ∧ t.tck.running = false ∧ t.hif.ready = false ∧
        Only work s.toDev t) ∧
      (recent.length < 3 → b.romOk = true → Gives (.keystoneReset c b) s fun t => Keeps t ∧ t.kst.halted = false ∧ t.tck.running = s.tck.running ∧ t.hif.ready = s.hif.ready ∧
        (¬([4, 5, 6, 7].all b.badCounterLines.contains = true) → t.mst.bootCount = s.mst.bootCount + 1) ∧
        Only (.sys :: .freeCtr :: work) s.toDev t)) ∧
    (s.sys.pwrGood = false ∨ s.kst.running = false ∨ s.kst.halted = true ∨ s.sys.frozen = true → ∀ c b, Gives (.keystoneReset c b) s fun t => t = s.toDev) ∧
    (s.awake = true → ∀ pair, let i := b2n pair;
      (∀ h0 h1, s.sys.trwHalted = [h0, h1] → (if pair then h1 else h0) = false →
        ((if pair then h0 else h1) = false → Gives (.trwLockstepFault pair) s fun t =>
          t.sys.trwHalted = (if pair then [h0, true] else [true, h1]) ∧
          t.sys.trwTakeNext = (s.sys.trwTakeNext || !pair) ∧
          (pair = false ∨ (s.mbx.hostRun = none ∧ s.mbx.mgmtRun = none) → t.fbk = (s.toDev.record 0x0140 (s.srcProc i) 0 0 0).fbk ∧ Only [.sys, .fbk, .ctr] s.toDev t) ∧
          (pair = true → (∀ p run, s.mbx.run? p = some run → (p = .host → s.mbx.hostDiscard = false) → Answered t p run.opcode 9 run.seq []) ∧
            Only [.sys, .fields, .upd, .fbk, .ctr, .mbx, .hif, .out] s.toDev t)) ∧
        ((if pair then h0 else h1) = true → Gives (.trwLockstepFault pair) s fun t => t.sys.trwHalted = [true, true] ∧ t.tck.running = false ∧ t.hif.ready = false ∧
          Only [.sys, .tck, .hif, .fbk, .ctr] s.toDev t)) ∧
      ((s.sys.trwHalted[i]?).getD true = true → Gives (.trwLockstepFault pair) s fun t => t = s.toDev))

/-- R455 to R459. The boundary register, the counts at which the domains stop, and how far a dump cut by a freeze has come
are uninterpreted or free values; unlisted JTAG codes are the row BYPASS. -/
def Obligations.FreezeAndJtag : Prop :=
  ∀ s : State,
    let Shifts (code : BitVec 8) (p : PinDrive) (l : List Bool) (t : Dev) : Prop :=
      t.sys = { s.sys with jtagIr := code, pins := p } ∧ t.out = s.out ++ [.jtag l] ∧ Only [.sys, .out, .freeCtr] s.toDev t;
    let bits (n v : Nat) : List Bool := (List.range n).map fun i => v.testBit i;
    let free : Prop := s.sys.frozen = true ∨ s.sys.pwrGood = false;
    (s.sys.pwrGood = true → s.sys.frozen = false →
      (s.sys.freezeArmed = false → Gives .freeze s fun t => t.ctr[ctrIx .frzIgnored] = min (s.ctr[ctrIx .frzIgnored] + 1) maxCount ∧
        t.fbk = ((s.toDev.count .frzIgnored).record 0x0160 (s.srcProc 1) 0 0 0).fbk ∧ Only [.ctr, .fbk] s.toDev t) ∧
      (s.sys.freezeArmed = true → Gives .freeze s fun t => (∃ l : List (BitVec 48), l.length = 64 ∧
          t.sys = { s.sys with frozen := true, frzTick := s.tck.count.setWidth 48, frzCycle := s.tck.cycle, stops := l }) ∧
        t.twn = { s.twn with linkUp := false, width := 0 } ∧ t.hif = { s.hif with speed := 0, width := 0, flit := false } ∧ t.vlt.dumping = none ∧
        (s.vlt.dumping = none → t.vlt = s.vlt) ∧ Only [.sys, .twn, .hif, .vlt, .freeCtr] s.toDev t)) ∧
    (s.sys.pwrGood = false ∨ s.sys.frozen = true → Gives .freeze s fun t => t = s.toDev) ∧
    Gives .idcode s (Shifts 0x01 .system (bits 32 0x196009AF)) ∧
    Gives .samplePreload s (fun t => ∃ l, l.length = Config.boundaryLength ∧ Shifts 0x02 .system l t) ∧
    (free → Gives .extest s (fun t => ∃ l, l.length = Config.boundaryLength ∧ Shifts 0x00 .boundary l t) ∧
      Gives .clamp s (Shifts 0x04 .clamped [false]) ∧ Gives .highz s (Shifts 0x05 .floating [false])) ∧
    (¬free → Gives .extest s (Shifts 0x00 .system [false]) ∧ Gives .clamp s (Shifts 0x04 .system [false]) ∧ Gives .highz s (Shifts 0x05 .system [false])) ∧
    Gives .frzStatus s (Shifts 0x10 .system (bits 64 (b2n s.sys.frozen + b2n s.sys.freezeArmed * 2 + b2n s.sys.fuse * 4 + b2n s.sys.pwrfailSeen * 8 +
      s.sys.frzCycle.toNat * 2 ^ 6 + s.sys.frzTick.toNat * 2 ^ 16))) ∧
    (∀ v : BitVec 32, Gives (.harvestSel v) s fun t => t.sys = { s.sys with jtagIr := 0x11, pins := .system, harvestSel := v.setWidth 8 } ∧
      t.out = s.out ++ [.jtag (bits 32 s.sys.harvestSel.toNat)] ∧ Only [.sys, .out] s.toDev t) ∧
    Gives .bypass s (Shifts 0xFF .system [false]) ∧
    (∀ n, Gives (.harvest n) s fun t => ∃ l, Shifts 0x12 .system l t ∧ l.length = n ∧
      let seg := s.sys.harvestSel.toNat;
      (s.sys.frozen = false ∨ seg = 8 ∨ 10 < seg → ∀ i, i < n → l[i]? = some false) ∧
      (∀ e ∈ [(0, 4096), (2, 201326592), (3, 201326592), (4, 67108864), (5, 58720256), (6, 7168), (7, 33554432), (8, 8388608), (9, 4194304), (10, 29360128)],
        seg = e.1 → ∀ i, e.2 ≤ i → i < n → l[i]? = some false) ∧
      (s.sys.frozen = true → ∀ i, i < n →
        (seg = 0 → i < 4096 → l[i]? = some ((((s.sys.stops[i / 64]?).getD 0).toNat + i / 64 * 2 ^ 48 + (if i / 64 < 2 then 0 else 2 ^ 63)).testBit (i % 64))) ∧
        (seg = 6 → i < 7168 → ∀ h, (s.hod.lines ++ s.hod.victims)[i / 128]? = some h → l[i]? = some (bitOf h.tag (i % 128))) ∧
        (seg = 9 → i < 4194304 → ∀ r, s.fbk.slot? (i / 256) = some r → l[i]? = some (bitOf (recBytes r) (i % 256)))))

/-- The columns Warm and Hot, FLR of R448, and R444 and R445. That bits of the host endpoint which show the chip's own state,
and after a function-level reset the link, still show it is deduced. stuckLines is the model's list of R216. A request that
waited on the hod may start a fill at once, so that a line may be VALID without a row. -/
def Obligations.HostResets : Prop :=
  ∀ s : State,
    let acts : Prop := s.sys.pwrGood = true ∧ s.kst.running = true ∧ s.sys.frozen = false ∧ s.vlt.dumping = none;
    let Shared (warm flr : Bool) (t : Dev) : Prop :=
      t.hif = { Hif.reset with ready := s.hif.ready, recovery := s.hif.recovery, eid := s.hif.eid, smbAddr := s.hif.smbAddr, i3cAddr := s.hif.i3cAddr, barGib := if warm then s.param .hifWinBarGib else s.hif.barGib, linkDegraded := flr && s.hif.linkDegraded, speed := if flr then s.hif.speed else 0, width := if flr then s.hif.width else 0, flit := flr && s.hif.flit } ∧
      t.win = { Win.reset with mem := s.win.mem, unmirrored := s.win.unmirrored, unacked := s.win.unacked } ∧
      (s.toDev.waiter? .adminDelete = none ∨ warm = false → t.mbx = { Mbx.reset with busy := s.mbx.hostRun.isSome, hostRun := s.mbx.hostRun, mgmtRun := s.mbx.mgmtRun, mgmtNext := s.mbx.mgmtNext, hostDiscard := s.mbx.hostRun.isSome }) ∧
      (∀ l ∈ t.hod.lines ++ t.hod.victims, l.rowValid = 0 ∧ l.p = [] ∧ l.q = []) ∧ t.hod.linesValid = 0 ∧ (∀ f ∈ t.fields, f.scrubPos = f.scrubSaved) ∧
      t.upd = { s.upd with partHost := s.upd.partHost.filter (·.2.2.2), partMgmt := s.upd.partMgmt.filter (·.2.2.2) } ∧ t.drm = { s.drm with selfRefresh := false } ∧
      t.tck = (if s.tck.running = true ∧ s.tck.gapNow = none then { s.tck with gapNext := s.tck.gapNext.filter (fun g => g.1 ≠ .reset) ++ [(.reset, 1024)] } else s.tck) ∧
      (∀ l ∈ s.cache.lines, l.st ≠ .uncommitted → l ∈ t.cache.lines) ∧ (∀ l ∈ t.cache.lines, l ∈ s.cache.lines) ∧
      (s.tck.running = false → warm = false → t.fbk = s.fbk);
    let gone (c : Cmd) (t : Dev) : Prop := ∀ l ∈ t.cache.lines, ¬(l.cmd = c.id ∧ l.st = .uncommitted);
    let shared : List Part := [.hif, .win, .mbx, .hod, .upd, .drm, .tck, .cache, .fbk, .ctr, .qs, .fields, .mpt, .mst];
    (acts → Gives .warmReset s fun t => Shared true false t ∧ t.qs = { Queues.reset with nextCmd := s.qs.nextCmd, nextRead := s.qs.nextRead } ∧
      (∀ c ∈ s.qs.cmds, c.op.isWrite = true → c.durable = false → gone c t) ∧ (∀ e ∈ t.fbk.seqs, e.1.toNat / 2 ^ 12 ≠ 1) ∧
      t.sys = { s.sys with warmGap := s.tck.running } ∧ Only (.sys :: .out :: shared) s.toDev t) ∧
    (acts → s.sys.warmGap = false → (s.qs.cmds.map (·.id)).Nodup → ∀ e ∈ [(Instr.hotReset, false), (.functionLevelReset, true)], Gives e.1 s fun t => Shared false e.2 t ∧
      (∀ c ∈ t.qs.cmds, c.stage = .finished) ∧ t.qs.cmds.map (·.id) = s.qs.cmds.map (·.id) ∧ t.qs.hreads = [] ∧ (∀ p ∈ t.qs.pairs, p.prefetch = []) ∧
      (∀ c ∈ s.qs.cmds, c.stage ≠ .finished → (∃ d ∈ t.qs.cmds, d.id = c.id ∧ d.status = stReset) ∧ (c.op.isWrite = true → c.durable = false → gone c t)) ∧
      Only (.freeCtr :: shared) s.toDev t) ∧
    (¬acts → ∀ i ∈ [Instr.warmReset, .hotReset, .functionLevelReset], Gives i s fun t => t = s.toDev) ∧
    (s.sys.warmGap = true → ∀ i ∈ [Instr.hotReset, .functionLevelReset], Gives i s fun t => t = s.toDev) ∧
    (∀ (p : MbxPath) (r : MbxReq), r.len = 0 →
      let Accepted (t : Dev) : Prop := Answered t p 0x0103 0 r.seq [] ∧ t.sys = { s.sys with softReset := true } ∧ Only (.sys :: mbxParts) s.toDev t;
      let ready : Prop := s.vlt.dumping = none ∧ s.vlt.restoring = none ∧ s.sys.restoreChosen = true ∧ (s.vlt.armed = true ∨ s.toDev.stuckLines = false);
      (IdleBut true true s.toDev → Gives (.deviceReset p r) s Accepted) ∧
      (Idle s.toDev → ready → Gives (.deviceReset p r) s Accepted) ∧
      (Idle s.toDev → ¬ready → Gives (.deviceReset p r) s (Refused s p r 0x0103 5 (bytesLE 4 0xFFFFFFFF))))

/-- A full start-up: the columns Cold and Soft of R448 and phases S0 to S2 of R450. Which reset kind a restart after a
restore that a power fail stopped records is deduced. What the boot ROM decides with its verdicts is the argument of the
command. The configuration that a refusal leaves is the model's choice (log entry 122). -/
def Obligations.StartsAndPower : Prop :=
  ∀ (s : State) (b : BootEnv),
    let Starts (kind : Nat) (t : Dev) : Prop := Started s.toDev kind b t ∧ VaultStarted s.vlt t.vlt;
    (s.sys.pwrGood = false → Gives (.coldReset b) s fun t => Starts 1 t ∧ t.sys.gpio2 = b.gpio2 ∧ t.sys.gpio3 = b.gpio3 ∧ t.twn.position = b.twinPos ∧
      t.hif.smbAddr = BitVec.ofNat 7 (0x34 + 2 * b2n b.gpio3 + b2n b.gpio2)) ∧
    (s.sys.pwrGood = true → Gives (.coldReset b) s fun t => t = s.toDev) ∧
    (let due : Prop := s.sys.softReset = true ∧ s.sys.frozen = false ∧ s.sys.pwrGood = true ∧ s.vlt.softDump = false ∧
        (s.hif.recovery = true ∨ (s.sys.softDrain = true ∧ s.toDev.drained? = true));
      (due → Gives (.softResetRestart b) s fun t => Starts 5 t ∧ t.sys.gpio2 = s.sys.gpio2 ∧ t.sys.gpio3 = s.sys.gpio3 ∧ t.twn.position = s.twn.position) ∧
      (¬due → Gives (.softResetRestart b) s fun t => t = s.toDev)) ∧
    (let due : Prop := s.awake = true ∧ s.upd.falling = true ∧ ((s.sys.softDrain = true ∧ s.toDev.drained? = true) ∨
        s.upd.fallSince.toNat + ticksOfSeconds (s.param .updHandoverWaitS) ≤ s.now);
      (due → Gives (.fallbackRestart b) s (Starts 5)) ∧ (¬due → Gives (.fallbackRestart b) s fun t => t = s.toDev)) ∧
    (let stopped : Prop := s.sys.frozen = false ∧ s.sys.pwrGood = true ∧ s.tck.running = true ∧ s.vlt.pwrfailLatched = true ∧ s.vlt.restoring.isSome = true ∧ s.vlt.dumping = none;
      let high : Dev := { s.toDev with sys := { s.sys with pwrfailLow := false } };
      (stopped → Gives (.pwrfailNReturn b) s fun t => Started high 1 b t ∧ VaultStarted s.vlt t.vlt) ∧ (¬stopped → Gives (.pwrfailNReturn b) s fun t => t = high)) ∧
    (∀ n, s.sys.pwrGood = true → Gives (.powerLoss n) s fun t => t.tck = { s.tck with running := false } ∧ t.kst = { s.kst with running := false } ∧
      t.hif = { s.hif with ready := false } ∧ t.sys = { s.sys with pwrGood := false } ∧ t.vlt.dumping = none ∧ (s.vlt.dumping = none → t.vlt = s.vlt) ∧
      (∀ i, s.vlt.dumping = some i → i < s.vlt.slots.length → s.vlt.dumpTick = true → s.vlt.dumpRoom ≠ some 0 → (t.vslot i).footer = false ∧
        match n with | some k => (t.vslot i).written = min k (s.toDev.vslot i).written | none => (t.vslot i).manifestOk = false) ∧
      Only [.tck, .kst, .hif, .sys, .vlt] s.toDev t) ∧
    (∀ n, s.sys.pwrGood = false → Gives (.powerLoss n) s fun t => t = s.toDev) ∧
    (∀ d : DramEnv, let waits : Prop := s.sys.pwrGood = true ∧ s.kst.running = true ∧ s.hif.recovery = false ∧ s.sys.dramReady = false;
      let Up (t : Dev) : Prop := t.sys = { s.sys with dramReady := true, freezeArmed := s.kst.policy.freezeEnable && s.kst.ownerState ≠ 2 } ∧
        t.kst = { s.kst with keySlots := s.kst.secrets.map (fun x => (x.2.1, fieldKeys x.1 x.2.2)), earlyRecs := [] } ∧
        t.drm = { s.drm with dramGib := d.dramGib, bootKey := t.drm.bootKey } ∧ t.freeCtr = s.freeCtr + 1 ∧
        t.vlt = { s.vlt with slotBytes := d.slotBytes } ∧ t.tck = { s.tck with running := true } ∧ t.fbk.started = true;
      let clean : Prop := d.failedChannels = [] ∧ d.correctable = [] ∧ d.badFurrowLines = [] ∧ d.badSlots = [] ∧ d.badEntries = [] ∧ d.badReshapes = [];
      let fits : Prop := { s.toDev with drm := { s.drm with dramGib := d.dramGib } }.configFits (s.param .drmDirtyCap) s.hif.barGib = true;
      let room := (linePool (d.dramGib * gib) (s.hif.barGib * gib) s.twn.poolBytes - 4 * gib) / gib;
      let cap := max 1 (min room (s.param .drmDirtyCap / gib)) * gib;
      let lower (v : Vector Nat cfgCount) : Vector Nat cfgCount := (v.set (cfgIx .drmDirtyCap) cap).set (cfgIx .winDumpLimit) (min (cap / 2) (s.param .winDumpLimit));
      let Config (t : Dev) : Prop := (fits → t.cfg = s.cfg ∧ t.cfgNext = s.cfgNext) ∧ (¬fits → t.cfg = lower s.cfg ∧ t.cfgNext = lower s.cfgNext);
      (waits → clean → d.badDescriptor = false → Gives (.dramTrainingDone d) s fun t => Up t ∧ Config t ∧
        (s.fbk = .reset → s.kst.earlyRecs = [] → ∃ r : FbRec, t.fbk.fifo = [r] ∧ r.code = 1 ∧ r.p1 = BitVec.ofNat 32 s.sys.bootKind ∧ r.p2 = s.mst.bootCount.setWidth 32) ∧
        Only [.sys, .kst, .drm, .vlt, .tck, .fbk, .ctr, .hif, .out, .freeCtr, .cfg, .cfgNext] s.toDev t) ∧
      (waits → clean → d.badDescriptor = true → Gives (.dramTrainingDone d) s fun t => Up t ∧ Config t ∧
        (t.mst.entries = [] ∧ t.mst.coarse = [] ∧ t.mst.fine = [] ∧ t.mst.leases = [] ∧ t.mst.slots = [] ∧ t.mst.reshapes = []) ∧
        t.mst.storeGen = s.mst.storeGen + 1 ∧ t.mst.storeTwinPos = (s.twn.mode && s.twn.position) ∧ t.mst.bootCount = s.mst.bootCount ∧ t.mst.ownerDigest = s.mst.ownerDigest ∧ t.hif.events.getLsbD 6 = true ∧
        t.fields = s.fields.map (fun f => { f with homeIndex := none, coarseShift := 0, fineBlocks := 0, fineShift := 0, fineRelease := false }) ∧
        Only [.sys, .kst, .drm, .vlt, .tck, .fbk, .ctr, .hif, .out, .freeCtr, .cfg, .cfgNext, .mst, .fields] s.toDev t) ∧
      (¬waits → Gives (.dramTrainingDone d) s fun t => t = s.toDev))

/-- Which vault channel a record of a whole slot names is a free value. armedNow is the model's reading of R221 and R230. -/
def Obligations.DumpsAndRestores : Prop :=
  ∀ s : State,
    let v (i : Nat) : VSlot := s.vslot i; let Armed (t : Dev) : Prop := t.vlt.armed = t.armedNow;
    let off : Dev → Prop := fun t => t = s.toDev;
    (s.sys.frozen = false → s.vlt.dumping = none → Gives .dumpStart s fun t => t.sys = { s.sys with pwrfailLow := true } ∧ t.vlt = { s.vlt with pwrfailLatched := true } ∧
      t.drm = { s.drm with selfRefresh := false } ∧ Only [.sys, .vlt, .drm] s.toDev t) ∧
    (s.sys.frozen = false → s.vlt.dumping ≠ none → Gives .dumpStart s fun t => t.sys = { s.sys with pwrfailLow := true } ∧ Only [.sys] s.toDev t) ∧
    (s.sys.frozen = true → Gives .dumpStart s fun t => t.sys = { s.sys with pwrfailLow := true, pwrfailSeen := true } ∧ Only [.sys] s.toDev t) ∧
    (∀ i retries b, s.vlt.dumping = some i → s.vlt.dumpTick = true → s.sys.frozen = false → i < s.vlt.slots.length →
      let n := (v i).manifest.length; let front := manifestPages n + 2 + framePages n; let room := s.vlt.dumpRoom;
      let whole : Bool := (v i).manifestOk && (v i).written = n && room.all (front + bookPages + 1 ≤ ·);
      let full (ring : List FbRec) (written : Nat) : VSlot :=
        if room = some 0 then v i else { v i with fbk := (match room with | none => ring | some p => ring.take (504 * (p - front))), fbkWritten := written, footer := whole };
      let back : Prop := s.sys.pwrfailLow = false ∧ s.sys.pwrGood = true ∧ s.vlt.thermal = false;
      (¬back → Gives (.dumpEnd retries b) s fun t => t.tck = { s.tck with running := false } ∧ t.kst = { s.kst with running := false } ∧ t.hif.ready = false ∧
        t.ctr[ctrIx .vltDumps] = min (s.ctr[ctrIx .vltDumps] + 1) maxCount ∧ t.vslot i = full t.fbk.ring t.fbk.written ∧ (∀ k, k ≠ i → t.vslot k = v k) ∧
        t.vlt = { s.vlt with slots := t.vlt.slots, dumping := none, dumpKey := none, dumpRoom := none } ∧ Only [.tck, .kst, .hif, .vlt, .ctr, .fbk, .out] s.toDev t) ∧
      (back → Gives (.dumpEnd retries b) s fun t => Started s.toDev (if s.vlt.softDump then 5 else 1) b t ∧ t.vlt.dumping = none ∧ t.vlt.pwrfailLatched = false ∧
        (t.vslot i).footer = (full [] 0).footer ∧ (t.vslot i).manifest = (v i).manifest ∧ (t.vslot i).consumed = (v i).consumed)) ∧
    (s.vlt.dumping = none ∨ s.vlt.dumpTick = false ∨ s.sys.frozen = true → ∀ retries b, Gives (.dumpEnd retries b) s off) ∧
    (∀ pages bad badBlocks, let waits : Prop := s.awake = true ∧ s.sys.dramReady = true ∧ s.sys.restoreChosen = false; let i := Instr.vaultRestoreStart ⟨pages, bad⟩ badBlocks;
      let whole := s.newestSlot fun v => v.unconsumed && v.manifestOk && v.footer; let part := s.newestSlot fun v => v.unconsumed && v.manifestOk;
      (¬waits → Gives i s off) ∧
      (waits → s.vlt.slots.length = 2 →
        let parts : List Part := [.sys, .vlt, .fbk, .ctr, .freeCtr];
        let Done (t : Dev) : Prop := t.sys = { s.sys with restoreChosen := true } ∧ Armed t ∧
          ∀ k, k < 2 → t.vslot k = if (v k).foreign then { v k with foreign := false, header := false, erasing := true, erasedPages := 0 } else v k;
        let ok (k n : Nat) : Bool := n < (v k).written && !bad.contains n && !pages.any fun p => frameOnPage n p.1;
        (∀ k, whole.or part = some k → Gives i s fun t => Done t ∧ t.vlt.restoring = some k ∧ t.vlt.dumpKey = some (unwrapDumpKey (v k).wrapped) ∧
          t.vlt.restored = ((v k).manifest.zipIdx.filter fun e => ok k e.2).length ∧
          t.vlt.restoreLost = (((v k).manifest.zipIdx.filter fun e => decide (e.1.kind = 0) && !ok k e.2).map fun e => (e.1.field, e.1.address)) ∧
          (∀ n e, (v k).manifest[n]? = some e → e.kind ≠ 2 → ok k n = true → ∃ l ∈ t.cache.lines, l.field = e.field ∧ l.lba = e.address ∧ l.data = e.data ∧
            l.tag = e.tag ∧ l.st = (if e.kind = 1 then .band else .committed)) ∧
          (∀ l ∈ s.cache.lines, l.st ≠ .clean → l ∈ t.cache.lines) ∧ (badBlocks = [] → t.fbk.restoredCount = (v k).fbk.length) ∧ Only (.cache :: .win :: parts) s.toDev t) ∧
        (whole.or part = none → Gives i s fun t => Done t ∧ t.vlt.restoring = s.vlt.restoring ∧ t.vlt.restoreLost = s.vlt.restoreLost ∧ Only parts s.toDev t) ∧
        (whole.or part = none → s.newestSlot VSlot.unconsumed = none → s.mst.slots = [] → (∀ k, k < 2 → (v k).foreign = false) →
          Gives i s fun t => Done t ∧ t.vlt.slots = s.vlt.slots ∧ Only [.sys, .vlt] s.toDev t))) ∧
    (∀ i, s.vlt.restoring = some i → s.awake = true → s.vlt.pwrfailLatched = false → i < s.vlt.slots.length → Gives .vltRestoreDone s fun t =>
      t.vlt.restoring = none ∧ t.vlt.dumpKey = none ∧ t.vslot i = { v i with consumed := true, consumedBoot := s.mst.bootCount, erasing := true, erasedPages := 0 } ∧ Armed t ∧ Only [.vlt, .fbk, .ctr, .freeCtr] s.toDev t) ∧
    (s.vlt.restoring = none ∨ s.awake = false ∨ s.vlt.pwrfailLatched = true → Gives .vltRestoreDone s off) ∧
    (∀ i n, let erases : Prop := s.awake = true ∧ (v i).erasing = true ∧ i < 2 ∧ s.vlt.dumping ≠ some i; let all : Prop := s.vlt.slotBytes / 16384 ≤ n;
      (erases → all → Gives (.vaultEraseDone ⟨i, n⟩) s fun t => t.vlt = { s.vlt with slots := s.vlt.slots.set i .blank, armed := t.armedNow } ∧ Only [.vlt] s.toDev t) ∧
      (erases → ¬all → (v i).erasedPages < n → Gives (.vaultEraseDone ⟨i, n⟩) s fun t =>
        t.vlt = { s.vlt with slots := s.vlt.slots.set i { VSlot.blank with erased := false, erasing := true, erasedPages := n } } ∧ Only [.vlt] s.toDev t) ∧
      (¬erases ∨ (¬all ∧ n ≤ (v i).erasedPages) → Gives (.vaultEraseDone ⟨i, n⟩) s off)) ∧
    (∀ (l : List Nat) (c : Option Nat), let due : Bool := s.vlt.testAt.toNat + ticksOfSeconds (3600 * s.param .vltTestHours) ≤ s.now;
      (s.awake = true → (due = true ∨ c.isSome = true) → Gives (.vltHealthTest l c) s fun t => t.vlt.testAt = (if due then s.tck.count else s.vlt.testAt) ∧
        t.vlt.retired = s.vlt.retired + l.length ∧ t.vlt.failedCh = (c.map fun c => addNew c s.vlt.failedCh).getD s.vlt.failedCh ∧ t.vlt.slots = s.vlt.slots ∧ Armed t ∧
        Only [.vlt, .fbk, .ctr] s.toDev t) ∧
      (s.awake = false ∨ (due = false ∧ c = none) → Gives (.vltHealthTest l c) s off)) ∧
    (∀ c, (s.awake = true → s.vlt.dumping = none → Gives (.vaultNandFault c) s fun t => t.vlt = { s.vlt with retired := s.vlt.retired + 1, armed := t.armedNow } ∧
        t.fbk = (s.record 0x6026 (s.srcEngine (0x80 + c)) 1 0 0).fbk ∧ Only [.vlt, .fbk, .ctr] s.toDev t) ∧
      (s.awake = false ∨ s.vlt.dumping ≠ none → Gives (.vaultNandFault c) s off))

/-- What the two reads of a frame meet, symbol by symbol, is the argument of the command; frameOutcome is the code and the
rule of R208 over it. A cache loss counts as R231 counts lost lines. -/
def Obligations.ProtectionAndHeat : Prop :=
  ∀ s : State, let off : Dev → Prop := fun t => t = s.toDev; let d := s.drm;
    (d.holdupOk = false → Gives (.holdupOkChange true) s fun t => t.drm = { d with holdupOk := true, holdupSince := some s.tck.count } ∧ Only [.drm] s.toDev t) ∧
    (d.holdupOk = true → Gives (.holdupOkChange true) s off) ∧
    Gives (.holdupOkChange false) s (fun t => t.drm = { d with holdupOk := false, holdupSince := none, settled := false } ∧ Only [.drm] s.toDev t) ∧
    (let settles : Prop := s.tck.running = true ∧ d.holdupOk = true ∧ ∃ x, d.holdupSince = some x ∧ x.toNat + s.param .vltHoldupSettleTicks ≤ s.now;
      (settles → Gives .holdupSettleExpired s fun t => t.drm = { d with settled := true } ∧ Only [.drm] s.toDev t) ∧ (¬settles → Gives .holdupSettleExpired s off)) ∧
    (∀ ch, let acts : Prop := ch < 8 ∧ d.channels.getLsbD ch = false ∧ s.sys.dramReady = true ∧ s.sys.frozen = false; let failed := d.channels ||| (1#8 <<< ch);
      (¬acts → Gives (.drmChannelFailed ch) s off) ∧
      (acts → d.channels = 0 → Gives (.drmChannelFailed ch) s fun t => t.drm = { d with channels := failed } ∧ t.hif.events.getLsbD 13 = true ∧
        t.fbk = (s.record 0x6004 (s.srcEngine (0x70 + ch)) 1 0 0).fbk ∧ Only [.drm, .fbk, .ctr, .hif, .out] s.toDev t) ∧
      (acts → d.channels ≠ 0 → d.cacheLost = true → Gives (.drmChannelFailed ch) s fun t => t.drm = { d with channels := failed } ∧ Only [.drm] s.toDev t) ∧
      (acts → d.channels ≠ 0 → d.cacheLost = false → (s.qs.cmds.map (·.id)).Nodup → Gives (.drmChannelFailed ch) s fun t =>
        t.drm = { d with channels := failed, cacheLost := true } ∧ t.cache.lines = s.cache.lines.filter s.reachable ∧ t.hif.events.getLsbD 13 = true ∧
        (let n := (s.cache.lines.filter fun l => decide (l.st = .committed ∨ l.st = .band) && !(s.partner && l.mirrored)).length;
          0 < n → t.ctr[ctrIx .drmLinesLost] = min (s.ctr[ctrIx .drmLinesLost] + n) maxCount) ∧
        (∀ c ∈ s.qs.cmds, c.op.isWrite = true → c.durable = false → c.stage = .fetching ∨ c.stage = .running → ∃ x ∈ t.qs.cmds, x.id = c.id ∧ x.stage = .finished) ∧
        Only [.drm, .cache, .ctr, .fbk, .fields, .freeCtr, .hif, .hod, .mpt, .mst, .out, .qs] s.toDev t)) ∧
    (let ends : Prop := s.awake = true ∧ d.rebuildingDir = true;
      (ends → Gives .drmDirectoryRebuilt s fun t => t.drm = { d with rebuildingDir := false } ∧ Only [.drm, .fbk, .ctr, .freeCtr] s.toDev t) ∧
      (¬ends → Gives .drmDirectoryRebuilt s off)) ∧
    (let hours := s.param .drmPatrolHours; let acts : Prop := s.awake = true ∧ s.sys.dramReady = true;
      let pass : Drm := if d.patrolFrom.toNat + ticksOfSeconds (3600 * hours) ≤ s.now then { d with patrolFrom := s.tck.count, patrolled := [] } else d;
      let Quiet (p : Drm) (t : Dev) : Prop := t.drm = p ∧ Only [.drm] s.toDev t;
      (¬acts → ∀ l, Gives (.drmPatrol l) s off) ∧ (acts → Gives (.drmPatrol []) s (Quiet pass)) ∧
      (acts → 0 < hours → ∀ x l t u, exec (.drmPatrol [x]) s = .next t → exec (.drmPatrol l) t = .next u → exec (.drmPatrol (x :: l)) s = .next u) ∧
      (acts → ∀ a k, a ≠ .other → a ∈ pass.patrolled → Gives (.drmPatrol [(a, k)]) s (Quiet pass)) ∧
      (acts → ∀ a k, a = .other ∨ a ∉ pass.patrolled →
        let P := Gives (.drmPatrol [(a, k)]) s; let seen : Drm := { pass with patrolled := addNew a pass.patrolled };
        let Told (code ch lba : Nat) (t : Dev) : Prop := t.fbk = (s.record code (s.srcDram ch) 1 (lba % 2 ^ 32) (lba / 2 ^ 32)).fbk;
        let Counts (c : Ctr) (t : Dev) : Prop := t.ctr[ctrIx c] = min (s.ctr[ctrIx c] + 1) maxCount;
        (k = .directory → P (Quiet { seen with rebuildingDir := true })) ∧
        (∀ n, a = .line n → k ≠ .directory →
          (s.cache.lines.find? (·.frame = n) = none → P (Quiet seen)) ∧
          (∀ l, s.cache.lines.find? (·.frame = n) = some l →
            let e := frameOutcome k d.channels (s.macsPass l); let moved := Cache.rewrite s.linePages l id s.cache;
            let newest : Bool := (s.versions l.field l.lba).all fun x => x.st ≠ .committed || x.version ≤ l.version; let mirror : Bool := s.partner && l.mirrored;
            let Drops (t : Dev) : Prop := t.drm = seen ∧ (∀ x, x ∈ t.cache.lines ↔ x ∈ s.cache.lines ∧ ¬(x.field = l.field ∧ x.lba = l.lba ∧ x.version = l.version ∧ x.st = l.st)) ∧
              Only [.drm, .cache] s.toDev t;
            (e = .clean → P (Quiet seen)) ∧
            (∀ c, e = .corrected c → P fun t => t.drm = seen ∧ t.cache = moved ∧ Counts .drmEccCorrected t ∧ Told 0x6001 c l.lba t ∧ Only [.drm, .cache, .ctr, .fbk] s.toDev t) ∧
            (∀ c, e = .recovered c → P fun t => t.drm = seen ∧ t.cache = moved ∧ Told 0x6002 c l.lba t ∧ Only [.drm, .cache, .ctr, .fbk] s.toDev t) ∧
            (e = .lost → (l.st = .clean ∨ (l.st = .committed ∧ newest = false) → P Drops) ∧
              ((l.st = .committed ∧ newest = true) ∨ l.st = .band → mirror = true → P fun t => t.drm = seen ∧ t.cache = moved ∧ Only [.drm, .cache] s.toDev t) ∧
              (l.st = .committed → newest = true → mirror = false → (s.field? l.field).isSome = true →
                P fun t => t.drm = seen ∧ l ∉ t.cache.lines ∧ Counts .drmLinesLost t ∧ Only [.drm, .cache, .ctr, .fbk, .fields] s.toDev t) ∧
              (∀ f c, l.st = .uncommitted → s.field? l.field = some f → s.cmd? l.cmd = some c → c.op = .write → (c.partsOf l.lba).any (!·.window) = true →
                P fun t => t.drm = seen ∧ { l with lostWait := true } ∈ t.cache.lines ∧ Only [.drm, .cache, .qs, .hif, .out] s.toDev t)))) ∧
        (∀ n, a = .window n → k ≠ .directory → let e := frameOutcome k d.channels true;
          (e = .clean → P (Quiet seen)) ∧
          (∀ c, e = .corrected c → P fun t => t.drm = seen ∧ Counts .drmEccCorrected t ∧ Told 0x6001 c 0 t ∧ Only [.drm, .ctr, .fbk] s.toDev t) ∧
          (∀ c, e = .recovered c → P fun t => t.drm = seen ∧ Told 0x6002 c 0 t ∧ Only [.drm, .ctr, .fbk] s.toDev t) ∧
          (e = .lost → memWf s.win.mem = true → P fun t => t.drm = seen ∧ (∀ m, m ≠ n → t.windowPage m = s.windowPage m) ∧ Only [.drm, .win, .freeCtr] s.toDev t)) ∧
        (a = .other → k ≠ .directory → P fun t => t.drm = seen ∧ Only [.drm, .ctr, .fbk] s.toDev t))) ∧
    (∀ c n, let warm : Prop := s.awake = true ∧ 115 ≤ c ∧ s.sys.thermWarn = false; let cool : Prop := s.awake = true ∧ c ≤ 110 ∧ s.sys.thermWarn = true;
      let trips : Prop := s.awake = true ∧ 125 ≤ c ∧ s.sys.thermTrip = false;
      (warm → Gives (.sysThermalWarn c n) s fun t => t.sys = { s.sys with thermWarn := true } ∧ t.hif.events.getLsbD 11 = true ∧
        t.fbk = (s.record 0x0170 (s.srcProc 1) c n 0).fbk ∧ Only [.sys, .hif, .fbk, .ctr, .out] s.toDev t) ∧ (¬warm → Gives (.sysThermalWarn c n) s off) ∧
      (cool → Gives (.sysThermalClear c n) s fun t => t.sys = { s.sys with thermWarn := false } ∧ t.fbk = (s.record 0x0171 (s.srcProc 1) c n 0).fbk ∧
        Only [.sys, .fbk, .ctr] s.toDev t) ∧ (¬cool → Gives (.sysThermalClear c n) s off) ∧
      (trips → Gives (.sysThermalTrip c n) s fun t => t.sys = { s.sys with thermTrip := true } ∧ t.fbk = (s.record 0x0172 (s.srcProc 1) c n 0).fbk ∧
        (s.vlt.dumping = none → t.vlt = { s.vlt with thermal := true, pwrfailLatched := true } ∧ t.drm = { d with selfRefresh := false }) ∧
        (s.vlt.dumping ≠ none → t.vlt = s.vlt ∧ t.drm = d) ∧ Only [.sys, .fbk, .ctr, .vlt, .drm] s.toDev t) ∧ (¬trips → Gives (.sysThermalTrip c n) s off))

/-- What one pass at the engine does to the rows is the model's engineStep and engineDone. That a repeat goes to the next
lane in service is R89; the lane of the first run and laneBusy, the priority on a lane, are R88. Which admin command follows
a media error is the model's choice (log entry 115). -/
def Obligations.WorkAdvances : Prop :=
  ∀ s : State, let off : Dev → Prop := fun t => t = s.toDev; let idle : Prop := ∀ b ∈ s.cache.jobs, ¬(b.stage = .writing ∧ b.queued = true ∧ b.writesLeft = 0);
    let ids : Prop := (s.mpt.cmds.map (·.id)).Nodup ∧ (s.cache.jobs.map (·.id)).Nodup ∧ ∀ c ∈ s.mpt.cmds, c.id < s.mpt.nextCmd;
    let work : List Part := [.cache, .ctr, .fbk, .fields, .freeCtr, .hif, .hod, .mbx, .mpt, .mst, .out, .qs, .sys, .twn];
    (∀ id, (∀ c ∈ s.mpt.cmds, c.id = id → c.issued = none ∨ c.held = true ∨ c.failed = true) ∨ s.awake = false →
      ∀ r, ∀ i ∈ [Instr.memberCompletion id r, .memberTransportError id, .memberReadHedged id], Gives i s off) ∧
    (ids → s.awake = true → ∀ c ∈ s.mpt.cmds, c.issued.isSome = true → c.held = false → c.failed = false →
      let id := c.id; let old : Prop := s.tck.phaseIdx = 5 ∧ ∃ x, c.issued = some x ∧ x.toNat + s.param .mptHedgeTicks ≤ s.now;
      let Over (t : Dev) : Prop := (∀ x ∈ t.mpt.cmds, x.id ≠ id) ∧ (∀ j b, c.purpose = .job j → s.job? j = some b → (s.field? b.field).isSome = true →
          ∀ x ∈ t.cache.jobs, x.id = j → ∀ y ∈ x.cells, y.st ≠ .reading id) ∧ Only work s.toDev t;
      let dropped : List MCmd := s.mpt.cmds.filter fun x => decide (x.id ≠ id); let now : Prop := s.tck.phaseIdx = 5 ∧ s.mpt.arrived = [] ∧ s.mpt.retiredNow < 2048;
      let gone : Mpt := { s.mpt with cmds := dropped, retiredNow := s.mpt.retiredNow + 1 };
      let asked : Out := .memberAdmin c.member (.getLogPage 1);
      ((∀ e ∈ s.mpt.arrived, e.1 ≠ id) → ¬now → ∀ r, Gives (.memberCompletion id r) s fun t => t.mpt = { s.mpt with arrived := s.mpt.arrived ++ [(id, r)] } ∧ Only [.mpt] s.toDev t) ∧
      ((∃ e ∈ s.mpt.arrived, e.1 = id) → ∀ r, Gives (.memberCompletion id r) s off) ∧
      (c.op = .read → (now → Gives (.memberCompletion id .mediaError) s fun t => Over t ∧ t.mpt.retiredNow = s.mpt.retiredNow + 1 ∧ asked ∈ t.out) ∧
        Gives (.memberTransportError id) s Over ∧
        (old → (∃ k, c.purpose = .hostRead k ∨ c.purpose = .job k) → Gives (.memberReadHedged id) s fun t => Over t ∧ Out.memberAdmin c.member (.abort id) ∈ t.out)) ∧
      (¬(c.op = .read ∧ old ∧ ∃ k, c.purpose = .hostRead k ∨ c.purpose = .job k) → Gives (.memberReadHedged id) s off) ∧
      (c.op = .read → now → ∀ p, (∃ k, c.purpose = .hostRead k ∨ c.purpose = .job k) →
        (∀ l, p = .blocks l → l.length = c.nlb → Gives (.memberCompletion id (.ok p)) s Over) ∧ ((∀ l, p = .blocks l → l.length ≠ c.nlb) → Gives (.memberCompletion id (.ok p)) s fun t =>
          t.mpt = { s.mpt with retiredNow := s.mpt.retiredNow + 1 } ∧ Only [.mpt] s.toDev t)) ∧
      (c.op ≠ .read → now → ∀ p,
        (∀ f, c.purpose = .progress f → Gives (.memberCompletion id (.ok p)) s fun t => t.mpt = gone ∧ Only [.mpt] s.toDev t) ∧
        (c.purpose = .format → Gives (.memberCompletion id (.ok p)) s fun t => t.mpt = gone ∧ Only (.mpt :: mbxParts) s.toDev t) ∧
        (∀ j b, c.purpose = .job j ∨ c.purpose = .heal j → s.job? j = some b → 1 < b.writesLeft → idle → Gives (.memberCompletion id (.ok p)) s fun t =>
          t.mpt = gone ∧ t.job? j = some { b with writesLeft := b.writesLeft - 1 } ∧ (∀ x ∈ s.cache.jobs, x.id ≠ j → x ∈ t.cache.jobs) ∧
          Only [.mpt, .cache] s.toDev t)) ∧
      (c.op ≠ .read → (∀ j, c.purpose ≠ .heal j) → c.purpose ≠ .format →
        let Failed (n : Nat) (t : Dev) : Prop :=
          t.mpt = { s.mpt with cmds := s.mpt.cmds.map (fun x => if x.id = id then { x with failed := true } else x), retiredNow := s.mpt.retiredNow + n } ∧
          t.tasks = { s.tasks with faultEvents := addNew ⟨c.member, false, 2⟩ s.tasks.faultEvents };
        (now → Gives (.memberCompletion id .mediaError) s fun t => Failed 1 t ∧ t.out = s.out ++ [asked] ∧ Only [.mpt, .tasks, .out] s.toDev t) ∧
        Gives (.memberTransportError id) s fun t => Failed 0 t ∧ Only [.mpt, .tasks] s.toDev t)) ∧
    (∀ id hod mis, s.job? id = none → ∀ i ∈ [Instr.courseLockGrant ⟨id, hod⟩, .mortarOperationDone id mis hod, .destageGuardReady id], Gives i s off) ∧
    (∀ id j hod, s.job? id = some j → s.field? j.field = none → Gives (.courseLockGrant ⟨id, hod⟩) s (fun t => ∀ x ∈ t.cache.jobs, x.id ≠ id) ∧
      ∀ mis, ∀ i ∈ [Instr.mortarOperationDone id mis hod, .destageGuardReady id], Gives i s off) ∧
    (∀ id j f, s.job? id = some j → s.field? j.field = some f → (s.cache.jobs.map (·.id)).Nodup → (∀ x ∈ s.cache.jobs, x.id < s.cache.nextJob) →
      (let free : Prop := s.locksFree j = true ∧ (j.kind ≠ .destage ∨ j.waitsFill = []);
        (s.awake = false ∨ j.stage ≠ .waitLock ∨ (¬free ∧ ((j.kind ≠ .solve ∧ j.kind ≠ .scrub) ∨ s.lostPathDestage? j = none)) → ∀ hod, Gives (.courseLockGrant ⟨id, hod⟩) s off) ∧
        (s.awake = true → j.stage = .waitLock → free → j.locks ≠ [] → ∀ hod, Gives (.courseLockGrant ⟨id, hod⟩) s fun t =>
          (∀ x ∈ t.cache.jobs, x.id = id → x.stage ≠ .waitLock ∧ x.held = j.locks ∧ x.locks = []) ∧ Only [.cache, .ctr, .fbk, .fields, .hif, .hod, .mpt, .mst, .out] s.toDev t)) ∧
      (let runs : Prop := s.awake = true ∧ j.stage = .engine ∧ s.mor.lost = false ∧ (s.charged j = true → s.mpt.bytesUsed < s.byteBudget) ∧ s.laneBusy j = false;
        (¬runs → ∀ mis hod, Gives (.mortarOperationDone id mis hod) s off) ∧
        (runs → j.reads = false → s.lanesIn ≠ [] → Gives (.mortarOperationDone id true []) s fun t =>
          (let lane := (match j.lane.filter s.lanesIn.contains with | some n => n | none => (s.lanesIn[j.course % s.lanesIn.length]?).getD 0);
            let next := (t.lanesIn.find? (lane < ·)).or t.lanesIn.head?;
            lane ∈ s.lanesIn ∧ t.mor.mismatch = put lane s.tck.count s.mor.mismatch ∧
            t.mor.lanesOut = (if s.mor.mismatch.any (fun e => decide (e.1 = lane) && decide (s.now < e.2.toNat + 2 ^ 20)) then s.mor.lanesOut ||| (1#4 <<< lane) else s.mor.lanesOut) ∧
            (t.lanesIn ≠ [] → t.mor.lost = false ∧ t.job? id = some { j with lane := next }) ∧
            (t.lanesIn = [] → t.mor.lost = true ∧ t.job? id = some j ∧ ∀ f ∈ t.fields, f.failedEngine = true)) ∧ (∀ x ∈ s.cache.jobs, x.id ≠ id → x ∈ t.cache.jobs) ∧
          t.ctr[ctrIx .morLaneRetries] = min (s.ctr[ctrIx .morLaneRetries] + 1) maxCount ∧ Only [.mor, .cache, .ctr, .fbk, .fields, .hif, .out] s.toDev t) ∧
        (runs → j.reads = false → Gives (.mortarOperationDone id false []) s fun t =>
          t = (let a := (s.toDev.onJob id fun b => { b with lane := none }).engineStep j f;
            if a.rowsDone id then ((if j.kind = .destage then a else a.unpin id).engineDone j).settle else a))) ∧
      (let may : Prop := s.mayWrite j f = true ∧ s.mst.failed = false;
        (s.awake = false ∨ j.stage ≠ .guarding ∨ (j.kind = .reshape ∧ f.rsStage ≠ .moving) → Gives (.destageGuardReady id) s off) ∧
        (s.awake = true → j.stage = .guarding → j.kind ≠ .reshape → may → idle → (∃ x ∈ j.writes, f.writers x.geom x.pos ≠ []) → Gives (.destageGuardReady id) s fun t =>
          (∃ b ∈ t.cache.jobs, b.id = id ∧ b.queued = true ∧ b.stage = .writing ∧ 0 < b.writesLeft) ∧ (∀ c ∈ s.mpt.cmds, c ∈ t.mpt.cmds) ∧
          (∀ x ∈ j.writes, ∀ m ∈ f.writers x.geom x.pos, ∃ c ∈ t.mpt.cmds, c.member = m ∧ c.op = .write ∧ c.issued = none ∧
            c.lba ≤ memberLba f.b x.course x.row ∧ memberLba f.b x.course x.row < c.lba + c.nlb) ∧ Only [.cache, .ctr, .hod, .mpt] s.toDev t) ∧
        (s.awake = true → j.stage = .guarding → j.kind ≠ .reshape → ¬may → Gives (.destageGuardReady id) s (Only [.ctr, .fields, .mpt] s.toDev))))

/-- R190 to R198 and R430 to R432. That one write slot is one step of the book is a design choice of the model. -/
def Obligations.HodAndBook : Prop :=
  ∀ s : State, let off : Dev → Prop := fun t => t = s.toDev; let h := s.hod; let k := s.fbk;
    (let due : Prop := s.tck.running = true ∧ s.tck.phaseIdx = 0 ∧ h.aged ≠ some s.tck.count ∧ s.param .hodAgeTicks ≠ 0 ∧ s.now % s.param .hodAgeTicks = 0;
      (due → Gives .hodAgeTick s fun t => t.hod = { h with aged := some s.tck.count, lines := h.lines.map (fun l => if l.valid && decide (l.pins = 0) then { l with age := min 3 (l.age + 1) } else l) } ∧
        Only [.hod] s.toDev t) ∧ (¬due → Gives .hodAgeTick s off)) ∧
    (∀ reg, s.awake = false ∨ (∀ r ∈ h.regs, r.reg = reg → r.kind = .fill) → Gives (.hodMoveDone reg) s off) ∧
    (s.awake = true → ∀ r ∈ h.regs, (h.regs.map (·.reg)).Nodup → r.kind ≠ .fill →
      let rest := h.regs.filter fun x => decide (x.reg ≠ r.reg); let rested (l : HodLine) : HodLine := { l with pending := false, missReg := 0, pins := 0 };
      Gives (.hodMoveDone r.reg) s (Only [.hod, .ctr, .cache, .mpt, .mst] s.toDev) ∧
      (r.waiters = [] → r.kind = .evict → Gives (.hodMoveDone r.reg) s fun t => t.hod.regs = rest ∧ t.hod.victimNext = h.victimNext ∧
        (∀ old, h.lines[r.entry]? = some old → r.victim < h.victims.length → t.hod.victims[r.victim]? = some { rested old with valid := old.valid && !r.dead }) ∧
        (∀ l, r.entry < h.lines.length → r.next = some l → t.hod.lines[r.entry]? = some { l with valid := l.valid && !r.dead }) ∧
        (∀ n, n ≠ r.entry → t.hod.lines[n]? = h.lines[n]?) ∧ (∀ n, n ≠ r.victim → t.hod.victims[n]? = h.victims[n]?) ∧
        t.ctr[ctrIx .hodEvictions] = min (s.ctr[ctrIx .hodEvictions] + 1) maxCount ∧ Only [.hod, .ctr] s.toDev t) ∧
      (r.waiters = [] → r.kind = .recall → Gives (.hodMoveDone r.reg) s fun t => t.hod.regs = rest ∧ t.hod.victimNext = h.victimNext ∧
        (∀ old back, h.lines[r.entry]? = some old → h.victims[r.victim]? = some back → t.hod.victims[r.victim]? = some (rested old) ∧
          t.hod.lines[r.entry]? = some { rested back with age := 0, valid := back.valid && !r.dead }) ∧
        (∀ n, n ≠ r.entry → t.hod.lines[n]? = h.lines[n]?) ∧ (∀ n, n ≠ r.victim → t.hod.victims[n]? = h.victims[n]?) ∧
        t.ctr[ctrIx .hodRecalls] = min (s.ctr[ctrIx .hodRecalls] + 1) maxCount ∧ Only [.hod, .ctr] s.toDev t)) ∧
    (let ends : Prop := h.invalidating = true ∧ h.regs = [];
      (ends → Gives .hodInvalidated s fun t => t.hod = { h with invalidating := false, droppedNow := 0 } ∧ t.fbk = (s.record 0x0134 s.srcHod h.droppedNow 0 0).fbk ∧
        Only [.hod, .fbk, .ctr] s.toDev t) ∧ (¬ends → Gives .hodInvalidated s off)) ∧
    (let runs : Prop := k.started = true ∧ s.sys.frozen = false ∧ ¬(s.vlt.dumpTick = true ∧ s.vlt.dumping = none);
      let quiet : Prop := ∀ r ∈ k.last, r.pending = 0 ∨ (r.place = .gone ∨ r.place = .fifo); let book : List Part := [.fbk, .ctr, .hif, .out];
      let Placed (r : FbRec) (t : Dev) : Prop := (k.degraded = true → r ∈ t.fbk.lastWord ∧ t.fbk.ring = k.ring ∧ t.fbk.written = k.written) ∧
        (k.degraded = false → t.fbk.ring = (k.ring ++ [r]).drop ((k.ring ++ [r]).length - 16384) ∧ t.fbk.written = k.written + 1 ∧ t.fbk.lastWord = k.lastWord);
      (¬runs → ∀ b, Gives (.fbkWriteSlot b) s off) ∧
      (runs → (k.degraded = true → exec (.fbkWriteSlot true) s = exec (.fbkWriteSlot false) s) ∧
        (∀ r, s.toDev.pendingFold? = some r → Gives (.fbkWriteSlot false) s fun t =>
          (∀ (n : Nat) (x : FbRec), k.degraded = false → k.ring[n]? = some x → x.src = r.src → x.seq = r.seq →
            t.fbk.ring[n]? = some { x with rep := BitVec.ofNat 16 (min 0xFFFF (x.rep.toNat + r.pending)) }) ∧ t.fbk.fifo = k.fifo ∧ t.fbk.written = k.written ∧ Only [.fbk] s.toDev t) ∧
        (quiet → k.drops = 0 → k.fifo = [] → Gives (.fbkWriteSlot false) s off) ∧
        (∀ r l, quiet → k.drops = 0 → k.fifo = r :: l → Gives (.fbkWriteSlot false) s fun t => Placed { r with tick := s.tck.count.setWidth 48 } t ∧ t.fbk.fifo = l ∧
          t.ctr[ctrIx .fbkRecords] = min (s.ctr[ctrIx .fbkRecords] + 1) maxCount ∧ Only book s.toDev t) ∧
        (quiet → 0 < k.drops → Gives (.fbkWriteSlot false) s fun t => (∃ r : FbRec, Placed r t ∧ r.code = 0xA001 ∧ r.p1 = BitVec.ofNat 32 k.drops ∧ r.p3 = k.dropFirst.2) ∧
          t.fbk.drops = 0 ∧ t.fbk.dropping = false ∧ t.fbk.fifo = k.fifo ∧ t.hif.events.getLsbD 7 = true ∧ Only book s.toDev t) ∧
        (k.degraded = false → Gives (.fbkWriteSlot true) s fun t => t.fbk.degraded = true ∧ t.fbk.critical = true ∧ t.fbk.ring = k.ring ∧ t.fbk.written = k.written ∧
          (∃ r ∈ t.fbk.lastWord, r.code = 0xA002) ∧ t.hif.events.getLsbD 7 = true ∧ Only book s.toDev t)))
end

