-- ==== Sys2Proof/Laws/Frames.lean ====
section
/-!
SUPPORT. What records, events, messages and the end of a mailbox command leave alone: one lemma for each part of the block.
-/

namespace Sys2Proof.Machine

variable (s : Dev)

/-- A conditional change that leaves a projection alone. -/
theorem Dev.when_same {α : Type} {s : Dev} {c : Bool} {f : Dev → Dev} (g : Dev → α) (h : g (f s) = g s) : g (s.when c f) = g s := by
  unfold Dev.when
  split
  · exact h
  · rfl

/-! ### fold -/

@[simp] theorem Dev.fold_cfg (r : FbLast) : (s.fold r).cfg = s.cfg := by unfold Dev.fold; extract_lets; split <;> rfl
@[simp] theorem Dev.fold_cfgNext (r : FbLast) : (s.fold r).cfgNext = s.cfgNext := by unfold Dev.fold; extract_lets; split <;> rfl
@[simp] theorem Dev.fold_tck (r : FbLast) : (s.fold r).tck = s.tck := by unfold Dev.fold; extract_lets; split <;> rfl
@[simp] theorem Dev.fold_tasks (r : FbLast) : (s.fold r).tasks = s.tasks := by unfold Dev.fold; extract_lets; split <;> rfl
@[simp] theorem Dev.fold_hif (r : FbLast) : (s.fold r).hif = s.hif := by unfold Dev.fold; extract_lets; split <;> rfl
@[simp] theorem Dev.fold_win (r : FbLast) : (s.fold r).win = s.win := by unfold Dev.fold; extract_lets; split <;> rfl
@[simp] theorem Dev.fold_qs (r : FbLast) : (s.fold r).qs = s.qs := by unfold Dev.fold; extract_lets; split <;> rfl
@[simp] theorem Dev.fold_mbx (r : FbLast) : (s.fold r).mbx = s.mbx := by unfold Dev.fold; extract_lets; split <;> rfl
@[simp] theorem Dev.fold_fields (r : FbLast) : (s.fold r).fields = s.fields := by unfold Dev.fold; extract_lets; split <;> rfl
@[simp] theorem Dev.fold_mpt (r : FbLast) : (s.fold r).mpt = s.mpt := by unfold Dev.fold; extract_lets; split <;> rfl
@[simp] theorem Dev.fold_cache (r : FbLast) : (s.fold r).cache = s.cache := by unfold Dev.fold; extract_lets; split <;> rfl
@[simp] theorem Dev.fold_mor (r : FbLast) : (s.fold r).mor = s.mor := by unfold Dev.fold; extract_lets; split <;> rfl
@[simp] theorem Dev.fold_mst (r : FbLast) : (s.fold r).mst = s.mst := by unfold Dev.fold; extract_lets; split <;> rfl
@[simp] theorem Dev.fold_hod (r : FbLast) : (s.fold r).hod = s.hod := by unfold Dev.fold; extract_lets; split <;> rfl
@[simp] theorem Dev.fold_drm (r : FbLast) : (s.fold r).drm = s.drm := by unfold Dev.fold; extract_lets; split <;> rfl
@[simp] theorem Dev.fold_vlt (r : FbLast) : (s.fold r).vlt = s.vlt := by unfold Dev.fold; extract_lets; split <;> rfl
@[simp] theorem Dev.fold_twn (r : FbLast) : (s.fold r).twn = s.twn := by unfold Dev.fold; extract_lets; split <;> rfl
@[simp] theorem Dev.fold_lnk (r : FbLast) : (s.fold r).lnk = s.lnk := by unfold Dev.fold; extract_lets; split <;> rfl
@[simp] theorem Dev.fold_kst (r : FbLast) : (s.fold r).kst = s.kst := by unfold Dev.fold; extract_lets; split <;> rfl
@[simp] theorem Dev.fold_upd (r : FbLast) : (s.fold r).upd = s.upd := by unfold Dev.fold; extract_lets; split <;> rfl
@[simp] theorem Dev.fold_sys (r : FbLast) : (s.fold r).sys = s.sys := by unfold Dev.fold; extract_lets; split <;> rfl
@[simp] theorem Dev.fold_freeCtr (r : FbLast) : (s.fold r).freeCtr = s.freeCtr := by unfold Dev.fold; extract_lets; split <;> rfl
@[simp] theorem Dev.fold_out (r : FbLast) : (s.fold r).out = s.out := by unfold Dev.fold; extract_lets; split <;> rfl

/-! ### useSeq -/

@[simp] theorem Dev.useSeq_cfg (src : BitVec 16) : (s.useSeq src).cfg = s.cfg := rfl
@[simp] theorem Dev.useSeq_cfgNext (src : BitVec 16) : (s.useSeq src).cfgNext = s.cfgNext := rfl
@[simp] theorem Dev.useSeq_ctr (src : BitVec 16) : (s.useSeq src).ctr = s.ctr := rfl
@[simp] theorem Dev.useSeq_tck (src : BitVec 16) : (s.useSeq src).tck = s.tck := rfl
@[simp] theorem Dev.useSeq_tasks (src : BitVec 16) : (s.useSeq src).tasks = s.tasks := rfl
@[simp] theorem Dev.useSeq_hif (src : BitVec 16) : (s.useSeq src).hif = s.hif := rfl
@[simp] theorem Dev.useSeq_win (src : BitVec 16) : (s.useSeq src).win = s.win := rfl
@[simp] theorem Dev.useSeq_qs (src : BitVec 16) : (s.useSeq src).qs = s.qs := rfl
@[simp] theorem Dev.useSeq_mbx (src : BitVec 16) : (s.useSeq src).mbx = s.mbx := rfl
@[simp] theorem Dev.useSeq_fields (src : BitVec 16) : (s.useSeq src).fields = s.fields := rfl
@[simp] theorem Dev.useSeq_mpt (src : BitVec 16) : (s.useSeq src).mpt = s.mpt := rfl
@[simp] theorem Dev.useSeq_cache (src : BitVec 16) : (s.useSeq src).cache = s.cache := rfl
@[simp] theorem Dev.useSeq_mor (src : BitVec 16) : (s.useSeq src).mor = s.mor := rfl
@[simp] theorem Dev.useSeq_mst (src : BitVec 16) : (s.useSeq src).mst = s.mst := rfl
@[simp] theorem Dev.useSeq_hod (src : BitVec 16) : (s.useSeq src).hod = s.hod := rfl
@[simp] theorem Dev.useSeq_drm (src : BitVec 16) : (s.useSeq src).drm = s.drm := rfl
@[simp] theorem Dev.useSeq_vlt (src : BitVec 16) : (s.useSeq src).vlt = s.vlt := rfl
@[simp] theorem Dev.useSeq_twn (src : BitVec 16) : (s.useSeq src).twn = s.twn := rfl
@[simp] theorem Dev.useSeq_lnk (src : BitVec 16) : (s.useSeq src).lnk = s.lnk := rfl
@[simp] theorem Dev.useSeq_kst (src : BitVec 16) : (s.useSeq src).kst = s.kst := rfl
@[simp] theorem Dev.useSeq_upd (src : BitVec 16) : (s.useSeq src).upd = s.upd := rfl
@[simp] theorem Dev.useSeq_sys (src : BitVec 16) : (s.useSeq src).sys = s.sys := rfl
@[simp] theorem Dev.useSeq_freeCtr (src : BitVec 16) : (s.useSeq src).freeCtr = s.freeCtr := rfl
@[simp] theorem Dev.useSeq_out (src : BitVec 16) : (s.useSeq src).out = s.out := rfl

/-! ### toLastWord -/

@[simp] theorem Dev.toLastWord_cfg (r : FbRec) : (s.toLastWord r).cfg = s.cfg := rfl
@[simp] theorem Dev.toLastWord_cfgNext (r : FbRec) : (s.toLastWord r).cfgNext = s.cfgNext := rfl
@[simp] theorem Dev.toLastWord_ctr (r : FbRec) : (s.toLastWord r).ctr = s.ctr := rfl
@[simp] theorem Dev.toLastWord_tck (r : FbRec) : (s.toLastWord r).tck = s.tck := rfl
@[simp] theorem Dev.toLastWord_tasks (r : FbRec) : (s.toLastWord r).tasks = s.tasks := rfl
@[simp] theorem Dev.toLastWord_hif (r : FbRec) : (s.toLastWord r).hif = s.hif := rfl
@[simp] theorem Dev.toLastWord_win (r : FbRec) : (s.toLastWord r).win = s.win := rfl
@[simp] theorem Dev.toLastWord_qs (r : FbRec) : (s.toLastWord r).qs = s.qs := rfl
@[simp] theorem Dev.toLastWord_mbx (r : FbRec) : (s.toLastWord r).mbx = s.mbx := rfl
@[simp] theorem Dev.toLastWord_fields (r : FbRec) : (s.toLastWord r).fields = s.fields := rfl
@[simp] theorem Dev.toLastWord_mpt (r : FbRec) : (s.toLastWord r).mpt = s.mpt := rfl
@[simp] theorem Dev.toLastWord_cache (r : FbRec) : (s.toLastWord r).cache = s.cache := rfl
@[simp] theorem Dev.toLastWord_mor (r : FbRec) : (s.toLastWord r).mor = s.mor := rfl
@[simp] theorem Dev.toLastWord_mst (r : FbRec) : (s.toLastWord r).mst = s.mst := rfl
@[simp] theorem Dev.toLastWord_hod (r : FbRec) : (s.toLastWord r).hod = s.hod := rfl
@[simp] theorem Dev.toLastWord_drm (r : FbRec) : (s.toLastWord r).drm = s.drm := rfl
@[simp] theorem Dev.toLastWord_vlt (r : FbRec) : (s.toLastWord r).vlt = s.vlt := rfl
@[simp] theorem Dev.toLastWord_twn (r : FbRec) : (s.toLastWord r).twn = s.twn := rfl
@[simp] theorem Dev.toLastWord_lnk (r : FbRec) : (s.toLastWord r).lnk = s.lnk := rfl
@[simp] theorem Dev.toLastWord_kst (r : FbRec) : (s.toLastWord r).kst = s.kst := rfl
@[simp] theorem Dev.toLastWord_upd (r : FbRec) : (s.toLastWord r).upd = s.upd := rfl
@[simp] theorem Dev.toLastWord_sys (r : FbRec) : (s.toLastWord r).sys = s.sys := rfl
@[simp] theorem Dev.toLastWord_freeCtr (r : FbRec) : (s.toLastWord r).freeCtr = s.freeCtr := rfl
@[simp] theorem Dev.toLastWord_out (r : FbRec) : (s.toLastWord r).out = s.out := rfl

/-! ### dropRec -/

@[simp] theorem Dev.dropRec_cfg (src : BitVec 16) (q : BitVec 32) : (s.dropRec src q).cfg = s.cfg := rfl
@[simp] theorem Dev.dropRec_cfgNext (src : BitVec 16) (q : BitVec 32) : (s.dropRec src q).cfgNext = s.cfgNext := rfl
@[simp] theorem Dev.dropRec_tck (src : BitVec 16) (q : BitVec 32) : (s.dropRec src q).tck = s.tck := rfl
@[simp] theorem Dev.dropRec_tasks (src : BitVec 16) (q : BitVec 32) : (s.dropRec src q).tasks = s.tasks := rfl
@[simp] theorem Dev.dropRec_hif (src : BitVec 16) (q : BitVec 32) : (s.dropRec src q).hif = s.hif := rfl
@[simp] theorem Dev.dropRec_win (src : BitVec 16) (q : BitVec 32) : (s.dropRec src q).win = s.win := rfl
@[simp] theorem Dev.dropRec_qs (src : BitVec 16) (q : BitVec 32) : (s.dropRec src q).qs = s.qs := rfl
@[simp] theorem Dev.dropRec_mbx (src : BitVec 16) (q : BitVec 32) : (s.dropRec src q).mbx = s.mbx := rfl
@[simp] theorem Dev.dropRec_fields (src : BitVec 16) (q : BitVec 32) : (s.dropRec src q).fields = s.fields := rfl
@[simp] theorem Dev.dropRec_mpt (src : BitVec 16) (q : BitVec 32) : (s.dropRec src q).mpt = s.mpt := rfl
@[simp] theorem Dev.dropRec_cache (src : BitVec 16) (q : BitVec 32) : (s.dropRec src q).cache = s.cache := rfl
@[simp] theorem Dev.dropRec_mor (src : BitVec 16) (q : BitVec 32) : (s.dropRec src q).mor = s.mor := rfl
@[simp] theorem Dev.dropRec_mst (src : BitVec 16) (q : BitVec 32) : (s.dropRec src q).mst = s.mst := rfl
@[simp] theorem Dev.dropRec_hod (src : BitVec 16) (q : BitVec 32) : (s.dropRec src q).hod = s.hod := rfl
@[simp] theorem Dev.dropRec_drm (src : BitVec 16) (q : BitVec 32) : (s.dropRec src q).drm = s.drm := rfl
@[simp] theorem Dev.dropRec_vlt (src : BitVec 16) (q : BitVec 32) : (s.dropRec src q).vlt = s.vlt := rfl
@[simp] theorem Dev.dropRec_twn (src : BitVec 16) (q : BitVec 32) : (s.dropRec src q).twn = s.twn := rfl
@[simp] theorem Dev.dropRec_lnk (src : BitVec 16) (q : BitVec 32) : (s.dropRec src q).lnk = s.lnk := rfl
@[simp] theorem Dev.dropRec_kst (src : BitVec 16) (q : BitVec 32) : (s.dropRec src q).kst = s.kst := rfl
@[simp] theorem Dev.dropRec_upd (src : BitVec 16) (q : BitVec 32) : (s.dropRec src q).upd = s.upd := rfl
@[simp] theorem Dev.dropRec_sys (src : BitVec 16) (q : BitVec 32) : (s.dropRec src q).sys = s.sys := rfl
@[simp] theorem Dev.dropRec_freeCtr (src : BitVec 16) (q : BitVec 32) : (s.dropRec src q).freeCtr = s.freeCtr := rfl
@[simp] theorem Dev.dropRec_out (src : BitVec 16) (q : BitVec 32) : (s.dropRec src q).out = s.out := rfl

/-! ### recordF -/

@[simp] theorem Dev.recordF_cfg (fl c : Nat) (src : BitVec 16) (a b d : Nat) : (s.recordF fl c src a b d).cfg = s.cfg := by
  unfold Dev.recordF
  extract_lets
  split
  · rw [Dev.fold_cfg]; rfl
  · split
    · rw [Dev.dropRec_cfg]; exact Dev.when_same (·.cfg) rfl
    · exact Dev.when_same (·.cfg) rfl
@[simp] theorem Dev.recordF_cfgNext (fl c : Nat) (src : BitVec 16) (a b d : Nat) : (s.recordF fl c src a b d).cfgNext = s.cfgNext := by
  unfold Dev.recordF
  extract_lets
  split
  · rw [Dev.fold_cfgNext]; rfl
  · split
    · rw [Dev.dropRec_cfgNext]; exact Dev.when_same (·.cfgNext) rfl
    · exact Dev.when_same (·.cfgNext) rfl
@[simp] theorem Dev.recordF_tck (fl c : Nat) (src : BitVec 16) (a b d : Nat) : (s.recordF fl c src a b d).tck = s.tck := by
  unfold Dev.recordF
  extract_lets
  split
  · rw [Dev.fold_tck]; rfl
  · split
    · rw [Dev.dropRec_tck]; exact Dev.when_same (·.tck) rfl
    · exact Dev.when_same (·.tck) rfl
@[simp] theorem Dev.recordF_tasks (fl c : Nat) (src : BitVec 16) (a b d : Nat) : (s.recordF fl c src a b d).tasks = s.tasks := by
  unfold Dev.recordF
  extract_lets
  split
  · rw [Dev.fold_tasks]; rfl
  · split
    · rw [Dev.dropRec_tasks]; exact Dev.when_same (·.tasks) rfl
    · exact Dev.when_same (·.tasks) rfl
@[simp] theorem Dev.recordF_hif (fl c : Nat) (src : BitVec 16) (a b d : Nat) : (s.recordF fl c src a b d).hif = s.hif := by
  unfold Dev.recordF
  extract_lets
  split
  · rw [Dev.fold_hif]; rfl
  · split
    · rw [Dev.dropRec_hif]; exact Dev.when_same (·.hif) rfl
    · exact Dev.when_same (·.hif) rfl
@[simp] theorem Dev.recordF_win (fl c : Nat) (src : BitVec 16) (a b d : Nat) : (s.recordF fl c src a b d).win = s.win := by
  unfold Dev.recordF
  extract_lets
  split
  · rw [Dev.fold_win]; rfl
  · split
    · rw [Dev.dropRec_win]; exact Dev.when_same (·.win) rfl
    · exact Dev.when_same (·.win) rfl
@[simp] theorem Dev.recordF_qs (fl c : Nat) (src : BitVec 16) (a b d : Nat) : (s.recordF fl c src a b d).qs = s.qs := by
  unfold Dev.recordF
  extract_lets
  split
  · rw [Dev.fold_qs]; rfl
  · split
    · rw [Dev.dropRec_qs]; exact Dev.when_same (·.qs) rfl
    · exact Dev.when_same (·.qs) rfl
@[simp] theorem Dev.recordF_mbx (fl c : Nat) (src : BitVec 16) (a b d : Nat) : (s.recordF fl c src a b d).mbx = s.mbx := by
  unfold Dev.recordF
  extract_lets
  split
  · rw [Dev.fold_mbx]; rfl
  · split
    · rw [Dev.dropRec_mbx]; exact Dev.when_same (·.mbx) rfl
    · exact Dev.when_same (·.mbx) rfl
@[simp] theorem Dev.recordF_fields (fl c : Nat) (src : BitVec 16) (a b d : Nat) : (s.recordF fl c src a b d).fields = s.fields := by
  unfold Dev.recordF
  extract_lets
  split
  · rw [Dev.fold_fields]; rfl
  · split
    · rw [Dev.dropRec_fields]; exact Dev.when_same (·.fields) rfl
    · exact Dev.when_same (·.fields) rfl
@[simp] theorem Dev.recordF_mpt (fl c : Nat) (src : BitVec 16) (a b d : Nat) : (s.recordF fl c src a b d).mpt = s.mpt := by
  unfold Dev.recordF
  extract_lets
  split
  · rw [Dev.fold_mpt]; rfl
  · split
    · rw [Dev.dropRec_mpt]; exact Dev.when_same (·.mpt) rfl
    · exact Dev.when_same (·.mpt) rfl
@[simp] theorem Dev.recordF_cache (fl c : Nat) (src : BitVec 16) (a b d : Nat) : (s.recordF fl c src a b d).cache = s.cache := by
  unfold Dev.recordF
  extract_lets
  split
  · rw [Dev.fold_cache]; rfl
  · split
    · rw [Dev.dropRec_cache]; exact Dev.when_same (·.cache) rfl
    · exact Dev.when_same (·.cache) rfl
@[simp] theorem Dev.recordF_mor (fl c : Nat) (src : BitVec 16) (a b d : Nat) : (s.recordF fl c src a b d).mor = s.mor := by
  unfold Dev.recordF
  extract_lets
  split
  · rw [Dev.fold_mor]; rfl
  · split
    · rw [Dev.dropRec_mor]; exact Dev.when_same (·.mor) rfl
    · exact Dev.when_same (·.mor) rfl
@[simp] theorem Dev.recordF_mst (fl c : Nat) (src : BitVec 16) (a b d : Nat) : (s.recordF fl c src a b d).mst = s.mst := by
  unfold Dev.recordF
  extract_lets
  split
  · rw [Dev.fold_mst]; rfl
  · split
    · rw [Dev.dropRec_mst]; exact Dev.when_same (·.mst) rfl
    · exact Dev.when_same (·.mst) rfl
@[simp] theorem Dev.recordF_hod (fl c : Nat) (src : BitVec 16) (a b d : Nat) : (s.recordF fl c src a b d).hod = s.hod := by
  unfold Dev.recordF
  extract_lets
  split
  · rw [Dev.fold_hod]; rfl
  · split
    · rw [Dev.dropRec_hod]; exact Dev.when_same (·.hod) rfl
    · exact Dev.when_same (·.hod) rfl
@[simp] theorem Dev.recordF_drm (fl c : Nat) (src : BitVec 16) (a b d : Nat) : (s.recordF fl c src a b d).drm = s.drm := by
  unfold Dev.recordF
  extract_lets
  split
  · rw [Dev.fold_drm]; rfl
  · split
    · rw [Dev.dropRec_drm]; exact Dev.when_same (·.drm) rfl
    · exact Dev.when_same (·.drm) rfl
@[simp] theorem Dev.recordF_vlt (fl c : Nat) (src : BitVec 16) (a b d : Nat) : (s.recordF fl c src a b d).vlt = s.vlt := by
  unfold Dev.recordF
  extract_lets
  split
  · rw [Dev.fold_vlt]; rfl
  · split
    · rw [Dev.dropRec_vlt]; exact Dev.when_same (·.vlt) rfl
    · exact Dev.when_same (·.vlt) rfl
@[simp] theorem Dev.recordF_twn (fl c : Nat) (src : BitVec 16) (a b d : Nat) : (s.recordF fl c src a b d).twn = s.twn := by
  unfold Dev.recordF
  extract_lets
  split
  · rw [Dev.fold_twn]; rfl
  · split
    · rw [Dev.dropRec_twn]; exact Dev.when_same (·.twn) rfl
    · exact Dev.when_same (·.twn) rfl
@[simp] theorem Dev.recordF_lnk (fl c : Nat) (src : BitVec 16) (a b d : Nat) : (s.recordF fl c src a b d).lnk = s.lnk := by
  unfold Dev.recordF
  extract_lets
  split
  · rw [Dev.fold_lnk]; rfl
  · split
    · rw [Dev.dropRec_lnk]; exact Dev.when_same (·.lnk) rfl
    · exact Dev.when_same (·.lnk) rfl
@[simp] theorem Dev.recordF_kst (fl c : Nat) (src : BitVec 16) (a b d : Nat) : (s.recordF fl c src a b d).kst = s.kst := by
  unfold Dev.recordF
  extract_lets
  split
  · rw [Dev.fold_kst]; rfl
  · split
    · rw [Dev.dropRec_kst]; exact Dev.when_same (·.kst) rfl
    · exact Dev.when_same (·.kst) rfl
@[simp] theorem Dev.recordF_upd (fl c : Nat) (src : BitVec 16) (a b d : Nat) : (s.recordF fl c src a b d).upd = s.upd := by
  unfold Dev.recordF
  extract_lets
  split
  · rw [Dev.fold_upd]; rfl
  · split
    · rw [Dev.dropRec_upd]; exact Dev.when_same (·.upd) rfl
    · exact Dev.when_same (·.upd) rfl
@[simp] theorem Dev.recordF_sys (fl c : Nat) (src : BitVec 16) (a b d : Nat) : (s.recordF fl c src a b d).sys = s.sys := by
  unfold Dev.recordF
  extract_lets
  split
  · rw [Dev.fold_sys]; rfl
  · split
    · rw [Dev.dropRec_sys]; exact Dev.when_same (·.sys) rfl
    · exact Dev.when_same (·.sys) rfl
@[simp] theorem Dev.recordF_freeCtr (fl c : Nat) (src : BitVec 16) (a b d : Nat) : (s.recordF fl c src a b d).freeCtr = s.freeCtr := by
  unfold Dev.recordF
  extract_lets
  split
  · rw [Dev.fold_freeCtr]; rfl
  · split
    · rw [Dev.dropRec_freeCtr]; exact Dev.when_same (·.freeCtr) rfl
    · exact Dev.when_same (·.freeCtr) rfl
@[simp] theorem Dev.recordF_out (fl c : Nat) (src : BitVec 16) (a b d : Nat) : (s.recordF fl c src a b d).out = s.out := by
  unfold Dev.recordF
  extract_lets
  split
  · rw [Dev.fold_out]; rfl
  · split
    · rw [Dev.dropRec_out]; exact Dev.when_same (·.out) rfl
    · exact Dev.when_same (·.out) rfl

/-! ### record -/

@[simp] theorem Dev.record_cfg (c : Nat) (src : BitVec 16) (a b d : Nat) : (s.record c src a b d).cfg = s.cfg := s.recordF_cfg 0 c src a b d
@[simp] theorem Dev.record_cfgNext (c : Nat) (src : BitVec 16) (a b d : Nat) : (s.record c src a b d).cfgNext = s.cfgNext := s.recordF_cfgNext 0 c src a b d
@[simp] theorem Dev.record_tck (c : Nat) (src : BitVec 16) (a b d : Nat) : (s.record c src a b d).tck = s.tck := s.recordF_tck 0 c src a b d
@[simp] theorem Dev.record_tasks (c : Nat) (src : BitVec 16) (a b d : Nat) : (s.record c src a b d).tasks = s.tasks := s.recordF_tasks 0 c src a b d
@[simp] theorem Dev.record_hif (c : Nat) (src : BitVec 16) (a b d : Nat) : (s.record c src a b d).hif = s.hif := s.recordF_hif 0 c src a b d
@[simp] theorem Dev.record_win (c : Nat) (src : BitVec 16) (a b d : Nat) : (s.record c src a b d).win = s.win := s.recordF_win 0 c src a b d
@[simp] theorem Dev.record_qs (c : Nat) (src : BitVec 16) (a b d : Nat) : (s.record c src a b d).qs = s.qs := s.recordF_qs 0 c src a b d
@[simp] theorem Dev.record_mbx (c : Nat) (src : BitVec 16) (a b d : Nat) : (s.record c src a b d).mbx = s.mbx := s.recordF_mbx 0 c src a b d
@[simp] theorem Dev.record_fields (c : Nat) (src : BitVec 16) (a b d : Nat) : (s.record c src a b d).fields = s.fields := s.recordF_fields 0 c src a b d
@[simp] theorem Dev.record_mpt (c : Nat) (src : BitVec 16) (a b d : Nat) : (s.record c src a b d).mpt = s.mpt := s.recordF_mpt 0 c src a b d
@[simp] theorem Dev.record_cache (c : Nat) (src : BitVec 16) (a b d : Nat) : (s.record c src a b d).cache = s.cache := s.recordF_cache 0 c src a b d
@[simp] theorem Dev.record_mor (c : Nat) (src : BitVec 16) (a b d : Nat) : (s.record c src a b d).mor = s.mor := s.recordF_mor 0 c src a b d
@[simp] theorem Dev.record_mst (c : Nat) (src : BitVec 16) (a b d : Nat) : (s.record c src a b d).mst = s.mst := s.recordF_mst 0 c src a b d
@[simp] theorem Dev.record_hod (c : Nat) (src : BitVec 16) (a b d : Nat) : (s.record c src a b d).hod = s.hod := s.recordF_hod 0 c src a b d
@[simp] theorem Dev.record_drm (c : Nat) (src : BitVec 16) (a b d : Nat) : (s.record c src a b d).drm = s.drm := s.recordF_drm 0 c src a b d
@[simp] theorem Dev.record_vlt (c : Nat) (src : BitVec 16) (a b d : Nat) : (s.record c src a b d).vlt = s.vlt := s.recordF_vlt 0 c src a b d
@[simp] theorem Dev.record_twn (c : Nat) (src : BitVec 16) (a b d : Nat) : (s.record c src a b d).twn = s.twn := s.recordF_twn 0 c src a b d
@[simp] theorem Dev.record_lnk (c : Nat) (src : BitVec 16) (a b d : Nat) : (s.record c src a b d).lnk = s.lnk := s.recordF_lnk 0 c src a b d
@[simp] theorem Dev.record_kst (c : Nat) (src : BitVec 16) (a b d : Nat) : (s.record c src a b d).kst = s.kst := s.recordF_kst 0 c src a b d
@[simp] theorem Dev.record_upd (c : Nat) (src : BitVec 16) (a b d : Nat) : (s.record c src a b d).upd = s.upd := s.recordF_upd 0 c src a b d
@[simp] theorem Dev.record_sys (c : Nat) (src : BitVec 16) (a b d : Nat) : (s.record c src a b d).sys = s.sys := s.recordF_sys 0 c src a b d
@[simp] theorem Dev.record_freeCtr (c : Nat) (src : BitVec 16) (a b d : Nat) : (s.record c src a b d).freeCtr = s.freeCtr := s.recordF_freeCtr 0 c src a b d
@[simp] theorem Dev.record_out (c : Nat) (src : BitVec 16) (a b d : Nat) : (s.record c src a b d).out = s.out := s.recordF_out 0 c src a b d

/-! ### recordEarly -/

@[simp] theorem Dev.recordEarly_cfg (c : Nat) (src : BitVec 16) (a b : Nat) : (s.recordEarly c src a b).cfg = s.cfg := by unfold Dev.recordEarly; split <;> simp
@[simp] theorem Dev.recordEarly_cfgNext (c : Nat) (src : BitVec 16) (a b : Nat) : (s.recordEarly c src a b).cfgNext = s.cfgNext := by unfold Dev.recordEarly; split <;> simp
@[simp] theorem Dev.recordEarly_tck (c : Nat) (src : BitVec 16) (a b : Nat) : (s.recordEarly c src a b).tck = s.tck := by unfold Dev.recordEarly; split <;> simp
@[simp] theorem Dev.recordEarly_tasks (c : Nat) (src : BitVec 16) (a b : Nat) : (s.recordEarly c src a b).tasks = s.tasks := by unfold Dev.recordEarly; split <;> simp
@[simp] theorem Dev.recordEarly_hif (c : Nat) (src : BitVec 16) (a b : Nat) : (s.recordEarly c src a b).hif = s.hif := by unfold Dev.recordEarly; split <;> simp
@[simp] theorem Dev.recordEarly_win (c : Nat) (src : BitVec 16) (a b : Nat) : (s.recordEarly c src a b).win = s.win := by unfold Dev.recordEarly; split <;> simp
@[simp] theorem Dev.recordEarly_qs (c : Nat) (src : BitVec 16) (a b : Nat) : (s.recordEarly c src a b).qs = s.qs := by unfold Dev.recordEarly; split <;> simp
@[simp] theorem Dev.recordEarly_mbx (c : Nat) (src : BitVec 16) (a b : Nat) : (s.recordEarly c src a b).mbx = s.mbx := by unfold Dev.recordEarly; split <;> simp
@[simp] theorem Dev.recordEarly_fields (c : Nat) (src : BitVec 16) (a b : Nat) : (s.recordEarly c src a b).fields = s.fields := by unfold Dev.recordEarly; split <;> simp
@[simp] theorem Dev.recordEarly_mpt (c : Nat) (src : BitVec 16) (a b : Nat) : (s.recordEarly c src a b).mpt = s.mpt := by unfold Dev.recordEarly; split <;> simp
@[simp] theorem Dev.recordEarly_cache (c : Nat) (src : BitVec 16) (a b : Nat) : (s.recordEarly c src a b).cache = s.cache := by unfold Dev.recordEarly; split <;> simp
@[simp] theorem Dev.recordEarly_mor (c : Nat) (src : BitVec 16) (a b : Nat) : (s.recordEarly c src a b).mor = s.mor := by unfold Dev.recordEarly; split <;> simp
@[simp] theorem Dev.recordEarly_mst (c : Nat) (src : BitVec 16) (a b : Nat) : (s.recordEarly c src a b).mst = s.mst := by unfold Dev.recordEarly; split <;> simp
@[simp] theorem Dev.recordEarly_hod (c : Nat) (src : BitVec 16) (a b : Nat) : (s.recordEarly c src a b).hod = s.hod := by unfold Dev.recordEarly; split <;> simp
@[simp] theorem Dev.recordEarly_drm (c : Nat) (src : BitVec 16) (a b : Nat) : (s.recordEarly c src a b).drm = s.drm := by unfold Dev.recordEarly; split <;> simp
@[simp] theorem Dev.recordEarly_vlt (c : Nat) (src : BitVec 16) (a b : Nat) : (s.recordEarly c src a b).vlt = s.vlt := by unfold Dev.recordEarly; split <;> simp
@[simp] theorem Dev.recordEarly_twn (c : Nat) (src : BitVec 16) (a b : Nat) : (s.recordEarly c src a b).twn = s.twn := by unfold Dev.recordEarly; split <;> simp
@[simp] theorem Dev.recordEarly_lnk (c : Nat) (src : BitVec 16) (a b : Nat) : (s.recordEarly c src a b).lnk = s.lnk := by unfold Dev.recordEarly; split <;> simp
@[simp] theorem Dev.recordEarly_upd (c : Nat) (src : BitVec 16) (a b : Nat) : (s.recordEarly c src a b).upd = s.upd := by unfold Dev.recordEarly; split <;> simp
@[simp] theorem Dev.recordEarly_sys (c : Nat) (src : BitVec 16) (a b : Nat) : (s.recordEarly c src a b).sys = s.sys := by unfold Dev.recordEarly; split <;> simp
@[simp] theorem Dev.recordEarly_freeCtr (c : Nat) (src : BitVec 16) (a b : Nat) : (s.recordEarly c src a b).freeCtr = s.freeCtr := by unfold Dev.recordEarly; split <;> simp
@[simp] theorem Dev.recordEarly_out (c : Nat) (src : BitVec 16) (a b : Nat) : (s.recordEarly c src a b).out = s.out := by unfold Dev.recordEarly; split <;> simp

/-! ### recordKst -/

@[simp] theorem Dev.recordKst_cfg (c a b : Nat) : (s.recordKst c a b).cfg = s.cfg := s.recordEarly_cfg c (s.srcProc 2) a b
@[simp] theorem Dev.recordKst_cfgNext (c a b : Nat) : (s.recordKst c a b).cfgNext = s.cfgNext := s.recordEarly_cfgNext c (s.srcProc 2) a b
@[simp] theorem Dev.recordKst_tck (c a b : Nat) : (s.recordKst c a b).tck = s.tck := s.recordEarly_tck c (s.srcProc 2) a b
@[simp] theorem Dev.recordKst_tasks (c a b : Nat) : (s.recordKst c a b).tasks = s.tasks := s.recordEarly_tasks c (s.srcProc 2) a b
@[simp] theorem Dev.recordKst_hif (c a b : Nat) : (s.recordKst c a b).hif = s.hif := s.recordEarly_hif c (s.srcProc 2) a b
@[simp] theorem Dev.recordKst_win (c a b : Nat) : (s.recordKst c a b).win = s.win := s.recordEarly_win c (s.srcProc 2) a b
@[simp] theorem Dev.recordKst_qs (c a b : Nat) : (s.recordKst c a b).qs = s.qs := s.recordEarly_qs c (s.srcProc 2) a b
@[simp] theorem Dev.recordKst_mbx (c a b : Nat) : (s.recordKst c a b).mbx = s.mbx := s.recordEarly_mbx c (s.srcProc 2) a b
@[simp] theorem Dev.recordKst_fields (c a b : Nat) : (s.recordKst c a b).fields = s.fields := s.recordEarly_fields c (s.srcProc 2) a b
@[simp] theorem Dev.recordKst_mpt (c a b : Nat) : (s.recordKst c a b).mpt = s.mpt := s.recordEarly_mpt c (s.srcProc 2) a b
@[simp] theorem Dev.recordKst_cache (c a b : Nat) : (s.recordKst c a b).cache = s.cache := s.recordEarly_cache c (s.srcProc 2) a b
@[simp] theorem Dev.recordKst_mor (c a b : Nat) : (s.recordKst c a b).mor = s.mor := s.recordEarly_mor c (s.srcProc 2) a b
@[simp] theorem Dev.recordKst_mst (c a b : Nat) : (s.recordKst c a b).mst = s.mst := s.recordEarly_mst c (s.srcProc 2) a b
@[simp] theorem Dev.recordKst_hod (c a b : Nat) : (s.recordKst c a b).hod = s.hod := s.recordEarly_hod c (s.srcProc 2) a b
@[simp] theorem Dev.recordKst_drm (c a b : Nat) : (s.recordKst c a b).drm = s.drm := s.recordEarly_drm c (s.srcProc 2) a b
@[simp] theorem Dev.recordKst_vlt (c a b : Nat) : (s.recordKst c a b).vlt = s.vlt := s.recordEarly_vlt c (s.srcProc 2) a b
@[simp] theorem Dev.recordKst_twn (c a b : Nat) : (s.recordKst c a b).twn = s.twn := s.recordEarly_twn c (s.srcProc 2) a b
@[simp] theorem Dev.recordKst_lnk (c a b : Nat) : (s.recordKst c a b).lnk = s.lnk := s.recordEarly_lnk c (s.srcProc 2) a b
@[simp] theorem Dev.recordKst_upd (c a b : Nat) : (s.recordKst c a b).upd = s.upd := s.recordEarly_upd c (s.srcProc 2) a b
@[simp] theorem Dev.recordKst_sys (c a b : Nat) : (s.recordKst c a b).sys = s.sys := s.recordEarly_sys c (s.srcProc 2) a b
@[simp] theorem Dev.recordKst_freeCtr (c a b : Nat) : (s.recordKst c a b).freeCtr = s.freeCtr := s.recordEarly_freeCtr c (s.srcProc 2) a b
@[simp] theorem Dev.recordKst_out (c a b : Nat) : (s.recordKst c a b).out = s.out := s.recordEarly_out c (s.srcProc 2) a b

/-! ### sendUp -/

@[simp] theorem Dev.sendUp_cfg (o : Out) : (s.sendUp o).cfg = s.cfg := by unfold Dev.sendUp; split <;> rfl
@[simp] theorem Dev.sendUp_cfgNext (o : Out) : (s.sendUp o).cfgNext = s.cfgNext := by unfold Dev.sendUp; split <;> rfl
@[simp] theorem Dev.sendUp_ctr (o : Out) : (s.sendUp o).ctr = s.ctr := by unfold Dev.sendUp; split <;> rfl
@[simp] theorem Dev.sendUp_tck (o : Out) : (s.sendUp o).tck = s.tck := by unfold Dev.sendUp; split <;> rfl
@[simp] theorem Dev.sendUp_tasks (o : Out) : (s.sendUp o).tasks = s.tasks := by unfold Dev.sendUp; split <;> rfl
@[simp] theorem Dev.sendUp_win (o : Out) : (s.sendUp o).win = s.win := by unfold Dev.sendUp; split <;> rfl
@[simp] theorem Dev.sendUp_qs (o : Out) : (s.sendUp o).qs = s.qs := by unfold Dev.sendUp; split <;> rfl
@[simp] theorem Dev.sendUp_mbx (o : Out) : (s.sendUp o).mbx = s.mbx := by unfold Dev.sendUp; split <;> rfl
@[simp] theorem Dev.sendUp_fields (o : Out) : (s.sendUp o).fields = s.fields := by unfold Dev.sendUp; split <;> rfl
@[simp] theorem Dev.sendUp_mpt (o : Out) : (s.sendUp o).mpt = s.mpt := by unfold Dev.sendUp; split <;> rfl
@[simp] theorem Dev.sendUp_cache (o : Out) : (s.sendUp o).cache = s.cache := by unfold Dev.sendUp; split <;> rfl
@[simp] theorem Dev.sendUp_mor (o : Out) : (s.sendUp o).mor = s.mor := by unfold Dev.sendUp; split <;> rfl
@[simp] theorem Dev.sendUp_mst (o : Out) : (s.sendUp o).mst = s.mst := by unfold Dev.sendUp; split <;> rfl
@[simp] theorem Dev.sendUp_hod (o : Out) : (s.sendUp o).hod = s.hod := by unfold Dev.sendUp; split <;> rfl
@[simp] theorem Dev.sendUp_drm (o : Out) : (s.sendUp o).drm = s.drm := by unfold Dev.sendUp; split <;> rfl
@[simp] theorem Dev.sendUp_vlt (o : Out) : (s.sendUp o).vlt = s.vlt := by unfold Dev.sendUp; split <;> rfl
@[simp] theorem Dev.sendUp_twn (o : Out) : (s.sendUp o).twn = s.twn := by unfold Dev.sendUp; split <;> rfl
@[simp] theorem Dev.sendUp_lnk (o : Out) : (s.sendUp o).lnk = s.lnk := by unfold Dev.sendUp; split <;> rfl
@[simp] theorem Dev.sendUp_kst (o : Out) : (s.sendUp o).kst = s.kst := by unfold Dev.sendUp; split <;> rfl
@[simp] theorem Dev.sendUp_upd (o : Out) : (s.sendUp o).upd = s.upd := by unfold Dev.sendUp; split <;> rfl
@[simp] theorem Dev.sendUp_fbk (o : Out) : (s.sendUp o).fbk = s.fbk := by unfold Dev.sendUp; split <;> rfl
@[simp] theorem Dev.sendUp_sys (o : Out) : (s.sendUp o).sys = s.sys := by unfold Dev.sendUp; split <;> rfl
@[simp] theorem Dev.sendUp_freeCtr (o : Out) : (s.sendUp o).freeCtr = s.freeCtr := by unfold Dev.sendUp; split <;> rfl

/-! ### msix -/

@[simp] theorem Dev.msix_cfg (v : Nat) : (s.msix v).cfg = s.cfg := by unfold Dev.msix; repeat' first | rfl | simp | split
@[simp] theorem Dev.msix_cfgNext (v : Nat) : (s.msix v).cfgNext = s.cfgNext := by unfold Dev.msix; repeat' first | rfl | simp | split
@[simp] theorem Dev.msix_ctr (v : Nat) : (s.msix v).ctr = s.ctr := by unfold Dev.msix; repeat' first | rfl | simp | split
@[simp] theorem Dev.msix_tck (v : Nat) : (s.msix v).tck = s.tck := by unfold Dev.msix; repeat' first | rfl | simp | split
@[simp] theorem Dev.msix_tasks (v : Nat) : (s.msix v).tasks = s.tasks := by unfold Dev.msix; repeat' first | rfl | simp | split
@[simp] theorem Dev.msix_win (v : Nat) : (s.msix v).win = s.win := by unfold Dev.msix; repeat' first | rfl | simp | split
@[simp] theorem Dev.msix_qs (v : Nat) : (s.msix v).qs = s.qs := by unfold Dev.msix; repeat' first | rfl | simp | split
@[simp] theorem Dev.msix_mbx (v : Nat) : (s.msix v).mbx = s.mbx := by unfold Dev.msix; repeat' first | rfl | simp | split
@[simp] theorem Dev.msix_fields (v : Nat) : (s.msix v).fields = s.fields := by unfold Dev.msix; repeat' first | rfl | simp | split
@[simp] theorem Dev.msix_mpt (v : Nat) : (s.msix v).mpt = s.mpt := by unfold Dev.msix; repeat' first | rfl | simp | split
@[simp] theorem Dev.msix_cache (v : Nat) : (s.msix v).cache = s.cache := by unfold Dev.msix; repeat' first | rfl | simp | split
@[simp] theorem Dev.msix_mor (v : Nat) : (s.msix v).mor = s.mor := by unfold Dev.msix; repeat' first | rfl | simp | split
@[simp] theorem Dev.msix_mst (v : Nat) : (s.msix v).mst = s.mst := by unfold Dev.msix; repeat' first | rfl | simp | split
@[simp] theorem Dev.msix_hod (v : Nat) : (s.msix v).hod = s.hod := by unfold Dev.msix; repeat' first | rfl | simp | split
@[simp] theorem Dev.msix_drm (v : Nat) : (s.msix v).drm = s.drm := by unfold Dev.msix; repeat' first | rfl | simp | split
@[simp] theorem Dev.msix_vlt (v : Nat) : (s.msix v).vlt = s.vlt := by unfold Dev.msix; repeat' first | rfl | simp | split
@[simp] theorem Dev.msix_twn (v : Nat) : (s.msix v).twn = s.twn := by unfold Dev.msix; repeat' first | rfl | simp | split
@[simp] theorem Dev.msix_lnk (v : Nat) : (s.msix v).lnk = s.lnk := by unfold Dev.msix; repeat' first | rfl | simp | split
@[simp] theorem Dev.msix_kst (v : Nat) : (s.msix v).kst = s.kst := by unfold Dev.msix; repeat' first | rfl | simp | split
@[simp] theorem Dev.msix_upd (v : Nat) : (s.msix v).upd = s.upd := by unfold Dev.msix; repeat' first | rfl | simp | split
@[simp] theorem Dev.msix_fbk (v : Nat) : (s.msix v).fbk = s.fbk := by unfold Dev.msix; repeat' first | rfl | simp | split
@[simp] theorem Dev.msix_sys (v : Nat) : (s.msix v).sys = s.sys := by unfold Dev.msix; repeat' first | rfl | simp | split
@[simp] theorem Dev.msix_freeCtr (v : Nat) : (s.msix v).freeCtr = s.freeCtr := by unfold Dev.msix; repeat' first | rfl | simp | split

/-! ### event -/

@[simp] theorem Dev.event_cfg (n : Nat) : (s.event n).cfg = s.cfg := by
  unfold Dev.event
  extract_lets
  refine (Dev.when_same (·.cfg) (Dev.msix_cfg _ _)).trans ?_
  exact Dev.when_same (·.cfg) rfl
@[simp] theorem Dev.event_cfgNext (n : Nat) : (s.event n).cfgNext = s.cfgNext := by
  unfold Dev.event
  extract_lets
  refine (Dev.when_same (·.cfgNext) (Dev.msix_cfgNext _ _)).trans ?_
  exact Dev.when_same (·.cfgNext) rfl
@[simp] theorem Dev.event_ctr (n : Nat) : (s.event n).ctr = s.ctr := by
  unfold Dev.event
  extract_lets
  refine (Dev.when_same (·.ctr) (Dev.msix_ctr _ _)).trans ?_
  exact Dev.when_same (·.ctr) rfl
@[simp] theorem Dev.event_tck (n : Nat) : (s.event n).tck = s.tck := by
  unfold Dev.event
  extract_lets
  refine (Dev.when_same (·.tck) (Dev.msix_tck _ _)).trans ?_
  exact Dev.when_same (·.tck) rfl
@[simp] theorem Dev.event_tasks (n : Nat) : (s.event n).tasks = s.tasks := by
  unfold Dev.event
  extract_lets
  refine (Dev.when_same (·.tasks) (Dev.msix_tasks _ _)).trans ?_
  exact Dev.when_same (·.tasks) rfl
@[simp] theorem Dev.event_win (n : Nat) : (s.event n).win = s.win := by
  unfold Dev.event
  extract_lets
  refine (Dev.when_same (·.win) (Dev.msix_win _ _)).trans ?_
  exact Dev.when_same (·.win) rfl
@[simp] theorem Dev.event_qs (n : Nat) : (s.event n).qs = s.qs := by
  unfold Dev.event
  extract_lets
  refine (Dev.when_same (·.qs) (Dev.msix_qs _ _)).trans ?_
  exact Dev.when_same (·.qs) rfl
@[simp] theorem Dev.event_mbx (n : Nat) : (s.event n).mbx = s.mbx := by
  unfold Dev.event
  extract_lets
  refine (Dev.when_same (·.mbx) (Dev.msix_mbx _ _)).trans ?_
  exact Dev.when_same (·.mbx) rfl
@[simp] theorem Dev.event_fields (n : Nat) : (s.event n).fields = s.fields := by
  unfold Dev.event
  extract_lets
  refine (Dev.when_same (·.fields) (Dev.msix_fields _ _)).trans ?_
  exact Dev.when_same (·.fields) rfl
@[simp] theorem Dev.event_mpt (n : Nat) : (s.event n).mpt = s.mpt := by
  unfold Dev.event
  extract_lets
  refine (Dev.when_same (·.mpt) (Dev.msix_mpt _ _)).trans ?_
  exact Dev.when_same (·.mpt) rfl
@[simp] theorem Dev.event_cache (n : Nat) : (s.event n).cache = s.cache := by
  unfold Dev.event
  extract_lets
  refine (Dev.when_same (·.cache) (Dev.msix_cache _ _)).trans ?_
  exact Dev.when_same (·.cache) rfl
@[simp] theorem Dev.event_mor (n : Nat) : (s.event n).mor = s.mor := by
  unfold Dev.event
  extract_lets
  refine (Dev.when_same (·.mor) (Dev.msix_mor _ _)).trans ?_
  exact Dev.when_same (·.mor) rfl
@[simp] theorem Dev.event_mst (n : Nat) : (s.event n).mst = s.mst := by
  unfold Dev.event
  extract_lets
  refine (Dev.when_same (·.mst) (Dev.msix_mst _ _)).trans ?_
  exact Dev.when_same (·.mst) rfl
@[simp] theorem Dev.event_hod (n : Nat) : (s.event n).hod = s.hod := by
  unfold Dev.event
  extract_lets
  refine (Dev.when_same (·.hod) (Dev.msix_hod _ _)).trans ?_
  exact Dev.when_same (·.hod) rfl
@[simp] theorem Dev.event_drm (n : Nat) : (s.event n).drm = s.drm := by
  unfold Dev.event
  extract_lets
  refine (Dev.when_same (·.drm) (Dev.msix_drm _ _)).trans ?_
  exact Dev.when_same (·.drm) rfl
@[simp] theorem Dev.event_vlt (n : Nat) : (s.event n).vlt = s.vlt := by
  unfold Dev.event
  extract_lets
  refine (Dev.when_same (·.vlt) (Dev.msix_vlt _ _)).trans ?_
  exact Dev.when_same (·.vlt) rfl
@[simp] theorem Dev.event_twn (n : Nat) : (s.event n).twn = s.twn := by
  unfold Dev.event
  extract_lets
  refine (Dev.when_same (·.twn) (Dev.msix_twn _ _)).trans ?_
  exact Dev.when_same (·.twn) rfl
@[simp] theorem Dev.event_lnk (n : Nat) : (s.event n).lnk = s.lnk := by
  unfold Dev.event
  extract_lets
  refine (Dev.when_same (·.lnk) (Dev.msix_lnk _ _)).trans ?_
  exact Dev.when_same (·.lnk) rfl
@[simp] theorem Dev.event_kst (n : Nat) : (s.event n).kst = s.kst := by
  unfold Dev.event
  extract_lets
  refine (Dev.when_same (·.kst) (Dev.msix_kst _ _)).trans ?_
  exact Dev.when_same (·.kst) rfl
@[simp] theorem Dev.event_upd (n : Nat) : (s.event n).upd = s.upd := by
  unfold Dev.event
  extract_lets
  refine (Dev.when_same (·.upd) (Dev.msix_upd _ _)).trans ?_
  exact Dev.when_same (·.upd) rfl
@[simp] theorem Dev.event_fbk (n : Nat) : (s.event n).fbk = s.fbk := by
  unfold Dev.event
  extract_lets
  refine (Dev.when_same (·.fbk) (Dev.msix_fbk _ _)).trans ?_
  exact Dev.when_same (·.fbk) rfl
@[simp] theorem Dev.event_sys (n : Nat) : (s.event n).sys = s.sys := by
  unfold Dev.event
  extract_lets
  refine (Dev.when_same (·.sys) (Dev.msix_sys _ _)).trans ?_
  exact Dev.when_same (·.sys) rfl
@[simp] theorem Dev.event_freeCtr (n : Nat) : (s.event n).freeCtr = s.freeCtr := by
  unfold Dev.event
  extract_lets
  refine (Dev.when_same (·.freeCtr) (Dev.msix_freeCtr _ _)).trans ?_
  exact Dev.when_same (·.freeCtr) rfl

/-! ### recordEvent -/

@[simp] theorem Dev.recordEvent_cfg (c : Nat) (src : BitVec 16) (a b d n : Nat) : (s.recordEvent c src a b d n).cfg = s.cfg := by unfold Dev.recordEvent; simp
@[simp] theorem Dev.recordEvent_cfgNext (c : Nat) (src : BitVec 16) (a b d n : Nat) : (s.recordEvent c src a b d n).cfgNext = s.cfgNext := by unfold Dev.recordEvent; simp
@[simp] theorem Dev.recordEvent_tck (c : Nat) (src : BitVec 16) (a b d n : Nat) : (s.recordEvent c src a b d n).tck = s.tck := by unfold Dev.recordEvent; simp
@[simp] theorem Dev.recordEvent_tasks (c : Nat) (src : BitVec 16) (a b d n : Nat) : (s.recordEvent c src a b d n).tasks = s.tasks := by unfold Dev.recordEvent; simp
@[simp] theorem Dev.recordEvent_win (c : Nat) (src : BitVec 16) (a b d n : Nat) : (s.recordEvent c src a b d n).win = s.win := by unfold Dev.recordEvent; simp
@[simp] theorem Dev.recordEvent_qs (c : Nat) (src : BitVec 16) (a b d n : Nat) : (s.recordEvent c src a b d n).qs = s.qs := by unfold Dev.recordEvent; simp
@[simp] theorem Dev.recordEvent_mbx (c : Nat) (src : BitVec 16) (a b d n : Nat) : (s.recordEvent c src a b d n).mbx = s.mbx := by unfold Dev.recordEvent; simp
@[simp] theorem Dev.recordEvent_fields (c : Nat) (src : BitVec 16) (a b d n : Nat) : (s.recordEvent c src a b d n).fields = s.fields := by unfold Dev.recordEvent; simp
@[simp] theorem Dev.recordEvent_mpt (c : Nat) (src : BitVec 16) (a b d n : Nat) : (s.recordEvent c src a b d n).mpt = s.mpt := by unfold Dev.recordEvent; simp
@[simp] theorem Dev.recordEvent_cache (c : Nat) (src : BitVec 16) (a b d n : Nat) : (s.recordEvent c src a b d n).cache = s.cache := by unfold Dev.recordEvent; simp
@[simp] theorem Dev.recordEvent_mor (c : Nat) (src : BitVec 16) (a b d n : Nat) : (s.recordEvent c src a b d n).mor = s.mor := by unfold Dev.recordEvent; simp
@[simp] theorem Dev.recordEvent_mst (c : Nat) (src : BitVec 16) (a b d n : Nat) : (s.recordEvent c src a b d n).mst = s.mst := by unfold Dev.recordEvent; simp
@[simp] theorem Dev.recordEvent_hod (c : Nat) (src : BitVec 16) (a b d n : Nat) : (s.recordEvent c src a b d n).hod = s.hod := by unfold Dev.recordEvent; simp
@[simp] theorem Dev.recordEvent_drm (c : Nat) (src : BitVec 16) (a b d n : Nat) : (s.recordEvent c src a b d n).drm = s.drm := by unfold Dev.recordEvent; simp
@[simp] theorem Dev.recordEvent_vlt (c : Nat) (src : BitVec 16) (a b d n : Nat) : (s.recordEvent c src a b d n).vlt = s.vlt := by unfold Dev.recordEvent; simp
@[simp] theorem Dev.recordEvent_twn (c : Nat) (src : BitVec 16) (a b d n : Nat) : (s.recordEvent c src a b d n).twn = s.twn := by unfold Dev.recordEvent; simp
@[simp] theorem Dev.recordEvent_lnk (c : Nat) (src : BitVec 16) (a b d n : Nat) : (s.recordEvent c src a b d n).lnk = s.lnk := by unfold Dev.recordEvent; simp
@[simp] theorem Dev.recordEvent_kst (c : Nat) (src : BitVec 16) (a b d n : Nat) : (s.recordEvent c src a b d n).kst = s.kst := by unfold Dev.recordEvent; simp
@[simp] theorem Dev.recordEvent_upd (c : Nat) (src : BitVec 16) (a b d n : Nat) : (s.recordEvent c src a b d n).upd = s.upd := by unfold Dev.recordEvent; simp
@[simp] theorem Dev.recordEvent_sys (c : Nat) (src : BitVec 16) (a b d n : Nat) : (s.recordEvent c src a b d n).sys = s.sys := by unfold Dev.recordEvent; simp
@[simp] theorem Dev.recordEvent_freeCtr (c : Nat) (src : BitVec 16) (a b d n : Nat) : (s.recordEvent c src a b d n).freeCtr = s.freeCtr := by unfold Dev.recordEvent; simp

/-! ### recordKstEvent -/

@[simp] theorem Dev.recordKstEvent_cfg (c a b n : Nat) : (s.recordKstEvent c a b n).cfg = s.cfg := by unfold Dev.recordKstEvent; simp
@[simp] theorem Dev.recordKstEvent_cfgNext (c a b n : Nat) : (s.recordKstEvent c a b n).cfgNext = s.cfgNext := by unfold Dev.recordKstEvent; simp
@[simp] theorem Dev.recordKstEvent_tck (c a b n : Nat) : (s.recordKstEvent c a b n).tck = s.tck := by unfold Dev.recordKstEvent; simp
@[simp] theorem Dev.recordKstEvent_tasks (c a b n : Nat) : (s.recordKstEvent c a b n).tasks = s.tasks := by unfold Dev.recordKstEvent; simp
@[simp] theorem Dev.recordKstEvent_win (c a b n : Nat) : (s.recordKstEvent c a b n).win = s.win := by unfold Dev.recordKstEvent; simp
@[simp] theorem Dev.recordKstEvent_qs (c a b n : Nat) : (s.recordKstEvent c a b n).qs = s.qs := by unfold Dev.recordKstEvent; simp
@[simp] theorem Dev.recordKstEvent_mbx (c a b n : Nat) : (s.recordKstEvent c a b n).mbx = s.mbx := by unfold Dev.recordKstEvent; simp
@[simp] theorem Dev.recordKstEvent_fields (c a b n : Nat) : (s.recordKstEvent c a b n).fields = s.fields := by unfold Dev.recordKstEvent; simp
@[simp] theorem Dev.recordKstEvent_mpt (c a b n : Nat) : (s.recordKstEvent c a b n).mpt = s.mpt := by unfold Dev.recordKstEvent; simp
@[simp] theorem Dev.recordKstEvent_cache (c a b n : Nat) : (s.recordKstEvent c a b n).cache = s.cache := by unfold Dev.recordKstEvent; simp
@[simp] theorem Dev.recordKstEvent_mor (c a b n : Nat) : (s.recordKstEvent c a b n).mor = s.mor := by unfold Dev.recordKstEvent; simp
@[simp] theorem Dev.recordKstEvent_mst (c a b n : Nat) : (s.recordKstEvent c a b n).mst = s.mst := by unfold Dev.recordKstEvent; simp
@[simp] theorem Dev.recordKstEvent_hod (c a b n : Nat) : (s.recordKstEvent c a b n).hod = s.hod := by unfold Dev.recordKstEvent; simp
@[simp] theorem Dev.recordKstEvent_drm (c a b n : Nat) : (s.recordKstEvent c a b n).drm = s.drm := by unfold Dev.recordKstEvent; simp
@[simp] theorem Dev.recordKstEvent_vlt (c a b n : Nat) : (s.recordKstEvent c a b n).vlt = s.vlt := by unfold Dev.recordKstEvent; simp
@[simp] theorem Dev.recordKstEvent_twn (c a b n : Nat) : (s.recordKstEvent c a b n).twn = s.twn := by unfold Dev.recordKstEvent; simp
@[simp] theorem Dev.recordKstEvent_lnk (c a b n : Nat) : (s.recordKstEvent c a b n).lnk = s.lnk := by unfold Dev.recordKstEvent; simp
@[simp] theorem Dev.recordKstEvent_upd (c a b n : Nat) : (s.recordKstEvent c a b n).upd = s.upd := by unfold Dev.recordKstEvent; simp
@[simp] theorem Dev.recordKstEvent_sys (c a b n : Nat) : (s.recordKstEvent c a b n).sys = s.sys := by unfold Dev.recordKstEvent; simp
@[simp] theorem Dev.recordKstEvent_freeCtr (c a b n : Nat) : (s.recordKstEvent c a b n).freeCtr = s.freeCtr := by unfold Dev.recordKstEvent; simp

/-! ### setRun -/

@[simp] theorem Dev.setRun_cfg (p : MbxPath) (r : Option MbxRun) : (s.setRun p r).cfg = s.cfg := by cases p <;> rfl
@[simp] theorem Dev.setRun_cfgNext (p : MbxPath) (r : Option MbxRun) : (s.setRun p r).cfgNext = s.cfgNext := by cases p <;> rfl
@[simp] theorem Dev.setRun_ctr (p : MbxPath) (r : Option MbxRun) : (s.setRun p r).ctr = s.ctr := by cases p <;> rfl
@[simp] theorem Dev.setRun_tck (p : MbxPath) (r : Option MbxRun) : (s.setRun p r).tck = s.tck := by cases p <;> rfl
@[simp] theorem Dev.setRun_tasks (p : MbxPath) (r : Option MbxRun) : (s.setRun p r).tasks = s.tasks := by cases p <;> rfl
@[simp] theorem Dev.setRun_hif (p : MbxPath) (r : Option MbxRun) : (s.setRun p r).hif = s.hif := by cases p <;> rfl
@[simp] theorem Dev.setRun_win (p : MbxPath) (r : Option MbxRun) : (s.setRun p r).win = s.win := by cases p <;> rfl
@[simp] theorem Dev.setRun_qs (p : MbxPath) (r : Option MbxRun) : (s.setRun p r).qs = s.qs := by cases p <;> rfl
@[simp] theorem Dev.setRun_fields (p : MbxPath) (r : Option MbxRun) : (s.setRun p r).fields = s.fields := by cases p <;> rfl
@[simp] theorem Dev.setRun_mpt (p : MbxPath) (r : Option MbxRun) : (s.setRun p r).mpt = s.mpt := by cases p <;> rfl
@[simp] theorem Dev.setRun_cache (p : MbxPath) (r : Option MbxRun) : (s.setRun p r).cache = s.cache := by cases p <;> rfl
@[simp] theorem Dev.setRun_mor (p : MbxPath) (r : Option MbxRun) : (s.setRun p r).mor = s.mor := by cases p <;> rfl
@[simp] theorem Dev.setRun_mst (p : MbxPath) (r : Option MbxRun) : (s.setRun p r).mst = s.mst := by cases p <;> rfl
@[simp] theorem Dev.setRun_hod (p : MbxPath) (r : Option MbxRun) : (s.setRun p r).hod = s.hod := by cases p <;> rfl
@[simp] theorem Dev.setRun_drm (p : MbxPath) (r : Option MbxRun) : (s.setRun p r).drm = s.drm := by cases p <;> rfl
@[simp] theorem Dev.setRun_vlt (p : MbxPath) (r : Option MbxRun) : (s.setRun p r).vlt = s.vlt := by cases p <;> rfl
@[simp] theorem Dev.setRun_twn (p : MbxPath) (r : Option MbxRun) : (s.setRun p r).twn = s.twn := by cases p <;> rfl
@[simp] theorem Dev.setRun_lnk (p : MbxPath) (r : Option MbxRun) : (s.setRun p r).lnk = s.lnk := by cases p <;> rfl
@[simp] theorem Dev.setRun_kst (p : MbxPath) (r : Option MbxRun) : (s.setRun p r).kst = s.kst := by cases p <;> rfl
@[simp] theorem Dev.setRun_upd (p : MbxPath) (r : Option MbxRun) : (s.setRun p r).upd = s.upd := by cases p <;> rfl
@[simp] theorem Dev.setRun_fbk (p : MbxPath) (r : Option MbxRun) : (s.setRun p r).fbk = s.fbk := by cases p <;> rfl
@[simp] theorem Dev.setRun_sys (p : MbxPath) (r : Option MbxRun) : (s.setRun p r).sys = s.sys := by cases p <;> rfl
@[simp] theorem Dev.setRun_freeCtr (p : MbxPath) (r : Option MbxRun) : (s.setRun p r).freeCtr = s.freeCtr := by cases p <;> rfl
@[simp] theorem Dev.setRun_out (p : MbxPath) (r : Option MbxRun) : (s.setRun p r).out = s.out := by cases p <;> rfl

/-! ### mbxWait -/

@[simp] theorem Dev.mbxWait_cfg (p : MbxPath) (w : MbxWait) : (s.mbxWait p w).cfg = s.cfg := by unfold Dev.mbxWait; split <;> simp
@[simp] theorem Dev.mbxWait_cfgNext (p : MbxPath) (w : MbxWait) : (s.mbxWait p w).cfgNext = s.cfgNext := by unfold Dev.mbxWait; split <;> simp
@[simp] theorem Dev.mbxWait_ctr (p : MbxPath) (w : MbxWait) : (s.mbxWait p w).ctr = s.ctr := by unfold Dev.mbxWait; split <;> simp
@[simp] theorem Dev.mbxWait_tck (p : MbxPath) (w : MbxWait) : (s.mbxWait p w).tck = s.tck := by unfold Dev.mbxWait; split <;> simp
@[simp] theorem Dev.mbxWait_tasks (p : MbxPath) (w : MbxWait) : (s.mbxWait p w).tasks = s.tasks := by unfold Dev.mbxWait; split <;> simp
@[simp] theorem Dev.mbxWait_hif (p : MbxPath) (w : MbxWait) : (s.mbxWait p w).hif = s.hif := by unfold Dev.mbxWait; split <;> simp
@[simp] theorem Dev.mbxWait_win (p : MbxPath) (w : MbxWait) : (s.mbxWait p w).win = s.win := by unfold Dev.mbxWait; split <;> simp
@[simp] theorem Dev.mbxWait_qs (p : MbxPath) (w : MbxWait) : (s.mbxWait p w).qs = s.qs := by unfold Dev.mbxWait; split <;> simp
@[simp] theorem Dev.mbxWait_fields (p : MbxPath) (w : MbxWait) : (s.mbxWait p w).fields = s.fields := by unfold Dev.mbxWait; split <;> simp
@[simp] theorem Dev.mbxWait_mpt (p : MbxPath) (w : MbxWait) : (s.mbxWait p w).mpt = s.mpt := by unfold Dev.mbxWait; split <;> simp
@[simp] theorem Dev.mbxWait_cache (p : MbxPath) (w : MbxWait) : (s.mbxWait p w).cache = s.cache := by unfold Dev.mbxWait; split <;> simp
@[simp] theorem Dev.mbxWait_mor (p : MbxPath) (w : MbxWait) : (s.mbxWait p w).mor = s.mor := by unfold Dev.mbxWait; split <;> simp
@[simp] theorem Dev.mbxWait_mst (p : MbxPath) (w : MbxWait) : (s.mbxWait p w).mst = s.mst := by unfold Dev.mbxWait; split <;> simp
@[simp] theorem Dev.mbxWait_hod (p : MbxPath) (w : MbxWait) : (s.mbxWait p w).hod = s.hod := by unfold Dev.mbxWait; split <;> simp
@[simp] theorem Dev.mbxWait_drm (p : MbxPath) (w : MbxWait) : (s.mbxWait p w).drm = s.drm := by unfold Dev.mbxWait; split <;> simp
@[simp] theorem Dev.mbxWait_vlt (p : MbxPath) (w : MbxWait) : (s.mbxWait p w).vlt = s.vlt := by unfold Dev.mbxWait; split <;> simp
@[simp] theorem Dev.mbxWait_twn (p : MbxPath) (w : MbxWait) : (s.mbxWait p w).twn = s.twn := by unfold Dev.mbxWait; split <;> simp
@[simp] theorem Dev.mbxWait_lnk (p : MbxPath) (w : MbxWait) : (s.mbxWait p w).lnk = s.lnk := by unfold Dev.mbxWait; split <;> simp
@[simp] theorem Dev.mbxWait_kst (p : MbxPath) (w : MbxWait) : (s.mbxWait p w).kst = s.kst := by unfold Dev.mbxWait; split <;> simp
@[simp] theorem Dev.mbxWait_upd (p : MbxPath) (w : MbxWait) : (s.mbxWait p w).upd = s.upd := by unfold Dev.mbxWait; split <;> simp
@[simp] theorem Dev.mbxWait_fbk (p : MbxPath) (w : MbxWait) : (s.mbxWait p w).fbk = s.fbk := by unfold Dev.mbxWait; split <;> simp
@[simp] theorem Dev.mbxWait_sys (p : MbxPath) (w : MbxWait) : (s.mbxWait p w).sys = s.sys := by unfold Dev.mbxWait; split <;> simp
@[simp] theorem Dev.mbxWait_freeCtr (p : MbxPath) (w : MbxWait) : (s.mbxWait p w).freeCtr = s.freeCtr := by unfold Dev.mbxWait; split <;> simp
@[simp] theorem Dev.mbxWait_out (p : MbxPath) (w : MbxWait) : (s.mbxWait p w).out = s.out := by unfold Dev.mbxWait; split <;> simp

/-! ### mbxDone -/

@[simp] theorem Dev.mbxDone_cfg (p : MbxPath) (st : Nat) (l : List Byte) : (s.mbxDone p st l).cfg = s.cfg := by
  unfold Dev.mbxDone
  split
  · rfl
  · rename_i r _
    extract_lets a b c
    have ha : a.cfg = s.cfg := by simp [a]
    have hb : b.cfg = s.cfg := (Dev.when_same (·.cfg) (Dev.record_cfg _ _ _ _ _ _)).trans ha
    split
    · split
      · exact hb
      · exact (Dev.when_same (·.cfg) (Dev.msix_cfg _ _)).trans hb
    · exact (Dev.when_same (·.cfg) (Dev.event_cfg _ _)).trans hb
@[simp] theorem Dev.mbxDone_cfgNext (p : MbxPath) (st : Nat) (l : List Byte) : (s.mbxDone p st l).cfgNext = s.cfgNext := by
  unfold Dev.mbxDone
  split
  · rfl
  · rename_i r _
    extract_lets a b c
    have ha : a.cfgNext = s.cfgNext := by simp [a]
    have hb : b.cfgNext = s.cfgNext := (Dev.when_same (·.cfgNext) (Dev.record_cfgNext _ _ _ _ _ _)).trans ha
    split
    · split
      · exact hb
      · exact (Dev.when_same (·.cfgNext) (Dev.msix_cfgNext _ _)).trans hb
    · exact (Dev.when_same (·.cfgNext) (Dev.event_cfgNext _ _)).trans hb
@[simp] theorem Dev.mbxDone_tck (p : MbxPath) (st : Nat) (l : List Byte) : (s.mbxDone p st l).tck = s.tck := by
  unfold Dev.mbxDone
  split
  · rfl
  · rename_i r _
    extract_lets a b c
    have ha : a.tck = s.tck := by simp [a]
    have hb : b.tck = s.tck := (Dev.when_same (·.tck) (Dev.record_tck _ _ _ _ _ _)).trans ha
    split
    · split
      · exact hb
      · exact (Dev.when_same (·.tck) (Dev.msix_tck _ _)).trans hb
    · exact (Dev.when_same (·.tck) (Dev.event_tck _ _)).trans hb
@[simp] theorem Dev.mbxDone_tasks (p : MbxPath) (st : Nat) (l : List Byte) : (s.mbxDone p st l).tasks = s.tasks := by
  unfold Dev.mbxDone
  split
  · rfl
  · rename_i r _
    extract_lets a b c
    have ha : a.tasks = s.tasks := by simp [a]
    have hb : b.tasks = s.tasks := (Dev.when_same (·.tasks) (Dev.record_tasks _ _ _ _ _ _)).trans ha
    split
    · split
      · exact hb
      · exact (Dev.when_same (·.tasks) (Dev.msix_tasks _ _)).trans hb
    · exact (Dev.when_same (·.tasks) (Dev.event_tasks _ _)).trans hb
@[simp] theorem Dev.mbxDone_win (p : MbxPath) (st : Nat) (l : List Byte) : (s.mbxDone p st l).win = s.win := by
  unfold Dev.mbxDone
  split
  · rfl
  · rename_i r _
    extract_lets a b c
    have ha : a.win = s.win := by simp [a]
    have hb : b.win = s.win := (Dev.when_same (·.win) (Dev.record_win _ _ _ _ _ _)).trans ha
    split
    · split
      · exact hb
      · exact (Dev.when_same (·.win) (Dev.msix_win _ _)).trans hb
    · exact (Dev.when_same (·.win) (Dev.event_win _ _)).trans hb
@[simp] theorem Dev.mbxDone_qs (p : MbxPath) (st : Nat) (l : List Byte) : (s.mbxDone p st l).qs = s.qs := by
  unfold Dev.mbxDone
  split
  · rfl
  · rename_i r _
    extract_lets a b c
    have ha : a.qs = s.qs := by simp [a]
    have hb : b.qs = s.qs := (Dev.when_same (·.qs) (Dev.record_qs _ _ _ _ _ _)).trans ha
    split
    · split
      · exact hb
      · exact (Dev.when_same (·.qs) (Dev.msix_qs _ _)).trans hb
    · exact (Dev.when_same (·.qs) (Dev.event_qs _ _)).trans hb
@[simp] theorem Dev.mbxDone_fields (p : MbxPath) (st : Nat) (l : List Byte) : (s.mbxDone p st l).fields = s.fields := by
  unfold Dev.mbxDone
  split
  · rfl
  · rename_i r _
    extract_lets a b c
    have ha : a.fields = s.fields := by simp [a]
    have hb : b.fields = s.fields := (Dev.when_same (·.fields) (Dev.record_fields _ _ _ _ _ _)).trans ha
    split
    · split
      · exact hb
      · exact (Dev.when_same (·.fields) (Dev.msix_fields _ _)).trans hb
    · exact (Dev.when_same (·.fields) (Dev.event_fields _ _)).trans hb
@[simp] theorem Dev.mbxDone_mpt (p : MbxPath) (st : Nat) (l : List Byte) : (s.mbxDone p st l).mpt = s.mpt := by
  unfold Dev.mbxDone
  split
  · rfl
  · rename_i r _
    extract_lets a b c
    have ha : a.mpt = s.mpt := by simp [a]
    have hb : b.mpt = s.mpt := (Dev.when_same (·.mpt) (Dev.record_mpt _ _ _ _ _ _)).trans ha
    split
    · split
      · exact hb
      · exact (Dev.when_same (·.mpt) (Dev.msix_mpt _ _)).trans hb
    · exact (Dev.when_same (·.mpt) (Dev.event_mpt _ _)).trans hb
@[simp] theorem Dev.mbxDone_cache (p : MbxPath) (st : Nat) (l : List Byte) : (s.mbxDone p st l).cache = s.cache := by
  unfold Dev.mbxDone
  split
  · rfl
  · rename_i r _
    extract_lets a b c
    have ha : a.cache = s.cache := by simp [a]
    have hb : b.cache = s.cache := (Dev.when_same (·.cache) (Dev.record_cache _ _ _ _ _ _)).trans ha
    split
    · split
      · exact hb
      · exact (Dev.when_same (·.cache) (Dev.msix_cache _ _)).trans hb
    · exact (Dev.when_same (·.cache) (Dev.event_cache _ _)).trans hb
@[simp] theorem Dev.mbxDone_mor (p : MbxPath) (st : Nat) (l : List Byte) : (s.mbxDone p st l).mor = s.mor := by
  unfold Dev.mbxDone
  split
  · rfl
  · rename_i r _
    extract_lets a b c
    have ha : a.mor = s.mor := by simp [a]
    have hb : b.mor = s.mor := (Dev.when_same (·.mor) (Dev.record_mor _ _ _ _ _ _)).trans ha
    split
    · split
      · exact hb
      · exact (Dev.when_same (·.mor) (Dev.msix_mor _ _)).trans hb
    · exact (Dev.when_same (·.mor) (Dev.event_mor _ _)).trans hb
@[simp] theorem Dev.mbxDone_mst (p : MbxPath) (st : Nat) (l : List Byte) : (s.mbxDone p st l).mst = s.mst := by
  unfold Dev.mbxDone
  split
  · rfl
  · rename_i r _
    extract_lets a b c
    have ha : a.mst = s.mst := by simp [a]
    have hb : b.mst = s.mst := (Dev.when_same (·.mst) (Dev.record_mst _ _ _ _ _ _)).trans ha
    split
    · split
      · exact hb
      · exact (Dev.when_same (·.mst) (Dev.msix_mst _ _)).trans hb
    · exact (Dev.when_same (·.mst) (Dev.event_mst _ _)).trans hb
@[simp] theorem Dev.mbxDone_hod (p : MbxPath) (st : Nat) (l : List Byte) : (s.mbxDone p st l).hod = s.hod := by
  unfold Dev.mbxDone
  split
  · rfl
  · rename_i r _
    extract_lets a b c
    have ha : a.hod = s.hod := by simp [a]
    have hb : b.hod = s.hod := (Dev.when_same (·.hod) (Dev.record_hod _ _ _ _ _ _)).trans ha
    split
    · split
      · exact hb
      · exact (Dev.when_same (·.hod) (Dev.msix_hod _ _)).trans hb
    · exact (Dev.when_same (·.hod) (Dev.event_hod _ _)).trans hb
@[simp] theorem Dev.mbxDone_drm (p : MbxPath) (st : Nat) (l : List Byte) : (s.mbxDone p st l).drm = s.drm := by
  unfold Dev.mbxDone
  split
  · rfl
  · rename_i r _
    extract_lets a b c
    have ha : a.drm = s.drm := by simp [a]
    have hb : b.drm = s.drm := (Dev.when_same (·.drm) (Dev.record_drm _ _ _ _ _ _)).trans ha
    split
    · split
      · exact hb
      · exact (Dev.when_same (·.drm) (Dev.msix_drm _ _)).trans hb
    · exact (Dev.when_same (·.drm) (Dev.event_drm _ _)).trans hb
@[simp] theorem Dev.mbxDone_vlt (p : MbxPath) (st : Nat) (l : List Byte) : (s.mbxDone p st l).vlt = s.vlt := by
  unfold Dev.mbxDone
  split
  · rfl
  · rename_i r _
    extract_lets a b c
    have ha : a.vlt = s.vlt := by simp [a]
    have hb : b.vlt = s.vlt := (Dev.when_same (·.vlt) (Dev.record_vlt _ _ _ _ _ _)).trans ha
    split
    · split
      · exact hb
      · exact (Dev.when_same (·.vlt) (Dev.msix_vlt _ _)).trans hb
    · exact (Dev.when_same (·.vlt) (Dev.event_vlt _ _)).trans hb
@[simp] theorem Dev.mbxDone_twn (p : MbxPath) (st : Nat) (l : List Byte) : (s.mbxDone p st l).twn = s.twn := by
  unfold Dev.mbxDone
  split
  · rfl
  · rename_i r _
    extract_lets a b c
    have ha : a.twn = s.twn := by simp [a]
    have hb : b.twn = s.twn := (Dev.when_same (·.twn) (Dev.record_twn _ _ _ _ _ _)).trans ha
    split
    · split
      · exact hb
      · exact (Dev.when_same (·.twn) (Dev.msix_twn _ _)).trans hb
    · exact (Dev.when_same (·.twn) (Dev.event_twn _ _)).trans hb
@[simp] theorem Dev.mbxDone_lnk (p : MbxPath) (st : Nat) (l : List Byte) : (s.mbxDone p st l).lnk = s.lnk := by
  unfold Dev.mbxDone
  split
  · rfl
  · rename_i r _
    extract_lets a b c
    have ha : a.lnk = s.lnk := by simp [a]
    have hb : b.lnk = s.lnk := (Dev.when_same (·.lnk) (Dev.record_lnk _ _ _ _ _ _)).trans ha
    split
    · split
      · exact hb
      · exact (Dev.when_same (·.lnk) (Dev.msix_lnk _ _)).trans hb
    · exact (Dev.when_same (·.lnk) (Dev.event_lnk _ _)).trans hb
@[simp] theorem Dev.mbxDone_kst (p : MbxPath) (st : Nat) (l : List Byte) : (s.mbxDone p st l).kst = s.kst := by
  unfold Dev.mbxDone
  split
  · rfl
  · rename_i r _
    extract_lets a b c
    have ha : a.kst = s.kst := by simp [a]
    have hb : b.kst = s.kst := (Dev.when_same (·.kst) (Dev.record_kst _ _ _ _ _ _)).trans ha
    split
    · split
      · exact hb
      · exact (Dev.when_same (·.kst) (Dev.msix_kst _ _)).trans hb
    · exact (Dev.when_same (·.kst) (Dev.event_kst _ _)).trans hb
@[simp] theorem Dev.mbxDone_upd (p : MbxPath) (st : Nat) (l : List Byte) : (s.mbxDone p st l).upd = s.upd := by
  unfold Dev.mbxDone
  split
  · rfl
  · rename_i r _
    extract_lets a b c
    have ha : a.upd = s.upd := by simp [a]
    have hb : b.upd = s.upd := (Dev.when_same (·.upd) (Dev.record_upd _ _ _ _ _ _)).trans ha
    split
    · split
      · exact hb
      · exact (Dev.when_same (·.upd) (Dev.msix_upd _ _)).trans hb
    · exact (Dev.when_same (·.upd) (Dev.event_upd _ _)).trans hb
@[simp] theorem Dev.mbxDone_sys (p : MbxPath) (st : Nat) (l : List Byte) : (s.mbxDone p st l).sys = s.sys := by
  unfold Dev.mbxDone
  split
  · rfl
  · rename_i r _
    extract_lets a b c
    have ha : a.sys = s.sys := by simp [a]
    have hb : b.sys = s.sys := (Dev.when_same (·.sys) (Dev.record_sys _ _ _ _ _ _)).trans ha
    split
    · split
      · exact hb
      · exact (Dev.when_same (·.sys) (Dev.msix_sys _ _)).trans hb
    · exact (Dev.when_same (·.sys) (Dev.event_sys _ _)).trans hb
@[simp] theorem Dev.mbxDone_freeCtr (p : MbxPath) (st : Nat) (l : List Byte) : (s.mbxDone p st l).freeCtr = s.freeCtr := by
  unfold Dev.mbxDone
  split
  · rfl
  · rename_i r _
    extract_lets a b c
    have ha : a.freeCtr = s.freeCtr := by simp [a]
    have hb : b.freeCtr = s.freeCtr := (Dev.when_same (·.freeCtr) (Dev.record_freeCtr _ _ _ _ _ _)).trans ha
    split
    · split
      · exact hb
      · exact (Dev.when_same (·.freeCtr) (Dev.msix_freeCtr _ _)).trans hb
    · exact (Dev.when_same (·.freeCtr) (Dev.event_freeCtr _ _)).trans hb

/-! ### mbxOk -/

@[simp] theorem Dev.mbxOk_cfg (p : MbxPath) : (s.mbxOk p).cfg = s.cfg := s.mbxDone_cfg p mbOk []
@[simp] theorem Dev.mbxOk_cfgNext (p : MbxPath) : (s.mbxOk p).cfgNext = s.cfgNext := s.mbxDone_cfgNext p mbOk []
@[simp] theorem Dev.mbxOk_tck (p : MbxPath) : (s.mbxOk p).tck = s.tck := s.mbxDone_tck p mbOk []
@[simp] theorem Dev.mbxOk_tasks (p : MbxPath) : (s.mbxOk p).tasks = s.tasks := s.mbxDone_tasks p mbOk []
@[simp] theorem Dev.mbxOk_win (p : MbxPath) : (s.mbxOk p).win = s.win := s.mbxDone_win p mbOk []
@[simp] theorem Dev.mbxOk_qs (p : MbxPath) : (s.mbxOk p).qs = s.qs := s.mbxDone_qs p mbOk []
@[simp] theorem Dev.mbxOk_fields (p : MbxPath) : (s.mbxOk p).fields = s.fields := s.mbxDone_fields p mbOk []
@[simp] theorem Dev.mbxOk_mpt (p : MbxPath) : (s.mbxOk p).mpt = s.mpt := s.mbxDone_mpt p mbOk []
@[simp] theorem Dev.mbxOk_cache (p : MbxPath) : (s.mbxOk p).cache = s.cache := s.mbxDone_cache p mbOk []
@[simp] theorem Dev.mbxOk_mor (p : MbxPath) : (s.mbxOk p).mor = s.mor := s.mbxDone_mor p mbOk []
@[simp] theorem Dev.mbxOk_mst (p : MbxPath) : (s.mbxOk p).mst = s.mst := s.mbxDone_mst p mbOk []
@[simp] theorem Dev.mbxOk_hod (p : MbxPath) : (s.mbxOk p).hod = s.hod := s.mbxDone_hod p mbOk []
@[simp] theorem Dev.mbxOk_drm (p : MbxPath) : (s.mbxOk p).drm = s.drm := s.mbxDone_drm p mbOk []
@[simp] theorem Dev.mbxOk_vlt (p : MbxPath) : (s.mbxOk p).vlt = s.vlt := s.mbxDone_vlt p mbOk []
@[simp] theorem Dev.mbxOk_twn (p : MbxPath) : (s.mbxOk p).twn = s.twn := s.mbxDone_twn p mbOk []
@[simp] theorem Dev.mbxOk_lnk (p : MbxPath) : (s.mbxOk p).lnk = s.lnk := s.mbxDone_lnk p mbOk []
@[simp] theorem Dev.mbxOk_kst (p : MbxPath) : (s.mbxOk p).kst = s.kst := s.mbxDone_kst p mbOk []
@[simp] theorem Dev.mbxOk_upd (p : MbxPath) : (s.mbxOk p).upd = s.upd := s.mbxDone_upd p mbOk []
@[simp] theorem Dev.mbxOk_sys (p : MbxPath) : (s.mbxOk p).sys = s.sys := s.mbxDone_sys p mbOk []
@[simp] theorem Dev.mbxOk_freeCtr (p : MbxPath) : (s.mbxOk p).freeCtr = s.freeCtr := s.mbxDone_freeCtr p mbOk []

/-! ### mbxRefuse -/

@[simp] theorem Dev.mbxRefuse_cfg (p : MbxPath) (st d : Nat) : (s.mbxRefuse p st d).cfg = s.cfg := s.mbxDone_cfg p st (bytesLE 4 d)
@[simp] theorem Dev.mbxRefuse_cfgNext (p : MbxPath) (st d : Nat) : (s.mbxRefuse p st d).cfgNext = s.cfgNext := s.mbxDone_cfgNext p st (bytesLE 4 d)
@[simp] theorem Dev.mbxRefuse_tck (p : MbxPath) (st d : Nat) : (s.mbxRefuse p st d).tck = s.tck := s.mbxDone_tck p st (bytesLE 4 d)
@[simp] theorem Dev.mbxRefuse_tasks (p : MbxPath) (st d : Nat) : (s.mbxRefuse p st d).tasks = s.tasks := s.mbxDone_tasks p st (bytesLE 4 d)
@[simp] theorem Dev.mbxRefuse_win (p : MbxPath) (st d : Nat) : (s.mbxRefuse p st d).win = s.win := s.mbxDone_win p st (bytesLE 4 d)
@[simp] theorem Dev.mbxRefuse_qs (p : MbxPath) (st d : Nat) : (s.mbxRefuse p st d).qs = s.qs := s.mbxDone_qs p st (bytesLE 4 d)
@[simp] theorem Dev.mbxRefuse_fields (p : MbxPath) (st d : Nat) : (s.mbxRefuse p st d).fields = s.fields := s.mbxDone_fields p st (bytesLE 4 d)
@[simp] theorem Dev.mbxRefuse_mpt (p : MbxPath) (st d : Nat) : (s.mbxRefuse p st d).mpt = s.mpt := s.mbxDone_mpt p st (bytesLE 4 d)
@[simp] theorem Dev.mbxRefuse_cache (p : MbxPath) (st d : Nat) : (s.mbxRefuse p st d).cache = s.cache := s.mbxDone_cache p st (bytesLE 4 d)
@[simp] theorem Dev.mbxRefuse_mor (p : MbxPath) (st d : Nat) : (s.mbxRefuse p st d).mor = s.mor := s.mbxDone_mor p st (bytesLE 4 d)
@[simp] theorem Dev.mbxRefuse_mst (p : MbxPath) (st d : Nat) : (s.mbxRefuse p st d).mst = s.mst := s.mbxDone_mst p st (bytesLE 4 d)
@[simp] theorem Dev.mbxRefuse_hod (p : MbxPath) (st d : Nat) : (s.mbxRefuse p st d).hod = s.hod := s.mbxDone_hod p st (bytesLE 4 d)
@[simp] theorem Dev.mbxRefuse_drm (p : MbxPath) (st d : Nat) : (s.mbxRefuse p st d).drm = s.drm := s.mbxDone_drm p st (bytesLE 4 d)
@[simp] theorem Dev.mbxRefuse_vlt (p : MbxPath) (st d : Nat) : (s.mbxRefuse p st d).vlt = s.vlt := s.mbxDone_vlt p st (bytesLE 4 d)
@[simp] theorem Dev.mbxRefuse_twn (p : MbxPath) (st d : Nat) : (s.mbxRefuse p st d).twn = s.twn := s.mbxDone_twn p st (bytesLE 4 d)
@[simp] theorem Dev.mbxRefuse_lnk (p : MbxPath) (st d : Nat) : (s.mbxRefuse p st d).lnk = s.lnk := s.mbxDone_lnk p st (bytesLE 4 d)
@[simp] theorem Dev.mbxRefuse_kst (p : MbxPath) (st d : Nat) : (s.mbxRefuse p st d).kst = s.kst := s.mbxDone_kst p st (bytesLE 4 d)
@[simp] theorem Dev.mbxRefuse_upd (p : MbxPath) (st d : Nat) : (s.mbxRefuse p st d).upd = s.upd := s.mbxDone_upd p st (bytesLE 4 d)
@[simp] theorem Dev.mbxRefuse_sys (p : MbxPath) (st d : Nat) : (s.mbxRefuse p st d).sys = s.sys := s.mbxDone_sys p st (bytesLE 4 d)
@[simp] theorem Dev.mbxRefuse_freeCtr (p : MbxPath) (st d : Nat) : (s.mbxRefuse p st d).freeCtr = s.freeCtr := s.mbxDone_freeCtr p st (bytesLE 4 d)

/-! ### mbxOverrun -/

@[simp] theorem Dev.mbxOverrun_cfg (q : BitVec 32) : (s.mbxOverrun q).cfg = s.cfg := by unfold Dev.mbxOverrun; simp
@[simp] theorem Dev.mbxOverrun_cfgNext (q : BitVec 32) : (s.mbxOverrun q).cfgNext = s.cfgNext := by unfold Dev.mbxOverrun; simp
@[simp] theorem Dev.mbxOverrun_tck (q : BitVec 32) : (s.mbxOverrun q).tck = s.tck := by unfold Dev.mbxOverrun; simp
@[simp] theorem Dev.mbxOverrun_tasks (q : BitVec 32) : (s.mbxOverrun q).tasks = s.tasks := by unfold Dev.mbxOverrun; simp
@[simp] theorem Dev.mbxOverrun_hif (q : BitVec 32) : (s.mbxOverrun q).hif = s.hif := by unfold Dev.mbxOverrun; simp
@[simp] theorem Dev.mbxOverrun_win (q : BitVec 32) : (s.mbxOverrun q).win = s.win := by unfold Dev.mbxOverrun; simp
@[simp] theorem Dev.mbxOverrun_qs (q : BitVec 32) : (s.mbxOverrun q).qs = s.qs := by unfold Dev.mbxOverrun; simp
@[simp] theorem Dev.mbxOverrun_fields (q : BitVec 32) : (s.mbxOverrun q).fields = s.fields := by unfold Dev.mbxOverrun; simp
@[simp] theorem Dev.mbxOverrun_mpt (q : BitVec 32) : (s.mbxOverrun q).mpt = s.mpt := by unfold Dev.mbxOverrun; simp
@[simp] theorem Dev.mbxOverrun_cache (q : BitVec 32) : (s.mbxOverrun q).cache = s.cache := by unfold Dev.mbxOverrun; simp
@[simp] theorem Dev.mbxOverrun_mor (q : BitVec 32) : (s.mbxOverrun q).mor = s.mor := by unfold Dev.mbxOverrun; simp
@[simp] theorem Dev.mbxOverrun_mst (q : BitVec 32) : (s.mbxOverrun q).mst = s.mst := by unfold Dev.mbxOverrun; simp
@[simp] theorem Dev.mbxOverrun_hod (q : BitVec 32) : (s.mbxOverrun q).hod = s.hod := by unfold Dev.mbxOverrun; simp
@[simp] theorem Dev.mbxOverrun_drm (q : BitVec 32) : (s.mbxOverrun q).drm = s.drm := by unfold Dev.mbxOverrun; simp
@[simp] theorem Dev.mbxOverrun_vlt (q : BitVec 32) : (s.mbxOverrun q).vlt = s.vlt := by unfold Dev.mbxOverrun; simp
@[simp] theorem Dev.mbxOverrun_twn (q : BitVec 32) : (s.mbxOverrun q).twn = s.twn := by unfold Dev.mbxOverrun; simp
@[simp] theorem Dev.mbxOverrun_lnk (q : BitVec 32) : (s.mbxOverrun q).lnk = s.lnk := by unfold Dev.mbxOverrun; simp
@[simp] theorem Dev.mbxOverrun_kst (q : BitVec 32) : (s.mbxOverrun q).kst = s.kst := by unfold Dev.mbxOverrun; simp
@[simp] theorem Dev.mbxOverrun_upd (q : BitVec 32) : (s.mbxOverrun q).upd = s.upd := by unfold Dev.mbxOverrun; simp
@[simp] theorem Dev.mbxOverrun_sys (q : BitVec 32) : (s.mbxOverrun q).sys = s.sys := by unfold Dev.mbxOverrun; simp
@[simp] theorem Dev.mbxOverrun_freeCtr (q : BitVec 32) : (s.mbxOverrun q).freeCtr = s.freeCtr := by unfold Dev.mbxOverrun; simp
@[simp] theorem Dev.mbxOverrun_out (q : BitVec 32) : (s.mbxOverrun q).out = s.out := by unfold Dev.mbxOverrun; simp

/-! ### What a record depends on -/

/-- A fold depends only on the Field Book and the counters. -/
theorem Dev.fold_congr {a b : Dev} (hf : a.fbk = b.fbk) (hc : a.ctr = b.ctr) (r : FbLast) :
    (a.fold r).fbk = (b.fold r).fbk ∧ (a.fold r).ctr = (b.fold r).ctr := by
  unfold Dev.fold
  extract_lets x y
  have hx : x.fbk = y.fbk ∧ x.ctr = y.ctr := ⟨hf, by simp only [x, y, Dev.count, Dev.countN, hc]⟩
  split
  · exact ⟨by simp only [Dev.onFbk, hx.1], hx.2⟩
  · exact ⟨by simp only [Dev.onFbk, hx.1], hx.2⟩

/-- A dropped record depends only on the Field Book and the counters. -/
theorem Dev.dropRec_congr {a b : Dev} (hf : a.fbk = b.fbk) (hc : a.ctr = b.ctr) (src : BitVec 16) (q : BitVec 32) :
    (a.dropRec src q).fbk = (b.dropRec src q).fbk ∧ (a.dropRec src q).ctr = (b.dropRec src q).ctr := by
  unfold Dev.dropRec
  constructor
  · simp only [Dev.onFbk, Dev.count, Dev.countN, hf]; rfl
  · simp only [Dev.onFbk, Dev.count, Dev.countN, hc]

/-- A conditional change carries an equality of a projection. -/
theorem Dev.when_congr {α : Type} {a b : Dev} {c d : Bool} {f g : Dev → Dev} (p : Dev → α) (hc : c = d) (h : p a = p b) (hf : p (f a) = p (g b)) :
    p (a.when c f) = p (b.when d g) := by
  subst hc
  unfold Dev.when
  split
  · exact hf
  · exact h

/-- What a record does to the Field Book and the counters depends only on them and on the tick. -/
theorem Dev.recordF_congr {a b : Dev} (hf : a.fbk = b.fbk) (ht : a.tck.count = b.tck.count) (hc : a.ctr = b.ctr) (fl c : Nat) (src : BitVec 16) (x y z : Nat) :
    (a.recordF fl c src x y z).fbk = (b.recordF fl c src x y z).fbk ∧ (a.recordF fl c src x y z).ctr = (b.recordF fl c src x y z).ctr := by
  unfold Dev.recordF
  extract_lets p1 p2 p3 a1 aq ar a2 a3 af ag a4 b1 bq br b2 b3 bf bg b4
  have h1 : a1.fbk = b1.fbk := by simp only [a1, b1, Dev.onFbk, hf]
  have c1 : a1.ctr = b1.ctr := hc
  have t1 : a1.tck.count = b1.tck.count := ht
  have e1 : (a1.lastRec src).filter (fun r => a1.folds r c p1 p2 p3) = (b1.lastRec src).filter (fun r => b1.folds r c p1 p2 p3) := by
    simp only [Dev.lastRec, Dev.folds, Dev.placeLive, h1]
  have hq : aq = bq := by simp only [aq, bq, Dev.nextSeq, h1]
  have hr : ar = br := by simp only [ar, br, Dev.mkRec, t1, hq]
  have h2 : a2.fbk = b2.fbk := by simp only [a2, b2, Dev.useSeq, Dev.onFbk, Dev.nextSeq, h1]
  have h3 : a3.fbk = b3.fbk := Dev.when_congr (·.fbk) (by rw [h2]) h2 (by simp only [Dev.toLastWord, Dev.onFbk, h2, hr])
  have c3 : a3.ctr = b3.ctr := Dev.when_congr (·.ctr) (by rw [h2]) c1 c1
  have hff : af = bf := by simp only [af, bf, h3]
  have hg : ag = bg := by
    simp only [ag, bg, hr, hq, hff]
  have h4 : a4.fbk = b4.fbk := by simp only [a4, b4, Dev.onFbk, h3, hg]
  have c4 : a4.ctr = b4.ctr := c3
  rw [e1]
  split
  · exact Dev.fold_congr h1 c1 _
  · by_cases hb : bf
    · have ha : af := hff ▸ hb
      rw [if_pos ha, if_pos hb, hq]
      exact Dev.dropRec_congr h4 c4 _ _
    · have ha : ¬af := hff ▸ hb
      rw [if_neg ha, if_neg hb]
      exact ⟨by simp only [Dev.onFbk, h4, hr], c4⟩

/-- What a record does to the Field Book and the counters depends only on them and on the tick. -/
theorem Dev.record_congr {a b : Dev} (hf : a.fbk = b.fbk) (ht : a.tck.count = b.tck.count) (hc : a.ctr = b.ctr) (c : Nat) (src : BitVec 16) (x y z : Nat) :
    (a.record c src x y z).fbk = (b.record c src x y z).fbk ∧ (a.record c src x y z).ctr = (b.record c src x y z).ctr :=
  Dev.recordF_congr hf ht hc 0 c src x y z

end Sys2Proof.Machine
end

