-- ==== Sys2Proof/Laws/Kept.lean ====
section
/-!
SUPPORT. What the shared operations over the state keep (`Kept`): byte memory, counters, records, and changes of one part of the
state. The lemmas for every other function that answers a block stand in Laws/Keeps*.lean.
-/

namespace Sys2Proof.Safety

open Sys2Proof.Machine

/-! ## Byte memory -/

/-- A byte list in canonical form above a bound is so above every lower bound. -/
theorem memWfFrom_mono {lo lo' : Nat} (h : lo' ≤ lo) : ∀ {m : List Host.Cell}, memWfFrom lo m = true → memWfFrom lo' m = true
  | [], _ => rfl
  | (k, v) :: l, hm => by
    simp only [memWfFrom, Bool.and_eq_true, decide_eq_true_eq] at hm ⊢
    exact ⟨⟨by omega, hm.1.2⟩, hm.2⟩

/-- Writing a byte at or above the bound keeps the canonical form. -/
theorem memSet_wfFrom (a : Nat) (b : Byte) :
    ∀ {lo : Nat} {m : List Host.Cell}, lo ≤ a → memWfFrom lo m = true → memWfFrom lo (memSet a b m) = true
  | lo, [], ha, _ => by
    unfold memSet
    split
    · rfl
    · rename_i hb
      simp only [memWfFrom, Bool.and_eq_true, decide_eq_true_eq]
      exact ⟨⟨ha, hb⟩, trivial⟩
  | lo, (k, v) :: l, ha, hm => by
    simp only [memWfFrom, Bool.and_eq_true, decide_eq_true_eq] at hm
    obtain ⟨⟨h1, h2⟩, h3⟩ := hm
    unfold memSet
    split
    · split
      · simp only [memWfFrom, Bool.and_eq_true, decide_eq_true_eq]; exact ⟨⟨h1, h2⟩, h3⟩
      · rename_i hb
        simp only [memWfFrom, Bool.and_eq_true, decide_eq_true_eq]
        exact ⟨⟨ha, hb⟩, ⟨by omega, h2⟩, h3⟩
    · split
      · split
        · exact memWfFrom_mono (by omega) h3
        · rename_i hb
          simp only [memWfFrom, Bool.and_eq_true, decide_eq_true_eq]
          exact ⟨⟨h1, hb⟩, h3⟩
      · simp only [memWfFrom, Bool.and_eq_true, decide_eq_true_eq]
        exact ⟨⟨h1, h2⟩, memSet_wfFrom a b (by omega) h3⟩

/-- Writing bytes keeps the canonical form. -/
theorem memWrite_wf : ∀ (l : List Byte) (a : Nat) {m : List Host.Cell}, memWf m = true → memWf (memWrite a l m) = true
  | [], _, _, h => h
  | b :: l, a, _, h => memWrite_wf l (a + 1) (memSet_wfFrom a b (Nat.zero_le a) h)

/-- Below the first listed address every byte reads 0. -/
theorem memGet_below {a lo : Nat} (h : a < lo) : ∀ {m : List Host.Cell}, memWfFrom lo m = true → memGet a m = 0
  | [], _ => rfl
  | (k, v) :: l, hm => by
    simp only [memWfFrom, Bool.and_eq_true, decide_eq_true_eq] at hm
    have h1 : a ≠ k := by omega
    have h2 : a < k := by omega
    simp [memGet, h1, h2]

/-- A byte read after one byte was written. -/
theorem memGet_memSet (a c : Nat) (b : Byte) :
    ∀ {lo : Nat} {m : List Host.Cell}, memWfFrom lo m = true → memGet c (memSet a b m) = if c = a then b else memGet c m
  | lo, [], _ => by
    unfold memSet
    split
    · rename_i hb; subst hb; simp [memGet]
    · by_cases hc : c = a <;> simp [memGet, hc]
  | lo, (k, v) :: l, hm => by
    simp only [memWfFrom, Bool.and_eq_true, decide_eq_true_eq] at hm
    obtain ⟨⟨h1, h2⟩, h3⟩ := hm
    have ih := memGet_memSet a c b h3
    unfold memSet
    split
    · rename_i hak
      split
      · rename_i hb
        by_cases hc : c = a
        · subst hc
          have : c ≠ k := by omega
          simp [memGet, this, hak, hb]
        · simp [hc]
      · by_cases hc : c = a
        · simp [memGet, hc]
        · rw [if_neg hc]
          by_cases hca : c < a
          · have h4 : c ≠ k := by omega
            have h5 : c < k := by omega
            simp [memGet, hc, hca, h4, h5]
          · simp [memGet, hc, hca]
    · split
      · rename_i hak
        subst hak
        split
        · rename_i hb
          by_cases hc : c = a
          · subst hc
            rw [memGet_below (Nat.lt_succ_self c) h3]; simp [hb]
          · rw [if_neg hc]
            by_cases hca : c < a
            · rw [memGet_below (Nat.lt_succ_of_lt hca) h3]; simp [memGet, hc, hca]
            · simp [memGet, hc, hca]
        · by_cases hc : c = a <;> simp [memGet, hc]
      · rename_i hlt hne
        by_cases hck : c = k
        · subst hck
          have : c ≠ a := fun h => hne h.symm
          simp [memGet, this]
        · by_cases hlk : c < k
          · have : c ≠ a := by omega
            simp [memGet, hck, hlk, this]
          · simp only [memGet, hck, hlk, if_false]
            exact ih

/-! ## What every operation but a tick and a cold start keeps -/

/-- The parts of the Field Book stay within their room, and its totals do not fall. -/
structure BookGoesOn (k k' : Fbk) : Prop where
  fits : BookFits k → BookFits k'
  written : k.written ≤ k'.written
  lastWord : k.lwWritten ≤ k'.lwWritten
  mirror : k.mirrorWritten ≤ k'.mirrorWritten

/-- `s` may follow `b` within one phase of one boot: it is sound, tick and phase are the same, what `b` has emitted stays emitted, free
values are drawn onward, and neither a counter nor a total of the Field Book has fallen. -/
structure Kept (b s : Dev) : Prop where
  sound : Sound s
  sameTick : s.tck.count = b.tck.count
  samePhase : s.tck.phase = b.tck.phase ∧ s.tck.phaseIdx = b.tck.phaseIdx
  outGrows : b.out <+: s.out
  freeGrows : b.freeCtr ≤ s.freeCtr
  ctrGrows : ∀ c : Ctr, b.ctr[ctrIx c] ≤ s.ctr[ctrIx c]
  ringGrows : b.fbk.written ≤ s.fbk.written
  lastWordGrows : b.fbk.lwWritten ≤ s.fbk.lwWritten
  mirrorGrows : b.fbk.mirrorWritten ≤ s.fbk.mirrorWritten

/-- A sound block follows itself. -/
theorem Sound.kept {s : Dev} (h : Sound s) : Kept s s :=
  ⟨h, rfl, ⟨rfl, rfl⟩, List.prefix_refl _, Nat.le_refl _, fun _ => Nat.le_refl _, Nat.le_refl _, Nat.le_refl _, Nat.le_refl _⟩

theorem Kept.trans {a b s : Dev} (h : Kept a b) (h' : Kept b s) : Kept a s where
  sound := h'.sound
  sameTick := h'.sameTick.trans h.sameTick
  samePhase := ⟨h'.samePhase.1.trans h.samePhase.1, h'.samePhase.2.trans h.samePhase.2⟩
  outGrows := h.outGrows.trans h'.outGrows
  freeGrows := Nat.le_trans h.freeGrows h'.freeGrows
  ctrGrows c := Nat.le_trans (h.ctrGrows c) (h'.ctrGrows c)
  ringGrows := Nat.le_trans h.ringGrows h'.ringGrows
  lastWordGrows := Nat.le_trans h.lastWordGrows h'.lastWordGrows
  mirrorGrows := Nat.le_trans h.mirrorGrows h'.mirrorGrows

theorem Sound.of_parts {s t : Dev} (h : Sound s) (hw : t.win.mem = s.win.mem) (hm : t.mbx.reqBuf = s.mbx.reqBuf)
    (hc : t.ctr = s.ctr) (hf : t.fbk = s.fbk) : Sound t := by
  obtain ⟨⟨a, b⟩, c, d⟩ := h
  exact ⟨⟨hw ▸ a, hm ▸ b⟩, by unfold CtrOk; rw [hc]; exact c, by rw [hf]; exact d⟩

/-- A change that reaches none of these parts. -/
theorem Kept.of_parts {b s t : Dev} (h : Kept b s) (hw : t.win.mem = s.win.mem) (hm : t.mbx.reqBuf = s.mbx.reqBuf)
    (hc : t.ctr = s.ctr) (hf : t.fbk = s.fbk) (ht : t.tck.count = s.tck.count ∧ t.tck.phase = s.tck.phase ∧ t.tck.phaseIdx = s.tck.phaseIdx) (ho : t.out = s.out) (hr : t.freeCtr = s.freeCtr) :
    Kept b t where
  sound := h.sound.of_parts hw hm hc hf
  sameTick := ht.1.trans h.sameTick
  samePhase := ⟨ht.2.1.trans h.samePhase.1, ht.2.2.trans h.samePhase.2⟩
  outGrows := ho ▸ h.outGrows
  freeGrows := hr ▸ h.freeGrows
  ctrGrows c := by rw [hc]; exact h.ctrGrows c
  ringGrows := hf ▸ h.ringGrows
  lastWordGrows := hf ▸ h.lastWordGrows
  mirrorGrows := hf ▸ h.mirrorGrows

theorem Kept.ite {c : Prop} [Decidable c] {b s t : Dev} (hs : Kept b s) (ht : Kept b t) : Kept b (if c then s else t) := by
  split
  · exact hs
  · exact ht

theorem Kept.when {b s : Dev} {c : Bool} {f : Dev → Dev} (h : Kept b s) (hf : ∀ x, Kept b x → Kept b (f x)) :
    Kept b (s.when c f) := by
  unfold Dev.when
  split
  · exact hf s h
  · exact h

theorem Kept.foldl {α β : Type} {b : Dev} (g : β → Dev) {f : β → α → β} (hf : ∀ x a, Kept b (g x) → Kept b (g (f x a))) :
    ∀ (l : List α) {s : β}, Kept b (g s) → Kept b (g (l.foldl f s))
  | [], _, h => h
  | a :: l, _, h => Kept.foldl g hf l (hf _ a h)

theorem Kept.each {α : Type} {b s : Dev} {l : List α} {f : Dev → α → Dev} (h : Kept b s)
    (hf : ∀ x a, Kept b x → Kept b (f x a)) : Kept b (s.each l f) := Kept.foldl id hf l h

/-! ## Changes of one part -/

variable {b s : Dev}

theorem Kept.onTasks {f : Tasks → Tasks} (h : Kept b s) : Kept b (s.onTasks f) := h.of_parts rfl rfl rfl rfl ⟨rfl, rfl, rfl⟩ rfl rfl
theorem Kept.onHif {f : Hif → Hif} (h : Kept b s) : Kept b (s.onHif f) := h.of_parts rfl rfl rfl rfl ⟨rfl, rfl, rfl⟩ rfl rfl
theorem Kept.onQs {f : Queues → Queues} (h : Kept b s) : Kept b (s.onQs f) := h.of_parts rfl rfl rfl rfl ⟨rfl, rfl, rfl⟩ rfl rfl
theorem Kept.onMpt {f : Mpt → Mpt} (h : Kept b s) : Kept b (s.onMpt f) := h.of_parts rfl rfl rfl rfl ⟨rfl, rfl, rfl⟩ rfl rfl
theorem Kept.onCache {f : Cache → Cache} (h : Kept b s) : Kept b (s.onCache f) := h.of_parts rfl rfl rfl rfl ⟨rfl, rfl, rfl⟩ rfl rfl
theorem Kept.onMor {f : Mor → Mor} (h : Kept b s) : Kept b (s.onMor f) := h.of_parts rfl rfl rfl rfl ⟨rfl, rfl, rfl⟩ rfl rfl
theorem Kept.onMst {f : Mst → Mst} (h : Kept b s) : Kept b (s.onMst f) := h.of_parts rfl rfl rfl rfl ⟨rfl, rfl, rfl⟩ rfl rfl
theorem Kept.onHod {f : Hod → Hod} (h : Kept b s) : Kept b (s.onHod f) := h.of_parts rfl rfl rfl rfl ⟨rfl, rfl, rfl⟩ rfl rfl
theorem Kept.onDrm {f : Drm → Drm} (h : Kept b s) : Kept b (s.onDrm f) := h.of_parts rfl rfl rfl rfl ⟨rfl, rfl, rfl⟩ rfl rfl
theorem Kept.onVlt {f : Vlt → Vlt} (h : Kept b s) : Kept b (s.onVlt f) := h.of_parts rfl rfl rfl rfl ⟨rfl, rfl, rfl⟩ rfl rfl
theorem Kept.onTwn {f : Twn → Twn} (h : Kept b s) : Kept b (s.onTwn f) := h.of_parts rfl rfl rfl rfl ⟨rfl, rfl, rfl⟩ rfl rfl
theorem Kept.onLnk {f : Lnk → Lnk} (h : Kept b s) : Kept b (s.onLnk f) := h.of_parts rfl rfl rfl rfl ⟨rfl, rfl, rfl⟩ rfl rfl
theorem Kept.onKst {f : Kst → Kst} (h : Kept b s) : Kept b (s.onKst f) := h.of_parts rfl rfl rfl rfl ⟨rfl, rfl, rfl⟩ rfl rfl
theorem Kept.onUpd {f : Upd → Upd} (h : Kept b s) : Kept b (s.onUpd f) := h.of_parts rfl rfl rfl rfl ⟨rfl, rfl, rfl⟩ rfl rfl
theorem Kept.onSys {f : Sys → Sys} (h : Kept b s) : Kept b (s.onSys f) := h.of_parts rfl rfl rfl rfl ⟨rfl, rfl, rfl⟩ rfl rfl
theorem Kept.onFields {f : List Field → List Field} (h : Kept b s) : Kept b (s.onFields f) := h.of_parts rfl rfl rfl rfl ⟨rfl, rfl, rfl⟩ rfl rfl

/-- A change of the tick block that moves neither the count nor the phase. -/
theorem Kept.onTck {f : Tck → Tck} (h : Kept b s) (hf : (f s.tck).count = s.tck.count ∧ (f s.tck).phase = s.tck.phase ∧
    (f s.tck).phaseIdx = s.tck.phaseIdx) : Kept b (s.onTck f) :=
  h.of_parts rfl rfl rfl rfl hf rfl rfl

theorem Kept.emit {o : Out} (h : Kept b s) : Kept b (s.emit o) :=
  { h.of_parts (t := s) rfl rfl rfl rfl ⟨rfl, rfl, rfl⟩ rfl rfl with outGrows := h.outGrows.trans (List.prefix_append _ _), sound := h.sound.of_parts rfl rfl rfl rfl }

theorem Kept.answer {v : Option Nat} (h : Kept b s) : Kept b (s.answer v) := h.emit

theorem Kept.drew (h : Kept b s) : Kept b s.drew :=
  { h.of_parts (t := s) rfl rfl rfl rfl ⟨rfl, rfl, rfl⟩ rfl rfl with freeGrows := Nat.le_succ_of_le h.freeGrows, sound := h.sound.of_parts rfl rfl rfl rfl }

/-- A change of the window that leaves its bytes, or their canonical form. -/
theorem Kept.onWin {f : Win → Win} (h : Kept b s) (hf : memWf s.win.mem = true → memWf (f s.win).mem = true) : Kept b (s.onWin f) :=
  { h.of_parts (t := s) rfl rfl rfl rfl ⟨rfl, rfl, rfl⟩ rfl rfl with sound := ⟨⟨hf h.sound.mem.1, h.sound.mem.2⟩, h.sound.ctr, h.sound.book⟩ }

/-- A change of the mailbox that leaves the request buffer, or its canonical form. -/
theorem Kept.onMbx {f : Mbx → Mbx} (h : Kept b s) (hf : memWf s.mbx.reqBuf = true → memWf (f s.mbx).reqBuf = true) :
    Kept b (s.onMbx f) :=
  { h.of_parts (t := s) rfl rfl rfl rfl ⟨rfl, rfl, rfl⟩ rfl rfl with sound := ⟨⟨h.sound.mem.1, hf h.sound.mem.2⟩, h.sound.ctr, h.sound.book⟩ }

/-- A change of the Field Book within its room. -/
theorem Kept.onFbk {f : Fbk → Fbk} (h : Kept b s) (hf : BookGoesOn s.fbk (f s.fbk)) : Kept b (s.onFbk f) :=
  { h.of_parts (t := s) rfl rfl rfl rfl ⟨rfl, rfl, rfl⟩ rfl rfl with
    sound := ⟨h.sound.mem, h.sound.ctr, hf.fits h.sound.book⟩
    ringGrows := Nat.le_trans h.ringGrows hf.written
    lastWordGrows := Nat.le_trans h.lastWordGrows hf.lastWord
    mirrorGrows := Nat.le_trans h.mirrorGrows hf.mirror }

theorem Kept.countN (h : Kept b s) (c : Ctr) (n : Nat) : Kept b (s.countN c n) :=
  { h.of_parts (t := s) rfl rfl rfl rfl ⟨rfl, rfl, rfl⟩ rfl rfl with
    sound := by
      refine ⟨h.sound.mem, ?_, h.sound.book⟩
      intro x hx
      rw [Dev.countN_ctr, Vector.toList_set] at hx
      rcases List.mem_or_eq_of_mem_set hx with hx | rfl
      · exact h.sound.ctr x hx
      · exact Nat.min_le_right _ _
    ctrGrows := by
      intro d
      have h1 := h.ctrGrows d
      have h2 : s.ctr[ctrIx d] ≤ maxCount := h.sound.ctr _ (by simp)
      rw [Dev.countN_ctr]
      simp only [Fin.getElem_fin, Vector.getElem_set] at h1 h2 ⊢
      split
      · rename_i he
        simp only [he] at h1 h2 ⊢
        omega
      · exact h1 }

theorem Kept.count (h : Kept b s) (c : Ctr) : Kept b (s.count c) := h.countN c 1

/-- A change that leaves the lists with room and the totals alone. -/
theorem BookGoesOn.same {k k' : Fbk} (h1 : k'.fifo = k.fifo) (h2 : k'.ring = k.ring) (h3 : k'.mirror = k.mirror)
    (h4 : k'.lastWord = k.lastWord) (h5 : k'.written = k.written) (h6 : k'.lwWritten = k.lwWritten)
    (h7 : k'.mirrorWritten = k.mirrorWritten) : BookGoesOn k k' :=
  ⟨fun h => by unfold BookFits; rw [h1, h2, h3, h4]; exact h, Nat.le_of_eq h5.symm, Nat.le_of_eq h6.symm, Nat.le_of_eq h7.symm⟩

/-! ## Records -/

theorem modAll_length {α : Type} (p : α → Bool) (f : α → α) (l : List α) : (modAll p f l).length = l.length := by
  simp [modAll]

theorem length_drop_le {α : Type} (l : List α) (n : Nat) : (l.drop (l.length - n)).length ≤ n := by
  rw [List.length_drop]; omega

theorem Kept.fold (h : Kept b s) (r : FbLast) : Kept b (s.fold r) := by
  unfold Dev.fold
  extract_lets x
  have hx : Kept b x := h.count _
  clear_value x
  split
  · exact hx.onFbk ⟨fun ⟨a, b⟩ => ⟨by simpa [modAll_length] using a, b⟩, Nat.le_refl _, Nat.le_refl _, Nat.le_refl _⟩
  · exact hx.onFbk (.same rfl rfl rfl rfl rfl rfl rfl)

theorem Kept.useSeq (h : Kept b s) (src : BitVec 16) : Kept b (s.useSeq src) := h.onFbk (.same rfl rfl rfl rfl rfl rfl rfl)

theorem Kept.toLastWord (h : Kept b s) (r : FbRec) : Kept b (s.toLastWord r) :=
  h.onFbk ⟨fun ⟨a, b, c, _⟩ => ⟨a, b, c, length_drop_le _ _⟩, Nat.le_refl _, Nat.le_succ _, Nat.le_refl _⟩

theorem Kept.dropRec (h : Kept b s) (src : BitVec 16) (seq : BitVec 32) : Kept b (s.dropRec src seq) :=
  (h.count _).onFbk (.same rfl rfl rfl rfl rfl rfl rfl)

theorem Kept.recordF (h : Kept b s) (flags code : Nat) (src : BitVec 16) (p1 p2 p3 : Nat) :
    Kept b (s.recordF flags code src p1 p2 p3) := by
  unfold Dev.recordF
  extract_lets p1 p2 p3 x
  have hx : Kept b x := h.onFbk (.same rfl rfl rfl rfl rfl rfl rfl)
  clear_value x
  split
  · exact hx.fold _
  · rename_i seq r y z full reg w _ _
    have hw : Kept b w := ((hx.useSeq _).when fun s h => h.toLastWord r).onFbk (.same rfl rfl rfl rfl rfl rfl rfl)
    split
    · exact hw.dropRec _ _
    · rename_i hf
      refine hw.onFbk ⟨fun ⟨a, b⟩ => ⟨?_, b⟩, Nat.le_refl _, Nat.le_refl _, Nat.le_refl _⟩
      have : w.fbk.fifo = z.fbk.fifo := rfl
      simp only [full] at hf
      rw [this, List.length_append, List.length_singleton]
      omega

theorem Kept.record (h : Kept b s) (code : Nat) (src : BitVec 16) (p1 p2 p3 : Nat) : Kept b (s.record code src p1 p2 p3) :=
  h.recordF 0 code src p1 p2 p3

end Sys2Proof.Safety
end

