-- ==== Sys2Proof/Laws/KeepsStore.lean ====
section
/-!
SUPPORT. What every function over the block keeps (`Safety.Kept`): the queues, the Mortar Store, labels and the hod. Each lemma names its function.
-/

namespace Sys2Proof.Safety

open Sys2Proof.Machine

/-! ### Ops -/

theorem Kept.recordEarly {s0 s : Dev} (h : Kept s0 s) (code : Nat) (src : BitVec 16) (p1 p2 : Nat) :
    Kept s0 (s.recordEarly code src p1 p2) := by
  unfold Dev.recordEarly
  repeat' first
    | with_reducible first | assumption | apply Kept.record | apply Kept.onKst
    | (intro) | extract_lets | split

theorem Kept.recordKst {s0 s : Dev} (h : Kept s0 s) (code p1 p2 : Nat) : Kept s0 (s.recordKst code p1 p2) := by
  unfold Dev.recordKst
  repeat' first
    | with_reducible first | assumption | apply Kept.recordEarly
    | (intro) | extract_lets | split

theorem Kept.sendUp {s0 s : Dev} (h : Kept s0 s) (o : Out) : Kept s0 (s.sendUp o) := by
  unfold Dev.sendUp
  repeat' first
    | with_reducible first | assumption | apply Kept.onHif | apply Kept.emit
    | (intro) | extract_lets | split

theorem Kept.msix {s0 s : Dev} (h : Kept s0 s) (v : Nat) : Kept s0 (s.msix v) := by
  unfold Dev.msix
  repeat' first
    | with_reducible first | assumption | apply Kept.onHif | apply Kept.sendUp
    | (intro) | extract_lets | split

theorem Kept.event {s0 s : Dev} (h : Kept s0 s) (n : Nat) : Kept s0 (s.event n) := by
  unfold Dev.event
  repeat' first
    | with_reducible first | assumption | apply Kept.onHif | refine Kept.when ?_ ?_ | apply Kept.emit | apply Kept.msix
    | (intro) | extract_lets | split

theorem Kept.sendKept {s0 s : Dev} (h : Kept s0 s) : Kept s0 (s.sendKept) := by
  unfold Dev.sendKept
  repeat' first
    | with_reducible first | assumption | apply Kept.onHif | refine Kept.each ?_ ?_ | apply Kept.msix
    | (intro) | extract_lets | split

theorem Kept.recordEvent {s0 s : Dev} (h : Kept s0 s) (code : Nat) (src : BitVec 16) (p1 p2 p3 n : Nat) :
    Kept s0 (s.recordEvent code src p1 p2 p3 n) := by
  unfold Dev.recordEvent
  repeat' first
    | with_reducible first | assumption | apply Kept.record | apply Kept.event
    | (intro) | extract_lets | split

theorem Kept.recordKstEvent {s0 s : Dev} (h : Kept s0 s) (code p1 p2 n : Nat) : Kept s0 (s.recordKstEvent code p1 p2 n) := by
  unfold Dev.recordKstEvent
  repeat' first
    | with_reducible first | assumption | apply Kept.recordKst | apply Kept.event
    | (intro) | extract_lets | split

theorem Kept.onField {s0 s : Dev} (h : Kept s0 s) (f : Nat) (g : Field → Field) : Kept s0 (s.onField f g) := by
  unfold Dev.onField
  repeat' first
    | with_reducible first | assumption | apply Kept.onFields
    | (intro) | extract_lets | split

theorem Kept.onMember {s0 s : Dev} (h : Kept s0 s) (m : Nat) (g : Member → Member) : Kept s0 (s.onMember m g) := by
  unfold Dev.onMember
  repeat' first
    | with_reducible first | assumption | apply Kept.onMpt
    | (intro) | extract_lets | split

theorem Kept.bumpEpoch {s0 s : Dev} (h : Kept s0 s) : Kept s0 (s.bumpEpoch) := by
  unfold Dev.bumpEpoch
  repeat' first
    | with_reducible first | assumption | apply Kept.onSys
    | (intro) | extract_lets | split

/-! ### Link -/

theorem Kept.sendFlits {s0 s : Dev} (h : Kept s0 s) (t : TwinTx) (n : Nat) : Kept s0 (s.sendFlits t n) := by
  unfold Dev.sendFlits
  repeat' first
    | with_reducible first | assumption | apply Kept.onLnk
    | (intro) | extract_lets | split

theorem Kept.sendFrame {s0 s : Dev} (h : Kept s0 s) (t : TwinTx) : Kept s0 (s.sendFrame t) := by
  unfold Dev.sendFrame
  repeat' first
    | with_reducible first | assumption | apply Kept.sendFlits | apply Kept.onLnk | apply Kept.emit | apply Kept.frame
    | (intro) | extract_lets | split

theorem Kept.sendAgreement {s0 s : Dev} (h : Kept s0 s) (t : TwinTx) : Kept s0 (s.sendAgreement t) := by
  unfold Dev.sendAgreement
  repeat' first
    | with_reducible first | assumption | apply Kept.sendFlits | apply Kept.emit
    | (intro) | extract_lets | split

theorem Kept.sendFlit {s0 s : Dev} (h : Kept s0 s) (t : TwinTx) : Kept s0 (s.sendFlit t) := by
  unfold Dev.sendFlit
  repeat' first
    | with_reducible first | assumption | apply Kept.sendFlits | apply Kept.emit
    | (intro) | extract_lets | split

/-! ### Fields -/

theorem Kept.onCmd {s0 s : Dev} (h : Kept s0 s) (id : Nat) (f : Cmd → Cmd) : Kept s0 (s.onCmd id f) := by
  unfold Dev.onCmd
  repeat' first
    | with_reducible first | assumption | apply Kept.onQs
    | (intro) | extract_lets | split

theorem Kept.onCtx {s0 s : Dev} (h : Kept s0 s) (f c : Nat) (g : Bool) (h : Ctx → Ctx) : Kept s0 (s.onCtx f c g h) := by
  unfold Dev.onCtx
  repeat' first
    | with_reducible first | assumption | apply Kept.onCache
    | (intro) | extract_lets | split

theorem Kept.makeCtx {s0 s : Dev} (h : Kept s0 s) (f c : Nat) (g : Bool) : Kept s0 (s.makeCtx f c g) := by
  unfold Dev.makeCtx
  repeat' first
    | with_reducible first | assumption | apply Kept.onCache
    | (intro) | extract_lets | split

theorem Kept.onJob {s0 s : Dev} (h : Kept s0 s) (j : Nat) (f : Job → Job) : Kept s0 (s.onJob j f) := by
  unfold Dev.onJob
  repeat' first
    | with_reducible first | assumption | apply Kept.onCache
    | (intro) | extract_lets | split

/-! ### Frames -/

theorem Kept.placeLine {s0 s : Dev} (h : Kept s0 s) (l : Line) : Kept s0 (s.placeLine l) := by
  unfold Dev.placeLine
  repeat' first
    | with_reducible first | assumption | apply Kept.onCache
    | (intro) | extract_lets | split

theorem Kept.rewriteLine {s0 s : Dev} (h : Kept s0 s) (l : Line) (f : Line → Line) : Kept s0 (s.rewriteLine l f) := by
  unfold Dev.rewriteLine
  repeat' first
    | with_reducible first | assumption | apply Kept.onCache
    | (intro) | extract_lets | split

/-! ### Queue -/

theorem Kept.onPair {s0 s : Dev} (h : Kept s0 s) (q : Nat) (f : QPair → QPair) : Kept s0 (s.onPair q f) := by
  unfold Dev.onPair
  repeat' first
    | with_reducible first | assumption | apply Kept.onQs
    | (intro) | extract_lets | split

theorem Kept.hostRead {s0 s : Dev} (h : Kept s0 s) (w : ReadFor) (addr len : Nat) : Kept s0 (s.hostRead w addr len) := by
  unfold Dev.hostRead
  repeat' first
    | with_reducible first | assumption | apply Kept.onQs | apply Kept.sendUp
    | (intro) | extract_lets | split

theorem Kept.issueReads {s0 s : Dev} (h : Kept s0 s) : Kept s0 (s.issueReads) := by
  unfold Dev.issueReads
  repeat' first
    | with_reducible first | assumption | refine Kept.each ?_ ?_ | apply Kept.onQs | apply Kept.sendUp | apply Kept.hostRead
    | (intro) | extract_lets | split

theorem Kept.readCq {s0 s : Dev} (h : Kept s0 s) (q : Nat) : Kept s0 (s.readCq q) := by
  unfold Dev.readCq
  repeat' first
    | with_reducible first | assumption | apply Kept.hostRead | apply Kept.onPair
    | (intro) | extract_lets | split

theorem Kept.readSq {s0 s : Dev} (h : Kept s0 s) (q : Nat) : Kept s0 (s.readSq q) := by
  unfold Dev.readSq
  repeat' first
    | with_reducible first | assumption | apply Kept.hostRead | apply Kept.onPair
    | (intro) | extract_lets | split

theorem Kept.closeBatch {s0 s : Dev} (h : Kept s0 s) (q no : Nat) : Kept s0 (s.closeBatch q no) := by
  unfold Dev.closeBatch
  repeat' first
    | with_reducible first | assumption | apply Kept.onPair
    | (intro) | extract_lets | split

theorem Kept.finish {s0 s : Dev} (h : Kept s0 s) (id : Nat) (st detail : BitVec 16) : Kept s0 (s.finish id st detail) := by
  unfold Dev.finish
  repeat' first
    | with_reducible first | assumption | apply Kept.stage | apply Kept.drew | apply Kept.onCmd | apply Kept.onPair
                           | apply Kept.closeBatch | apply Kept.ite
    | exact id | exact .same rfl rfl rfl rfl rfl rfl rfl | (intro) | extract_lets | split

theorem Kept.dropLines {s0 s : Dev} (h : Kept s0 s) (id : Nat) : Kept s0 (s.dropLines id) := by
  unfold Dev.dropLines
  repeat' first
    | with_reducible first | assumption | apply Kept.onCache
    | (intro) | extract_lets | split

theorem Kept.endWrite {s0 s : Dev} (h : Kept s0 s) (id : Nat) (st detail : BitVec 16) : Kept s0 (s.endWrite id st detail) := by
  unfold Dev.endWrite
  repeat' first
    | with_reducible first | assumption | apply Kept.dropLines | apply Kept.onCmd | apply Kept.finish
    | (intro) | extract_lets | split

theorem Kept.endCmd {s0 s : Dev} (h : Kept s0 s) (id : Nat) (st detail : BitVec 16) : Kept s0 (s.endCmd id st detail) := by
  unfold Dev.endCmd
  repeat' first
    | with_reducible first | assumption | apply Kept.endWrite | apply Kept.finish
    | (intro) | extract_lets | split

theorem Kept.adminDone {s0 s : Dev} (h : Kept s0 s) (tag : BitVec 16) (st detail : BitVec 16) (count : Nat) :
    Kept s0 (s.adminDone tag st detail count) := by
  unfold Dev.adminDone
  repeat' first
    | with_reducible first | assumption | apply Kept.onPair
    | (intro) | extract_lets | split

theorem Kept.winStore {s0 s : Dev} (h : Kept s0 s) (off : Nat) (l : List Byte) : Kept s0 (s.winStore off l) := by
  unfold Dev.winStore
  extract_lets
  exact h.onWin (memWrite_wf l off)

theorem Kept.sendBlock {s0 s : Dev} (h : Kept s0 s) (c : Cmd) (i : Nat) (b : Block) : Kept s0 (s.sendBlock c i b) := by
  unfold Dev.sendBlock
  repeat' first
    | with_reducible first | assumption | refine Kept.each ?_ ?_ | apply Kept.winStore | apply Kept.sendUp
                           | refine Kept.foldl Prod.fst ?_ _ ?_
    | (intro) | extract_lets | split

theorem Kept.sendData {s0 s : Dev} (h : Kept s0 s) (c : Cmd) : Kept s0 (s.sendData c) := by
  unfold Dev.sendData
  repeat' first
    | with_reducible first | assumption | refine Kept.each ?_ ?_ | apply Kept.sendBlock | apply Kept.onCmd
    | (intro) | extract_lets | split

theorem Kept.sendParked {s0 s : Dev} (h : Kept s0 s) : Kept s0 (s.sendParked) := by
  unfold Dev.sendParked
  repeat' first
    | with_reducible first | assumption | refine Kept.each ?_ ?_ | apply Kept.sendData
    | (intro) | extract_lets | split

theorem Kept.postFront {s0 s : Dev} (h : Kept s0 s) (q : Nat) : Kept s0 (s.postFront q) := by
  unfold Dev.postFront
  repeat' first
    | with_reducible first | assumption | apply Kept.count | apply Kept.onPair | apply Kept.sendUp | apply Kept.onQs
                           | apply Kept.readCq
    | (intro) | extract_lets | split

theorem Kept.postPair {s0 : Dev} : ∀ (n q : Nat) {s : Dev}, Kept s0 s → Kept s0 (Dev.postPair n q s).1
  | 0, _, _, h => h
  | n + 1, q, s, h => by
    unfold Dev.postPair
    split
    · exact Kept.postPair n q (h.postFront q)
    · exact h

/-! ### Store -/

theorem Kept.pushCommit {s0 s : Dev} (h : Kept s0 s) (c : Commit) : Kept s0 (s.pushCommit c) := by
  unfold Dev.pushCommit
  repeat' first
    | with_reducible first | assumption | apply Kept.onMst
    | (intro) | extract_lets | split

theorem Kept.header {s0 s : Dev} (h : Kept s0 s) (line : Nat) (ch : Change) : Kept s0 (s.header line ch) := by
  unfold Dev.header
  repeat' first
    | with_reducible first | assumption | apply Kept.pushCommit
    | (intro) | extract_lets | split

theorem Kept.commitEntry {s0 s : Dev} (h : Kept s0 s) (f : Nat) : Kept s0 (s.commitEntry f) := by
  unfold Dev.commitEntry
  repeat' first
    | with_reducible first | assumption | apply Kept.header
    | (intro) | extract_lets | split

theorem Kept.setBit {s0 s : Dev} (h : Kept s0 s) (cls : Nat) (f : Nat) (fine : Bool) (r : Nat) (cmd job : Option Nat) :
    Kept s0 (s.setBit cls f fine r cmd job) := by
  unfold Dev.setBit
  repeat' first
    | with_reducible first | assumption | apply Kept.pushCommit
    | (intro) | extract_lets | split

theorem Kept.makeSlot {s0 s : Dev} (h : Kept s0 s) (cls : Nat) (f : Field) (i : Nat) (fine : Bool) (r : Nat) (cmd job : Option Nat) :
    Kept s0 (s.makeSlot cls f i fine r cmd job) := by
  unfold Dev.makeSlot
  repeat' first
    | with_reducible first | assumption | apply Kept.pushCommit
    | (intro) | extract_lets | split

theorem Kept.markRegion {s0 s : Dev} (h : Kept s0 s) (f : Field) (cmd : Nat) (r : Bool × Nat) :
    Kept s0 (s.markRegion f cmd r).1 := by
  unfold Dev.markRegion
  repeat' first
    | with_reducible first | assumption | apply Kept.setBit | apply Kept.makeSlot | apply Kept.onTasks | apply Kept.ite
    | exact id | exact .same rfl rfl rfl rfl rfl rfl rfl | (intro) | extract_lets | split

theorem Kept.markWrite {s0 s : Dev} (h : Kept s0 s) (f : Field) (cmd : Nat) (rs : List (Bool × Nat)) :
    Kept s0 (s.markWrite f cmd rs).1 := by
  unfold Dev.markWrite
  repeat' first
    | with_reducible first | assumption | apply Kept.markRegion | refine Kept.foldl Prod.fst ?_ _ ?_
    | (intro) | extract_lets | split

theorem Kept.queueGuard {s0 s : Dev} (h : Kept s0 s) (j : Nat) (f : Field) (c : Nat) (g : Bool) :
    Kept s0 (s.queueGuard j f c g) := by
  unfold Dev.queueGuard
  repeat' first
    | with_reducible first | assumption | apply Kept.setBit | apply Kept.onJob | apply Kept.makeSlot | apply Kept.segment
                           | apply Kept.pushCommit | apply Kept.ite
    | exact id | exact .same rfl rfl rfl rfl rfl rfl rfl | (intro) | extract_lets | split

theorem Kept.dropGuard {s0 s : Dev} (h : Kept s0 s) (j : Job) : Kept s0 (s.dropGuard j) := by
  unfold Dev.dropGuard
  repeat' first
    | with_reducible first | assumption | apply Kept.onMst | apply Kept.segment | apply Kept.pushCommit
    | (intro) | extract_lets | split

theorem Kept.dropSlots {s0 s : Dev} (h : Kept s0 s) (fid : Nat) : Kept s0 (s.dropSlots fid) := by
  unfold Dev.dropSlots
  repeat' first
    | with_reducible first | assumption | refine Kept.each ?_ ?_ | apply Kept.pushCommit
    | (intro) | extract_lets | split

theorem Kept.ckptChanged {s0 s : Dev} (h : Kept s0 s) (f : Nat) : Kept s0 (s.ckptChanged f) := by
  unfold Dev.ckptChanged
  repeat' first
    | with_reducible first | assumption | apply Kept.onTwn
    | (intro) | extract_lets | split

theorem Kept.putCoarse {s0 s : Dev} (h : Kept s0 s) (f r : Nat) (b : Bool) : Kept s0 (s.putCoarse f r b) := by
  unfold Dev.putCoarse
  repeat' first
    | with_reducible first | assumption | apply Kept.onMst | apply Kept.ckptChanged
    | (intro) | extract_lets | split

theorem Kept.putFine {s0 s : Dev} (h : Kept s0 s) (f r : Nat) (b : Bool) : Kept s0 (s.putFine f r b) := by
  unfold Dev.putFine
  repeat' first
    | with_reducible first | assumption | apply Kept.onMst | apply Kept.ckptChanged
    | (intro) | extract_lets | split

theorem Kept.onSlot {s0 s : Dev} (h : Kept s0 s) (i : Nat) (f : Slot → Slot) : Kept s0 (s.onSlot i f) := by
  unfold Dev.onSlot
  repeat' first
    | with_reducible first | assumption | apply Kept.onMst
    | (intro) | extract_lets | split

theorem Kept.guardDone {s0 s : Dev} (h : Kept s0 s) (j : Option Nat) : Kept s0 (s.guardDone j) := by
  unfold Dev.guardDone
  repeat' first
    | with_reducible first | assumption | apply Kept.onJob
    | (intro) | extract_lets | split

theorem Kept.freeSlot {s0 s : Dev} (h : Kept s0 s) (i : Nat) : Kept s0 (s.freeSlot i) := by
  unfold Dev.freeSlot
  repeat' first
    | with_reducible first | assumption | apply Kept.onMst | apply Kept.putFine | apply Kept.putCoarse
    | (intro) | extract_lets | split

theorem Kept.landEntry {s0 s : Dev} (h : Kept s0 s) (f : Nat) : Kept s0 (s.landEntry f) := by
  unfold Dev.landEntry
  repeat' first
    | with_reducible first | assumption | apply Kept.onMst | apply Kept.ckptChanged
    | (intro) | extract_lets | split

theorem Kept.land {s0 s : Dev} (h : Kept s0 s) (c : Commit) : Kept s0 (s.land c) := by
  unfold Dev.land
  repeat' first
    | with_reducible first | assumption | apply Kept.onMst | apply Kept.putFine | apply Kept.putCoarse | apply Kept.onSlot
                           | apply Kept.guardDone | apply Kept.count | apply Kept.freeSlot | apply Kept.landEntry
                           | apply Kept.onField | apply Kept.ckptChanged | apply Kept.onUpd
    | (intro) | extract_lets | split

theorem Kept.commitUpd {s0 s : Dev} (h : Kept s0 s) (marker session : Bool) (p : Option MbxPath) :
    Kept s0 (s.commitUpd marker session p) := by
  unfold Dev.commitUpd
  repeat' first
    | with_reducible first | assumption | apply Kept.header | apply Kept.onUpd
    | (intro) | extract_lets | split

theorem Kept.commitCounter {s0 s : Dev} (h : Kept s0 s) (p : Option MbxPath) : Kept s0 (s.commitCounter p) := by
  unfold Dev.commitCounter
  repeat' first
    | with_reducible first | assumption | apply Kept.header | apply Kept.onMst
    | (intro) | extract_lets | split

theorem Kept.storeErrors {s0 s : Dev} (h : Kept s0 s) (ok bad : List Nat) : Kept s0 (s.storeErrors ok bad) := by
  unfold Dev.storeErrors
  repeat' first
    | with_reducible first | assumption | refine Kept.each ?_ ?_ | apply Kept.count | apply Kept.record
                           | apply Kept.pushCommit
    | (intro) | extract_lets | split

theorem Kept.grantFine {s0 s : Dev} (h : Kept s0 s) (f : Field) (k : Nat) : Kept s0 (s.grantFine f k) := by
  unfold Dev.grantFine
  repeat' first
    | with_reducible first | assumption | apply Kept.header | apply Kept.onField
    | (intro) | extract_lets | split

theorem Kept.releaseFine {s0 s : Dev} (h : Kept s0 s) (f : Nat) : Kept s0 (s.releaseFine f) := by
  unfold Dev.releaseFine
  repeat' first
    | with_reducible first | assumption | apply Kept.onField
    | (intro) | extract_lets | split

theorem Kept.stepFine {s0 s : Dev} (h : Kept s0 s) (f : Field) : Kept s0 (s.stepFine f) := by
  unfold Dev.stepFine
  repeat' first
    | with_reducible first | assumption | apply Kept.record | apply Kept.onField | apply Kept.header
                           | refine Kept.each ?_ ?_ | apply Kept.pushCommit
    | (intro) | extract_lets | split

theorem Kept.stepLeases {s0 s : Dev} (h : Kept s0 s) : Kept s0 (s.stepLeases) := by
  unfold Dev.stepLeases
  repeat' first
    | with_reducible first | assumption | refine Kept.each ?_ ?_ | apply Kept.header | apply Kept.pushCommit
    | (intro) | extract_lets | split

theorem Kept.throttle {s0 s : Dev} (h : Kept s0 s) : Kept s0 (s.throttle) := by
  unfold Dev.throttle
  repeat' first
    | with_reducible first | assumption | apply Kept.onMst | refine Kept.when ?_ ?_ | apply Kept.record | apply Kept.event
    | (intro) | extract_lets | split

/-! ### Labels -/

theorem Kept.memberCmd {s0 s : Dev} (h : Kept s0 s) (m : Nat) (op : MOp) (lba nlb : Nat) (pl : MPayload) (fua share scrub : Bool) (why : Purpose) :
    Kept s0 (s.memberCmd m op lba nlb pl fua share scrub why) := by
  unfold Dev.memberCmd
  repeat' first
    | with_reducible first | assumption | apply Kept.onMpt
    | (intro) | extract_lets | split

theorem Kept.memberAdmin {s0 s : Dev} (h : Kept s0 s) (m : Nat) (c : AdminCmd) : Kept s0 (s.memberAdmin m c) := by
  unfold Dev.memberAdmin
  repeat' first
    | with_reducible first | assumption | apply Kept.emit
    | (intro) | extract_lets | split

theorem Kept.labelWrite {s0 s : Dev} (h : Kept s0 s) (m lba nlb : Nat) (pl : MPayload) (fua : Bool) (why : Purpose) :
    Kept s0 (s.labelWrite m lba nlb pl fua why) := by
  unfold Dev.labelWrite
  repeat' first
    | with_reducible first | assumption | apply Kept.memberCmd
    | (intro) | extract_lets | split

theorem Kept.ringWrite {s0 s : Dev} (h : Kept s0 s) (m : Nat) (slot : Bool) (place format : Nat) (l : Label) (why : Purpose) :
    Kept s0 (s.ringWrite m slot place format l why) := by
  unfold Dev.ringWrite
  repeat' first
    | with_reducible first | assumption | apply Kept.labelWrite
    | (intro) | extract_lets | split

theorem Kept.putLabel {s0 s : Dev} (h : Kept s0 s) (m : Member) (l : Label) (why : Purpose) : Kept s0 (s.putLabel m l why) := by
  unfold Dev.putLabel
  repeat' first
    | with_reducible first | assumption | apply Kept.ringWrite | apply Kept.onMember | apply Kept.labelWrite
    | (intro) | extract_lets | split

theorem Kept.writeLabel {s0 s : Dev} (h : Kept s0 s) (f : Field) (m : Nat) : Kept s0 (s.writeLabel f m) := by
  unfold Dev.writeLabel
  repeat' first
    | with_reducible first | assumption | apply Kept.putLabel
    | (intro) | extract_lets | split

theorem Kept.writeBare {s0 s : Dev} (h : Kept s0 s) (kind : BitVec 8) (m : Nat) : Kept s0 (s.writeBare kind m) := by
  unfold Dev.writeBare
  repeat' first
    | with_reducible first | assumption | apply Kept.putLabel | apply Kept.onMpt
    | (intro) | extract_lets | split

theorem Kept.writeLost {s0 s : Dev} (h : Kept s0 s) (f : Field) (m : Nat) : Kept s0 (s.writeLost f m) := by
  unfold Dev.writeLost
  repeat' first
    | with_reducible first | assumption | apply Kept.labelWrite
    | (intro) | extract_lets | split

theorem Kept.changeLabel {s0 s : Dev} (h : Kept s0 s) (f : Nat) (next : LabelThen) : Kept s0 (s.changeLabel f next) := by
  unfold Dev.changeLabel
  repeat' first
    | with_reducible first | assumption | apply Kept.onField | refine Kept.each ?_ ?_ | apply Kept.writeLabel
                           | apply Kept.writeLost | apply Kept.writeBare | apply Kept.ite
    | exact id | exact .same rfl rfl rfl rfl rfl rfl rfl | (intro) | extract_lets | split

theorem Kept.labelLanded {s0 s : Dev} (h : Kept s0 s) (f gen : Nat) (k : LabelPart) (m : Nat) :
    Kept s0 (s.labelLanded f gen k m).1 := by
  unfold Dev.labelLanded
  repeat' first
    | with_reducible first | assumption | apply Kept.onField
    | (intro) | extract_lets | split

theorem Kept.copyLanded {s0 s : Dev} (h : Kept s0 s) (m lba : Nat) : Kept s0 (s.copyLanded m lba) := by
  unfold Dev.copyLanded
  repeat' first
    | with_reducible first | assumption | apply Kept.onMember
    | (intro) | extract_lets | split

theorem Kept.startReplica {s0 s : Dev} (h : Kept s0 s) (f : Nat) : Kept s0 (s.startReplica f) := by
  unfold Dev.startReplica
  repeat' first
    | with_reducible first | assumption | apply Kept.onField | refine Kept.each ?_ ?_ | apply Kept.count
                           | apply Kept.labelWrite
    | (intro) | extract_lets | split

theorem Kept.replicaLanded {s0 s : Dev} (h : Kept s0 s) (f m : Nat) : Kept s0 (s.replicaLanded f m) := by
  unfold Dev.replicaLanded
  repeat' first
    | with_reducible first | assumption | apply Kept.onField | apply Kept.startReplica
    | (intro) | extract_lets | split

theorem Kept.urgentReplica {s0 s : Dev} (h : Kept s0 s) (f : Field) (fine : Bool) (r : Nat) :
    Kept s0 (s.urgentReplica f fine r) := by
  unfold Dev.urgentReplica
  repeat' first
    | with_reducible first | assumption | apply Kept.count | apply Kept.onField | apply Kept.startReplica
    | (intro) | extract_lets | split

theorem Kept.writeProgress {s0 s : Dev} (h : Kept s0 s) (f : Nat) : Kept s0 (s.writeProgress f) := by
  unfold Dev.writeProgress
  repeat' first
    | with_reducible first | assumption | apply Kept.onField | refine Kept.each ?_ ?_ | apply Kept.labelWrite
    | (intro) | extract_lets | split

theorem Kept.writeCheckpoint {s0 s : Dev} (h : Kept s0 s) (f : Nat) : Kept s0 (s.writeCheckpoint f) := by
  unfold Dev.writeCheckpoint
  repeat' first
    | with_reducible first | assumption | apply Kept.onField | refine Kept.each ?_ ?_ | apply Kept.labelWrite
    | (intro) | extract_lets | split

theorem Kept.clearRegion {s0 s : Dev} (h : Kept s0 s) (m : Nat) : Kept s0 (s.clearRegion m) := by
  unfold Dev.clearRegion
  repeat' first
    | with_reducible first | assumption | apply Kept.labelWrite | apply Kept.onMember
    | (intro) | extract_lets | split

/-! ### Hod -/

theorem Kept.onLine {s0 s : Dev} (h : Kept s0 s) (i : Nat) (f : HodLine → HodLine) : Kept s0 (s.onLine i f) := by
  unfold Dev.onLine
  repeat' first
    | with_reducible first | assumption | apply Kept.onHod
    | (intro) | extract_lets | split

theorem Kept.onVictim {s0 s : Dev} (h : Kept s0 s) (i : Nat) (f : HodLine → HodLine) : Kept s0 (s.onVictim i f) := by
  unfold Dev.onVictim
  repeat' first
    | with_reducible first | assumption | apply Kept.onHod
    | (intro) | extract_lets | split

theorem Kept.onPins {s0 s : Dev} (h : Kept s0 s) (i : Nat) (f : Nat → Nat) : Kept s0 (s.onPins i f) := by
  unfold Dev.onPins
  repeat' first
    | with_reducible first | assumption | apply Kept.onHod | apply Kept.onLine
    | (intro) | extract_lets | split

theorem Kept.pin {s0 s : Dev} (h : Kept s0 s) (j i : Nat) : Kept s0 (s.pin j i) := by
  unfold Dev.pin
  repeat' first
    | with_reducible first | assumption | apply Kept.onPins | apply Kept.onJob
    | (intro) | extract_lets | split

theorem Kept.unpin {s0 s : Dev} (h : Kept s0 s) (j : Nat) : Kept s0 (s.unpin j) := by
  unfold Dev.unpin
  repeat' first
    | with_reducible first | assumption | refine Kept.each ?_ ?_ | apply Kept.onPins | apply Kept.onJob
    | (intro) | extract_lets | split

theorem Kept.useReg {s0 s : Dev} (h : Kept s0 s) (r : MissReg) : Kept s0 (s.useReg r) := by
  unfold Dev.useReg
  repeat' first
    | with_reducible first | assumption | apply Kept.onHod
    | (intro) | extract_lets | split

theorem Kept.hodInsert {s0 s : Dev} (h : Kept s0 s) (l : HodLine) : Kept s0 (s.hodInsert l).1 := by
  unfold Dev.hodInsert
  repeat' first
    | with_reducible first | assumption | apply Kept.count | apply Kept.onLine | apply Kept.onVictim | apply Kept.onHod
                           | apply Kept.useReg
    | (intro) | extract_lets | split

theorem Kept.hodWrite {s0 s : Dev} (h : Kept s0 s) (f c : Nat) (g : Bool) (o : Nat) (p q : Option Block) :
    Kept s0 (s.hodWrite f c g o p q) := by
  unfold Dev.hodWrite
  repeat' first
    | with_reducible first | assumption | apply Kept.onHod
    | (intro) | extract_lets | split

theorem Kept.hodFillGen {s0 s : Dev} (h : Kept s0 s) (f : Field) (c : Nat) (g : Bool) (stream : Bool) (rows : List (Nat × Block × Block)) :
    Kept s0 (s.hodFillGen f c g stream rows) := by
  unfold Dev.hodFillGen
  repeat' first
    | with_reducible first | assumption | refine Kept.each ?_ ?_ | apply Kept.onLine | apply Kept.hodInsert
                           | refine Kept.when ?_ ?_ | apply Kept.count | refine Kept.foldl Prod.fst ?_ _ ?_
    | (intro) | extract_lets | split

theorem Kept.waitOn {s0 s : Dev} (h : Kept s0 s) (j : Nat) (r : MissReg) : Kept s0 (s.waitOn j r).1 := by
  unfold Dev.waitOn
  repeat' first
    | with_reducible first | assumption | apply Kept.count | apply Kept.onHod | apply Kept.onJob | refine Kept.when ?_ ?_
    | (intro) | extract_lets | split

theorem Kept.hodLook {s0 s : Dev} (h : Kept s0 s) (j : Nat) (f : Field) (c : Nat) (g : Bool) (o : Nat) (again : Bool) :
    Kept s0 (s.hodLook j f c g o again).1 := by
  unfold Dev.hodLook
  repeat' first
    | with_reducible first | assumption | refine Kept.when ?_ ?_ | apply Kept.count | apply Kept.waitOn | apply Kept.onLine
                           | apply Kept.pin | apply Kept.onVictim | apply Kept.useReg | apply Kept.onJob
    | (intro) | extract_lets | split

theorem Kept.hodStartFill {s0 s : Dev} (h : Kept s0 s) (j : Nat) (f : Field) (c : Nat) (g : Bool) (sg : Nat) (rows : List Nat) :
    Kept s0 (s.hodStartFill j f c g sg rows) := by
  unfold Dev.hodStartFill
  repeat' first
    | with_reducible first | assumption | apply Kept.count | apply Kept.onLine | apply Kept.pin | apply Kept.useReg
                           | apply Kept.hodInsert | apply Kept.onHod
    | (intro) | extract_lets | split

theorem Kept.hodLandFill {s0 s : Dev} (h : Kept s0 s) (r : MissReg) (rows : List (Nat × Option (Block × Block))) :
    Kept s0 (s.hodLandFill r rows) := by
  unfold Dev.hodLandFill
  repeat' first
    | with_reducible first | assumption | apply Kept.onHod | apply Kept.count | apply Kept.countN
                           | refine Kept.foldl Prod.fst ?_ _ ?_
    | (intro) | extract_lets | split

theorem Kept.hodInvalidate {s0 s : Dev} (h : Kept s0 s) : Kept s0 (s.hodInvalidate) := by
  unfold Dev.hodInvalidate
  repeat' first
    | with_reducible first | assumption | apply Kept.onHod
    | (intro) | extract_lets | split

theorem Kept.hodEmpty {s0 s : Dev} (h : Kept s0 s) : Kept s0 (s.hodEmpty) := by
  unfold Dev.hodEmpty
  repeat' first
    | with_reducible first | assumption | apply Kept.onHod | apply Kept.onCache
    | (intro) | extract_lets | split

theorem Kept.hodErr {s0 s : Dev} (h : Kept s0 s) : Kept s0 (s.hodErr) := by
  unfold Dev.hodErr
  repeat' first
    | with_reducible first | assumption | apply Kept.count | apply Kept.onHod | apply Kept.hodInvalidate | apply Kept.record
                           | apply Kept.event
    | (intro) | extract_lets | split

theorem Kept.hodClear {s0 s : Dev} (h : Kept s0 s) (e : Nat) : Kept s0 (s.hodClear e) := by
  unfold Dev.hodClear
  repeat' first
    | with_reducible first | assumption | apply Kept.onLine | apply Kept.onVictim
    | (intro) | extract_lets | split

theorem Kept.hodError {s0 s : Dev} (h : Kept s0 s) (e : HodError) : Kept s0 (s.hodError e) := by
  unfold Dev.hodError
  repeat' first
    | with_reducible first | assumption | apply Kept.count | apply Kept.record | apply Kept.hodClear | apply Kept.hodErr
                           | refine Kept.each ?_ ?_
    | (intro) | extract_lets | split

theorem Kept.hodMoved {s0 s : Dev} (h : Kept s0 s) (r : MissReg) : Kept s0 (s.hodMoved r) := by
  unfold Dev.hodMoved
  repeat' first
    | with_reducible first | assumption | apply Kept.onHod | apply Kept.useReg | apply Kept.count | apply Kept.onVictim
                           | refine Kept.when ?_ ?_ | apply Kept.onLine
    | (intro) | extract_lets | split

theorem Kept.hodAge {s0 s : Dev} (h : Kept s0 s) : Kept s0 (s.hodAge) := by
  unfold Dev.hodAge
  repeat' first
    | with_reducible first | assumption | apply Kept.count | apply Kept.onHod
    | (intro) | extract_lets | split

theorem Kept.hodInvalidated {s0 s : Dev} (h : Kept s0 s) : Kept s0 (s.hodInvalidated) := by
  unfold Dev.hodInvalidated
  repeat' first
    | with_reducible first | assumption | apply Kept.record | apply Kept.onHod
    | (intro) | extract_lets | split

end Sys2Proof.Safety
end

