-- ==== Sys2Proof/Laws/KeepsJobs.lean ====
section
/-!
SUPPORT. What every function over the block keeps (`Safety.Kept`): the jobs of the drill and the mortar engine. Each lemma names its function.
-/

namespace Sys2Proof.Safety

open Sys2Proof.Machine

/-! ### Drill -/

theorem Kept.queueLocks {s0 s : Dev} (h : Kept s0 s) (j : Job) : Kept s0 (s.queueLocks j) := by
  unfold Dev.queueLocks
  repeat' first
    | with_reducible first | assumption | refine Kept.each ?_ ?_ | apply Kept.makeCtx | apply Kept.onCtx
                           | apply Kept.onCache
    | (intro) | extract_lets | split

theorem Kept.startJob {s0 s : Dev} (h : Kept s0 s) (j : Job) : Kept s0 (s.startJob j) := by
  unfold Dev.startJob
  repeat' first
    | with_reducible first | assumption | apply Kept.onCache | apply Kept.queueLocks
    | (intro) | extract_lets | split

theorem Kept.takeLocks {s0 s : Dev} (h : Kept s0 s) (j : Job) : Kept s0 (s.takeLocks j) := by
  unfold Dev.takeLocks
  repeat' first
    | with_reducible first | assumption | refine Kept.each ?_ ?_ | apply Kept.onCtx | apply Kept.onJob
    | (intro) | extract_lets | split

theorem Kept.freeCtxs {s0 s : Dev} (h : Kept s0 s) : Kept s0 (s.freeCtxs) := by
  unfold Dev.freeCtxs
  repeat' first
    | with_reducible first | assumption | apply Kept.onCache | refine Kept.each ?_ ?_ | apply Kept.queueLocks
    | (intro) | extract_lets | split

theorem Kept.endJob {s0 s : Dev} (h : Kept s0 s) (id : Nat) : Kept s0 (s.endJob id) := by
  unfold Dev.endJob
  repeat' first
    | with_reducible first | assumption | apply Kept.unpin | apply Kept.dropGuard | apply Kept.onCache | apply Kept.onHod
                           | refine Kept.when ?_ ?_ | apply Kept.freeCtxs
    | (intro) | extract_lets | split

theorem Kept.erasure {s0 s : Dev} (h : Kept s0 s) (f : Field) (g : Bool) (c pos row n : Nat) (why : Cause) :
    Kept s0 (s.erasure f g c pos row n why).1 := by
  unfold Dev.erasure
  repeat' first
    | with_reducible first | assumption | apply Kept.count | apply Kept.record | apply Kept.onMember | apply Kept.ite
    | exact id | exact .same rfl rfl rfl rfl rfl rfl rfl | (intro) | extract_lets | split | (dsimp +zetaDelta only; split)
    | (dsimp only)

theorem Kept.addCell {s0 s : Dev} (h : Kept s0 s) (id : Nat) (f : Field) (g : Bool) (c pos row : Nat) :
    Kept s0 (s.addCell id f g c pos row) := by
  unfold Dev.addCell
  repeat' first
    | with_reducible first | assumption | apply Kept.onJob | apply Kept.erasure | apply Kept.count
    | (intro) | extract_lets | split

theorem Kept.addCells {s0 s : Dev} (h : Kept s0 s) (id : Nat) (f : Field) (g : Bool) (c row : Nat) (l : List Nat) :
    Kept s0 (s.addCells id f g c row l) := by
  unfold Dev.addCells
  repeat' first
    | with_reducible first | assumption | refine Kept.each ?_ ?_ | apply Kept.addCell
    | (intro) | extract_lets | split

theorem Kept.readCells {s0 s : Dev} (h : Kept s0 s) (id : Nat) : Kept s0 (s.readCells id) := by
  unfold Dev.readCells
  repeat' first
    | with_reducible first | assumption | refine Kept.each ?_ ?_ | apply Kept.memberCmd | apply Kept.onJob
                           | refine Kept.foldl Prod.fst ?_ _ ?_
    | (intro) | extract_lets | split

theorem Kept.toEngine {s0 s : Dev} (h : Kept s0 s) (id : Nat) : Kept s0 (s.toEngine id) := by
  unfold Dev.toEngine
  repeat' first
    | with_reducible first | assumption | apply Kept.stage | apply Kept.onJob | apply Kept.queueGuard
    | (intro) | extract_lets | split

theorem Kept.cellLanded {s0 s : Dev} (h : Kept s0 s) (id : Nat) (f : Field) (x : Cell) (b : Block) (m : Meta) :
    Kept s0 (s.cellLanded id f x b m) := by
  unfold Dev.cellLanded
  repeat' first
    | with_reducible first | assumption | apply Kept.onJob | apply Kept.erasure | apply Kept.count
    | (intro) | extract_lets | split

theorem Kept.cellsFailed {s0 s : Dev} (h : Kept s0 s) (id mid : Nat) (why : Cause) : Kept s0 (s.cellsFailed id mid why) := by
  unfold Dev.cellsFailed
  repeat' first
    | with_reducible first | assumption | apply Kept.erasure | apply Kept.onJob | apply Kept.count
                           | refine Kept.foldl Prod.fst ?_ _ ?_
    | (intro) | extract_lets | split

theorem Kept.cellsLanded {s0 s : Dev} (h : Kept s0 s) (id mid lba : Nat) (l : List (Block × Meta)) :
    Kept s0 (s.cellsLanded id mid lba l) := by
  unfold Dev.cellsLanded
  repeat' first
    | with_reducible first | assumption | refine Kept.each ?_ ?_ | apply Kept.cellLanded
    | (intro) | extract_lets | split

theorem Kept.hodFollow {s0 s : Dev} (h : Kept s0 s) (f : Field) (l : List WBlk) : Kept s0 (s.hodFollow f l) := by
  unfold Dev.hodFollow
  repeat' first
    | with_reducible first | assumption | refine Kept.each ?_ ?_ | apply Kept.hodWrite
    | (intro) | extract_lets | split

theorem Kept.hodGen {s0 s : Dev} (h : Kept s0 s) (j : Job) (f : Field) : Kept s0 (s.hodGen j f) := by
  unfold Dev.hodGen
  repeat' first
    | with_reducible first | assumption | apply Kept.hodFillGen
    | (intro) | extract_lets | split

theorem Kept.sendWrites {s0 s : Dev} (h : Kept s0 s) (id : Nat) : Kept s0 (s.sendWrites id) := by
  unfold Dev.sendWrites
  repeat' first
    | with_reducible first | assumption | apply Kept.hodGen | apply Kept.hodFollow | refine Kept.each ?_ ?_
                           | apply Kept.memberCmd | apply Kept.onJob | apply Kept.unpin | refine Kept.foldl Prod.fst ?_ _ ?_
    | (intro) | extract_lets | split

theorem Kept.leaveUnsealed {s0 s : Dev} (h : Kept s0 s) (fid c : Nat) : Kept s0 (s.leaveUnsealed fid c) := by
  unfold Dev.leaveUnsealed
  repeat' first
    | with_reducible first | assumption | apply Kept.onField
    | (intro) | extract_lets | split

theorem Kept.addLost {s0 s : Dev} (h : Kept s0 s) (fid c : Nat) (mask : BitVec 32) (reason : Nat) :
    Kept s0 (s.addLost fid c mask reason) := by
  unfold Dev.addLost
  repeat' first
    | with_reducible first | assumption | apply Kept.leaveUnsealed | apply Kept.onField | apply Kept.record
                           | apply Kept.count
    | (intro) | extract_lets | split

theorem Kept.dropMask {s0 s : Dev} (h : Kept s0 s) (fid c : Nat) (mask : BitVec 32) : Kept s0 (s.dropMask fid c mask) := by
  unfold Dev.dropMask
  repeat' first
    | with_reducible first | assumption | apply Kept.onField | apply Kept.count | apply Kept.record
    | (intro) | extract_lets | split

theorem Kept.rowUnsolved {s0 s : Dev} (h : Kept s0 s) (id : Nat) (f : Field) (r : JRow) (bad : List Nat) (st : RowSt) :
    Kept s0 (s.rowUnsolved id f r bad st) := by
  unfold Dev.rowUnsolved
  repeat' first
    | with_reducible first | assumption | apply Kept.count | apply Kept.record | apply Kept.onJob
                           | refine Kept.foldl Prod.fst ?_ _ ?_
    | (intro) | extract_lets | split

theorem Kept.rowSolved {s0 s : Dev} (h : Kept s0 s) (id : Nat) (f : Field) (r : JRow) (d : List Block) (p q : Block) (stale : Option Nat) (heal : Bool) :
    Kept s0 (s.rowSolved id f r d p q stale heal) := by
  unfold Dev.rowSolved
  repeat' first
    | with_reducible first | assumption | apply Kept.erasure | apply Kept.record | apply Kept.count | apply Kept.onJob
    | (intro) | extract_lets | split

theorem Kept.countSearch {s0 s : Dev} (h : Kept s0 s) (f : Field) (j : Job) (r : JRow) : Kept s0 (s.countSearch f j r) := by
  unfold Dev.countSearch
  repeat' first
    | with_reducible first | assumption | apply Kept.count
    | (intro) | extract_lets | split

/-! ### Work -/

theorem Kept.deliver {s0 s : Dev} (h : Kept s0 s) (fid lba : Nat) (b : Block) (t : Meta) : Kept s0 (s.deliver fid lba b t) := by
  unfold Dev.deliver
  repeat' first
    | with_reducible first | assumption | apply Kept.onQs | apply Kept.stage
    | (intro) | extract_lets | split

theorem Kept.failBlk {s0 s : Dev} (h : Kept s0 s) (cmd : Option Nat) (lba : Nat) (st : BitVec 16) :
    Kept s0 (s.failBlk cmd lba st) := by
  unfold Dev.failBlk
  repeat' first
    | with_reducible first | assumption | apply Kept.onCmd
    | (intro) | extract_lets | split

theorem Kept.hodCells {s0 s : Dev} (h : Kept s0 s) (id : Nat) (f : Field) (g : Bool) (c o : Nat) :
    Kept s0 (s.hodCells id f g c o) := by
  unfold Dev.hodCells
  repeat' first
    | with_reducible first | assumption | apply Kept.onJob
    | (intro) | extract_lets | split

theorem Kept.lookRow {s0 s : Dev} (h : Kept s0 s) (id : Nat) (f : Field) (g : Bool) (c o : Nat) (again : Bool) :
    Kept s0 (s.lookRow id f g c o again).1 := by
  unfold Dev.lookRow
  repeat' first
    | with_reducible first | assumption | apply Kept.hodLook | apply Kept.hodCells | apply Kept.onJob
    | (intro) | extract_lets | split

theorem Kept.readWhole {s0 s : Dev} (h : Kept s0 s) (id : Nat) (f : Field) (r : JRow) : Kept s0 (s.readWhole id f r) := by
  unfold Dev.readWhole
  repeat' first
    | with_reducible first | assumption | apply Kept.lookRow | apply Kept.addCells | apply Kept.onJob
    | (intro) | extract_lets | split

theorem Kept.rereadRow {s0 s : Dev} (h : Kept s0 s) (id : Nat) (f : Field) (r : JRow) : Kept s0 (s.rereadRow id f r) := by
  unfold Dev.rereadRow
  repeat' first
    | with_reducible first | assumption | apply Kept.addCells | apply Kept.onJob
    | (intro) | extract_lets | split

theorem Kept.lostPathCells {s0 s : Dev} (h : Kept s0 s) (id : Nat) (f : Field) (d : Job) :
    Kept s0 (s.lostPathCells id f d) := by
  unfold Dev.lostPathCells
  repeat' first
    | with_reducible first | assumption | apply Kept.pathLost | apply Kept.onJob
    | (intro) | extract_lets | split

theorem Kept.beginSolve {s0 s : Dev} (h : Kept s0 s) (id : Nat) (f : Field) (holder : Option Job) :
    Kept s0 (s.beginSolve id f holder) := by
  unfold Dev.beginSolve
  repeat' first
    | with_reducible first | assumption | apply Kept.onJob | refine Kept.each ?_ ?_ | apply Kept.addCells
                           | apply Kept.lookRow | apply Kept.lostPathCells | apply Kept.readCells | apply Kept.toEngine
    | (intro) | extract_lets | split

theorem Kept.failRow {s0 s : Dev} (h : Kept s0 s) (j : Job) (f : Field) (r : JRow) (st : BitVec 16) :
    Kept s0 (s.failRow j f r st) := by
  unfold Dev.failRow
  repeat' first
    | with_reducible first | assumption | refine Kept.each ?_ ?_ | apply Kept.failBlk | apply Kept.onCmd
    | (intro) | extract_lets | split

theorem Kept.solveStep {s0 s : Dev} (h : Kept s0 s) (id : Nat) (f : Field) (r : JRow) : Kept s0 (s.solveStep id f r) := by
  unfold Dev.solveStep
  repeat' first
    | with_reducible first | assumption | apply Kept.countSearch | apply Kept.readWhole | apply Kept.rereadRow
                           | refine Kept.each ?_ ?_ | apply Kept.deliver | apply Kept.onCmd | apply Kept.rowSolved
                           | apply Kept.onJob | apply Kept.failRow | apply Kept.rowUnsolved
    | (intro) | extract_lets | split

theorem Kept.enginePass {s0 s : Dev} (h : Kept s0 s) (id : Nat) (step : Dev → JRow → Dev) (hstep : ∀ x a1, Kept s0 x → Kept s0 (step x a1)) :
    Kept s0 (s.enginePass id step) := by
  unfold Dev.enginePass
  repeat' first
    | with_reducible first | assumption | refine Kept.each ?_ ?_ | apply Kept.readCells | apply Kept.toEngine | apply hstep
    | (intro) | extract_lets | split

theorem Kept.listLost {s0 s : Dev} (h : Kept s0 s) (id : Nat) (reason : Option Nat) : Kept s0 (s.listLost id reason) := by
  unfold Dev.listLost
  repeat' first
    | with_reducible first | assumption | apply Kept.addLost
    | (intro) | extract_lets | split

theorem Kept.solveDone {s0 s : Dev} (h : Kept s0 s) (id : Nat) : Kept s0 (s.solveDone id) := by
  unfold Dev.solveDone
  repeat' first
    | with_reducible first | assumption | apply Kept.listLost | apply Kept.onJob
    | (intro) | extract_lets | split

theorem Kept.sealRead {s0 s : Dev} (h : Kept s0 s) (id : Nat) (f : Field) (r : JRow) : Kept s0 (s.sealRead id f r) := by
  unfold Dev.sealRead
  repeat' first
    | with_reducible first | assumption | apply Kept.addCells | apply Kept.onJob
    | (intro) | extract_lets | split

theorem Kept.sealGo {s0 s : Dev} (h : Kept s0 s) (id : Nat) : Kept s0 (s.sealGo id) := by
  unfold Dev.sealGo
  repeat' first
    | with_reducible first | assumption | apply Kept.endJob | apply Kept.onJob | apply Kept.queueGuard
    | (intro) | extract_lets | split

theorem Kept.startSeal {s0 s : Dev} (h : Kept s0 s) (id : Nat) : Kept s0 (s.startSeal id) := by
  unfold Dev.startSeal
  repeat' first
    | with_reducible first | assumption | apply Kept.endJob | apply Kept.onJob | apply Kept.queueLocks | apply Kept.sealGo
                           | refine Kept.each ?_ ?_ | apply Kept.sealRead | apply Kept.readCells | apply Kept.toEngine
                           | apply Kept.ite
    | exact id | exact .same rfl rfl rfl rfl rfl rfl rfl | (intro) | extract_lets | split

theorem Kept.sealRow {s0 s : Dev} (h : Kept s0 s) (id : Nat) (f : Field) (r : JRow) : Kept s0 (s.sealRow id f r) := by
  unfold Dev.sealRow
  repeat' first
    | with_reducible first | assumption | apply Kept.onJob | apply Kept.addLost | refine Kept.foldl Prod.fst ?_ _ ?_
    | (intro) | extract_lets | split

theorem Kept.sealSolve {s0 s : Dev} (h : Kept s0 s) (id : Nat) (f : Field) : Kept s0 (s.sealSolve id f) := by
  unfold Dev.sealSolve
  repeat' first
    | with_reducible first | assumption | refine Kept.each ?_ ?_ | apply Kept.sealRow | apply Kept.sealGo
    | (intro) | extract_lets | split

theorem Kept.sealLanded {s0 s : Dev} (h : Kept s0 s) (id : Nat) : Kept s0 (s.sealLanded id) := by
  unfold Dev.sealLanded
  repeat' first
    | with_reducible first | assumption | apply Kept.endJob | apply Kept.dropMask
    | (intro) | extract_lets | split

theorem Kept.lookRows {s0 s : Dev} (h : Kept s0 s) (id : Nat) (f : Field) (g : Bool) (c : Nat) (rows : List Nat) :
    Kept s0 (s.lookRows id f g c rows).1 := by
  unfold Dev.lookRows
  repeat' first
    | with_reducible first | assumption | apply Kept.lookRow | refine Kept.foldl Prod.fst ?_ _ ?_
    | (intro) | extract_lets | split

theorem Kept.beginDestage {s0 s : Dev} (h : Kept s0 s) (id : Nat) (f : Field) : Kept s0 (s.beginDestage id f) := by
  unfold Dev.beginDestage
  repeat' first
    | with_reducible first | assumption | apply Kept.onJob | apply Kept.count | apply Kept.urgentReplica
                           | refine Kept.each ?_ ?_ | apply Kept.addCells | apply Kept.hodCells | apply Kept.lookRows
                           | apply Kept.hodStartFill | apply Kept.endJob | apply Kept.readCells | apply Kept.toEngine
                           | refine Kept.foldl Prod.fst ?_ _ ?_ | apply Kept.ite
    | exact id | exact .same rfl rfl rfl rfl rfl rfl rfl | (intro) | extract_lets | split

theorem Kept.destageRow {s0 s : Dev} (h : Kept s0 s) (id : Nat) (f : Field) (r : JRow) (p q : Block) (heals : List WBlk) :
    Kept s0 (s.destageRow id f r p q heals) := by
  unfold Dev.destageRow
  repeat' first
    | with_reducible first | assumption | apply Kept.onJob
    | (intro) | extract_lets | split

theorem Kept.destageStep {s0 s : Dev} (h : Kept s0 s) (id : Nat) (f : Field) (r : JRow) : Kept s0 (s.destageStep id f r) := by
  unfold Dev.destageStep
  repeat' first
    | with_reducible first | assumption | apply Kept.destageRow | apply Kept.addCells | apply Kept.readWhole
                           | apply Kept.countSearch | apply Kept.rowUnsolved | apply Kept.rereadRow | apply Kept.rowSolved
                           | apply Kept.ite
    | exact id | exact .same rfl rfl rfl rfl rfl rfl rfl | (intro) | extract_lets | split | (dsimp +zetaDelta only; split)
    | (dsimp only)

theorem Kept.destageDone {s0 s : Dev} (h : Kept s0 s) (id : Nat) : Kept s0 (s.destageDone id) := by
  unfold Dev.destageDone
  repeat' first
    | with_reducible first | assumption | apply Kept.listLost | apply Kept.endJob | apply Kept.onJob | apply Kept.queueGuard
                           | apply Kept.ite
    | exact id | exact .same rfl rfl rfl rfl rfl rfl rfl | (intro) | extract_lets | split

theorem Kept.cleanLines {s0 s : Dev} (h : Kept s0 s) (f : Nat) (l : List (Nat × Nat × Block × Meta)) :
    Kept s0 (s.cleanLines f l) := by
  unfold Dev.cleanLines
  repeat' first
    | with_reducible first | assumption | apply Kept.onCache | apply Kept.onTwn
    | (intro) | extract_lets | split

theorem Kept.destageLanded {s0 s : Dev} (h : Kept s0 s) (id : Nat) : Kept s0 (s.destageLanded id) := by
  unfold Dev.destageLanded
  repeat' first
    | with_reducible first | assumption | apply Kept.endJob | apply Kept.cleanLines | apply Kept.dropMask
                           | apply Kept.startSeal | apply Kept.ite
    | exact id | exact .same rfl rfl rfl rfl rfl rfl rfl | (intro) | extract_lets | split

theorem Kept.beginRebuild {s0 s : Dev} (h : Kept s0 s) (id : Nat) (f : Field) : Kept s0 (s.beginRebuild id f) := by
  unfold Dev.beginRebuild
  repeat' first
    | with_reducible first | assumption | apply Kept.onJob | refine Kept.each ?_ ?_ | apply Kept.lookRow
                           | apply Kept.addCells | apply Kept.readCells | apply Kept.toEngine
    | (intro) | extract_lets | split

theorem Kept.chargeRow {s0 s : Dev} (h : Kept s0 s) (j : Job) (r : JRow) : Kept s0 (s.chargeRow j r) := by
  unfold Dev.chargeRow
  repeat' first
    | with_reducible first | assumption | apply Kept.onMpt
    | (intro) | extract_lets | split

theorem Kept.rebuildStep {s0 s : Dev} (h : Kept s0 s) (id : Nat) (f : Field) (r : JRow) : Kept s0 (s.rebuildStep id f r) := by
  unfold Dev.rebuildStep
  repeat' first
    | with_reducible first | assumption | apply Kept.chargeRow | apply Kept.countSearch | apply Kept.onJob
                           | apply Kept.readWhole | apply Kept.rereadRow | apply Kept.rowSolved | apply Kept.rowUnsolved
    | (intro) | extract_lets | split

theorem Kept.workDone {s0 s : Dev} (h : Kept s0 s) (id : Nat) (reason : Option Nat) : Kept s0 (s.workDone id reason) := by
  unfold Dev.workDone
  repeat' first
    | with_reducible first | assumption | apply Kept.listLost | apply Kept.sendWrites
    | (intro) | extract_lets | split

theorem Kept.rebuildLanded {s0 s : Dev} (h : Kept s0 s) (id : Nat) : Kept s0 (s.rebuildLanded id) := by
  unfold Dev.rebuildLanded
  repeat' first
    | with_reducible first | assumption | apply Kept.onField | apply Kept.countN | apply Kept.writeProgress
                           | apply Kept.startSeal | apply Kept.endJob | apply Kept.ite
    | exact id | exact .same rfl rfl rfl rfl rfl rfl rfl | (intro) | extract_lets | split

theorem Kept.beginResync {s0 s : Dev} (h : Kept s0 s) (id : Nat) (f : Field) : Kept s0 (s.beginResync id f) := by
  unfold Dev.beginResync
  repeat' first
    | with_reducible first | assumption | apply Kept.onJob | refine Kept.each ?_ ?_ | apply Kept.addCells
                           | apply Kept.lookRow | apply Kept.readCells | apply Kept.toEngine
    | (intro) | extract_lets | split

theorem Kept.resyncStep {s0 s : Dev} (h : Kept s0 s) (id : Nat) (f : Field) (r : JRow) : Kept s0 (s.resyncStep id f r) := by
  unfold Dev.resyncStep
  repeat' first
    | with_reducible first | assumption | apply Kept.chargeRow | apply Kept.countSearch | apply Kept.readWhole
                           | apply Kept.rereadRow | apply Kept.count | apply Kept.onJob | apply Kept.rowUnsolved
    | (intro) | extract_lets | split

theorem Kept.courseRecord {s0 s : Dev} (h : Kept s0 s) (code fid count first : Nat) :
    Kept s0 (s.courseRecord code fid count first) := by
  unfold Dev.courseRecord
  repeat' first
    | with_reducible first | assumption | apply Kept.record
    | (intro) | extract_lets | split

theorem Kept.regionRecord {s0 s : Dev} (h : Kept s0 s) (code fid : Nat) (rs : List (Bool × Nat)) :
    Kept s0 (s.regionRecord code fid rs) := by
  unfold Dev.regionRecord
  repeat' first
    | with_reducible first | assumption | apply Kept.courseRecord | refine Kept.foldl Prod.fst ?_ _ ?_
    | (intro) | extract_lets | split

theorem Kept.resyncDone {s0 s : Dev} (h : Kept s0 s) (id : Nat) : Kept s0 (s.resyncDone id) := by
  unfold Dev.resyncDone
  repeat' first
    | with_reducible first | assumption | apply Kept.courseRecord | apply Kept.workDone
    | (intro) | extract_lets | split

theorem Kept.courseSynced {s0 s : Dev} (h : Kept s0 s) (fid c : Nat) (g : Bool) : Kept s0 (s.courseSynced fid c g) := by
  unfold Dev.courseSynced
  repeat' first
    | with_reducible first | assumption | apply Kept.onField | apply Kept.count | refine Kept.when ?_ ?_
                           | apply Kept.dropSlots | apply Kept.courseRecord | refine Kept.foldl Prod.fst ?_ _ ?_
    | (intro) | extract_lets | split

theorem Kept.resyncLanded {s0 s : Dev} (h : Kept s0 s) (id : Nat) : Kept s0 (s.resyncLanded id) := by
  unfold Dev.resyncLanded
  repeat' first
    | with_reducible first | assumption | apply Kept.courseSynced | apply Kept.startSeal | apply Kept.endJob
    | (intro) | extract_lets | split

theorem Kept.beginScrub {s0 s : Dev} (h : Kept s0 s) (id : Nat) (f : Field) (holder : Option Job) :
    Kept s0 (s.beginScrub id f holder) := by
  unfold Dev.beginScrub
  repeat' first
    | with_reducible first | assumption | apply Kept.onJob | refine Kept.each ?_ ?_ | apply Kept.addCells
                           | apply Kept.lostPathCells | apply Kept.readCells | apply Kept.toEngine
    | (intro) | extract_lets | split

theorem Kept.scrubRecord {s0 s : Dev} (h : Kept s0 s) (code : Nat) (f : Field) (pos : Nat) (r : JRow) :
    Kept s0 (s.scrubRecord code f pos r) := by
  unfold Dev.scrubRecord
  repeat' first
    | with_reducible first | assumption | apply Kept.record | apply Kept.count
    | (intro) | extract_lets | split

theorem Kept.syndromeAction {s0 s : Dev} (h : Kept s0 s) (id : Nat) (f : Field) (r : JRow) (d : List Block) (p q : Block) :
    Kept s0 (s.syndromeAction id f r d p q) := by
  unfold Dev.syndromeAction
  repeat' first
    | with_reducible first | assumption | apply Kept.onJob | apply Kept.scrubRecord
    | (intro) | extract_lets | split

theorem Kept.scrubStep {s0 s : Dev} (h : Kept s0 s) (id : Nat) (f : Field) (r : JRow) : Kept s0 (s.scrubStep id f r) := by
  unfold Dev.scrubStep
  repeat' first
    | with_reducible first | assumption | apply Kept.countSearch | apply Kept.rowUnsolved | apply Kept.rereadRow
                           | apply Kept.rowSolved | apply Kept.syndromeAction
    | (intro) | extract_lets | split

theorem Kept.scrubLanded {s0 s : Dev} (h : Kept s0 s) (id : Nat) : Kept s0 (s.scrubLanded id) := by
  unfold Dev.scrubLanded
  repeat' first
    | with_reducible first | assumption | apply Kept.count | apply Kept.onField | apply Kept.startSeal | apply Kept.endJob
    | (intro) | extract_lets | split

theorem Kept.beginLostLine {s0 s : Dev} (h : Kept s0 s) (id : Nat) (f : Field) : Kept s0 (s.beginLostLine id f) := by
  unfold Dev.beginLostLine
  repeat' first
    | with_reducible first | assumption | refine Kept.each ?_ ?_ | apply Kept.lookRow | apply Kept.addCells
                           | apply Kept.readCells | apply Kept.toEngine
    | (intro) | extract_lets | split

theorem Kept.lostLineStep {s0 s : Dev} (h : Kept s0 s) (id : Nat) (f : Field) (r : JRow) : Kept s0 (s.lostLineStep id f r) := by
  unfold Dev.lostLineStep
  repeat' first
    | with_reducible first | assumption | apply Kept.onJob | apply Kept.readWhole | apply Kept.rereadRow
    | (intro) | extract_lets | split

theorem Kept.lostLineDone {s0 s : Dev} (h : Kept s0 s) (id : Nat) : Kept s0 (s.lostLineDone id) := by
  unfold Dev.lostLineDone
  repeat' first
    | with_reducible first | assumption | apply Kept.endJob | apply Kept.onJob | apply Kept.queueGuard
    | (intro) | extract_lets | split

theorem Kept.lostLineLanded {s0 s : Dev} (h : Kept s0 s) (id : Nat) : Kept s0 (s.lostLineLanded id) := by
  unfold Dev.lostLineLanded
  repeat' first
    | with_reducible first | assumption | apply Kept.endJob
    | (intro) | extract_lets | split

theorem Kept.loseLine {s0 s : Dev} (h : Kept s0 s) (fid lba : Nat) : Kept s0 (s.loseLine fid lba) := by
  unfold Dev.loseLine
  repeat' first
    | with_reducible first | assumption | apply Kept.count | apply Kept.record | apply Kept.onCache | apply Kept.addLost
                           | apply Kept.startJob | apply Kept.lostLine
    | (intro) | extract_lets | split

/-! ### Reshape -/

theorem Kept.putRecord {s0 s : Dev} (h : Kept s0 s) (fid : Nat) (g : RsRecord → RsRecord) : Kept s0 (s.putRecord fid g) := by
  unfold Dev.putRecord
  repeat' first
    | with_reducible first | assumption | apply Kept.onField | apply Kept.header
    | (intro) | extract_lets | split

theorem Kept.stepSlot {s0 s : Dev} (h : Kept s0 s) (f : Field) : Kept s0 (s.stepSlot f) := by
  unfold Dev.stepSlot
  repeat' first
    | with_reducible first | assumption | apply Kept.onField | apply Kept.header | apply Kept.onCache
    | (intro) | extract_lets | split

theorem Kept.acceptReshape {s0 s : Dev} (h : Kept s0 s) (fid : Nat) (r : RsRecord) (next : List MPos) (p : Option MbxPath) :
    Kept s0 (s.acceptReshape fid r next p) := by
  unfold Dev.acceptReshape
  repeat' first
    | with_reducible first | assumption | apply Kept.releaseFine | apply Kept.onField
    | (intro) | extract_lets | split

theorem Kept.stepPend {s0 s : Dev} (h : Kept s0 s) (f : Field) : Kept s0 (s.stepPend f) := by
  unfold Dev.stepPend
  repeat' first
    | with_reducible first | assumption | apply Kept.header
    | (intro) | extract_lets | split

theorem Kept.freeReshape {s0 s : Dev} (h : Kept s0 s) (fid : Nat) : Kept s0 (s.freeReshape fid) := by
  unfold Dev.freeReshape
  repeat' first
    | with_reducible first | assumption | apply Kept.header
    | (intro) | extract_lets | split

theorem Kept.copyFails {s0 s : Dev} (h : Kept s0 s) (f : Field) (target : Bool) : Kept s0 (s.copyFails f target) := by
  unfold Dev.copyFails
  repeat' first
    | with_reducible first | assumption | refine Kept.each ?_ ?_ | apply Kept.endJob | apply Kept.onField
                           | apply Kept.record | apply Kept.writeProgress | apply Kept.changeLabel | apply Kept.freeReshape
    | (intro) | extract_lets | split

theorem Kept.endCopy {s0 s : Dev} (h : Kept s0 s) (fid : Nat) : Kept s0 (s.endCopy fid) := by
  unfold Dev.endCopy
  repeat' first
    | with_reducible first | assumption | apply Kept.onMember | apply Kept.copyFails
    | (intro) | extract_lets | split

theorem Kept.reshapeStarted {s0 s : Dev} (h : Kept s0 s) (fid : Nat) : Kept s0 (s.reshapeStarted fid) := by
  unfold Dev.reshapeStarted
  repeat' first
    | with_reducible first | assumption | apply Kept.onField | refine Kept.when ?_ ?_ | apply Kept.header
                           | refine Kept.each ?_ ?_ | apply Kept.clearRegion | apply Kept.hodInvalidate | apply Kept.record
                           | apply Kept.changeLabel | apply Kept.endCopy
    | (intro) | extract_lets | split

theorem Kept.reshapeStep {s0 s : Dev} (h : Kept s0 s) (fid : Nat) : Kept s0 (s.reshapeStep fid) := by
  unfold Dev.reshapeStep
  repeat' first
    | with_reducible first | assumption | apply Kept.count | apply Kept.record | apply Kept.onField | apply Kept.startJob
                           | refine Kept.foldl Prod.fst ?_ _ ?_ | apply Kept.ite
    | exact id | exact .same rfl rfl rfl rfl rfl rfl rfl | (intro) | extract_lets | split

theorem Kept.loseBand {s0 s : Dev} (h : Kept s0 s) (f : Field) (r : RsRecord) (gone : List Nat) :
    Kept s0 (s.loseBand f r gone) := by
  unfold Dev.loseBand
  repeat' first
    | with_reducible first | assumption | refine Kept.each ?_ ?_ | apply Kept.addLost | apply Kept.record
                           | refine Kept.foldl Prod.fst ?_ _ ?_
    | (intro) | extract_lets | split

theorem Kept.beginReshape {s0 s : Dev} (h : Kept s0 s) (id : Nat) (f : Field) : Kept s0 (s.beginReshape id f) := by
  unfold Dev.beginReshape
  repeat' first
    | with_reducible first | assumption | apply Kept.endJob | apply Kept.onField | apply Kept.loseBand
                           | refine Kept.each ?_ ?_ | apply Kept.onJob | apply Kept.addCell | apply Kept.readCells
                           | apply Kept.toEngine | refine Kept.foldl Prod.fst ?_ _ ?_
    | (intro) | extract_lets | split

theorem Kept.reshapeRow {s0 s : Dev} (h : Kept s0 s) (id : Nat) (f : Field) (r : JRow) : Kept s0 (s.reshapeRow id f r) := by
  unfold Dev.reshapeRow
  repeat' first
    | with_reducible first | assumption | apply Kept.onJob | apply Kept.readWhole | apply Kept.chargeRow
                           | apply Kept.countSearch | apply Kept.rowUnsolved | apply Kept.addLost | apply Kept.rereadRow
                           | apply Kept.rowSolved | refine Kept.foldl Prod.fst ?_ _ ?_
    | (intro) | extract_lets | split

theorem Kept.reshapeFilled {s0 s : Dev} (h : Kept s0 s) (id : Nat) : Kept s0 (s.reshapeFilled id) := by
  unfold Dev.reshapeFilled
  repeat' first
    | with_reducible first | assumption | apply Kept.endJob | apply Kept.onJob | apply Kept.onField | refine Kept.each ?_ ?_
                           | apply Kept.placeLine | apply Kept.putRecord | refine Kept.foldl Prod.fst ?_ _ ?_
    | (intro) | extract_lets | split

theorem Kept.reshapeMove {s0 s : Dev} (h : Kept s0 s) (id : Nat) : Kept s0 (s.reshapeMove id) := by
  unfold Dev.reshapeMove
  repeat' first
    | with_reducible first | assumption | apply Kept.endJob | apply Kept.onMpt | apply Kept.onJob | apply Kept.onField
                           | apply Kept.sendWrites
    | (intro) | extract_lets | split

theorem Kept.reshapeLanded {s0 s : Dev} (h : Kept s0 s) (id : Nat) : Kept s0 (s.reshapeLanded id) := by
  unfold Dev.reshapeLanded
  repeat' first
    | with_reducible first | assumption | apply Kept.endJob | apply Kept.header | apply Kept.onField | apply Kept.onJob
    | (intro) | extract_lets | split

theorem Kept.stepCommitted {s0 s : Dev} (h : Kept s0 s) (fid : Nat) (new : RsRecord) : Kept s0 (s.stepCommitted fid new) := by
  unfold Dev.stepCommitted
  repeat' first
    | with_reducible first | assumption | apply Kept.onField | apply Kept.onCache | refine Kept.each ?_ ?_
                           | apply Kept.sendFrame | apply Kept.countN | apply Kept.endJob | apply Kept.writeCheckpoint
                           | refine Kept.foldl Prod.fst ?_ _ ?_
    | (intro) | extract_lets | split

theorem Kept.stepPause {s0 s : Dev} (h : Kept s0 s) (f : Field) : Kept s0 (s.stepPause f) := by
  unfold Dev.stepPause
  repeat' first
    | with_reducible first | assumption | apply Kept.putRecord | apply Kept.record
    | (intro) | extract_lets | split

theorem Kept.stepEnd {s0 s : Dev} (h : Kept s0 s) (f : Field) : Kept s0 (s.stepEnd f) := by
  unfold Dev.stepEnd
  repeat' first
    | with_reducible first | assumption | apply Kept.onField | refine Kept.each ?_ ?_ | apply Kept.onMember
                           | apply Kept.changeLabel | apply Kept.onCache
    | (intro) | extract_lets | split

theorem Kept.reshapeFreed {s0 s : Dev} (h : Kept s0 s) (slot : Nat) (r : RsRecord) : Kept s0 (s.reshapeFreed slot r) := by
  unfold Dev.reshapeFreed
  repeat' first
    | with_reducible first | assumption | apply Kept.hodInvalidate | apply Kept.onField | refine Kept.when ?_ ?_
                           | apply Kept.record
    | (intro) | extract_lets | split

theorem Kept.recordLanded {s0 s : Dev} (h : Kept s0 s) (slot : Nat) (new : RsRecord) : Kept s0 (s.recordLanded slot new) := by
  unfold Dev.recordLanded
  repeat' first
    | with_reducible first | assumption | apply Kept.reshapeStarted | apply Kept.stepCommitted | apply Kept.onField
    | (intro) | extract_lets | split

/-! ### Reads -/

theorem Kept.resyncFirst {s0 s : Dev} (h : Kept s0 s) (f : Field) (g : Bool) (c : Nat) : Kept s0 (s.resyncFirst f g c) := by
  unfold Dev.resyncFirst
  repeat' first
    | with_reducible first | assumption | apply Kept.startJob
    | (intro) | extract_lets | split

theorem Kept.startSolve {s0 s : Dev} (h : Kept s0 s) (cmd : Nat) (f : Field) (p : Place) (lba : Nat) (st : CellSt) (cause : BitVec 16 × BitVec 32) :
    Kept s0 (s.startSolve cmd f p lba st cause) := by
  unfold Dev.startSolve
  repeat' first
    | with_reducible first | assumption | apply Kept.count | apply Kept.stage | apply Kept.onJob | apply Kept.resyncFirst
                           | apply Kept.startJob
    | (intro) | extract_lets | split

theorem Kept.readBlock {s0 s : Dev} (h : Kept s0 s) (id : Nat) (f : Field) (lba : Nat) : Kept s0 (s.readBlock id f lba).1 := by
  unfold Dev.readBlock
  repeat' first
    | with_reducible first | assumption | apply Kept.failBlk | apply Kept.onCmd | apply Kept.onJob | apply Kept.erasure
                           | apply Kept.startSolve
    | (intro) | extract_lets | split

theorem Kept.hostReads {s0 s : Dev} (h : Kept s0 s) (id : Nat) (f : Field) (cells : List Cell) :
    Kept s0 (s.hostReads id f cells) := by
  unfold Dev.hostReads
  repeat' first
    | with_reducible first | assumption | refine Kept.each ?_ ?_ | apply Kept.memberCmd | apply Kept.hostRead
                           | refine Kept.foldl Prod.fst ?_ _ ?_
    | (intro) | extract_lets | split

theorem Kept.startRead {s0 s : Dev} (h : Kept s0 s) (id : Nat) : Kept s0 (s.startRead id) := by
  unfold Dev.startRead
  repeat' first
    | with_reducible first | assumption | apply Kept.onCmd | apply Kept.readBlock | apply Kept.hostReads
                           | refine Kept.foldl Prod.fst ?_ _ ?_
    | (intro) | extract_lets | split

theorem Kept.blockLanded {s0 s : Dev} (h : Kept s0 s) (id : Nat) (f : Field) (lba : Nat) (p : Place) (b : Block) (m : Meta) :
    Kept s0 (s.blockLanded id f lba p b m) := by
  unfold Dev.blockLanded
  repeat' first
    | with_reducible first | assumption | apply Kept.onCmd | apply Kept.failBlk | apply Kept.erasure | apply Kept.startSolve
    | (intro) | extract_lets | split

theorem Kept.readLanded {s0 s : Dev} (h : Kept s0 s) (id m lba n : Nat) (l : List (Block × Meta)) :
    Kept s0 (s.readLanded id m lba n l) := by
  unfold Dev.readLanded
  repeat' first
    | with_reducible first | assumption | refine Kept.each ?_ ?_ | apply Kept.blockLanded
    | (intro) | extract_lets | split

theorem Kept.readFailed {s0 s : Dev} (h : Kept s0 s) (id m lba n : Nat) (why : Cause) :
    Kept s0 (s.readFailed id m lba n why) := by
  unfold Dev.readFailed
  repeat' first
    | with_reducible first | assumption | apply Kept.erasure | refine Kept.each ?_ ?_ | apply Kept.failBlk
                           | apply Kept.startSolve
    | (intro) | extract_lets | split

theorem Kept.endRead {s0 s : Dev} (h : Kept s0 s) (c : Cmd) : Kept s0 (s.endRead c) := by
  unfold Dev.endRead
  repeat' first
    | with_reducible first | assumption | apply Kept.record | apply Kept.sendData | apply Kept.onCmd | apply Kept.finish
                           | apply Kept.ite
    | exact id | exact .same rfl rfl rfl rfl rfl rfl rfl | (intro) | extract_lets | split | (dsimp +zetaDelta only; split)
    | (dsimp only)

theorem Kept.endReads {s0 s : Dev} (h : Kept s0 s) : Kept s0 (s.endReads) := by
  unfold Dev.endReads
  repeat' first
    | with_reducible first | assumption | refine Kept.each ?_ ?_ | apply Kept.stage | apply Kept.endRead
    | (intro) | extract_lets | split

/-! ### Jobs -/

theorem Kept.putAgain {s0 s : Dev} (h : Kept s0 s) (f : Field) (l : Line) (plain : Block) : Kept s0 (s.putAgain f l plain) := by
  unfold Dev.putAgain
  repeat' first
    | with_reducible first | assumption | apply Kept.rewriteLine
    | (intro) | extract_lets | split

theorem Kept.refetch {s0 s : Dev} (h : Kept s0 s) (l : Line) (f : Field) : Kept s0 (s.refetch l f) := by
  unfold Dev.refetch
  repeat' first
    | with_reducible first | assumption | apply Kept.rewriteLine | apply Kept.putAgain | apply Kept.onCache
                           | refine Kept.each ?_ ?_ | apply Kept.hostRead
    | (intro) | extract_lets | split

theorem Kept.lostLine {s0 s : Dev} (h : Kept s0 s) (l : Line) : Kept s0 (s.lostLine l) := by
  unfold Dev.lostLine
  repeat' first
    | with_reducible first | assumption | apply Kept.onCache | apply Kept.rewriteLine | apply Kept.refetch
                           | apply Kept.loseLine
    | (intro) | extract_lets | split

theorem Kept.frameCorrected {s0 s : Dev} (h : Kept s0 s) (ch lba : Nat) : Kept s0 (s.frameCorrected ch lba) := by
  unfold Dev.frameCorrected
  repeat' first
    | with_reducible first | assumption | apply Kept.count | apply Kept.record
    | (intro) | extract_lets | split

theorem Kept.frameRecovered {s0 s : Dev} (h : Kept s0 s) (ch lba : Nat) : Kept s0 (s.frameRecovered ch lba) := by
  unfold Dev.frameRecovered
  repeat' first
    | with_reducible first | assumption | apply Kept.record
    | (intro) | extract_lets | split

theorem Kept.lineFault {s0 s : Dev} (h : Kept s0 s) (l : Line) (patrol : Bool) (k : FrameFault) :
    Kept s0 (s.lineFault l patrol k) := by
  unfold Dev.lineFault
  repeat' first
    | with_reducible first | assumption | apply Kept.frameCorrected | refine Kept.when ?_ ?_ | apply Kept.rewriteLine
                           | apply Kept.frameRecovered | apply Kept.lostLine
    | (intro) | extract_lets | split

theorem Kept.frameFault {s0 s : Dev} (h : Kept s0 s) (l : Line) (k : FrameFault) : Kept s0 (s.frameFault l k) := by
  unfold Dev.frameFault
  repeat' first
    | with_reducible first | assumption | apply Kept.onDrm | apply Kept.lineFault
    | (intro) | extract_lets | split

theorem Kept.frameFaults {s0 s : Dev} (h : Kept s0 s) (fid : Nat) (l : List (Nat × FrameFault)) :
    Kept s0 (s.frameFaults fid l) := by
  unfold Dev.frameFaults
  repeat' first
    | with_reducible first | assumption | refine Kept.each ?_ ?_ | apply Kept.frameFault
    | (intro) | extract_lets | split

theorem Kept.wake {s0 s : Dev} (h : Kept s0 s) (r : MissReg) (id : Nat) : Kept s0 (s.wake r id) := by
  unfold Dev.wake
  repeat' first
    | with_reducible first | assumption | apply Kept.onJob | apply Kept.stage | apply Kept.lookRow | refine Kept.each ?_ ?_
                           | apply Kept.hodStartFill | apply Kept.readCells | apply Kept.toEngine
                           | refine Kept.foldl Prod.fst ?_ _ ?_
    | (intro) | extract_lets | split

theorem Kept.giveErasures {s0 s : Dev} (h : Kept s0 s) (r : MissReg) (owner : Job) (id : Nat) :
    Kept s0 (s.giveErasures r owner id) := by
  unfold Dev.giveErasures
  repeat' first
    | with_reducible first | assumption | apply Kept.onJob
    | (intro) | extract_lets | split

theorem Kept.landFills {s0 s : Dev} (h : Kept s0 s) (id : Nat) : Kept s0 (s.landFills id) := by
  unfold Dev.landFills
  repeat' first
    | with_reducible first | assumption | refine Kept.each ?_ ?_ | apply Kept.hodLandFill | apply Kept.giveErasures
                           | apply Kept.wake
    | (intro) | extract_lets | split

theorem Kept.afterReads {s0 s : Dev} (h : Kept s0 s) (id : Nat) : Kept s0 (s.afterReads id) := by
  unfold Dev.afterReads
  repeat' first
    | with_reducible first | assumption | apply Kept.landFills | apply Kept.toEngine
    | (intro) | extract_lets | split

theorem Kept.abortJob {s0 s : Dev} (h : Kept s0 s) (id : Nat) : Kept s0 (s.abortJob id) := by
  unfold Dev.abortJob
  repeat' first
    | with_reducible first | assumption | refine Kept.each ?_ ?_ | apply Kept.hodLandFill | apply Kept.wake
                           | apply Kept.onMpt | apply Kept.onField | apply Kept.endJob
    | (intro) | extract_lets | split

theorem Kept.refill {s0 s : Dev} (h : Kept s0 s) (r : MissReg) : Kept s0 (s.refill r) := by
  unfold Dev.refill
  repeat' first
    | with_reducible first | assumption | apply Kept.onJob | apply Kept.readCells
    | (intro) | extract_lets | split

theorem Kept.hodReset {s0 s : Dev} (h : Kept s0 s) : Kept s0 (s.hodReset) := by
  unfold Dev.hodReset
  repeat' first
    | with_reducible first | assumption | apply Kept.hodEmpty | refine Kept.each ?_ ?_ | apply Kept.refill | apply Kept.wake
    | (intro) | extract_lets | split

theorem Kept.dropHodCells {s0 s : Dev} (h : Kept s0 s) (entry id : Nat) : Kept s0 (s.dropHodCells entry id) := by
  unfold Dev.dropHodCells
  repeat' first
    | with_reducible first | assumption | apply Kept.onJob | refine Kept.each ?_ ?_ | apply Kept.addCell | apply Kept.stage
                           | apply Kept.readCells | apply Kept.toEngine
    | (intro) | extract_lets | split

theorem Kept.hodErrors {s0 s : Dev} (h : Kept s0 s) (l : List HodError) : Kept s0 (s.hodErrors l) := by
  unfold Dev.hodErrors
  repeat' first
    | with_reducible first | assumption | refine Kept.each ?_ ?_ | apply Kept.hodError | apply Kept.dropHodCells
    | (intro) | extract_lets | split

theorem Kept.beginJob {s0 s : Dev} (h : Kept s0 s) (j : Job) (f : Field) : Kept s0 (s.beginJob j f) := by
  unfold Dev.beginJob
  repeat' first
    | with_reducible first | assumption | apply Kept.onCtx | apply Kept.beginDestage | apply Kept.beginSolve
                           | apply Kept.beginRebuild | apply Kept.beginResync | apply Kept.beginScrub
                           | apply Kept.beginReshape | apply Kept.lostLine | apply Kept.beginLostLine | apply Kept.startSeal
    | (intro) | extract_lets | split

theorem Kept.grantLock {s0 s : Dev} (h : Kept s0 s) (id : Nat) (hod : List HodError) : Kept s0 (s.grantLock id hod) := by
  unfold Dev.grantLock
  repeat' first
    | with_reducible first | assumption | apply Kept.abortJob | apply Kept.stage | apply Kept.hodErrors
                           | apply Kept.takeLocks | apply Kept.onJob | apply Kept.beginJob | apply Kept.onCtx
                           | apply Kept.beginScrub | apply Kept.beginSolve
    | (intro) | extract_lets | split

theorem Kept.jobLanded {s0 s : Dev} (h : Kept s0 s) (j : Job) : Kept s0 (s.jobLanded j) := by
  unfold Dev.jobLanded
  repeat' first
    | with_reducible first | assumption | apply Kept.destageLanded | apply Kept.startSeal | apply Kept.endJob
                           | apply Kept.rebuildLanded | apply Kept.resyncLanded | apply Kept.scrubLanded
                           | apply Kept.reshapeLanded | apply Kept.sealLanded | apply Kept.lostLine
                           | apply Kept.lostLineLanded
    | (intro) | extract_lets | split

theorem Kept.settle {s0 s : Dev} (h : Kept s0 s) : Kept s0 (s.settle) := by
  unfold Dev.settle
  repeat' first
    | with_reducible first | assumption | refine Kept.each ?_ ?_ | apply Kept.stage | apply Kept.jobLanded
    | (intro) | extract_lets | split

theorem Kept.sendHeals {s0 s : Dev} (h : Kept s0 s) : Kept s0 (s.sendHeals) := by
  unfold Dev.sendHeals
  repeat' first
    | with_reducible first | assumption | refine Kept.each ?_ ?_ | apply Kept.stage | apply Kept.sendWrites
                           | apply Kept.settle
    | (intro) | extract_lets | split

theorem Kept.engineLost {s0 s : Dev} (h : Kept s0 s) (lane : Nat) : Kept s0 (s.engineLost lane) := by
  unfold Dev.engineLost
  repeat' first
    | with_reducible first | assumption | apply Kept.onMor | apply Kept.onFields | apply Kept.record
    | (intro) | extract_lets | split

theorem Kept.laneMismatch {s0 s : Dev} (h : Kept s0 s) (j : Job) : Kept s0 (s.laneMismatch j) := by
  unfold Dev.laneMismatch
  repeat' first
    | with_reducible first | assumption | apply Kept.count | apply Kept.record | apply Kept.onMor | apply Kept.recordEvent
                           | apply Kept.engineLost | apply Kept.onJob
    | (intro) | extract_lets | split

theorem Kept.engineStep {s0 s : Dev} (h : Kept s0 s) (j : Job) (f : Field) : Kept s0 (s.engineStep j f) := by
  unfold Dev.engineStep
  repeat' first
    | with_reducible first | assumption | apply Kept.enginePass | apply Kept.destageStep | apply Kept.solveStep
                           | apply Kept.rebuildStep | apply Kept.resyncStep | apply Kept.scrubStep | apply Kept.reshapeRow
                           | apply Kept.lostLine | apply Kept.lostLineStep | apply Kept.sealSolve
    | (intro) | extract_lets | split

theorem Kept.engineDone {s0 s : Dev} (h : Kept s0 s) (j : Job) : Kept s0 (s.engineDone j) := by
  unfold Dev.engineDone
  repeat' first
    | with_reducible first | assumption | apply Kept.destageDone | apply Kept.solveDone | apply Kept.workDone
                           | apply Kept.resyncDone | apply Kept.reshapeFilled | apply Kept.lostLine
                           | apply Kept.lostLineDone
    | (intro) | extract_lets | split

theorem Kept.engineOp {s0 s : Dev} (h : Kept s0 s) (id : Nat) (mismatch : Bool) (hod : List HodError) :
    Kept s0 (s.engineOp id mismatch hod) := by
  unfold Dev.engineOp
  repeat' first
    | with_reducible first | assumption | apply Kept.stage | apply Kept.hodErrors | apply Kept.readCells
                           | apply Kept.toEngine | apply Kept.laneMismatch | apply Kept.onJob | apply Kept.engineStep
                           | refine Kept.when ?_ ?_ | apply Kept.unpin | apply Kept.engineDone | apply Kept.settle
    | (intro) | extract_lets | split

theorem Kept.guardReady {s0 s : Dev} (h : Kept s0 s) (id : Nat) : Kept s0 (s.guardReady id) := by
  unfold Dev.guardReady
  repeat' first
    | with_reducible first | assumption | apply Kept.stage | apply Kept.reshapeMove | apply Kept.settle
                           | apply Kept.sendWrites | apply Kept.urgentReplica
    | (intro) | extract_lets | split

theorem Kept.startDestage {s0 s : Dev} (h : Kept s0 s) (fid c : Nat) (g : Bool) (faults : List (Nat × FrameFault)) (hod : List HodError) :
    Kept s0 (s.startDestage fid c g faults hod) := by
  unfold Dev.startDestage
  repeat' first
    | with_reducible first | assumption | apply Kept.hodErrors | refine Kept.each ?_ ?_ | apply Kept.frameFault
                           | refine Kept.when ?_ ?_ | apply Kept.resyncFirst | apply Kept.startJob | apply Kept.onJob
                           | apply Kept.lookRow
    | (intro) | extract_lets | split

theorem Kept.startResync {s0 s : Dev} (h : Kept s0 s) (fid c : Nat) (g : Bool) : Kept s0 (s.startResync fid c g) := by
  unfold Dev.startResync
  repeat' first
    | with_reducible first | assumption | apply Kept.startJob
    | (intro) | extract_lets | split

theorem Kept.startScrub {s0 s : Dev} (h : Kept s0 s) (fid : Nat) : Kept s0 (s.startScrub fid) := by
  unfold Dev.startScrub
  repeat' first
    | with_reducible first | assumption | apply Kept.onField | apply Kept.startJob | apply Kept.count
    | (intro) | extract_lets | split

theorem Kept.startRebuildCourse {s0 s : Dev} (h : Kept s0 s) (fid : Nat) : Kept s0 (s.startRebuildCourse fid) := by
  unfold Dev.startRebuildCourse
  repeat' first
    | with_reducible first | assumption | apply Kept.onField | apply Kept.startJob
    | (intro) | extract_lets | split

theorem Kept.joinTarget {s0 s : Dev} (h : Kept s0 s) (fid pos : Nat) : Kept s0 (s.joinTarget fid pos) := by
  unfold Dev.joinTarget
  repeat' first
    | with_reducible first | assumption | apply Kept.onField | apply Kept.record | apply Kept.writeProgress
    | (intro) | extract_lets | split

theorem Kept.scrubLate {s0 s : Dev} (h : Kept s0 s) (fid : Nat) : Kept s0 (s.scrubLate fid) := by
  unfold Dev.scrubLate
  repeat' first
    | with_reducible first | assumption | apply Kept.onField | apply Kept.record
    | (intro) | extract_lets | split

theorem Kept.saveScrub {s0 s : Dev} (h : Kept s0 s) : Kept s0 (s.saveScrub) := by
  unfold Dev.saveScrub
  repeat' first
    | with_reducible first | assumption | apply Kept.count | apply Kept.onSys | apply Kept.onFields
    | (intro) | extract_lets | split

theorem Kept.startStep {s0 s : Dev} (h : Kept s0 s) (fid : Nat) : Kept s0 (s.startStep fid) := by
  unfold Dev.startStep
  repeat' first
    | with_reducible first | assumption | apply Kept.reshapeStep
    | (intro) | extract_lets | split

theorem Kept.replicaTick {s0 s : Dev} (h : Kept s0 s) (fid : Nat) : Kept s0 (s.replicaTick fid) := by
  unfold Dev.replicaTick
  repeat' first
    | with_reducible first | assumption | apply Kept.startReplica
    | (intro) | extract_lets | split

theorem Kept.moveDone {s0 s : Dev} (h : Kept s0 s) (reg : Nat) : Kept s0 (s.moveDone reg) := by
  unfold Dev.moveDone
  repeat' first
    | with_reducible first | assumption | apply Kept.hodMoved | refine Kept.each ?_ ?_ | apply Kept.wake
    | (intro) | extract_lets | split

end Sys2Proof.Safety
end

