-- ==== Sys2Proof/Laws/KeepsFields.lean ====
section
/-!
SUPPORT. What every function over the block keeps (`Safety.Kept`): the mailbox protocol, members and fields. Each lemma names its function.
-/

namespace Sys2Proof.Safety

open Sys2Proof.Machine

/-! ### Mbox -/

theorem Kept.setRun {s0 s : Dev} (h : Kept s0 s) (p : MbxPath) (r : Option MbxRun) : Kept s0 (s.setRun p r) := by
  unfold Dev.setRun
  repeat' first
    | with_reducible first | assumption | apply Kept.onMbx
    | (intro) | extract_lets | split

theorem Kept.mbxWait {s0 s : Dev} (h : Kept s0 s) (p : MbxPath) (w : MbxWait) : Kept s0 (s.mbxWait p w) := by
  unfold Dev.mbxWait
  repeat' first
    | with_reducible first | assumption | apply Kept.setRun
    | (intro) | extract_lets | split

theorem Kept.mbxDone {s0 s : Dev} (h : Kept s0 s) (p : MbxPath) (st : Nat) (payload : List Byte) :
    Kept s0 (s.mbxDone p st payload) := by
  unfold Dev.mbxDone
  repeat' first
    | with_reducible first | assumption | apply Kept.setRun | apply Kept.count | refine Kept.when ?_ ?_ | apply Kept.record
                           | apply Kept.onMbx | apply Kept.msix | apply Kept.emit | apply Kept.event
    | (intro) | extract_lets | split

theorem Kept.mbxOk {s0 s : Dev} (h : Kept s0 s) (p : MbxPath) : Kept s0 (s.mbxOk p) := by
  unfold Dev.mbxOk
  repeat' first
    | with_reducible first | assumption | apply Kept.mbxDone
    | (intro) | extract_lets | split

theorem Kept.mbxRefuse {s0 s : Dev} (h : Kept s0 s) (p : MbxPath) (st detail : Nat) : Kept s0 (s.mbxRefuse p st detail) := by
  unfold Dev.mbxRefuse
  repeat' first
    | with_reducible first | assumption | apply Kept.mbxDone
    | (intro) | extract_lets | split

theorem Kept.mbxWake {s0 s : Dev} (h : Kept s0 s) (w : MbxWait) (st : Nat) (payload : List Byte) :
    Kept s0 (s.mbxWake w st payload) := by
  unfold Dev.mbxWake
  repeat' first
    | with_reducible first | assumption | apply Kept.mbxDone
    | (intro) | extract_lets | split

theorem Kept.mbxOverrun {s0 s : Dev} (h : Kept s0 s) (seq : BitVec 32) : Kept s0 (s.mbxOverrun seq) := by
  unfold Dev.mbxOverrun
  repeat' first
    | with_reducible first | assumption | apply Kept.onMbx | apply Kept.count | apply Kept.record
    | (intro) | extract_lets | split

theorem Kept.mbxRun {s0 s : Dev} (h : Kept s0 s) (p : MbxPath) (op : Nat) (i : Instr) (r : MbxReq) (lenOk : Bool) (objs : List Obj) (start : Dev → Dev) (hstart : ∀ x, Kept s0 x → Kept s0 (start x)) :
    Kept s0 (s.mbxRun p op i r lenOk objs start) := by
  unfold Dev.mbxRun
  repeat' first
    | with_reducible first | assumption | apply Kept.setRun | apply Kept.mbxDone | apply hstart
    | (intro) | extract_lets | split

theorem Kept.mbxCommand {s0 s : Dev} (h : Kept s0 s) (p : MbxPath) (op : Nat) (i : Instr) (r : MbxReq) (lenOk : Bool) (objs : List Obj) (start : Dev → Dev) (hstart : ∀ x, Kept s0 x → Kept s0 (start x)) :
    Kept s0 (s.mbxCommand p op i r lenOk objs start) := by
  unfold Dev.mbxCommand
  repeat' first
    | with_reducible first | assumption | apply Kept.mbxOverrun | apply Kept.onMbx | apply Kept.mbxRun | apply Kept.count
                           | apply hstart
    | (intro) | extract_lets | split

theorem Kept.mbxReady {s0 s : Dev} (h : Kept s0 s) (p : MbxPath) {x : Dev × Instr} (hx : s.mbxReady? p = some x) :
    Kept s0 x.1 := by
  unfold Dev.mbxReady? at hx
  split at hx
  · split at hx
    · cases hx
      refine (h.setRun _ _).onMbx ?_
      split <;> exact id
    · cases hx
  · split at hx
    · cases hx; exact Kept.onMbx (f := fun m => { m with mgmtNext := none }) h id
    · cases hx

/-! ### Members -/

theorem Kept.takePosition {s0 s : Dev} (h : Kept s0 s) (f : Field) (pos m : Nat) (p : Option MbxPath) :
    Kept s0 (s.takePosition f pos m p) := by
  unfold Dev.takePosition
  repeat' first
    | with_reducible first | assumption | apply Kept.onMember | apply Kept.onField | apply Kept.clearRegion
                           | apply Kept.bumpEpoch | apply Kept.changeLabel
    | (intro) | extract_lets | split

theorem Kept.startRebuild {s0 s : Dev} (h : Kept s0 s) (fid pos : Nat) : Kept s0 (s.startRebuild fid pos) := by
  unfold Dev.startRebuild
  repeat' first
    | with_reducible first | assumption | apply Kept.takePosition | apply Kept.onField | apply Kept.record
    | (intro) | extract_lets | split

theorem Kept.beginTarget {s0 s : Dev} (h : Kept s0 s) (fid pos : Nat) : Kept s0 (s.beginTarget fid pos) := by
  unfold Dev.beginTarget
  repeat' first
    | with_reducible first | assumption | apply Kept.onField | apply Kept.record | apply Kept.writeProgress
    | (intro) | extract_lets | split

theorem Kept.beginWaiting {s0 s : Dev} (h : Kept s0 s) (fid : Nat) : Kept s0 (s.beginWaiting fid) := by
  unfold Dev.beginWaiting
  repeat' first
    | with_reducible first | assumption | apply Kept.beginTarget
    | (intro) | extract_lets | split

theorem Kept.rebuildLabelled {s0 s : Dev} (h : Kept s0 s) (fid : Nat) (p : Option MbxPath) :
    Kept s0 (s.rebuildLabelled fid p) := by
  unfold Dev.rebuildLabelled
  repeat' first
    | with_reducible first | assumption | apply Kept.mbxOk | apply Kept.beginWaiting
    | (intro) | extract_lets | split

theorem Kept.setMemberState {s0 s : Dev} (h : Kept s0 s) (m : Nat) (st : BitVec 8) : Kept s0 (s.setMemberState m st) := by
  unfold Dev.setMemberState
  repeat' first
    | with_reducible first | assumption | apply Kept.onMember | apply Kept.onFields | apply Kept.bumpEpoch
    | (intro) | extract_lets | split

theorem Kept.endTargets {s0 s : Dev} (h : Kept s0 s) (f : Field) : Kept s0 (s.endTargets f) := by
  unfold Dev.endTargets
  repeat' first
    | with_reducible first | assumption | apply Kept.onField | apply Kept.setMemberState | apply Kept.changeLabel
                           | apply Kept.writeProgress | apply Kept.record | apply Kept.ite
    | exact id | exact .same rfl rfl rfl rfl rfl rfl rfl | (intro) | extract_lets | split

theorem Kept.tryCreate {s0 s : Dev} (h : Kept s0 s) (fid : Nat) : Kept s0 (s.tryCreate fid) := by
  unfold Dev.tryCreate
  repeat' first
    | with_reducible first | assumption | apply Kept.onField | apply Kept.onMst | apply Kept.bumpEpoch | apply Kept.mbxWake
    | (intro) | extract_lets | split

theorem Kept.pairRecord {s0 s : Dev} (h : Kept s0 s) (code fid : Nat) : Kept s0 (s.pairRecord code fid) := by
  unfold Dev.pairRecord
  repeat' first
    | with_reducible first | assumption | apply Kept.record
    | (intro) | extract_lets | split

theorem Kept.markRegions {s0 s : Dev} (h : Kept s0 s) (fid : Nat) (rs : List (Bool × Nat)) :
    Kept s0 (s.markRegions fid rs) := by
  unfold Dev.markRegions
  repeat' first
    | with_reducible first | assumption | apply Kept.onField | refine Kept.foldl Prod.fst ?_ _ ?_
    | (intro) | extract_lets | split

theorem Kept.startRegionResync {s0 s : Dev} (h : Kept s0 s) (fid : Nat) : Kept s0 (s.startRegionResync fid) := by
  unfold Dev.startRegionResync
  repeat' first
    | with_reducible first | assumption | apply Kept.onField | apply Kept.regionRecord
    | (intro) | extract_lets | split

theorem Kept.afterLabel {s0 s : Dev} (h : Kept s0 s) (fid : Nat) (t : LabelThen) : Kept s0 (s.afterLabel fid t) := by
  unfold Dev.afterLabel
  repeat' first
    | with_reducible first | assumption | apply Kept.tryCreate | apply Kept.mbxOk | apply Kept.rebuildLabelled
                           | apply Kept.freeReshape | apply Kept.writeBare | apply Kept.takeover | apply Kept.onField
                           | apply Kept.onTwn | apply Kept.startRegionResync | apply Kept.count | apply Kept.pairRecord
                           | apply Kept.event
    | (intro) | extract_lets | split

theorem Kept.labelDone {s0 s : Dev} (h : Kept s0 s) (f gen : Nat) (k : LabelPart) (m : Nat) :
    Kept s0 (s.labelDone f gen k m) := by
  unfold Dev.labelDone
  repeat' first
    | with_reducible first | assumption | apply Kept.labelLanded | refine Kept.each ?_ ?_ | apply Kept.afterLabel
    | (intro) | extract_lets | split

theorem Kept.labelsOver {s0 s : Dev} (h : Kept s0 s) (m : Nat) : Kept s0 (s.labelsOver m) := by
  unfold Dev.labelsOver
  repeat' first
    | with_reducible first | assumption | refine Kept.each ?_ ?_ | apply Kept.labelDone
    | (intro) | extract_lets | split

theorem Kept.bareLanded {s0 s : Dev} (h : Kept s0 s) (m : Nat) (kind : BitVec 8) : Kept s0 (s.bareLanded m kind) := by
  unfold Dev.bareLanded
  repeat' first
    | with_reducible first | assumption | apply Kept.setMemberState | refine Kept.each ?_ ?_ | apply Kept.labelDone
                           | apply Kept.mbxWake
    | (intro) | extract_lets | split

theorem Kept.regionLanded {s0 s : Dev} (h : Kept s0 s) (m : Nat) : Kept s0 (s.regionLanded m) := by
  unfold Dev.regionLanded
  repeat' first
    | with_reducible first | assumption | apply Kept.setMemberState | apply Kept.onMpt | apply Kept.mbxWake
    | (intro) | extract_lets | split

theorem Kept.faultEvent {s0 s : Dev} (h : Kept s0 s) (m : Nat) (missing : Bool) (row : Nat) :
    Kept s0 (s.faultEvent m missing row) := by
  unfold Dev.faultEvent
  repeat' first
    | with_reducible first | assumption | apply Kept.onTasks
    | (intro) | extract_lets | split

theorem Kept.cutCommand {s0 s : Dev} (h : Kept s0 s) (c : MCmd) : Kept s0 (s.cutCommand c) := by
  unfold Dev.cutCommand
  repeat' first
    | with_reducible first | assumption | apply Kept.onMpt | apply Kept.hostRead | apply Kept.readFailed
                           | apply Kept.cellsFailed | apply Kept.afterReads | apply Kept.onJob | apply Kept.settle
                           | apply Kept.labelDone | apply Kept.mbxWake | apply Kept.replicaLanded | apply Kept.onField
    | (intro) | extract_lets | split

theorem Kept.cutMember {s0 s : Dev} (h : Kept s0 s) (m : Nat) : Kept s0 (s.cutMember m) := by
  unfold Dev.cutMember
  repeat' first
    | with_reducible first | assumption | refine Kept.each ?_ ?_ | apply Kept.cutCommand | apply Kept.labelsOver
                           | apply Kept.replicaLanded | apply Kept.onField
    | (intro) | extract_lets | split

theorem Kept.memberRecord {s0 s : Dev} (h : Kept s0 s) (code : Nat) (x : Member) (row : Nat) :
    Kept s0 (s.memberRecord code x row) := by
  unfold Dev.memberRecord
  repeat' first
    | with_reducible first | assumption | apply Kept.recordEvent
    | (intro) | extract_lets | split

theorem Kept.autoCopy {s0 s : Dev} (h : Kept s0 s) (x : Member) : Kept s0 (s.autoCopy x) := by
  unfold Dev.autoCopy
  repeat' first
    | with_reducible first | assumption | apply Kept.onMember | apply Kept.acceptReshape | apply Kept.bumpEpoch
    | (intro) | extract_lets | split

theorem Kept.fieldLoses {s0 s : Dev} (h : Kept s0 s) (fid m : Nat) : Kept s0 (s.fieldLoses fid m) := by
  unfold Dev.fieldLoses
  repeat' first
    | with_reducible first | assumption | apply Kept.endCopy | apply Kept.onField | apply Kept.changeLabel
    | (intro) | extract_lets | split

theorem Kept.applyFault {s0 s : Dev} (h : Kept s0 s) (d : FaultDecision) : Kept s0 (s.applyFault d) := by
  unfold Dev.applyFault
  repeat' first
    | with_reducible first | assumption | apply Kept.onMember | apply Kept.memberRecord | refine Kept.when ?_ ?_
                           | apply Kept.autoCopy | refine Kept.each ?_ ?_ | apply Kept.cutCommand | apply Kept.mbxWake
                           | apply Kept.setMemberState | apply Kept.cutMember | apply Kept.fieldLoses | apply Kept.ite
    | exact id | exact .same rfl rfl rfl rfl rfl rfl rfl | (intro) | extract_lets | split

theorem Kept.controllerLost {s0 s : Dev} (h : Kept s0 s) (m : Nat) : Kept s0 (s.controllerLost m) := by
  unfold Dev.controllerLost
  repeat' first
    | with_reducible first | assumption | apply Kept.faultEvent
    | (intro) | extract_lets | split

theorem Kept.asyncEvent {s0 s : Dev} (h : Kept s0 s) (m : Nat) (w : SmartWarning) : Kept s0 (s.asyncEvent m w) := by
  unfold Dev.asyncEvent
  repeat' first
    | with_reducible first | assumption | apply Kept.memberAdmin | apply Kept.faultEvent | apply Kept.onMember
    | (intro) | extract_lets | split

theorem Kept.pathLost {s0 s : Dev} (h : Kept s0 s) (m : Nat) : Kept s0 (s.pathLost m) := by
  unfold Dev.pathLost
  repeat' first
    | with_reducible first | assumption | apply Kept.count | apply Kept.onMember | apply Kept.onMpt
    | (intro) | extract_lets | split

theorem Kept.pathReturned {s0 s : Dev} (h : Kept s0 s) (m : Nat) : Kept s0 (s.pathReturned m) := by
  unfold Dev.pathReturned
  repeat' first
    | with_reducible first | assumption | apply Kept.pathLost | apply Kept.onMember | apply Kept.onMpt
    | (intro) | extract_lets | split

theorem Kept.graceExpired {s0 s : Dev} (h : Kept s0 s) (m : Nat) : Kept s0 (s.graceExpired m) := by
  unfold Dev.graceExpired
  repeat' first
    | with_reducible first | assumption | apply Kept.pathLost | apply Kept.faultEvent
    | (intro) | extract_lets | split

theorem Kept.setUpMember {s0 s : Dev} (h : Kept s0 s) (n : NsFound) (id : Nat) : Kept s0 (s.setUpMember n id) := by
  unfold Dev.setUpMember
  repeat' first
    | with_reducible first | assumption | refine Kept.each ?_ ?_ | apply Kept.memberAdmin
    | (intro) | extract_lets | split

theorem Kept.addMember {s0 s : Dev} (h : Kept s0 s) (n : NsFound) : Kept s0 (s.addMember n).1 := by
  unfold Dev.addMember
  repeat' first
    | with_reducible first | assumption | apply Kept.record | apply Kept.onMpt | apply Kept.setUpMember
    | (intro) | extract_lets | split

theorem Kept.memberReturned {s0 s : Dev} (h : Kept s0 s) (f : Field) (x : Member) : Kept s0 (s.memberReturned f x) := by
  unfold Dev.memberReturned
  repeat' first
    | with_reducible first | assumption | apply Kept.onField | apply Kept.onMember | apply Kept.memberRecord
                           | apply Kept.takePosition | apply Kept.writeBare
    | (intro) | extract_lets | split

theorem Kept.classify {s0 s : Dev} (h : Kept s0 s) (n : NsFound) : Kept s0 (s.classify n) := by
  unfold Dev.classify
  repeat' first
    | with_reducible first | assumption | apply Kept.addMember | apply Kept.bumpEpoch | apply Kept.setMemberState
                           | apply Kept.memberReturned
    | (intro) | extract_lets | split

theorem Kept.discover {s0 s : Dev} (h : Kept s0 s) (n : NsFound) : Kept s0 (s.discover n) := by
  unfold Dev.discover
  repeat' first
    | with_reducible first | assumption | apply Kept.onMpt | apply Kept.classify
    | (intro) | extract_lets | split

theorem Kept.memberList {s0 s : Dev} (h : Kept s0 s) (p : MbxPath) (r : MbxReq) : Kept s0 (s.memberList p r) := by
  unfold Dev.memberList
  repeat' first
    | with_reducible first | assumption | apply Kept.mbxDone
    | (intro) | extract_lets | split

theorem Kept.withMember {s0 s : Dev} (h : Kept s0 s) (p : MbxPath) (r : MbxReq) (f : Member → Dev) (hf : ∀ a0, Kept s0 (f a0)) :
    Kept s0 (s.withMember p r f) := by
  unfold Dev.withMember
  repeat' first
    | with_reducible first | assumption | apply Kept.mbxRefuse | apply hf
    | (intro) | extract_lets | split

theorem Kept.memberAddSpare {s0 s : Dev} (h : Kept s0 s) (p : MbxPath) (r : MbxReq) : Kept s0 (s.memberAddSpare p r) := by
  unfold Dev.memberAddSpare
  repeat' first
    | with_reducible first | assumption | apply Kept.withMember | apply Kept.mbxRefuse | apply Kept.writeBare
                           | apply Kept.mbxWait
    | (intro) | extract_lets | split

theorem Kept.memberRemoveSpare {s0 s : Dev} (h : Kept s0 s) (p : MbxPath) (r : MbxReq) : Kept s0 (s.memberRemoveSpare p r) := by
  unfold Dev.memberRemoveSpare
  repeat' first
    | with_reducible first | assumption | apply Kept.withMember | apply Kept.mbxRefuse | apply Kept.writeBare
                           | apply Kept.mbxWait
    | (intro) | extract_lets | split

theorem Kept.memberFail {s0 s : Dev} (h : Kept s0 s) (p : MbxPath) (r : MbxReq) : Kept s0 (s.memberFail p r) := by
  unfold Dev.memberFail
  repeat' first
    | with_reducible first | assumption | apply Kept.withMember | apply Kept.faultEvent | apply Kept.mbxWait
                           | apply Kept.mbxRefuse
    | (intro) | extract_lets | split

theorem Kept.memberRelease {s0 s : Dev} (h : Kept s0 s) (p : MbxPath) (r : MbxReq) : Kept s0 (s.memberRelease p r) := by
  unfold Dev.memberRelease
  repeat' first
    | with_reducible first | assumption | apply Kept.withMember | apply Kept.clearRegion | apply Kept.mbxWait
                           | apply Kept.onField | apply Kept.onMember | apply Kept.changeLabel | apply Kept.writeBare
                           | apply Kept.mbxRefuse | apply Kept.ite
    | exact id | exact .same rfl rfl rfl rfl rfl rfl rfl | (intro) | extract_lets | split

theorem Kept.memberRebuild {s0 s : Dev} (h : Kept s0 s) (p : MbxPath) (r : MbxReq) : Kept s0 (s.memberRebuild p r) := by
  unfold Dev.memberRebuild
  repeat' first
    | with_reducible first | assumption | apply Kept.mbxRefuse | apply Kept.takePosition
    | (intro) | extract_lets | split

theorem Kept.memberFormat {s0 s : Dev} (h : Kept s0 s) (p : MbxPath) (r : MbxReq) : Kept s0 (s.memberFormat p r) := by
  unfold Dev.memberFormat
  repeat' first
    | with_reducible first | assumption | apply Kept.withMember | apply Kept.mbxRefuse | apply Kept.memberCmd
                           | apply Kept.mbxWait
    | (intro) | extract_lets | split

theorem Kept.onMemberList {s0 s : Dev} (h : Kept s0 s) (p : MbxPath) (r : MbxReq) : Kept s0 (s.onMemberList p r) := by
  unfold Dev.onMemberList
  repeat' first
    | with_reducible first | assumption | apply Kept.mbxCommand | apply Kept.memberList
    | (intro) | extract_lets | split

theorem Kept.onMemberAddSpare {s0 s : Dev} (h : Kept s0 s) (p : MbxPath) (r : MbxReq) : Kept s0 (s.onMemberAddSpare p r) := by
  unfold Dev.onMemberAddSpare
  repeat' first
    | with_reducible first | assumption | apply Kept.mbxCommand | apply Kept.memberAddSpare
    | (intro) | extract_lets | split

theorem Kept.onMemberRemoveSpare {s0 s : Dev} (h : Kept s0 s) (p : MbxPath) (r : MbxReq) :
    Kept s0 (s.onMemberRemoveSpare p r) := by
  unfold Dev.onMemberRemoveSpare
  repeat' first
    | with_reducible first | assumption | apply Kept.mbxCommand | apply Kept.memberRemoveSpare
    | (intro) | extract_lets | split

theorem Kept.onMemberFail {s0 s : Dev} (h : Kept s0 s) (p : MbxPath) (r : MbxReq) : Kept s0 (s.onMemberFail p r) := by
  unfold Dev.onMemberFail
  repeat' first
    | with_reducible first | assumption | apply Kept.mbxCommand | apply Kept.memberFail
    | (intro) | extract_lets | split

theorem Kept.onMemberRelease {s0 s : Dev} (h : Kept s0 s) (p : MbxPath) (r : MbxReq) : Kept s0 (s.onMemberRelease p r) := by
  unfold Dev.onMemberRelease
  repeat' first
    | with_reducible first | assumption | apply Kept.mbxCommand | apply Kept.memberRelease
    | (intro) | extract_lets | split

theorem Kept.onMemberRebuild {s0 s : Dev} (h : Kept s0 s) (p : MbxPath) (r : MbxReq) : Kept s0 (s.onMemberRebuild p r) := by
  unfold Dev.onMemberRebuild
  repeat' first
    | with_reducible first | assumption | apply Kept.mbxCommand | apply Kept.memberRebuild
    | (intro) | extract_lets | split

theorem Kept.onMemberFormat {s0 s : Dev} (h : Kept s0 s) (p : MbxPath) (r : MbxReq) : Kept s0 (s.onMemberFormat p r) := by
  unfold Dev.onMemberFormat
  repeat' first
    | with_reducible first | assumption | apply Kept.mbxCommand | apply Kept.memberFormat
    | (intro) | extract_lets | split

/-! ### FieldCmds -/

theorem Kept.reportField {s0 s : Dev} (h : Kept s0 s) (fid : Nat) : Kept s0 (s.reportField fid) := by
  unfold Dev.reportField
  repeat' first
    | with_reducible first | assumption | refine Kept.when ?_ ?_ | apply Kept.bumpEpoch | apply Kept.onField
                           | apply Kept.recordEvent | apply Kept.record
    | (intro) | extract_lets | split

theorem Kept.enterFailed {s0 s : Dev} (h : Kept s0 s) (fid : Nat) : Kept s0 (s.enterFailed fid) := by
  unfold Dev.enterFailed
  repeat' first
    | with_reducible first | assumption | refine Kept.each ?_ ?_ | apply Kept.stage | apply Kept.finish | apply Kept.endCmd
                           | apply Kept.onCache | apply Kept.abortJob | apply Kept.onField | apply Kept.mbxRefuse
    | (intro) | extract_lets | split

theorem Kept.leaveFailed {s0 s : Dev} (h : Kept s0 s) (fid : Nat) : Kept s0 (s.leaveFailed fid) := by
  unfold Dev.leaveFailed
  repeat' first
    | with_reducible first | assumption | apply Kept.onCache | apply Kept.onField | apply Kept.markRegions
                           | apply Kept.dropSlots
    | (intro) | extract_lets | split

theorem Kept.stopScrub {s0 s : Dev} (h : Kept s0 s) (fid : Nat) : Kept s0 (s.stopScrub fid) := by
  unfold Dev.stopScrub
  repeat' first
    | with_reducible first | assumption | refine Kept.each ?_ ?_ | apply Kept.abortJob
    | (intro) | extract_lets | split

theorem Kept.fieldBoundary {s0 s : Dev} (h : Kept s0 s) (fid : Nat) : Kept s0 (s.fieldBoundary fid) := by
  unfold Dev.fieldBoundary
  repeat' first
    | with_reducible first | assumption | apply Kept.onField | apply Kept.enterFailed | apply Kept.leaveFailed
                           | apply Kept.reportField | refine Kept.when ?_ ?_ | apply Kept.stopScrub
    | (intro) | extract_lets | split

theorem Kept.fieldRecovered {s0 s : Dev} (h : Kept s0 s) (fid : Nat) : Kept s0 (s.fieldRecovered fid) := by
  unfold Dev.fieldRecovered
  repeat' first
    | with_reducible first | assumption | apply Kept.onField | apply Kept.startRegionResync | apply Kept.reportField
    | (intro) | extract_lets | split

theorem Kept.withField {s0 s : Dev} (h : Kept s0 s) (p : MbxPath) (r : MbxReq) (g : Field → Dev) (hg : ∀ a0, Kept s0 (g a0)) :
    Kept s0 (s.withField p r g) := by
  unfold Dev.withField
  repeat' first
    | with_reducible first | assumption | apply Kept.mbxRefuse | apply hg
    | (intro) | extract_lets | split

theorem Kept.withOwn {s0 s : Dev} (h : Kept s0 s) (p : MbxPath) (r : MbxReq) (g : Field → Dev) (hg : ∀ a0, Kept s0 (g a0)) :
    Kept s0 (s.withOwn p r g) := by
  unfold Dev.withOwn
  repeat' first
    | with_reducible first | assumption | apply Kept.withField | apply Kept.mbxRefuse | apply hg
    | (intro) | extract_lets | split

theorem Kept.makeField {s0 s : Dev} (h : Kept s0 s) (p : MbxPath) (r : MbxReq) : Kept s0 (s.makeField p r) := by
  unfold Dev.makeField
  repeat' first
    | with_reducible first | assumption | apply Kept.drew | apply Kept.onFields | apply Kept.onKst | apply Kept.onMst
                           | refine Kept.each ?_ ?_ | apply Kept.onMember | apply Kept.clearRegion | refine Kept.when ?_ ?_
                           | apply Kept.sendFrame | apply Kept.recordKst | apply Kept.commitEntry | apply Kept.changeLabel
                           | apply Kept.mbxWait
    | (intro) | extract_lets | split

theorem Kept.fieldCreate {s0 s : Dev} (h : Kept s0 s) (p : MbxPath) (r : MbxReq) : Kept s0 (s.fieldCreate p r) := by
  unfold Dev.fieldCreate
  repeat' first
    | with_reducible first | assumption | apply Kept.mbxRefuse | apply Kept.sendFrame | apply Kept.mbxWait
                           | apply Kept.makeField
    | (intro) | extract_lets | split

theorem Kept.forgetField {s0 s : Dev} (h : Kept s0 s) (fid : Nat) : Kept s0 (s.forgetField fid) := by
  unfold Dev.forgetField
  repeat' first
    | with_reducible first | assumption | refine Kept.each ?_ ?_ | apply Kept.abortJob | apply Kept.onCache
                           | apply Kept.dropSlots | apply Kept.onFields | apply Kept.commitEntry | apply Kept.hodInvalidate
    | (intro) | extract_lets | split

theorem Kept.fieldDelete {s0 s : Dev} (h : Kept s0 s) (p : MbxPath) (r : MbxReq) : Kept s0 (s.fieldDelete p r) := by
  unfold Dev.fieldDelete
  repeat' first
    | with_reducible first | assumption | apply Kept.withOwn | apply Kept.mbxRefuse | apply Kept.forgetField
                           | apply Kept.onKst | refine Kept.each ?_ ?_ | apply Kept.onMember | apply Kept.writeBare
                           | refine Kept.when ?_ ?_ | apply Kept.sendFrame | apply Kept.recordKst | apply Kept.bumpEpoch
                           | apply Kept.mbxOk
    | (intro) | extract_lets | split

theorem Kept.fieldOffline {s0 s : Dev} (h : Kept s0 s) (p : MbxPath) (r : MbxReq) : Kept s0 (s.fieldOffline p r) := by
  unfold Dev.fieldOffline
  repeat' first
    | with_reducible first | assumption | apply Kept.withOwn | apply Kept.mbxRefuse | apply Kept.onField
                           | apply Kept.mbxWait
    | (intro) | extract_lets | split

theorem Kept.offlineDone {s0 s : Dev} (h : Kept s0 s) (fid : Nat) : Kept s0 (s.offlineDone fid) := by
  unfold Dev.offlineDone
  repeat' first
    | with_reducible first | assumption | apply Kept.onField | apply Kept.hodInvalidate | apply Kept.startReplica
                           | apply Kept.reportField | apply Kept.mbxWake
    | (intro) | extract_lets | split

theorem Kept.fieldOnline {s0 s : Dev} (h : Kept s0 s) (p : MbxPath) (r : MbxReq) : Kept s0 (s.fieldOnline p r) := by
  unfold Dev.fieldOnline
  repeat' first
    | with_reducible first | assumption | apply Kept.withOwn | apply Kept.mbxRefuse | apply Kept.onField
                           | apply Kept.reportField | apply Kept.mbxOk
    | (intro) | extract_lets | split

theorem Kept.fieldStatus {s0 s : Dev} (h : Kept s0 s) (p : MbxPath) (r : MbxReq) : Kept s0 (s.fieldStatus p r) := by
  unfold Dev.fieldStatus
  repeat' first
    | with_reducible first | assumption | apply Kept.withField | apply Kept.mbxDone
    | (intro) | extract_lets | split

theorem Kept.fieldLostList {s0 s : Dev} (h : Kept s0 s) (p : MbxPath) (r : MbxReq) : Kept s0 (s.fieldLostList p r) := by
  unfold Dev.fieldLostList
  repeat' first
    | with_reducible first | assumption | apply Kept.withField | apply Kept.mbxDone
    | (intro) | extract_lets | split

theorem Kept.fieldSetReadOnly {s0 s : Dev} (h : Kept s0 s) (p : MbxPath) (r : MbxReq) : Kept s0 (s.fieldSetReadOnly p r) := by
  unfold Dev.fieldSetReadOnly
  repeat' first
    | with_reducible first | assumption | apply Kept.withOwn | apply Kept.mbxRefuse | apply Kept.mbxOk | apply Kept.onField
                           | apply Kept.mbxWait | apply Kept.changeLabel
    | (intro) | extract_lets | split

theorem Kept.fieldReshape {s0 s : Dev} (h : Kept s0 s) (p : MbxPath) (r : MbxReq) : Kept s0 (s.fieldReshape p r) := by
  unfold Dev.fieldReshape
  repeat' first
    | with_reducible first | assumption | apply Kept.withOwn | apply Kept.mbxRefuse | refine Kept.each ?_ ?_
                           | apply Kept.onMember | apply Kept.acceptReshape | apply Kept.bumpEpoch | apply Kept.mbxWait
    | (intro) | extract_lets | split

theorem Kept.onFieldCreate {s0 s : Dev} (h : Kept s0 s) (p : MbxPath) (r : MbxReq) : Kept s0 (s.onFieldCreate p r) := by
  unfold Dev.onFieldCreate
  repeat' first
    | with_reducible first | assumption | apply Kept.mbxCommand | apply Kept.fieldCreate
    | (intro) | extract_lets | split

theorem Kept.onFieldDelete {s0 s : Dev} (h : Kept s0 s) (p : MbxPath) (r : MbxReq) : Kept s0 (s.onFieldDelete p r) := by
  unfold Dev.onFieldDelete
  repeat' first
    | with_reducible first | assumption | apply Kept.mbxCommand | apply Kept.fieldDelete
    | (intro) | extract_lets | split

theorem Kept.onFieldOffline {s0 s : Dev} (h : Kept s0 s) (p : MbxPath) (r : MbxReq) : Kept s0 (s.onFieldOffline p r) := by
  unfold Dev.onFieldOffline
  repeat' first
    | with_reducible first | assumption | apply Kept.mbxCommand | apply Kept.fieldOffline
    | (intro) | extract_lets | split

theorem Kept.onFieldOnline {s0 s : Dev} (h : Kept s0 s) (p : MbxPath) (r : MbxReq) : Kept s0 (s.onFieldOnline p r) := by
  unfold Dev.onFieldOnline
  repeat' first
    | with_reducible first | assumption | apply Kept.mbxCommand | apply Kept.fieldOnline
    | (intro) | extract_lets | split

theorem Kept.onFieldStatus {s0 s : Dev} (h : Kept s0 s) (p : MbxPath) (r : MbxReq) : Kept s0 (s.onFieldStatus p r) := by
  unfold Dev.onFieldStatus
  repeat' first
    | with_reducible first | assumption | apply Kept.mbxCommand | apply Kept.fieldStatus
    | (intro) | extract_lets | split

theorem Kept.onFieldSetReadOnly {s0 s : Dev} (h : Kept s0 s) (p : MbxPath) (r : MbxReq) :
    Kept s0 (s.onFieldSetReadOnly p r) := by
  unfold Dev.onFieldSetReadOnly
  repeat' first
    | with_reducible first | assumption | apply Kept.mbxCommand | apply Kept.fieldSetReadOnly
    | (intro) | extract_lets | split

theorem Kept.onFieldReshape {s0 s : Dev} (h : Kept s0 s) (p : MbxPath) (r : MbxReq) : Kept s0 (s.onFieldReshape p r) := by
  unfold Dev.onFieldReshape
  repeat' first
    | with_reducible first | assumption | apply Kept.mbxCommand | apply Kept.fieldReshape
    | (intro) | extract_lets | split

theorem Kept.onFieldLostList {s0 s : Dev} (h : Kept s0 s) (p : MbxPath) (r : MbxReq) : Kept s0 (s.onFieldLostList p r) := by
  unfold Dev.onFieldLostList
  repeat' first
    | with_reducible first | assumption | apply Kept.mbxCommand | apply Kept.fieldLostList
    | (intro) | extract_lets | split

end Sys2Proof.Safety
end

