-- ==== Sys2Proof/Laws/KeepsHost.lean ====
section
/-!
SUPPORT. What every function over the block keeps (`Safety.Kept`): admission, host reads and the endpoint. Each lemma names its function.
-/

namespace Sys2Proof.Safety

open Sys2Proof.Machine

/-! ### Admission -/

theorem Kept.sendLines {s0 s : Dev} (h : Kept s0 s) (id : Nat) : Kept s0 (s.sendLines id) := by
  unfold Dev.sendLines
  repeat' first
    | with_reducible first | assumption | refine Kept.each ?_ ?_ | apply Kept.sendFrame
    | (intro) | extract_lets | split

theorem Kept.addLine {s0 s : Dev} (h : Kept s0 s) (f : Field) (c : Cmd) (version lba : Nat) (plain : Block) :
    Kept s0 (s.addLine f c version lba plain) := by
  unfold Dev.addLine
  repeat' first
    | with_reducible first | assumption | apply Kept.count | apply Kept.placeLine | apply Kept.onCtx
    | (intro) | extract_lets | split

theorem Kept.linesArrive {s0 s : Dev} (h : Kept s0 s) (id data : Nat) : Kept s0 (s.linesArrive id data) := by
  unfold Dev.linesArrive
  repeat' first
    | with_reducible first | assumption | apply Kept.stage | apply Kept.onCache | refine Kept.each ?_ ?_
                           | apply Kept.addLine | apply Kept.onCmd | apply Kept.sendLines
    | (intro) | extract_lets | split

theorem Kept.goMalformed {s0 s : Dev} (h : Kept s0 s) (id : Nat) : Kept s0 (s.goMalformed id) := by
  unfold Dev.goMalformed
  repeat' first
    | with_reducible first | assumption | apply Kept.onCmd | apply Kept.drew | apply Kept.linesArrive | apply Kept.endCmd
    | (intro) | extract_lets | split

theorem Kept.segsReady {s0 s : Dev} (h : Kept s0 s) (id : Nat) : Kept s0 (s.segsReady id) := by
  unfold Dev.segsReady
  repeat' first
    | with_reducible first | assumption | apply Kept.endCmd | apply Kept.startRead | apply Kept.linesArrive
                           | apply Kept.hostRead
    | (intro) | extract_lets | split

theorem Kept.takeWalk {s0 s : Dev} (h : Kept s0 s) (id : Nat) (l : List SglDesc) : Kept s0 (s.takeWalk id l).1 := by
  unfold Dev.takeWalk
  repeat' first
    | with_reducible first | assumption | apply Kept.onCmd
    | (intro) | extract_lets | split

theorem Kept.segment {s0 : Dev} (id : Nat) : ∀ (fuel a n : Nat) {s : Dev}, Kept s0 s → Kept s0 (s.segment id fuel a n)
  | 0, _, _, _, h => h.endCmd _ _ _
  | fuel + 1, a, n, s, h => by
    unfold Dev.segment
    split
    · exact h.endCmd _ _ _
    · exact h.hostRead _ _ _
    · rename_i l _
      have hr := h.takeWalk id (sglOf n l)
      extract_lets r
      split
      · exact hr.segsReady _
      · exact hr.endCmd _ _ _
      · exact hr.goMalformed _
      · exact Kept.segment id fuel _ _ hr

theorem Kept.sglArrive {s0 s : Dev} (h : Kept s0 s) (id n : Nat) (l : List SglDesc) : Kept s0 (s.sglArrive id n l) := by
  unfold Dev.sglArrive
  repeat' first
    | with_reducible first | assumption | apply Kept.takeWalk | apply Kept.segsReady | apply Kept.endCmd
                           | apply Kept.goMalformed | apply Kept.segment
    | (intro) | extract_lets | split

theorem Kept.startData {s0 s : Dev} (h : Kept s0 s) (id : Nat) : Kept s0 (s.startData id) := by
  unfold Dev.startData
  repeat' first
    | with_reducible first | assumption | apply Kept.onCmd | apply Kept.goMalformed | apply Kept.segsReady
                           | apply Kept.endCmd | apply Kept.segment
    | (intro) | extract_lets | split

theorem Kept.hold {s0 s : Dev} (h : Kept s0 s) (id : Nat) : Kept s0 (s.hold id) := by
  unfold Dev.hold
  repeat' first
    | with_reducible first | assumption | apply Kept.onCmd
    | (intro) | extract_lets | split

theorem Kept.enterWrite {s0 s : Dev} (h : Kept s0 s) (id : Nat) (f : Field) (c : Cmd) (l : List (Nat × Bool)) :
    Kept s0 (s.enterWrite id f c l) := by
  unfold Dev.enterWrite
  repeat' first
    | with_reducible first | assumption | refine Kept.each ?_ ?_ | apply Kept.makeCtx | apply Kept.onCtx | apply Kept.count
                           | apply Kept.onCmd | apply Kept.markWrite | apply Kept.onQs | apply Kept.onTasks
                           | apply Kept.startData | apply Kept.linesArrive
    | (intro) | extract_lets | split

theorem Kept.takeWrite {s0 s : Dev} (h : Kept s0 s) (id : Nat) (f : Field) (c : Cmd) : Kept s0 (s.takeWrite id f c) := by
  unfold Dev.takeWrite
  repeat' first
    | with_reducible first | assumption | apply Kept.onQs | apply Kept.hold | apply Kept.count | apply Kept.enterWrite
    | (intro) | extract_lets | split

theorem Kept.rangesArrive {s0 s : Dev} (h : Kept s0 s) (id : Nat) (l : List RangeEntry) : Kept s0 (s.rangesArrive id l) := by
  unfold Dev.rangesArrive
  repeat' first
    | with_reducible first | assumption | apply Kept.endCmd | apply Kept.stage | apply Kept.onCmd | apply Kept.takeWrite
    | (intro) | extract_lets | split

theorem Kept.fetchRanges {s0 s : Dev} (h : Kept s0 s) (id : Nat) (c : Cmd) : Kept s0 (s.fetchRanges id c) := by
  unfold Dev.fetchRanges
  repeat' first
    | with_reducible first | assumption | apply Kept.onCmd | apply Kept.endCmd | apply Kept.goMalformed | apply Kept.onQs
                           | apply Kept.hostRead | apply Kept.rangesArrive
    | (intro) | extract_lets | split

theorem Kept.startFlush {s0 s : Dev} (h : Kept s0 s) (id : Nat) (f : Nat) : Kept s0 (s.startFlush id f) := by
  unfold Dev.startFlush
  repeat' first
    | with_reducible first | assumption | apply Kept.endCmd | apply Kept.onCmd
    | (intro) | extract_lets | split

theorem Kept.tryTake {s0 s : Dev} (h : Kept s0 s) (id : Nat) : Kept s0 (s.tryTake id) := by
  unfold Dev.tryTake
  repeat' first
    | with_reducible first | assumption | apply Kept.hold | apply Kept.endCmd | apply Kept.startFlush | apply Kept.startRead
                           | apply Kept.startData | apply Kept.fetchRanges | apply Kept.takeWrite
    | (intro) | extract_lets | split

theorem Kept.meetFaults {s0 s : Dev} (h : Kept s0 s) (op : HostOp) (x : SqSlot) : Kept s0 (s.meetFaults op x) := by
  unfold Dev.meetFaults
  repeat' first
    | with_reducible first | assumption | apply Kept.frameFaults
    | (intro) | extract_lets | split

theorem Kept.consumeSlot {s0 s : Dev} (h : Kept s0 s) (q : Nat) (p : QPair) (x : SqSlot) (rest : List SqSlot) :
    Kept s0 (s.consumeSlot q p x rest) := by
  unfold Dev.consumeSlot
  repeat' first
    | with_reducible first | assumption | apply Kept.emit | apply Kept.count | apply Kept.onPair | apply Kept.onQs
                           | apply Kept.record | apply Kept.finish | apply Kept.meetFaults | apply Kept.tryTake
                           | apply Kept.ite
    | exact id | exact .same rfl rfl rfl rfl rfl rfl rfl | (intro) | extract_lets | split

theorem Kept.setRound {s0 s : Dev} (h : Kept s0 s) (l : List (Nat × Nat)) : Kept s0 (s.setRound l) := by
  unfold Dev.setRound
  repeat' first
    | with_reducible first | assumption | apply Kept.onQs
    | (intro) | extract_lets | split

theorem Kept.serve {s0 : Dev} : ∀ (n : Nat) {s : Dev}, Kept s0 s → Kept s0 (Dev.serve n s)
  | 0, _, h => h
  | n + 1, s, h => by
    unfold Dev.serve
    split
    · exact h
    · split
      · exact h
      · split
        · exact Kept.serve n (h.setRound _)
        · split
          · exact Kept.serve n (h.setRound _)
          · split
            · exact Kept.serve n (h.setRound _)
            · split
              · exact Kept.serve n ((h.setRound _).consumeSlot _ _ _ _)
              · split
                · exact h
                · split
                  · exact (h.readSq _).onPair _ _
                  · exact Kept.serve n (h.setRound _)


theorem Kept.goServe {s0 s : Dev} (h : Kept s0 s) : Kept s0 (s.goServe) := by
  unfold Dev.goServe
  repeat' first
    | with_reducible first | assumption | apply Kept.serve
    | (intro) | extract_lets | split

theorem Kept.joinRound {s0 s : Dev} (h : Kept s0 s) (q : Nat) : Kept s0 (s.joinRound q) := by
  unfold Dev.joinRound
  repeat' first
    | with_reducible first | assumption | apply Kept.setRound
    | (intro) | extract_lets | split

theorem Kept.beginRounds {s0 s : Dev} (h : Kept s0 s) (order : List Nat) : Kept s0 (s.beginRounds order) := by
  unfold Dev.beginRounds
  repeat' first
    | with_reducible first | assumption | apply Kept.setRound | apply Kept.goServe
    | (intro) | extract_lets | split

theorem Kept.scanAdmin {s0 s : Dev} (h : Kept s0 s) : Kept s0 (s.scanAdmin) := by
  unfold Dev.scanAdmin
  repeat' first
    | with_reducible first | assumption | apply Kept.readSq | apply Kept.onPair
    | (intro) | extract_lets | split

theorem Kept.retryHeld {s0 s : Dev} (h : Kept s0 s) (id : Nat) : Kept s0 (s.retryHeld id) := by
  unfold Dev.retryHeld
  repeat' first
    | with_reducible first | assumption | apply Kept.onQs | apply Kept.tryTake
    | (intro) | extract_lets | split

theorem Kept.endAdmission {s0 s : Dev} (h : Kept s0 s) : Kept s0 (s.endAdmission) := by
  unfold Dev.endAdmission
  repeat' first
    | with_reducible first | assumption | apply Kept.stage | apply Kept.onTck | refine Kept.when ?_ ?_ | apply Kept.count
                           | apply Kept.record | apply Kept.onQs | apply Kept.throttle
    | exact ⟨rfl, rfl, rfl⟩ | (intro) | extract_lets | split

theorem Kept.leaveAdmission {s0 s : Dev} (h : Kept s0 s) : Kept s0 (s.leaveAdmission) := by
  unfold Dev.leaveAdmission
  repeat' first
    | with_reducible first | assumption | apply Kept.endAdmission
    | (intro) | extract_lets | split

theorem Kept.offer {s0 s : Dev} (h : Kept s0 s) (q : Nat) (x : SqSlot) : Kept s0 (s.offer q x) := by
  unfold Dev.offer
  repeat' first
    | with_reducible first | assumption | apply Kept.onPair | apply Kept.joinRound | apply Kept.goServe
    | (intro) | extract_lets | split

/-! ### HostReads -/

theorem Kept.stallRing {s0 s : Dev} (h : Kept s0 s) (q : Nat) : Kept s0 (s.stallRing q) := by
  unfold Dev.stallRing
  repeat' first
    | with_reducible first | assumption | apply Kept.onPair | apply Kept.count | apply Kept.recordEvent
    | (intro) | extract_lets | split

theorem Kept.resumeRing {s0 s : Dev} (h : Kept s0 s) (q : Nat) : Kept s0 (s.resumeRing q) := by
  unfold Dev.resumeRing
  repeat' first
    | with_reducible first | assumption | apply Kept.onPair | apply Kept.record
    | (intro) | extract_lets | split

theorem Kept.postTurn {s0 s : Dev} (h : Kept s0 s) (q : Nat) : Kept s0 (s.postTurn q) := by
  unfold Dev.postTurn
  extract_lets x y
  have hy : Kept s0 y := Kept.postPair _ q (h.resumeRing q)
  clear_value y
  split
  · split
    · exact hy.readCq q
    · exact hy
  · exact hy

theorem Kept.signal {s0 s : Dev} (h : Kept s0 s) (q : Nat) : Kept s0 (s.signal q) := by
  unfold Dev.signal
  repeat' first
    | with_reducible first | assumption | apply Kept.onPair | apply Kept.msix
    | (intro) | extract_lets | split

theorem Kept.signalQueues {s0 s : Dev} (h : Kept s0 s) : Kept s0 (s.signalQueues) := by
  unfold Dev.signalQueues
  repeat' first
    | with_reducible first | assumption | refine Kept.each ?_ ?_ | apply Kept.signal
    | (intro) | extract_lets | split

theorem Kept.postAll {s0 s : Dev} (h : Kept s0 s) : Kept s0 (s.postAll) := by
  unfold Dev.postAll
  repeat' first
    | with_reducible first | assumption | refine Kept.each ?_ ?_ | apply Kept.postTurn | apply Kept.signalQueues
    | (intro) | extract_lets | split

theorem Kept.deleteCmds {s0 s : Dev} (h : Kept s0 s) (q : Nat) : Kept s0 (s.deleteCmds q) := by
  unfold Dev.deleteCmds
  repeat' first
    | with_reducible first | assumption | refine Kept.each ?_ ?_ | apply Kept.dropLines | apply Kept.onQs
                           | refine Kept.when ?_ ?_ | apply Kept.onPair
    | (intro) | extract_lets | split

theorem Kept.deleteEnd {s0 s : Dev} (h : Kept s0 s) (q : Nat) (p : QPair) : Kept s0 (s.deleteEnd q p) := by
  unfold Dev.deleteEnd
  repeat' first
    | with_reducible first | assumption | apply Kept.msix | apply Kept.record | apply Kept.onQs | apply Kept.mbxWake
                           | apply Kept.adminDelete | apply Kept.adminDone
    | (intro) | extract_lets | split

theorem Kept.deletePost {s0 : Dev} : ∀ (n q : Nat) {s : Dev}, Kept s0 s → Kept s0 (Dev.deletePost n q s)
  | 0, _, _, h => h
  | n + 1, q, s, h => by
    unfold Dev.deletePost
    split
    · split
      · split
        · exact h
        · exact Kept.deletePost n q ((h.onPair _ _).sendUp _)
      · exact h
    · exact h

theorem Kept.deleteGo {s0 s : Dev} (h : Kept s0 s) (q : Nat) (stop : Bool) : Kept s0 (s.deleteGo q stop) := by
  unfold Dev.deleteGo
  repeat' first
    | with_reducible first | assumption | apply Kept.deletePost | apply Kept.deleteEnd | apply Kept.hostRead
    | (intro) | extract_lets | split

theorem Kept.deleteBoundary {s0 s : Dev} (h : Kept s0 s) : Kept s0 (s.deleteBoundary) := by
  unfold Dev.deleteBoundary
  repeat' first
    | with_reducible first | assumption | refine Kept.each ?_ ?_ | apply Kept.deleteCmds | apply Kept.deleteGo
    | (intro) | extract_lets | split

theorem Kept.sqArrive {s0 s : Dev} (h : Kept s0 s) (q pos n : Nat) (l : List SqSlot) : Kept s0 (s.sqArrive q pos n l) := by
  unfold Dev.sqArrive
  repeat' first
    | with_reducible first | assumption | apply Kept.onPair | apply Kept.goServe | apply Kept.count | apply Kept.ite
    | exact id | exact .same rfl rfl rfl rfl rfl rfl rfl | (intro) | extract_lets | split

theorem Kept.cqArrive {s0 s : Dev} (h : Kept s0 s) (q : Nat) (l : List Bool) : Kept s0 (s.cqArrive q l) := by
  unfold Dev.cqArrive
  repeat' first
    | with_reducible first | assumption | apply Kept.onPair | apply Kept.stallRing | apply Kept.postTurn
                           | apply Kept.signalQueues
    | (intro) | extract_lets | split

theorem Kept.dataArrive {s0 s : Dev} (h : Kept s0 s) (id bytes : Nat) : Kept s0 (s.dataArrive id bytes) := by
  unfold Dev.dataArrive
  repeat' first
    | with_reducible first | assumption | apply Kept.stage | apply Kept.endCmd | apply Kept.linesArrive
    | (intro) | extract_lets | split

theorem Kept.dropRead {s0 s : Dev} (h : Kept s0 s) (id : Nat) : Kept s0 (s.dropRead id) := by
  unfold Dev.dropRead
  repeat' first
    | with_reducible first | assumption | apply Kept.onQs | apply Kept.issueReads
    | (intro) | extract_lets | split

theorem Kept.readArrives {s0 s : Dev} (h : Kept s0 s) (r : HRead) (d : HostData) : Kept s0 (s.readArrives r d) := by
  unfold Dev.readArrives
  repeat' first
    | with_reducible first | assumption | apply Kept.sqArrive | apply Kept.cqArrive | apply Kept.onPair
                           | apply Kept.deleteGo | apply Kept.dataArrive | apply Kept.sglArrive | apply Kept.rangesArrive
                           | apply Kept.goServe
    | (intro) | extract_lets | split

theorem Kept.hostReadDone {s0 s : Dev} (h : Kept s0 s) (id : Nat) (d : HostData) : Kept s0 (s.hostReadDone id d) := by
  unfold Dev.hostReadDone
  repeat' first
    | with_reducible first | assumption | apply Kept.dropRead | apply Kept.readArrives
    | (intro) | extract_lets | split

theorem Kept.readFails {s0 s : Dev} (h : Kept s0 s) (r : HRead) : Kept s0 (s.readFails r) := by
  unfold Dev.readFails
  repeat' first
    | with_reducible first | assumption | apply Kept.onPair | apply Kept.goServe | apply Kept.cqArrive | apply Kept.deleteGo
                           | apply Kept.endCmd | apply Kept.refetch
    | (intro) | extract_lets | split

theorem Kept.hostReadTimesOut {s0 s : Dev} (h : Kept s0 s) (id : Nat) : Kept s0 (s.hostReadTimesOut id) := by
  unfold Dev.hostReadTimesOut
  repeat' first
    | with_reducible first | assumption | apply Kept.dropRead | apply Kept.onQs | apply Kept.onHif | apply Kept.record
                           | apply Kept.recordEvent | apply Kept.readFails
    | (intro) | extract_lets | split

theorem Kept.hostReadErr {s0 s : Dev} (h : Kept s0 s) (id : Nat) (e : HostReadErr) : Kept s0 (s.hostReadErr id e) := by
  unfold Dev.hostReadErr
  repeat' first
    | with_reducible first | assumption | apply Kept.dropRead | refine Kept.when ?_ ?_ | apply Kept.record
                           | apply Kept.readFails
    | (intro) | extract_lets | split

theorem Kept.lateArrives {s0 s : Dev} (h : Kept s0 s) (id : Nat) : Kept s0 (s.lateArrives id) := by
  unfold Dev.lateArrives
  repeat' first
    | with_reducible first | assumption | apply Kept.onQs | apply Kept.onHif | apply Kept.record
    | (intro) | extract_lets | split

theorem Kept.serveWaiting {s0 s : Dev} (h : Kept s0 s) (f lba : Nat) : Kept s0 (s.serveWaiting f lba) := by
  unfold Dev.serveWaiting
  repeat' first
    | with_reducible first | assumption | apply Kept.onQs | apply Kept.stage
    | (intro) | extract_lets | split

theorem Kept.refetchDone {s0 s : Dev} (h : Kept s0 s) (fid lba : Nat) (d : Option Block) :
    Kept s0 (s.refetchDone fid lba d) := by
  unfold Dev.refetchDone
  repeat' first
    | with_reducible first | assumption | apply Kept.refetch | apply Kept.onQs | apply Kept.putAgain
                           | apply Kept.serveWaiting | apply Kept.endCmd
    | (intro) | extract_lets | split

/-! ### Endpoint -/

theorem Kept.resumeUpstream {s0 s : Dev} (h : Kept s0 s) : Kept s0 (s.resumeUpstream) := by
  unfold Dev.resumeUpstream
  repeat' first
    | with_reducible first | assumption | apply Kept.issueReads | apply Kept.sendParked | apply Kept.sendKept
    | (intro) | extract_lets | split

theorem Kept.dropWrite {s0 s : Dev} (h : Kept s0 s) : Kept s0 (s.dropWrite) := by
  unfold Dev.dropWrite
  repeat' first
    | with_reducible first | assumption | apply Kept.onHif
    | (intro) | extract_lets | split

theorem Kept.unsupported {s0 s : Dev} (h : Kept s0 s) : Kept s0 (s.unsupported) := by
  unfold Dev.unsupported
  repeat' first
    | with_reducible first | assumption | apply Kept.record
    | (intro) | extract_lets | split

theorem Kept.refuseRead {s0 s : Dev} (h : Kept s0 s) : Kept s0 (s.refuseRead) := by
  unfold Dev.refuseRead
  repeat' first
    | with_reducible first | assumption | apply Kept.unsupported | apply Kept.answer
    | (intro) | extract_lets | split

theorem Kept.forbidWrite {s0 s : Dev} (h : Kept s0 s) : Kept s0 (s.forbidWrite) := by
  unfold Dev.forbidWrite
  repeat' first
    | with_reducible first | assumption | apply Kept.dropWrite | apply Kept.unsupported | apply Kept.record
    | (intro) | extract_lets | split

theorem Kept.forbidRead {s0 s : Dev} (h : Kept s0 s) (bar offset size : Nat) : Kept s0 (s.forbidRead bar offset size) := by
  unfold Dev.forbidRead
  repeat' first
    | with_reducible first | assumption | apply Kept.onHif | apply Kept.record | apply Kept.refuseRead
    | (intro) | extract_lets | split

theorem Kept.doorbell {s0 s : Dev} (h : Kept s0 s) (offset size : Nat) : Kept s0 (s.doorbell offset size) := by
  unfold Dev.doorbell
  repeat' first
    | with_reducible first | assumption | apply Kept.count | apply Kept.forbidWrite | apply Kept.hold | apply Kept.onHif
                           | apply Kept.onPair | apply Kept.dropWrite
    | (intro) | extract_lets | split

theorem Kept.periodicScan {s0 s : Dev} (h : Kept s0 s) : Kept s0 (s.periodicScan) := by
  unfold Dev.periodicScan
  repeat' first
    | with_reducible first | assumption | apply Kept.onQs
    | (intro) | extract_lets | split

theorem Kept.stallPoll {s0 s : Dev} (h : Kept s0 s) : Kept s0 (s.stallPoll) := by
  unfold Dev.stallPoll
  repeat' first
    | with_reducible first | assumption | apply Kept.onQs
    | (intro) | extract_lets | split

theorem Kept.addPair {s0 s : Dev} (h : Kept s0 s) (x : PairSpec) (live : Bool) : Kept s0 (s.addPair x live) := by
  unfold Dev.addPair
  repeat' first
    | with_reducible first | assumption | apply Kept.onQs | apply Kept.onFbk | apply Kept.record | apply Kept.ite
    | exact id | exact .same rfl rfl rfl rfl rfl rfl rfl | (intro) | extract_lets | split

theorem Kept.consumeAdmin {s0 s : Dev} (h : Kept s0 s) : Kept s0 (s.consumeAdmin) := by
  unfold Dev.consumeAdmin
  repeat' first
    | with_reducible first | assumption | apply Kept.emit | apply Kept.onPair
    | (intro) | extract_lets | split

theorem Kept.createPair {s0 s : Dev} (h : Kept s0 s) (tag : BitVec 16) (x : PairSpec) : Kept s0 (s.createPair tag x) := by
  unfold Dev.createPair
  repeat' first
    | with_reducible first | assumption | apply Kept.adminDone | apply Kept.addPair
    | (intro) | extract_lets | split

theorem Kept.deletePair {s0 s : Dev} (h : Kept s0 s) (tag qid : BitVec 16) : Kept s0 (s.deletePair tag qid) := by
  unfold Dev.deletePair
  repeat' first
    | with_reducible first | assumption | apply Kept.onPair | apply Kept.adminDone
    | (intro) | extract_lets | split

theorem Kept.setFieldSet {s0 s : Dev} (h : Kept s0 s) (tag qid : BitVec 16) (set : BitVec 256) :
    Kept s0 (s.setFieldSet tag qid set) := by
  unfold Dev.setFieldSet
  repeat' first
    | with_reducible first | assumption | apply Kept.onPair | apply Kept.adminDone
    | (intro) | extract_lets | split

theorem Kept.serveAdmin {s0 s : Dev} (h : Kept s0 s) (i : Instr) : Kept s0 (s.serveAdmin i) := by
  unfold Dev.serveAdmin
  repeat' first
    | with_reducible first | assumption | apply Kept.consumeAdmin | apply Kept.createPair | apply Kept.deletePair
                           | apply Kept.setFieldSet | apply Kept.adminDone
    | (intro) | extract_lets | split

theorem Kept.runAdmin {s0 s : Dev} (h : Kept s0 s) : Kept s0 (s.runAdmin) := by
  unfold Dev.runAdmin
  repeat' first
    | with_reducible first | assumption | refine Kept.each ?_ ?_ | apply Kept.onQs | apply Kept.serveAdmin
    | (intro) | extract_lets | split

theorem Kept.adminOffer {s0 s : Dev} (h : Kept s0 s) (i : Instr) : Kept s0 (s.adminOffer i) := by
  unfold Dev.adminOffer
  repeat' first
    | with_reducible first | assumption | apply Kept.onQs | apply Kept.runAdmin
    | (intro) | extract_lets | split

theorem Kept.offerBad {s0 s : Dev} (h : Kept s0 s) (q : Nat) (opcode : BitVec 8) (e : SqEntry) :
    Kept s0 (s.offerBad q opcode e) := by
  unfold Dev.offerBad
  repeat' first
    | with_reducible first | assumption | apply Kept.adminOffer | apply Kept.offer
    | (intro) | extract_lets | split

theorem Kept.pairBoundary {s0 s : Dev} (h : Kept s0 s) : Kept s0 (s.pairBoundary) := by
  unfold Dev.pairBoundary
  repeat' first
    | with_reducible first | assumption | apply Kept.onQs | refine Kept.each ?_ ?_ | apply Kept.readCq
    | (intro) | extract_lets | split

theorem Kept.enterHold {s0 s : Dev} (h : Kept s0 s) (cause : Nat) : Kept s0 (s.enterHold cause) := by
  unfold Dev.enterHold
  repeat' first
    | with_reducible first | assumption | apply Kept.hold | apply Kept.count | apply Kept.onHif | apply Kept.record
    | (intro) | extract_lets | split

theorem Kept.holdTrigger {s0 s : Dev} (h : Kept s0 s) (c : HoldCause) : Kept s0 (s.holdTrigger c) := by
  unfold Dev.holdTrigger
  repeat' first
    | with_reducible first | assumption | apply Kept.record | apply Kept.enterHold
    | (intro) | extract_lets | split

theorem Kept.holdReq {s0 s : Dev} (h : Kept s0 s) : Kept s0 (s.holdReq) := by
  unfold Dev.holdReq
  repeat' first
    | with_reducible first | assumption | apply Kept.enterHold
    | (intro) | extract_lets | split

theorem Kept.holdWord {s0 s : Dev} (h : Kept s0 s) (w : BitVec 16) : Kept s0 (s.holdWord w) := by
  unfold Dev.holdWord
  repeat' first
    | with_reducible first | assumption | apply Kept.hold | apply Kept.onHif
    | (intro) | extract_lets | split

theorem Kept.releaseHold {s0 s : Dev} (h : Kept s0 s) : Kept s0 (s.releaseHold) := by
  unfold Dev.releaseHold
  repeat' first
    | with_reducible first | assumption | apply Kept.onHif | apply Kept.recordEvent | apply Kept.resumeUpstream
    | (intro) | extract_lets | split

theorem Kept.winShadow {s0 s : Dev} (h : Kept s0 s) (r : WinReg) (v : BitVec 64) : Kept s0 (s.winShadow r v) := by
  unfold Dev.winShadow
  repeat' first
    | with_reducible first | assumption | apply Kept.onWin
    | (intro) | extract_lets | split

theorem Kept.winWrite {s0 s : Dev} (h : Kept s0 s) (r : WinReg) (v : BitVec 64) : Kept s0 (s.winWrite r v) := by
  unfold Dev.winWrite
  repeat' first
    | with_reducible first | assumption | apply Kept.hold | apply Kept.dropWrite | apply Kept.winShadow
    | (intro) | extract_lets | split

theorem Kept.winBoundary {s0 s : Dev} (h : Kept s0 s) : Kept s0 (s.winBoundary) := by
  unfold Dev.winBoundary
  repeat' first
    | with_reducible first | assumption | apply Kept.onWin | apply Kept.record
    | (intro) | extract_lets | split

theorem Kept.windowWrite {s0 s : Dev} (h : Kept s0 s) (offset len data : Nat) : Kept s0 (s.windowWrite offset len data) := by
  unfold Dev.windowWrite
  repeat' first
    | with_reducible first | assumption | apply Kept.hold | apply Kept.dropWrite | apply Kept.winStore | apply Kept.onWin
                           | apply Kept.record
    | (intro) | extract_lets | split

theorem Kept.winAnswer {s0 s : Dev} (h : Kept s0 s) (off len : Nat) : Kept s0 (s.winAnswer off len) := by
  unfold Dev.winAnswer
  repeat' first
    | with_reducible first | assumption | apply Kept.answer
    | (intro) | extract_lets | split

theorem Kept.windowRead {s0 s : Dev} (h : Kept s0 s) (offset len : Nat) : Kept s0 (s.windowRead offset len) := by
  unfold Dev.windowRead
  repeat' first
    | with_reducible first | assumption | apply Kept.refuseRead | apply Kept.hold | apply Kept.onWin | apply Kept.winAnswer
                           | apply Kept.record
    | (intro) | extract_lets | split

theorem Kept.serveWinReads {s0 s : Dev} (h : Kept s0 s) (ack : Nat) : Kept s0 (s.serveWinReads ack) := by
  unfold Dev.serveWinReads
  repeat' first
    | with_reducible first | assumption | apply Kept.onWin | refine Kept.each ?_ ?_ | apply Kept.winAnswer
    | (intro) | extract_lets | split

theorem Kept.linkTrained {s0 s : Dev} (h : Kept s0 s) (speed width : Nat) (flit : Bool) :
    Kept s0 (s.linkTrained speed width flit) := by
  unfold Dev.linkTrained
  repeat' first
    | with_reducible first | assumption | apply Kept.onHif
    | (intro) | extract_lets | split

theorem Kept.setBme {s0 s : Dev} (h : Kept s0 s) (on : Bool) : Kept s0 (s.setBme on) := by
  unfold Dev.setBme
  repeat' first
    | with_reducible first | assumption | apply Kept.onHif | apply Kept.resumeUpstream
    | (intro) | extract_lets | split

theorem Kept.setMse {s0 s : Dev} (h : Kept s0 s) (on : Bool) : Kept s0 (s.setMse on) := by
  unfold Dev.setMse
  repeat' first
    | with_reducible first | assumption | apply Kept.onHif
    | (intro) | extract_lets | split

theorem Kept.sendUnmasked {s0 s : Dev} (h : Kept s0 s) : Kept s0 (s.sendUnmasked) := by
  unfold Dev.sendUnmasked
  repeat' first
    | with_reducible first | assumption | apply Kept.onHif | refine Kept.each ?_ ?_ | apply Kept.msix
    | (intro) | extract_lets | split

theorem Kept.setMask {s0 s : Dev} (h : Kept s0 s) (t : MaskTarget) : Kept s0 (s.setMask t) := by
  unfold Dev.setMask
  repeat' first
    | with_reducible first | assumption | apply Kept.onHif | apply Kept.sendUnmasked
    | (intro) | extract_lets | split

theorem Kept.ltrBoundary {s0 s : Dev} (h : Kept s0 s) : Kept s0 (s.ltrBoundary) := by
  unfold Dev.ltrBoundary
  repeat' first
    | with_reducible first | assumption | apply Kept.count | apply Kept.onHif
    | (intro) | extract_lets | split

theorem Kept.ltrChange {s0 s : Dev} (h : Kept s0 s) : Kept s0 (s.ltrChange) := by
  unfold Dev.ltrChange
  repeat' first
    | with_reducible first | assumption | apply Kept.onHif | apply Kept.emit
    | (intro) | extract_lets | split

theorem Kept.enterL1 {s0 s : Dev} (h : Kept s0 s) : Kept s0 (s.enterL1) := by
  unfold Dev.enterL1
  repeat' first
    | with_reducible first | assumption | apply Kept.onHif | apply Kept.emit
    | (intro) | extract_lets | split

theorem Kept.exitL1 {s0 s : Dev} (h : Kept s0 s) : Kept s0 (s.exitL1) := by
  unfold Dev.exitL1
  repeat' first
    | with_reducible first | assumption | apply Kept.onHif | apply Kept.emit
    | (intro) | extract_lets | split

theorem Kept.enterD3 {s0 s : Dev} (h : Kept s0 s) : Kept s0 (s.enterD3) := by
  unfold Dev.enterD3
  repeat' first
    | with_reducible first | assumption | apply Kept.onHif | apply Kept.hodReset
    | (intro) | extract_lets | split

theorem Kept.returnD0 {s0 s : Dev} (h : Kept s0 s) : Kept s0 (s.returnD0) := by
  unfold Dev.returnD0
  repeat' first
    | with_reducible first | assumption | apply Kept.onHif | apply Kept.onDrm | apply Kept.resumeUpstream
    | (intro) | extract_lets | split

end Sys2Proof.Safety
end

