-- ==== Sys2Proof/Laws/KeepsTwin.lean ====
section
/-!
SUPPORT. What every function over the block keeps (`Safety.Kept`): assembly, parameter limits and the twin pair. Each lemma names its function.
-/

namespace Sys2Proof.Safety

open Sys2Proof.Machine

/-! ### Assembly -/

theorem Kept.noteCopies {s0 s : Dev} (h : Kept s0 s) (secret : Nat) (uuid : Uid) (found : List NsFound) :
    Kept s0 (s.noteCopies secret uuid found) := by
  unfold Dev.noteCopies
  repeat' first
    | with_reducible first | assumption | refine Kept.each ?_ ?_ | apply Kept.onMember
    | (intro) | extract_lets | split

theorem Kept.placeMembers {s0 s : Dev} (h : Kept s0 s) (f : Field) : Kept s0 (s.placeMembers f) := by
  unfold Dev.placeMembers
  repeat' first
    | with_reducible first | assumption | refine Kept.each ?_ ?_ | apply Kept.onMember
    | (intro) | extract_lets | split

theorem Kept.assembleOne {s0 s : Dev} (h : Kept s0 s) (found : List NsFound) (k : Uid × Nat × Nat) :
    Kept s0 (s.assembleOne found k) := by
  unfold Dev.assembleOne
  repeat' first
    | with_reducible first | assumption | apply Kept.onFields | apply Kept.placeMembers | apply Kept.noteCopies
    | (intro) | extract_lets | split

theorem Kept.assembleAll {s0 s : Dev} (h : Kept s0 s) (found : List NsFound) : Kept s0 (s.assembleAll found) := by
  unfold Dev.assembleAll
  repeat' first
    | with_reducible first | assumption | refine Kept.each ?_ ?_ | apply Kept.assembleOne
    | (intro) | extract_lets | split

theorem Kept.takeHome {s0 s : Dev} (h : Kept s0 s) (fid : Nat) : Kept s0 (s.takeHome fid) := by
  unfold Dev.takeHome
  repeat' first
    | with_reducible first | assumption | apply Kept.onField
    | (intro) | extract_lets | split

theorem Kept.importReshape {s0 s : Dev} (h : Kept s0 s) (fid : Nat) : Kept s0 (s.importReshape fid) := by
  unfold Dev.importReshape
  repeat' first
    | with_reducible first | assumption | refine Kept.each ?_ ?_ | apply Kept.header | apply Kept.stepSlot
    | (intro) | extract_lets | split

theorem Kept.importField {s0 s : Dev} (h : Kept s0 s) (fid : Nat) (rep : Option Replica) : Kept s0 (s.importField fid rep) := by
  unfold Dev.importField
  repeat' first
    | with_reducible first | assumption | apply Kept.importReshape | apply Kept.dropSlots | apply Kept.onField
                           | apply Kept.takeHome | refine Kept.each ?_ ?_ | apply Kept.setBit | apply Kept.commitEntry
                           | apply Kept.markRegions | apply Kept.regionRecord
    | (intro) | extract_lets | split

theorem Kept.repairLabels {s0 s : Dev} (h : Kept s0 s) (f : Field) (found : List NsFound) :
    Kept s0 (s.repairLabels f found) := by
  unfold Dev.repairLabels
  repeat' first
    | with_reducible first | assumption | apply Kept.changeLabel | apply Kept.onField | refine Kept.each ?_ ?_
                           | apply Kept.writeLabel
    | (intro) | extract_lets | split

theorem Kept.repairCheckpoint {s0 s : Dev} (h : Kept s0 s) (f : Field) (found : List NsFound) :
    Kept s0 (s.repairCheckpoint f found) := by
  unfold Dev.repairCheckpoint
  repeat' first
    | with_reducible first | assumption | apply Kept.writeCheckpoint
    | (intro) | extract_lets | split

theorem Kept.takeUp {s0 s : Dev} (h : Kept s0 s) (fid : Nat) : Kept s0 (s.takeUp fid) := by
  unfold Dev.takeUp
  repeat' first
    | with_reducible first | assumption | apply Kept.onField | apply Kept.markRegions | refine Kept.when ?_ ?_
                           | apply Kept.dropSlots | apply Kept.freeReshape | apply Kept.importField
                           | apply Kept.repairLabels | apply Kept.repairCheckpoint | apply Kept.ite
    | exact id | exact .same rfl rfl rfl rfl rfl rfl rfl | (intro) | extract_lets | split

/-! ### Limits -/

theorem Kept.stageOne {s0 s : Dev} (h : Kept s0 s) (e : Nat × Nat × Nat) : Kept s0 (s.stageOne e) := by
  unfold Dev.stageOne
  split
  · exact h.of_parts rfl rfl rfl rfl ⟨rfl, rfl, rfl⟩ rfl rfl
  · exact h.onMpt
  · exact h.onDrm
  · exact h.onHod
  · exact h

theorem Kept.stage {s0 s : Dev} (h : Kept s0 s) (l : List (Nat × Nat × Nat)) : Kept s0 (s.stage l) := by
  unfold Dev.stage
  repeat' first
    | with_reducible first | assumption | refine Kept.each ?_ ?_ | apply Kept.stageOne
    | (intro) | extract_lets | split

theorem Kept.paramBoundary {s0 s : Dev} (h : Kept s0 s) : Kept s0 (s.paramBoundary) := by
  unfold Dev.paramBoundary
  extract_lets d x y w z
  have hx : Kept s0 x := h.of_parts rfl rfl rfl rfl ⟨rfl, rfl, rfl⟩ rfl rfl
  exact hx.onMpt.onDrm.onHod.when fun _ hs => hs.hodInvalidate

/-! ### TwinLink -/

theorem Kept.dropRecord {s0 s : Dev} (h : Kept s0 s) (fid : Nat) : Kept s0 (s.dropRecord fid) := by
  unfold Dev.dropRecord
  repeat' first
    | with_reducible first | assumption | apply Kept.header | apply Kept.onField
    | (intro) | extract_lets | split

theorem Kept.dropField {s0 s : Dev} (h : Kept s0 s) (fid : Nat) : Kept s0 (s.dropField fid) := by
  unfold Dev.dropField
  repeat' first
    | with_reducible first | assumption | refine Kept.each ?_ ?_ | apply Kept.stage | apply Kept.endCmd
                           | apply Kept.abortJob | apply Kept.onMpt | apply Kept.onCache | apply Kept.dropSlots
                           | apply Kept.dropRecord | apply Kept.mbxWake | apply Kept.onField | apply Kept.onTwn
                           | apply Kept.commitEntry | apply Kept.bumpEpoch | apply Kept.hodInvalidate
    | (intro) | extract_lets | split

theorem Kept.poolToCache {s0 s : Dev} (h : Kept s0 s) (fid : Nat) : Kept s0 (s.poolToCache fid) := by
  unfold Dev.poolToCache
  repeat' first
    | with_reducible first | assumption | apply Kept.onTwn | apply Kept.onCache | refine Kept.each ?_ ?_
                           | apply Kept.placeLine | refine Kept.foldl Prod.fst ?_ _ ?_
    | (intro) | extract_lets | split

theorem Kept.cacheToPool {s0 s : Dev} (h : Kept s0 s) (fid : Nat) : Kept s0 (s.cacheToPool fid) := by
  unfold Dev.cacheToPool
  repeat' first
    | with_reducible first | assumption | apply Kept.onCache | apply Kept.onTwn
    | (intro) | extract_lets | split

theorem Kept.abortHandover {s0 s : Dev} (h : Kept s0 s) (h : Handover) (partnerLost : Bool) :
    Kept s0 (s.abortHandover h partnerLost) := by
  unfold Dev.abortHandover
  repeat' first
    | with_reducible first | assumption | apply Kept.onTwn | apply Kept.poolToCache | apply Kept.onField
                           | apply Kept.takeHome | apply Kept.commitEntry | apply Kept.pairRecord | apply Kept.mbxWake
                           | apply Kept.dropField | apply Kept.ite
    | exact id | exact .same rfl rfl rfl rfl rfl rfl rfl | (intro) | extract_lets | split

theorem Kept.leavePartner {s0 s : Dev} (h : Kept s0 s) (partnerLost : Bool) : Kept s0 (s.leavePartner partnerLost) := by
  unfold Dev.leavePartner
  repeat' first
    | with_reducible first | assumption | apply Kept.serveWinReads | apply Kept.onWin | apply Kept.onTwn | apply Kept.onTck
                           | refine Kept.each ?_ ?_ | apply Kept.abortHandover | apply Kept.mbxWake | apply Kept.mbxRefuse
    | exact ⟨rfl, rfl, rfl⟩ | (intro) | extract_lets | split

theorem Kept.setPair {s0 s : Dev} (h : Kept s0 s) (new : Nat) : Kept s0 (s.setPair new) := by
  unfold Dev.setPair
  repeat' first
    | with_reducible first | assumption | apply Kept.onTwn | apply Kept.recordEvent | apply Kept.leavePartner
    | (intro) | extract_lets | split

theorem Kept.endSession {s0 s : Dev} (h : Kept s0 s) : Kept s0 (s.endSession) := by
  unfold Dev.endSession
  repeat' first
    | with_reducible first | assumption | apply Kept.onTwn | apply Kept.setPair
    | (intro) | extract_lets | split

theorem Kept.frame {s0 s : Dev} (h : Kept s0 s) (ok : Bool) (f : Dev → Dev) (hf : ∀ x, Kept s0 x → Kept s0 (f x)) :
    Kept s0 (s.frame ok f) := by
  unfold Dev.frame
  repeat' first
    | with_reducible first | assumption | apply Kept.onLnk | apply Kept.endSession | apply hf
    | (intro) | extract_lets | split

theorem Kept.twinTrained {s0 s : Dev} (h : Kept s0 s) (width : Nat) : Kept s0 (s.twinTrained width) := by
  unfold Dev.twinTrained
  repeat' first
    | with_reducible first | assumption | apply Kept.count | apply Kept.endSession | apply Kept.onTwn | apply Kept.drew
                           | apply Kept.onLnk | refine Kept.when ?_ ?_ | apply Kept.record | apply Kept.sendAgreement
                           | apply Kept.ite
    | exact id | exact .same rfl rfl rfl rfl rfl rfl rfl | (intro) | extract_lets | split

theorem Kept.twinLost {s0 s : Dev} (h : Kept s0 s) : Kept s0 (s.twinLost) := by
  unfold Dev.twinLost
  repeat' first
    | with_reducible first | assumption | apply Kept.onTwn | apply Kept.endSession
    | (intro) | extract_lets | split

theorem Kept.refusePair {s0 s : Dev} (h : Kept s0 s) (r : RefuseReason) : Kept s0 (s.refusePair r) := by
  unfold Dev.refusePair
  repeat' first
    | with_reducible first | assumption | apply Kept.onTwn | apply Kept.sendAgreement | apply Kept.recordKstEvent
                           | apply Kept.setPair
    | (intro) | extract_lets | split

theorem Kept.offerIn {s0 s : Dev} (h : Kept s0 s) (o : Offer) (chainsOk : Bool) : Kept s0 (s.offerIn o chainsOk) := by
  unfold Dev.offerIn
  repeat' first
    | with_reducible first | assumption | apply Kept.refusePair | apply Kept.onTwn | apply Kept.onLnk
                           | apply Kept.sendAgreement
    | (intro) | extract_lets | split

theorem Kept.proofIn {s0 s : Dev} (h : Kept s0 s) (sigsOk : Bool) : Kept s0 (s.proofIn sigsOk) := by
  unfold Dev.proofIn
  repeat' first
    | with_reducible first | assumption | apply Kept.refusePair | apply Kept.onTwn | apply Kept.onLnk | apply Kept.sendFrame
    | (intro) | extract_lets | split

theorem Kept.refuseIn {s0 s : Dev} (h : Kept s0 s) : Kept s0 (s.refuseIn) := by
  unfold Dev.refuseIn
  repeat' first
    | with_reducible first | assumption | apply Kept.onTwn | apply Kept.setPair
    | (intro) | extract_lets | split

theorem Kept.agreeTimeout {s0 s : Dev} (h : Kept s0 s) : Kept s0 (s.agreeTimeout) := by
  unfold Dev.agreeTimeout
  repeat' first
    | with_reducible first | assumption | apply Kept.refusePair
    | (intro) | extract_lets | split

theorem Kept.retrain {s0 s : Dev} (h : Kept s0 s) : Kept s0 (s.retrain) := by
  unfold Dev.retrain
  repeat' first
    | with_reducible first | assumption | apply Kept.record | apply Kept.emit | apply Kept.onTwn | apply Kept.endSession
    | (intro) | extract_lets | split

theorem Kept.flitIn {s0 s : Dev} (h : Kept s0 s) (seq : BitVec 12) (kind : BitVec 4) (credit : BitVec 16) (crcOk : Bool) :
    Kept s0 (s.flitIn seq kind credit crcOk) := by
  unfold Dev.flitIn
  repeat' first
    | with_reducible first | assumption | apply Kept.retrain | apply Kept.onTwn | apply Kept.sendFlit | apply Kept.onLnk
    | (intro) | extract_lets | split

theorem Kept.replayIn {s0 s : Dev} (h : Kept s0 s) (seq : BitVec 12) : Kept s0 (s.replayIn seq) := by
  unfold Dev.replayIn
  repeat' first
    | with_reducible first | assumption | apply Kept.onTwn | apply Kept.retrain | apply Kept.count | apply Kept.emit
    | (intro) | extract_lets | split

theorem Kept.markerIn {s0 s : Dev} (h : Kept s0 s) (o : Int) : Kept s0 (s.markerIn o) := by
  unfold Dev.markerIn
  repeat' first
    | with_reducible first | assumption | refine Kept.when ?_ ?_ | apply Kept.record | apply Kept.onTck
    | exact ⟨rfl, rfl, rfl⟩ | (intro) | extract_lets | split

theorem Kept.pulseIn {s0 s : Dev} (h : Kept s0 s) : Kept s0 (s.pulseIn) := by
  unfold Dev.pulseIn
  repeat' first
    | with_reducible first | assumption | apply Kept.onTwn
    | (intro) | extract_lets | split

theorem Kept.aliveFaultIn {s0 s : Dev} (h : Kept s0 s) : Kept s0 (s.aliveFaultIn) := by
  unfold Dev.aliveFaultIn
  repeat' first
    | with_reducible first | assumption | apply Kept.onTwn | apply Kept.record
    | (intro) | extract_lets | split

/-! ### TwinMirror -/

theorem Kept.sendFinal {s0 s : Dev} (h : Kept s0 s) (id : Nat) : Kept s0 (s.sendFinal id) := by
  unfold Dev.sendFinal
  repeat' first
    | with_reducible first | assumption | apply Kept.onCmd | apply Kept.onTwn | apply Kept.sendFrame
    | (intro) | extract_lets | split

theorem Kept.sendFinals {s0 s : Dev} (h : Kept s0 s) : Kept s0 (s.sendFinals) := by
  unfold Dev.sendFinals
  repeat' first
    | with_reducible first | assumption | refine Kept.each ?_ ?_ | apply Kept.sendFinal
    | (intro) | extract_lets | split

theorem Kept.sendBand {s0 s : Dev} (h : Kept s0 s) (f : Nat) : Kept s0 (s.sendBand f) := by
  unfold Dev.sendBand
  repeat' first
    | with_reducible first | assumption | apply Kept.onTwn | refine Kept.each ?_ ?_ | apply Kept.sendFrame
    | (intro) | extract_lets | split

theorem Kept.mirrorAck {s0 s : Dev} (h : Kept s0 s) (ack : BitVec 32) : Kept s0 (s.mirrorAck ack) := by
  unfold Dev.mirrorAck
  repeat' first
    | with_reducible first | assumption | apply Kept.onQs | apply Kept.onCache | apply Kept.onTwn
    | (intro) | extract_lets | split

theorem Kept.sendCkpt {s0 s : Dev} (h : Kept s0 s) : Kept s0 (s.sendCkpt) := by
  unfold Dev.sendCkpt
  repeat' first
    | with_reducible first | assumption | apply Kept.onTwn | refine Kept.each ?_ ?_ | apply Kept.sendFrame
    | (intro) | extract_lets | split

theorem Kept.ckptAck {s0 s : Dev} (h : Kept s0 s) (ack : BitVec 64) : Kept s0 (s.ckptAck ack) := by
  unfold Dev.ckptAck
  repeat' first
    | with_reducible first | assumption | refine Kept.each ?_ ?_ | apply Kept.onField | apply Kept.onTwn | apply Kept.onWin
                           | apply Kept.serveWinReads
    | (intro) | extract_lets | split

theorem Kept.sendPages {s0 s : Dev} (h : Kept s0 s) : Kept s0 (s.sendPages) := by
  unfold Dev.sendPages
  repeat' first
    | with_reducible first | assumption | apply Kept.onWin | refine Kept.each ?_ ?_ | apply Kept.sendFrame
    | (intro) | extract_lets | split

theorem Kept.sendBulkAt {s0 s : Dev} (h : Kept s0 s) (f lba : Nat) : Kept s0 (s.sendBulkAt f lba) := by
  unfold Dev.sendBulkAt
  repeat' first
    | with_reducible first | assumption | refine Kept.each ?_ ?_ | apply Kept.sendFrame | apply Kept.onCache
                           | apply Kept.countN | apply Kept.onTwn
    | (intro) | extract_lets | split

theorem Kept.trySynced {s0 s : Dev} (h : Kept s0 s) : Kept s0 (s.trySynced) := by
  unfold Dev.trySynced
  repeat' first
    | with_reducible first | assumption | apply Kept.setPair | apply Kept.onTwn
    | (intro) | extract_lets | split

theorem Kept.sendBulk {s0 s : Dev} (h : Kept s0 s) : Kept s0 (s.sendBulk) := by
  unfold Dev.sendBulk
  repeat' first
    | with_reducible first | assumption | apply Kept.onTwn | refine Kept.each ?_ ?_ | apply Kept.sendBulkAt
                           | apply Kept.sendFrame | apply Kept.countN | apply Kept.record | apply Kept.trySynced
    | (intro) | extract_lets | split

theorem Kept.sendRecords {s0 s : Dev} (h : Kept s0 s) : Kept s0 (s.sendRecords) := by
  unfold Dev.sendRecords
  repeat' first
    | with_reducible first | assumption | apply Kept.onFbk | refine Kept.each ?_ ?_ | apply Kept.sendFrame
                           | apply Kept.record | apply Kept.ite
    | exact id | exact .same rfl rfl rfl rfl rfl rfl rfl | (intro) | extract_lets | split

theorem Kept.sendReleases {s0 s : Dev} (h : Kept s0 s) : Kept s0 (s.sendReleases) := by
  unfold Dev.sendReleases
  repeat' first
    | with_reducible first | assumption | apply Kept.onTwn | refine Kept.each ?_ ?_ | apply Kept.sendFrame
    | (intro) | extract_lets | split

theorem Kept.takeRecord {s0 s : Dev} (h : Kept s0 s) (fid : Nat) (redo : Bool) : Kept s0 (s.takeRecord fid redo) := by
  unfold Dev.takeRecord
  repeat' first
    | with_reducible first | assumption | apply Kept.onField | apply Kept.header | apply Kept.onCache | apply Kept.ite
    | exact id | exact .same rfl rfl rfl rfl rfl rfl rfl | (intro) | extract_lets | split | (dsimp +zetaDelta only; split)
    | (dsimp only)

theorem Kept.takeField {s0 s : Dev} (h : Kept s0 s) (fid : Nat) (redo : Bool) : Kept s0 (s.takeField fid redo) := by
  unfold Dev.takeField
  repeat' first
    | with_reducible first | assumption | apply Kept.onField | apply Kept.takeHome | refine Kept.each ?_ ?_
                           | apply Kept.setBit | apply Kept.commitEntry | apply Kept.takeRecord | apply Kept.onKst
                           | apply Kept.onTwn | apply Kept.onMst | apply Kept.poolToCache | apply Kept.bumpEpoch
                           | apply Kept.hodInvalidate
    | (intro) | extract_lets | split

theorem Kept.readRegions {s0 s : Dev} (h : Kept s0 s) : Kept s0 (s.readRegions) := by
  unfold Dev.readRegions
  repeat' first
    | with_reducible first | assumption | refine Kept.each ?_ ?_ | apply Kept.memberCmd
    | (intro) | extract_lets | split

theorem Kept.startReread {s0 s : Dev} (h : Kept s0 s) (fid : Nat) (what : RereadFor) : Kept s0 (s.startReread fid what) := by
  unfold Dev.startReread
  repeat' first
    | with_reducible first | assumption | apply Kept.count | apply Kept.onField
    | (intro) | extract_lets | split

theorem Kept.acceptOffer {s0 s : Dev} (h : Kept s0 s) (h : Handover) : Kept s0 (s.acceptOffer h) := by
  unfold Dev.acceptOffer
  repeat' first
    | with_reducible first | assumption | apply Kept.sendFrame | apply Kept.takeField | apply Kept.onTwn
                           | apply Kept.markRegions | apply Kept.startReread
    | (intro) | extract_lets | split

theorem Kept.acceptOffers {s0 s : Dev} (h : Kept s0 s) : Kept s0 (s.acceptOffers) := by
  unfold Dev.acceptOffers
  repeat' first
    | with_reducible first | assumption | refine Kept.each ?_ ?_ | apply Kept.acceptOffer | apply Kept.readRegions
    | (intro) | extract_lets | split

theorem Kept.readForeign {s0 s : Dev} (h : Kept s0 s) : Kept s0 (s.readForeign) := by
  unfold Dev.readForeign
  repeat' first
    | with_reducible first | assumption | refine Kept.each ?_ ?_ | apply Kept.memberCmd
    | (intro) | extract_lets | split

theorem Kept.countHeartbeat {s0 s : Dev} (h : Kept s0 s) : Kept s0 (s.countHeartbeat) := by
  unfold Dev.countHeartbeat
  repeat' first
    | with_reducible first | assumption | refine Kept.when ?_ ?_ | apply Kept.countN | apply Kept.onTwn
    | (intro) | extract_lets | split

theorem Kept.leaveMirror {s0 s : Dev} (h : Kept s0 s) : Kept s0 (s.leaveMirror) := by
  unfold Dev.leaveMirror
  repeat' first
    | with_reducible first | assumption | apply Kept.leaveAdmission | apply Kept.countHeartbeat
    | (intro) | extract_lets | split

theorem Kept.handedOver {s0 s : Dev} (h : Kept s0 s) (h : Handover) : Kept s0 (s.handedOver h) := by
  unfold Dev.handedOver
  repeat' first
    | with_reducible first | assumption | apply Kept.onTwn | apply Kept.onField | apply Kept.hodInvalidate
                           | apply Kept.count | apply Kept.pairRecord | apply Kept.event | apply Kept.mbxWake
    | (intro) | extract_lets | split

theorem Kept.epochIn {s0 s : Dev} (h : Kept s0 s) (e : BitVec 64) : Kept s0 (s.epochIn e) := by
  unfold Dev.epochIn
  repeat' first
    | with_reducible first | assumption | apply Kept.onTwn | refine Kept.each ?_ ?_ | apply Kept.handedOver
    | (intro) | extract_lets | split

theorem Kept.heartbeatIn {s0 s : Dev} (h : Kept s0 s) (h : Heartbeat) : Kept s0 (s.heartbeatIn h) := by
  unfold Dev.heartbeatIn
  repeat' first
    | with_reducible first | assumption | apply Kept.count | refine Kept.when ?_ ?_ | apply Kept.onTck | apply Kept.onTwn
                           | apply Kept.hold | apply Kept.mirrorAck | apply Kept.ckptAck | apply Kept.epochIn
    | exact ⟨rfl, rfl, rfl⟩ | (intro) | extract_lets | split

theorem Kept.lineIn {s0 s : Dev} (h : Kept s0 s) (l : LineFrame) : Kept s0 (s.lineIn l) := by
  unfold Dev.lineIn
  repeat' first
    | with_reducible first | assumption | apply Kept.onTwn
    | (intro) | extract_lets | split

theorem Kept.releaseIn {s0 s : Dev} (h : Kept s0 s) (field lba blocks : Nat) (version : BitVec 64) :
    Kept s0 (s.releaseIn field lba blocks version) := by
  unfold Dev.releaseIn
  repeat' first
    | with_reducible first | assumption | apply Kept.onTwn
    | (intro) | extract_lets | split

theorem Kept.bulkIn {s0 s : Dev} (h : Kept s0 s) (l : LineFrame) : Kept s0 (s.bulkIn l) := by
  unfold Dev.bulkIn
  repeat' first
    | with_reducible first | assumption | apply Kept.onTwn
    | (intro) | extract_lets | split

theorem Kept.pageIn {s0 s : Dev} (h : Kept s0 s) (page : Nat) (b : Block) : Kept s0 (s.pageIn page b) := by
  unfold Dev.pageIn
  repeat' first
    | with_reducible first | assumption | apply Kept.onTwn
    | (intro) | extract_lets | split

theorem Kept.recordIn {s0 s : Dev} (h : Kept s0 s) (r : FbRec) : Kept s0 (s.recordIn r) := by
  unfold Dev.recordIn
  extract_lets r
  refine h.onFbk ?_
  split
  · exact ⟨fun ⟨a, b, c, d⟩ => ⟨a, b, by simpa [modAll_length] using c, d⟩, Nat.le_refl _, Nat.le_refl _, Nat.le_refl _⟩
  · exact ⟨fun ⟨a, b, c, d⟩ => ⟨a, b, by simp only [List.length_drop]; omega, d⟩, Nat.le_refl _, Nat.le_refl _, Nat.le_succ _⟩

theorem Kept.partnerDeletes {s0 s : Dev} (h : Kept s0 s) (fid : Nat) : Kept s0 (s.partnerDeletes fid) := by
  unfold Dev.partnerDeletes
  repeat' first
    | with_reducible first | assumption | apply Kept.onMst | apply Kept.onTwn | refine Kept.each ?_ ?_ | apply Kept.onMember
                           | apply Kept.onFields | apply Kept.commitEntry | apply Kept.bumpEpoch
    | (intro) | extract_lets | split

theorem Kept.ckptIn {s0 s : Dev} (h : Kept s0 s) (l : CkptLine) (last : Bool) : Kept s0 (s.ckptIn l last) := by
  unfold Dev.ckptIn
  repeat' first
    | with_reducible first | assumption | apply Kept.onTwn | apply Kept.onMst | apply Kept.partnerDeletes
                           | apply Kept.onFields | apply Kept.commitEntry | apply Kept.ite
    | exact id | exact .same rfl rfl rfl rfl rfl rfl rfl | (intro) | extract_lets | split

/-! ### TwinPair -/

theorem Kept.sendKeys {s0 s : Dev} (h : Kept s0 s) : Kept s0 (s.sendKeys) := by
  unfold Dev.sendKeys
  repeat' first
    | with_reducible first | assumption | refine Kept.each ?_ ?_ | apply Kept.sendFrame
    | (intro) | extract_lets | split

theorem Kept.sendAgree {s0 s : Dev} (h : Kept s0 s) : Kept s0 (s.sendAgree) := by
  unfold Dev.sendAgree
  repeat' first
    | with_reducible first | assumption | apply Kept.onTwn | apply Kept.sendFrame | apply Kept.sendKeys | apply Kept.ite
    | exact id | exact .same rfl rfl rfl rfl rfl rfl rfl | (intro) | extract_lets | split

theorem Kept.helloIn {s0 s : Dev} (h : Kept s0 s) (h : PairHello) : Kept s0 (s.helloIn h) := by
  unfold Dev.helloIn
  repeat' first
    | with_reducible first | assumption | apply Kept.onTwn | apply Kept.record | apply Kept.setPair
                           | apply Kept.recordKstEvent | apply Kept.count | apply Kept.onTck | apply Kept.sendAgree
    | exact ⟨rfl, rfl, rfl⟩ | (intro) | extract_lets | split

theorem Kept.beginPairing {s0 s : Dev} (h : Kept s0 s) : Kept s0 (s.beginPairing) := by
  unfold Dev.beginPairing
  repeat' first
    | with_reducible first | assumption | apply Kept.sendFrame | apply Kept.onTwn | apply Kept.helloIn
                           | apply Kept.sendAgree
    | (intro) | extract_lets | split

theorem Kept.settleField {s0 s : Dev} (h : Kept s0 s) (mine theirs : Option AgreeEntry) :
    Kept s0 (s.settleField mine theirs) := by
  unfold Dev.settleField
  repeat' first
    | with_reducible first | assumption | apply Kept.onTwn | apply Kept.takeUp | apply Kept.pairRecord
                           | apply Kept.dropField | apply Kept.onCache | apply Kept.onField | apply Kept.ite
    | exact id | exact .same rfl rfl rfl rfl rfl rfl rfl | (intro) | extract_lets | split

theorem Kept.eraseUnlisted {s0 s : Dev} (h : Kept s0 s) (l : List AgreeEntry) : Kept s0 (s.eraseUnlisted l) := by
  unfold Dev.eraseUnlisted
  repeat' first
    | with_reducible first | assumption | apply Kept.onKst | refine Kept.each ?_ ?_ | apply Kept.recordKst
                           | apply Kept.partnerDeletes
    | (intro) | extract_lets | split

theorem Kept.agreeEnd {s0 s : Dev} (h : Kept s0 s) : Kept s0 (s.agreeEnd) := by
  unfold Dev.agreeEnd
  repeat' first
    | with_reducible first | assumption | refine Kept.each ?_ ?_ | apply Kept.settleField | apply Kept.eraseUnlisted
                           | apply Kept.record | apply Kept.onTwn | apply Kept.stage | apply Kept.onQs | apply Kept.onCache
                           | apply Kept.setPair | apply Kept.sendLines | refine Kept.foldl Prod.fst ?_ _ ?_
    | (intro) | extract_lets | split

theorem Kept.tryAgree {s0 s : Dev} (h : Kept s0 s) : Kept s0 (s.tryAgree) := by
  unfold Dev.tryAgree
  repeat' first
    | with_reducible first | assumption | apply Kept.agreeEnd
    | (intro) | extract_lets | split

theorem Kept.agreeIn {s0 s : Dev} (h : Kept s0 s) (final : Bool) (l : List AgreeEntry) : Kept s0 (s.agreeIn final l) := by
  unfold Dev.agreeIn
  repeat' first
    | with_reducible first | assumption | apply Kept.onTwn | apply Kept.sendAgree | apply Kept.tryAgree
    | (intro) | extract_lets | split

theorem Kept.waitExpired {s0 s : Dev} (h : Kept s0 s) : Kept s0 (s.waitExpired) := by
  unfold Dev.waitExpired
  repeat' first
    | with_reducible first | assumption | apply Kept.setPair | refine Kept.each ?_ ?_ | apply Kept.takeUp
                           | apply Kept.onField | apply Kept.pairRecord | apply Kept.onTwn
    | (intro) | extract_lets | split

theorem Kept.reserveIn {s0 s : Dev} (h : Kept s0 s) (f : Nat) (phase : ReservePhase) : Kept s0 (s.reserveIn f phase) := by
  unfold Dev.reserveIn
  repeat' first
    | with_reducible first | assumption | apply Kept.sendFrame | apply Kept.onTwn | apply Kept.mbxRefuse
                           | apply Kept.fieldCreate | apply Kept.makeField
    | (intro) | extract_lets | split

theorem Kept.keysIn {s0 s : Dev} (h : Kept s0 s) (uuid : Uid) (f : Nat) (blob : Option (BitVec 448)) :
    Kept s0 (s.keysIn uuid f blob) := by
  unfold Dev.keysIn
  repeat' first
    | with_reducible first | assumption | apply Kept.onKst | apply Kept.recordKst | refine Kept.when ?_ ?_
    | (intro) | extract_lets | split

theorem Kept.learnField {s0 s : Dev} (h : Kept s0 s) (l : Label) : Kept s0 (s.learnField l) := by
  unfold Dev.learnField
  repeat' first
    | with_reducible first | assumption | apply Kept.onFields | apply Kept.placeMembers | apply Kept.bumpEpoch
    | (intro) | extract_lets | split

theorem Kept.takeover {s0 s : Dev} (h : Kept s0 s) (fid : Nat) : Kept s0 (s.takeover fid) := by
  unfold Dev.takeover
  repeat' first
    | with_reducible first | assumption | apply Kept.takeField | apply Kept.onField | apply Kept.markRegions
                           | apply Kept.onTwn | apply Kept.startReread
    | (intro) | extract_lets | split

theorem Kept.markLines {s0 s : Dev} (h : Kept s0 s) (fid : Nat) : Kept s0 (s.markLines fid) := by
  unfold Dev.markLines
  repeat' first
    | with_reducible first | assumption | apply Kept.onField | refine Kept.foldl Prod.fst ?_ _ ?_
    | (intro) | extract_lets | split

theorem Kept.rereadDone {s0 s : Dev} (h : Kept s0 s) (fid : Nat) (r : Reread) : Kept s0 (s.rereadDone fid r) := by
  unfold Dev.rereadDone
  repeat' first
    | with_reducible first | assumption | apply Kept.onField | apply Kept.placeMembers | apply Kept.noteCopies
                           | refine Kept.when ?_ ?_ | apply Kept.freeReshape | apply Kept.takeover | apply Kept.markLines
                           | apply Kept.changeLabel | apply Kept.importField | apply Kept.pairRecord
                           | refine Kept.each ?_ ?_ | apply Kept.bumpEpoch
    | (intro) | extract_lets | split

theorem Kept.rereadBoundary {s0 s : Dev} (h : Kept s0 s) : Kept s0 (s.rereadBoundary) := by
  unfold Dev.rereadBoundary
  repeat' first
    | with_reducible first | assumption | refine Kept.each ?_ ?_ | apply Kept.rereadDone
    | (intro) | extract_lets | split

theorem Kept.declare {s0 s : Dev} (h : Kept s0 s) : Kept s0 (s.declare) := by
  unfold Dev.declare
  repeat' first
    | with_reducible first | assumption | apply Kept.setPair | apply Kept.count | apply Kept.record | apply Kept.onTwn
                           | refine Kept.each ?_ ?_ | apply Kept.takeover | apply Kept.readRegions
    | (intro) | extract_lets | split

theorem Kept.twoPath {s0 s : Dev} (h : Kept s0 s) : Kept s0 (s.twoPath) := by
  unfold Dev.twoPath
  repeat' first
    | with_reducible first | assumption | apply Kept.countHeartbeat | apply Kept.setPair | apply Kept.declare
                           | apply Kept.ite
    | exact id | exact .same rfl rfl rfl rfl rfl rfl rfl | (intro) | extract_lets | split

theorem Kept.labelDeadline {s0 s : Dev} (h : Kept s0 s) : Kept s0 (s.labelDeadline) := by
  unfold Dev.labelDeadline
  repeat' first
    | with_reducible first | assumption | refine Kept.each ?_ ?_ | apply Kept.takeover | apply Kept.faultEvent
    | (intro) | extract_lets | split

theorem Kept.fenceCheck {s0 s : Dev} (h : Kept s0 s) : Kept s0 (s.fenceCheck) := by
  unfold Dev.fenceCheck
  repeat' first
    | with_reducible first | assumption | apply Kept.onTwn | refine Kept.each ?_ ?_ | apply Kept.memberCmd
    | (intro) | extract_lets | split

theorem Kept.fencePass {s0 s : Dev} (h : Kept s0 s) (fid : Nat) : Kept s0 (s.fencePass fid) := by
  unfold Dev.fencePass
  repeat' first
    | with_reducible first | assumption | apply Kept.onTwn | apply Kept.onField | refine Kept.each ?_ ?_
                           | apply Kept.changeLabel
    | (intro) | extract_lets | split

theorem Kept.fenceDrop {s0 s : Dev} (h : Kept s0 s) (fid : Nat) : Kept s0 (s.fenceDrop fid) := by
  unfold Dev.fenceDrop
  repeat' first
    | with_reducible first | assumption | apply Kept.pairRecord | apply Kept.dropField
    | (intro) | extract_lets | split

theorem Kept.fenceDecide {s0 s : Dev} (h : Kept s0 s) (fid : Nat) : Kept s0 (s.fenceDecide fid) := by
  unfold Dev.fenceDecide
  repeat' first
    | with_reducible first | assumption | apply Kept.onMpt | apply Kept.fencePass | apply Kept.fenceDrop
    | (intro) | extract_lets | split

theorem Kept.fenceLabel {s0 s : Dev} (h : Kept s0 s) (fid : Nat) (l : Option LabelBlk) : Kept s0 (s.fenceLabel fid l) := by
  unfold Dev.fenceLabel
  repeat' first
    | with_reducible first | assumption | apply Kept.fenceDecide | apply Kept.fenceDrop | apply Kept.onTwn
    | (intro) | extract_lets | split

theorem Kept.takeoverDone {s0 s : Dev} (h : Kept s0 s) : Kept s0 (s.takeoverDone) := by
  unfold Dev.takeoverDone
  repeat' first
    | with_reducible first | assumption | refine Kept.each ?_ ?_ | apply Kept.fenceDecide | apply Kept.onField
                           | apply Kept.fieldRecovered | apply Kept.onTwn | apply Kept.recordEvent
    | (intro) | extract_lets | split

theorem Kept.startHandover {s0 s : Dev} (h : Kept s0 s) (fid : Nat) : Kept s0 (s.startHandover fid) := by
  unfold Dev.startHandover
  repeat' first
    | with_reducible first | assumption | apply Kept.onTwn | apply Kept.onField | refine Kept.each ?_ ?_ | apply Kept.endCmd
    | (intro) | extract_lets | split

theorem Kept.handAll {s0 s : Dev} (h : Kept s0 s) : Kept s0 (s.handAll) := by
  unfold Dev.handAll
  repeat' first
    | with_reducible first | assumption | refine Kept.each ?_ ?_ | apply Kept.startHandover
    | (intro) | extract_lets | split

theorem Kept.discardParked {s0 s : Dev} (h : Kept s0 s) (fid : Nat) : Kept s0 (s.discardParked fid) := by
  unfold Dev.discardParked
  repeat' first
    | with_reducible first | assumption | apply Kept.hold | apply Kept.onQs
    | (intro) | extract_lets | split

theorem Kept.handoverDrained {s0 s : Dev} (h : Kept s0 s) (fid : Nat) : Kept s0 (s.handoverDrained fid) := by
  unfold Dev.handoverDrained
  repeat' first
    | with_reducible first | assumption | apply Kept.stage | apply Kept.discardParked | apply Kept.onTwn
                           | apply Kept.sendFrame | apply Kept.offer
    | (intro) | extract_lets | split

theorem Kept.offerField {s0 s : Dev} (h : Kept s0 s) (fid gen : Nat) : Kept s0 (s.offerField fid gen) := by
  unfold Dev.offerField
  repeat' first
    | with_reducible first | assumption | apply Kept.sendFrame | apply Kept.onField | apply Kept.onTwn
    | (intro) | extract_lets | split

theorem Kept.acceptIn {s0 s : Dev} (h : Kept s0 s) (fid : Nat) (ok : Bool) : Kept s0 (s.acceptIn fid ok) := by
  unfold Dev.acceptIn
  repeat' first
    | with_reducible first | assumption | apply Kept.abortHandover | apply Kept.cacheToPool | apply Kept.dropRecord
                           | apply Kept.onField | apply Kept.dropSlots | apply Kept.onTwn | apply Kept.commitEntry
                           | apply Kept.ite
    | exact id | exact .same rfl rfl rfl rfl rfl rfl rfl | (intro) | extract_lets | split

theorem Kept.nextReturn {s0 s : Dev} (h : Kept s0 s) : Kept s0 (s.nextReturn) := by
  unfold Dev.nextReturn
  repeat' first
    | with_reducible first | assumption | apply Kept.onTwn | apply Kept.startHandover
    | (intro) | extract_lets | split

theorem Kept.holdTimeout {s0 s : Dev} (h : Kept s0 s) : Kept s0 (s.holdTimeout) := by
  unfold Dev.holdTimeout
  repeat' first
    | with_reducible first | assumption | apply Kept.hold | apply Kept.handAll
    | (intro) | extract_lets | split

theorem Kept.syncStart {s0 s : Dev} (h : Kept s0 s) (l : List (Nat × Nat × Nat)) : Kept s0 (s.syncStart l) := by
  unfold Dev.syncStart
  repeat' first
    | with_reducible first | assumption | apply Kept.drew | apply Kept.onTwn | refine Kept.each ?_ ?_ | apply Kept.sendFrame
    | (intro) | extract_lets | split

theorem Kept.syncFail {s0 s : Dev} (h : Kept s0 s) (q : SyncReq) (id : Nat) : Kept s0 (s.syncFail q id) := by
  unfold Dev.syncFail
  repeat' first
    | with_reducible first | assumption | refine Kept.each ?_ ?_ | apply Kept.sendFrame | apply Kept.onTwn
                           | apply Kept.mbxWake
    | (intro) | extract_lets | split

theorem Kept.syncAccepted {s0 s : Dev} (h : Kept s0 s) (q : SyncReq) (id v : Nat) : Kept s0 (s.syncAccepted q id v) := by
  unfold Dev.syncAccepted
  repeat' first
    | with_reducible first | assumption | apply Kept.onTwn | apply Kept.sendFrame | apply Kept.syncFail
                           | refine Kept.each ?_ ?_ | apply Kept.mbxWake
    | (intro) | extract_lets | split

theorem Kept.syncIn {s0 s : Dev} (h : Kept s0 s) (phase : SyncPhase) (id v tick : Nat) :
    Kept s0 (s.syncIn phase id v tick) := by
  unfold Dev.syncIn
  repeat' first
    | with_reducible first | assumption | apply Kept.onTwn | apply Kept.sendFrame | apply Kept.syncAccepted
                           | apply Kept.syncFail
    | (intro) | extract_lets | split

theorem Kept.syncBoundary {s0 s : Dev} (h : Kept s0 s) : Kept s0 (s.syncBoundary) := by
  unfold Dev.syncBoundary
  repeat' first
    | with_reducible first | assumption | apply Kept.onTwn | apply Kept.stage
    | (intro) | extract_lets | split

theorem Kept.twinBoundary {s0 s : Dev} (h : Kept s0 s) : Kept s0 (s.twinBoundary) := by
  unfold Dev.twinBoundary
  repeat' first
    | with_reducible first | assumption | apply Kept.countHeartbeat | apply Kept.tryAgree | apply Kept.onTwn
                           | apply Kept.sendFlit | apply Kept.marker | refine Kept.each ?_ ?_ | apply Kept.fenceDecide
                           | apply Kept.nextReturn | apply Kept.handAll | apply Kept.rereadBoundary | apply Kept.ite
    | exact id | exact .same rfl rfl rfl rfl rfl rfl rfl | (intro) | extract_lets | split

theorem Kept.twnStatus {s0 s : Dev} (h : Kept s0 s) (p : MbxPath) : Kept s0 (s.twnStatus p) := by
  unfold Dev.twnStatus
  repeat' first
    | with_reducible first | assumption | apply Kept.mbxDone
    | (intro) | extract_lets | split

theorem Kept.twnHandover {s0 s : Dev} (h : Kept s0 s) (p : MbxPath) (r : MbxReq) : Kept s0 (s.twnHandover p r) := by
  unfold Dev.twnHandover
  repeat' first
    | with_reducible first | assumption | apply Kept.withField | apply Kept.mbxRefuse | apply Kept.startHandover
                           | apply Kept.mbxWait
    | (intro) | extract_lets | split

theorem Kept.twnReturn {s0 s : Dev} (h : Kept s0 s) (p : MbxPath) : Kept s0 (s.twnReturn p) := by
  unfold Dev.twnReturn
  repeat' first
    | with_reducible first | assumption | apply Kept.mbxRefuse | apply Kept.mbxDone | apply Kept.onTwn | apply Kept.mbxWait
    | (intro) | extract_lets | split

theorem Kept.twnAdopt {s0 s : Dev} (h : Kept s0 s) (p : MbxPath) (r : MbxReq) : Kept s0 (s.twnAdopt p r) := by
  unfold Dev.twnAdopt
  repeat' first
    | with_reducible first | assumption | apply Kept.withField | apply Kept.mbxRefuse | apply Kept.onField
                           | apply Kept.onTwn | apply Kept.onKst | apply Kept.startReread | apply Kept.readRegions
                           | apply Kept.mbxWait | apply Kept.bumpEpoch | apply Kept.ite
    | exact id | exact .same rfl rfl rfl rfl rfl rfl rfl | (intro) | extract_lets | split

theorem Kept.onTwnStatus {s0 s : Dev} (h : Kept s0 s) (p : MbxPath) (r : MbxReq) : Kept s0 (s.onTwnStatus p r) := by
  unfold Dev.onTwnStatus
  repeat' first
    | with_reducible first | assumption | apply Kept.mbxCommand | apply Kept.twnStatus
    | (intro) | extract_lets | split

theorem Kept.onTwnHandover {s0 s : Dev} (h : Kept s0 s) (p : MbxPath) (r : MbxReq) : Kept s0 (s.onTwnHandover p r) := by
  unfold Dev.onTwnHandover
  repeat' first
    | with_reducible first | assumption | apply Kept.mbxCommand | apply Kept.twnHandover
    | (intro) | extract_lets | split

theorem Kept.onTwnReturn {s0 s : Dev} (h : Kept s0 s) (p : MbxPath) (r : MbxReq) : Kept s0 (s.onTwnReturn p r) := by
  unfold Dev.onTwnReturn
  repeat' first
    | with_reducible first | assumption | apply Kept.mbxCommand | apply Kept.twnReturn
    | (intro) | extract_lets | split

theorem Kept.onTwnAdopt {s0 s : Dev} (h : Kept s0 s) (p : MbxPath) (r : MbxReq) : Kept s0 (s.onTwnAdopt p r) := by
  unfold Dev.onTwnAdopt
  repeat' first
    | with_reducible first | assumption | apply Kept.mbxCommand | apply Kept.twnAdopt
    | (intro) | extract_lets | split

end Sys2Proof.Safety
end

