-- ==== Sys2Proof/Laws/KeepsKeystone.lean ====
section
/-!
SUPPORT. What every function over the block keeps (`Safety.Kept`): member completions, tasks, the vault, the Field Book, the Keystone and updates. Each lemma names its function.
-/

namespace Sys2Proof.Safety

open Sys2Proof.Machine

/-! ### Completions -/

theorem Kept.dropMcmd {s0 s : Dev} (h : Kept s0 s) (id : Nat) : Kept s0 (s.dropMcmd id) := by
  unfold Dev.dropMcmd
  repeat' first
    | with_reducible first | assumption | apply Kept.onMpt
    | (intro) | extract_lets | split

theorem Kept.jobWriteDone {s0 s : Dev} (h : Kept s0 s) (j : Nat) : Kept s0 (s.jobWriteDone j) := by
  unfold Dev.jobWriteDone
  repeat' first
    | with_reducible first | assumption | apply Kept.onJob | apply Kept.settle
    | (intro) | extract_lets | split

theorem Kept.noteRegion {s0 s : Dev} (h : Kept s0 s) (m : Nat) (r : RegionRead) : Kept s0 (s.noteRegion m r) := by
  unfold Dev.noteRegion
  repeat' first
    | with_reducible first | assumption | apply Kept.onMember | apply Kept.onMpt
    | (intro) | extract_lets | split

theorem Kept.noteRead {s0 s : Dev} (h : Kept s0 s) (m : Nat) (p : MPayload) : Kept s0 (s.noteRead m p) := by
  unfold Dev.noteRead
  repeat' first
    | with_reducible first | assumption | apply Kept.noteRegion
    | (intro) | extract_lets | split

theorem Kept.readDone {s0 s : Dev} (h : Kept s0 s) (c : MCmd) (p : MPayload) : Kept s0 (s.readDone c p) := by
  unfold Dev.readDone
  repeat' first
    | with_reducible first | assumption | apply Kept.hostRead | apply Kept.dropMcmd | apply Kept.readLanded
                           | apply Kept.cellsLanded | apply Kept.afterReads | apply Kept.fenceLabel | apply Kept.noteRead
                           | apply Kept.learnField
    | (intro) | extract_lets | split

theorem Kept.writeDone {s0 s : Dev} (h : Kept s0 s) (c : MCmd) : Kept s0 (s.writeDone c) := by
  unfold Dev.writeDone
  repeat' first
    | with_reducible first | assumption | apply Kept.dropMcmd | apply Kept.jobWriteDone | apply Kept.labelDone
                           | apply Kept.bareLanded | apply Kept.copyLanded | apply Kept.replicaLanded | apply Kept.onField
                           | apply Kept.regionLanded | apply Kept.mbxWake | apply Kept.hostRead
    | (intro) | extract_lets | split

theorem Kept.readLost {s0 s : Dev} (h : Kept s0 s) (c : MCmd) (why : Cause) : Kept s0 (s.readLost c why) := by
  unfold Dev.readLost
  repeat' first
    | with_reducible first | assumption | apply Kept.dropMcmd | apply Kept.hostRead | apply Kept.readFailed
                           | apply Kept.cellsFailed | apply Kept.afterReads | apply Kept.fenceLabel
    | (intro) | extract_lets | split

theorem Kept.healFailed {s0 s : Dev} (h : Kept s0 s) (c : MCmd) (j : Nat) : Kept s0 (s.healFailed c j) := by
  unfold Dev.healFailed
  repeat' first
    | with_reducible first | assumption | apply Kept.count | apply Kept.record | apply Kept.onMember | apply Kept.dropMcmd
                           | apply Kept.jobWriteDone
    | (intro) | extract_lets | split

theorem Kept.mwriteFails {s0 s : Dev} (h : Kept s0 s) (c : MCmd) : Kept s0 (s.mwriteFails c) := by
  unfold Dev.mwriteFails
  repeat' first
    | with_reducible first | assumption | apply Kept.healFailed | apply Kept.dropMcmd | apply Kept.mbxWake
                           | apply Kept.onMpt | apply Kept.faultEvent
    | (intro) | extract_lets | split

theorem Kept.mcmdFails {s0 s : Dev} (h : Kept s0 s) (c : MCmd) (why : Cause) : Kept s0 (s.mcmdFails c why) := by
  unfold Dev.mcmdFails
  repeat' first
    | with_reducible first | assumption | apply Kept.readLost | apply Kept.mwriteFails
    | (intro) | extract_lets | split

theorem Kept.mcmdRetires {s0 s : Dev} (h : Kept s0 s) (id : Nat) (r : MemberResult) : Kept s0 (s.mcmdRetires id r) := by
  unfold Dev.mcmdRetires
  repeat' first
    | with_reducible first | assumption | apply Kept.onMpt | apply Kept.readDone | apply Kept.writeDone
                           | apply Kept.memberAdmin | apply Kept.mcmdFails
    | (intro) | extract_lets | split

theorem Kept.mcmdCompletes {s0 s : Dev} (h : Kept s0 s) (id : Nat) (r : MemberResult) : Kept s0 (s.mcmdCompletes id r) := by
  unfold Dev.mcmdCompletes
  repeat' first
    | with_reducible first | assumption | apply Kept.mcmdRetires | apply Kept.onMpt
    | (intro) | extract_lets | split

theorem Kept.retireArrived {s0 s : Dev} (h : Kept s0 s) : Kept s0 (s.retireArrived) := by
  unfold Dev.retireArrived
  repeat' first
    | with_reducible first | assumption | apply Kept.onMpt | refine Kept.each ?_ ?_ | apply Kept.mcmdRetires
    | (intro) | extract_lets | split

theorem Kept.mcmdTransport {s0 s : Dev} (h : Kept s0 s) (id : Nat) : Kept s0 (s.mcmdTransport id) := by
  unfold Dev.mcmdTransport
  repeat' first
    | with_reducible first | assumption | apply Kept.mcmdFails
    | (intro) | extract_lets | split

theorem Kept.mcmdHedged {s0 s : Dev} (h : Kept s0 s) (id : Nat) : Kept s0 (s.mcmdHedged id) := by
  unfold Dev.mcmdHedged
  repeat' first
    | with_reducible first | assumption | apply Kept.memberAdmin | apply Kept.readLost
    | (intro) | extract_lets | split

/-! ### Tasks -/

theorem Kept.postResult {s0 s : Dev} (h : Kept s0 s) (r : TaskResult) : Kept s0 (s.postResult r) := by
  unfold Dev.postResult
  repeat' first
    | with_reducible first | assumption | apply Kept.onTasks
    | (intro) | extract_lets | split

theorem Kept.slotGrants {s0 s : Dev} (h : Kept s0 s) : Kept s0 (s.slotGrants).1 := by
  unfold Dev.slotGrants
  repeat' first
    | with_reducible first | assumption | apply Kept.drew | refine Kept.foldl Prod.fst ?_ _ ?_
    | (intro) | extract_lets | split

theorem Kept.overrun {s0 s : Dev} (h : Kept s0 s) (t : TaskId) : Kept s0 (s.overrun t) := by
  unfold Dev.overrun
  repeat' first
    | with_reducible first | assumption | apply Kept.onTck | apply Kept.count | apply Kept.record
    | exact ⟨rfl, rfl, rfl⟩ | (intro) | extract_lets | split

theorem Kept.overrunStorm {s0 s : Dev} (h : Kept s0 s) : Kept s0 (s.overrunStorm) := by
  unfold Dev.overrunStorm
  repeat' first
    | with_reducible first | assumption | apply Kept.onTck | apply Kept.recordEvent
    | exact ⟨rfl, rfl, rfl⟩ | (intro) | extract_lets | split

/-! ### Vault -/

theorem Kept.vaultRecordOf {s0 s : Dev} (h : Kept s0 s) (code ch n : Nat) (seq : BitVec 64) :
    Kept s0 (s.vaultRecordOf code ch n seq) := by
  unfold Dev.vaultRecordOf
  repeat' first
    | with_reducible first | assumption | apply Kept.record
    | (intro) | extract_lets | split

theorem Kept.vaultRecord {s0 s : Dev} (h : Kept s0 s) (code n : Nat) (seq : BitVec 64) :
    Kept s0 (s.vaultRecord code n seq) := by
  unfold Dev.vaultRecord
  repeat' first
    | with_reducible first | assumption | apply Kept.vaultRecordOf | apply Kept.drew
    | (intro) | extract_lets | split

theorem Kept.onVslot {s0 s : Dev} (h : Kept s0 s) (i : Nat) (f : VSlot → VSlot) : Kept s0 (s.onVslot i f) := by
  unfold Dev.onVslot
  repeat' first
    | with_reducible first | assumption | apply Kept.onVlt
    | (intro) | extract_lets | split

theorem Kept.rearm {s0 s : Dev} (h : Kept s0 s) : Kept s0 (s.rearm) := by
  unfold Dev.rearm
  repeat' first
    | with_reducible first | assumption | apply Kept.onVlt
    | (intro) | extract_lets | split

theorem Kept.holdup {s0 s : Dev} (h : Kept s0 s) (high : Bool) : Kept s0 (s.holdup high) := by
  unfold Dev.holdup
  repeat' first
    | with_reducible first | assumption | apply Kept.count | apply Kept.onDrm
    | (intro) | extract_lets | split

theorem Kept.holdupSettles {s0 s : Dev} (h : Kept s0 s) : Kept s0 (s.holdupSettles) := by
  unfold Dev.holdupSettles
  repeat' first
    | with_reducible first | assumption | apply Kept.onDrm
    | (intro) | extract_lets | split

theorem Kept.causeRecord {s0 s : Dev} (h : Kept s0 s) (on : Bool) (src : BitVec 16) (n : Nat) :
    Kept s0 (s.causeRecord on src n) := by
  unfold Dev.causeRecord
  repeat' first
    | with_reducible first | assumption | apply Kept.recordEvent
    | (intro) | extract_lets | split

theorem Kept.protBoundary {s0 s : Dev} (h : Kept s0 s) : Kept s0 (s.protBoundary) := by
  unfold Dev.protBoundary
  repeat' first
    | with_reducible first | assumption | refine Kept.each ?_ ?_ | apply Kept.causeRecord | apply Kept.onFields
                           | apply Kept.onDrm | apply Kept.onQs
    | (intro) | extract_lets | split

theorem Kept.loadBoundary {s0 s : Dev} (h : Kept s0 s) : Kept s0 (s.loadBoundary) := by
  unfold Dev.loadBoundary
  repeat' first
    | with_reducible first | assumption | apply Kept.onDrm
    | (intro) | extract_lets | split

theorem Kept.cacheLostJobs {s0 s : Dev} (h : Kept s0 s) : Kept s0 (s.cacheLostJobs) := by
  unfold Dev.cacheLostJobs
  repeat' first
    | with_reducible first | assumption | refine Kept.each ?_ ?_ | apply Kept.abortJob
    | (intro) | extract_lets | split

theorem Kept.sealDirty {s0 s : Dev} (h : Kept s0 s) (f : Field) (p : Nat × Bool) (l : List Line) :
    Kept s0 (s.sealDirty f p l) := by
  unfold Dev.sealDirty
  repeat' first
    | with_reducible first | assumption | apply Kept.addLost | apply Kept.startJob | apply Kept.lostLine
                           | refine Kept.foldl Prod.fst ?_ _ ?_
    | (intro) | extract_lets | split

theorem Kept.loseCache {s0 s : Dev} (h : Kept s0 s) : Kept s0 (s.loseCache) := by
  unfold Dev.loseCache
  repeat' first
    | with_reducible first | assumption | apply Kept.cacheLostJobs | refine Kept.each ?_ ?_ | apply Kept.stage
                           | apply Kept.endWrite | apply Kept.onCache | apply Kept.countN | apply Kept.sealDirty
                           | refine Kept.foldl Prod.fst ?_ _ ?_
    | (intro) | extract_lets | split

theorem Kept.lostBoundary {s0 s : Dev} (h : Kept s0 s) : Kept s0 (s.lostBoundary) := by
  unfold Dev.lostBoundary
  repeat' first
    | with_reducible first | assumption | apply Kept.loseCache
    | (intro) | extract_lets | split

theorem Kept.channelFails {s0 s : Dev} (h : Kept s0 s) (ch : Nat) : Kept s0 (s.channelFails ch) := by
  unfold Dev.channelFails
  repeat' first
    | with_reducible first | assumption | apply Kept.onDrm | apply Kept.recordEvent | apply Kept.loseCache
    | (intro) | extract_lets | split

theorem Kept.directoryRebuilt {s0 s : Dev} (h : Kept s0 s) : Kept s0 (s.directoryRebuilt) := by
  unfold Dev.directoryRebuilt
  repeat' first
    | with_reducible first | assumption | apply Kept.onDrm | apply Kept.record | apply Kept.drew
    | (intro) | extract_lets | split

theorem Kept.patrolPass {s0 s : Dev} (h : Kept s0 s) : Kept s0 (s.patrolPass) := by
  unfold Dev.patrolPass
  repeat' first
    | with_reducible first | assumption | apply Kept.count | apply Kept.onDrm
    | (intro) | extract_lets | split

theorem Kept.loseWindowPage {s0 s : Dev} (h : Kept s0 s) (p : Nat) : Kept s0 (s.loseWindowPage p) := by
  unfold Dev.loseWindowPage
  extract_lets b
  refine (h.onWin fun hm => ?_).drew
  dsimp only
  exact memWrite_wf _ _ hm


theorem Kept.patrolFrame {s0 s : Dev} (h : Kept s0 s) (p : PatrolAt) (k : FrameFault) : Kept s0 (s.patrolFrame p k) := by
  unfold Dev.patrolFrame
  repeat' first
    | with_reducible first | assumption | apply Kept.onDrm | apply Kept.frame | apply Kept.lineFault
                           | apply Kept.frameCorrected | apply Kept.frameRecovered | apply Kept.loseWindowPage
    | (intro) | extract_lets | split

theorem Kept.patrol {s0 s : Dev} (h : Kept s0 s) (l : List (PatrolAt × FrameFault)) : Kept s0 (s.patrol l) := by
  unfold Dev.patrol
  repeat' first
    | with_reducible first | assumption | apply Kept.patrolPass | refine Kept.each ?_ ?_ | apply Kept.patrolFrame
    | (intro) | extract_lets | split

theorem Kept.beginDump {s0 s : Dev} (h : Kept s0 s) : Kept s0 (s.beginDump) := by
  unfold Dev.beginDump
  repeat' first
    | with_reducible first | assumption | apply Kept.onVlt
    | (intro) | extract_lets | split

theorem Kept.writeDump {s0 s : Dev} (h : Kept s0 s) (i : Nat) : Kept s0 (s.writeDump i) := by
  unfold Dev.writeDump
  repeat' first
    | with_reducible first | assumption | apply Kept.drew | apply Kept.vaultRecord | apply Kept.onVslot | apply Kept.onVlt
    | (intro) | extract_lets | split

theorem Kept.dumpBoundary {s0 s : Dev} (h : Kept s0 s) : Kept s0 (s.dumpBoundary) := by
  unfold Dev.dumpBoundary
  repeat' first
    | with_reducible first | assumption | apply Kept.writeDump | apply Kept.beginDump
    | (intro) | extract_lets | split

theorem Kept.dumpStart {s0 s : Dev} (h : Kept s0 s) : Kept s0 (s.dumpStart) := by
  unfold Dev.dumpStart
  repeat' first
    | with_reducible first | assumption | apply Kept.onSys | apply Kept.onVlt | apply Kept.onDrm
    | (intro) | extract_lets | split

theorem Kept.cutDump {s0 s : Dev} (h : Kept s0 s) (framesWritten : Option Nat) : Kept s0 (s.cutDump framesWritten) := by
  unfold Dev.cutDump
  repeat' first
    | with_reducible first | assumption | apply Kept.onVslot | apply Kept.onVlt
    | (intro) | extract_lets | split

theorem Kept.dropForeign {s0 s : Dev} (h : Kept s0 s) (i : Nat) : Kept s0 (s.dropForeign i) := by
  unfold Dev.dropForeign
  repeat' first
    | with_reducible first | assumption | apply Kept.vaultRecord | apply Kept.onVslot
    | (intro) | extract_lets | split

theorem Kept.restoreFrame {s0 s : Dev} (h : Kept s0 s) (e : VFrame) : Kept s0 (s.restoreFrame e) := by
  unfold Dev.restoreFrame
  split
  · refine h.onWin fun hm => ?_
    dsimp only
    exact memWrite_wf _ _ hm
  · exact (h.placeLine _).onCache


theorem Kept.placeBook {s0 s : Dev} (h : Kept s0 s) (i : Nat) (badBlocks : List Nat) : Kept s0 (s.placeBook i badBlocks) := by
  unfold Dev.placeBook
  extract_lets v kept n x
  refine Kept.record ?_ _ _ _ _ _
  exact h.onFbk ⟨fun ⟨a, _, c, d⟩ => ⟨a, by simp only [List.length_drop]; omega, c, d⟩, Nat.le_add_right _ _, Nat.le_refl _, Nat.le_refl _⟩

theorem Kept.restoreFrames {s0 s : Dev} (h : Kept s0 s) (i : Nat) (pages : List (Nat × Nat)) (bad : List Nat) :
    Kept s0 (s.restoreFrames i pages bad) := by
  unfold Dev.restoreFrames
  repeat' first
    | with_reducible first | assumption | refine Kept.each ?_ ?_ | apply Kept.restoreFrame | apply Kept.vaultRecordOf
                           | apply Kept.vaultRecord | apply Kept.onVlt
    | (intro) | extract_lets | split

theorem Kept.dumpAbsent {s0 s : Dev} (h : Kept s0 s) (slot : Option Nat) : Kept s0 (s.dumpAbsent slot) := by
  unfold Dev.dumpAbsent
  repeat' first
    | with_reducible first | assumption | refine Kept.each ?_ ?_ | apply Kept.vaultRecord
    | (intro) | extract_lets | split

theorem Kept.restoreStart {s0 s : Dev} (h : Kept s0 s) (badPages : List (Nat × Nat)) (badFrames badBlocks : List Nat) :
    Kept s0 (s.restoreStart badPages badFrames badBlocks) := by
  unfold Dev.restoreStart
  repeat' first
    | with_reducible first | assumption | apply Kept.dropForeign | apply Kept.placeBook | apply Kept.restoreFrames
                           | apply Kept.dumpAbsent | apply Kept.onSys | apply Kept.rearm | apply Kept.ite
    | exact id | exact .same rfl rfl rfl rfl rfl rfl rfl | (intro) | extract_lets | split

theorem Kept.restoreDone {s0 s : Dev} (h : Kept s0 s) : Kept s0 (s.restoreDone) := by
  unfold Dev.restoreDone
  repeat' first
    | with_reducible first | assumption | apply Kept.vaultRecord | apply Kept.onVslot | apply Kept.onVlt | apply Kept.rearm
    | (intro) | extract_lets | split

theorem Kept.restoreField {s0 s : Dev} (h : Kept s0 s) (f : Field) : Kept s0 (s.restoreField f) := by
  unfold Dev.restoreField
  repeat' first
    | with_reducible first | assumption | apply Kept.onCache | refine Kept.each ?_ ?_ | apply Kept.loseLine
                           | apply Kept.onVlt | apply Kept.onField
    | (intro) | extract_lets | split

theorem Kept.restoreBoundary {s0 s : Dev} (h : Kept s0 s) : Kept s0 (s.restoreBoundary) := by
  unfold Dev.restoreBoundary
  repeat' first
    | with_reducible first | assumption | refine Kept.each ?_ ?_ | apply Kept.restoreField | apply Kept.onCache
                           | apply Kept.onVlt | apply Kept.onField
    | (intro) | extract_lets | split

theorem Kept.eraseDone {s0 s : Dev} (h : Kept s0 s) (i pages : Nat) : Kept s0 (s.eraseDone i pages) := by
  unfold Dev.eraseDone
  repeat' first
    | with_reducible first | assumption | apply Kept.onVslot | apply Kept.rearm
    | (intro) | extract_lets | split

theorem Kept.healthTest {s0 s : Dev} (h : Kept s0 s) (failed : List Nat) (channel : Option Nat) :
    Kept s0 (s.healthTest failed channel) := by
  unfold Dev.healthTest
  repeat' first
    | with_reducible first | assumption | apply Kept.count | apply Kept.onVlt | refine Kept.each ?_ ?_
                           | apply Kept.vaultRecordOf | apply Kept.rearm | apply Kept.ite
    | exact id | exact .same rfl rfl rfl rfl rfl rfl rfl | (intro) | extract_lets | split

theorem Kept.nandFault {s0 s : Dev} (h : Kept s0 s) (c : Nat) : Kept s0 (s.nandFault c) := by
  unfold Dev.nandFault
  repeat' first
    | with_reducible first | assumption | apply Kept.onVlt | apply Kept.record | apply Kept.rearm
    | (intro) | extract_lets | split

theorem Kept.vaultBoundary {s0 s : Dev} (h : Kept s0 s) : Kept s0 (s.vaultBoundary) := by
  unfold Dev.vaultBoundary
  repeat' first
    | with_reducible first | assumption | apply Kept.rearm | apply Kept.dumpBoundary | apply Kept.restoreBoundary
                           | apply Kept.lostBoundary | apply Kept.protBoundary | apply Kept.loadBoundary
    | (intro) | extract_lets | split

/-! ### Book -/

theorem Kept.bookEvent {s0 s : Dev} (h : Kept s0 s) (r : FbRec) : Kept s0 (s.bookEvent r) := by
  unfold Dev.bookEvent
  repeat' first
    | with_reducible first | assumption | refine Kept.when ?_ ?_ | apply Kept.event
    | (intro) | extract_lets | split

theorem Kept.putRecordIn {s0 s : Dev} (h : Kept s0 s) (r : FbRec) : Kept s0 (s.putRecordIn r) := by
  unfold Dev.putRecordIn
  extract_lets r place x y
  have hx : Kept s0 x := Kept.ite (h.toLastWord r) (h.onFbk ⟨fun ⟨a, _, c, d⟩ => ⟨a, by simp only [List.length_drop]; omega, c, d⟩,
    Nat.le_succ _, Nat.le_refl _, Nat.le_refl _⟩)
  exact ((hx.onFbk (.same rfl rfl rfl rfl rfl rfl rfl)).count _).bookEvent _

theorem Kept.writeFold {s0 s : Dev} (h : Kept s0 s) (r : FbLast) : Kept s0 (s.writeFold r) := by
  unfold Dev.writeFold
  extract_lets up it
  refine h.onFbk ?_
  extract_lets k
  split
  · exact ⟨fun ⟨a, b, c, d⟩ => ⟨a, b, c, by simpa [modAll_length] using d⟩, Nat.le_refl _, Nat.le_refl _, Nat.le_refl _⟩
  · exact ⟨fun ⟨a, b, c, d⟩ => ⟨a, by simpa [modAll_length] using b, c, d⟩, Nat.le_refl _, Nat.le_refl _, Nat.le_refl _⟩

theorem Kept.writeDrops {s0 s : Dev} (h : Kept s0 s) : Kept s0 (s.writeDrops) := by
  unfold Dev.writeDrops
  repeat' first
    | with_reducible first | assumption | apply Kept.useSeq | apply Kept.onFbk | apply Kept.putRecordIn | apply Kept.ite
    | exact id | exact .same rfl rfl rfl rfl rfl rfl rfl | (intro) | extract_lets | split

theorem Kept.failBook {s0 s : Dev} (h : Kept s0 s) : Kept s0 (s.failBook) := by
  unfold Dev.failBook
  repeat' first
    | with_reducible first | assumption | apply Kept.onFbk | apply Kept.useSeq | apply Kept.putRecordIn | apply Kept.ite
    | exact id | exact .same rfl rfl rfl rfl rfl rfl rfl | (intro) | extract_lets | split

theorem Kept.writeSlot {s0 s : Dev} (h : Kept s0 s) (logicFault : Bool) : Kept s0 (s.writeSlot logicFault) := by
  unfold Dev.writeSlot
  split
  · exact h
  · extract_lets x
    have hx : Kept s0 x := h.when fun _ hs => hs.failBook
    clear_value x
    split
    · exact hx.writeFold _
    · split
      · exact hx.writeDrops
      · split
        · exact hx
        · rename_i r l hl
          refine (hx.onFbk ⟨fun ⟨a, b⟩ => ⟨?_, b⟩, Nat.le_refl _, Nat.le_refl _, Nat.le_refl _⟩).putRecordIn _
          rw [hl, List.length_cons] at a
          exact Nat.le_of_succ_le a

theorem Kept.slotError {s0 s : Dev} (h : Kept s0 s) (n : Nat) (bad : Bool) : Kept s0 (s.slotError n bad) := by
  unfold Dev.slotError
  repeat' first
    | with_reducible first | assumption | apply Kept.count | apply Kept.record | apply Kept.onFbk | apply Kept.failBook
                           | apply Kept.ite
    | exact id | exact .same rfl rfl rfl rfl rfl rfl rfl | (intro) | extract_lets | split

theorem Kept.fbkRead {s0 s : Dev} (h : Kept s0 s) (p : MbxPath) (r : MbxReq) (ecc : List (Nat × Bool)) :
    Kept s0 (s.fbkRead p r ecc) := by
  unfold Dev.fbkRead
  repeat' first
    | with_reducible first | assumption | apply Kept.mbxRefuse | refine Kept.each ?_ ?_ | apply Kept.slotError
                           | apply Kept.mbxDone
    | (intro) | extract_lets | split

theorem Kept.fbkInfo {s0 s : Dev} (h : Kept s0 s) (p : MbxPath) : Kept s0 (s.fbkInfo p) := by
  unfold Dev.fbkInfo
  repeat' first
    | with_reducible first | assumption | apply Kept.mbxDone | apply Kept.mirror
    | (intro) | extract_lets | split

theorem Kept.onFbkRead {s0 s : Dev} (h : Kept s0 s) (p : MbxPath) (r : MbxReq) (ecc : List (Nat × Bool)) :
    Kept s0 (s.onFbkRead p r ecc) := by
  unfold Dev.onFbkRead
  repeat' first
    | with_reducible first | assumption | apply Kept.mbxCommand | apply Kept.fbkRead
    | (intro) | extract_lets | split

theorem Kept.onFbkInfo {s0 s : Dev} (h : Kept s0 s) (p : MbxPath) (r : MbxReq) : Kept s0 (s.onFbkInfo p r) := by
  unfold Dev.onFbkInfo
  repeat' first
    | with_reducible first | assumption | apply Kept.mbxCommand | apply Kept.fbkInfo
    | (intro) | extract_lets | split

/-! ### Keystone -/

theorem Kept.setOwner {s0 s : Dev} (h : Kept s0 s) (gen : Nat) (r : Option OwnerRec) : Kept s0 (s.setOwner gen r) := by
  unfold Dev.setOwner
  repeat' first
    | with_reducible first | assumption | apply Kept.onKst | apply Kept.onMst
    | (intro) | extract_lets | split

theorem Kept.ownerLanded {s0 s : Dev} (h : Kept s0 s) (p : Option MbxPath) : Kept s0 (s.ownerLanded p) := by
  unfold Dev.ownerLanded
  repeat' first
    | with_reducible first | assumption | apply Kept.onKst | apply Kept.mbxDone
    | (intro) | extract_lets | split

theorem Kept.authFailed {s0 s : Dev} (h : Kept s0 s) (p : MbxPath) : Kept s0 (s.authFailed p) := by
  unfold Dev.authFailed
  repeat' first
    | with_reducible first | assumption | apply Kept.count | apply Kept.recordKstEvent | apply Kept.mbxDone
    | (intro) | extract_lets | split

theorem Kept.bundleActs {s0 s : Dev} (h : Kept s0 s) (p : MbxPath) (b : Bundle) : Kept s0 (s.bundleActs p b) := by
  unfold Dev.bundleActs
  repeat' first
    | with_reducible first | assumption | apply Kept.setOwner | apply Kept.onKst | apply Kept.recordKstEvent
                           | apply Kept.mbxWait | apply Kept.commitCounter | apply Kept.ownerLanded
    | (intro) | extract_lets | split

theorem Kept.bundleDone {s0 s : Dev} (h : Kept s0 s) (p : MbxPath) (l : List Byte) (sigsOk : Bool) :
    Kept s0 (s.bundleDone p l sigsOk) := by
  unfold Dev.bundleDone
  repeat' first
    | with_reducible first | assumption | apply Kept.onKst | apply Kept.authFailed | apply Kept.mbxRefuse
                           | apply Kept.mbxDone | apply Kept.bundleActs
    | (intro) | extract_lets | split

theorem Kept.ownerEnrol {s0 s : Dev} (h : Kept s0 s) (p : MbxPath) (r : MbxReq) (sigsOk : Bool) :
    Kept s0 (s.ownerEnrol p r sigsOk) := by
  unfold Dev.ownerEnrol
  repeat' first
    | with_reducible first | assumption | apply Kept.onKst | apply Kept.mbxRefuse | apply Kept.bundleDone | apply Kept.mbxOk
    | (intro) | extract_lets | split

theorem Kept.ownerPolicy {s0 s : Dev} (h : Kept s0 s) (p : MbxPath) : Kept s0 (s.ownerPolicy p) := by
  unfold Dev.ownerPolicy
  repeat' first
    | with_reducible first | assumption | apply Kept.mbxDone
    | (intro) | extract_lets | split

theorem Kept.ledgerRead {s0 s : Dev} (h : Kept s0 s) (p : MbxPath) (r : MbxReq) : Kept s0 (s.ledgerRead p r) := by
  unfold Dev.ledgerRead
  repeat' first
    | with_reducible first | assumption | apply Kept.mbxRefuse | apply Kept.mbxDone
    | (intro) | extract_lets | split

theorem Kept.ledgerInfo {s0 s : Dev} (h : Kept s0 s) (p : MbxPath) : Kept s0 (s.ledgerInfo p) := by
  unfold Dev.ledgerInfo
  repeat' first
    | with_reducible first | assumption | apply Kept.drew | apply Kept.onKst | apply Kept.mbxDone
    | (intro) | extract_lets | split

theorem Kept.certRead {s0 s : Dev} (h : Kept s0 s) (p : MbxPath) (r : MbxReq) : Kept s0 (s.certRead p r) := by
  unfold Dev.certRead
  repeat' first
    | with_reducible first | assumption | apply Kept.mbxRefuse | apply Kept.mbxDone
    | (intro) | extract_lets | split

theorem Kept.spdm {s0 s : Dev} (h : Kept s0 s) (t : MbxPath) (m : Spdm) : Kept s0 (s.spdm t m) := by
  unfold Dev.spdm
  repeat' first
    | with_reducible first | assumption | apply Kept.emit | apply Kept.unsupported
    | (intro) | extract_lets | split

theorem Kept.spdmVersion {s0 s : Dev} (h : Kept s0 s) (t : MbxPath) : Kept s0 (s.spdmVersion t) := by
  unfold Dev.spdmVersion
  repeat' first
    | with_reducible first | assumption | apply Kept.emit | apply Kept.spdm
    | (intro) | extract_lets | split

theorem Kept.spdmCert {s0 s : Dev} (h : Kept s0 s) (t : MbxPath) (slot offset length : Nat) :
    Kept s0 (s.spdmCert t slot offset length) := by
  unfold Dev.spdmCert
  repeat' first
    | with_reducible first | assumption | apply Kept.spdm | apply Kept.unsupported
    | (intro) | extract_lets | split

theorem Kept.spdmChallenge {s0 s : Dev} (h : Kept s0 s) (t : MbxPath) (slot nonce : Nat) :
    Kept s0 (s.spdmChallenge t slot nonce) := by
  unfold Dev.spdmChallenge
  repeat' first
    | with_reducible first | assumption | apply Kept.spdm | apply Kept.unsupported
    | (intro) | extract_lets | split

theorem Kept.spdmMeasure {s0 s : Dev} (h : Kept s0 s) (t : MbxPath) (index nonce : Nat) (signed : Bool) :
    Kept s0 (s.spdmMeasure t index nonce signed) := by
  unfold Dev.spdmMeasure
  repeat' first
    | with_reducible first | assumption | apply Kept.spdm | apply Kept.unsupported
    | (intro) | extract_lets | split

theorem Kept.mctp {s0 s : Dev} (h : Kept s0 s) (m : Mctp) : Kept s0 (s.mctp m) := by
  unfold Dev.mctp
  repeat' first
    | with_reducible first | assumption | apply Kept.emit
    | (intro) | extract_lets | split

theorem Kept.mctpSet {s0 s : Dev} (h : Kept s0 s) (eid : BitVec 8) : Kept s0 (s.mctpSet eid) := by
  unfold Dev.mctpSet
  repeat' first
    | with_reducible first | assumption | apply Kept.onHif | apply Kept.mctp | apply Kept.ite
    | exact id | exact .same rfl rfl rfl rfl rfl rfl rfl | (intro) | extract_lets | split

theorem Kept.i3cAssign {s0 s : Dev} (h : Kept s0 s) (a : BitVec 7) : Kept s0 (s.i3cAssign a) := by
  unfold Dev.i3cAssign
  repeat' first
    | with_reducible first | assumption | apply Kept.onHif
    | (intro) | extract_lets | split

theorem Kept.onLedgerRead {s0 s : Dev} (h : Kept s0 s) (p : MbxPath) (r : MbxReq) : Kept s0 (s.onLedgerRead p r) := by
  unfold Dev.onLedgerRead
  repeat' first
    | with_reducible first | assumption | apply Kept.mbxCommand | apply Kept.ledgerRead
    | (intro) | extract_lets | split

theorem Kept.onLedgerInfo {s0 s : Dev} (h : Kept s0 s) (p : MbxPath) (r : MbxReq) : Kept s0 (s.onLedgerInfo p r) := by
  unfold Dev.onLedgerInfo
  repeat' first
    | with_reducible first | assumption | apply Kept.mbxCommand | apply Kept.ledgerInfo
    | (intro) | extract_lets | split

theorem Kept.onCertRead {s0 s : Dev} (h : Kept s0 s) (p : MbxPath) (r : MbxReq) : Kept s0 (s.onCertRead p r) := by
  unfold Dev.onCertRead
  repeat' first
    | with_reducible first | assumption | apply Kept.mbxCommand | apply Kept.certRead
    | (intro) | extract_lets | split

theorem Kept.onOwnerEnrol {s0 s : Dev} (h : Kept s0 s) (p : MbxPath) (r : MbxReq) (sigsOk : Bool) :
    Kept s0 (s.onOwnerEnrol p r sigsOk) := by
  unfold Dev.onOwnerEnrol
  repeat' first
    | with_reducible first | assumption | apply Kept.mbxCommand | apply Kept.ownerEnrol
    | (intro) | extract_lets | split

theorem Kept.onOwnerPolicy {s0 s : Dev} (h : Kept s0 s) (p : MbxPath) (r : MbxReq) : Kept s0 (s.onOwnerPolicy p r) := by
  unfold Dev.onOwnerPolicy
  repeat' first
    | with_reducible first | assumption | apply Kept.mbxCommand | apply Kept.ownerPolicy
    | (intro) | extract_lets | split

/-! ### Boot -/

theorem Kept.countBoot {s0 s : Dev} (h : Kept s0 s) (b : BootEnv) : Kept s0 (s.countBoot b).1 := by
  unfold Dev.countBoot
  repeat' first
    | with_reducible first | assumption | apply Kept.drew | apply Kept.onMst | apply Kept.commitCounter
                           | apply Kept.recordKstEvent | refine Kept.foldl Prod.fst ?_ _ ?_
    | (intro) | extract_lets | split

theorem Kept.settleOwner {s0 s : Dev} (h : Kept s0 s) : Kept s0 (s.settleOwner) := by
  unfold Dev.settleOwner
  repeat' first
    | with_reducible first | assumption | apply Kept.onKst | apply Kept.recordKstEvent
    | (intro) | extract_lets | split

theorem Kept.markerFor {s0 s : Dev} (h : Kept s0 s) (p : Option MbxPath) (f : Upd → Upd) : Kept s0 (s.markerFor p f) := by
  unfold Dev.markerFor
  repeat' first
    | with_reducible first | assumption | apply Kept.onUpd | apply Kept.commitUpd
    | (intro) | extract_lets | split

theorem Kept.marker {s0 s : Dev} (h : Kept s0 s) (f : Upd → Upd) : Kept s0 (s.marker f) := by
  unfold Dev.marker
  repeat' first
    | with_reducible first | assumption | apply Kept.markerFor
    | (intro) | extract_lets | split

theorem Kept.dropSession {s0 s : Dev} (h : Kept s0 s) (p : Option MbxPath) : Kept s0 (s.dropSession p) := by
  unfold Dev.dropSession
  repeat' first
    | with_reducible first | assumption | apply Kept.markerFor
    | (intro) | extract_lets | split

theorem Kept.loadFails {s0 s : Dev} (h : Kept s0 s) (slot : Bool) (bad : List Nat) : Kept s0 (s.loadFails slot bad) := by
  unfold Dev.loadFails
  repeat' first
    | with_reducible first | assumption | refine Kept.each ?_ ?_ | apply Kept.recordKstEvent | apply Kept.marker
    | (intro) | extract_lets | split

theorem Kept.activate {s0 s : Dev} (h : Kept s0 s) (b : BootEnv) : Kept s0 (s.activate b) := by
  unfold Dev.activate
  repeat' first
    | with_reducible first | assumption | apply Kept.marker | apply Kept.recordKstEvent
    | (intro) | extract_lets | split

theorem Kept.fallBack {s0 s : Dev} (h : Kept s0 s) (b : BootEnv) : Kept s0 (s.fallBack b).1 := by
  unfold Dev.fallBack
  repeat' first
    | with_reducible first | assumption | apply Kept.marker | apply Kept.count | apply Kept.recordKstEvent
                           | apply Kept.loadFails
    | (intro) | extract_lets | split

theorem Kept.chooseSlot {s0 s : Dev} (h : Kept s0 s) (b : BootEnv) : Kept s0 (s.chooseSlot b).1 := by
  unfold Dev.chooseSlot
  repeat' first
    | with_reducible first | assumption | apply Kept.marker | apply Kept.loadFails | apply Kept.fallBack | apply Kept.ite
    | exact id | exact .same rfl rfl rfl rfl rfl rfl rfl | (intro) | extract_lets | split

theorem Kept.rejectPackage {s0 s : Dev} (h : Kept s0 s) (reason : Nat) : Kept s0 (s.rejectPackage reason) := by
  unfold Dev.rejectPackage
  repeat' first
    | with_reducible first | assumption | apply Kept.marker | apply Kept.endSession | apply Kept.recordKstEvent
    | (intro) | extract_lets | split

theorem Kept.copyGoes {s0 s : Dev} (h : Kept s0 s) (b : BootEnv) : Kept s0 (s.copyGoes b).1 := by
  unfold Dev.copyGoes
  repeat' first
    | with_reducible first | assumption | apply Kept.activate | apply Kept.chooseSlot
    | (intro) | extract_lets | split

theorem Kept.bootRows {s0 s : Dev} (h : Kept s0 s) (b : BootEnv) : Kept s0 (s.bootRows b).1 := by
  unfold Dev.bootRows
  repeat' first
    | with_reducible first | assumption | apply Kept.rejectPackage | apply Kept.chooseSlot | apply Kept.marker
                           | apply Kept.endSession | apply Kept.recordKstEvent | apply Kept.copyGoes | apply Kept.loadFails
                           | apply Kept.fallBack
    | (intro) | extract_lets | split

theorem Kept.restoreMarker {s0 s : Dev} (h : Kept s0 s) (b : BootEnv) : Kept s0 (s.restoreMarker b).1 := by
  unfold Dev.restoreMarker
  repeat' first
    | with_reducible first | assumption | apply Kept.onUpd | apply Kept.marker | apply Kept.recordKstEvent
                           | apply Kept.fallBack
    | (intro) | extract_lets | split

theorem Kept.restoreSession {s0 s : Dev} (h : Kept s0 s) (b : BootEnv) : Kept s0 (s.restoreSession b) := by
  unfold Dev.restoreSession
  repeat' first
    | with_reducible first | assumption | apply Kept.dropSession | apply Kept.recordKstEvent
    | (intro) | extract_lets | split

theorem Kept.writeLedger {s0 s : Dev} (h : Kept s0 s) (b : BootEnv) (boot : BootTo) (fallow restored kstReset : Bool) :
    Kept s0 (s.writeLedger b boot fallow restored kstReset) := by
  unfold Dev.writeLedger
  repeat' first
    | with_reducible first | assumption | apply Kept.drew | apply Kept.onKst | apply Kept.recordKstEvent
    | (intro) | extract_lets | split

theorem Kept.enterRecovery {s0 s : Dev} (h : Kept s0 s) : Kept s0 (s.enterRecovery) := by
  unfold Dev.enterRecovery
  repeat' first
    | with_reducible first | assumption | apply Kept.onHif | apply Kept.recordKstEvent
    | (intro) | extract_lets | split

theorem Kept.keystoneLines {s0 s : Dev} (h : Kept s0 s) (b : BootEnv) : Kept s0 (s.keystoneLines b) := by
  unfold Dev.keystoneLines
  repeat' first
    | with_reducible first | assumption | refine Kept.each ?_ ?_ | apply Kept.count | apply Kept.recordEarly
    | (intro) | extract_lets | split

theorem Kept.bootRom {s0 s : Dev} (h : Kept s0 s) (b : BootEnv) : Kept s0 (s.bootRom b) := by
  unfold Dev.bootRom
  repeat' first
    | with_reducible first | assumption | apply Kept.onKst | apply Kept.keystoneLines | apply Kept.countBoot
                           | apply Kept.settleOwner | apply Kept.restoreSession | apply Kept.restoreMarker
                           | apply Kept.bootRows | apply Kept.writeLedger | apply Kept.onUpd | apply Kept.enterRecovery
                           | apply Kept.ite
    | exact id | exact .same rfl rfl rfl rfl rfl rfl rfl | (intro) | extract_lets | split | (dsimp +zetaDelta only; split)
    | (dsimp only)

/-! ### Update -/

theorem Kept.notIdle {s0 s : Dev} (h : Kept s0 s) : Kept s0 (s.notIdle) := by
  unfold Dev.notIdle
  repeat' first
    | with_reducible first | assumption | apply Kept.count | apply Kept.onUpd
    | (intro) | extract_lets | split

theorem Kept.sessionRecord {s0 s : Dev} (h : Kept s0 s) (code : Nat) (p : MbxPath) : Kept s0 (s.sessionRecord code p) := by
  unfold Dev.sessionRecord
  repeat' first
    | with_reducible first | assumption | apply Kept.record
    | (intro) | extract_lets | split

theorem Kept.updLanded {s0 s : Dev} (h : Kept s0 s) (p : Option MbxPath) : Kept s0 (s.updLanded p) := by
  unfold Dev.updLanded
  repeat' first
    | with_reducible first | assumption | apply Kept.mbxDone
    | (intro) | extract_lets | split

theorem Kept.newSession {s0 s : Dev} (h : Kept s0 s) (p : MbxPath) (digest : Digest) : Kept s0 (s.newSession p digest) := by
  unfold Dev.newSession
  repeat' first
    | with_reducible first | assumption | apply Kept.drew | apply Kept.notIdle | apply Kept.onUpd | apply Kept.sessionRecord
    | (intro) | extract_lets | split

theorem Kept.updWait {s0 s : Dev} (h : Kept s0 s) (p : MbxPath) (marker : Bool) (payload : List Byte) :
    Kept s0 (s.updWait p marker payload) := by
  unfold Dev.updWait
  repeat' first
    | with_reducible first | assumption | apply Kept.mbxWait | apply Kept.commitUpd | apply Kept.updLanded
    | (intro) | extract_lets | split

theorem Kept.updOpen {s0 s : Dev} (h : Kept s0 s) (p : MbxPath) (r : MbxReq) : Kept s0 (s.updOpen p r) := by
  unfold Dev.updOpen
  repeat' first
    | with_reducible first | assumption | apply Kept.sessionRecord | apply Kept.mbxDone | apply Kept.notIdle
                           | apply Kept.updWait | apply Kept.onUpd | apply Kept.newSession | apply Kept.mbxRefuse
    | (intro) | extract_lets | split

theorem Kept.badPart {s0 s : Dev} (h : Kept s0 s) (p : MbxPath) (detail : Nat) : Kept s0 (s.badPart p detail) := by
  unfold Dev.badPart
  repeat' first
    | with_reducible first | assumption | apply Kept.onUpd | apply Kept.mbxRefuse
    | (intro) | extract_lets | split

theorem Kept.addPart {s0 s : Dev} (h : Kept s0 s) (p : MbxPath) (n v len : Nat) (last : Bool) :
    Kept s0 (s.addPart p n v len last) := by
  unfold Dev.addPart
  repeat' first
    | with_reducible first | assumption | apply Kept.notIdle | apply Kept.onUpd | refine Kept.when ?_ ?_
                           | apply Kept.commitUpd | apply Kept.mbxDone | apply Kept.updWait | apply Kept.mbxWait
    | (intro) | extract_lets | split

theorem Kept.updChunk {s0 s : Dev} (h : Kept s0 s) (p : MbxPath) (r : MbxReq) : Kept s0 (s.updChunk p r) := by
  unfold Dev.updChunk
  repeat' first
    | with_reducible first | assumption | apply Kept.badPart | apply Kept.mbxDone | apply Kept.mbxRefuse
                           | apply Kept.addPart
    | (intro) | extract_lets | split

theorem Kept.refuseChunk {s0 s : Dev} (h : Kept s0 s) (src : BitVec 16) (n : Nat) : Kept s0 (s.refuseChunk src n) := by
  unfold Dev.refuseChunk
  repeat' first
    | with_reducible first | assumption | apply Kept.onUpd | apply Kept.count | apply Kept.record
    | (intro) | extract_lets | split

theorem Kept.settleChunk {s0 s : Dev} (h : Kept s0 s) (src : BitVec 16) (n : Nat) : Kept s0 (s.settleChunk src n) := by
  unfold Dev.settleChunk
  repeat' first
    | with_reducible first | assumption | apply Kept.onUpd | apply Kept.refuseChunk
    | (intro) | extract_lets | split

theorem Kept.keepChunk {s0 s : Dev} (h : Kept s0 s) (src : BitVec 16) (n v len : Nat) : Kept s0 (s.keepChunk src n v len) := by
  unfold Dev.keepChunk
  repeat' first
    | with_reducible first | assumption | apply Kept.onUpd | apply Kept.count | refine Kept.each ?_ ?_
                           | apply Kept.settleChunk
    | (intro) | extract_lets | split

theorem Kept.chunkLanded {s0 s : Dev} (h : Kept s0 s) (p : MbxPath) : Kept s0 (s.chunkLanded p) := by
  unfold Dev.chunkLanded
  repeat' first
    | with_reducible first | assumption | apply Kept.onUpd | apply Kept.refuseChunk | apply Kept.mbxDone
                           | apply Kept.keepChunk | apply Kept.updWait
    | (intro) | extract_lets | split

theorem Kept.seedbedErased {s0 s : Dev} (h : Kept s0 s) : Kept s0 (s.seedbedErased) := by
  unfold Dev.seedbedErased
  repeat' first
    | with_reducible first | assumption | apply Kept.onUpd
    | (intro) | extract_lets | split

theorem Kept.updClose {s0 s : Dev} (h : Kept s0 s) (p : MbxPath) (r : MbxReq) : Kept s0 (s.updClose p r) := by
  unfold Dev.updClose
  repeat' first
    | with_reducible first | assumption | apply Kept.mbxRefuse | apply Kept.mbxDone | apply Kept.notIdle | apply Kept.onUpd
                           | apply Kept.sessionRecord | apply Kept.event | refine Kept.when ?_ ?_ | apply Kept.onSys
                           | apply Kept.updWait
    | (intro) | extract_lets | split

theorem Kept.sessionEnds {s0 s : Dev} (h : Kept s0 s) (p : Option MbxPath) (src : BitVec 16) (reason : Nat) :
    Kept s0 (s.sessionEnds p src reason) := by
  unfold Dev.sessionEnds
  repeat' first
    | with_reducible first | assumption | apply Kept.dropSession | apply Kept.recordEvent
    | (intro) | extract_lets | split

theorem Kept.abortSession {s0 s : Dev} (h : Kept s0 s) (p : MbxPath) (reason : Nat) : Kept s0 (s.abortSession p reason) := by
  unfold Dev.abortSession
  repeat' first
    | with_reducible first | assumption | apply Kept.mbxWait | apply Kept.sessionEnds | apply Kept.updLanded
    | (intro) | extract_lets | split

theorem Kept.updAbort {s0 s : Dev} (h : Kept s0 s) (p : MbxPath) (r : MbxReq) : Kept s0 (s.updAbort p r) := by
  unfold Dev.updAbort
  repeat' first
    | with_reducible first | assumption | apply Kept.mbxDone | apply Kept.abortSession
    | (intro) | extract_lets | split

theorem Kept.sessionExpired {s0 s : Dev} (h : Kept s0 s) : Kept s0 (s.sessionExpired) := by
  unfold Dev.sessionExpired
  repeat' first
    | with_reducible first | assumption | apply Kept.sessionEnds | apply Kept.drew
    | (intro) | extract_lets | split

theorem Kept.idleCommit {s0 s : Dev} (h : Kept s0 s) : Kept s0 (s.idleCommit) := by
  unfold Dev.idleCommit
  repeat' first
    | with_reducible first | assumption | apply Kept.onUpd | apply Kept.commitUpd
    | (intro) | extract_lets | split

theorem Kept.updStatus {s0 s : Dev} (h : Kept s0 s) (p : MbxPath) : Kept s0 (s.updStatus p) := by
  unfold Dev.updStatus
  repeat' first
    | with_reducible first | assumption | apply Kept.mbxDone
    | (intro) | extract_lets | split

theorem Kept.updConfirm {s0 s : Dev} (h : Kept s0 s) (p : MbxPath) : Kept s0 (s.updConfirm p) := by
  unfold Dev.updConfirm
  repeat' first
    | with_reducible first | assumption | apply Kept.onUpd | apply Kept.mbxOk | apply Kept.mbxRefuse
    | (intro) | extract_lets | split

theorem Kept.confirmSent {s0 s : Dev} (h : Kept s0 s) : Kept s0 (s.confirmSent) := by
  unfold Dev.confirmSent
  repeat' first
    | with_reducible first | assumption | apply Kept.marker | apply Kept.recordKstEvent
    | (intro) | extract_lets | split

theorem Kept.confirmTimeout {s0 s : Dev} (h : Kept s0 s) : Kept s0 (s.confirmTimeout) := by
  unfold Dev.confirmTimeout
  repeat' first
    | with_reducible first | assumption | apply Kept.count | apply Kept.marker | apply Kept.recordKstEvent
                           | apply Kept.handAll | apply Kept.onSys
    | (intro) | extract_lets | split

theorem Kept.updBoundary {s0 s : Dev} (h : Kept s0 s) : Kept s0 (s.updBoundary) := by
  unfold Dev.updBoundary
  repeat' first
    | with_reducible first | assumption | apply Kept.onSys
    | (intro) | extract_lets | split

theorem Kept.onUpdOpen {s0 s : Dev} (h : Kept s0 s) (p : MbxPath) (r : MbxReq) : Kept s0 (s.onUpdOpen p r) := by
  unfold Dev.onUpdOpen
  repeat' first
    | with_reducible first | assumption | apply Kept.mbxCommand | apply Kept.updOpen
    | (intro) | extract_lets | split

theorem Kept.onUpdChunk {s0 s : Dev} (h : Kept s0 s) (p : MbxPath) (r : MbxReq) : Kept s0 (s.onUpdChunk p r) := by
  unfold Dev.onUpdChunk
  repeat' first
    | with_reducible first | assumption | apply Kept.mbxCommand | apply Kept.updChunk
    | (intro) | extract_lets | split

theorem Kept.onUpdStatus {s0 s : Dev} (h : Kept s0 s) (p : MbxPath) (r : MbxReq) : Kept s0 (s.onUpdStatus p r) := by
  unfold Dev.onUpdStatus
  repeat' first
    | with_reducible first | assumption | apply Kept.mbxCommand | apply Kept.updStatus
    | (intro) | extract_lets | split

theorem Kept.onUpdClose {s0 s : Dev} (h : Kept s0 s) (p : MbxPath) (r : MbxReq) : Kept s0 (s.onUpdClose p r) := by
  unfold Dev.onUpdClose
  repeat' first
    | with_reducible first | assumption | apply Kept.mbxCommand | apply Kept.updClose
    | (intro) | extract_lets | split

theorem Kept.onUpdAbort {s0 s : Dev} (h : Kept s0 s) (p : MbxPath) (r : MbxReq) : Kept s0 (s.onUpdAbort p r) := by
  unfold Dev.onUpdAbort
  repeat' first
    | with_reducible first | assumption | apply Kept.mbxCommand | apply Kept.updAbort
    | (intro) | extract_lets | split

theorem Kept.onUpdConfirm {s0 s : Dev} (h : Kept s0 s) (p : MbxPath) (r : MbxReq) : Kept s0 (s.onUpdConfirm p r) := by
  unfold Dev.onUpdConfirm
  repeat' first
    | with_reducible first | assumption | apply Kept.mbxCommand | apply Kept.updConfirm
    | (intro) | extract_lets | split

end Sys2Proof.Safety
end

