-- ==== Sys2Proof/Laws/KeepsSystem.lean ====
section
/-!
SUPPORT. What every function over the block keeps (`Safety.Kept`): resets, mailbox dispatch, registers, phases and the freeze. Each lemma names its function.
-/

namespace Sys2Proof.Safety

open Sys2Proof.Machine

/-! ### Reset -/

theorem Kept.turnOff {s0 s : Dev} (h : Kept s0 s) : Kept s0 (s.turnOff) := by
  unfold Dev.turnOff
  repeat' first
    | with_reducible first | assumption | apply Kept.onTck | apply Kept.onKst | apply Kept.onHif
    | exact ⟨rfl, rfl, rfl⟩ | (intro) | extract_lets | split

theorem Kept.powerLost {s0 s : Dev} (h : Kept s0 s) (framesWritten : Option Nat) : Kept s0 (s.powerLost framesWritten) := by
  unfold Dev.powerLost
  repeat' first
    | with_reducible first | assumption | apply Kept.cutDump | apply Kept.turnOff | apply Kept.onSys
    | (intro) | extract_lets | split

theorem Kept.refuseConfig {s0 s : Dev} (h : Kept s0 s) : Kept s0 s.refuseConfig := by
  unfold Dev.refuseConfig
  extract_lets
  split
  · exact h
  · exact h.of_parts rfl rfl rfl rfl ⟨rfl, rfl, rfl⟩ rfl rfl
theorem Kept.stepSeven {s0 s : Dev} (h : Kept s0 s) (d : DramEnv) : Kept s0 (s.stepSeven d) := by
  unfold Dev.stepSeven
  repeat' first
    | with_reducible first | assumption | apply Kept.drew | apply Kept.onKst | apply Kept.onSys | apply Kept.onDrm
                           | apply Kept.refuseConfig | apply Kept.onVlt | apply Kept.onTck
    | exact ⟨rfl, rfl, rfl⟩ | (intro) | extract_lets | split

theorem Kept.writeEarly {s0 s : Dev} (h : Kept s0 s) (e : BitVec 16 × BitVec 16 × BitVec 32 × BitVec 32 × BitVec 32) :
    Kept s0 (s.writeEarly e) := by
  unfold Dev.writeEarly
  repeat' first
    | with_reducible first | assumption | apply Kept.useSeq | apply Kept.onFbk | apply Kept.putRecordIn | apply Kept.ite
    | exact id | exact .same rfl rfl rfl rfl rfl rfl rfl | (intro) | extract_lets | split

theorem Kept.startBook {s0 s : Dev} (h : Kept s0 s) : Kept s0 (s.startBook) := by
  unfold Dev.startBook
  repeat' first
    | with_reducible first | assumption | apply Kept.onKst | apply Kept.onFbk | refine Kept.each ?_ ?_
                           | apply Kept.writeEarly | apply Kept.record | apply Kept.ite
    | exact id | exact .same rfl rfl rfl rfl rfl rfl rfl | (intro) | extract_lets | split

theorem Kept.furrowLineBad {s0 s : Dev} (h : Kept s0 s) (n : Nat) : Kept s0 (s.furrowLineBad n) := by
  unfold Dev.furrowLineBad
  repeat' first
    | with_reducible first | assumption | refine Kept.each ?_ ?_ | apply Kept.onMst | refine Kept.foldl Prod.fst ?_ _ ?_
    | (intro) | extract_lets | split

theorem Kept.slotBad {s0 s : Dev} (h : Kept s0 s) (i : Nat) : Kept s0 (s.slotBad i) := by
  unfold Dev.slotBad
  repeat' first
    | with_reducible first | assumption | apply Kept.onMst | refine Kept.foldl Prod.fst ?_ _ ?_
    | (intro) | extract_lets | split

theorem Kept.entryBad {s0 s : Dev} (h : Kept s0 s) (f : Nat) : Kept s0 (s.entryBad f) := by
  unfold Dev.entryBad
  repeat' first
    | with_reducible first | assumption | apply Kept.onMst | apply Kept.onField
    | (intro) | extract_lets | split

theorem Kept.reshapeBad {s0 s : Dev} (h : Kept s0 s) (n : Nat) : Kept s0 (s.reshapeBad n) := by
  unfold Dev.reshapeBad
  repeat' first
    | with_reducible first | assumption | apply Kept.onMst
    | (intro) | extract_lets | split

theorem Kept.badLine {s0 s : Dev} (h : Kept s0 s) (n : Nat) (act : Dev → Dev) (hact : ∀ x, Kept s0 x → Kept s0 (act x)) :
    Kept s0 (s.badLine n act) := by
  unfold Dev.badLine
  repeat' first
    | with_reducible first | assumption | apply Kept.count | apply Kept.record | apply hact
    | (intro) | extract_lets | split

theorem Kept.initStore {s0 s : Dev} (h : Kept s0 s) : Kept s0 (s.initStore) := by
  unfold Dev.initStore
  repeat' first
    | with_reducible first | assumption | apply Kept.onMst | apply Kept.onFields | apply Kept.recordEvent
    | (intro) | extract_lets | split

theorem Kept.checkStore {s0 s : Dev} (h : Kept s0 s) (d : DramEnv) : Kept s0 (s.checkStore d) := by
  unfold Dev.checkStore
  repeat' first
    | with_reducible first | assumption | apply Kept.initStore | apply Kept.storeErrors | refine Kept.each ?_ ?_
                           | apply Kept.badLine | apply Kept.furrowLineBad | apply Kept.slotBad | apply Kept.reshapeBad
                           | apply Kept.entryBad
    | (intro) | extract_lets | split

theorem Kept.dramTrained {s0 s : Dev} (h : Kept s0 s) (d : DramEnv) : Kept s0 (s.dramTrained d) := by
  unfold Dev.dramTrained
  repeat' first
    | with_reducible first | assumption | apply Kept.stepSeven | apply Kept.startBook | apply Kept.checkStore
                           | refine Kept.each ?_ ?_ | apply Kept.channelFails
    | (intro) | extract_lets | split

theorem Kept.perstRelease {s0 s : Dev} (h : Kept s0 s) (port : Nat) : Kept s0 (s.perstRelease port) := by
  unfold Dev.perstRelease
  repeat' first
    | with_reducible first | assumption | apply Kept.onMpt
    | (intro) | extract_lets | split

theorem Kept.enumerationDone {s0 s : Dev} (h : Kept s0 s) (found : List NsFound) : Kept s0 (s.enumerationDone found) := by
  unfold Dev.enumerationDone
  repeat' first
    | with_reducible first | assumption | apply Kept.onMpt | refine Kept.each ?_ ?_ | apply Kept.classify
                           | apply Kept.assembleAll | apply Kept.beginPairing | apply Kept.takeUp
    | (intro) | extract_lets | split

theorem Kept.readyBoundary {s0 s : Dev} (h : Kept s0 s) : Kept s0 (s.readyBoundary) := by
  unfold Dev.readyBoundary
  repeat' first
    | with_reducible first | assumption | apply Kept.onHif
    | (intro) | extract_lets | split

theorem Kept.dropOpenLines {s0 s : Dev} (h : Kept s0 s) : Kept s0 (s.dropOpenLines) := by
  unfold Dev.dropOpenLines
  repeat' first
    | with_reducible first | assumption | refine Kept.each ?_ ?_ | apply Kept.dropLines
    | (intro) | extract_lets | split

theorem Kept.dropQueues {s0 s : Dev} (h : Kept s0 s) : Kept s0 (s.dropQueues) := by
  unfold Dev.dropQueues
  repeat' first
    | with_reducible first | assumption | apply Kept.dropOpenLines | apply Kept.onQs | apply Kept.onFbk | apply Kept.mbxWake
                           | apply Kept.adminDelete | apply Kept.ite
    | exact id | exact .same rfl rfl rfl rfl rfl rfl rfl | (intro) | extract_lets | split

theorem Kept.endAllCmds {s0 s : Dev} (h : Kept s0 s) : Kept s0 (s.endAllCmds) := by
  unfold Dev.endAllCmds
  repeat' first
    | with_reducible first | assumption | apply Kept.onQs | refine Kept.each ?_ ?_ | apply Kept.stage | apply Kept.endCmd
    | (intro) | extract_lets | split

theorem Kept.resetGap {s0 s : Dev} (h : Kept s0 s) : Kept s0 (s.resetGap) := by
  unfold Dev.resetGap
  repeat' first
    | with_reducible first | assumption | apply Kept.onTck
    | exact ⟨rfl, rfl, rfl⟩ | (intro) | extract_lets | split

theorem Kept.scrubBack {s0 s : Dev} (h : Kept s0 s) : Kept s0 (s.scrubBack) := by
  unfold Dev.scrubBack
  repeat' first
    | with_reducible first | assumption | refine Kept.each ?_ ?_ | apply Kept.stopScrub | apply Kept.onFields
    | (intro) | extract_lets | split

theorem Kept.hostReset {s0 s : Dev} (h : Kept s0 s) (kind ended : Nat) : Kept s0 (s.hostReset kind ended) := by
  unfold Dev.hostReset
  extract_lets gib x w y z
  have hx : Kept s0 x := h.onHif
  have hy : Kept s0 y := by
    refine hx.onWin ?_
    exact id
  have hm : Kept s0 (y.scrubBack.onMbx Mbx.afterReset) := hy.scrubBack.onMbx fun _ => rfl
  have hz : Kept s0 z := hm.hodReset.onUpd.onDrm
  clear_value z
  split
  · exact (hz.record _ _ _ _ _).resetGap
  · exact hz

theorem Kept.warmReset {s0 s : Dev} (h : Kept s0 s) : Kept s0 (s.warmReset) := by
  unfold Dev.warmReset
  repeat' first
    | with_reducible first | assumption | apply Kept.dropQueues | apply Kept.hostReset | apply Kept.onSys
    | (intro) | extract_lets | split

theorem Kept.softerReset {s0 s : Dev} (h : Kept s0 s) (kind : Nat) : Kept s0 (s.softerReset kind) := by
  unfold Dev.softerReset
  repeat' first
    | with_reducible first | assumption | apply Kept.endAllCmds | apply Kept.hostReset
    | (intro) | extract_lets | split

theorem Kept.drainBook {s0 s : Dev} (h : Kept s0 s) : Kept s0 (s.drainBook) := by
  unfold Dev.drainBook
  repeat' first
    | with_reducible first | assumption | refine Kept.each ?_ ?_ | apply Kept.writeSlot
    | (intro) | extract_lets | split

theorem Kept.finishDump {s0 s : Dev} (h : Kept s0 s) (i : Nat) (retries : List Nat) : Kept s0 (s.finishDump i retries) := by
  unfold Dev.finishDump
  repeat' first
    | with_reducible first | assumption | refine Kept.each ?_ ?_ | apply Kept.count | apply Kept.vaultRecordOf
                           | apply Kept.drainBook | apply Kept.onVslot | apply Kept.onVlt | apply Kept.onTck
    | exact ⟨rfl, rfl, rfl⟩ | (intro) | extract_lets | split

theorem Kept.deviceReset {s0 s : Dev} (h : Kept s0 s) (p : MbxPath) : Kept s0 (s.deviceReset p) := by
  unfold Dev.deviceReset
  repeat' first
    | with_reducible first | assumption | apply Kept.onSys | apply Kept.mbxOk | apply Kept.mbxRefuse
    | (intro) | extract_lets | split

theorem Kept.onDeviceReset {s0 s : Dev} (h : Kept s0 s) (p : MbxPath) (r : MbxReq) : Kept s0 (s.onDeviceReset p r) := by
  unfold Dev.onDeviceReset
  repeat' first
    | with_reducible first | assumption | apply Kept.mbxCommand | apply Kept.deviceReset
    | (intro) | extract_lets | split

theorem Kept.softBoundary {s0 s : Dev} (h : Kept s0 s) : Kept s0 (s.softBoundary) := by
  unfold Dev.softBoundary
  repeat' first
    | with_reducible first | assumption | apply Kept.onVlt | apply Kept.onSys
    | (intro) | extract_lets | split

theorem Kept.stopTick {s0 s : Dev} (h : Kept s0 s) : Kept s0 (s.stopTick) := by
  unfold Dev.stopTick
  repeat' first
    | with_reducible first | assumption | apply Kept.onTck | apply Kept.onHif
    | exact ⟨rfl, rfl, rfl⟩ | (intro) | extract_lets | split

theorem Kept.interrupt {s0 s : Dev} (h : Kept s0 s) (p : MbxPath) : Kept s0 (s.interrupt p) := by
  unfold Dev.interrupt
  repeat' first
    | with_reducible first | assumption | apply Kept.onFields | apply Kept.onUpd | apply Kept.mbxDone
    | (intro) | extract_lets | split

theorem Kept.lockstep {s0 s : Dev} (h : Kept s0 s) (pair : Bool) : Kept s0 (s.lockstep pair) := by
  unfold Dev.lockstep
  repeat' first
    | with_reducible first | assumption | apply Kept.record | apply Kept.onSys | apply Kept.interrupt | apply Kept.stopTick
    | (intro) | extract_lets | split

theorem Kept.kstBoot {s0 s : Dev} (h : Kept s0 s) (b : BootEnv) : Kept s0 (s.kstBoot b) := by
  unfold Dev.kstBoot
  repeat' first
    | with_reducible first | assumption | apply Kept.countBoot | apply Kept.settleOwner | apply Kept.writeLedger
                           | apply Kept.onSys
    | (intro) | extract_lets | split

theorem Kept.keystoneReset {s0 s : Dev} (h : Kept s0 s) (b : BootEnv) : Kept s0 (s.keystoneReset b) := by
  unfold Dev.keystoneReset
  repeat' first
    | with_reducible first | assumption | apply Kept.count | apply Kept.onKst | apply Kept.onHif | apply Kept.recordKstEvent
                           | apply Kept.scrubBack | apply Kept.hodReset | apply Kept.onUpd | apply Kept.stopTick
                           | apply Kept.turnOff | apply Kept.kstBoot | apply Kept.resetGap
    | (intro) | extract_lets | split

theorem Kept.thermalWarn {s0 s : Dev} (h : Kept s0 s) (celsius sensor : Nat) : Kept s0 (s.thermalWarn celsius sensor) := by
  unfold Dev.thermalWarn
  repeat' first
    | with_reducible first | assumption | apply Kept.onSys | apply Kept.recordEvent
    | (intro) | extract_lets | split

theorem Kept.thermalClear {s0 s : Dev} (h : Kept s0 s) (celsius sensor : Nat) : Kept s0 (s.thermalClear celsius sensor) := by
  unfold Dev.thermalClear
  repeat' first
    | with_reducible first | assumption | apply Kept.onSys | apply Kept.record
    | (intro) | extract_lets | split

theorem Kept.thermalTrip {s0 s : Dev} (h : Kept s0 s) (celsius sensor : Nat) : Kept s0 (s.thermalTrip celsius sensor) := by
  unfold Dev.thermalTrip
  repeat' first
    | with_reducible first | assumption | apply Kept.onSys | apply Kept.record | apply Kept.onVlt | apply Kept.onDrm
    | (intro) | extract_lets | split

/-! ### Control -/

theorem Kept.adminCreate {s0 s : Dev} (h : Kept s0 s) (p : MbxPath) (r : MbxReq) : Kept s0 (s.adminCreate p r) := by
  unfold Dev.adminCreate
  repeat' first
    | with_reducible first | assumption | apply Kept.mbxRefuse | apply Kept.addPair | apply Kept.readCq | apply Kept.mbxOk
    | (intro) | extract_lets | split

theorem Kept.adminDelete {s0 s : Dev} (h : Kept s0 s) (p : MbxPath) : Kept s0 (s.adminDelete p) := by
  unfold Dev.adminDelete
  repeat' first
    | with_reducible first | assumption | apply Kept.mbxRefuse | apply Kept.onPair | apply Kept.mbxWait
    | (intro) | extract_lets | split

theorem Kept.paramGet {s0 s : Dev} (h : Kept s0 s) (p : MbxPath) (r : MbxReq) : Kept s0 (s.paramGet p r) := by
  unfold Dev.paramGet
  repeat' first
    | with_reducible first | assumption | apply Kept.mbxRefuse | apply Kept.drew | apply Kept.mbxDone
    | (intro) | extract_lets | split

theorem Kept.paramSet {s0 s : Dev} (h : Kept s0 s) (p : MbxPath) (r : MbxReq) : Kept s0 (s.paramSet p r) := by
  unfold Dev.paramSet
  repeat' first
    | with_reducible first | assumption | apply Kept.mbxRefuse | apply Kept.syncStart | apply Kept.mbxWait
                           | apply Kept.stage | apply Kept.mbxDone
    | (intro) | extract_lets | split

theorem Kept.paramInfo {s0 s : Dev} (h : Kept s0 s) (p : MbxPath) (r : MbxReq) : Kept s0 (s.paramInfo p r) := by
  unfold Dev.paramInfo
  repeat' first
    | with_reducible first | assumption | apply Kept.drew | apply Kept.mbxDone | apply Kept.mbxRefuse
    | (intro) | extract_lets | split

theorem Kept.onIdentify {s0 s : Dev} (h : Kept s0 s) (p : MbxPath) (r : MbxReq) : Kept s0 (s.onIdentify p r) := by
  unfold Dev.onIdentify
  repeat' first
    | with_reducible first | assumption | apply Kept.mbxCommand | apply Kept.mbxDone
    | (intro) | extract_lets | split

theorem Kept.onDeviceStatus {s0 s : Dev} (h : Kept s0 s) (p : MbxPath) (r : MbxReq) : Kept s0 (s.onDeviceStatus p r) := by
  unfold Dev.onDeviceStatus
  repeat' first
    | with_reducible first | assumption | apply Kept.mbxCommand | apply Kept.mbxDone
    | (intro) | extract_lets | split

theorem Kept.onAdminCreate {s0 s : Dev} (h : Kept s0 s) (p : MbxPath) (r : MbxReq) : Kept s0 (s.onAdminCreate p r) := by
  unfold Dev.onAdminCreate
  repeat' first
    | with_reducible first | assumption | apply Kept.mbxCommand | apply Kept.adminCreate
    | (intro) | extract_lets | split

theorem Kept.onAdminDelete {s0 s : Dev} (h : Kept s0 s) (p : MbxPath) (r : MbxReq) : Kept s0 (s.onAdminDelete p r) := by
  unfold Dev.onAdminDelete
  repeat' first
    | with_reducible first | assumption | apply Kept.mbxCommand | apply Kept.adminDelete
    | (intro) | extract_lets | split

theorem Kept.onParamGet {s0 s : Dev} (h : Kept s0 s) (p : MbxPath) (r : MbxReq) : Kept s0 (s.onParamGet p r) := by
  unfold Dev.onParamGet
  repeat' first
    | with_reducible first | assumption | apply Kept.mbxCommand | apply Kept.paramGet
    | (intro) | extract_lets | split

theorem Kept.onParamSet {s0 s : Dev} (h : Kept s0 s) (p : MbxPath) (r : MbxReq) : Kept s0 (s.onParamSet p r) := by
  unfold Dev.onParamSet
  repeat' first
    | with_reducible first | assumption | apply Kept.mbxCommand | apply Kept.paramSet
    | (intro) | extract_lets | split

theorem Kept.onParamInfo {s0 s : Dev} (h : Kept s0 s) (p : MbxPath) (r : MbxReq) : Kept s0 (s.onParamInfo p r) := by
  unfold Dev.onParamInfo
  repeat' first
    | with_reducible first | assumption | apply Kept.mbxCommand | apply Kept.paramInfo
    | (intro) | extract_lets | split

theorem Kept.onBadOpcode {s0 s : Dev} (h : Kept s0 s) (p : MbxPath) (opcode : BitVec 16) (r : MbxReq) :
    Kept s0 (s.onBadOpcode p opcode r) := by
  unfold Dev.onBadOpcode
  repeat' first
    | with_reducible first | assumption | apply Kept.mbxCommand | apply Kept.mbxDone
    | (intro) | extract_lets | split

theorem Kept.mbxArrive {s0 s : Dev} (h : Kept s0 s) (i : Instr) : Kept s0 (s.mbxArrive i) := by
  unfold Dev.mbxArrive
  repeat' first
    | with_reducible first | assumption | apply Kept.onIdentify | apply Kept.onDeviceStatus | apply Kept.deviceReset
                           | apply Kept.onDeviceReset | apply Kept.onAdminCreate | apply Kept.onAdminDelete
                           | apply Kept.fieldCreate | apply Kept.onFieldCreate | apply Kept.fieldDelete
                           | apply Kept.onFieldDelete | apply Kept.fieldOffline | apply Kept.onFieldOffline
                           | apply Kept.fieldOnline | apply Kept.onFieldOnline | apply Kept.fieldStatus
                           | apply Kept.onFieldStatus | apply Kept.fieldSetReadOnly | apply Kept.onFieldSetReadOnly
                           | apply Kept.fieldReshape | apply Kept.onFieldReshape | apply Kept.fieldLostList
                           | apply Kept.onFieldLostList | apply Kept.memberList | apply Kept.onMemberList
                           | apply Kept.memberAddSpare | apply Kept.onMemberAddSpare | apply Kept.memberRemoveSpare
                           | apply Kept.onMemberRemoveSpare | apply Kept.memberFail | apply Kept.onMemberFail
                           | apply Kept.memberRelease | apply Kept.onMemberRelease | apply Kept.memberRebuild
                           | apply Kept.onMemberRebuild | apply Kept.memberFormat | apply Kept.onMemberFormat
                           | apply Kept.ledgerRead | apply Kept.onLedgerRead | apply Kept.ledgerInfo
                           | apply Kept.onLedgerInfo | apply Kept.certRead | apply Kept.onCertRead | apply Kept.ownerEnrol
                           | apply Kept.onOwnerEnrol | apply Kept.ownerPolicy | apply Kept.onOwnerPolicy
                           | apply Kept.updOpen | apply Kept.onUpdOpen | apply Kept.updChunk | apply Kept.onUpdChunk
                           | apply Kept.updStatus | apply Kept.onUpdStatus | apply Kept.updClose | apply Kept.onUpdClose
                           | apply Kept.updAbort | apply Kept.onUpdAbort | apply Kept.updConfirm | apply Kept.onUpdConfirm
                           | apply Kept.fbkRead | apply Kept.onFbkRead | apply Kept.fbkInfo | apply Kept.onFbkInfo
                           | apply Kept.paramGet | apply Kept.onParamGet | apply Kept.paramSet | apply Kept.onParamSet
                           | apply Kept.paramInfo | apply Kept.onParamInfo | apply Kept.twnStatus | apply Kept.onTwnStatus
                           | apply Kept.twnHandover | apply Kept.onTwnHandover | apply Kept.twnReturn
                           | apply Kept.onTwnReturn | apply Kept.twnAdopt | apply Kept.onTwnAdopt | apply Kept.onBadOpcode
    | (intro) | extract_lets | split

theorem Kept.grantObjects {s0 s : Dev} (h : Kept s0 s) (p : MbxPath) : Kept s0 (s.grantObjects p) := by
  unfold Dev.grantObjects
  split
  · rename_i hx
    exact (h.mbxReady p hx).mbxArrive _
  · exact h

/-! ### Registers -/

theorem Kept.readConfig {s0 s : Dev} (h : Kept s0 s) (off size : Nat) : Kept s0 (s.readConfig off size) := by
  unfold Dev.readConfig
  repeat' first
    | with_reducible first | assumption | apply Kept.answer | apply Kept.drew
    | (intro) | extract_lets | split

theorem Kept.readTarget {s0 s : Dev} (h : Kept s0 s) (bar off size : Nat) : Kept s0 (s.readTarget bar off size) := by
  unfold Dev.readTarget
  repeat' first
    | with_reducible first | assumption | apply Kept.readConfig | apply Kept.windowRead | apply Kept.refuseRead
                           | apply Kept.forbidRead | apply Kept.hold | apply Kept.answer
    | (intro) | extract_lets | split

theorem Kept.lowRead {s0 s : Dev} (h : Kept s0 s) (off req : Nat) : Kept s0 (s.lowRead off req) := by
  unfold Dev.lowRead
  repeat' first
    | with_reducible first | assumption | apply Kept.refuseRead | apply Kept.onTck | apply Kept.answer
    | exact ⟨rfl, rfl, rfl⟩ | (intro) | extract_lets | split

theorem Kept.highRead {s0 s : Dev} (h : Kept s0 s) (off req : Nat) : Kept s0 (s.highRead off req) := by
  unfold Dev.highRead
  repeat' first
    | with_reducible first | assumption | apply Kept.refuseRead | apply Kept.onTck | apply Kept.answer
    | exact ⟨rfl, rfl, rfl⟩ | (intro) | extract_lets | split

theorem Kept.goWrite {s0 s : Dev} (h : Kept s0 s) : Kept s0 (s.goWrite) := by
  unfold Dev.goWrite
  repeat' first
    | with_reducible first | assumption | apply Kept.drew | apply Kept.mbxArrive | apply Kept.onBadOpcode
    | (intro) | extract_lets | split

theorem Kept.msixWrite {s0 s : Dev} (h : Kept s0 s) (place : Nat) (w : BitVec 32) : Kept s0 (s.msixWrite place w) := by
  unfold Dev.msixWrite
  repeat' first
    | with_reducible first | assumption | apply Kept.setMask | apply Kept.onHif
    | (intro) | extract_lets | split

theorem Kept.writeWord {s0 s : Dev} (h : Kept s0 s) (off : Nat) (w : BitVec 32) : Kept s0 (s.writeWord off w) := by
  unfold Dev.writeWord
  repeat' first
    | with_reducible first | assumption | apply Kept.msixWrite | apply Kept.holdReq | apply Kept.holdWord | apply Kept.onHif
                           | apply Kept.goWrite | apply Kept.onMbx | apply Kept.overrun | apply Kept.onTck
                           | apply Kept.onFbk | apply Kept.winShadow | apply Kept.onWin | apply Kept.ite
    | exact id | exact .same rfl rfl rfl rfl rfl rfl rfl | exact ⟨rfl, rfl, rfl⟩ | (intro) | extract_lets | split

theorem Kept.writeWords {s0 : Dev} : ∀ (n off v : Nat) {s : Dev}, Kept s0 s → Kept s0 (Dev.writeWords n off v s)
  | 0, _, _, _, h => h
  | n + 1, off, v, _, h => Kept.writeWords n (off + 4) (v / 2 ^ 32) (h.writeWord off _)

theorem Kept.writeBar0 {s0 s : Dev} (h : Kept s0 s) (off size v : Nat) : Kept s0 (s.writeBar0 off size v) := by
  unfold Dev.writeBar0
  split
  · exact h
  · split
    · exact h.forbidWrite
    · split
      · split
        · exact h.dropWrite
        · refine h.onMbx fun hm => ?_
          dsimp only
          exact memWrite_wf _ _ hm
      · split
        · exact h.dropWrite
        · exact Kept.writeWords _ _ _ h
      · exact h

theorem Kept.writeTarget {s0 s : Dev} (h : Kept s0 s) (bar off size : Nat) : Kept s0 (s.writeTarget bar off size) := by
  unfold Dev.writeTarget
  repeat' first
    | with_reducible first | assumption | apply Kept.forbidWrite | apply Kept.doorbell
    | (intro) | extract_lets | split

theorem Kept.cfgBit {s0 s : Dev} (h : Kept s0 s) (x : Option Nat) (b : Nat) (f : Dev → Bool → Dev) (hf : ∀ x a1, Kept s0 x → Kept s0 (f x a1)) :
    Kept s0 (s.cfgBit x b f) := by
  unfold Dev.cfgBit
  repeat' first
    | with_reducible first | assumption | apply hf
    | (intro) | extract_lets | split

theorem Kept.writeConfig {s0 s : Dev} (h : Kept s0 s) (off size v : Nat) : Kept s0 (s.writeConfig off size v) := by
  unfold Dev.writeConfig
  split
  · exact h
  · extract_lets byte barBytes s1 s2 s3 s4 s5 s6 s7 half sl s8 s9
    have h3 : Kept s0 s3 := ((h.onHif).cfgBit _ _ _ fun x _ hx => hx.setMse _).cfgBit _ _ _ fun x _ hx => hx.setBme _
    have h5 : Kept s0 s5 := (h3.cfgBit _ _ _ fun x _ hx => hx.setMask _).cfgBit _ _ _ fun x _ hx => hx.setMask _
    have h8 : Kept s0 s8 := (((h5.cfgBit _ _ _ fun x _ hx => hx.onHif).cfgBit _ _ _ fun x _ hx => hx.onHif).onHif).cfgBit _ _ _
      fun x _ hx => hx.onHif
    have h9 : Kept s0 s9 := by
      dsimp only [s9]
      split
      · split
        · exact h8.returnD0
        · exact Kept.ite h8.enterD3 h8
      · exact h8
    exact h9.cfgBit _ _ _ fun x _ hx => Kept.ite (hx.softerReset _) hx

/-! ### Phases -/

theorem Kept.landOne {s0 s : Dev} (h : Kept s0 s) (c : Commit) : Kept s0 (s.landOne c) := by
  unfold Dev.landOne
  repeat' first
    | with_reducible first | assumption | apply Kept.land | apply Kept.recordLanded | apply Kept.reshapeFreed
                           | apply Kept.updLanded | apply Kept.ownerLanded
    | (intro) | extract_lets | split

theorem Kept.batchLands {s0 s : Dev} (h : Kept s0 s) (b : Batch64) : Kept s0 (s.batchLands b) := by
  unfold Dev.batchLands
  repeat' first
    | with_reducible first | assumption | apply Kept.onMst | apply Kept.countN | refine Kept.when ?_ ?_ | apply Kept.count
                           | refine Kept.each ?_ ?_ | apply Kept.landOne
    | (intro) | extract_lets | split

theorem Kept.updFails {s0 s : Dev} (h : Kept s0 s) (p : MbxPath) : Kept s0 (s.updFails p) := by
  unfold Dev.updFails
  repeat' first
    | with_reducible first | assumption | apply Kept.mbxDone
    | (intro) | extract_lets | split

theorem Kept.storeLost {s0 s : Dev} (h : Kept s0 s) : Kept s0 (s.storeLost) := by
  unfold Dev.storeLost
  repeat' first
    | with_reducible first | assumption | refine Kept.each ?_ ?_ | apply Kept.leaveUnsealed | apply Kept.abortJob
                           | apply Kept.updFails | apply Kept.endCmd
    | (intro) | extract_lets | split

theorem Kept.batchFails {s0 s : Dev} (h : Kept s0 s) (b : Batch64) (lines : List Nat) : Kept s0 (s.batchFails b lines) := by
  unfold Dev.batchFails
  repeat' first
    | with_reducible first | assumption | apply Kept.onMst | refine Kept.each ?_ ?_ | apply Kept.record
                           | apply Kept.recordEvent | apply Kept.storeLost | refine Kept.foldl Prod.fst ?_ _ ?_
    | (intro) | extract_lets | split

theorem Kept.makeDurable {s0 s : Dev} (h : Kept s0 s) : Kept s0 (s.makeDurable) := by
  unfold Dev.makeDurable
  repeat' first
    | with_reducible first | assumption | apply Kept.onQs
    | (intro) | extract_lets | split

theorem Kept.noteHistory {s0 s : Dev} (h : Kept s0 s) (writes all : Nat) : Kept s0 (s.noteHistory writes all) := by
  unfold Dev.noteHistory
  repeat' first
    | with_reducible first | assumption | apply Kept.onTasks
    | (intro) | extract_lets | split

theorem Kept.latch {s0 s : Dev} (h : Kept s0 s) : Kept s0 (s.latch) := by
  unfold Dev.latch
  repeat' first
    | with_reducible first | assumption | apply Kept.onTasks
    | (intro) | extract_lets | split

theorem Kept.issueOne {s0 s : Dev} (h : Kept s0 s) (c : MCmd) : Kept s0 (s.issueOne c) := by
  unfold Dev.issueOne
  repeat' first
    | with_reducible first | assumption | apply Kept.pathLost | apply Kept.onMpt | apply Kept.count | apply Kept.emit
    | (intro) | extract_lets | split

theorem Kept.retireWrites {s0 s : Dev} (h : Kept s0 s) : Kept s0 (s.retireWrites) := by
  unfold Dev.retireWrites
  repeat' first
    | with_reducible first | assumption | apply Kept.onQs | apply Kept.stage | apply Kept.onCache | refine Kept.each ?_ ?_
                           | apply Kept.onCmd | apply Kept.finish
    | (intro) | extract_lets | split

theorem Kept.retireFlushes {s0 s : Dev} (h : Kept s0 s) : Kept s0 (s.retireFlushes) := by
  unfold Dev.retireFlushes
  repeat' first
    | with_reducible first | assumption | refine Kept.each ?_ ?_ | apply Kept.stage | apply Kept.finish
    | (intro) | extract_lets | split

theorem Kept.sample {s0 s : Dev} (h : Kept s0 s) : Kept s0 (s.sample) := by
  unfold Dev.sample
  repeat' first
    | with_reducible first | assumption | apply Kept.onTasks | refine Kept.each ?_ ?_ | apply Kept.grantFine
                           | apply Kept.releaseFine | apply Kept.applyFault
    | (intro) | extract_lets | split

theorem Kept.newBudgets {s0 s : Dev} (h : Kept s0 s) : Kept s0 (s.newBudgets) := by
  unfold Dev.newBudgets
  repeat' first
    | with_reducible first | assumption | apply Kept.onMpt | apply Kept.onTasks
    | (intro) | extract_lets | split

theorem Kept.oneField {s0 s : Dev} (h : Kept s0 s) (fid : Nat) : Kept s0 (s.oneField fid) := by
  unfold Dev.oneField
  repeat' first
    | with_reducible first | assumption | apply Kept.labelDone | apply Kept.stepFine | apply Kept.stepPend
                           | apply Kept.stepSlot | apply Kept.stepPause | apply Kept.stepEnd | apply Kept.onField
                           | apply Kept.endTargets | apply Kept.beginWaiting | apply Kept.tryCreate
                           | apply Kept.fieldBoundary | apply Kept.ite
    | exact id | exact .same rfl rfl rfl rfl rfl rfl rfl | (intro) | extract_lets | split | (dsimp +zetaDelta only; split)
    | (dsimp only)

theorem Kept.showStatus {s0 s : Dev} (h : Kept s0 s) : Kept s0 (s.showStatus) := by
  unfold Dev.showStatus
  repeat' first
    | with_reducible first | assumption | apply Kept.onSys | apply Kept.onMst | apply Kept.onHod | apply Kept.onDrm
    | (intro) | extract_lets | split

theorem Kept.endGap {s0 s : Dev} (h : Kept s0 s) (g : GapKind × Nat) : Kept s0 (s.endGap g) := by
  unfold Dev.endGap
  repeat' first
    | with_reducible first | assumption | apply Kept.onTck | apply Kept.onSys
    | exact ⟨rfl, rfl, rfl⟩ | (intro) | extract_lets | split

/-! ### Freeze -/

theorem Kept.freezeDump {s0 s : Dev} (h : Kept s0 s) : Kept s0 (s.freezeDump) := by
  unfold Dev.freezeDump
  repeat' first
    | with_reducible first | assumption | apply Kept.drew | apply Kept.cutDump
    | (intro) | extract_lets | split

theorem Kept.freeze {s0 s : Dev} (h : Kept s0 s) : Kept s0 (s.freeze) := by
  unfold Dev.freeze
  repeat' first
    | with_reducible first | assumption | apply Kept.count | apply Kept.record | apply Kept.freezeDump | apply Kept.drew
                           | apply Kept.onSys | apply Kept.onTwn | apply Kept.onHif
    | (intro) | extract_lets | split

theorem Kept.jtag {s0 s : Dev} (h : Kept s0 s) (code : BitVec 8) (p : PinDrive) (bits : List Bool) :
    Kept s0 (s.jtag code p bits) := by
  unfold Dev.jtag
  repeat' first
    | with_reducible first | assumption | apply Kept.onSys | apply Kept.emit
    | (intro) | extract_lets | split

/-! ### Ticks and cold starts -/

/-- `s` may follow `b` across ticks and cold starts: it is sound, what `b` has emitted stays emitted, and free values are drawn
onward. -/
structure Lasts (b s : Dev) : Prop where
  sound : Sound s
  outGrows : b.out <+: s.out
  freeGrows : b.freeCtr ≤ s.freeCtr

theorem Kept.lasts {b s : Dev} (h : Kept b s) : Lasts b s := ⟨h.sound, h.outGrows, h.freeGrows⟩

theorem Lasts.trans {a b s : Dev} (h : Lasts a b) (h' : Lasts b s) : Lasts a s :=
  ⟨h'.sound, h.outGrows.trans h'.outGrows, Nat.le_trans h.freeGrows h'.freeGrows⟩

/-- A change of the tick block is sound. -/
theorem Sound.onTck {s : Dev} (h : Sound s) (f : Tck → Tck) : Sound (s.onTck f) := h.of_parts rfl rfl rfl rfl

/-- What a cold reset leaves is sound, whatever was before. -/
theorem coldParts_sound (s : Dev) (kind : Nat) (b : BootEnv) : Sound (s.coldParts kind b) := by
  refine ⟨⟨rfl, rfl⟩, ?_, ?_⟩
  · intro x hx
    have : x ∈ (Vector.replicate ctrCount 0).toList := hx
    simp only [Vector.toList_replicate, List.mem_replicate] at this
    omega
  · exact ⟨Nat.zero_le _, Nat.zero_le _, Nat.zero_le _, Nat.zero_le _⟩

/-- A cold start keeps only what has been emitted and drawn. -/
theorem coldStart_lasts (s : Dev) (kind : Nat) (b : BootEnv) : Lasts s (s.coldStart kind b) := by
  have h := ((coldParts_sound s kind b).kept.bootRom b).lasts
  exact ⟨h.sound, h.outGrows, h.freeGrows⟩

/-- After the count has advanced, a tick boundary keeps what every other operation keeps. -/
theorem boundary_kept {s : Dev} (h : Sound s) : Kept (s.leaveMirror.onTck Tck.tick) s.boundary := by
  have h1 : Sound (s.leaveMirror.onTck Tck.tick) := (h.kept.leaveMirror).sound.onTck _
  unfold Dev.boundary
  extract_lets a b c d e f
  have ha : Kept a a := h1.kept
  have hb : Kept a b := ha.sample.syncBoundary.paramBoundary.newBudgets
  have hc : Kept a c := hb.readyBoundary.releaseHold.winBoundary.pairBoundary.deleteBoundary.runAdmin
  have hd : Kept a d := (hc.each fun x f hx => hx.oneField f).stepLeases
  have he : Kept a e := hd.twinBoundary.when fun _ hx => hx.storeLost
  have hf : Kept a f := he.updBoundary.softBoundary.vaultBoundary.ltrBoundary
  exact hf.freeCtxs.showStatus

/-- A phase that begins is sound, and only it has moved. -/
theorem beginPhase_sound {s : Dev} (h : Sound s) (p : Phase) (n : Nat) (c : BitVec 10) : Sound (s.beginPhase p n c) :=
  h.kept.leaveMirror.sound.onTck _

/-- After the Commit phase has begun it keeps what every other operation keeps. -/
theorem commitPhase_kept {s : Dev} (h : Sound s) (x : MstFaults) : Kept (s.beginPhase .commit 3 384) (s.commitPhase x) := by
  have h1 := (beginPhase_sound h .commit 3 384).kept
  unfold Dev.commitPhase
  repeat' first
    | with_reducible first | exact h1 | apply Kept.sendReleases | apply Kept.latch | apply Kept.makeDurable
                           | apply Kept.storeErrors | apply Kept.noteHistory | apply Kept.batchLands | apply Kept.batchFails
    | extract_lets | split | (with_reducible apply Kept.ite) | (dsimp +zetaDelta only; split)

/-- After the Issue phase has begun it keeps what every other operation keeps. -/
theorem issuePhase_kept {s : Dev} (h : Sound s) : Kept (s.beginPhase .issue 4 512) s.issuePhase := by
  have h1 := (beginPhase_sound h .issue 4 512).kept
  unfold Dev.issuePhase
  extract_lets a l b c
  have hb : Kept a b := h1.each fun x m hx => hx.issueOne m
  have hc : Kept a c := hb.each fun x m hx => Kept.ite (hx.issueOne m) hx
  exact hc.each fun x m hx => Kept.ite (hx.issueOne m) hx

/-- After the Retire phase has begun it keeps what every other operation keeps. -/
theorem retirePhase_kept {s : Dev} (h : Sound s) : Kept (s.beginPhase .retire 5 896) s.retirePhase := by
  have h1 := (beginPhase_sound h .retire 5 896).kept
  unfold Dev.retirePhase
  extract_lets a b c
  have ha : Kept (s.beginPhase .retire 5 896) a := h1.onQs.retireArrived
  have hb : Kept (s.beginPhase .retire 5 896) b := ha.retireWrites.retireFlushes.endReads
  have hc : Kept (s.beginPhase .retire 5 896) c := hb.when fun x hx => hx.count _
  exact hc.postAll.sendHeals

/-- After the Admit phase has begun it keeps what every other operation keeps. -/
theorem admission_kept {s : Dev} (h : Sound s) :
    Kept (s.onTck fun t => { t with phase := .admission, phaseIdx := 1, cycle := 0 }) s.admission := by
  have h1 := (h.onTck fun t => { t with phase := .admission, phaseIdx := 1, cycle := 0 }).kept
  unfold Dev.admission
  extract_lets a b o c d
  have hb : Kept a b := h1.onQs
  have hc : Kept a c := hb.each fun x k hx => hx.retryHeld _
  have hd : Kept a d := (hc.beginRounds o).scanAdmin
  refine hd.each fun x p hx => Kept.ite ?_ hx
  exact (hx.readCq _).onPair _ _

/-- After the Mirror phase has begun it keeps what every other operation keeps. -/
theorem mirror_kept {s : Dev} (h : Sound s) :
    Kept (s.leaveAdmission.onTck fun t => { t with phase := .mirror, phaseIdx := 2, cycle := 256 }) s.mirror := by
  have h1 := (h.kept.leaveAdmission.sound.onTck fun t => { t with phase := .mirror, phaseIdx := 2, cycle := 256 }).kept
  unfold Dev.mirror
  repeat' first
    | with_reducible first | exact h1 | assumption | apply Kept.sendFrame | apply Kept.sendRecords | apply Kept.acceptOffers
                           | refine Kept.when ?_ ?_ | apply Kept.readForeign | apply Kept.sendBulk | apply Kept.sendCkpt
                           | apply Kept.sendPages | refine Kept.each ?_ ?_ | apply Kept.sendBand | apply Kept.sendFinals
                           | apply Kept.onFbk | apply Kept.count | apply Kept.onTwn
    | exact .same rfl rfl rfl rfl rfl rfl rfl | (intro) | extract_lets | split | (with_reducible apply Kept.ite)

end Sys2Proof.Safety
end

