-- ==== Sys2Proof/Laws/Mailbox.lean ====
section
/-!
SUPPORT. What the shared operations of the two mailboxes do, once each: a request that a free mailbox accepts starts its
command, and the end of a command answers it.
-/

namespace Sys2Proof.Machine

/-- An upstream request withdraws nothing that was emitted. -/
theorem Dev.sendUp_grows (s : Dev) (x : Out) {o : Out} (h : o ∈ s.out) : o ∈ (s.sendUp x).out := by
  unfold Dev.sendUp
  split
  · exact List.mem_append_left _ (List.mem_append_left _ h)
  · exact List.mem_append_left _ h

/-- A message withdraws nothing that was emitted. -/
theorem Dev.msix_grows (s : Dev) (v : Nat) {o : Out} (h : o ∈ s.out) : o ∈ (s.msix v).out := by
  unfold Dev.msix
  split
  · exact h
  · split
    · exact h
    · split
      · exact Dev.sendUp_grows _ _ h
      · exact h

/-- A device event withdraws nothing that was emitted. -/
theorem Dev.event_grows (s : Dev) (n : Nat) (o : Out) (h : o ∈ s.out) : o ∈ (s.event n).out := by
  unfold Dev.event
  have hp : ∀ x : Dev, o ∈ x.out → ∀ c : Bool, o ∈ (x.when c fun y => y.emit .pme).out := by
    intro x hx c
    cases c
    · exact hx
    · exact List.mem_append_left _ hx
  have hm : ∀ x : Dev, o ∈ x.out → ∀ c : Bool, o ∈ (x.when c fun y => y.msix (1026 + n)).out := by
    intro x hx c
    cases c
    · exact hx
    · exact Dev.msix_grows _ _ hx
  extract_lets
  refine hm _ ?_ _
  refine hp _ ?_ _
  exact h

/-- A record raises no counter but those of folds and of dropped records. -/
theorem Dev.recordF_counter (s : Dev) (fl code : Nat) (src : BitVec 16) (x y z : Nat) {i : Nat} (hi : i < ctrCount)
    (h1 : i ≠ ctrIx .fbkFolds) (h2 : i ≠ ctrIx .fbkDropped) : (s.recordF fl code src x y z).ctr[i] = s.ctr[i] := by
  have hc : ∀ (a : Dev) (c : Ctr) (n : Nat), i ≠ ctrIx c → (a.countN c n).ctr[i] = a.ctr[i] := fun a c n h => by
    simp only [Dev.countN]
    exact Vector.getElem_set_ne _ _ (Ne.symm h)
  have hw : ∀ (a : Dev) (c : Bool) (f : Dev → Dev), (f a).ctr = a.ctr → (a.when c f).ctr = a.ctr := fun a c f h => Dev.when_same (·.ctr) h
  have hl : ∀ (a : Dev) (c : Bool) (r : FbRec), (a.when c fun s => s.toLastWord r).ctr = a.ctr := fun a c r => hw _ _ _ rfl
  unfold Dev.recordF
  extract_lets
  split
  · unfold Dev.fold
    extract_lets
    split
    · exact hc _ _ _ h1
    · exact hc _ _ _ h1
  · split
    · unfold Dev.dropRec
      refine (hc _ _ _ h2).trans ?_
      exact congrArg (·[i]) (hl _ _ _)
    · exact congrArg (·[i]) (hl _ _ _)

/-- A record raises no counter but those of folds and of dropped records. -/
theorem Dev.record_counter (s : Dev) (code : Nat) (src : BitVec 16) (x y z : Nat) (c : Ctr)
    (h1 : ctrIx c ≠ ctrIx .fbkFolds) (h2 : ctrIx c ≠ ctrIx .fbkDropped) : (s.record code src x y z).counter c = s.counter c :=
  s.recordF_counter 0 code src x y z _ (fun h => h1 (Fin.ext h)) (fun h => h2 (Fin.ext h))

/-- A counter raised by `n`. -/
theorem Dev.countN_counter (s : Dev) (c : Ctr) (n : Nat) : (s.countN c n).counter c = min (s.counter c + n) maxCount := by
  simp [Dev.countN, Dev.counter]

/-- The command of a request that has been accepted. -/
def Dev.accepted (s : Dev) (p : MbxPath) (run : MbxRun) : Dev :=
  match p with
  | .host => { s with mbx := { s.mbx with busy := true, done := false, hostRun := some run } }
  | .mgmt => { s with mbx := { s.mbx with mgmtRun := some run } }

@[simp] theorem Dev.accepted_run (s : Dev) (p : MbxPath) (run : MbxRun) : (s.accepted p run).mbx.run? p = some run := by
  cases p <;> rfl

/-- A well-formed request at free mailboxes starts its command. -/
theorem Dev.mbxCommand_starts {s : Dev} {p : MbxPath} {op : Nat} {i : Instr} {r : MbxReq} {objs : List Obj} {start : Dev → Dev}
    (ready : s.hif.ready = true) (rec : s.hif.recovery = false) (frozen : s.sys.frozen = false) (boot : s.kst.running = true)
    (trw : s.sys.trwHalted.contains false = true) (busy : s.mbx.busy = false) (host : s.mbx.hostRun = none)
    (mgmt : s.mbx.mgmtRun = none) (path : p = .mgmt → op / 256 ≠ 2) (len : r.len ≤ 4080) :
    s.mbxCommand p op i r true objs start = start (s.accepted p ⟨i, BitVec.ofNat 16 op, r.seq, objs, .running⟩) := by
  have hl : ¬4080 < r.len := Nat.not_lt.mpr len
  have up : s.mgmtUp = true := by simp only [Dev.mgmtUp, boot, frozen, trw, Bool.not_false, Bool.and_self]
  cases p
  · simp [Dev.mbxCommand, Dev.mbxRun, Dev.objsHeld, heldBy, Dev.setRun, Dev.onMbx, Dev.accepted, ready, rec, frozen, busy, mgmt, hl]
  · have := path rfl
    simp [Dev.mbxCommand, Dev.mbxRun, Dev.objsHeld, heldBy, Dev.setRun, Dev.onMbx, Dev.accepted, up, ready, rec, host, mgmt, hl, this]

/-- The end of a command on the host path: its response stands in the buffer, and the mailbox is free. -/
theorem Dev.mbxDone_host {s : Dev} {run : MbxRun} (h : s.mbx.hostRun = some run) (hd : s.mbx.hostDiscard = false) (st : Nat) (l : List Byte) :
    (s.mbxDone .host st l).mbx = { s.mbx with
      hostRun := none, busy := false, done := true, failed := decide (st ≠ 0), lastSeq := run.seq
      resp := some ⟨run.opcode, BitVec.ofNat 16 st, run.seq, l, BitVec.ofNat 32 s.sys.epoch⟩ } := by
  unfold Dev.mbxDone
  simp only [Mbx.run?, h]
  have hs : ∀ x : Dev, x.mbx = { s.mbx with hostRun := none } → x.sys = s.sys →
      (if x.mbx.hostDiscard = true then x.onMbx fun m => { m with busy := false, hostDiscard := false } else
        (x.onMbx fun m => { m with
          resp := some ⟨run.opcode, BitVec.ofNat 16 st, run.seq, l, BitVec.ofNat 32 x.sys.epoch⟩
          busy := false, done := true, failed := decide (st ≠ 0), lastSeq := run.seq }).when
          (x.onMbx fun m => { m with
          resp := some ⟨run.opcode, BitVec.ofNat 16 st, run.seq, l, BitVec.ofNat 32 x.sys.epoch⟩
          busy := false, done := true, failed := decide (st ≠ 0), lastSeq := run.seq }).mbx.irqEn fun y => y.msix 1025).mbx =
      { s.mbx with
        hostRun := none, busy := false, done := true, failed := decide (st ≠ 0), lastSeq := run.seq
        resp := some ⟨run.opcode, BitVec.ofNat 16 st, run.seq, l, BitVec.ofNat 32 s.sys.epoch⟩ } := by
    intro x hx hy
    have : x.mbx.hostDiscard = false := by rw [hx]; exact hd
    rw [if_neg (by simp [this])]
    rw [Dev.when_same (·.mbx) (Dev.msix_mbx _ _)]
    simp [Dev.onMbx, hx, hy]
  apply hs
  · rw [Dev.when_same (·.mbx) (Dev.record_mbx _ _ _ _ _ _)]
    rfl
  · rw [Dev.when_same (·.sys) (Dev.record_sys _ _ _ _ _ _)]
    rfl

/-- The end of a command on the management path: its response is sent. -/
theorem Dev.mbxDone_mgmt {s : Dev} {run : MbxRun} (h : s.mbx.mgmtRun = some run) (st : Nat) (l : List Byte) :
    (s.mbxDone .mgmt st l).mbx = { s.mbx with mgmtRun := none } ∧
    Out.mgmt ⟨run.opcode, BitVec.ofNat 16 st, run.seq, l, BitVec.ofNat 32 s.sys.epoch⟩ ∈ (s.mbxDone .mgmt st l).out := by
  unfold Dev.mbxDone
  simp only [Mbx.run?, h]
  have hs : ∀ x : Dev, x.mbx = { s.mbx with mgmtRun := none } → x.sys = s.sys → ∀ c : Bool,
      ((x.emit (.mgmt ⟨run.opcode, BitVec.ofNat 16 st, run.seq, l, BitVec.ofNat 32 x.sys.epoch⟩)).when c fun y => y.event 12).mbx =
        { s.mbx with mgmtRun := none } ∧
      Out.mgmt ⟨run.opcode, BitVec.ofNat 16 st, run.seq, l, BitVec.ofNat 32 s.sys.epoch⟩ ∈
        ((x.emit (.mgmt ⟨run.opcode, BitVec.ofNat 16 st, run.seq, l, BitVec.ofNat 32 x.sys.epoch⟩)).when c fun y => y.event 12).out := by
    intro x hx hy c
    constructor
    · rw [Dev.when_same (·.mbx) (Dev.event_mbx _ _)]
      exact hx
    · rw [hy]
      unfold Dev.when
      split
      · exact Dev.event_grows _ _ _ (by simp [Dev.emit])
      · simp [Dev.emit]
  apply hs
  · rw [Dev.when_same (·.mbx) (Dev.record_mbx _ _ _ _ _ _)]
    rfl
  · rw [Dev.when_same (·.sys) (Dev.record_sys _ _ _ _ _ _)]
    rfl

end Sys2Proof.Machine
end

