-- ==== Sys2Proof/Machine/Formats.lean ====
section
/-!
DEFINITION. The bytes of what outlives a reset: the 6,144 lines of the Mortar Store as they have landed, with their magic, format and
check words (R110, R113 to R117, R172, R388, R399, R401, R486), and the NAND pages of the vault's slots (R220, R223, R224, R434).
-/

namespace Sys2Proof.Machine

/-! ## The header -/

/-- Bytes filled up with zeros. -/
def padTo (n : Nat) (l : List Byte) : List Byte := (l ++ zeroBytes n).take n

/-- Bytes and their CRC-32C after them. -/
def withCrc32 (l : List Byte) : List Byte := l ++ bytesLE 4 (crc32c l).toNat

/-- Bytes and their 64-bit CRC after them. -/
def withCrc64 (l : List Byte) : List Byte := l ++ bytesLE 8 (crc64 l).toNat

/-- The store descriptor (R115). -/
def Mst.descriptor (m : Mst) : List Byte :=
  withCrc32 (padTo 60 (ascii 8 "HLFMSTOR" ++ bytesLE 2 1 ++ bytesLE 1 (b2n m.storeTwinPos) ++ zeroBytes 5 ++ bytesLE 8 m.storeGen.toNat))

/-- A boot counter line: its CHECK stands between the two parts that it covers (R388). -/
def CounterLine.bytes (c : CounterLine) : List Byte :=
  let a := bytesLE 8 c.bootCount.toNat ++ bytesLE 4 c.ownerGen.toNat
  let d := bytesLE 48 c.ownerDigest.toNat
  a ++ bytesLE 4 (crc32c (a ++ d)).toNat ++ d

/-- An update marker (R399). -/
def UpdMarker.bytes (m : UpdMarker) : List Byte :=
  withCrc32 (padTo 60 (bytesLE 1 (b2n m.activeSlot + 2 * b2n m.copyArmed) ++ bytesLE 1 m.slot0 ++ bytesLE 1 m.slot1 ++ bytesLE 1 m.unconfBoots ++
    bytesLE 1 m.seedState ++ bytesLE 1 m.rejectReason ++ zeroBytes 2 ++ bytesLE 8 m.updateSeq.toNat))

/-- The session record, 256 bytes (R401). -/
def UpdSession.bytes (x : UpdSession) : List Byte :=
  withCrc64 (padTo 248 (bytesLE 4 x.sessionId.toNat ++ bytesLE 1 (b2n x.hostJoined + 2 * b2n x.mgmtJoined + 4 * b2n x.openerMgmt) ++ zeroBytes 3 ++
    bytesLE 4 x.idleS ++ bytesLE 2 x.chunkCount ++ zeroBytes 2 ++ bytesLE 48 x.digest.toNat ++ bytesLE 32 x.received.toNat ++
    bytesLE 32 x.provisional.toNat))

/-- A field entry (R115). -/
def FieldEntry.bytes (e : FieldEntry) : List Byte :=
  withCrc32 (padTo 28 (bytesLE 16 e.uuid.toNat ++ bytesLE 1 (1 + 2 * b2n e.owned + 4 * b2n e.home.isSome) ++ bytesLE 1 (e.home.getD 0) ++
    bytesLE 1 e.coarseShift ++ bytesLE 1 e.fineShift ++ bytesLE 1 e.fineBlocks))

/-- The field table's entry of a field ID; one that is not VALID holds zeros (log entry 117). -/
def Mst.entryBytes (m : Mst) (f : Nat) : List Byte :=
  match look f m.entries with
  | some e => e.bytes
  | none => zeroBytes 32

/-- The lease table's entry of a fine block (R115). -/
def Mst.leaseBytes (m : Mst) (n : Nat) : List Byte :=
  match m.leases.find? (·.1 = n) with
  | some e => bytesLE 4 (e.2.1 + e.2.2 * 2 ^ 8 + 2 ^ 12)
  | none => zeroBytes 4

/-- The reshape record of a number; a free one holds zeros (R172). -/
def Mst.reshapeBytes (m : Mst) (n : Nat) : List Byte :=
  match look n m.reshapes with
  | some r => rsBytes r
  | none => zeroBytes 256

/-! ## Intent slots and furrow maps -/

/-- A LIST entry (R117). -/
def listBytes (e : Nat × Bool) : List Byte := bytesLE 6 (e.1 + b2n e.2 * 2 ^ 40)

/-- An intent slot (R117). -/
def Slot.bytes (x : Slot) : List Byte :=
  withCrc64 (bytesLE 1 (if x.fine then 2 else 1) ++ bytesLE 1 x.field ++ bytesLE 1 x.segShift ++ bytesLE 1 x.list.length ++ bytesLE 4 x.region ++
    padTo 36 (x.list.flatMap listBytes) ++ zeroBytes 4 ++ bytesLE 8 x.overflow.toNat)

/-- The line of an intent slot: all zeros when it is free. -/
def Mst.slotBytes (m : Mst) (i : Nat) : List Byte :=
  match m.slots.find? (·.idx = i) with
  | some x => x.bytes
  | none => zeroBytes 64

/-- A line of the coarse area: the maps of 16 fields (R116). -/
def Mst.coarseBytes (m : Mst) (k : Nat) : List Byte :=
  (List.range 16).flatMap fun i => bytesLE 4 ((look (16 * k + i) m.coarse).getD 0).toNat

/-- Line `k` of a fine block: 512 bits of the map of the field that leases it, at the block's ORDINAL (R116). -/
def Mst.fineBytes (m : Mst) (n k : Nat) : List Byte :=
  match m.leases.find? (·.1 = n) with
  | some e =>
    let lo := e.2.2 * 4096 + k * 512
    bytesLE 64 (bitSet ((m.fine.filter fun b => b.1 = e.2.1 && lo ≤ b.2 && b.2 < lo + 512).map (·.2 - lo)))
  | none => zeroBytes 64

/-! ## Lines (R113, R114) -/

/-- Line `k` of a structure that spans lines. -/
def lineAt (l : List Byte) (k : Nat) : List Byte := (l.drop (64 * k)).take 64

/-- The 64 bytes of a line of the Mortar Store. -/
def Dev.storeLine (s : Dev) (n : Nat) : List Byte :=
  let m := s.mst
  if n = 0 then m.descriptor
  else if n < 4 then zeroBytes 64
  else if n < 8 then m.counterKept.bytes
  else if n < 10 then s.upd.markerKept.bytes
  else if n < 14 then lineAt s.upd.sessionKept.bytes (n - 10)
  else if n < 16 then zeroBytes 64
  else if n < 144 then m.entryBytes (2 * (n - 16)) ++ m.entryBytes (2 * (n - 16) + 1)
  else if n < 174 then (List.range 16).flatMap fun i => m.leaseBytes (16 * (n - 144) + i)
  else if n < 238 then lineAt (m.reshapeBytes ((n - 174) / 4)) ((n - 174) % 4)
  else if n < 256 then zeroBytes 64
  else if n < 2304 then m.slotBytes (n - 256)
  else if n < 2320 then m.coarseBytes (n - 2304)
  else if n < 6144 then m.fineBytes ((n - 2320) / 8) ((n - 2320) % 8)
  else []

/-! ## Vault pages (R220, R223) -/

/-- Bytes 0x000 to 0xFDF of a page and the vault MAC over them at 0xFE0 (R223, R434). -/
def withVaultMac (l : List Byte) : List Byte :=
  let p := padTo 0xFE0 l
  p ++ bytesLE 32 (Config.hmac32 vaultKey (fromLE p) 0xFE0).toNat

/-- A page of a slot: 16 KiB of data. -/
def slotPage (l : List Byte) : List Byte := padTo 16384 l

/-- DESCRIPTOR: the first 8 bytes of a manifest entry (R224). -/
def VFrame.descriptor (e : VFrame) : List Byte := bytesLE 1 e.field ++ bytesLE 1 e.kind ++ bytesLE 6 e.address

/-- The manifest entry of frame `n` (R224). -/
def VFrame.entry (e : VFrame) (n : Nat) : List Byte := e.descriptor ++ bytesLE 4 n ++ zeroBytes 4

/-- Frame `n` of a dump: DATA and TAG encrypted under the dump key, DESCRIPTOR in clear, FRAME_MAC over all three (R224). -/
def VFrame.bytes (e : VFrame) (key : Nat) (seq : BitVec 64) (n : Nat) : List Byte :=
  let plain := BitVec.ofNat 32896 (fromLE (blockBytes e.data ++ bytesLE 16 e.tag.toNat))
  let aad := BitVec.ofNat 64 (fromLE e.descriptor)
  bytesLE 4112 (Config.gcmEncrypt key seq n aad plain).toNat ++ e.descriptor ++ zeroBytes 24 ++
    bytesLE 16 (Config.gcmTag key seq n aad plain).toNat

/-- The manifest of a slot. -/
def VSlot.entries (v : VSlot) : List Byte := v.manifest.zipIdx.flatMap fun e => e.1.entry e.2

/-- MANIFEST_HASH (R223). -/
def VSlot.manifestHash (v : VSlot) : Digest := Config.sha384 (fromLE v.entries) v.entries.length

/-- The header page of a slot. -/
def VSlot.headerPage (v : VSlot) (slot : Nat) : List Byte :=
  let a := ascii 8 "HLFVAULT" ++ bytesLE 2 1 ++ bytesLE 1 (slot + 2 * b2n v.twinPos) ++ zeroBytes 5 ++ bytesLE 8 v.bootCount.toNat ++
    bytesLE 8 v.storeGen.toNat ++ bytesLE 8 v.dumpSeq.toNat ++ bytesLE 4 v.manifest.length ++ bytesLE 4 (manifestPages v.manifest.length)
  slotPage (withVaultMac (padTo 0x40 a ++ bytesLE 40 v.wrapped.toNat))

/-- The manifest seal page. -/
def VSlot.sealPage (v : VSlot) : List Byte :=
  let a := ascii 8 "HLFVMSEL" ++ bytesLE 8 v.dumpSeq.toNat ++ bytesLE 4 v.manifest.length
  slotPage (withVaultMac (padTo 0x18 a ++ bytesLE 48 v.manifestHash.toNat))

/-- The footer page. -/
def VSlot.footerPage (v : VSlot) : List Byte :=
  let a := ascii 8 "HLFVSEAL" ++ bytesLE 8 v.dumpSeq.toNat ++ bytesLE 4 v.written
  slotPage (withVaultMac (padTo 0x18 a ++ bytesLE 48 v.manifestHash.toNat))

/-- The consumed page. -/
def VSlot.consumedPage (v : VSlot) : List Byte :=
  slotPage (withVaultMac (ascii 8 "HLFVUSED" ++ bytesLE 8 v.dumpSeq.toNat ++ bytesLE 8 v.consumedBoot.toNat))

/-- Block `k` of the Field Book in a slot (R434). -/
def VSlot.bookBlock (v : VSlot) (k : Nat) : List Byte :=
  if 131 ≤ k then zeroBytes 4096
  else
  let l := (v.fbk.drop (126 * k)).take (if k < 130 then 126 else 4)
  let a := ascii 8 "HLFFBOOK" ++ bytesLE 2 k ++ bytesLE 1 l.length ++ zeroBytes 5 ++ bytesLE 8 v.fbkWritten
  withVaultMac (padTo 0x20 a ++ l.flatMap recBytes)

/-- Page `p` of bytes that are packed from the first byte of their first page. -/
def packedPage (l : List Byte) (p : Nat) : List Byte := slotPage (l.drop (16384 * p))

/-- The data of page `p` of a slot, in the order of R223: header, manifest, seal, frames, Field Book, footer, consumed page. -/
def VSlot.page (v : VSlot) (slot p : Nat) : List Byte :=
  let n := v.manifest.length
  let m := manifestPages n
  let f := framePages n
  let frames := v.manifest.zipIdx.flatMap fun e => e.1.bytes (unwrapDumpKey v.wrapped) v.dumpSeq e.2
  if p = 0 then v.headerPage slot
  else if p < 1 + m then packedPage v.entries (p - 1)
  else if p = 1 + m then v.sealPage
  else if p < 2 + m + f then packedPage frames (p - (2 + m))
  else if p < 2 + m + f + bookPages then
    (List.range 4).flatMap fun i => v.bookBlock (4 * (p - (2 + m + f)) + i)
  else if p = 2 + m + f + bookPages then v.footerPage
  else v.consumedPage

/-- A NAND page: its 16 KiB of data and the BCH code in its 704 spare bytes (R220). -/
def nandPage (l : List Byte) : List Byte :=
  let d := slotPage l
  d ++ bytesLE 704 (Config.bch (BitVec.ofNat 131072 (fromLE d))).toNat

end Sys2Proof.Machine
end

