-- ==== Sys2Proof/Tests/Slice0.lean ====
section
/-!
SUPPORT. The tests: ill-formed commands, numbers that the spec works out, and for every statement with hypotheses a state
and operands that meet them.
-/

namespace Sys2Proof.Tests

open Sys2Proof.Machine Sys2Proof.Safety Sys2Proof.Claims

/-! ## Base states -/

/-- A chip in operation: the boot ROM has run, the tick sequencer runs, the endpoint serves memory requests. -/
def base : State :=
  let s := State.reset
  { s with
    kst := { s.kst with running := true }
    tck := { s.tck with running := true, count := 4096 }
    hif := { s.hif with ready := true, mse := true, bme := true }
    fbk := { s.fbk with started := true }
    sys := { s.sys with pwrGood := true } }

/-- The byte memories, the counters and the Field Book of `base` are empty. -/
theorem base_sound : Sound base.toDev := by
  refine ⟨⟨rfl, rfl⟩, ?_, ⟨Nat.zero_le _, Nat.zero_le _, Nat.zero_le _, Nat.zero_le _⟩⟩
  intro x hx
  have : x ∈ (Vector.replicate ctrCount 0).toList := hx
  simp only [Vector.toList_replicate, List.mem_replicate] at this
  omega

/-- `base` with another tick block. -/
def tckAt (f : Tck → Tck) : State := { base with tck := f base.tck }

/-- `base` with other endpoint registers. -/
def hifAt (f : Hif → Hif) : State := { base with hif := f base.hif }

/-- `base` with another queue engine. -/
def qsAt (f : Queues → Queues) : State := { base with qs := f base.qs }

/-- A queue pair without batches. -/
def pair3 : QPair := freshPair ⟨3, false, 0, 0, 64, 64, 4096, 8192⟩ true

/-- An entry of zeros. -/
def entry0 : SqEntry := ⟨false, 0, 0, 0, 0, 0, 0, 0⟩

/-- `base` with the pair. -/
def withPair : State := qsAt fun q => { q with pairs := [pair3] }

/-- The pair, with the Admit phase running. -/
def taking : State := { withPair with tck := { withPair.tck with phaseIdx := 1 } }

/-- The same with the write quota of the tick spent, and a field set that names field 0. -/
def quotaSpent : State := { taking with
  tasks := { taking.tasks with quota := 0 }
  qs := { taking.qs with pairs := [{ pair3 with fieldSet := 1 }] } }

/-- A port hold. -/
def inHold : State := { withPair with hif := { withPair.hif with hold := true } }

/-- A boundary at which the periodic scan is due. -/
def scanDue : State := { base with cfg := base.cfg.set (cfgIx .dblScanTicks) 64 }

/-- A read of submission entries is out. -/
def reading : State := { withPair with qs := { withPair.qs with hreads := [⟨5, .sqBurst 3 0 8, 4096, 512, false⟩] } }

/-- A completion entry. -/
def cqe0 : Cqe := ⟨false, false, 0, 0, 0, 1, 0⟩

/-- A read of completion entries is out, and a completion waits. -/
def readingCq : State := { withPair with qs := { withPair.qs with
  pairs := [{ pair3 with waiting := [([], cqe0)] }]
  hreads := [⟨6, .cqBurst 3 0 8, 8192, 128, false⟩] } }

/-- A field of width 4 with four members and bricks of 4 blocks. -/
def field7 : Field := { base.newField ⟨0, 0, []⟩ 9 with
  id := 7, width := 4, brickShift := 14, courses := 4096, tagged := true, seen := true, homeIndex := some 0
  members := (List.range 4).map fun i => ⟨BitVec.ofNat 128 (100 + i), 1, true, 1, some i⟩ }

/-- A member of the field. -/
def member (i : Nat) : Member where
  id := i
  uid := BitVec.ofNat 128 (100 + i)
  state := 1
  blocks := 100000
  subsystem := i
  vwc := false
  mdtsKib := 128
  slots := 64
  tagCapable := true
  field := some 7
  position := i
  metaBytes := 16
  labelSeq := 1
  labelSlot := false
  labelPlace := some 0
  otherFormat := none
  otherPlace := none
  repCur := none
  pathLost := none
  warning := false
  erasures := []

/-- `base` with the field and its members. -/
def withField : State := { base with
  fields := [field7]
  mpt := { base.mpt with members := (List.range 4).map member } }

/-- A line whose refetch runs. -/
def line0 : Line := ⟨7, 0, 1, .uncommitted, 0, 0, 0, false, true, none, 0, 0, false⟩

/-- The field with the lost line. -/
def lostLine0 : State := { withField with
  cache := { withField.cache with lines := [line0] }
  qs := { withField.qs with cmds := [{ (base.newCmd 0 3 pair3 0 .write { entry0 with fieldId := 7, nlb := 1 }) with stage := .running, arrived := true }] } }

theorem taking_sound : Sound taking.toDev := base_sound.of_parts rfl rfl rfl rfl

/-- The landing window is open: bytes 4,096 to 8,191 of BAR4/5. -/
def winOpen : State := { base with win := { base.win with base := 4096, size := 4096, enable := true, writeEn := true, readEn := true } }

/-- A twin pair that is SYNCED, with a window page not yet mirrored. -/
def winTwin : State := { winOpen with
  twn := { winOpen.twn with mode := true, state := 3, linkUp := true, session := some 1 }
  win := { winOpen.win with unmirrored := [0] } }

/-! ## Ill-formed commands -/

/-- A request whose payload is longer than its length says. -/
def badReq : MbxReq := ⟨1, 0, [0]⟩

/-- A namespace on a port. -/
def nsOn (port : Nat) : NsFound := ⟨port, 0, 1, 1, 0, 4096, 16, true, false, 128, 4, 100000, 0, [], [], none, none, []⟩

/-- A line frame of a field and an LBA. -/
def frameOf (field lba : Nat) : LineFrame := ⟨field, lba, true, true, false, 0, 0, 0, 0, 0, 0⟩

theorem test_wf_accepts : (Instr.read 1024 entry0 []).wf = true ∧ (Instr.identify .host ⟨1, 0, []⟩).wf = true ∧ (Instr.line true (frameOf 255 0)).wf = true ∧
    (Instr.namespaceDiscovered (nsOn 3)).wf = true ∧ (Instr.registerWrite .bar0 0 4 0xFFFFFFFF).wf = true ∧ Instr.idcode.wf = true := by decide

theorem test_wf_commit : (Instr.commitPhase ⟨[6144], [], []⟩).wf = false ∧ (Instr.commitPhase ⟨[], [6144], []⟩).wf = false ∧
    (Instr.commitPhase ⟨[], [], [6144]⟩).wf = false := by decide

theorem test_wf_entries : (Instr.read 1025 entry0 []).wf = false ∧ (Instr.write 1025 entry0).wf = false ∧
    (Instr.invalidOpcode 1025 9 entry0).wf = false := by decide

theorem test_wf_lines : (Instr.lineRefetchDone 256 0 none).wf = false ∧ (Instr.line true (frameOf 256 0)).wf = false ∧
    (Instr.bulkLine true (frameOf 0 (2 ^ 48))).wf = false ∧ (Instr.release true 256 0 1 0).wf = false ∧ (Instr.release true 0 (2 ^ 48) 1 0).wf = false := by decide

theorem test_wf_bars : (Instr.doorbellWrite 16384 4).wf = false ∧ (Instr.doorbellWrite 0 0).wf = false ∧ (Instr.forbiddenTargetRead 1 0 4).wf = false ∧
    (Instr.forbiddenTargetWrite 0 0 0).wf = false ∧ (Instr.registerWrite .bar0 1048576 4 0).wf = false ∧ (Instr.registerWrite .bar0 0 4 (2 ^ 32)).wf = false ∧
    (Instr.tckCountLowRead 4 0).wf = false ∧ (Instr.tckCountHighRead 0 0).wf = false := by decide

theorem test_wf_window : (Instr.windowWrite 0 0 0).wf = false ∧ (Instr.windowWrite 0 1 256).wf = false ∧ (Instr.windowRead 0 0).wf = false := by decide

theorem test_wf_link : (Instr.linkTrained 7 16 true).wf = false ∧ (Instr.linkTrained 5 3 true).wf = false ∧ (Instr.msixMaskChange (.vector 1040 true)).wf = false ∧
    (Instr.twinLinkTrained 2).wf = false := by decide

theorem test_wf_requests : (Instr.identify .host badReq).wf = false ∧ (Instr.updChunk .mgmt ⟨1, 2 ^ 32, []⟩).wf = false ∧ (Instr.badOpcode .host 0 badReq).wf = false := by decide

theorem test_wf_objects : (Instr.fieldOfflineDone 256).wf = false ∧ (Instr.destageStart 256 0 false ⟨[], []⟩).wf = false ∧ (Instr.resyncCourseStart 256 0 false).wf = false ∧
    (Instr.rebuildStart 0 32).wf = false ∧ (Instr.rebuildTargetJoined 256 0).wf = false ∧ (Instr.memberControllerFatal 256).wf = false ∧
    (Instr.namespaceDiscovered (nsOn 4)).wf = false ∧ (Instr.memberEnumerationDone [nsOn 0, nsOn 4]).wf = false := by decide

theorem test_wf_units : (Instr.hodMoveDone 16).wf = false ∧ (Instr.drmChannelFailed 8).wf = false ∧ (Instr.vaultEraseDone ⟨2, 0⟩).wf = false ∧ (Instr.mptPerstRelease 4).wf = false ∧
    (Instr.sysThermalTrip 125 16).wf = false ∧ (Instr.getCertificate .host 8 0 0).wf = false ∧ (Instr.challenge .host 8 0).wf = false ∧ (Instr.harvest 0).wf = false := by decide

/-! ## The spec's own numbers -/

/-- The check values of the two CRCs over "123456789" (R486). -/
theorem test_crc : crc32c (ascii 9 "123456789") = 0xE3069283 ∧ crc64 (ascii 9 "123456789") = 0x995DC9BBDF1939FA := by decide +kernel

/-- The worked example of a mapping (R66 to R69): field LBA 1,000,003 of a field of width 10 with bricks of 16 blocks. -/
theorem test_mapping : courseOf 10 16 1000003 = 7812 ∧ brickOf 10 16 1000003 = 4 ∧ pPos 10 7812 = 7 ∧ qPos 10 7812 = 8 ∧ dPos 10 7812 4 = 3 ∧
    memberLba 16 7812 3 = 141379 ∧ roleAt 10 7812 3 = .data 4 ∧ lbaAt 10 16 7812 4 3 = 1000003 := by decide

/-- The worked example of the method of a destage (R90): threshold 64 of 128. -/
theorem test_method : methodOf 4 128 = .rmw ∧ methodOf 64 128 = .rcw ∧ methodOf 80 128 = .rcw ∧ methodOf 128 128 = .full := by decide

/-- The worked example of Q (R84): D1 = 0xA5 at x = 1, D2 = 0x17 at 2, D3 = 0xE2 at 3; and the division by 0x0A. -/
theorem test_galois : gfMul (gfPow2 1) 0xA5 = 0x57 ∧ gfMul (gfPow2 2) 0x17 = 0x5C ∧ gfMul (gfPow2 3) 0xE2 = 0x43 ∧ gfMul (gfPow2 2) 0x8C = 0x0A ∧
    gfMul (gfInv (gfPow2 1 ^^^ gfPow2 3)) 0x16 = 0xA5 := by decide

/-- The identification code of the JTAG port (R458): version 1, part 0x9600, manufacturer 0x4D7. -/
theorem test_idcode : (match exec .idcode State.reset with
    | .next t => t.out
    | _ => []) = [.jtag ((List.range 32).map fun i => (0x196009AF : Nat).testBit i)] := by decide

/-- The DRAM controller as a source is 0x4078 on a single chip (R235). -/
theorem test_source : base.toDev.srcDramCtl = 0x4078 := by decide

/-- A step takes the command at the front and leaves the rest. -/
theorem test_step : (match step { State.reset with pending := [.highz, .freeze] } with
    | .next t => t.pending
    | _ => []) = [.freeze] := by decide

/-- The block is idle in reset: no tick phase, no readiness, and the defaults of R234. -/
theorem test_reset : State.reset.tck.running = false ∧ State.reset.hif.ready = false ∧ State.reset.param .vltHoldupMs = 1100 ∧ State.reset.param .drmDestageDelayTicks = 2048 ∧
    State.reset.param .winDumpLimit = 0 ∧ State.reset.pending = [] := by decide

/-! ## Lines of the Mortar Store (R115, R117) -/

theorem test_free_slot_line_is_zeros : Mst.reset.slotBytes 0 = zeroBytes 64 := by decide

theorem test_field_entry_is_32_bytes : (FieldEntry.bytes ⟨7, true, some 3, 14, 4, 2⟩).length = 32 ∧
    (FieldEntry.bytes ⟨7, true, some 3, 14, 4, 2⟩).take 21 = bytesLE 16 7 ++ [7, 3, 14, 4, 2] := by decide

/-! ## Witnesses of the statements -/

theorem wit_StepTakesTheFront : ∃ (c : Instr) (rest : List Instr) (s : State), s.pending = c :: rest :=
  ⟨.idcode, [.freeze], { State.reset with pending := [.idcode, .freeze] }, rfl⟩

theorem wit_EmptyQueueIdles : State.reset.pending = [] := rfl

theorem wit_SoundIsKept : ∃ s s' : State, SoundState s ∧ s.pending ≠ [] ∧ step s = .next s' :=
  ⟨{ base with pending := [.idcode] }, _, ⟨base_sound, by decide⟩, by decide, rfl⟩

theorem wit_CountAdvancesAtTheBoundary : Sound base.toDev ∧ base.tck.running = true ∧ base.sys.frozen = false ∧
    base.vlt.dumpTick = false ∧ base.tck.gapsDue = [] := ⟨base_sound, rfl, rfl, rfl, rfl⟩

theorem wit_CountAdvancesAtTheBoundary_gap : ∃ s : State, Sound s.toDev ∧ s.tck.running = true ∧ s.sys.frozen = false ∧
    s.vlt.dumpTick = false ∧ s.tck.gapNow.isSome = true ∧ s.tck.gapsDue = [] :=
  ⟨tckAt fun t => { t with gapNow := some (.reset, 1024) }, base_sound.of_parts rfl rfl rfl rfl, rfl, rfl, rfl, rfl, rfl⟩

theorem wit_GapTakesThePlaceOfATick : ∃ s : State, Sound s.toDev ∧ s.tck.running = true ∧ s.sys.frozen = false ∧
    s.vlt.dumpTick = false ∧ s.tck.gapsDue = [(.reset, 1024), (.pairing, 7)] :=
  ⟨tckAt fun t => { t with gapNext := [(.reset, 1024), (.pairing, 7)] }, base_sound.of_parts rfl rfl rfl rfl, rfl, rfl, rfl, rfl⟩

theorem wit_DumpLeavesOnlyTheCount : ∃ s : State, s.tck.running = true ∧ s.sys.frozen = false ∧ s.vlt.dumpTick = true :=
  ⟨{ base with vlt := { base.vlt with dumpTick := true } }, rfl, rfl, rfl⟩

theorem wit_PhasesInOrder : Sound base.toDev ∧ base.awake = true ∧ base.tck.gapNow = none ∧ base.tck.phaseIdx = 0 :=
  ⟨base_sound, rfl, rfl, rfl⟩

theorem wit_PhasesInOrder_each : ∀ n ≤ 5, ∃ s : State, Sound s.toDev ∧ s.awake = true ∧ s.tck.gapNow = none ∧ s.tck.phaseIdx = n :=
  fun n _ => ⟨tckAt fun t => { t with phaseIdx := n }, base_sound.of_parts rfl rfl rfl rfl, rfl, rfl, rfl⟩

theorem wit_IssueLimit : base.mayBegin 4 = true ∧ base.mpt.issuedNow ≤ 2048 := ⟨rfl, Nat.zero_le _⟩

/-- After the Commit phase, with the results of some tasks posted. -/
def tasksAt (f : Tasks → Tasks) : State := { tckAt fun t => { t with phaseIdx := 3 } with tasks := f base.tasks }

theorem wit_TasksPostOnce : base.mayPost .faults = true ∧ (tasksAt fun t => { t with faultsReg := some [] }).mayPost .checkpoint = true ∧
    (tasksAt fun t => { t with ckptReg := true }).mayPost .quota = true ∧ (tasksAt fun t => { t with quotaReg := some 1 }).mayPost .slots = true ∧
    (tasksAt fun t => { t with slotsReg := some [] }).mayPost .leases = true ∧ (tasksAt fun t => { t with leasesReg := some [] }).mayPost .share = true :=
  ⟨rfl, rfl, rfl, rfl, rfl, rfl⟩

theorem wit_OverrunsAreCounted : ∃ s : State, s.awake = true ∧ s.tck.phaseIdx = 5 ∧ s.tasks.posted .quota = false ∧
    TaskId.quota ∉ s.tck.overrunNow := ⟨tckAt fun t => { t with phaseIdx := 5 }, rfl, rfl, rfl, by decide⟩

theorem wit_OverrunsAreCounted_storm : ∃ s : State, s.awake = true ∧ s.tck.overrunNow ≠ [] ∧ s.tck.stormFired = false ∧
    s.param .tckStormTicks ≤ s.tck.stormRun + 1 :=
  ⟨tckAt fun t => { t with overrunNow := [.quota], stormRun := 255 }, rfl, by decide, rfl, by decide⟩

theorem wit_EntriesAreConsumed : Sound taking.toDev ∧ taking.mayConsume 3 = true ∧ taking.pair? 3 = some pair3 ∧ 0 < pair3.sqN :=
  ⟨taking_sound, by decide, by decide, by decide⟩

theorem wit_EntriesAreConsumed_invalid : opOf (0x77#8).toNat = none := rfl

theorem wit_RefusedEntriesFinish : taking.mayConsume 3 = true ∧ taking.pair? 3 = some pair3 ∧ pair3.batching = false ∧ opOf (0x77#8).toNat = none ∧
    (∀ op ∈ [HostOp.read, .write, .flush, .writeZeroes, .deallocate, .verify], checkEntry pair3.fieldSet none op entry0 = some (0x0002, 0x04)) :=
  ⟨by decide, by decide, rfl, rfl, by decide⟩

theorem wit_ChecksOfAnEntry : (0 : BitVec 256).getLsbD entry0.fieldId.toNat = false := rfl

theorem wit_ChecksOfAnEntry_len : (1 : BitVec 256).getLsbD entry0.fieldId.toNat = true ∧ ¬(1 ≤ entry0.nlb.toNat ∧ entry0.nlb.toNat ≤ 8192) := by decide

theorem wit_ChecksOfAnEntry_over : let e := { entry0 with nlb := 8192, lba := 1 }
    (1 : BitVec 256).getLsbD e.fieldId.toNat = true ∧ (1 ≤ e.nlb.toNat ∧ e.nlb.toNat ≤ 8192) ∧ 8192 < e.lba.toNat + e.nlb.toNat := by decide

theorem wit_ChecksOfAnEntry_ranges : 256 < ({ entry0 with nlb := 257 } : SqEntry).nlb.toNat := by decide

theorem wit_ChecksOfAnEntry_none : ¬(HostOp.deallocate = .deallocate ∧ 256 < ({ entry0 with nlb := 256 } : SqEntry).nlb.toNat) := by decide

theorem wit_WritesBeyondTheQuotaAreHeld : quotaSpent.mayConsume 3 = true ∧ quotaSpent.pair? 3 = some { pair3 with fieldSet := 1 } ∧
    quotaSpent.tasks.quota ≤ quotaSpent.qs.admitted ∧
    (∀ op ∈ [HostOp.write, .writeZeroes, .deallocate], checkEntry 1 none op { entry0 with nlb := 1 } = none) := ⟨by decide, by decide, by decide, by decide⟩

theorem wit_RingsAreReadAgain : withPair.memUp = true ∧ doorbellForm 24 8 = true ∧ doorbellForm 25 8 = false ∧ withPair.hif.hold = false ∧
    withPair.pair? (24 / 8) = some pair3 ∧ pair3.live = true ∧ withPair.pair? (16376 / 8) = none ∧ doorbellForm 16376 8 = true := by decide

theorem wit_RingsAreReadAgain_hold : inHold.memUp = true ∧ inHold.hif.hold = true := by decide

theorem wit_RingsAreReadAgain_scan : scanDue.awake = true ∧ scanDue.tck.phaseIdx = 0 ∧ scanDue.param .dblScanTicks ≠ 0 ∧
    scanDue.now % scanDue.param .dblScanTicks = 0 := by decide

theorem wit_RingsAreReadAgain_poll : ∃ s : State, s.awake = true ∧ s.now % s.param .dblStallPollTicks = 0 :=
  ⟨tckAt fun t => { t with count := 0 }, rfl, by decide⟩

theorem wit_HostReadsThatFail : reading.sys.frozen = false ∧ reading.tck.phaseIdx ≠ 1 ∧ (∀ x ∈ reading.qs.hreads, x.waiting = false) ∧ reading.read? 5 = some ⟨5, .sqBurst 3 0 8, 4096, 512, false⟩ ∧
    reading.pair? 3 = some pair3 := by decide

theorem wit_CompletionEntriesReadAhead : readingCq.sys.frozen = false ∧ readingCq.awake = true ∧ readingCq.tck.phaseIdx ≠ 5 ∧ (∀ x ∈ readingCq.qs.hreads, x.waiting = false) ∧
    readingCq.read? 6 = some ⟨6, .cqBurst 3 0 8, 8192, 128, false⟩ ∧ readingCq.pair? 3 = some { pair3 with waiting := [([], cqe0)] } ∧
    0 < ownedRun ([true, false].take 8) ∧ ownedRun ([false].take 8) = 0 := by decide

theorem wit_LateCompletionsAreDiscarded : ∃ s : State, s.sys.frozen = false ∧ 9 ∈ s.qs.timedOut :=
  ⟨{ base with qs := { base.qs with timedOut := [9] } }, rfl, List.mem_singleton.mpr rfl⟩

/-- The write that brought the line. -/
def cmdOf0 : Cmd := { (base.newCmd 0 3 pair3 0 .write { entry0 with fieldId := 7, nlb := 1 }) with stage := .running, arrived := true }

theorem wit_RefetchedLines : lostLine0.sys.frozen = false ∧ (lostLine0.versions 7 0).find? (·.lostWait) = some line0 ∧
    lostLine0.field? 7 = some field7 ∧ lostLine0.cmd? line0.cmd = some cmdOf0 := ⟨rfl, rfl, rfl, rfl⟩

theorem wit_ForbiddenTargets : base.cfgUp = true ∧ base.readUp 0 0x5000 = true ∧ base.readBar0 0x5000 4 = none ∧ base.memUp = true ∧
    base.writeForbidden 0x5000 4 = true := ⟨rfl, rfl, rfl, rfl, rfl⟩

theorem wit_RegisterWrites : base.memUp = true ∧ base.hif.hold = false ∧ memWf base.mbx.reqBuf = true := by decide

theorem wit_HalvesOfWideRegisters : base.readsServed = true ∧ base.wide? 0x8000 = some 4096 ∧
    base.tck.shadows.find? (fun x => x.1 = 1 && x.2.1 = 0x8000) = none := by decide

theorem wit_HalvesOfWideRegisters_shadow : ∃ s : State, s.readsServed = true ∧ s.wide? 0x8000 = some 4096 ∧
    s.tck.shadows.find? (fun x => x.1 = 1 && x.2.1 = 0x8000) = some (1, 0x8000, 0) :=
  ⟨tckAt fun t => { t with shadows := [(1, 0x8000, 0)] }, by decide, by decide, by decide⟩

theorem wit_PortHold : base.memUp = true ∧ base.hif.hold = false := by decide

theorem wit_PortHold_held : ∀ a : Bool, ∃ s : State, s.memUp = true ∧ s.hif.hold = true ∧ s.hif.armed = a :=
  fun a => ⟨hifAt fun h => { h with hold := true, armed := a }, rfl, rfl, rfl⟩

theorem wit_PortHold_word : (7 : BitVec 32).setWidth 16 ≠ (0x484F : BitVec 16) ∧ (7 : BitVec 32).setWidth 16 ≠ (0x4C44 : BitVec 16) := by decide

theorem wit_LandingWindow : base.memUp = true ∧ base.hif.hold = false ∧ memWf base.win.mem = true ∧ 0 + 8 ≤ base.winBarBytes ∧
    ¬(base.win.enable = true) := ⟨by decide, by decide, by decide, by unfold Dev.winBarBytes gib; decide, by decide⟩

theorem wit_LandingWindow_inside : winOpen.memUp = true ∧ winOpen.hif.hold = false ∧ memWf winOpen.win.mem = true ∧ winOpen.win.enable = true ∧
    winOpen.win.base ≤ 4100 ∧ 4100 + 8 ≤ winOpen.win.base + winOpen.win.size ∧ winOpen.win.writeEn = true ∧ winOpen.win.readEn = true ∧
    winOpen.winNeeds = none := by decide

theorem wit_LandingWindow_waits : winTwin.memUp = true ∧ winTwin.win.enable = true ∧ winTwin.win.readEn = true ∧ winTwin.winNeeds = some 1 := by decide

theorem wit_LinkAndEnables : base.cfgUp = true ∧ base.hif.hold = false ∧ base.hif.d3hot = false ∧ base.vlt.dumpTick = false ∧ base.memUp = true ∧ base.hif.pba = [] := by decide

theorem wit_LinkAndEnables_pending : ∃ s : State, s.cfgUp = true ∧ s.memUp = true ∧ s.hif.pba = [1039] ∧ s.hif.msixEnable = true ∧
    s.hif.functionMask = false ∧ s.upstream = true :=
  ⟨hifAt fun h => { h with pba := [1039], msixEnable := true }, rfl, rfl, rfl, rfl, rfl, rfl⟩

theorem wit_LinkAndEnables_waiting : ∃ s : State, s.cfgUp = true ∧ total (s.qs.hreads.map HRead.requests) < 2048 ∧
    ∃ r ∈ s.qs.hreads, r.waiting = true :=
  ⟨qsAt fun q => { q with hreads := [⟨0, .data 0, 0, 4096, true⟩] }, rfl, by decide, _, List.mem_singleton.mpr rfl, rfl⟩

theorem wit_LatencyAndPower : ∃ s : State, s.awake = true ∧ s.hif.ltrEnable = true ∧ s.ltrNow ≠ s.hif.ltr ∧ s.hif.ltr = 3 ∧ s.cfgUp = true ∧
    s.hif.d3hot = false ∧ s.hod.regs = [] := ⟨hifAt fun h => { h with ltrEnable := true }, by decide⟩

theorem wit_LatencyAndPower_longer : ∃ s : State, s.awake = true ∧ s.hif.ltrEnable = true ∧ s.ltrNow ≠ s.hif.ltr ∧ s.ltrNow = s.hif.ltrCond ∧
    s.hif.ltrSince.toNat + 64 ≤ s.now := ⟨hifAt fun h => { h with ltrEnable := true, ltr := 0, ltrCond := 2 }, by decide⟩

theorem wit_LatencyAndPower_shorter : ∃ s : State, s.awake = true ∧ s.hif.ltrEnable = true ∧ s.ltrNow < s.hif.ltr ∧ s.hif.ltr ≠ 3 :=
  ⟨hifAt fun h => { h with ltrEnable := true, ltr := 2, lastDoorbell := some 4096 }, by decide⟩

theorem wit_LatencyAndPower_stays : ∃ s : State, s.awake = true ∧ s.hif.ltrEnable = true ∧ s.ltrNow ≠ s.hif.ltr ∧ s.hif.ltr ≠ 3 ∧
    s.hif.ltr < s.ltrNow ∧ s.now < s.hif.ltrSince.toNat + 64 := ⟨hifAt fun h => { h with ltrEnable := true, ltr := 0, ltrCond := 2, ltrSince := 4090 }, by decide⟩

theorem wit_LatencyAndPower_l1 : ∃ s : State, s.awake = true ∧ s.hif.l1 = false ∧ s.ltrNow = 2 ∧ s.qs.hreads = [] :=
  ⟨{ base with cfg := base.cfg.set (cfgIx .dblScanTicks) 0 }, by decide⟩

theorem wit_LatencyAndPower_d0 : ∃ s : State, s.cfgUp = true ∧ s.hif.d3hot = true ∧ s.hif.l1 = true ∧ s.sys.frozen = false :=
  ⟨hifAt fun h => { h with d3hot := true, l1 := true }, by decide⟩

theorem wit_DeviceReports : Idle base.toDev ∧ (⟨1, 0, []⟩ : MbxReq).len ≤ 4080 ∧ mbxInstr .host 0x0A01 ⟨1, 0, []⟩ true = none ∧
    stateChanging 0x0A01 = false := by unfold Idle; decide

theorem wit_DeviceReports_book : reqId ⟨1, 16, zeroBytes 16⟩ ≤ 2 := by decide

theorem wit_ObjectReports : Idle withField.toDev ∧ withField.field? (reqId ⟨1, 8, [7, 0, 0, 0, 0, 0, 0, 0]⟩) = some field7 ∧ field7.seen = true := by
  unfold Idle; decide

theorem wit_ObjectReports_none : Idle base.toDev ∧ base.field? (reqId ⟨1, 8, zeroBytes 8⟩) = none := by unfold Idle; decide

theorem wit_ObjectReports_ledger : ∃ s : State, Idle s.toDev ∧ ∃ x,
    (s.kst.ledger ++ s.kst.ledgerRam.toList).find? (fun x => x.bootCount.toNat = reqAt ⟨1, 16, zeroBytes 16⟩ 0 8) = some x :=
  ⟨{ base with kst := { base.kst with ledger := [⟨0, false, false, false, false, false, false, 0, 0, 0, []⟩] } }, by unfold Idle; decide, _, rfl⟩

theorem wit_ObjectReports_params : let r : MbxReq := ⟨1, 24, [1, 0, 0, 0, 0, 0, 0, 0] ++ bytesLE 2 0x0400 ++ zeroBytes 14⟩
    paramLenOk r = true ∧ paramEntries r ≠ [] ∧ (paramEntries r).zipIdx.findSome? entryExists = none := by decide

theorem wit_ObjectReports_bad : let r : MbxReq := ⟨1, 24, [1, 0, 0, 0, 0, 0, 0, 0] ++ bytesLE 2 0x7FFF ++ zeroBytes 14⟩
    paramLenOk r = true ∧ paramEntries r ≠ [] ∧ (paramEntries r).zipIdx.findSome? entryExists = some (3, 8) := by decide

theorem wit_ObjectReports_info : (parOf (reqAt ⟨1, 8, bytesLE 2 0x0400 ++ zeroBytes 6⟩ 0 2)).isSome = true := by decide

theorem wit_IgnoredGo : base.sys.frozen = false ∧ State.reset.sys.frozen = false ∧ State.reset.hif.ready = false ∧
    mbxInstr .host (0x0101 : BitVec 16).toNat ⟨1, 0, []⟩ true = some (.identify .host ⟨1, 0, []⟩) ∧
    mbxInstr .host (0x0A01 : BitVec 16).toNat ⟨1, 0, []⟩ true = none := by decide

theorem wit_IgnoredGo_busy : ∃ s : State, s.sys.frozen = false ∧ s.hif.ready = true ∧ s.mbx.busy = true :=
  ⟨{ base with mbx := { base.mbx with busy := true } }, rfl, rfl, rfl⟩

theorem wit_MailboxChecks : Idle base.toDev ∧ mbxInstr .host 0x0101 ⟨1, 4, []⟩ true = some (.identify .host ⟨1, 4, []⟩) ∧ fixedLen 0x0101 = some 0 ∧
    (mbxInstr .mgmt 0x0202 ⟨1, 0, []⟩ true).isSome = true ∧ 0x0202 / 256 = 2 := by unfold Idle; decide

theorem wit_MailboxChecks_recovery : ∃ s : State, IdleBut true true s.toDev ∧ recoveryServes 0x0305 = false :=
  ⟨hifAt fun h => { h with recovery := true }, by unfold IdleBut Idle; decide, rfl⟩

theorem wit_MailboxChecks_notReady : ∃ s : State, IdleBut false false s.toDev := ⟨hifAt fun h => { h with ready := false }, by unfold IdleBut Idle; decide⟩

theorem wit_MailboxChecks_running : ∃ s : State, s.mgmtUp = true ∧ s.mbx.mgmtRun ≠ none ∧ s.mbx.mgmtNext = none :=
  ⟨{ base with mbx := { base.mbx with mgmtRun := some ⟨.tickBoundary, 0, 0, [], .reset⟩ } }, rfl, by decide, rfl⟩

theorem wit_MailboxChecks_kept : ∃ s : State, s.mgmtUp = true ∧ s.mbx.mgmtRun ≠ none ∧ s.mbx.mgmtNext ≠ none :=
  ⟨{ base with mbx := { base.mbx with mgmtRun := some ⟨.tickBoundary, 0, 0, [], .reset⟩, mgmtNext := some .tickBoundary } }, rfl, by decide, by decide⟩

/-- The management path holds the parameter set. -/
def paramsHeld : State := { base with mbx := { base.mbx with mgmtRun := some ⟨.tickBoundary, 0x0802, 0, [.params], .sync⟩ } }

theorem wit_ObjectsOfCommands : paramsHeld.mgmtUp = true ∧ paramsHeld.hif.ready = true ∧ paramsHeld.hif.recovery = false ∧ paramsHeld.mbx.busy = false ∧
    paramsHeld.mbx.run? .host = none ∧ paramsHeld.objsHeld .host [.params] = true ∧ paramLenOk ⟨1, 8, zeroBytes 8⟩ = true := by decide

theorem wit_ObjectsOfCommands_waits : ∃ (s : State) (w : MbxRun), s.mbx.run? .host = some w ∧ w.wait = .objects ∧
    mbxInstr .host 0x0802 ⟨1, 8, zeroBytes 8⟩ true = some w.instr ∧ s.objsHeld .host w.objs = false ∧ s.hif.ready = true :=
  ⟨{ base with mbx := { base.mbx with busy := true, hostRun := some ⟨.paramSet .host ⟨1, 8, zeroBytes 8⟩, 0x0802, 1, [.params], .objects⟩ } }, _, rfl, rfl, rfl, rfl, rfl⟩

theorem wit_ObjectsOfCommands_held : ∃ (s : State) (w : MbxRun), s.mbx.run? .host = some w ∧ w.wait = .objects ∧
    mbxInstr .host 0x0802 ⟨1, 8, zeroBytes 8⟩ true = some w.instr ∧ s.objsHeld .host w.objs = true :=
  ⟨{ paramsHeld with mbx := { paramsHeld.mbx with busy := true, hostRun := some ⟨.paramSet .host ⟨1, 8, zeroBytes 8⟩, 0x0802, 1, [.params], .objects⟩ } }, _, rfl, rfl, rfl, rfl⟩

theorem wit_ObjectsOfCommands_kept : ∃ s : State, s.mbx.mgmtRun = none ∧ s.mbx.mgmtNext = some (.identify .mgmt ⟨1, 0, []⟩) ∧
    mbxInstr .mgmt 0x0101 ⟨1, 0, []⟩ true = some (.identify .mgmt ⟨1, 0, []⟩) :=
  ⟨{ base with mbx := { base.mbx with mgmtNext := some (.identify .mgmt ⟨1, 0, []⟩) } }, rfl, rfl, rfl⟩

/-- A request to create field 9 of four members. -/
def create9 : MbxReq := ⟨1, 20, [9, 4, 14, 1] ++ zeroBytes 12 ++ [4, 5, 6, 7]⟩

/-- `withField` with four free namespaces more. -/
def withFree : State := { withField with mpt := { withField.mpt with
  members := withField.mpt.members ++ (List.range 4).map fun i => { member (4 + i) with state := 7, field := none, position := 0 } } }

theorem wit_FieldCommands_create : Idle withFree.toDev ∧ withFree.createRefused create9 = none ∧ withFree.twn.mode = false ∧
    create9.len = 16 + reqAt create9 1 1 := by unfold Idle; decide

theorem wit_FieldCommands_refused : Idle withField.toDev ∧ withField.createRefused create9 = some ⟨3, 16⟩ := by unfold Idle; decide

theorem wit_FieldCommands_synced : ∃ s : State, Idle s.toDev ∧ s.createRefused create9 = none ∧ s.twn.mode = true ∧ s.twn.state = 3 ∧ Linked s.toDev :=
  ⟨{ withFree with twn := { withFree.twn with mode := true, state := 3, session := some 1 } }, by unfold Idle Linked; decide⟩

/-- A request that names field 7. -/
def name7 : MbxReq := ⟨1, 8, [7, 1] ++ zeroBytes 6⟩

theorem wit_FieldCommands_own : Idle withField.toDev ∧ Own withField.toDev name7 field7 ∧ (withField.qs.cmds.any fun c => c.e.fieldId.toNat = field7.id) = false ∧
    field7.reshaping = false ∧ field7.rsPend = none ∧ field7.labelChanges = [] ∧ field7.offline = false ∧ field7.offlineReq = false ∧ field7.failed = false ∧
    field7.recovering = false ∧ field7.readOnly = false := by unfold Idle Own; exact ⟨by decide, ⟨rfl, rfl, rfl, rfl, rfl⟩, by decide⟩

theorem wit_FieldCommands_offline : ∃ (s : State) (f : Field), Idle s.toDev ∧ Own s.toDev name7 f ∧ f.offline = true ∧ f.readOnly = true :=
  ⟨{ withField with fields := [{ field7 with offline := true, readOnly := true }] }, _, by unfold Idle; decide, ⟨rfl, rfl, rfl, rfl, rfl⟩, rfl, rfl⟩

/-- A request to copy position 0 of field 7 to member 4. -/
def copy7 : MbxReq := ⟨1, 17, [7, 3, 0, 0] ++ zeroBytes 12 ++ [4]⟩

theorem wit_FieldCommands_reshape : Idle withFree.toDev ∧ Own withFree.toDev copy7 field7 ∧ withFree.reshapeLen copy7 = true ∧
    withFree.reshapeRefused field7 copy7 = none ∧ withFree.freeRecord?.isSome = true := by
  unfold Idle Own; exact ⟨by decide, ⟨rfl, rfl, rfl, rfl, rfl⟩, by decide⟩

/-- `withFree` with member 4 in a state. -/
def free4 (st : BitVec 8) : State := { withField with mpt := { withField.mpt with
  members := withField.mpt.members ++ [{ member 4 with state := st, field := none, position := 0 }] } }

/-- A request that names member 4. -/
def name4 : MbxReq := ⟨1, 8, [4] ++ zeroBytes 7⟩

theorem wit_MemberCommands (st : BitVec 8) : Idle (free4 st).toDev ∧ name4.len = 8 ∧
    (free4 st).member? (reqId name4) = some { member 4 with state := st, field := none, position := 0 } ∧ reqAt name4 1 1 < 64 := by
  unfold Idle; exact ⟨⟨rfl, rfl, rfl, rfl, rfl, rfl, rfl, rfl, rfl⟩, rfl, rfl, by decide⟩

theorem wit_MemberCommands_failed : ∃ (s : State) (x : Member), Idle s.toDev ∧ s.member? (reqId name4) = some x ∧ x.state = 4 ∧ x.field = some 7 :=
  ⟨{ free4 4 with mpt := { (free4 4).mpt with members := [{ member 4 with state := 4 }] } }, { member 4 with state := 4 }, by unfold Idle; decide, by decide, rfl, rfl⟩

/-- Field 4, whose position 1 is MISSING, and a spare of its size. -/
def rebuild4 : State := { free4 2 with
  fields := [{ field7 with id := 4, members := field7.members.set 1 ⟨101, 5, true, 1, none⟩ }]
  mpt := { (free4 2).mpt with members := (free4 2).mpt.members.map fun x => { x with field := if x.id = 4 then none else some 4 } } }

theorem wit_MemberCommands_rebuild : let r : MbxReq := ⟨1, 8, [4, 1, 4] ++ zeroBytes 5⟩
    ∃ (f : Field) (x y : Member), Idle rebuild4.toDev ∧ rebuild4.member? (reqId r) = some x ∧ rebuild4.field? (reqId r) = some f ∧
      rebuild4.member? (reqAt r 2 1) = some y ∧ reqAt r 1 1 < f.width ∧ f.rebuildable (reqAt r 1 1) = true ∧ y.state = 2 ∧
      rebuild4.fits f y f.mostCourses = true := by
  refine ⟨_, _, _, ?_, rfl, rfl, rfl, ?_⟩
  · unfold Idle; decide
  · decide

/-- A chip of a pair, in a pair state, with a session or without. -/
def twinAt (st : BitVec 8) (k : Option Nat) : State := { base with twn := { base.twn with mode := true, state := st, linkUp := true, session := k } }

theorem wit_TwinLink : (twinAt 4 none).twinUp = true ∧ (twinAt 4 none).twn.session = none ∧ (twinAt 4 none).twn.linkUp = true ∧
    (twinAt 4 none).twn.state ≠ 1 ∧ (twinAt 4 none).twn.rxSeq = 0 ∧ (twinAt 4 none).twn.rxTries < 3 ∧
    (twinAt 4 none).vlt.dumpTick = false := by decide

theorem wit_TwinLink_bad : ∃ s : State, s.twinUp = true ∧ s.twn.linkUp = true ∧ s.twn.state ≠ 1 ∧ 3 ≤ s.twn.rxTries :=
  ⟨{ twinAt 4 none with twn := { (twinAt 4 none).twn with rxTries := 3 } }, by decide⟩

theorem wit_TwinLink_pairing : ∃ s : State, s.twinUp = true ∧ s.twn.linkUp = true ∧ s.twn.state = 1 ∧ s.twn.pulses = true ∧ s.twn.handovers = [] :=
  ⟨{ twinAt 1 none with twn := { (twinAt 1 none).twn with pulseThis := true } }, by decide⟩

theorem wit_TwinLink_fourth : ∃ s : State, s.twinUp = true ∧ s.twn.linkUp = true ∧ s.twn.state ≠ 1 ∧ s.twn.replaySeq = some 5 ∧ 3 < s.twn.replayTries + 1 :=
  ⟨{ twinAt 3 (some 1) with twn := { (twinAt 3 (some 1)).twn with replaySeq := some 5, replayTries := 3 } }, by decide⟩

theorem wit_TwinLink_follower : ∃ s : State, s.twinUp = true ∧ s.twn.linkUp = true ∧ s.tck.paired = true ∧ s.tck.follower = true :=
  ⟨{ twinAt 3 (some 1) with tck := { base.tck with paired := true, follower := true } }, by decide⟩

/-- An OFFER. -/
def offer0 : Offer := ⟨0, false, 0, 0, 0, []⟩

/-- A key agreement. -/
def agreeingAt (got : Bool) (since : BitVec 64) (now : BitVec 64) : State :=
  let s := twinAt 1 none
  { s with lnk := { s.lnk with ownOffer := some offer0, theirOffer := if got then some offer0 else none }, twn := { s.twn with offerSent := true, offerGot := got, agreeSince := since }, tck := { s.tck with count := now } }

theorem wit_KeyAgreement (got : Bool) : (agreeingAt got 0 5).twinUp = true ∧ (agreeingAt got 0 5).twn.linkUp = true ∧
    (agreeingAt got 0 5).twn.session = none ∧ (agreeingAt got 0 5).twn.offerSent = true ∧ (agreeingAt got 0 5).twn.offerGot = got ∧
    (agreeingAt got 0 5).twn.handovers = [] ∧ (agreeingAt got 0 5).kst.ownerKeys = offer0.ownerDigest ∧
    (agreeingAt got 0 5).lnk.ownOffer = some offer0 ∧ (agreeingAt true 0 5).lnk.theirOffer = some offer0 ∧ (agreeingAt got 0 5).vlt.dumpTick = false ∧
    (agreeingAt got 0 5).now < (agreeingAt got 0 5).twn.agreeSince.toNat + 2 ^ 18 :=
  ⟨rfl, rfl, rfl, rfl, rfl, rfl, rfl, rfl, rfl, rfl, by cases got <;> decide⟩

theorem wit_KeyAgreement_late : (agreeingAt true 0 262144).twn.agreeSince.toNat + 2 ^ 18 ≤ (agreeingAt true 0 262144).now ∧
    (agreeingAt true 0 262144).twinUp = true ∧ (agreeingAt true 0 262144).twn.linkUp = true ∧ (agreeingAt true 0 262144).twn.session = none ∧
    (agreeingAt true 0 262144).twn.offerSent = true := ⟨by decide, rfl, rfl, rfl, rfl⟩

theorem wit_FramesNeedASession : IsFrame false (.windowPage false 0 0) ∧ (twinAt 3 (some 1)).twinUp = true ∧ (twinAt 3 (some 1)).twn.session ≠ none ∧
    (twinAt 3 (some 1)).twn.state ≠ 1 ∧ (twinAt 3 none).twn.session = none := ⟨.windowPage 0 0, by decide⟩

theorem wit_FramesNeedASession_pairing : ∃ s : State, s.twinUp = true ∧ s.twn.session ≠ none ∧ s.twn.state = 1 ∧ s.twn.pulses = true ∧ s.twn.handovers = [] :=
  ⟨{ twinAt 1 (some 1) with twn := { (twinAt 1 (some 1)).twn with pulseThis := true } }, by decide⟩

/-- A line frame that is the whole of its command. -/
def lineFrame0 (last : Bool) : LineFrame := ⟨7, 0, true, last, false, 0, 0, 1, 1, 0, 0⟩

theorem wit_MirrorFrames : (twinAt 3 (some 1)).twinUp = true ∧ (twinAt 3 (some 1)).twn.session ≠ none ∧ (twinAt 3 (some 1)).twn.poolHeld = [] ∧
    (lineFrame0 false).last = false ∧ (lineFrame0 true).last = true ∧
    (twinAt 3 (some 1)).twn.room ((twinAt 3 (some 1)).twn.openLines 0 ++ [lineFrame0 true]).length = false ∧
    (twinAt 3 (some 1)).ownIds.contains 7 = false ∧ (twinAt 3 (some 1)).twn.state ≠ 2 := by decide

theorem wit_MirrorFrames_room : ∃ s : State, s.twinUp = true ∧ s.twn.session ≠ none ∧ s.twn.poolHeld = [] ∧
    s.twn.room (s.twn.openLines 0 ++ [lineFrame0 true]).length = true :=
  ⟨{ twinAt 3 (some 1) with twn := { (twinAt 3 (some 1)).twn with poolBytes := 8192 } }, by decide⟩

theorem wit_MirrorFrames_done : ∃ s : State, s.twinUp = true ∧ s.twn.session ≠ none ∧ s.twn.state = 2 ∧ s.twn.bulkSent = true ∧
    s.param .twnAutoReturn ≠ 1 := 
  ⟨{ twinAt 2 (some 1) with twn := { (twinAt 2 (some 1)).twn with bulkSent := true }, cfg := base.cfg.set (cfgIx .twnAutoReturn) 0 }, by decide⟩

theorem wit_MirrorFrames_own : ∃ s : State, s.twinUp = true ∧ s.twn.session ≠ none ∧ s.ownIds.contains 7 = true :=
  ⟨{ twinAt 3 (some 1) with fields := [field7] }, by decide⟩

theorem wit_MirrorFrames_heartbeat : ∃ h : Heartbeat, h.ownerEpoch.toNat ≤ (twinAt 3 (some 1)).epochKnown.1.toNat :=
  ⟨⟨0, 0, false, false, false, false, 0, 0, 0, 0⟩, by decide⟩

/-- A request to set one parameter. -/
def setReq (id v : Nat) : MbxReq := ⟨1, 24, bytesLE 2 1 ++ zeroBytes 6 ++ bytesLE 2 id ++ zeroBytes 6 ++ bytesLE 8 v⟩

theorem wit_ParameterChanges : Idle base.toDev ∧ paramLenOk (setReq 0x1000 5) = true ∧ paramEntries (setReq 0x1000 5) = [(0x1000, 0, 5)] ∧
    (paramEntries (setReq 0x1000 5)).zipIdx.findSome? entryRefused = none ∧ base.refusedEntry (paramEntries (setReq 0x1000 5)) = none ∧
    base.twn.state ≠ 3 := by unfold Idle; decide

theorem wit_ParameterChanges_none : paramLenOk ⟨1, 8, zeroBytes 8⟩ = true ∧ paramEntries ⟨1, 8, zeroBytes 8⟩ = [] := by decide

theorem wit_ParameterChanges_refused : paramLenOk (setReq 0x13FF 5) = true ∧
    (paramEntries (setReq 0x13FF 5)).zipIdx.findSome? entryRefused = some (mbNotAllowed, 0x08) := by decide

theorem wit_ParameterChanges_together : paramLenOk (setReq 0x1C00 (16 * gib)) = true ∧
    (paramEntries (setReq 0x1C00 (16 * gib))).zipIdx.findSome? entryRefused = none ∧ base.refusedEntry (paramEntries (setReq 0x1C00 (16 * gib))) = some 0 := by
  decide

theorem wit_ParameterChanges_pair : Idle (twinAt 3 (some 1)).toDev ∧ paramEntries (setReq 0x1C00 4096) = [(0x1C00, 0, 4096)] ∧
    (paramEntries (setReq 0x1C00 4096)).zipIdx.findSome? entryRefused = none ∧ (twinAt 3 (some 1)).refusedEntry (paramEntries (setReq 0x1C00 4096)) = none ∧
    (twinAt 3 (some 1)).twn.state = 3 ∧ pairParam 0x1C00 = true ∧ Linked (twinAt 3 (some 1)).toDev := by unfold Idle Linked; decide

theorem wit_ParameterChanges_propose : (twinAt 3 (some 1)).twinUp = true ∧ Linked (twinAt 3 (some 1)).toDev ∧ (twinAt 3 (some 1)).twn.syncing = none ∧ (twinAt 3 (some 1)).syncOk 0x1C00 4096 = true ∧
    (twinAt 3 (some 1)).syncOk 0x1000 5 = false ∧ (0x1C00, 4096, 5) ∉ (twinAt 3 (some 1)).twn.syncAgreed := by unfold Linked; decide

theorem wit_ParameterChanges_commit : ∃ s : State, s.twinUp = true ∧ Linked s.toDev ∧ (0x1C00, 4096, 5) ∈ s.twn.syncAgreed :=
  ⟨{ twinAt 3 (some 1) with twn := { (twinAt 3 (some 1)).twn with syncAgreed := [(0x1C00, 4096, 5)] } }, by unfold Linked; decide⟩

theorem wit_ParameterChanges_accept : ∃ (s : State) (q : SyncReq) (p : MbxPath) (run : MbxRun), s.twinUp = true ∧ Linked s.toDev ∧
    s.syncMine 0x1C00 4096 5000 = some q ∧ (∀ x ∈ q.left, x = (0x1C00, 4096)) ∧ s.now + 4 ≤ q.tick ∧ s.waiter? .sync = some p ∧ s.mbx.run? p = some run ∧
    s.mbx.hostDiscard = false :=
  ⟨{ twinAt 3 (some 1) with
      twn := { (twinAt 3 (some 1)).twn with syncing := some ⟨5000, [(0x1C00, 0, 4096)], [(0x1C00, 4096)]⟩ }
      mbx := { base.mbx with hostRun := some ⟨.paramSet .host (setReq 0x1C00 4096), 0x0802, 1, [], .sync⟩ } },
    ⟨5000, [(0x1C00, 0, 4096)], [(0x1C00, 4096)]⟩, .host, ⟨.paramSet .host (setReq 0x1C00 4096), 0x0802, 1, [], .sync⟩, by unfold Linked; decide⟩

/-- The PAIR_HELLO of a partner at position 1. -/
def hello0 (pos : Bool) : PairHello := ⟨0, pos, 0, 0, base.param .drmDirtyCap, base.param .winDumpLimit, 0, 0, 5, 7⟩

/-- A pairing chip whose fields are enumerated. -/
def pairChip : State := { twinAt 1 (some 1) with mpt := { base.mpt with enumerated := true }, drm := { base.drm with dramGib := 128 } }

theorem wit_Pairing : pairChip.twinUp = true ∧ pairChip.twn.handovers = [] ∧ pairChip.twn.session ≠ none ∧
    pairChip.twn.helloOk = false ∧ (hello0 true).twinPos ≠ pairChip.twn.position ∧
    pairChip.twnVersion ≤ (hello0 true).twnVersion + 1 ∧ (hello0 true).twnVersion ≤ pairChip.twnVersion + 1 ∧
    (hello0 true).dirtyCap = pairChip.param .drmDirtyCap ∧ (hello0 true).winDumpLimit = pairChip.param .winDumpLimit ∧
    pairChip.poolRoom = true ∧ pairChip.mpt.enumerated = true := by decide

theorem wit_Pairing_same : ¬((hello0 false).twinPos ≠ (twinAt 1 (some 1)).twn.position) ∧ (twinAt 1 (some 1)).idTaken 7 = false ∧ (twinAt 1 (some 1)).vlt.dumpTick = false ∧
    (twinAt 1 (some 1)).waiter? (.reserve 7) = none := by decide

/-- A chip whose partner has said PAIR_HELLO. -/
def helloAt (en : Bool) : State := { twinAt 1 (some 1) with
  twn := { (twinAt 1 (some 1)).twn with helloOk := true }
  mpt := { base.mpt with enumerated := en }
  fields := [{ field7 with assembled := true, owned := false, ownerPos := true, gen := 1 }] }

theorem wit_Pairing_agree (en : Bool) : (helloAt en).twinUp = true ∧ (helloAt en).twn.session ≠ none ∧ (helloAt en).twn.helloOk = true ∧
    (helloAt en).twn.agreed = false ∧ (helloAt en).twn.agreeFinal = false ∧ (helloAt en).toDev.pairGapOpen = false ∧ (helloAt en).twn.agreeSent = false ∧ (helloAt en).mpt.enumerated = en ∧ (helloAt en).twn.agreeGot = [] ∧
    (helloAt en).idTaken 7 = true := by cases en <;> decide

theorem wit_Pairing_field : ∃ (f : Field) (e : AgreeEntry), (helloAt true).fields = [f] ∧ f.assembled = true ∧ e.uuid = f.uuid ∧ e.fieldId = f.id ∧
    (if f.gen < e.gen then e.ownerPos else f.ownerPos) ≠ (helloAt true).twn.position :=
  ⟨_, ⟨field7.uuid, 1, 7, true, false⟩, rfl, rfl, rfl, rfl, by decide⟩

theorem wit_Pairing_own : ∃ (f : Field) (e : AgreeEntry), f.assembled = true ∧ f.owned = true ∧ e.uuid = f.uuid ∧ e.fieldId = f.id ∧
    (if f.gen < e.gen then e.ownerPos else f.ownerPos) = (helloAt true).twn.position :=
  ⟨{ field7 with assembled := true, owned := true, ownerPos := false, gen := 1 }, ⟨field7.uuid, 1, 7, true, false⟩, rfl, rfl, rfl, rfl, rfl⟩

theorem wit_Pairing_refused : ∃ (s : State) (run : MbxRun), s.twinUp = true ∧ s.twn.session ≠ none ∧ s.waiter? (.reserve 9) = some .host ∧
    s.mbx.run? .host = some run ∧ s.mbx.hostDiscard = false :=
  ⟨{ twinAt 3 (some 1) with mbx := { base.mbx with hostRun := some ⟨.fieldCreate .host create9, 0x0301, 1, [], .reserve 9⟩ } },
    ⟨.fieldCreate .host create9, 0x0301, 1, [], .reserve 9⟩, by decide⟩

theorem wit_Pairing_wait (late : Bool) : ∃ s : State, s.twinUp = true ∧ s.twn.handovers = [] ∧ s.twn.state = 1 ∧ s.twn.everPaired = false ∧ s.awake = true ∧ s.mpt.enumerated = true ∧
    (late = true ↔ ticksOfSeconds (s.param .twnPairWaitS) ≤ s.now) ∧ ∃ f, s.fields = [f] ∧ f.assembled = true ∧ f.owned = false ∧ f.ownerPos ≠ s.twn.position :=
  ⟨{ helloAt true with tck := { base.tck with count := if late then 40000000 else 0 } }, rfl, rfl, rfl, rfl, rfl, rfl, by cases late <;> decide, _, rfl, rfl, rfl, fun h => by cases h⟩

theorem wit_Pairing_alone : ∃ s : State, s.twinUp = true ∧ s.twn.handovers = [] ∧ s.twn.state = 1 ∧ s.twn.everPaired = false ∧ s.awake = true ∧ s.mpt.enumerated = true ∧
    ticksOfSeconds (s.param .twnPairWaitS) ≤ s.now ∧ s.fields.filter (fun f => f.assembled && !f.owned) = [] :=
  ⟨{ helloAt true with fields := [], tck := { base.tck with count := 40000000 } }, rfl, rfl, rfl, rfl, rfl, rfl, by decide, rfl⟩

/-- A SYNCED chip with field 7, which it owns or not, in some handovers. -/
def handAt (own : Bool) (l : List Handover) : State := { twinAt 3 (some 1) with
  fields := [{ field7 with owned := own, assembled := true, homePos := true }]
  twn := { (twinAt 3 (some 1)).twn with handovers := l } }

theorem wit_Handovers : ∃ f, Idle (handAt true []).toDev ∧ (handAt true []).field? (reqId name7) = some f ∧ f.seen = true ∧ (handAt true []).mayHand f = true ∧
    f.offlineReq = false ∧ f.labelChanges = [] ∧ (handAt true []).mst.failed = false ∧ (handAt true []).twn.partnerOwned.length < 128 ∧ f.homePos ≠ (handAt true []).twn.position ∧
    f.owned = true ∧ f.rsStage = .idle ∧ f.marked = [] ∧ f.lineSet = [] ∧ (handAt true []).twn.returnLeft = [] := by
  refine ⟨_, ?_, rfl, ?_⟩
  · unfold Idle; decide
  · decide

theorem wit_Handovers_not : ∃ f, Idle (handAt false []).toDev ∧ (handAt false []).field? (reqId name7) = some f ∧ f.seen = true ∧ (handAt false []).mayHand f = false ∧
    f.owned = false := by
  refine ⟨_, ?_, rfl, ?_⟩
  · unfold Idle; decide
  · decide

theorem wit_Handovers_many : ∃ (s : State) (f : Field), Idle s.toDev ∧ s.field? (reqId name7) = some f ∧ f.seen = true ∧ s.mayHand f = true ∧
    f.offlineReq = false ∧ f.labelChanges = [] ∧ 128 ≤ s.twn.partnerOwned.length := by
  refine ⟨{ handAt true [] with twn := { (handAt true []).twn with partnerOwned := List.range 128 } }, _, ?_, rfl, rfl, rfl, rfl, rfl, ?_⟩
  · unfold Idle; exact ⟨rfl, rfl, rfl, rfl, rfl, rfl, rfl, rfl, rfl⟩
  · exact Nat.le_of_eq List.length_range.symm

theorem wit_Handovers_adopt : ∃ (s : State) (f : Field), Idle s.toDev ∧ s.field? (reqId name7) = some f ∧ f.seen = true ∧ s.twn.mode = true ∧ f.owned = false ∧
    f.assembled = true ∧ s.twn.state = 6 ∧ s.twn.declared = none ∧ s.ownIds.length < 128 := by
  refine ⟨{ handAt false [] with twn := { (handAt false []).twn with state := 6 } }, _, ?_, rfl, rfl, ?_⟩
  · unfold Idle; decide
  · decide

theorem wit_Handovers_frames (l : List Handover) : (handAt true l).twinUp = true ∧ Linked (handAt true l).toDev ∧ (handAt true l).twn.handovers = l ∧
    (handAt true l).twn.state = 3 ∧ (handAt true l).awake = true ∧ (handAt true l).hif.hold = false ∧ (handAt true l).qs.cmds = [] ∧ (handAt true l).cache.jobs = [] ∧
    7 ∉ (handAt true l).twn.ckptDirty := ⟨rfl, ⟨rfl, rfl⟩, rfl, rfl, rfl, rfl, rfl, rfl, nofun⟩

theorem wit_Handovers_offer : ∃ f, (handAt false []).field? 7 = some f ∧ f.owned = false := ⟨_, rfl, rfl⟩

theorem wit_Handovers_hold (late : Bool) : ∃ s : State, s.twinUp = true ∧ Linked s.toDev ∧ s.awake = true ∧ s.hif.hold = true ∧ s.twn.state = 3 ∧ s.mst.failed = false ∧
    (late = true ↔ s.hif.holdSince.toNat + ticksOfSeconds (s.param .twnHoldHandoverS) ≤ s.now) :=
  ⟨{ handAt true [] with hif := { base.hif with hold := true }, tck := { base.tck with count := if late then 40000000 else 0 } }, rfl, ⟨rfl, rfl⟩, rfl, rfl, rfl, rfl,
    by cases late <;> decide⟩

/-- A chip whose partner is silent. -/
def silentAt (st : BitVec 8) (pulse : Bool) (missed : Nat) : State :=
  let s := twinAt st (some 1)
  { s with
    twn := { s.twn with pulseThis := pulse, pulseMissed := 3, hbMissed := missed, partnerOwned := [7] }
    fields := [{ field7 with owned := false }]
    tck := { s.tck with phaseIdx := 3 } }

theorem wit_Takeover (pulse : Bool) : (silentAt 3 pulse 3).twinUp = true ∧ (silentAt 3 pulse 3).twn.handovers = [] ∧ (silentAt 3 pulse 3).awake = true ∧
    (silentAt 3 pulse 3).partner = true ∧ (silentAt 3 pulse 3).tck.phaseIdx ≠ 2 ∧ (silentAt 3 pulse 3).vlt.dumping = none ∧
    (silentAt 3 pulse 3).twn.pulses = pulse ∧ (silentAt 3 pulse 3).twn.partnerDump = false ∧ ((silentAt 3 pulse 3).field? 7).isSome = true ∧
    7 ∉ (silentAt 3 pulse 3).ownIds ∧ (silentAt 3 pulse 3).twn.aliveFault = false := by cases pulse <;> decide

theorem wit_Takeover_syncing : (silentAt 2 false 0).partner = true ∧ (silentAt 2 false 0).twn.hbMissed = 0 ∧ (silentAt 2 false 0).twn.pulses = false ∧
    (silentAt 2 false 3).twn.state = 2 ∧ (silentAt 2 false 0).twn.declared = none := by decide

/-- A chip that has declared its partner lost. -/
def declaredAt (now : BitVec 64) (taken fenced : List Nat) : State :=
  let s := twinAt 5 none
  { s with
    twn := { s.twn with declared := some 0, taken := taken, fenced := fenced }
    fields := [{ field7 with assembled := true, owned := true, fenceWait := true, recovering := true, labelChanges := [] }]
    kst := { s.kst with keySlots := [(7, fieldKeys field7.uuid 5)] }
    tck := { s.tck with count := now } }

theorem wit_Takeover_declared : (declaredAt 382 [7] [7]).awake = true ∧ (declaredAt 382 [7] [7]).twn.declared = some 0 ∧
    (declaredAt 382 [7] [7]).param .twnFenceTicks - 2 ≤ (declaredAt 382 [7] [7]).now - 0 ∧ (declaredAt 381 [7] [7]).now - 0 < (declaredAt 381 [7] [7]).param .twnFenceTicks - 2 ∧
    (declaredAt 384 [7] [7]).param .twnFenceTicks ≤ (declaredAt 384 [7] [7]).now - 0 ∧ (declaredAt 384 [7] [7]).twn.fenceAsked = false := by decide

theorem wit_Takeover_done : ∃ f, (declaredAt 450 [7] []).awake = true ∧ (declaredAt 450 [7] []).fields = [f] ∧ (declaredAt 450 [7] []).twn.taken = [f.id] ∧
    (declaredAt 450 [7] []).twn.fenced = [] ∧ (declaredAt 450 [7] []).param .twnFenceTicks + 66 ≤ (declaredAt 450 [7] []).now - 0 ∧
    (declaredAt 450 [7] []).recoveryDone { f with fenceWait := false } = true := by
  refine ⟨_, rfl, rfl, rfl, rfl, by decide, by decide⟩

/-- A committed line of field 7 at an LBA. -/
def dirty0 (lba : Nat) : Line := { line0 with lba := lba, st := .committed, lostWait := false }

/-- Field 7 under background work. -/
def work7 : Field := { field7 with owned := true, recovering := false, reported := 1 }

/-- A chip whose field 7 has dirty lines in course 0. -/
def workAt (f : Field) (n : Nat) : State := { withField with
  fields := [f]
  cache := { withField.cache with lines := (List.range n).map dirty0 }
  sys := { withField.sys with softDrain := true }
  tasks := { withField.tasks with share := 100 } }

theorem wit_BackgroundStarts : (workAt work7 8).works = true ∧ (workAt work7 8).field? 7 = some work7 ∧ (workAt work7 8).cache.jobs = [] ∧
    (workAt work7 8).destages work7 = true ∧ (workAt work7 8).olderWaits work7 0 false = false ∧ (workAt work7 8).ripeCourse work7 0 false = true ∧ (workAt work7 8).destageLines work7 0 false ≠ [] ∧
    methodOf ((workAt work7 8).destageLines work7 0 false).length (work7.courseBlocks false) ≠ .rmw ∧
    methodOf ((workAt work7 1).destageLines work7 0 false).length (work7.courseBlocks false) = .rmw := ⟨rfl, rfl, rfl, by decide⟩

theorem wit_BackgroundStarts_resync : let f := { work7 with resyncSet := [(5, false)] }
    (workAt f 0).works = true ∧ (workAt f 0).field? 7 = some f ∧ (5, false) ∈ f.resyncSet ∧ f.owned = true ∧ f.fenceWait = false ∧ f.failed = false ∧
    (workAt f 0).mor.lost = false := ⟨rfl, rfl, by decide⟩

theorem wit_BackgroundStarts_scrub : (workAt work7 0).sys.thermWarn = false ∧ (workAt work7 0).param .morScrubIntervalH ≠ 0 ∧ work7.condFlags = 1 ∧ work7.reported = 1 ∧
    work7.admitStop = false ∧ (workAt work7 0).nextScrub work7 work7.courses work7.scrubPos = some 0 := ⟨rfl, by decide, by decide, rfl, rfl, rfl⟩

theorem wit_BackgroundStarts_pass : let f := { work7 with scrubPos := 4096 }
    f.condFlags = 1 ∧ (workAt f 0).nextScrub f f.courses f.scrubPos = none := by
  exact ⟨by decide, rfl⟩

theorem wit_BackgroundStarts_rebuild : let x : Target := ⟨1, false, 0, 0, 0, [], 0, false, 0⟩
    let f := { work7 with targets := [x] }
    (workAt f 0).works = true ∧ (workAt f 0).field? 7 = some f ∧ (workAt f 0).tasks.share ≠ 0 ∧ f.failed = false ∧ f.offline = false ∧ f.labelChanges = [] ∧
    (workAt f 0).mayRebuild f x = true := ⟨rfl, rfl, by decide, by decide, rfl, rfl, by decide⟩

/-- Field 7 in a grow to width 5. -/
def grow7 : Field := { work7 with
  nextWidth := 5, nextMembers := field7.members ++ [⟨104, 1, true, 1, some 4⟩], rsSlot := 0
  rs := some { freeRecord 7 with kind := 1, oldWidth := 4, newWidth := 5, oldCourses := 4096, newCourses := 4096 } }

theorem wit_BackgroundStarts_reshape : ∃ r, grow7.rs = some r ∧ (workAt grow7 0).mayStep grow7 r = true ∧ grow7.rsRedo = false ∧ (workAt grow7 0).works = true ∧
    (workAt grow7 0).field? 7 = some grow7 := ⟨_, rfl, by decide, rfl, rfl, rfl⟩

theorem wit_BackgroundStarts_redo : ∃ r, grow7.rs = some r ∧ (workAt { grow7 with rsRedo := true } 0).mayStep { grow7 with rsRedo := true } r = true :=
  ⟨_, rfl, by decide⟩

/-- A namespace behind port 0. -/
def ns0 (lba : Nat) : NsFound := ⟨0, 8, 1, 999, 0, lba, 16, true, false, 128, 4, 100000, 9, [], [], none, none, []⟩

/-- `withField` whose member 2 has lost its path or not. -/
def pathAt (d : Option (BitVec 64)) (now : BitVec 64) : State := { withField with
  mpt := { withField.mpt with enumerated := true, members := withField.mpt.members.map fun x => if x.id = 2 then { x with pathLost := d } else x }
  tck := { withField.tck with count := now } }

theorem wit_MemberEvents : (pathAt none 5).awake = true ∧ (pathAt none 5).member? 2 = some (member 2) ∧ (pathAt none 5).member? 9 = none ∧
    (member 2).pathLost = none ∧ (member 2).state ≠ 4 ∧ (member 2).state ≠ 5 ∧ base.toDev.awake = true ∧ State.reset.awake = false := by decide

theorem wit_MemberEvents_lost : (pathAt (some 5) 2053).awake = true ∧ (pathAt (some 5) 2053).member? 2 = some { member 2 with pathLost := some 5 } ∧
    (5 : BitVec 64).toNat + (pathAt (some 5) 2053).param .mptPathGraceTicks ≤ (pathAt (some 5) 2053).now ∧
    (pathAt (some 5) 2052).now < (5 : BitVec 64).toNat + (pathAt (some 5) 2052).param .mptPathGraceTicks := by decide

theorem wit_MemberEvents_found : (pathAt none 5).mpt.enumerated = true ∧ (pathAt none 5).mpt.members.find? (·.uid = NsUid (ns0 4096)) = none ∧
    nsRefused (ns0 4096) = false ∧ (pathAt none 5).slotOfNs (ns0 4096) = some 0 ∧ (ns0 4096).labels = [] ∧ nsRefused (ns0 512) = true := by decide

theorem wit_MemberEvents_known : (pathAt none 5).mpt.members.find? (·.uid = NsUid { ns0 4096 with nguid := 100 }) = some (member 0) ∧ (member 0).state ≠ 5 := by
  decide

theorem wit_MemberEvents_start : ∃ s : State, s.awake = true ∧ s.sys.dramReady = true ∧ s.mpt.enumerated = false ∧ s.kst.secrets = [] ∧ s.twn.mode = false ∧ s.fields = [] ∧
    s.mpt.perst.getLsbD (ns0 4096).port = true ∧ s.slotOfNs (ns0 4096) = some 0 :=
  ⟨{ base with sys := { base.sys with dramReady := true }, mpt := { base.mpt with perst := 1 } }, by decide⟩

theorem wit_MemberEvents_again : ∃ s : State, s.awake = true ∧ s.sys.dramReady = true ∧ s.mpt.enumerated = true :=
  ⟨{ pathAt none 5 with sys := { base.sys with dramReady := true } }, by decide⟩

/-- `withFree` at a tick with another field 7; member 4 is a spare or not. -/
def timerAt (f : Field) (now : BitVec 64) (spare : Bool) : State := { withFree with
  fields := [f]
  mpt := { withFree.mpt with members := withFree.mpt.members.map fun x => if x.id = 4 && spare then { x with state := 2 } else x }
  kst := { withFree.kst with keySlots := [(7, fieldKeys field7.uuid 5)] }
  tck := { withFree.tck with count := now } }

theorem wit_FieldTimers : (timerAt work7 0 true).awake = true ∧ (timerAt work7 0 true).field? 7 = some work7 ∧ work7.offlineReq = false ∧
    work7.recovering = false ∧ (timerAt work7 0 true).recoveryDone work7 = false ∧ State.reset.awake = false := ⟨rfl, rfl, rfl, rfl, by decide, rfl⟩

theorem wit_FieldTimers_offline : let f := { work7 with offlineReq := true }
    let s : State := { timerAt f 0 true with mbx := { base.mbx with hostRun := some ⟨.fieldOffline .host name7, 0x0303, 1, [], .offline 7⟩ } }
    s.awake = true ∧ s.field? 7 = some f ∧ s.drained f = true ∧ s.waiter? (.offline 7) = some .host ∧ s.mbx.hostDiscard = false ∧ s.hod.invalidating = false :=
  ⟨rfl, rfl, by decide, by decide, rfl, rfl⟩

theorem wit_FieldTimers_recovered : let f := { work7 with recovering := true, assembled := true, marked := [(false, 0)] }
    (timerAt f 0 true).awake = true ∧ (timerAt f 0 true).field? 7 = some f ∧ (timerAt f 0 true).recoveryDone f = true := ⟨rfl, rfl, by decide⟩

/-- Field 7 without a member at position 1. -/
def gone7 : Field := { work7 with members := field7.members.set 1 ⟨101, 5, true, 1, none⟩ }

theorem wit_FieldTimers_rebuild : (timerAt gone7 0 true).field? 7 = some gone7 ∧ (timerAt gone7 0 true).param .morAutoRebuild ≠ 0 ∧ gone7.rebuildable 1 = true ∧
    (timerAt gone7 0 true).chooseSpare gone7 = some 4 ∧ gone7.reread = none ∧ (timerAt gone7 0 false).chooseSpare gone7 = none ∧ 1 ∉ gone7.noSpare ∧ 7 ∉ (timerAt gone7 0 true).twn.fenced :=
  ⟨rfl, by decide, by decide, by decide, rfl, by decide, nofun, nofun⟩

theorem wit_FieldTimers_join : let f := { work7 with targets := [⟨0, false, 0, 9, 9, [], 9, false, 0⟩, ⟨1, false, 0, 0, 0, [], 0, true, 0⟩] }
    (timerAt f 0 true).field? 7 = some f ∧ f.reshaping = false ∧ f.labelChanges = [] := ⟨rfl, rfl, rfl⟩

theorem wit_FieldTimers_late : (timerAt work7 900000000000 true).param .morScrubIntervalH ≠ 0 ∧ work7.scrubLate = false ∧
    work7.scrubStart.toNat + ticksOfSeconds (3600 * (timerAt work7 900000000000 true).param .morScrubIntervalH) ≤ (timerAt work7 900000000000 true).now ∧
    (timerAt work7 900000000000 true).sys.scrubHour.toNat + ticksOfSeconds 3600 ≤ (timerAt work7 900000000000 true).now ∧
    (timerAt work7 0 true).now < (timerAt work7 0 true).sys.scrubHour.toNat + ticksOfSeconds 3600 := by decide

theorem wit_FieldTimers_replica : let f := { work7 with assembled := true }
    (timerAt f 0 true).now % (timerAt f 0 true).param .mstReplicaTicks = 32 * 0 % (timerAt f 0 true).param .mstReplicaTicks ∧ f.homeIndex = some 0 ∧
    f.repFlight = none ∧ f.replicaMembers ≠ [] ∧ (timerAt f 1 true).now % (timerAt f 1 true).param .mstReplicaTicks ≠ 0 := by decide

/-- `base` in an update session of one source or both, with a package whose chunks are received or not. -/
def sessionAt (host mgmt : Bool) (got : BitVec 256) : State := { base with
  upd := { base.upd with sessionId := 9, seedState := 1, hostJoined := host, mgmtJoined := mgmt, chunkCount := 2, received := got } }

/-- A request that names session 9. -/
def name9 : MbxReq := ⟨1, 8, [9] ++ zeroBytes 7⟩

theorem wit_UpdateSessions : Idle base.toDev ∧ base.mst.failed = false ∧ base.upd.session = false ∧ base.upd.seedState = 0 ∧ base.upd.slotState base.upd.activeSlot = 3 ∧
    base.unconfirmed = false := by unfold Idle; decide

theorem wit_UpdateSessions_open (host : Bool) : Idle (sessionAt host false 0).toDev ∧ (sessionAt host false 0).mst.failed = false ∧ (sessionAt host false 0).upd.session = true ∧
    (sessionAt host false 0).upd.joined .host = host ∧ BitVec.ofNat 384 (reqAt ⟨1, 48, zeroBytes 48⟩ 0 48) = (sessionAt host false 0).upd.digest ∧
    BitVec.ofNat 384 (reqAt ⟨1, 48, 1 :: zeroBytes 47⟩ 0 48) ≠ (sessionAt host false 0).upd.digest := by cases host <;> unfold Idle <;> decide

theorem wit_UpdateSessions_not : ∃ s : State, Idle s.toDev ∧ s.mst.failed = false ∧ s.upd.session = false ∧ s.upd.seedState = 3 :=
  ⟨{ base with upd := { base.upd with seedState := 3 } }, by unfold Idle; decide⟩

theorem wit_UpdateSessions_close (host : Bool) : reqAt name9 0 4 = (sessionAt host false 3).upd.sessionId.toNat ∧ (sessionAt host false 3).upd.complete = true ∧
    (sessionAt host false 1).upd.complete = false ∧ reqAt name7 0 4 ≠ (sessionAt host false 3).upd.sessionId.toNat ∧ reqAt ⟨1, 8, [9, 0, 0, 0, 1] ++ zeroBytes 3⟩ 4 1 = 1 := by
  cases host <;> decide

theorem wit_UpdateSessions_confirm : ∃ s : State, Idle s.toDev ∧ s.mst.failed = false ∧ s.unconfirmed = true :=
  ⟨{ base with upd := { base.upd with slot0 := 2 } }, by unfold Idle; decide⟩

/-- A part of a chunk with 4 bytes. -/
def part9 (n off len flags : Nat) : MbxReq := ⟨1, 16 + len, bytesLE 4 9 ++ bytesLE 2 n ++ bytesLE 2 flags ++ bytesLE 4 off ++ bytesLE 4 len ++ List.replicate len 1⟩

theorem wit_UpdateChunks : Idle (sessionAt true false 0).toDev ∧ (part9 1 0 4 0).len = 16 + reqAt (part9 1 0 4 0) 12 4 ∧
    reqAt (part9 1 0 4 0) 0 4 = (sessionAt true false 0).upd.sessionId.toNat ∧ (sessionAt true false 0).upd.session = true ∧ (sessionAt true false 0).upd.joined .host = true ∧
    (sessionAt true false 0).upd.joined .mgmt = false ∧ (sessionAt true false 0).upd.seedState = 1 ∧ reqAt (part9 1 0 4 0) 4 2 = 1 ∧ reqAt (part9 1 0 4 0) 8 4 = 0 ∧
    (sessionAt true false 0).upd.partOf .host 1 = (0, 0) ∧ reqAt (part9 1 0 4 0) 6 2 % 2 = 0 ∧ reqAt (part9 1 0 4 1) 6 2 % 2 = 1 ∧
    (sessionAt true false 2).upd.received.getLsbD 1 = true ∧ (sessionAt true false 0).upd.received.getLsbD 1 = false := by unfold Idle; decide

theorem wit_UpdateChunks_bad : reqAt (part9 1 0 0 0) 12 4 = 0 ∧ reqAt (part9 2 0 4 0) 4 2 = (sessionAt true false 0).upd.chunkCount ∧ reqAt (part9 1 4 4 0) 8 4 = 4 ∧
    reqAt (part9 0 0 4 1) 4 2 = 0 ∧ reqAt (part9 0 0 4 1) 6 2 % 2 = 1 ∧ reqAt name7 0 4 ≠ (sessionAt true false 0).upd.sessionId.toNat := by decide

theorem wit_UpdateChunks_long : ∃ s : State, Idle s.toDev ∧ s.upd.session = true ∧ s.upd.partOf .host 1 = (0, 65534) ∧ 65536 < 65534 + reqAt (part9 1 65534 4 0) 12 4 ∧
    reqAt (part9 1 65534 4 0) 8 4 = 65534 :=
  ⟨{ sessionAt true false 0 with upd := { (sessionAt true false 0).upd with partHost := some (1, 0, 65534, false) } }, by unfold Idle; decide⟩

theorem wit_UpdateChunks_state : ∃ s : State, Idle s.toDev ∧ s.upd.session = true ∧ s.upd.joined .host = true ∧ s.upd.seedState ≠ 1 ∧ s.upd.sessionId = 9 :=
  ⟨{ sessionAt true false 0 with upd := { (sessionAt true false 0).upd with seedState := 2 } }, by unfold Idle; decide⟩

/-- A complete chunk waits to land. -/
def landing (n count : Nat) (d : Digest) (chunks : List (Nat × Nat × Nat)) (erasing : Bool) : State := { base with
  upd := { base.upd with sessionId := 9, seedState := 1, hostJoined := true, chunkCount := count, digest := d, chunks := chunks, erasing := erasing,
                         partHost := some (n, 7, 65536, true) }
  mbx := { base.mbx with hostRun := some ⟨.updChunk .host (part9 1 0 4 0), 0x0602, 1, [], .chunk⟩ } }

theorem wit_UpdateChunks_landing (n count : Nat) (d : Digest) (l : List (Nat × Nat × Nat)) (e : Bool) : let s := landing n count d l e
    s.upd.part .host = some (n, 7, 65536, true) ∧ (∃ run, s.mbx.run? .host = some run ∧ run.wait = .chunk) ∧ s.mbx.hostDiscard = false ∧ s.upd.erasing = e ∧
    s.sys.frozen = false ∧ s.upd.chunkCount = count ∧ s.upd.provisional = 0 := ⟨rfl, ⟨_, rfl, rfl⟩, rfl, rfl, rfl, rfl, rfl⟩

theorem wit_UpdateChunks_first : (landing 0 0 (Config.sha384 7 65536) [] false).upd.hashOk 0 7 65536 = true := by
  simp [landing, Upd.hashOk]

theorem wit_UpdateChunks_fails : (landing 5 1 0 [] false).upd.hashOk 5 7 65536 = false := by
  simp [landing, Upd.hashOk, Upd.hashOf]

/-- The number that the low bytes of a number spell. -/
theorem fromLE_shifts (k : Nat) : ∀ v : Nat, fromLE ((List.range k).map fun i => BitVec.ofNat 8 (v >>> (8 * i))) = v % 256 ^ k := by
  induction k with
  | zero => intro v; simp [fromLE, Nat.mod_one]
  | succ k ih =>
    intro v
    have h := ih (v >>> 8)
    rw [List.range_succ_eq_map, List.map_cons, List.map_map, fromLE]
    have e : ((fun i => BitVec.ofNat 8 (v >>> (8 * i))) ∘ Nat.succ) = fun i => BitVec.ofNat 8 ((v >>> 8) >>> (8 * i)) := by
      funext i
      simp only [Function.comp, ← Nat.shiftRight_add]
      congr 2
      omega
    rw [e, h, Nat.pow_succ', Nat.mod_mul]
    simp [Nat.shiftRight_eq_div_pow]

theorem wit_UpdateChunks_hash : (landing 1 2 0 [(0, (Config.sha384 7 65536).toNat <<< (8 * 0x160), 65536)] false).upd.hashOk 1 7 65536 = true := by
  have e : ((List.range 48).map fun i => (landing 1 2 0 [(0, (Config.sha384 7 65536).toNat <<< (8 * 0x160), 65536)] false).upd.packageByte (0x160 + 48 * (1 - 1) + i)) =
      (List.range 48).map fun i => BitVec.ofNat 8 ((Config.sha384 7 65536).toNat >>> (8 * i)) := by
    apply List.map_congr_left
    intro i hi
    have hi := List.mem_range.mp hi
    have h1 : (0x160 + 48 * (1 - 1) + i) / 65536 = 0 := by omega
    have h2 : (0x160 + 48 * (1 - 1) + i) % 65536 = 0x160 + i := by omega
    simp only [landing, Upd.packageByte, List.find?, h1, h2, decide_true]
    rw [Nat.mul_add, Nat.shiftRight_add, Nat.shiftLeft_shiftRight]
  have l := (Config.sha384 7 65536).isLt
  have m : (Config.sha384 7 65536).toNat % 256 ^ 48 = (Config.sha384 7 65536).toNat := Nat.mod_eq_of_lt (Nat.lt_of_lt_of_eq l (by decide))
  simp only [Upd.hashOk, Upd.hashOf, Upd.packageAt, e, fromLE_shifts, m]
  simp [landing]

theorem wit_UpdateChunks_erase : base.kst.running = true ∧ base.sys.frozen = false ∧ base.upd.part .host = none := ⟨rfl, rfl, rfl⟩

/-- A session that has been idle since tick 0. -/
def idleSince0 (now : BitVec 64) : State := { sessionAt true false 0 with tck := { base.tck with count := now } }

theorem wit_UpdateTimers : (idleSince0 700000000000000).upd.session = true ∧ (idleSince0 700000000000000).awake = true ∧
    (idleSince0 700000000000000).param .updSessionIdleS ≤ (idleSince0 700000000000000).idleS ∧
    (idleSince0 700000000000000).upd.idleSince.toNat + ticksOfSeconds 3600 ≤ (idleSince0 700000000000000).now ∧
    (idleSince0 5).now < (idleSince0 5).upd.idleSince.toNat + ticksOfSeconds 3600 ∧ (idleSince0 5).idleS < (idleSince0 5).param .updSessionIdleS := by decide

/-- A chip whose active slot is UNCONFIRMED. -/
def unconfAt (now : BitVec 64) : State := { base with
  upd := { base.upd with slot0 := 2 }, tck := { base.tck with count := now }, mpt := { base.mpt with enumerated := true } }

theorem wit_UpdateTimers_confirm : (unconfAt 5).confirmReady = true ∧ (unconfAt 5).mst.failed = false ∧ base.toDev.confirmReady = false := by decide

theorem wit_UpdateTimers_timeout : (unconfAt 439453125).unconfirmed = true ∧ (unconfAt 439453125).awake = true ∧ confirmTicks ≤ (unconfAt 439453125).now ∧
    (unconfAt 439453125).twn.mode = false ∧ (unconfAt 5).now < confirmTicks := by decide

theorem wit_UpdateTimers_synced : ∃ s : State, s.unconfirmed = true ∧ s.awake = true ∧ confirmTicks ≤ s.now ∧ s.twn.mode = true ∧ s.twn.state = 3 ∧ s.mst.failed = false :=
  ⟨{ unconfAt 439453125 with twn := { base.twn with mode := true, state := 3 } }, by decide⟩

/-- A request for an admin pair of 64 entries. -/
def adminReq (n : Nat) : MbxReq := ⟨1, 24, bytesLE 8 4096 ++ bytesLE 8 8192 ++ bytesLE 4 n ++ bytesLE 4 64⟩

theorem wit_QueuePairs : Idle base.toDev ∧ base.pair? 1024 = none ∧ adminRefused (adminSpec (adminReq 64)) = none ∧ adminRefused (adminSpec (adminReq 1)) = some 0x10 ∧ base.readRoom = true ∧
    base.upstream = true := by unfold Idle; decide

/-- An admin pair. -/
def admin0 : QPair := freshPair (adminSpec (adminReq 64)) true

/-- `base` with an admin pair and queue pair 3. -/
def withAdmin (bme : Bool) : State := { base with qs := { base.qs with pairs := [admin0, pair3] }, hif := { base.hif with bme := bme } }

theorem wit_QueuePairs_pair (bme : Bool) : Idle (withAdmin bme).toDev ∧ (withAdmin bme).pair? 1024 = some admin0 ∧ admin0.deleting = none ∧ admin0.live = true ∧ 0 < admin0.sqN ∧
    (withAdmin bme).sys.frozen = false ∧ (withAdmin bme).qs.adminWait = [] ∧ (withAdmin bme).adminFree = bme ∧ (withAdmin bme).pair? 3 = some pair3 ∧
    (withAdmin bme).pair? 5 = none ∧ (withAdmin bme).pairRefused (pairSpec 5 false 0 0 64 64 4096 8192) = none ∧
    (withAdmin bme).pairRefused (pairSpec 3 false 0 0 64 64 4096 8192) = some 8 := by
  refine ⟨?_, rfl, rfl, rfl, by decide, rfl, rfl, ?_⟩
  · unfold Idle; exact ⟨rfl, rfl, rfl, rfl, rfl, rfl, rfl, rfl, rfl⟩
  · cases bme <;> decide

theorem wit_QueuePairs_deleting : ∃ s : State, Idle s.toDev ∧ ∃ x, s.pair? 1024 = some x ∧ x.deleting.isSome = true :=
  ⟨{ base with qs := { base.qs with pairs := [{ admin0 with deleting := some 0 }] } }, by unfold Idle; decide, _, rfl, rfl⟩

theorem wit_MctpAndSpdm : base.kst.running = true ∧ base.kst.halted = false ∧ base.sys.frozen = false ∧ base.param .kstSpdmEnable = 1 ∧ State.reset.kst.running = false := by
  decide

theorem wit_MctpAndSpdm_off : ∃ s : State, s.kst.running = true ∧ s.kst.halted = false ∧ s.sys.frozen = false ∧ s.param .kstSpdmEnable ≠ 1 :=
  ⟨{ base with cfg := base.cfg.set (cfgIx .kstSpdmEnable) 0 }, by decide⟩

/-- An enrolment bundle for this chip: 5,556 bytes of which the signatures are zeros. -/
def bundle1 : List Byte :=
  ascii 8 "HLFOWNER" ++ [1, 0, 1, 0, 0, 0, 0, 0] ++ bytesLE 8 Config.serial.toNat ++ zeroBytes 8 ++ zeroBytes 32 ++ zeroBytes 32 ++ [1] ++ zeroBytes 5459

/-- `base` with a nonce of 0 and the first bytes of a bundle. -/
def enrolling (l : List Byte) : State := { base with kst := { base.kst with nonceHost := some 0, enrolHost := l, ownerState := 0 } }

/-- A part of a bundle: the 5,556 bytes' last 1 or a part of 4 bytes at an offset. -/
def enrolPart (off total n : Nat) : MbxReq := ⟨1, 8 + n, bytesLE 4 off ++ bytesLE 4 total ++ zeroBytes n⟩

theorem wit_KeystoneAndTrowel_parts : Idle (enrolling []).toDev ∧ reqAt (enrolPart 0 5556 4) 4 4 = 5556 ∧ reqAt (enrolPart 0 5556 4) 0 4 = ((enrolling []).kst.parts .host).length ∧
    enrolLast (enrolPart 0 5556 4) = false ∧ reqAt (enrolPart 0 9 4) 4 4 ≠ 5556 ∧ reqAt (enrolPart 4 5556 4) 0 4 ≠ ((enrolling []).kst.parts .host).length := by
  unfold Idle; decide

theorem wit_KeystoneAndTrowel_last (l : List Byte) (h : l.length = 5555) : Idle (enrolling l).toDev ∧ reqAt (enrolPart 5555 5556 1) 4 4 = 5556 ∧
    reqAt (enrolPart 5555 5556 1) 0 4 = ((enrolling l).kst.parts .host).length ∧ ((enrolling l).kst.parts .host).length + ((enrolPart 5555 5556 1).len - 8) ≤ 5556 ∧
    enrolLast (enrolPart 5555 5556 1) = true ∧ (enrolling l).mst.failed = false := by
  refine ⟨?_, by decide, ?_, ?_, by decide, rfl⟩
  · unfold Idle; exact ⟨rfl, rfl, rfl, rfl, rfl, rfl, rfl, rfl, rfl⟩
  · exact (show reqAt (enrolPart 5555 5556 1) 0 4 = 5555 by decide).trans h.symm
  · exact Nat.le_of_eq (by rw [show ((enrolling l).kst.parts .host).length = 5555 from h]; decide)

theorem wit_KeystoneAndTrowel_refused : (enrolling []).bundleOk .host (bundleOf (zeroBytes 5555 ++ [0])) true = false := by
  have h : ∀ b : Bundle, b.magicOk = false → (enrolling []).bundleOk .host b true = false := by intro b h; simp [Dev.bundleOk, h]
  exact h _ (by decide)

/-- Bytes spell the number that they were made from. -/
theorem fromLE_bytesLE (n : Nat) : ∀ v : Nat, fromLE (bytesLE n v) = v % 256 ^ n := by
  induction n with
  | zero => intro v; simp [bytesLE, fromLE, Nat.mod_one]
  | succ n ih => intro v; rw [bytesLE, fromLE, ih, Nat.pow_succ', Nat.mod_mul]; simp

theorem bundle1_serial : (bundleOf bundle1).serial = Config.serial.toNat := by
  have h : (bundleOf bundle1).serial = fromLE (bytesLE 8 Config.serial.toNat) := by
    show fromLE ((bundle1.drop 16).take 8) = _
    rfl
  rw [h, fromLE_bytesLE]
  exact Nat.mod_eq_of_lt Config.serial.isLt

theorem bundle1_keys : (bundleOf bundle1).keys ≠ 0 := by
  have ⟨t, e⟩ : ∃ t, (bundle1.drop 0x60).take 97 = 1 :: t := ⟨_, rfl⟩
  have h : le bundle1 0x60 97 ≠ 0 := by rw [le, e, fromLE]; simp
  show le bundle1 0x60 97 + le bundle1 0xC4 1952 * 2 ^ 776 ≠ 0
  omega

theorem wit_KeystoneAndTrowel_accepted : (enrolling []).bundleOk .host (bundleOf bundle1) true = true ∧ (bundleOf bundle1).action = 1 ∧
    (bundleOf bundle1).policy.lowers (enrolling []).kst.policyNext = false ∧ (enrolling []).policyAbove (bundleOf bundle1).policy = false := by
  have a : (bundleOf bundle1).action = 1 := by decide
  have m : (bundleOf bundle1).magicOk = true := by decide
  have n : (bundleOf bundle1).nonce = 0 := by decide
  refine ⟨?_, a, by decide, by decide⟩
  simp [Dev.bundleOk, a, m, n, bundle1_serial, bundle1_keys, enrolling, Kst.nonce]

theorem wit_KeystoneAndTrowel_policy : ∃ (s : State) (q : Policy), q.lowers s.kst.policyNext = true ∧ s.policyAbove q = false ∧ ∃ q', s.policyAbove q' = true ∧
    q'.lowers s.kst.policyNext = false :=
  ⟨{ base with kst := { base.kst with policyNext := { base.kst.policyNext with minSvn := [1, 0, 0, 0, 0] } } }, { base.kst.policyNext with minSvn := [0, 0, 0, 0, 0] },
    by decide, by decide, { base.kst.policyNext with minSvn := [1, 9, 9, 9, 9] }, by decide, by decide⟩

theorem wit_KeystoneAndTrowel_reset : base.sys.pwrGood = true ∧ base.kst.running = true ∧ base.kst.halted = false ∧ base.sys.frozen = false ∧ base.kst.resetTicks = [] ∧ base.tck.running = true ∧
    base.toDev.awake = true ∧ base.sys.trwHalted = [false, false] ∧ State.reset.kst.running = false := by decide

theorem wit_KeystoneAndTrowel_fourth : ∃ s : State, s.sys.pwrGood = true ∧ s.kst.running = true ∧ s.kst.halted = false ∧ s.sys.frozen = false ∧
    3 ≤ (s.kst.resetTicks.filter fun x => s.now < x.toNat + 2 ^ 30).length :=
  ⟨{ base with kst := { base.kst with resetTicks := [1, 2, 3] } }, by decide⟩

theorem wit_KeystoneAndTrowel_interrupted : ∃ (s : State) (r : MbxRun), s.awake = true ∧ s.sys.trwHalted = [false, false] ∧ s.mbx.run? .host = some r ∧
    s.mbx.hostDiscard = false :=
  ⟨{ base with mbx := { base.mbx with hostRun := some ⟨.fieldOffline .host name7, 0x0303, 1, [], .offline 7⟩ } }, _, rfl, rfl, rfl, rfl⟩

theorem wit_KeystoneAndTrowel_halted : ∃ s : State, s.awake = true ∧ s.sys.trwHalted = [true, false] :=
  ⟨{ base with sys := { base.sys with trwHalted := [true, false] } }, by decide⟩

/-- `base` with an armed freeze latch. -/
def armedBase : State := { base with sys := { base.sys with freezeArmed := true } }

/-- A frozen chip whose harvest chain selects a segment. -/
def frozenAt (seg : BitVec 8) : State := { base with sys := { base.sys with frozen := true, harvestSel := seg, stops := List.replicate 64 7 } }

theorem wit_FreezeAndJtag : base.sys.pwrGood = true ∧ base.sys.frozen = false ∧ base.sys.freezeArmed = false ∧ armedBase.sys.freezeArmed = true ∧ armedBase.vlt.dumping = none ∧
    State.reset.sys.pwrGood = false ∧ (frozenAt 0).sys.frozen = true ∧ (frozenAt 8).sys.harvestSel.toNat = 8 := by decide

theorem wit_FreezeAndJtag_hod : ∃ (s : State) (h : HodLine), s.sys.frozen = true ∧ s.sys.harvestSel.toNat = 6 ∧ (s.hod.lines ++ s.hod.victims)[0 / 128]? = some h :=
  ⟨frozenAt 6, HodLine.empty, rfl, rfl, rfl⟩

theorem wit_FreezeAndJtag_ring : ∃ (s : State) (r : FbRec), s.sys.frozen = true ∧ s.sys.harvestSel.toNat = 9 ∧ s.fbk.slot? (0 / 256) = some r :=
  let r := base.mkRec 1 0 0 0 0 0 0
  ⟨{ frozenAt 9 with fbk := { base.fbk with ring := [r], written := 1 } }, r, rfl, rfl, rfl⟩

theorem wit_HostResets : base.sys.pwrGood = true ∧ base.kst.running = true ∧ base.sys.frozen = false ∧ base.vlt.dumping = none ∧ base.sys.warmGap = false ∧
    (base.qs.cmds.map (·.id)).Nodup ∧ base.toDev.waiter? .adminDelete = none ∧ State.reset.kst.running = false := by decide

/-- `base` with a write in its fetch stage, whose line is uncommitted. -/
def writing1 : State := { base with
  qs := { base.qs with pairs := [pair3], cmds := [base.newCmd 7 3 pair3 0 .write entry0] }
  cache := { base.cache with lines := [{ line0 with cmd := 7 }, { line0 with lba := 2, st := .committed, cmd := 0 }] } }

theorem wit_HostResets_write : ∃ c ∈ writing1.qs.cmds, c.op.isWrite = true ∧ c.durable = false ∧ c.stage ≠ .finished ∧ ∃ l ∈ writing1.cache.lines, l.st ≠ .uncommitted := by decide

theorem wit_HostResets_merge : ∃ s : State, s.sys.warmGap = true := ⟨{ base with sys := { base.sys with warmGap := true } }, rfl⟩

theorem wit_HostResets_device : Idle base.toDev ∧ base.sys.restoreChosen = false ∧ ∃ s : State, Idle s.toDev ∧ s.vlt.dumping = none ∧ s.vlt.restoring = none ∧ s.sys.restoreChosen = true ∧
    s.toDev.stuckLines = false :=
  ⟨by unfold Idle; decide, rfl, { base with sys := { base.sys with restoreChosen := true } }, by unfold Idle; decide, rfl, rfl, rfl, by decide⟩

theorem wit_HostResets_recovery : ∃ s : State, IdleBut true true s.toDev := ⟨hifAt fun h => { h with recovery := true }, by unfold IdleBut Idle; decide⟩

/-- What a clean start of the boot ROM finds. -/
def bootOk : BootEnv := ⟨true, false, true, false, [], [], [], [], [], [], false, false, false⟩

/-- What the end of DRAM training finds on a clean chip. -/
def dramOk (bad : Bool) : DramEnv := ⟨64, [], 38400000000, [], [], [], [], [], bad⟩

theorem wit_StartsAndPower : State.reset.sys.pwrGood = false ∧ base.sys.pwrGood = true ∧ bootOk.romOk = true ∧ ¬([4, 5, 6, 7].all bootOk.badCounterLines.contains = true) ∧
    base.sys.softReset = false ∧ base.upd.falling = false ∧ base.vlt.pwrfailLatched = false := by decide

theorem wit_StartsAndPower_rom : ∃ b : BootEnv, b.romOk = false := ⟨{ bootOk with romOk := false }, rfl⟩

theorem wit_StartsAndPower_soft : ∃ s : State, s.sys.softReset = true ∧ s.sys.frozen = false ∧ s.sys.pwrGood = true ∧ s.vlt.softDump = false ∧ s.sys.softDrain = true ∧ s.toDev.drained? = true :=
  ⟨{ base with sys := { base.sys with softReset := true, softDrain := true } }, by decide⟩

theorem wit_StartsAndPower_fall : ∃ s : State, s.awake = true ∧ s.upd.falling = true ∧ s.sys.softDrain = true ∧ s.toDev.drained? = true :=
  ⟨{ base with sys := { base.sys with softDrain := true }, upd := { base.upd with falling := true } }, by decide⟩

theorem wit_StartsAndPower_restore : ∃ s : State, s.sys.frozen = false ∧ s.sys.pwrGood = true ∧ s.tck.running = true ∧ s.vlt.pwrfailLatched = true ∧ s.vlt.restoring.isSome = true ∧
    s.vlt.dumping = none :=
  ⟨{ base with vlt := { base.vlt with pwrfailLatched := true, restoring := some 0 } }, by decide⟩

/-- A chip whose boot ROM has run, and whose DRAM is not trained. -/
def untrained : State := { State.reset with kst := { State.reset.kst with running := true }, sys := { State.reset.sys with pwrGood := true, bootKind := 1 } }

theorem wit_StartsAndPower_dram : untrained.sys.pwrGood = true ∧ untrained.kst.running = true ∧ untrained.hif.recovery = false ∧ untrained.sys.dramReady = false ∧
    (dramOk true).failedChannels = [] ∧ (dramOk true).correctable = [] ∧ (dramOk true).badFurrowLines = [] ∧ (dramOk true).badSlots = [] ∧ (dramOk true).badEntries = [] ∧ (dramOk true).badReshapes = [] ∧
    untrained.kst.earlyRecs = [] ∧ State.reset.sys.pwrGood = false := by decide

theorem wit_StartsAndPower_book : untrained.fbk = .reset := rfl

/-- A dump of one line of field 7. -/
def dump1 (ok foot : Bool) : VSlot := { VSlot.blank with header := true, dumpSeq := 5, manifest := [⟨0, 7, 12, 99, 1⟩], manifestOk := ok, written := 1, footer := foot, erased := false }

/-- A chip after S2 whose vault holds the slots. -/
def vaultAt (a b : VSlot) : State := { base with sys := { base.sys with dramReady := true }, vlt := { base.vlt with slots := [a, b] } }

theorem wit_DumpsAndRestores : base.sys.frozen = false ∧ base.vlt.dumping = none ∧ base.toDev.awake = true ∧ (vaultAt .blank .blank).awake = true ∧
    (vaultAt .blank .blank).sys.restoreChosen = false ∧ (vaultAt .blank .blank).vlt.slots.length = 2 ∧ (vaultAt .blank .blank).newestSlot VSlot.unconsumed = none ∧
    (vaultAt .blank (dump1 true true)).newestSlot (fun v => v.unconsumed && v.manifestOk && v.footer) = some 1 ∧
    (vaultAt (dump1 true false) .blank).newestSlot (fun v => v.unconsumed && v.manifestOk && v.footer) = none ∧
    (vaultAt (dump1 true false) .blank).newestSlot (fun v => v.unconsumed && v.manifestOk) = some 0 ∧
    (vaultAt (dump1 false false) .blank).newestSlot (fun v => v.unconsumed && v.manifestOk) = none ∧
    (vaultAt (dump1 false false) .blank).newestSlot VSlot.unconsumed = some 0 ∧ (vaultAt { VSlot.blank with erasing := true } .blank).vslot 0 ≠ .blank ∧
    base.vlt.slotBytes / 16384 ≤ 2343750 := by decide

/-- A dump that runs. -/
def dumpingAt (low : Bool) : State := { vaultAt (dump1 true false) .blank with
  vlt := { (vaultAt (dump1 true false) .blank).vlt with dumping := some 0, dumpTick := true }
  sys := { base.sys with pwrfailLow := low } }

theorem wit_DumpsAndRestores_end : (dumpingAt true).vlt.dumping = some 0 ∧ (dumpingAt true).vlt.dumpTick = true ∧ (dumpingAt true).sys.frozen = false ∧ 0 < (dumpingAt true).vlt.slots.length ∧
    (dumpingAt false).sys.pwrfailLow = false ∧ (dumpingAt false).sys.pwrGood = true ∧ (dumpingAt false).vlt.thermal = false := by decide

theorem wit_DumpsAndRestores_done : ∃ s : State, s.vlt.restoring = some 1 ∧ s.awake = true ∧ s.vlt.pwrfailLatched = false ∧ 1 < s.vlt.slots.length :=
  ⟨{ base with vlt := { base.vlt with restoring := some 1 } }, by decide⟩

theorem wit_DumpsAndRestores_health : base.toDev.awake = true ∧ (some 3 : Option Nat).isSome = true ∧
    ∃ s : State, s.awake = true ∧ s.vlt.testAt.toNat + ticksOfSeconds (3600 * s.param .vltTestHours) ≤ s.now :=
  ⟨by decide, rfl, { base with tck := { base.tck with count := 700000000000000 } }, by decide⟩

theorem wit_DumpsAndRestores_foreign : (vaultAt { VSlot.blank with foreign := true } .blank).vslot 0 = { VSlot.blank with foreign := true } := rfl

theorem wit_DumpsAndRestores_frozen : ∃ s : State, s.sys.frozen = true := ⟨{ base with sys := { base.sys with frozen := true } }, rfl⟩

/-- `base` after S2 with other DRAM registers. -/
def drmAt (f : Drm → Drm) : State := { base with sys := { base.sys with dramReady := true }, drm := f base.drm }

theorem wit_ProtectionAndHeat : base.drm.holdupOk = false ∧ (drmAt fun d => { d with holdupOk := true, holdupSince := some 0 }).drm.holdupOk = true ∧
    (drmAt fun d => d).drm.channels = 0 ∧ (drmAt fun d => { d with channels := 1 }).drm.channels.getLsbD 3 = false ∧ (drmAt fun d => { d with channels := 1 }).drm.channels ≠ 0 ∧
    (drmAt fun d => { d with rebuildingDir := true }).awake = true ∧ base.toDev.awake = true ∧ base.sys.thermWarn = false ∧ base.sys.thermTrip = false := by decide

theorem wit_ProtectionAndHeat_settle : ∃ s : State, s.tck.running = true ∧ s.drm.holdupOk = true ∧ ∃ x, s.drm.holdupSince = some x ∧ x.toNat + s.param .vltHoldupSettleTicks ≤ s.now :=
  ⟨{ drmAt fun d => { d with holdupOk := true, holdupSince := some 0 } with tck := { base.tck with count := 70000 } }, by decide, by decide, 0, rfl, by decide⟩

theorem wit_ProtectionAndHeat_lost : ∃ s : State, s.sys.dramReady = true ∧ s.drm.channels ≠ 0 ∧ s.drm.cacheLost = false ∧ (s.qs.cmds.map (·.id)).Nodup ∧
    0 < (s.cache.lines.filter fun l => decide (l.st = .committed ∨ l.st = .band) && !(s.partner && l.mirrored)).length ∧
    ∃ c ∈ s.qs.cmds, c.op.isWrite = true ∧ c.durable = false ∧ c.stage = .running :=
  ⟨{ writing1 with sys := { base.sys with dramReady := true }, drm := { base.drm with channels := 1 }, qs := { writing1.qs with cmds := writing1.qs.cmds.map fun c => { c with stage := .running } } }, by decide⟩

/-- `base` after S2 with the lines. -/
def poolAt (l : List Line) : State := { drmAt id with cache := { base.cache with lines := l, frameNext := 9 } }

/-- A first read with 16 wrong symbols of channel 0 in one codeword. -/
def burst16 : List (Nat × Nat) := (List.range 16).map fun i => (0, i)

/-- The same with as many on channel 1. -/
def burst32 : List (Nat × Nat) := burst16 ++ (List.range 16).map fun i => (0, 20 + i)

theorem wit_ProtectionAndHeat_patrol : (poolAt [dirty0 0]).awake = true ∧ (poolAt [dirty0 0]).sys.dramReady = true ∧ 0 < base.toDev.param .drmPatrolHours ∧
    PatrolAt.line (dirty0 0).frame ∉ (poolAt [dirty0 0]).drm.patrolled ∧ (poolAt [dirty0 0]).cache.lines.find? (·.frame = (dirty0 0).frame) = some (dirty0 0) ∧
    (poolAt []).cache.lines.find? (·.frame = 0) = none ∧ (poolAt [dirty0 0]).macsPass (dirty0 0) = true ∧ (dirty0 0).st = .committed ∧
    ((poolAt [dirty0 0]).versions 7 0).all (fun x => x.st ≠ .committed || x.version ≤ (dirty0 0).version) = true :=
  ⟨rfl, rfl, by decide, by decide, rfl, rfl, rfl, rfl, rfl⟩

set_option maxRecDepth 20000 in
theorem wit_ProtectionAndHeat_code : frameOutcome (.symbols [] []) 0 true = .clean ∧ frameOutcome (.symbols [(3, 41)] []) 0 true = .corrected 2 ∧
    frameOutcome (.symbols burst16 burst16) 0 true = .recovered 0 ∧ frameOutcome (.symbols burst32 burst32) 0 true = .lost := ⟨rfl, rfl, rfl, rfl⟩

theorem wit_ProtectionAndHeat_seen : ∃ s : State, PatrolAt.window 3 ∈ s.drm.patrolled ∧ s.sys.dramReady = true ∧ s.awake = true :=
  ⟨drmAt fun d => { d with patrolled := [.window 3] }, by decide⟩

theorem wit_ProtectionAndHeat_mirrored : ∃ s : State, s.awake = true ∧ s.sys.dramReady = true ∧ s.partner = true ∧ ∃ l ∈ s.cache.lines, l.st = .committed ∧ l.mirrored = true :=
  ⟨{ poolAt [{ dirty0 0 with mirrored := true }] with twn := { base.twn with mode := true, state := 3, linkUp := true, session := some 1 } }, by decide⟩

theorem wit_ProtectionAndHeat_fetch : ∃ s : State, ∃ l ∈ s.cache.lines, l.st = .uncommitted ∧ (s.field? l.field).isSome = true ∧ ∃ c, s.cmd? l.cmd = some c ∧ c.op = .write ∧
    (c.partsOf l.lba).any (!·.window) = true :=
  ⟨{ writing1 with
      fields := [field7]
      qs := { writing1.qs with cmds := [{ base.newCmd 7 3 pair3 0 .write entry0 with ranges := [(1, 1)], segs := [⟨false, 0x100000, 4096⟩] }] }
      cache := { base.cache with lines := [{ line0 with cmd := 7, field := 7, lba := 1 }] } },
    { line0 with cmd := 7, field := 7, lba := 1 }, .head _, rfl, rfl, _, rfl, rfl, rfl⟩

theorem wit_ProtectionAndHeat_warm : ∃ s : State, s.awake = true ∧ s.sys.thermWarn = true := ⟨{ base with sys := { base.sys with thermWarn := true } }, by decide⟩

/-- A member command that is out. -/
def mcmd1 (op : MOp) (why : Purpose) : MCmd := ⟨5, 1, op, 4096, 1, .none, 0, false, why, false, false, some 0, false, false⟩

/-- A job of field 7. -/
def job1 (k : JobKind) (st : JobStage) : Job := { Job.fresh k 7 0 false with id := 3, stage := st, writesLeft := 2, locks := [(0, false)] }

/-- A chip with the command and the job. -/
def jobAt (c : MCmd) (j : Job) : State := { withField with
  mpt := { withField.mpt with cmds := [c], nextCmd := 6 }
  cache := { withField.cache with jobs := [j], nextJob := 4, ctxs := [⟨7, 0, false, 0, none, none, [3]⟩] }
  tck := { withField.tck with phaseIdx := 5, count := 1000000 } }

theorem wit_WorkAdvances (op : MOp) (w : Purpose) (k : JobKind) (st : JobStage) : let s := jobAt (mcmd1 op w) (job1 k st)
    (s.mpt.cmds.map (·.id)).Nodup ∧ (s.cache.jobs.map (·.id)).Nodup ∧ (∀ c ∈ s.mpt.cmds, c.id < s.mpt.nextCmd) ∧ s.awake = true ∧ s.job? 3 = some (job1 k st) ∧
    s.field? (job1 k st).field = some field7 ∧ s.locksFree (job1 k st) = true ∧ (∀ b ∈ s.cache.jobs, ¬(b.stage = .writing ∧ b.queued = true ∧ b.writesLeft = 0)) ∧
    (mcmd1 op w).issued.isSome = true ∧ (mcmd1 op w).held = false ∧ (mcmd1 op w).failed = false ∧ 1 < (job1 k st).writesLeft ∧ (job1 k st).waitsFill = [] ∧
    (job1 k st).locks ≠ [] ∧ (∀ x ∈ s.cache.jobs, x.id < s.cache.nextJob) ∧ s.mpt.arrived = [] ∧ s.mpt.retiredNow < 2048 ∧
    (job1 k st).reads = false ∧ s.laneBusy (job1 k st) = false ∧ s.lanesIn ≠ [] ∧ s.mor.lost = false ∧ s.tck.phaseIdx = 5 := by
  refine ⟨by simp [jobAt], by simp [jobAt], ?_, rfl, rfl, rfl, rfl, ?_, rfl, rfl, rfl, by simp [job1], rfl, by simp [job1], ?_, rfl, Nat.zero_lt_succ _, rfl, ?_, ?_, rfl, rfl⟩
  · intro c hc; simp [jobAt] at hc; subst hc; show 5 < 6; decide
  · intro b hb; simp [jobAt] at hb; subst hb; rintro ⟨_, h, _⟩; cases h
  · intro b hb; simp [jobAt] at hb; subst hb; show 3 < 4; decide
  · simp [Dev.laneBusy, jobAt]
  · have h : base.toDev.lanesIn ≠ [] := by decide
    exact h

theorem wit_WorkAdvances_hedge : (0 : BitVec 64).toNat + (jobAt (mcmd1 .read (.job 3)) (job1 .solve .reading)).param .mptHedgeTicks ≤
    (jobAt (mcmd1 .read (.job 3)) (job1 .solve .reading)).now := by decide

/-- A guarded write of a field that has no home entry, whose region's bits are set everywhere. -/
def guarded1 : State :=
  let f := { field7 with homeIndex := none, repCoarse := 0xFFFF, repOn := [0, 1, 2], ckptAckedCoarse := 0xFFFF }
  let s := jobAt (mcmd1 .read .adopt) { job1 .destage .guarding with writes := [⟨false, 0, 1, 0, 9, 9, false⟩] }
  { s with fields := [f], mst := { s.mst with entries := [], coarse := [(7, 0xFFFF)] } }

theorem wit_WorkAdvances_guard : ∃ j f, guarded1.job? 3 = some j ∧ guarded1.field? j.field = some f ∧ guarded1.mayWrite j f = true ∧ guarded1.mst.failed = false ∧
    (∃ x ∈ j.writes, f.writers x.geom x.pos ≠ []) ∧ j.stage = .guarding ∧ j.kind ≠ .reshape ∧ (jobAt (mcmd1 .read .adopt) (job1 .destage .guarding)).mayWrite (job1 .destage .guarding) field7 = false :=
  ⟨_, _, rfl, rfl, by decide, rfl, ⟨_, List.mem_cons_self, by decide⟩, rfl, by decide, by decide⟩

/-- `base` with another hod. -/
def hodAt (f : Hod → Hod) : State := { base with hod := f base.hod }

/-- A miss register that moves a line. -/
def moving (k : MissKind) : MissReg := ⟨2, k, ⟨7, 0, false, 0⟩, 1, 0, 0, [], false, 0, some .empty, 3⟩

theorem wit_HodAndBook : base.tck.running = true ∧ base.param .hodAgeTicks ≠ 0 ∧ (tckAt fun t => { t with count := 0 }).tck.phaseIdx = 0 ∧ base.hod.aged = none ∧ (tckAt fun t => { t with count := 0 }).now % (tckAt fun t => { t with count := 0 }).param .hodAgeTicks = 0 ∧
    base.hod.invalidating = false ∧ (hodAt fun h => { h with invalidating := true }).hod.regs = [] ∧ base.fbk.started = true ∧ base.sys.frozen = false ∧ base.vlt.dumpTick = false ∧
    base.fbk.last = [] ∧ base.fbk.drops = 0 ∧ base.fbk.fifo = [] ∧ base.fbk.degraded = false ∧ base.toDev.awake = true := by decide

theorem wit_HodAndBook_move (k : MissKind) : let s := hodAt fun h => { h with regs := [moving k] }
    moving k ∈ s.hod.regs ∧ (s.hod.regs.map (·.reg)).Nodup ∧ (moving k).waiters = [] ∧ (moving k).entry < s.hod.lines.length ∧ (moving k).victim < s.hod.victims.length ∧
    s.hod.lines[(moving k).entry]? = some .empty ∧ s.hod.victims[(moving k).victim]? = some .empty :=
  ⟨List.mem_cons_self, by simp [hodAt, moving], rfl, show 1 < 48 by decide, show 3 < 8 by decide, rfl, rfl⟩

/-- `base` with another Field Book. -/
def bookAt (f : Fbk → Fbk) : State := { base with fbk := f base.fbk }

/-- A record. -/
def rec1 : FbRec := base.mkRec 1 0x5001 0 0 0 0 0

theorem wit_HodAndBook_fifo : (bookAt fun k => { k with fifo := [rec1] }).fbk.fifo = rec1 :: [] ∧ 0 < (bookAt fun k => { k with drops := 3 }).fbk.drops ∧
    (bookAt fun k => { k with degraded := true }).fbk.degraded = true ∧ ∃ s : State, s.fbk.started = false := ⟨rfl, by decide, rfl, State.reset, rfl⟩

theorem wit_HodAndBook_fold : ∃ s : State, ∃ r, s.fbk.started = true ∧ s.toDev.pendingFold? = some r ∧ s.fbk.ring[0]? = some rec1 ∧ rec1.src = r.src ∧ rec1.seq = r.seq :=
  ⟨bookAt fun k => { k with ring := [rec1], written := 1, last := [⟨0x5001, 1, 0, 0, 0, 0, 1, .ring 0, 2⟩] }, ⟨0x5001, 1, 0, 0, 0, 0, 1, .ring 0, 2⟩, rfl, rfl, rfl, rfl, rfl⟩

end Sys2Proof.Tests
end

section
/-!
SUPPORT. Proofs of the family of the scope: the state after reset (O4), and how a register write acts (O24), with the rules about byte memory,
the words of BAR0 and the Command register that O24 rests on.
-/

namespace Sys2Proof.Safety

open Sys2Proof.Machine

/-! ## Byte memory -/

/-- A write elsewhere leaves a byte as it was. -/
theorem memGet_memWrite_of_outside : ∀ (l : List Byte) {a c : Nat} {m : List Host.Cell}, memWf m = true →
    c < a ∨ a + l.length ≤ c → memGet c (memWrite a l m) = memGet c m
  | [], _, _, _, _, _ => rfl
  | b :: l, a, c, m, hm, hc => by
    rw [List.length_cons] at hc
    have hca : c ≠ a := by omega
    calc memGet c (memWrite (a + 1) l (memSet a b m))
      _ = memGet c (memSet a b m) := memGet_memWrite_of_outside l (memSet_wfFrom a b (Nat.zero_le a) hm) (by omega)
      _ = memGet c m := by rw [memGet_memSet a c b hm, if_neg hca]

/-- What was written reads back: the rest of the write lies above its first byte. -/
theorem memRead_memWrite : ∀ (l : List Byte) (a : Nat) {m : List Host.Cell}, memWf m = true →
    memRead a l.length (memWrite a l m) = l
  | [], _, _, _ => rfl
  | b :: l, a, m, hm => by
    have hm' : memWf (memSet a b m) = true := memSet_wfFrom a b (Nat.zero_le a) hm
    have hfirst : memGet a (memWrite (a + 1) l (memSet a b m)) = b := by
      rw [memGet_memWrite_of_outside l hm' (.inl (Nat.lt_succ_self a)), memGet_memSet a a b hm, if_pos rfl]
    exact List.cons_eq_cons.mpr ⟨hfirst, memRead_memWrite l (a + 1) hm'⟩

/-! ## The state after reset -/

theorem ctrOk_of_zero {s : Dev} (h : s.ctr = Vector.replicate ctrCount 0) : CtrOk s := by
  intro x hx
  rw [h, Vector.toList_replicate] at hx
  rw [List.eq_of_mem_replicate hx]
  exact Nat.zero_le _

theorem bookFits_reset : BookFits Fbk.reset :=
  ⟨Nat.zero_le _, Nat.zero_le _, Nat.zero_le _, Nat.zero_le _⟩

theorem sound_reset : Sound Dev.reset where
  mem := ⟨rfl, rfl⟩
  ctr := ctrOk_of_zero rfl
  book := bookFits_reset

end Sys2Proof.Safety

namespace Sys2Proof.Machine

@[simp] theorem length_bytesLE : ∀ n v : Nat, (bytesLE n v).length = n
  | 0, _ => rfl
  | n + 1, v => congrArg (· + 1) (length_bytesLE n (v / 256))

/-! ## Words of BAR0, by the access types of their fields (R6) -/

section
variable (s : Dev) (w : BitVec 32)

theorem Dev.writeWord_eventStatus :
    s.writeWord 0x18 w = s.onHif fun h => { h with events := h.events &&& ~~~(w.setWidth 14) } := rfl

theorem Dev.writeWord_eventMask : s.writeWord 0x1C w = s.onHif fun h => { h with eventMask := w.setWidth 14 } := rfl

theorem Dev.writeWord_link : s.writeWord 0x20 w = s := rfl

theorem Dev.writeWord_mbxStatus : s.writeWord 0x1004 w =
    s.onMbx fun m => { m with done := m.done && !w.getLsbD 0, overrun := m.overrun && !w.getLsbD 2 } := rfl

theorem Dev.writeWord_mbxControl : s.writeWord 0x1008 w = s.onMbx fun m => { m with irqEn := w.getLsbD 0 } := rfl

theorem Dev.writeWord_tckStatus : s.writeWord 0x8010 w =
    s.onTck fun t => { t with alignFault := t.alignFault && !w.getLsbD 4, storm := t.storm && !w.getLsbD 5 } := rfl

theorem Dev.writeWord_bookPage : s.writeWord 0x9010 w = s.onFbk fun k => { k with page := w.setWidth 8 } := rfl

end

variable {s : Dev}

/-- One DW of a region of registers, written while no port hold lasts. -/
theorem Dev.writeBar0_word {off : Nat} {r : Region} (v : Nat) (hup : s.memUp = true) (hhold : s.hif.hold = false)
    (hr : regionOf off 4 = some r) (hreq : r ≠ .request) (hok : s.writeForbidden off 4 = false) :
    s.writeBar0 off 4 v = s.writeWord off (BitVec.ofNat 32 v) := by
  cases r
  case request => exact absurd rfl hreq
  all_goals simp [Dev.writeBar0, Dev.writeWords, hup, hhold, hr, hok]

/-- Every DW of the 4 KiB from 0x2000 on lies in the request buffer (R279). -/
theorem regionOf_request {k : Nat} (hk : k < 1024) : regionOf (0x2000 + 4 * k) 4 = some .request := by
  have hhif : ¬0x2000 + 4 * k + 4 ≤ 0x1000 := by omega
  have hmbx : ¬0x2000 + 4 * k + 4 ≤ 0x2000 := by omega
  have hend : 0x2000 + 4 * k + 4 ≤ 0x3000 := by omega
  simp [regionOf, allRegions, regionSpan, hhif, hmbx, hend]

/-- One DW of the request buffer, written while no port hold lasts. -/
theorem Dev.writeBar0_request {k : Nat} (v : Nat) (hup : s.memUp = true) (hhold : s.hif.hold = false) (hk : k < 1024) :
    s.writeBar0 (0x2000 + 4 * k) 4 v = s.onMbx fun m => { m with reqBuf := memWrite (4 * k) (bytesLE 4 v) m.reqBuf } := by
  have hr := regionOf_request hk
  have hform : accessForm .request (0x2000 + 4 * k) 4 = true := by simp [accessForm, Region.buffer]
  have hok : s.writeForbidden (0x2000 + 4 * k) 4 = false := by
    simp [Dev.writeForbidden, hr, hform, Region.writable, Dev.words?, Dev.word?]
  simp [Dev.writeBar0, hup, hhold, hr, hok]

/-! ## Command (R273, R276) -/

theorem Dev.cfgUp_of_memUp (h : s.memUp = true) : s.cfgUp = true := by
  simp only [Dev.memUp, Bool.and_eq_true] at h
  obtain ⟨⟨⟨⟨hrun, -⟩, -⟩, -⟩, hfrozen⟩ := h
  simp only [Dev.cfgUp, hrun, hfrozen, Bool.and_self]

theorem Dev.setMse_of_cfgUp (h : s.cfgUp = true) (on : Bool) : s.setMse on = s.onHif fun x => { x with mse := on } := if_pos h

/-- Without Bus Master Enable no upstream request resumes. -/
theorem Dev.setBme_false (h : s.cfgUp = true) : s.setBme false = s.onHif fun x => { x with bme := false } := by
  unfold Dev.setBme
  rw [if_pos h]
  rfl

@[simp] theorem Dev.cfgBit_some (s : Dev) (n b : Nat) (f : Dev → Bool → Dev) : s.cfgBit (some n) b f = f s (n.testBit b) := rfl

@[simp] theorem Dev.cfgBit_none (s : Dev) (b : Nat) (f : Dev → Bool → Dev) : s.cfgBit none b f = s := rfl

/-- Both enables cleared between two other changes of the host endpoint's registers. The changes are variables here, so that no proof
about them compares the arithmetic of base addresses. -/
theorem Dev.clear_enables (h : s.cfgUp = true) (f g : Hif → Hif) : (((s.onHif f).setMse false).setBme false).onHif g =
    s.onHif fun x => g { f x with mse := false, bme := false } := by
  have hf : (s.onHif f).cfgUp = true := h
  rw [Dev.setMse_of_cfgUp hf, Dev.setBme_false (by exact h)]
  rfl

/-- A configuration write covers no byte outside its own. -/
theorem cfgByte_of_outside {off size k : Nat} (v : Nat) (h : k < off ∨ off + size ≤ k) : cfgByte off size v k = none := by
  have hk : ¬(off ≤ k ∧ k < off + size) := by omega
  simp [cfgByte, hk]

/-- A write of Command with both enables 0 changes registers of the host endpoint only: beside the enables, the base addresses and the
latency maxima are rewritten from what they hold. -/
theorem Dev.writeConfig_command_zero (h : s.cfgUp = true) :
    ∃ f : Hif → Hif, s.writeConfig 0x04 4 0 = s.onHif f ∧ (f s.hif).mse = false ∧ (f s.hif).bme = false := by
  have hcmd : cfgByte 0x04 4 0 0x04 = some 0 := rfl
  have hout {k : Nat} (hk : 0x08 ≤ k) : cfgByte 0x04 4 0 k = none := cfgByte_of_outside 0 (.inr hk)
  unfold Dev.writeConfig
  rw [if_neg (by rw [h]; decide)]
  simp (disch := decide) only [hcmd, hout, Dev.cfgBit_some, Dev.cfgBit_none, Nat.zero_testBit]
  exact ⟨_, Dev.clear_enables h _ _, rfl, rfl⟩

end Sys2Proof.Machine

namespace Sys2Proof.Claims

open Sys2Proof.Machine Sys2Proof.Safety

/-! ## Frames of a change of one part -/

section
variable (s : Dev)

theorem Only.onHif (f : Hif → Hif) : Only [.hif] s (s.onHif f) := by
  intro p hp
  cases p
  case hif => exact absurd List.mem_cons_self hp
  all_goals rfl

theorem Only.onMbx (f : Mbx → Mbx) : Only [.mbx] s (s.onMbx f) := by
  intro p hp
  cases p
  case mbx => exact absurd List.mem_cons_self hp
  all_goals rfl

theorem Only.onTck (f : Tck → Tck) : Only [.tck] s (s.onTck f) := by
  intro p hp
  cases p
  case tck => exact absurd List.mem_cons_self hp
  all_goals rfl

theorem Only.onFbk (f : Fbk → Fbk) : Only [.fbk] s (s.onFbk f) := by
  intro p hp
  cases p
  case fbk => exact absurd List.mem_cons_self hp
  all_goals rfl

end

/-! ## REGISTER_WRITE -/

section
variable {s : State} {off size v : Nat} {t : Dev} {P : Dev → Prop}

theorem gives_registerWrite_bar0 (ht : s.toDev.writeBar0 off size v = t) (h : P t) : Gives (.registerWrite .bar0 off size v) s P :=
  ⟨{ s with toDev := s.toDev.writeBar0 off size v }, rfl, rfl, ht ▸ h⟩

theorem gives_registerWrite_config (ht : s.toDev.writeConfig off size v = t) (h : P t) :
    Gives (.registerWrite .config off size v) s P :=
  ⟨{ s with toDev := s.toDev.writeConfig off size v }, rfl, rfl, ht ▸ h⟩

/-- A register of BAR0 takes a word as `Dev.writeWord` says. -/
theorem gives_registerWrite_word (r : Region) (hup : s.memUp = true) (hhold : s.hif.hold = false) (hr : regionOf off 4 = some r)
    (hreq : r ≠ .request) (hok : s.writeForbidden off 4 = false) (ht : s.toDev.writeWord off (BitVec.ofNat 32 v) = t) (h : P t) :
    Gives (.registerWrite .bar0 off 4 v) s P :=
  gives_registerWrite_bar0 ((Dev.writeBar0_word v hup hhold hr hreq hok).trans ht) h

/-- The request buffer takes the bytes of a word at their offsets, and keeps every other byte. -/
theorem gives_registerWrite_request {k : Nat} (hup : s.memUp = true) (hhold : s.hif.hold = false) (hk : k < 1024)
    (hwf : memWf s.mbx.reqBuf = true) : Gives (.registerWrite .bar0 (0x2000 + 4 * k) 4 v) s fun t =>
      memRead (4 * k) 4 t.mbx.reqBuf = bytesLE 4 v ∧
      (∀ a, a < 4 * k ∨ 4 * k + 4 ≤ a → memGet a t.mbx.reqBuf = memGet a s.mbx.reqBuf) ∧
      t.mbx = { s.mbx with reqBuf := t.mbx.reqBuf } ∧ Only [.mbx] s.toDev t :=
  gives_registerWrite_bar0 (Dev.writeBar0_request v hup hhold hk)
    ⟨memRead_memWrite (bytesLE 4 v) (4 * k) hwf, fun _ ha => memGet_memWrite_of_outside (bytesLE 4 v) hwf ha, rfl, .onMbx _ _⟩

/-- Command takes both enables 0 and disturbs no other part than the host endpoint. -/
theorem gives_registerWrite_command_zero (h : s.cfgUp = true) :
    Gives (.registerWrite .config 0x04 4 0) s fun t => t.hif.mse = false ∧ t.hif.bme = false ∧ Only [.hif] s.toDev t := by
  obtain ⟨f, hf, hmse, hbme⟩ := Dev.writeConfig_command_zero h
  exact gives_registerWrite_config hf ⟨hmse, hbme, .onHif _ _⟩

end

/-! ## The statements -/

/-- Settles O4: the block's parts are those of a reset block, and no command waits. -/
theorem resetIsSound : Obligations.ResetIsSound := by
  unfold Obligations.ResetIsSound
  exact ⟨sound_reset, fun _ hc => absurd hc List.not_mem_nil⟩

/-- Settles O24, register by register: each offset lies in its region, and the word written there acts as its equation says. -/
theorem registerWrites : Obligations.RegisterWrites := by
  unfold Obligations.RegisterWrites
  intro s v hup hhold w
  refine ⟨?eventMask, ?eventStatus, ?mbxStatus, ?mbxControl, ?tckStatus, ?bookPage, ?link, ?request, ?command⟩
  case eventMask =>
    exact gives_registerWrite_word .hif hup hhold rfl nofun rfl (Dev.writeWord_eventMask _ w) ⟨rfl, .onHif _ _⟩
  case eventStatus =>
    exact gives_registerWrite_word .hif hup hhold rfl nofun rfl (Dev.writeWord_eventStatus _ w) ⟨rfl, .onHif _ _⟩
  case mbxStatus =>
    exact gives_registerWrite_word .mbx hup hhold rfl nofun rfl (Dev.writeWord_mbxStatus _ w) ⟨rfl, .onMbx _ _⟩
  case mbxControl =>
    exact gives_registerWrite_word .mbx hup hhold rfl nofun rfl (Dev.writeWord_mbxControl _ w) ⟨rfl, .onMbx _ _⟩
  case tckStatus =>
    exact gives_registerWrite_word .tck hup hhold rfl nofun rfl (Dev.writeWord_tckStatus _ w) ⟨rfl, .onTck _ _⟩
  case bookPage =>
    exact gives_registerWrite_word .fbk hup hhold rfl nofun rfl (Dev.writeWord_bookPage _ w) ⟨rfl, .onFbk _ _⟩
  case link => exact gives_registerWrite_word .hif hup hhold rfl nofun rfl (Dev.writeWord_link _ w) rfl
  case request => exact fun k hk hwf => gives_registerWrite_request hup hhold hk hwf
  case command => exact gives_registerWrite_command_zero (Dev.cfgUp_of_memUp hup)

end Sys2Proof.Claims
end
